-- ==== Sys2Proof/Word.lean ====
section
/-! DEFINITION. The word types of Dicel (R4, R33, R201): bytes, parcels, scalar, vector and mask registers. -/
namespace Sys2Proof

/-- A byte of memory. -/
abbrev Byte := BitVec 8
/-- A 32-bit parcel (R33). -/
abbrev Parcel := BitVec 32
/-- A scalar register (R106). -/
abbrev W64 := BitVec 64
/-- A vector register of 512 bytes (R201). -/
abbrev VReg := BitVec 4096
/-- A mask register (R201). -/
abbrev KReg := BitVec 1024

end Sys2Proof
end

