-- ==== Sys2Proof/Syntax.lean ====
section
/-! DEFINITION. The abstract syntax of Dicel: one constructor of `Instr` per row of spec/opcode_table.json.
Rows 0 to 284 are instructions; rows 285 to 362 are the machine's events, steps that no word encodes. -/
namespace Sys2Proof

/-- The gears (R22, R481). -/
inductive Gear where | n | f
  deriving DecidableEq, Repr
/-- The element types of R47, in code order. -/
inductive Ty where
  | f32 | f16 | bf16 | e4m3 | e5m2 | e2m1 | i8 | i16 | i32 | n8 | n16 | n32 | i4 | n4 | e8m0 | b1
  deriving DecidableEq, Repr
/-- The rounding modes of R44, in code order. -/
inductive Rnd where | rne | rtz | rdn | rup | rna | rod | rsr | dyn
  deriving DecidableEq, Repr
/-- The ordering of a memory access (R44, R184). -/
inductive Ord where | plain | rlx | acq | rel | ar
  deriving DecidableEq, Repr
/-- The scopes of R44, R180. -/
inductive Scope where | strand | core | die | dev | sys
  deriving DecidableEq, Repr
/-- The wid field (R44). -/
inductive Wid where | none | pair | quad
  deriving DecidableEq, Repr
/-- The operations of ATOM (R53). -/
inductive AtomOp where
  | add | and | or | xor | min | mins | max | maxs | swap | fadd32 | cas
  deriving DecidableEq, Repr
/-- The planes of Farandole (R316). -/
inductive Plane where | q | a
  deriving DecidableEq, Repr
/-- The mesh ports of a router in the order of R320. -/
inductive Port where | e | w | n | s
  deriving DecidableEq, Repr

/-- Parcel 0 of the layout F-V without MAJ and length (R39). -/
structure VF where
  ty : Ty
  k  : Fin 8
  vb : Fin 32
  va : Fin 32
  vd : Fin 32
  deriving DecidableEq, Repr
/-- The extension X-A (R41). -/
structure XA where
  sub : BitVec 8
  wid : Wid
  bs  : Bool
  sc  : Fin 64
  vc  : Fin 32
  ftz : Bool
  sat : Bool
  vr  : Fin 32
  rnd : Rnd
  deriving DecidableEq, Repr
/-- The extension X-M (R41). -/
structure XM where
  disp  : BitVec 23
  w64   : Bool
  rh    : BitVec 2
  scope : Scope
  ord   : Ord
  deriving DecidableEq, Repr
/-- The extension X-E (R41). -/
structure XE where
  imm : BitVec 12
  tc  : Fin 32
  tb  : Fin 32
  ta  : Fin 32
  td  : Fin 32
  deriving DecidableEq, Repr
/-- The part of a core site that an error lies in (R520). -/
inductive SitePart where | core | slice | router
  deriving DecidableEq, Repr
/-- A unit whose errors Fethen counts (R518). -/
inductive ErrUnit where
  | vaultBank (core bank : Nat) | sliceWay (core way : Nat) | hbmRow (channel row : Nat)
  | pseudo (channel : Nat) (half : Bool) | link (site : Fin 272) (port : Port) | site (core : Fin 256) (part : SitePart)
  deriving DecidableEq, Repr
/-- What crosses a Zikin port into this package: a far command's access (R426, R433), or the far answer to a
command of this package (R428, R437). -/
inductive Remote where
  | write (ctx : BitVec 12) (core : Fin 256) (addr : W64) (data : List Byte) (deposit pois : Bool)
  | update (ctx : BitVec 12) (core : Fin 256) (addr : W64) (op : Fin 4) (src : BitVec 32) (deposit pois : Bool)
  | read (ctx : BitVec 12) (core : Fin 256) (addr : W64) (len : Nat)
  | incr (ctx : BitVec 12) (core : Fin 256) (sem : Fin 64) (count : Nat)
  | answer (cmd : Nat) (data : List Byte) (pois undecoded : Bool)
  | ack (cmd : Nat) (cause : Option Byte)
  deriving DecidableEq, Repr

/-- The instructions and events of the B2. -/
inductive Instr where
  /-- ADD: Sets d to a plus b modulo 2^64. (R122) -/
  | add (d a b : Fin 64)
  /-- SUB: Sets d to a minus b modulo 2^64. (R122) -/
  | sub (d a b : Fin 64)
  /-- AND: Sets d to a AND b. (R122) -/
  | and (d a b : Fin 64)
  /-- OR: Sets d to a OR b. (R122) -/
  | or (d a b : Fin 64)
  /-- XOR: Sets d to a XOR b. (R122) -/
  | xor (d a b : Fin 64)
  /-- SHL: Shifts a left by b[5:0]. (R122) -/
  | shl (d a b : Fin 64)
  /-- SHR: Shifts a right logically by b[5:0]. (R122) -/
  | shr (d a b : Fin 64)
  /-- SAR: Shifts a right arithmetically by b[5:0]. (R122) -/
  | sar (d a b : Fin 64)
  /-- MIN: Sets d to the unsigned minimum of a and b. (R122) -/
  | min (d a b : Fin 64)
  /-- MINS: Sets d to the signed minimum of a and b. (R122) -/
  | mins (d a b : Fin 64)
  /-- MAX: Sets d to the unsigned maximum of a and b. (R122) -/
  | max (d a b : Fin 64)
  /-- MAXS: Sets d to the signed maximum of a and b. (R122) -/
  | maxs (d a b : Fin 64)
  /-- SLT: Sets d to 1 when a is below b unsigned. (R122) -/
  | slt (d a b : Fin 64)
  /-- SLTS: Sets d to 1 when a is below b signed. (R122) -/
  | slts (d a b : Fin 64)
  /-- SEQ: Sets d to 1 when a equals b. (R122) -/
  | seq (d a b : Fin 64)
  /-- SNE: Sets d to 1 when a differs from b. (R122) -/
  | sne (d a b : Fin 64)
  /-- MUL: Sets d to the low 64 bits of a times b. (R122) -/
  | mul (d a b : Fin 64)
  /-- MULHI: Sets d to the high 64 bits of the unsigned product. (R122) -/
  | mulhi (d a b : Fin 64)
  /-- MULHIS: Sets d to the high 64 bits of the signed product. (R122) -/
  | mulhis (d a b : Fin 64)
  /-- DIV: Sets d to the unsigned quotient of a by b under R87. (R122) -/
  | div (d a b : Fin 64)
  /-- DIVS: Sets d to the signed quotient of a by b under R87. (R122) -/
  | divs (d a b : Fin 64)
  /-- REM: Sets d to the unsigned remainder of a by b. (R122) -/
  | rem (d a b : Fin 64)
  /-- REMS: Sets d to the signed remainder of a by b. (R122) -/
  | rems (d a b : Fin 64)
  /-- ANDN: Sets d to a AND NOT b. (R122) -/
  | andn (d a b : Fin 64)
  /-- ORN: Sets d to a OR NOT b. (R122) -/
  | orn (d a b : Fin 64)
  /-- CLZ: Counts leading zero bits of a. (R123) -/
  | clz (d a : Fin 64)
  /-- CTZ: Counts trailing zero bits of a. (R123) -/
  | ctz (d a : Fin 64)
  /-- POPC: Counts one bits of a. (R123) -/
  | popc (d a : Fin 64)
  /-- SEXT_B: Sign-extends a[7:0]. (R123) -/
  | sextB (d a : Fin 64)
  /-- SEXT_H: Sign-extends a[15:0]. (R123) -/
  | sextH (d a : Fin 64)
  /-- SEXT_W: Sign-extends a[31:0]. (R123) -/
  | sextW (d a : Fin 64)
  /-- ZEXT_B: Zero-extends a[7:0]. (R123) -/
  | zextB (d a : Fin 64)
  /-- ZEXT_H: Zero-extends a[15:0]. (R123) -/
  | zextH (d a : Fin 64)
  /-- ZEXT_W: Zero-extends a[31:0]. (R123) -/
  | zextW (d a : Fin 64)
  /-- BREV: Reverses the bits of a. (R123) -/
  | brev (d a : Fin 64)
  /-- BSWAP: Reverses the bytes of a. (R123) -/
  | bswap (d a : Fin 64)
  /-- ADDI: Adds a sign-extended imm11 to a. (R124) -/
  | addi (d a : Fin 64) (imm : BitVec 11)
  /-- ADDI_L: Adds a sign-extended 32-bit literal to a, in length 10. (R124) -/
  | addiL (d a : Fin 64) (imm : BitVec 32)
  /-- ANDI: ANDs a with a zero-extended imm11. (R124) -/
  | andi (d a : Fin 64) (imm : BitVec 11)
  /-- ANDI_L: ANDs a with a zero-extended 32-bit literal. (R124) -/
  | andiL (d a : Fin 64) (imm : BitVec 32)
  /-- ORI: ORs a with a zero-extended imm11. (R124) -/
  | ori (d a : Fin 64) (imm : BitVec 11)
  /-- ORI_L: ORs a with a zero-extended 32-bit literal. (R124) -/
  | oriL (d a : Fin 64) (imm : BitVec 32)
  /-- XORI: XORs a with a sign-extended imm11. (R124) -/
  | xori (d a : Fin 64) (imm : BitVec 11)
  /-- XORI_L: XORs a with a sign-extended 32-bit literal. (R124) -/
  | xoriL (d a : Fin 64) (imm : BitVec 32)
  /-- SLTI: Sets d to 1 when a is below a sign-extended imm11, signed. (R124) -/
  | slti (d a : Fin 64) (imm : BitVec 11)
  /-- SLTI_L: Signed compare of a with a 32-bit literal. (R124) -/
  | sltiL (d a : Fin 64) (imm : BitVec 32)
  /-- SHLI: Shifts a left by an immediate amount. (R125) -/
  | shli (d a : Fin 64) (amt : BitVec 6)
  /-- SHRI: Shifts a right logically by an immediate amount. (R125) -/
  | shri (d a : Fin 64) (amt : BitVec 6)
  /-- SARI: Shifts a right arithmetically by an immediate amount. (R125) -/
  | sari (d a : Fin 64) (amt : BitVec 6)
  /-- ROLI: Rotates a left by an immediate amount. (R125) -/
  | roli (d a : Fin 64) (amt : BitVec 6)
  /-- LI: Loads a sign-extended 32-bit literal into d. (R126) -/
  | li (d : Fin 64) (imm : BitVec 32)
  /-- LIH: Sets the high 32 bits of d from imm11, keeping a[31:0]. (R126) -/
  | lih (d a : Fin 64) (imm : BitVec 11)
  /-- LIH_L: Sets the high 32 bits of d from a literal, keeping a[31:0]. (R126) -/
  | lihL (d a : Fin 64) (imm : BitVec 32)
  /-- ADDPC: Sets d to PC plus 4 × off17. (R127) -/
  | addpc (d : Fin 64) (off : BitVec 17)
  /-- ADDPC_L: Sets d to PC plus 4 × the X-J offset. (R127) -/
  | addpcL (d : Fin 64) (off : BitVec 32)
  /-- BFX: Extracts a zero-extended bit field of a. (R128) -/
  | bfx (d a : Fin 64) (pos wm1 : BitVec 6)
  /-- BFXS: Extracts a sign-extended bit field of a. (R128) -/
  | bfxs (d a : Fin 64) (pos wm1 : BitVec 6)
  /-- BFI: Inserts the low bits of a into a field of d. (R128) -/
  | bfi (d a : Fin 64) (pos wm1 : BitVec 6)
  /-- SEL: Sets d to a if c is nonzero, else b. (R129) -/
  | sel (d c a b : Fin 64)
  /-- FADD: F32 addition rounded RNE. (R130) -/
  | fadd (d a b : Fin 64)
  /-- FADD_L: F32 addition under the rnd of parcel 1. (R130) -/
  | faddL (d a b : Fin 64) (rnd : Rnd)
  /-- FSUB: F32 subtraction rounded RNE. (R130) -/
  | fsub (d a b : Fin 64)
  /-- FSUB_L: F32 subtraction under the rnd of parcel 1. (R130) -/
  | fsubL (d a b : Fin 64) (rnd : Rnd)
  /-- FMUL: F32 multiplication rounded RNE. (R130) -/
  | fmul (d a b : Fin 64)
  /-- FMUL_L: F32 multiplication under the rnd of parcel 1. (R130) -/
  | fmulL (d a b : Fin 64) (rnd : Rnd)
  /-- FMIN: F32 minimum under R91. (R130) -/
  | fmin (d a b : Fin 64) (long : Bool)
  /-- FMAX: F32 maximum under R91. (R130) -/
  | fmax (d a b : Fin 64) (long : Bool)
  /-- FEQ: F32 equality compare under R92. (R130) -/
  | feq (d a b : Fin 64) (long : Bool)
  /-- FLT: F32 less-than compare under R92. (R130) -/
  | flt (d a b : Fin 64) (long : Bool)
  /-- FLE: F32 less-or-equal compare under R92. (R130) -/
  | fle (d a b : Fin 64) (long : Bool)
  /-- FCVT_F32_I64: Converts a signed 64-bit integer to F32, RNE. (R130) -/
  | fcvtF32I64 (d a : Fin 64)
  /-- FCVT_F32_I64_L: Converts a signed 64-bit integer to F32 under rnd. (R130) -/
  | fcvtF32I64L (d a : Fin 64) (rnd : Rnd)
  /-- FCVT_I64_F32: Converts F32 to a saturated signed 64-bit integer, RNE. (R130) -/
  | fcvtI64F32 (d a : Fin 64)
  /-- FCVT_I64_F32_L: Converts F32 to a saturated signed 64-bit integer under rnd. (R130) -/
  | fcvtI64F32L (d a : Fin 64) (rnd : Rnd)
  /-- FFMA: F32 fused multiply-add with one rounding. (R130) -/
  | ffma (d a b c : Fin 64) (rnd : Rnd)
  /-- FABS: Clears bit 31 of a. (R130) -/
  | fabs (d a : Fin 64) (long : Bool)
  /-- FNEG: Inverts bit 31 of a. (R130) -/
  | fneg (d a : Fin 64) (long : Bool)
  /-- BEQ: Branches by off8 when a equals b. (R132) -/
  | beq (a b : Fin 64) (off : BitVec 8)
  /-- BNE: Branches by off8 when a differs from b. (R132) -/
  | bne (a b : Fin 64) (off : BitVec 8)
  /-- BLT: Branches by off8 when a is below b unsigned. (R132) -/
  | blt (a b : Fin 64) (off : BitVec 8)
  /-- BGE: Branches by off8 when a is at least b unsigned. (R132) -/
  | bge (a b : Fin 64) (off : BitVec 8)
  /-- BLTS: Branches by off8 when a is below b signed. (R132) -/
  | blts (a b : Fin 64) (off : BitVec 8)
  /-- BGES: Branches by off8 when a is at least b signed. (R132) -/
  | bges (a b : Fin 64) (off : BitVec 8)
  /-- BEQ_L: Long-form BEQ with an X-J offset. (R133) -/
  | beqL (a b : Fin 64) (off : BitVec 32)
  /-- BNE_L: Long-form BNE with an X-J offset. (R133) -/
  | bneL (a b : Fin 64) (off : BitVec 32)
  /-- BLT_L: Long-form BLT with an X-J offset. (R133) -/
  | bltL (a b : Fin 64) (off : BitVec 32)
  /-- BGE_L: Long-form BGE with an X-J offset. (R133) -/
  | bgeL (a b : Fin 64) (off : BitVec 32)
  /-- BLTS_L: Long-form BLTS with an X-J offset. (R133) -/
  | bltsL (a b : Fin 64) (off : BitVec 32)
  /-- BGES_L: Long-form BGES with an X-J offset. (R133) -/
  | bgesL (a b : Fin 64) (off : BitVec 32)
  /-- JAL: Links PC + 4 into d and jumps by off17. (R134) -/
  | jal (d : Fin 64) (off : BitVec 17)
  /-- JAL_L: Links PC + 8 into d and jumps by the X-J offset. (R134) -/
  | jalL (d : Fin 64) (off : BitVec 32)
  /-- JALR: Jumps to a + imm11, linking PC + 4, trapping if misaligned. (R135) -/
  | jalr (d a : Fin 64) (imm : BitVec 11)
  /-- LOOP: Starts or skips a hardware loop of L parcels on lc0 or lc1. (R136) -/
  | loop (lc : Fin 2) (a : Fin 64) (len : BitVec 11)
  /-- BQPUSH: Appends the bit a ≠ 0 to the branch queue, waiting while it is full. (R140) -/
  | bqpush (a : Fin 64)
  /-- BQB: Pops the branch queue head and branches by off17 if it is 1. (R141) -/
  | bqb (off : BitVec 17)
  /-- BQB_L: Long-form BQB with an X-J offset. (R141) -/
  | bqbL (off : BitVec 32)
  /-- LD_D: Loads a doubleword at a + imm11. (R167) -/
  | ldD (d a : Fin 64) (disp : BitVec 11)
  /-- LD_D_L: Loads a doubleword with disp23, ordering and hint. (R167) -/
  | ldDL (d a : Fin 64) (x : XM)
  /-- LD_W: Loads a sign-extended word at a + imm11. (R167) -/
  | ldW (d a : Fin 64) (disp : BitVec 11)
  /-- LD_W_L: Loads a sign-extended word with disp23, ordering and hint. (R167) -/
  | ldWL (d a : Fin 64) (x : XM)
  /-- ST_D: Stores d as a doubleword at a + imm11. (R167) -/
  | stD (d a : Fin 64) (disp : BitVec 11)
  /-- ST_D_L: Stores a doubleword with disp23, ordering and hint. (R167) -/
  | stDL (d a : Fin 64) (x : XM)
  /-- ST_W: Stores d[31:0] at a + imm11. (R167) -/
  | stW (d a : Fin 64) (disp : BitVec 11)
  /-- ST_W_L: Stores a word with disp23, ordering and hint. (R167) -/
  | stWL (d a : Fin 64) (x : XM)
  /-- LDX: Loads 1, 2, 4 or 8 bytes, zero- or sign-extended. (R168) -/
  | ldx (d a : Fin 64) (w : BitVec 2) (sx : Bool) (x : XM)
  /-- STX: Stores the low 1, 2, 4 or 8 bytes of d. (R168) -/
  | stx (d a : Fin 64) (w : BitVec 2) (x : XM)
  /-- LDV: Loads 512 bytes into a vector register. (R169) -/
  | ldv (vd : Fin 32) (a : Fin 64) (disp : BitVec 12)
  /-- LDV_L: Vector load with disp23 and hint. (R169) -/
  | ldvL (vd : Fin 32) (a : Fin 64) (x : XM)
  /-- STV: Stores 512 bytes of a vector register. (R169) -/
  | stv (vd : Fin 32) (a : Fin 64) (disp : BitVec 12)
  /-- STV_L: Vector store with disp23 and hint. (R169) -/
  | stvL (vd : Fin 32) (a : Fin 64) (x : XM)
  /-- ATOM_ADD: Atomic fetch-and-add at the home of the location. (R170) -/
  | atomAdd (d a b : Fin 64)
  /-- ATOM_AND: Atomic fetch-and-AND. (R170) -/
  | atomAnd (d a b : Fin 64)
  /-- ATOM_OR: Atomic fetch-and-OR. (R170) -/
  | atomOr (d a b : Fin 64)
  /-- ATOM_XOR: Atomic fetch-and-XOR. (R170) -/
  | atomXor (d a b : Fin 64)
  /-- ATOM_MIN: Atomic unsigned minimum. (R170) -/
  | atomMin (d a b : Fin 64)
  /-- ATOM_MINS: Atomic signed minimum. (R170) -/
  | atomMins (d a b : Fin 64)
  /-- ATOM_MAX: Atomic unsigned maximum. (R170) -/
  | atomMax (d a b : Fin 64)
  /-- ATOM_MAXS: Atomic signed maximum. (R170) -/
  | atomMaxs (d a b : Fin 64)
  /-- ATOM_SWAP: Atomic swap. (R170) -/
  | atomSwap (d a b : Fin 64)
  /-- ATOM_FADD32: Atomic F32 addition rounded RNE. (R170) -/
  | atomFadd32 (d a b : Fin 64)
  /-- ATOM_CAS: Atomic compare-and-swap against d. (R170) -/
  | atomCas (d a b : Fin 64)
  /-- ATOM_L: Long-form ATOM with displacement, ordering, scope, hint and width. (R170) -/
  | atomL (op : AtomOp) (d a b : Fin 64) (x : XM)
  /-- FENCE: Full fence at the named scope. (R171) -/
  | fence (scope : Scope)
  /-- FENCE_ACQ: Acquire fence at the named scope. (R171) -/
  | fenceAcq (scope : Scope)
  /-- FENCE_REL: Release fence at the named scope. (R171) -/
  | fenceRel (scope : Scope)
  /-- FENCE_ENG: Orders the strand's accesses before its later engine commands. (R171) -/
  | fenceEng
  /-- FETCHB: Discards fetched parcels and refetches after code changes. (R171) -/
  | fetchb
  /-- RPASS: Passes ownership of an OWNED region to core b after write-back. (R172) -/
  | rpass (a b : Fin 64)
  /-- RSHARE: Makes an OWNED region SHARED-RO after write-back. (R172) -/
  | rshare (a : Fin 64)
  /-- RQUERY: Returns the region entry that covers a. (R173) -/
  | rquery (d a : Fin 64)
  /-- DCWB: Writes a dirty data-cache line back. (R174) -/
  | dcwb (a : Fin 64)
  /-- DCWBI: Writes a dirty line back and invalidates it. (R174) -/
  | dcwbi (a : Fin 64)
  /-- DCINV: Invalidates a data-cache line without write-back. (R174) -/
  | dcinv (a : Fin 64)
  /-- ICINV: Invalidates an instruction-cache line. (R174) -/
  | icinv (a : Fin 64)
  /-- ICINVA: Invalidates the whole instruction cache. (R174) -/
  | icinva
  /-- PREF: Prefetches a line into the data cache or home slice. (R174) -/
  | pref (a : Fin 64) (hint : Fin 3)
  /-- PBINV: Invalidates cached parameter blocks. (R175) -/
  | pbinv (a : Fin 64)
  /-- PUBL: Queues a publication of a host window for commit. (R177) -/
  | publ (a : Fin 64)
  /-- VADD: Element-wise vector addition. (R207) -/
  | vadd (f : VF)
  /-- VADD_L: Vector addition with X-A extension. (R207) -/
  | vaddL (f : VF) (x : XA)
  /-- VSUB: Element-wise vector subtraction. (R207) -/
  | vsub (f : VF)
  /-- VSUB_L: Vector subtraction with X-A extension. (R207) -/
  | vsubL (f : VF) (x : XA)
  /-- VMUL: Element-wise vector multiplication. (R207) -/
  | vmul (f : VF)
  /-- VMUL_L: Vector multiplication with X-A extension. (R207) -/
  | vmulL (f : VF) (x : XA)
  /-- VFMA: Fused multiply-add with vd as addend. (R207) -/
  | vfma (f : VF)
  /-- VFMA_L: Fused multiply-add with X-A extension. (R207) -/
  | vfmaL (f : VF) (x : XA)
  /-- VFNMA: Negated fused multiply-add with vd as addend. (R207) -/
  | vfnma (f : VF)
  /-- VFNMA_L: Negated fused multiply-add with X-A extension. (R207) -/
  | vfnmaL (f : VF) (x : XA)
  /-- VMIN: Element-wise minimum. (R207) -/
  | vmin (f : VF)
  /-- VMIN_L: Element-wise minimum with X-A extension. (R207) -/
  | vminL (f : VF) (x : XA)
  /-- VMAX: Element-wise maximum. (R207) -/
  | vmax (f : VF)
  /-- VMAX_L: Element-wise maximum with X-A extension. (R207) -/
  | vmaxL (f : VF) (x : XA)
  /-- VABS: Element-wise absolute value. (R208) -/
  | vabs (f : VF)
  /-- VABS_L: Absolute value with saturation option. (R208) -/
  | vabsL (f : VF) (x : XA)
  /-- VNEG: Element-wise negation. (R208) -/
  | vneg (f : VF)
  /-- VNEG_L: Negation with saturation option. (R208) -/
  | vnegL (f : VF) (x : XA)
  /-- VLOGIC: Bitwise logic over 4,096 bits; AND in length 00. (R212) -/
  | vlogic (f : VF)
  /-- VLOGIC_L: Bitwise logic selected by sub. (R212) -/
  | vlogicL (f : VF) (x : XA)
  /-- VSHIFT: Element-wise shift; SHL in length 00. (R212) -/
  | vshift (f : VF)
  /-- VSHIFT_L: Element-wise shift or rotate selected by sub. (R212) -/
  | vshiftL (f : VF) (x : XA)
  /-- VCMP: Element-wise compare into a mask; EQ in length 00. (R213) -/
  | vcmp (f : VF)
  /-- VCMP_L: Element-wise compare selected by sub. (R213) -/
  | vcmpL (f : VF) (x : XA)
  /-- VSEL: Selects va or vb per element by mask k. (R213) -/
  | vsel (f : VF)
  /-- VSEL_L: Mask select in length 01. (R213) -/
  | vselL (f : VF) (x : XA)
  /-- VMULW: Widening exact multiplication into a span. (R214) -/
  | vmulw (f : VF) (x : XA)
  /-- VADDW: Widening addition into a span. (R214) -/
  | vaddw (f : VF) (x : XA)
  /-- VDIV: Element-wise FP division. (R209) -/
  | vdiv (f : VF)
  /-- VDIV_L: FP division with X-A extension. (R209) -/
  | vdivL (f : VF) (x : XA)
  /-- VSQRT: Element-wise FP square root. (R209) -/
  | vsqrt (f : VF)
  /-- VSQRT_L: FP square root with X-A extension. (R209) -/
  | vsqrtL (f : VF) (x : XA)
  /-- VAPPROX: Table approximation; RSQRTA in length 00. (R210) -/
  | vapprox (f : VF)
  /-- VAPPROX_L: Table approximation selected by sub. (R210) -/
  | vapproxL (f : VF) (x : XA)
  /-- VRED: Tree reduction; ADD in length 00. (R215) -/
  | vred (f : VF)
  /-- VRED_L: Tree reduction selected by sub. (R215) -/
  | vredL (f : VF) (x : XA)
  /-- VBCAST: Broadcasts a lane of va to every element. (R216) -/
  | vbcast (f : VF)
  /-- VBCAST_L: Broadcasts a lane or a scalar register in length 01. (R216) -/
  | vbcastL (f : VF) (x : XA)
  /-- VBCAST_IMM: Broadcasts the low bits of a 32-bit literal. (R216) -/
  | vbcastImm (f : VF) (imm : BitVec 32)
  /-- VEXT: Extracts a lane into a scalar register. (R217) -/
  | vext (f : VF) (x : XA)
  /-- VINS: Inserts a scalar into one lane. (R217) -/
  | vins (f : VF) (x : XA)
  /-- VPERM: Permutes va by 16-bit indices. (R218) -/
  | vperm (f : VF)
  /-- VPERM_L: Permute in length 01. (R218) -/
  | vpermL (f : VF) (x : XA)
  /-- VSLIDE: Slides the concatenation of va and vb by s elements. (R218) -/
  | vslide (f : VF) (x : XA)
  /-- VPACK: Narrows a span into one register with rounding. (R219) -/
  | vpack (f : VF) (x : XA)
  /-- VUNPK: Widens elements exactly into a span. (R220) -/
  | vunpk (f : VF) (x : XA)
  /-- VCVT: Converts elements between same-width types; F32 source in length 00. (R221) -/
  | vcvt (f : VF)
  /-- VCVT_L: Same-width conversion with source type and rounding. (R221) -/
  | vcvtL (f : VF) (x : XA)
  /-- VQNT: Quantises F32 into N8 or N16 with E8M0 block scales. (R222) -/
  | vqnt (f : VF) (x : XA)
  /-- VPLANE: Converts between element and plane layout under control s0. (R223) -/
  | vplane (f : VF)
  /-- VPLANE_L: Plane conversion with a control scalar. (R223) -/
  | vplaneL (f : VF) (x : XA)
  /-- TRW: Writes va into a row of a tile register. (R225) -/
  | trw (f : VF) (x : XA)
  /-- TRC: Reads a tile register column into vd. (R226) -/
  | trc (f : VF) (x : XA)
  /-- STRMAP: Maps v30 and v31 to ring pop and push ports. (R227) -/
  | strmap (a b : Fin 64)
  /-- VMOV: Copies va to vd, popping or pushing ring slots when mapped. (R230) -/
  | vmov (f : VF)
  /-- VMOV_L: Vector move in length 01. (R230) -/
  | vmovL (f : VF) (x : XA)
  /-- VIOTA: Sets each element to its index. (R230) -/
  | viota (f : VF)
  /-- VIOTA_L: Sets each element to start plus its index. (R230) -/
  | viotaL (f : VF) (x : XA)
  /-- VCLAMP: Clamps va between vb and vc. (R211) -/
  | vclamp (f : VF) (x : XA)
  /-- TDSET: Sets a task-local override of a tensor descriptor. (R265) -/
  | tdset (a b : Fin 64)
  /-- TDSET_L: TDSET consuming tokens. (R265) -/
  | tdsetL (a b : Fin 64) (x : XE)
  /-- TDGET: Reads a word of a tensor descriptor. (R266) -/
  | tdget (d a b : Fin 64) (long : Bool)
  /-- MCFG: Loads a loop-nest configuration into the shadow set. (R267) -/
  | mcfg (a : Fin 64)
  /-- MCFG_L: MCFG consuming tokens. (R267) -/
  | mcfgL (a : Fin 64) (x : XE)
  /-- MCFGR: Reads a word of the shadow or active set. (R268) -/
  | mcfgr (d b : Fin 64) (long : Bool)
  /-- MLDB: Loads a B tile into bank 0. (R269) -/
  | mldb (a b : Fin 64)
  /-- MLDB_L: Loads a B tile into a named bank with tokens. (R269) -/
  | mldbL (a b : Fin 64) (x : XE)
  /-- MGO: Starts or queues the shadow-set nest without a token. (R270) -/
  | mgo
  /-- MGO_L: Starts or queues the nest with produced and consumed tokens. (R270) -/
  | mgoL (x : XE)
  /-- MZERO: Zeroes the accumulator file, poison bits and mflag. (R271) -/
  | mzero (long : Bool)
  /-- MRD: Reads 128 accumulator elements into vd. (R272) -/
  | mrd (vd : Fin 32) (a : Fin 64) (long : Bool)
  /-- MWR: Writes 128 accumulator elements from vd. (R272) -/
  | mwr (vd : Fin 32) (a : Fin 64) (long : Bool)
  /-- MSTAT: Returns a matrix engine status word. (R273) -/
  | mstat (d a : Fin 64) (long : Bool)
  /-- MCHK: Sets numerical-check sampling. (R274) -/
  | mchk (a : Fin 64) (long : Bool)
  /-- MABORT: Stops the running nest and removes any queued nest. (R275) -/
  | mabort (long : Bool)
  /-- CPY: Queues a copy described by a parameter block. (R302) -/
  | cpy (q : Fin 4) (a : Fin 64)
  /-- CPY_L: CPY with tokens. (R302) -/
  | cpyL (q : Fin 4) (a : Fin 64) (x : XE)
  /-- CPYS: Queues a byte copy without a block. (R303) -/
  | cpys (q : Fin 4) (d a b : Fin 64)
  /-- CPYS_L: CPYS with tokens, hint and semaphore. (R303) -/
  | cpysL (q : Fin 4) (d a b : Fin 64) (x : XE)
  /-- GATH: Queues a gather with an indexed source. (R302) -/
  | gath (q : Fin 4) (a : Fin 64)
  /-- GATH_L: GATH with tokens. (R302) -/
  | gathL (q : Fin 4) (a : Fin 64) (x : XE)
  /-- SCAT: Queues a scatter with an indexed destination. (R302) -/
  | scat (q : Fin 4) (a : Fin 64)
  /-- SCAT_L: SCAT with tokens. (R302) -/
  | scatL (q : Fin 4) (a : Fin 64) (x : XE)
  /-- FILL: Queues a fill with an 8-byte pattern. (R302) -/
  | fill (q : Fin 4) (a : Fin 64)
  /-- FILL_L: FILL with tokens. (R302) -/
  | fillL (q : Fin 4) (a : Fin 64) (x : XE)
  /-- QSEMW: Queues a wait that subtracts from a local semaphore. (R304) -/
  | qsemw (q : Fin 4) (sem : Fin 64)
  /-- QSEMW_L: QSEMW with count and tokens. (R304) -/
  | qsemwL (q : Fin 4) (sem : Fin 64) (x : XE)
  /-- QFLUSH: Removes every command of a queue. (R305) -/
  | qflush (q : Fin 4)
  /-- QDRAIN: Waits for earlier commands of a queue and acquires their tokens. (R305) -/
  | qdrain (q : Fin 4)
  /-- QSTAT: Returns the queue's status word. (R306) -/
  | qstat (q : Fin 4) (d : Fin 64)
  /-- QWS: Returns the queue's wait state. (R307) -/
  | qws (q : Fin 4) (d : Fin 64)
  /-- TWAIT: Waits on and acquires tokens, trapping on a faulted one. (R343) -/
  | twait (x : XE)
  /-- TTEST: Reports a token's state without waiting. (R343) -/
  | ttest (d : Fin 64) (ta : Fin 32)
  /-- SEMACQ: Waits until served, then subtracts from a semaphore. (R347) -/
  | semacq (sem : Fin 64)
  /-- SEMACQ_L: SEMACQ with count and tokens. (R347) -/
  | semacqL (sem : Fin 64) (x : XE)
  /-- SEMREL: Adds to a local or remote semaphore. (R347) -/
  | semrel (sem : Fin 64) (a : Fin 64)
  /-- SEMREL_L: SEMREL with count and tokens. (R347) -/
  | semrelL (sem : Fin 64) (a : Fin 64) (x : XE)
  /-- SEMRD: Reads a semaphore count. (R347) -/
  | semrd (d : Fin 64) (sem : Fin 64) (x : Option XE)
  /-- SEMSET: Sets a semaphore count and tests waiters. (R347) -/
  | semset (sem : Fin 64) (a : Fin 64) (x : Option XE)
  /-- BARCFG: Configures a home barrier from a 64-byte block. (R348) -/
  | barcfg (b : Fin 48) (a : Fin 64) (x : Option XE)
  /-- BARARR: Arrives at a barrier and sets the arrival record. (R351) -/
  | bararr (b : Fin 48) (a : Fin 64) (x : Option XE)
  /-- BARWAIT: Waits until the arrival record is released. (R351) -/
  | barwait (b : Fin 48) (a : Fin 64) (x : Option XE)
  /-- BARSYNC: Arrives, unless resuming, and waits. (R351) -/
  | barsync (b : Fin 48) (a : Fin 64) (x : Option XE)
  /-- BARTEST: Reads the arrival record without waiting. (R351) -/
  | bartest (b : Fin 48) (d a : Fin 64) (x : Option XE)
  /-- TEND: Ends the issuing strand. (R390) -/
  | tend
  /-- TSELF: Returns task id, MTS or task status word. (R391) -/
  | tself (d : Fin 64) (w : Fin 3)
  /-- LDLR: Reads a step loop register of the task's bank. (R392) -/
  | ldlr (d : Fin 64) (n : Fin 16)
  /-- TSPAWN: Adds a template instance to the spawn list. (R393) -/
  | tspawn (a b : Fin 64)
  /-- TABORT: Aborts the task and fails its node. (R394) -/
  | tabort (a : Fin 64)
  /-- REUSE_QUERY: Returns the Chaconne evaluation of this instance. (R395) -/
  | reuseQuery (d : Fin 64)
  /-- REUSE_ANCHOR: Cancels an earlier REUSE.DROP. (R395) -/
  | reuseAnchor
  /-- REUSE_DROP: Requests invalidation of the Chaconne entry at commit. (R395) -/
  | reuseDrop
  /-- TMARK: Records a tile index for a marker slot at commit. (R396) -/
  | tmark (a b : Fin 64)
  /-- TYIELD: Offers the core to a higher-priority head task. (R397) -/
  | tyield (d : Fin 64)
  /-- RNGKEY: Loads the 256-bit seed from memory. (R416) -/
  | rngkey (a : Fin 64)
  /-- RNG_BITS: Writes draw 0 unchanged into vd. (R419) -/
  | rngBits (f : VF)
  /-- RNG_BITS_L: Writes draw D unchanged into vd. (R419) -/
  | rngBitsL (f : VF) (x : XA)
  /-- RNG_UNI: Writes uniform F32 values in [0, 1). (R419) -/
  | rngUni (f : VF) (x : XA)
  /-- RNG_NORM: Writes normal samples by table interpolation. (R421) -/
  | rngNorm (f : VF) (x : XA)
  /-- RNG_GUMB: Writes Gumbel samples by table interpolation. (R421) -/
  | rngGumb (f : VF) (x : XA)
  /-- RNG_DROP: Writes a keep mask from rngq.Q. (R419) -/
  | rngDrop (f : VF) (x : XA)
  /-- VGMAX: Gumbel-max sampling over 128 scores with draw 0. (R422) -/
  | vgmax (f : VF)
  /-- VGMAX_L: Gumbel-max sampling with draw D. (R422) -/
  | vgmaxL (f : VF) (x : XA)
  /-- XCPY: Queues a push or pull copy to another package. (R432) -/
  | xcpy (q : Fin 4) (a b : Fin 64)
  /-- XCPY_L: XCPY with tokens. (R432) -/
  | xcpyL (q : Fin 4) (a b : Fin 64) (x : XE)
  /-- HALO: Sends halo strips to neighbouring packages. (R435) -/
  | halo (q : Fin 4) (a : Fin 64)
  /-- HALO_L: HALO with tokens. (R435) -/
  | haloL (q : Fin 4) (a : Fin 64) (x : XE)
  /-- XRED: Pushes an FADD32 reduction into another package. (R433) -/
  | xred (q : Fin 4) (a b : Fin 64)
  /-- XRED_L: Pushes a reduction selected by imm12 with tokens. (R433) -/
  | xredL (q : Fin 4) (a b : Fin 64) (x : XE)
  /-- XSIG: Adds 1 to a semaphore at another package. (R436) -/
  | xsig (sem : Fin 64) (a : Fin 64)
  /-- XSIG_L: XSIG with count and tokens. (R436) -/
  | xsigL (sem : Fin 64) (a : Fin 64) (x : XE)
  /-- TRAP: Raises a software trap with code 0x10 to 0x1F. (R454) -/
  | trap (code : Fin 16) (a : Fin 64)
  /-- ERET_RERUN: Ends the handler and re-runs the task. (R448) -/
  | eretRerun
  /-- ERET_ABORT: Ends the handler and aborts the task. (R448) -/
  | eretAbort
  /-- ERET_RESUME: Ends the handler and resumes the task from the frame. (R448) -/
  | eretResume
  /-- CSRR: Reads a CSR into d. (R455) -/
  | csrr (d : Fin 64) (csr : BitVec 11)
  /-- CSRW: Writes a to a CSR and returns the old value. (R455) -/
  | csrw (d a : Fin 64) (csr : BitVec 11)
  /-- CSRW_SET: Sets CSR bits from a and returns the old value. (R455) -/
  | csrwSet (d a : Fin 64) (csr : BitVec 11)
  /-- CSRW_CLR: Clears CSR bits from a and returns the old value. (R455) -/
  | csrwClr (d a : Fin 64) (csr : BitVec 11)
  /-- GEAR: Changes the core's gear, returning the old gear. (R486) -/
  | gear (d : Fin 64) (g : Gear)
  /-- TIME: Reads DCLK, cycle counts or the media timestamp. (R487) -/
  | time (d : Fin 64) (src : Fin 4)
  /-- STRSTART: Starts an unnamed strand of the task at an address. (R457) -/
  | strstart (a b : Fin 64)
  /-- STRSTOP: Ends a strand of the task at its next boundary. (R458) -/
  | strstop (a : Fin 64)
  /-- WFE: Waits until the wake latch is nonzero and returns it. (R459) -/
  | wfe (d : Fin 64)
  /-- TLBINV: Invalidates TLB entries and the parameter-block cache. (R460) -/
  | tlbinv (a : Fin 64)
  /-- BREAK: Raises software trap 0x1F with BRK set. (R461) -/
  | brk (a : Fin 64)
  /-- CTXID: Returns the context id and partition. (R461) -/
  | ctxid (d : Fin 64)
  /-- HANDLER_ENTRY: Strand 0 enters S mode at tvec.ENTRY once the trap frame write is acknowledged. (R446) -/
  | handlerEntry (c : Fin 256)
  /-- NOTICE_DELIVERY: Diverts strand 0 to the handler for an enabled notice at its next boundary. (R451) -/
  | noticeDelivery (c : Fin 256)
  /-- OVERRUN: tcyc.USED passes the budget and the task stops with cause OVERRUN. (R404) -/
  | overrun (c : Fin 256)
  /-- DISCARD: After the nest abort and queue flush, the task's version is discarded and it returns to the pool or fails. (R379) -/
  | discard (c : Fin 256)
  /-- POWER_ON_RESET: Fethen measures and verifies firmware, then releases cores or enters recovery. (R515) -/
  | powerOnReset
  /-- CHECK: Fethen checks a recovery image and writes it to flash. (R516) -/
  | check
  /-- COMMIT: Fethen raises the fused minimum security version. (R516) -/
  | commit
  /-- ATTEST: Fethen signs an attestation report over the nonce. (R517) -/
  | attest
  /-- SUBMIT: Host write of a slot number copies a launch record and queues the launch. (R359) -/
  | submit (p : Fin 16) (v : BitVec 64)
  /-- LAUNCH_START: Pavane checks the launch, invalidates Chaconne entries and loads both banks. (R365) -/
  | launchStart (p : Fin 16) (j : BitVec 8)
  /-- CHACONNE_EVALUATE: Chaconne decides whether an eligible instance is skipped. (R382) -/
  | chaconneEvaluate (p : Fin 16) (j : BitVec 8) (n : BitVec 12) (k : BitVec 10) (i : BitVec 12)
  /-- TASK_PLACEMENT: The pool places the head task on a ranked candidate core. (R374) -/
  | taskPlacement (p : Fin 16)
  /-- SHADOW_BANK_SWAP: The shadow bank becomes active in 48 cycles and strands start at their entries. (R376) -/
  | shadowBankSwap (c : Fin 256)
  /-- TASK_COMMIT: Commits the version, releases host writes, records markers and updates Chaconne. (R378) -/
  | taskCommit (c : Fin 256)
  /-- TIME_SLICE_EXPIRY: At slice expiry the partition selects the next context with work. (R463) -/
  | timeSliceExpiry (p : Fin 16)
  /-- SHADOW_FILL: Galliard begins filling the shadow bank 8 µs before expiry. (R464) -/
  | shadowFill (c : Fin 256)
  /-- GALLIARD_SPILL: Galliard spills the outgoing state to the save area in the background. (R464) -/
  | galliardSpill (c : Fin 256)
  /-- SPILL_RESUME: Host write of spill.RESUME continues the stopped spill or fill. (R470) -/
  | spillResume (c : Fin 256)
  /-- NEST_START: A queued MGO copies the shadow set and starts when the engine becomes idle. (R253) -/
  | nestStart (c : Fin 256)
  /-- PASS: The engine performs one pass of the nest into the accumulator file. (R247) -/
  | pass (c : Fin 256)
  /-- DRAIN: Converts and writes an accumulator region to OUT. (R255) -/
  | drain (c : Fin 256)
  /-- BANK_LOAD: A B tile finishes loading into a bank and the token completes. (R269) -/
  | bankLoad (c : Fin 256)
  /-- COPY_COMMAND_START: A command at the head of its queue starts once its waits end. (R282) -/
  | copyCommandStart (c : Fin 256) (q : Fin 4)
  /-- RING_RESERVE: A ring-destination command reserves N slots once FREE allows. (R299) -/
  | ringReserve (c : Fin 256) (q : Fin 4)
  /-- COPY_REQUEST_ISSUE: The engine issues one fabric request or vault access per core cycle. (R283) -/
  | copyRequestIssue (c : Fin 256) (q : Fin 4)
  /-- COPY_COMMAND_COMPLETE: A command completes after its last element, raising its semaphore. (R294) -/
  | copyCommandComplete (c : Fin 256) (q : Fin 4)
  /-- READ_REQUEST: A Q-plane read request is applied at its home. (R318) -/
  | readRequest (m : Nat)
  /-- WRITE: A Q-plane write is applied at its home. (R318) -/
  | write (m : Nat)
  /-- ATOMIC_OR_ORDERED_ACCESS: A Q-plane atomic or ordered access is performed at its home. (R318) -/
  | atomicOrOrderedAccess (m : Nat)
  /-- SEMAPHORE_INCREMENT: A remote semaphore increment is applied at the target. (R344) -/
  | semaphoreIncrement (m : Nat)
  /-- BARRIER_ARRIVAL: A remote arrival is counted at the home, releasing participants at P. (R349) -/
  | barrierArrival (m : Nat)
  /-- RING_PUSH: A Q-plane ring push fills a ring slot. (R318) -/
  | ringPush (m : Nat)
  /-- CONTROL_SPACE_ACCESS: A control-space access reaches the strand's partition block. (R510) -/
  | controlSpaceAccess (m : Nat)
  /-- READ_ANSWER: An A-plane read answer is written at the requester. (R318) -/
  | readAnswer (m : Nat)
  /-- WRITE_ACKNOWLEDGEMENT: An acknowledgement releases a held write of the core. (R322) -/
  | writeAcknowledgement (m : Nat)
  /-- ATOMIC_ANSWER: An A-plane atomic answer returns the old value. (R318) -/
  | atomicAnswer (m : Nat)
  /-- BARRIER_RELEASE: A release message reaches a remote participant. (R349) -/
  | barrierRelease (m : Nat)
  /-- RECORD_RELEASE: Arrival records become released 4 core cycles after the release. (R349) -/
  | recordRelease (c : Fin 256)
  /-- BARRIER_DROP: A core waiting W cycles in barriers drops to gear N. (R354) -/
  | barrierDrop (c : Fin 256)
  /-- BARRIER_RETURN: A dropped core returns to gear F once a release is due. (R354) -/
  | barrierReturn (c : Fin 256)
  /-- ARBITRATE: A router assigns each arriving flit to an eject, productive or deflecting port. (R320) -/
  | arbitrate (plane : Plane)
  /-- ADMISSION: A message is admitted when the die's cap has room for all its flits. (R325) -/
  | admission (m : Nat)
  /-- INJECTION_RELIEF: A candidate waiting 64 cycles requests injection relief. (R327) -/
  | injectionRelief (plane : Plane) (site : Fin 272)
  /-- LINK_REPLAY: A link replays an unconfirmed flit. (R331) -/
  | linkReplay (plane : Plane) (site : Fin 272) (port : Port)
  /-- LINK_DEAD: After 16 failed replays the link is marked dead. (R331) -/
  | linkDead (plane : Plane) (site : Fin 272) (port : Port)
  /-- DISTANCE_TABLE_LOAD: Firmware loads new live distance tables and netcfg changes. (R331) -/
  | distanceTableLoad
  /-- HBM_FILL: A slice miss completes its HBM fill and allocates under the hint. (R152) -/
  | hbmFill (line : Nat) (rh : BitVec 2)
  /-- TABLE_WALK: The die walker completes a page-table walk. (R149) -/
  | tableWalk (c : Fin 256) (va : BitVec 64)
  /-- GEAR_TRANSITION_COMPLETE: The core clock restarts in the new gear 256 fabric cycles after the stop. (R482) -/
  | gearTransitionComplete (c : Fin 256)
  /-- ACTIVITY_WINDOW_RESET: At POS = 0 the activity accumulator is cleared. (R490) -/
  | activityWindowReset (c : Fin 256)
  /-- CONTROLLER_PERIOD: Each 256 fabric cycles the controller raises or lowers throttle levels and holds. (R493) -/
  | controllerPeriod
  /-- THERMAL_LIMIT_UPDATE: Each millisecond the thermal limit moves by 50 W. (R494) -/
  | thermalLimitUpdate (hot cool : Bool)
  /-- THERMAL_STOP: At 115 °C every core clock stops and the host is told. (R32) -/
  | thermalStop (site : Fin 272) (temp : BitVec 8)
  /-- CAP_MESSAGE: A rack cap message is accepted or ignored by sequence number. (R496) -/
  | capMessage (lo hi : BitVec 64)
  /-- LEASE_EXPIRY: The fallback cap comes into force when the lease expires. (R497) -/
  | leaseExpiry
  /-- ERROR_COUNT: A correction or replay counts one error against its unit. (R518) -/
  | errorCount (u : ErrUnit) (uncorrectable : Bool)
  /-- CORE_LEAVES_PARTITION: A resized core leaves once its running and pre-empted tasks end. (R388) -/
  | coreLeavesPartition (c : Fin 256)
  /-- REGISTER: Checks a context record and installs the context. (R511) -/
  | register (p : Fin 16) (j : BitVec 8)
  /-- UNREGISTER: Removes a context not in use. (R511) -/
  | unregister (p : Fin 16) (j : BitVec 8)
  /-- RESIZE: Moves a logical core to another partition or none. (R388) -/
  | resize (c : Fin 256) (target : Option (Fin 16))
  /-- RELEASE: Passes a lent vault to a partition. (R511) -/
  | release (c : Fin 256) (p : Fin 16)
  /-- HOST_WINDOW_ENTRY_WRITE: A host write of a valid entry loads the window's version counter. (R509) -/
  | hostWindowEntryWrite (p : Fin 16) (w : BitVec 8) (v : BitVec 256)
  /-- BAR2_ACCESS: A host access through BAR2 is performed at the home slice. (R506) -/
  | bar2Access (fn : Fin 17) (off : BitVec 36) (wr : Option (BitVec 64))
  /-- HOST_REGISTER_WRITE: A host write to a BAR0 location without a row of its own. (R505) -/
  | hostRegisterWrite (fn : Fin 17) (off : BitVec 26) (v : BitVec 64)
  /-- REMOTE_ACCESS: A Zikin Link access is checked and applied at the far package. (R426) -/
  | remoteAccess (r : Remote)
  /-- LINK_TRAINING: Zikin Link training assigns package ids and routes. (R425) -/
  | linkTraining (id : BitVec 8) (table : BitVec 8) (up cmp : BitVec 8)
  /-- CLOCK_ALIGNMENT: Every 1 ms linked package clocks are checked and slewed. (R429) -/
  | clockAlignment (delta : BitVec 16)
  /-- PTM_CORRECTION: DCLK is corrected towards PTM time at least every 10 ms. (R514) -/
  | ptmCorrection (delta : BitVec 16)
  /-- BQ: A write of 1 to bq.CLR empties the branch queue. (R119) -/
  | bq (v : BitVec 64)
  /-- AGE: A write of age.LIMIT stores at least 16 from the next cycle. (R117) -/
  | age (v : BitVec 64)
  /-- RMODE: A write of rmode stores a mode, ignoring 111. (R45) -/
  | rmode (v : BitVec 64)
  /-- PGROOT: A write of pgroot invalidates the parameter-block cache. (R287) -/
  | pgroot (v : BitVec 64)
  /-- TDTAB: A write of tdtab clears bank tags and refreshes descriptors. (R239) -/
  | tdtab (v : BitVec 64)
  /-- RINGTAB: A write of ringtab resets every ring's counters. (R298) -/
  | ringtab (v : BitVec 64)
  /-- QF: A write of 1 to qf.CLR clears the queue's fault record. (R311) -/
  | qf (q : Fin 4) (v : BitVec 64)
  /-- ACTCTL: A write of actctl clamps BUDGET and resets the window on a WINDOW change. (R491) -/
  | actctl (v : BitVec 64)
  /-- TELST: A write of 1 to telst.CLR clears LOST and FULL. (R502) -/
  | telst (v : BitVec 64)
  /-- ZIKIN_LINK_FAILURE: A Zikin Link port fails while commands are in flight; every element not yet acknowledged faults with PROTECTION and zklink.UP changes. (R437) -/
  | zikinLinkFailure (port : Fin 8)
  deriving DecidableEq, Repr

end Sys2Proof
end

