-- ==== Sys2Proof/WellFormed.lean ====
section
/-! DEFINITION. Which terms of `Instr` an encoding can hold (R33 to R56): the checks that no field type makes.
The decoder uses the same checks on raw fields, and reports the lowest reason code (R56). -/
namespace Sys2Proof

/-- The ty codes of R47. -/
def Ty.code : Ty → Nat
  | .f32 => 0 | .f16 => 1 | .bf16 => 2 | .e4m3 => 3 | .e5m2 => 4 | .e2m1 => 5 | .i8 => 6 | .i16 => 7
  | .i32 => 8 | .n8 => 9 | .n16 => 10 | .n32 => 11 | .i4 => 12 | .n4 => 13 | .e8m0 => 14 | .b1 => 15
/-- The type of a ty code below 16 (R47). -/
def Ty.dec : Nat → Ty
  | 0 => .f32 | 1 => .f16 | 2 => .bf16 | 3 => .e4m3 | 4 => .e5m2 | 5 => .e2m1 | 6 => .i8 | 7 => .i16
  | 8 => .i32 | 9 => .n8 | 10 => .n16 | 11 => .n32 | 12 => .i4 | 13 => .n4 | 14 => .e8m0 | _ => .b1
/-- Bits of an element (R47). -/
def Ty.bits : Ty → Nat
  | .f32 | .i32 | .n32 => 32 | .f16 | .bf16 | .i16 | .n16 => 16
  | .e4m3 | .e5m2 | .i8 | .n8 | .e8m0 => 8 | .e2m1 | .i4 | .n4 => 4 | .b1 => 1
/-- Elements of a vector register (R47). -/
def Ty.elems (t : Ty) : Nat := 4096 / t.bits
/-- The rnd codes of R44. -/
def Rnd.code : Rnd → Nat
  | .rne => 0 | .rtz => 1 | .rdn => 2 | .rup => 3 | .rna => 4 | .rod => 5 | .rsr => 6 | .dyn => 7
/-- The mode of an rnd code (R44). -/
def Rnd.dec : Nat → Rnd
  | 0 => .rne | 1 => .rtz | 2 => .rdn | 3 => .rup | 4 => .rna | 5 => .rod | 6 => .rsr | _ => .dyn
/-- The ord codes of R44. -/
def Ord.code : Ord → Nat | .plain => 0 | .rlx => 1 | .acq => 2 | .rel => 3 | .ar => 4
def Ord.dec : Nat → Ord | 0 => .plain | 1 => .rlx | 2 => .acq | 3 => .rel | _ => .ar
/-- The scope codes of R44. -/
def Scope.code : Scope → Nat | .strand => 0 | .core => 1 | .die => 2 | .dev => 3 | .sys => 4
def Scope.dec : Nat → Scope | 0 => .strand | 1 => .core | 2 => .die | 3 => .dev | _ => .sys
/-- The wid codes of R44. -/
def Wid.code : Wid → Nat | .none => 0 | .pair => 1 | .quad => 2
def Wid.dec : Nat → Wid | 0 => .none | 1 => .pair | _ => .quad
/-- The op codes of ATOM (R53). -/
def AtomOp.code : AtomOp → Nat
  | .add => 0 | .and => 1 | .or => 2 | .xor => 3 | .min => 4 | .mins => 5 | .max => 6 | .maxs => 7 | .swap => 8
  | .fadd32 => 9 | .cas => 10
def AtomOp.dec : Nat → AtomOp
  | 0 => .add | 1 => .and | 2 => .or | 3 => .xor | 4 => .min | 5 => .mins | 6 => .max | 7 => .maxs | 8 => .swap
  | 9 => .fadd32 | _ => .cas

/-- A Bool as a bit. -/
def bit (b : Bool) : Nat := if b then 1 else 0
/-- The low bits of a number as a register number. -/
def fin (n : Nat) [NeZero n] (x : Nat) : Fin n := Fin.ofNat n x
/-- The low bits of a number as an immediate. -/
def bv (w x : Nat) : BitVec w := BitVec.ofNat w x

/-! ## Fields of F-V and X-A (R39, R41) -/
def fvVd (w : Nat) : Nat := w / 2 ^ 9 % 32
def fvVa (w : Nat) : Nat := w / 2 ^ 14 % 32
def fvVb (w : Nat) : Nat := w / 2 ^ 19 % 32
def fvK (w : Nat) : Nat := w / 2 ^ 24 % 8
def fvTy (w : Nat) : Nat := w / 2 ^ 27 % 32
def xaRnd (w : Nat) : Nat := w % 8
def xaVr (w : Nat) : Nat := w / 2 ^ 3 % 32
def xaSat (w : Nat) : Nat := w / 2 ^ 8 % 2
def xaFtz (w : Nat) : Nat := w / 2 ^ 9 % 2
def xaVc (w : Nat) : Nat := w / 2 ^ 10 % 32
def xaSc (w : Nat) : Nat := w / 2 ^ 15 % 64
def xaBs (w : Nat) : Nat := w / 2 ^ 21 % 2
def xaWid (w : Nat) : Nat := w / 2 ^ 22 % 4
def xaSub (w : Nat) : Nat := w / 2 ^ 24 % 256
/-- Parcel 0 of a vector instruction (R39). -/
def VF.word (f : VF) (maj len : Nat) : Nat :=
  len + 4 * maj + 2 ^ 9 * f.vd.val + 2 ^ 14 * f.va.val + 2 ^ 19 * f.vb.val + 2 ^ 24 * f.k.val + 2 ^ 27 * f.ty.code
def VF.dec (w : Nat) : VF := ⟨Ty.dec (fvTy w), fin 8 (fvK w), fin 32 (fvVb w), fin 32 (fvVa w), fin 32 (fvVd w)⟩
/-- Parcel 1 of class X-A (R41). -/
def XA.word (x : XA) : Nat :=
  x.rnd.code + 2 ^ 3 * x.vr.val + 2 ^ 8 * bit x.sat + 2 ^ 9 * bit x.ftz + 2 ^ 10 * x.vc.val + 2 ^ 15 * x.sc.val
    + 2 ^ 21 * bit x.bs + 2 ^ 22 * x.wid.code + 2 ^ 24 * x.sub.toNat
def XA.dec (w : Nat) : XA where
  sub := bv 8 (xaSub w)
  wid := Wid.dec (xaWid w)
  bs := xaBs w == 1
  sc := fin 64 (xaSc w)
  vc := fin 32 (xaVc w)
  ftz := xaFtz w == 1
  sat := xaSat w == 1
  vr := fin 32 (xaVr w)
  rnd := Rnd.dec (xaRnd w)
/-- The extension that length 00 reads (R34). -/
def XA.zero : XA := ⟨0, .none, false, 0, 0, false, false, 0, .rne⟩

/-! ## The vector field rules (R204 to R206, R418, R422) -/

/-- A code among a list of codes. -/
def among (n : Nat) (l : List Nat) : Bool := l.any (· == n)
/-- FA and IA of R206 as ty codes. -/
def codesFA : List Nat := [0, 1, 2]
def codesArith : List Nat := [0, 1, 2, 6, 7, 8, 9, 10, 11]
/-- The width class of a ty code that VCVT accepts (R221); 0 for B1. -/
def cvtWidth (t : Nat) : Nat :=
  if among t [0, 8, 11] then 32 else if among t [1, 2, 7, 10] then 16 else if among t [3, 4, 14, 6, 9] then 8
  else if among t [5, 12, 13] then 4 else 0
/-- Whether the type (with wid and sub) is one the instruction accepts (R206, R214, R219 to R223, R418, R422). -/
def vecTypeOk (maj ty wid sub : Nat) : Bool :=
  if among maj [0x28, 0x29, 0x2A, 0x2B, 0x2C, 0x2D, 0x2E, 0x2F, 0x30, 0x49, 0x4A] then among ty codesArith
  else if maj = 0x32 then decide (6 ≤ ty ∧ ty ≤ 13)
  else if among maj [0x33, 0x3E, 0x45, 0x46] then ty != 15
  else if maj = 0x35 ∨ maj = 0x36 then
    (wid == 1 && among ty [12, 13, 6, 9, 7, 10, 1, 2]) || (wid == 2 && among ty [12, 13, 6, 9, 3, 4])
  else if maj = 0x37 ∨ maj = 0x38 then among ty codesFA
  else if maj = 0x39 ∨ maj = 0x72 then ty == 0
  else if maj = 0x3A then among ty (12 :: 13 :: codesArith)
  else if maj = 0x40 then (wid == 1 && among ty [1, 2, 7, 10]) || (wid == 2 && among ty [3, 4, 14, 6, 9, 5])
  else if maj = 0x41 then (wid == 1 && among ty [1, 2, 7, 10]) || (wid == 2 && among ty [3, 4, 5, 14, 6, 9, 12, 13])
  else if maj = 0x42 then cvtWidth ty != 0 && cvtWidth ty == cvtWidth (sub % 32)
  else if maj = 0x43 then (ty == 9 && wid == 2) || (ty == 10 && wid == 1)
  else if maj = 0x44 then among ty [13, 9, 10, 11]
  else if maj = 0x71 then
    if sub = 0 then true else if sub = 4 then among ty [0, 8, 11, 1, 2, 7, 10] else ty == 0
  else true
/-- Whether a ty code is floating point (R71). -/
def codeFp (ty : Nat) : Bool := decide (ty ≤ 5) || ty == 14
/-- Whether the instruction rounds, so that rnd may be nonzero (R204, R206). -/
def vecRounds (maj ty sub : Nat) : Bool :=
  if among maj [0x28, 0x29, 0x2A, 0x2B, 0x2C, 0x49] then among ty codesFA
  else if maj = 0x35 ∨ maj = 0x36 then codeFp ty
  else if among maj [0x37, 0x38, 0x43] then true
  else if maj = 0x3A then among ty codesFA && sub == 0
  else if maj = 0x40 then codeFp ty
  else if maj = 0x42 then codeFp ty || codeFp (sub % 32)
  else false
/-- Whether sat may be 1 (R206). -/
def vecSat (maj ty sub : Nat) : Bool :=
  among maj [0x28, 0x29, 0x2A, 0x2B, 0x2C, 0x2F, 0x30, 0x37, 0x38, 0x40, 0x42, 0x49]
    || (maj == 0x3A && !among ty codesFA && sub == 0)
/-- Whether ftz may be 1 (R206). -/
def vecFtz (maj : Nat) : Bool :=
  among maj [0x28, 0x29, 0x2A, 0x2B, 0x2C, 0x2D, 0x2E, 0x33, 0x35, 0x36, 0x37, 0x38, 0x39, 0x3A, 0x40, 0x42, 0x43, 0x4A]
/-- Whether bs may be 1 (R206). -/
def vecBs (maj : Nat) : Bool :=
  among maj [0x28, 0x29, 0x2A, 0x2B, 0x2C, 0x2D, 0x2E, 0x31, 0x32, 0x33, 0x35, 0x36, 0x37, 0x3B]
/-- The number of selector values, 0 where sub is no selector (R53). -/
def vecOps (maj : Nat) : Nat :=
  if maj = 0x31 then 6 else if maj = 0x32 then 4 else if maj = 0x33 then 7 else if maj = 0x39 then 6
  else if maj = 0x3A then 4 else if maj = 0x71 then 5 else 0
/-- Registers of a span (R205). -/
def spanLen (wid : Nat) : Nat := if wid = 1 then 2 else if wid = 2 then 4 else 1
/-- Elements of a ty code below 16 (R47). -/
def codeElems (ty : Nat) : Nat := (Ty.dec ty).elems
/-- The index registers of VPERM (R218). -/
def permRegs (ty : Nat) : Nat := max 1 (codeElems ty / 256)

/-- Every rule of R40, R42, R48, R49, R53, R55 and R204 to R206 that the fields of a vector instruction can break,
each with its reason code (R56). `w` is parcel 0 and `x` parcel 1, zero in length 00 (R34). A nonzero sub[7:1] of TRW or TRC has
reason 0x05, as a reserved field (R40, R225), and not 0x06, as the range of a register number that R48 gives (DESIGN CHOICE, log 25). -/
def vecBad (maj w x : Nat) : List (Nat × Bool) :=
  let ty := fvTy w; let va := fvVa w; let vb := fvVb w; let vd := fvVd w
  let sub := xaSub x; let wid := xaWid x; let bs := xaBs x
  let laned := among maj [0x3B, 0x3C, 0x3D]
  let toMask := maj == 0x33 || (maj == 0x71 && sub == 4)
  [(4, vecOps maj != 0 && decide (vecOps maj ≤ sub)),
   (5, among maj [0x3D, 0x46, 0x49, 0x71] && va != 0),
   (5, among maj [0x2F, 0x30, 0x38, 0x39, 0x3A, 0x40, 0x41, 0x42, 0x43, 0x44, 0x45, 0x46, 0x48, 0x49, 0x71] && vb != 0),
   (5, laned && vb / 4 != 0),
   (5, among maj [0x3C, 0x45] && vd != 0),
   (5, among maj [0x3C, 0x3D] && fvK w != 0),
   (5, !among maj [0x2B, 0x2C, 0x4A] && xaVc x != 0),
   (5, !among maj [0x3C, 0x3D, 0x3F, 0x43, 0x44, 0x45, 0x46, 0x49, 0x71, 0x72] && bs == 0 && xaSc x != 0),
   (5, !vecBs maj && bs != 0),
   (5, bs != 0 && vb != 0),
   (5, maj == 0x3B && bs != 0 && (va != 0 || sub != 0)),
   (5, vecOps maj == 0 && !laned && !among maj [0x40, 0x42, 0x45, 0x46] && sub != 0),
   (5, among maj [0x45, 0x46] && sub / 2 != 0),
   (5, maj == 0x40 && (sub / 2 != 0 || (sub != 0 && ty != 5))),
   (5, maj == 0x42 && sub / 32 != 0),
   (5, !among maj [0x35, 0x36, 0x40, 0x41, 0x43] && wid != 0),
   (5, (xaRnd x != 6 || among maj [0x71, 0x72]) && xaVr x != 0),
   (6, decide (15 < ty)),
   (6, wid == 3),
   (6, maj == 0x42 && decide (15 < sub % 32)),
   (6, toMask && decide (7 < vd)),
   (7, toMask && vd % 8 == 0),
   (7, laned && bs == 0 && decide (codeElems ty ≤ vb % 4 * 256 + sub)),
   (7, among maj [0x35, 0x36, 0x41] && vd % spanLen wid != 0),
   (7, among maj [0x40, 0x43] && va % spanLen wid != 0),
   (7, maj == 0x3E && decide (31 < vb + permRegs ty - 1)),
   (8, !vecTypeOk maj ty wid sub),
   (8, xaRnd x != 0 && !vecRounds maj ty sub),
   (8, maj == 0x3A && xaRnd x == 6),
   (8, xaSat x != 0 && !vecSat maj ty sub),
   (8, xaFtz x != 0 && !vecFtz maj),
   (8, maj == 0x33 && sub == 6 && !codeFp ty)]
/-- A vector instruction that breaks no rule. -/
def vecOk (maj : Nat) (f : VF) (x : XA) : Bool := (vecBad maj (f.word maj 0) x.word).all (fun c => !c.2)

/-! ## The other classes -/

/-- The ordering fields of a load or store: a scope only with an order (R167). -/
def XM.ordered (x : XM) : Bool := x.ord != .plain || x.scope == .strand
/-- An extension of a synchronisation instruction: consumed tokens only (R346, R351). -/
def optOk : Option XE → Bool
  | none => true
  | some x => x.td == 0 && x.imm == 0
/-- The CSR numbers that some chapter assigns (R51, R115, R159, R231, R276, R310, R337, R356, R398, R412, R438, R473, R502). -/
def csrAssigned (n : Nat) : Bool :=
  among n [0x000, 0x001, 0x002, 0x003, 0x004, 0x005, 0x008, 0x009, 0x00A, 0x100, 0x101, 0x102, 0x200, 0x201, 0x202, 0x203,
    0x280, 0x281, 0x282, 0x283, 0x300, 0x301, 0x302, 0x303, 0x304, 0x340, 0x341, 0x342, 0x343, 0x344, 0x345, 0x346, 0x347,
    0x380, 0x381, 0x382, 0x383, 0x384, 0x385, 0x386, 0x387, 0x388, 0x400, 0x401, 0x402, 0x403, 0x404, 0x405,
    0x500, 0x501, 0x502, 0x580, 0x581, 0x582, 0x600, 0x601, 0x602, 0x603, 0x604, 0x605, 0x606, 0x607, 0x608, 0x609, 0x60A,
    0x60B, 0x60C, 0x700, 0x701, 0x702, 0x703, 0x704, 0x705, 0x706, 0x707, 0x708, 0x709, 0x70A, 0x70B]
  || decide (0x710 ≤ n ∧ n ≤ 0x71F)

/-- The terms that an encoding holds. An event is no encoding. -/
def Instr.wf : Instr → Bool
  | .bfx _ _ pos wm1 => decide (pos.toNat + wm1.toNat + 1 ≤ 64)
  | .bfxs _ _ pos wm1 => decide (pos.toNat + wm1.toNat + 1 ≤ 64)
  | .bfi _ _ pos wm1 => decide (pos.toNat + wm1.toNat + 1 ≤ 64)
  | .faddL _ _ _ rnd => rnd != .rsr
  | .fsubL _ _ _ rnd => rnd != .rsr
  | .fmulL _ _ _ rnd => rnd != .rsr
  | .fcvtF32I64L _ _ rnd => rnd != .rsr
  | .fcvtI64F32L _ _ rnd => rnd != .rsr
  | .ffma _ _ _ _ rnd => rnd != .rsr
  | .loop _ _ len => len != 0
  | .ldDL _ _ x => !x.w64 && x.ordered
  | .ldWL _ _ x => !x.w64 && x.ordered
  | .stDL _ _ x => !x.w64 && x.ordered
  | .stWL _ _ x => !x.w64 && x.ordered
  | .ldx _ _ _ _ x => !x.w64 && x.ordered
  | .stx _ _ _ x => !x.w64 && x.ordered
  | .ldvL _ _ x => !x.w64 && x.ord == .plain && x.scope == .strand
  | .stvL _ _ x => !x.w64 && x.ord == .plain && x.scope == .strand
  | .atomL op _ _ _ x => !(op == .fadd32 && x.w64)
  | .vadd f => vecOk 0x28 f XA.zero
  | .vaddL f x => vecOk 0x28 f x
  | .vsub f => vecOk 0x29 f XA.zero
  | .vsubL f x => vecOk 0x29 f x
  | .vmul f => vecOk 0x2A f XA.zero
  | .vmulL f x => vecOk 0x2A f x
  | .vfma f => vecOk 0x2B f XA.zero
  | .vfmaL f x => vecOk 0x2B f x
  | .vfnma f => vecOk 0x2C f XA.zero
  | .vfnmaL f x => vecOk 0x2C f x
  | .vmin f => vecOk 0x2D f XA.zero
  | .vminL f x => vecOk 0x2D f x
  | .vmax f => vecOk 0x2E f XA.zero
  | .vmaxL f x => vecOk 0x2E f x
  | .vabs f => vecOk 0x2F f XA.zero
  | .vabsL f x => vecOk 0x2F f x
  | .vneg f => vecOk 0x30 f XA.zero
  | .vnegL f x => vecOk 0x30 f x
  | .vlogic f => vecOk 0x31 f XA.zero
  | .vlogicL f x => vecOk 0x31 f x
  | .vshift f => vecOk 0x32 f XA.zero
  | .vshiftL f x => vecOk 0x32 f x
  | .vcmp f => vecOk 0x33 f XA.zero
  | .vcmpL f x => vecOk 0x33 f x
  | .vsel f => vecOk 0x34 f XA.zero
  | .vselL f x => vecOk 0x34 f x
  | .vdiv f => vecOk 0x37 f XA.zero
  | .vdivL f x => vecOk 0x37 f x
  | .vsqrt f => vecOk 0x38 f XA.zero
  | .vsqrtL f x => vecOk 0x38 f x
  | .vapprox f => vecOk 0x39 f XA.zero
  | .vapproxL f x => vecOk 0x39 f x
  | .vred f => vecOk 0x3A f XA.zero
  | .vredL f x => vecOk 0x3A f x
  | .vbcast f => vecOk 0x3B f XA.zero
  | .vbcastL f x => vecOk 0x3B f x
  | .vperm f => vecOk 0x3E f XA.zero
  | .vpermL f x => vecOk 0x3E f x
  | .vcvt f => vecOk 0x42 f XA.zero
  | .vcvtL f x => vecOk 0x42 f x
  | .vplane f => vecOk 0x44 f XA.zero
  | .vplaneL f x => vecOk 0x44 f x
  | .vmov f => vecOk 0x48 f XA.zero
  | .vmovL f x => vecOk 0x48 f x
  | .viota f => vecOk 0x49 f XA.zero
  | .viotaL f x => vecOk 0x49 f x
  | .vgmax f => vecOk 0x72 f XA.zero
  | .vgmaxL f x => vecOk 0x72 f x
  | .vbcastImm f _ => f.va == 0 && f.vb == 0
  | .vmulw f x => vecOk 0x35 f x
  | .vaddw f x => vecOk 0x36 f x
  | .vext f x => vecOk 0x3C f x
  | .vins f x => vecOk 0x3D f x
  | .vslide f x => vecOk 0x3F f x
  | .vpack f x => vecOk 0x40 f x
  | .vunpk f x => vecOk 0x41 f x
  | .vqnt f x => vecOk 0x43 f x
  | .trw f x => vecOk 0x45 f x
  | .trc f x => vecOk 0x46 f x
  | .vclamp f x => vecOk 0x4A f x
  | .rngBits f => vecOk 0x71 f XA.zero
  | .rngBitsL f x => x.sub == 0 && vecOk 0x71 f x
  | .rngUni f x => x.sub == 1 && vecOk 0x71 f x
  | .rngNorm f x => x.sub == 2 && vecOk 0x71 f x
  | .rngGumb f x => x.sub == 3 && vecOk 0x71 f x
  | .rngDrop f x => x.sub == 4 && vecOk 0x71 f x
  | .tdsetL _ _ x => x.td == 0 && x.imm == 0
  | .mcfgL _ x => x.td == 0 && x.imm == 0
  | .mldbL _ _ x => decide (x.imm.toNat ≤ 3)
  | .mgoL  x => x.imm == 0
  | .cpyL _ _ x => x.imm == 0
  | .gathL _ _ x => x.imm == 0
  | .scatL _ _ x => x.imm == 0
  | .fillL _ _ x => x.imm == 0
  | .haloL _ _ x => x.imm == 0
  | .cpysL _ _ _ _ x => decide (x.imm.toNat ≤ 511)
  | .qsemwL _ _ _ => true
  | .xcpyL _ _ _ x => x.imm == 0
  | .xredL _ _ _ x => decide (x.imm.toNat ≤ 3)
  | .xsigL _ _ _ => true
  | .twait x => x.td == 0 && x.imm == 0
  | .semacqL _ x => x.td == 0
  | .semrelL _ _ x => x.td == 0
  | .semrd _ _ x => optOk x
  | .semset _ _ x => optOk x
  | .barcfg _ _ x => optOk x
  | .bararr _ _ x => optOk x
  | .barwait _ _ x => optOk x
  | .barsync _ _ x => optOk x
  | .bartest _ _ _ x => optOk x
  | .csrr _ csr => csrAssigned csr.toNat
  | .csrw _ _ csr => csrAssigned csr.toNat
  | .csrwSet _ _ csr => csrAssigned csr.toNat
  | .csrwClr _ _ csr => csrAssigned csr.toNat
  | .add _ _ _ => true
  | .sub _ _ _ => true
  | .and _ _ _ => true
  | .or _ _ _ => true
  | .xor _ _ _ => true
  | .shl _ _ _ => true
  | .shr _ _ _ => true
  | .sar _ _ _ => true
  | .min _ _ _ => true
  | .mins _ _ _ => true
  | .max _ _ _ => true
  | .maxs _ _ _ => true
  | .slt _ _ _ => true
  | .slts _ _ _ => true
  | .seq _ _ _ => true
  | .sne _ _ _ => true
  | .mul _ _ _ => true
  | .mulhi _ _ _ => true
  | .mulhis _ _ _ => true
  | .div _ _ _ => true
  | .divs _ _ _ => true
  | .rem _ _ _ => true
  | .rems _ _ _ => true
  | .andn _ _ _ => true
  | .orn _ _ _ => true
  | .clz _ _ => true
  | .ctz _ _ => true
  | .popc _ _ => true
  | .sextB _ _ => true
  | .sextH _ _ => true
  | .sextW _ _ => true
  | .zextB _ _ => true
  | .zextH _ _ => true
  | .zextW _ _ => true
  | .brev _ _ => true
  | .bswap _ _ => true
  | .addi _ _ _ => true
  | .addiL _ _ _ => true
  | .andi _ _ _ => true
  | .andiL _ _ _ => true
  | .ori _ _ _ => true
  | .oriL _ _ _ => true
  | .xori _ _ _ => true
  | .xoriL _ _ _ => true
  | .slti _ _ _ => true
  | .sltiL _ _ _ => true
  | .shli _ _ _ => true
  | .shri _ _ _ => true
  | .sari _ _ _ => true
  | .roli _ _ _ => true
  | .li _ _ => true
  | .lih _ _ _ => true
  | .lihL _ _ _ => true
  | .addpc _ _ => true
  | .addpcL _ _ => true
  | .sel _ _ _ _ => true
  | .fadd _ _ _ => true
  | .fsub _ _ _ => true
  | .fmul _ _ _ => true
  | .fmin _ _ _ _ => true
  | .fmax _ _ _ _ => true
  | .feq _ _ _ _ => true
  | .flt _ _ _ _ => true
  | .fle _ _ _ _ => true
  | .fcvtF32I64 _ _ => true
  | .fcvtI64F32 _ _ => true
  | .fabs _ _ _ => true
  | .fneg _ _ _ => true
  | .beq _ _ _ => true
  | .bne _ _ _ => true
  | .blt _ _ _ => true
  | .bge _ _ _ => true
  | .blts _ _ _ => true
  | .bges _ _ _ => true
  | .beqL _ _ _ => true
  | .bneL _ _ _ => true
  | .bltL _ _ _ => true
  | .bgeL _ _ _ => true
  | .bltsL _ _ _ => true
  | .bgesL _ _ _ => true
  | .jal _ _ => true
  | .jalL _ _ => true
  | .jalr _ _ _ => true
  | .bqpush _ => true
  | .bqb _ => true
  | .bqbL _ => true
  | .ldD _ _ _ => true
  | .ldW _ _ _ => true
  | .stD _ _ _ => true
  | .stW _ _ _ => true
  | .ldv _ _ _ => true
  | .stv _ _ _ => true
  | .atomAdd _ _ _ => true
  | .atomAnd _ _ _ => true
  | .atomOr _ _ _ => true
  | .atomXor _ _ _ => true
  | .atomMin _ _ _ => true
  | .atomMins _ _ _ => true
  | .atomMax _ _ _ => true
  | .atomMaxs _ _ _ => true
  | .atomSwap _ _ _ => true
  | .atomFadd32 _ _ _ => true
  | .atomCas _ _ _ => true
  | .fence _ => true
  | .fenceAcq _ => true
  | .fenceRel _ => true
  | .fenceEng => true
  | .fetchb => true
  | .rpass _ _ => true
  | .rshare _ => true
  | .rquery _ _ => true
  | .dcwb _ => true
  | .dcwbi _ => true
  | .dcinv _ => true
  | .icinv _ => true
  | .icinva => true
  | .pref _ _ => true
  | .pbinv _ => true
  | .publ _ => true
  | .strmap _ _ => true
  | .tdset _ _ => true
  | .tdget _ _ _ _ => true
  | .mcfg _ => true
  | .mcfgr _ _ _ => true
  | .mldb _ _ => true
  | .mgo => true
  | .mzero _ => true
  | .mrd _ _ _ => true
  | .mwr _ _ _ => true
  | .mstat _ _ _ => true
  | .mchk _ _ => true
  | .mabort _ => true
  | .cpy _ _ => true
  | .cpys _ _ _ _ => true
  | .gath _ _ => true
  | .scat _ _ => true
  | .fill _ _ => true
  | .qsemw _ _ => true
  | .qflush _ => true
  | .qdrain _ => true
  | .qstat _ _ => true
  | .qws _ _ => true
  | .ttest _ _ => true
  | .semacq _ => true
  | .semrel _ _ => true
  | .tend => true
  | .tself _ _ => true
  | .ldlr _ _ => true
  | .tspawn _ _ => true
  | .tabort _ => true
  | .reuseQuery _ => true
  | .reuseAnchor => true
  | .reuseDrop => true
  | .tmark _ _ => true
  | .tyield _ => true
  | .rngkey _ => true
  | .xcpy _ _ _ => true
  | .halo _ _ => true
  | .xred _ _ _ => true
  | .xsig _ _ => true
  | .trap _ _ => true
  | .eretRerun => true
  | .eretAbort => true
  | .eretResume => true
  | .gear _ _ => true
  | .time _ _ => true
  | .strstart _ _ => true
  | .strstop _ => true
  | .wfe _ => true
  | .tlbinv _ => true
  | .brk _ => true
  | .ctxid _ => true
  | .handlerEntry _ => false
  | .noticeDelivery _ => false
  | .overrun _ => false
  | .discard _ => false
  | .powerOnReset => false
  | .check => false
  | .commit => false
  | .attest => false
  | .submit _ _ => false
  | .launchStart _ _ => false
  | .chaconneEvaluate _ _ _ _ _ => false
  | .taskPlacement _ => false
  | .shadowBankSwap _ => false
  | .taskCommit _ => false
  | .timeSliceExpiry _ => false
  | .shadowFill _ => false
  | .galliardSpill _ => false
  | .spillResume _ => false
  | .nestStart _ => false
  | .pass _ => false
  | .drain _ => false
  | .bankLoad _ => false
  | .copyCommandStart _ _ => false
  | .ringReserve _ _ => false
  | .copyRequestIssue _ _ => false
  | .copyCommandComplete _ _ => false
  | .readRequest _ => false
  | .write _ => false
  | .atomicOrOrderedAccess _ => false
  | .semaphoreIncrement _ => false
  | .barrierArrival _ => false
  | .ringPush _ => false
  | .controlSpaceAccess _ => false
  | .readAnswer _ => false
  | .writeAcknowledgement _ => false
  | .atomicAnswer _ => false
  | .barrierRelease _ => false
  | .recordRelease _ => false
  | .barrierDrop _ => false
  | .barrierReturn _ => false
  | .arbitrate _ => false
  | .admission _ => false
  | .injectionRelief _ _ => false
  | .linkReplay _ _ _ => false
  | .linkDead _ _ _ => false
  | .distanceTableLoad => false
  | .hbmFill _ _ => false
  | .tableWalk _ _ => false
  | .gearTransitionComplete _ => false
  | .activityWindowReset _ => false
  | .controllerPeriod => false
  | .thermalLimitUpdate _ _ => false
  | .thermalStop _ _ => false
  | .capMessage _ _ => false
  | .leaseExpiry => false
  | .errorCount _ _ => false
  | .coreLeavesPartition _ => false
  | .register _ _ => false
  | .unregister _ _ => false
  | .resize _ _ => false
  | .release _ _ => false
  | .hostWindowEntryWrite _ _ _ => false
  | .bar2Access _ _ _ => false
  | .hostRegisterWrite _ _ _ => false
  | .remoteAccess _ => false
  | .linkTraining _ _ _ _ => false
  | .clockAlignment _ => false
  | .ptmCorrection _ => false
  | .bq _ => false
  | .age _ => false
  | .rmode _ => false
  | .pgroot _ => false
  | .tdtab _ => false
  | .ringtab _ => false
  | .qf _ _ => false
  | .actctl _ => false
  | .telst _ => false
  | .zikinLinkFailure _ => false

end Sys2Proof
end

