-- ==== Sys2Proof/Decode.lean ====
section
/-! DEFINITION. From bytes to an instruction or a reason code (R33 to R57), and back. -/
namespace Sys2Proof

/-! ## Fields of the layouts (R39, R41) -/
def majOf (w : Nat) : Nat := w / 4 % 128
def rrD (w : Nat) : Nat := w / 2 ^ 9 % 64
def rrA (w : Nat) : Nat := w / 2 ^ 15 % 64
def rrB (w : Nat) : Nat := w / 2 ^ 21 % 64
def rrFn (w : Nat) : Nat := w / 2 ^ 27 % 32
def riD (w : Nat) : Nat := w / 2 ^ 9 % 64
def riA (w : Nat) : Nat := w / 2 ^ 15 % 64
def riImm (w : Nat) : Nat := w / 2 ^ 21 % 2048
def fbCond (w : Nat) : Nat := w / 2 ^ 21 % 8
def fbOff (w : Nat) : Nat := w / 2 ^ 24 % 256
def fjOff (w : Nat) : Nat := w / 2 ^ 15 % 2 ^ 17
def fvmA (w : Nat) : Nat := w / 2 ^ 14 % 64
def fvmImm (w : Nat) : Nat := w / 2 ^ 20 % 4096
def xsRnd (w : Nat) : Nat := w % 8
def xsSc (w : Nat) : Nat := w / 2 ^ 3 % 64
def xsP12 (w : Nat) : Nat := w / 2 ^ 9 % 4096
def xsTop (w : Nat) : Nat := w / 2 ^ 21 % 2048
def xmOrd (w : Nat) : Nat := w % 8
def xmScope (w : Nat) : Nat := w / 2 ^ 3 % 8
def xmRh (w : Nat) : Nat := w / 2 ^ 6 % 4
def xmW64 (w : Nat) : Nat := w / 2 ^ 8 % 2
def xmDisp (w : Nat) : Nat := w / 2 ^ 9 % 2 ^ 23
def xeTd (w : Nat) : Nat := w % 32
def xeTa (w : Nat) : Nat := w / 2 ^ 5 % 32
def xeTb (w : Nat) : Nat := w / 2 ^ 10 % 32
def xeTc (w : Nat) : Nat := w / 2 ^ 15 % 32
def xeImm (w : Nat) : Nat := w / 2 ^ 20 % 4096
/-- The scalar registers of a parcel (R48). -/
def sD (w : Nat) : Fin 64 := fin 64 (rrD w)
def sA (w : Nat) : Fin 64 := fin 64 (rrA w)
def sB (w : Nat) : Fin 64 := fin 64 (rrB w)
def XM.dec (w : Nat) : XM := ⟨bv 23 (xmDisp w), xmW64 w == 1, bv 2 (xmRh w), Scope.dec (xmScope w), Ord.dec (xmOrd w)⟩
def XE.dec (w : Nat) : XE := ⟨bv 12 (xeImm w), fin 32 (xeTc w), fin 32 (xeTb w), fin 32 (xeTa w), fin 32 (xeTd w)⟩
/-- The rules of R44 and R167 on ord and scope. -/
def xmBad (w : Nat) : List (Nat × Bool) :=
  [(6, decide (4 < xmOrd w)), (6, decide (4 < xmScope w)), (8, xmOrd w == 0 && xmScope w != 0)]

/-! ## Decoding

The compiler gives code only to constructors of an inductive type whose number is at most 244 when they have
fields, and `Instr` has 363 constructors. So the functions that build an `Instr` are marked noncomputable: the
kernel evaluates them (by `decide` or `rfl`), compiled code does not. -/

/-- The lengths in parcels that each MAJ permits (R35, R52); none for a reserved MAJ. -/
def lengths : Nat → List Nat
  | 0x01 => [1]
  | 0x02 => [1]
  | 0x03 => [1, 3]
  | 0x04 => [1, 3]
  | 0x05 => [1, 3]
  | 0x06 => [1, 3]
  | 0x07 => [1]
  | 0x08 => [1, 3]
  | 0x09 => [3]
  | 0x0A => [1, 3]
  | 0x0B => [1, 2]
  | 0x0C => [2]
  | 0x0D => [2]
  | 0x0E => [2]
  | 0x0F => [1, 2]
  | 0x10 => [1]
  | 0x11 => [2]
  | 0x12 => [1, 2]
  | 0x13 => [1]
  | 0x14 => [1]
  | 0x15 => [1]
  | 0x16 => [1, 2]
  | 0x18 => [1, 2]
  | 0x19 => [1, 2]
  | 0x1A => [1, 2]
  | 0x1B => [1, 2]
  | 0x1C => [2]
  | 0x1D => [2]
  | 0x1E => [1, 2]
  | 0x1F => [1, 2]
  | 0x20 => [1, 2]
  | 0x21 => [1]
  | 0x22 => [1]
  | 0x23 => [1]
  | 0x24 => [1]
  | 0x25 => [1]
  | 0x26 => [1]
  | 0x28 => [1, 2]
  | 0x29 => [1, 2]
  | 0x2A => [1, 2]
  | 0x2B => [1, 2]
  | 0x2C => [1, 2]
  | 0x2D => [1, 2]
  | 0x2E => [1, 2]
  | 0x2F => [1, 2]
  | 0x30 => [1, 2]
  | 0x31 => [1, 2]
  | 0x32 => [1, 2]
  | 0x33 => [1, 2]
  | 0x34 => [1, 2]
  | 0x35 => [1, 2]
  | 0x36 => [1, 2]
  | 0x37 => [1, 2]
  | 0x38 => [1, 2]
  | 0x39 => [1, 2]
  | 0x3A => [1, 2]
  | 0x3B => [1, 2, 3]
  | 0x3C => [2]
  | 0x3D => [2]
  | 0x3E => [1, 2]
  | 0x3F => [2]
  | 0x40 => [1, 2]
  | 0x41 => [1, 2]
  | 0x42 => [1, 2]
  | 0x43 => [1, 2]
  | 0x44 => [1, 2]
  | 0x45 => [2]
  | 0x46 => [2]
  | 0x47 => [1]
  | 0x48 => [1, 2]
  | 0x49 => [1, 2]
  | 0x4A => [2]
  | 0x4C => [1, 2]
  | 0x4D => [1, 2]
  | 0x4E => [1, 2]
  | 0x4F => [1, 2]
  | 0x50 => [1, 2]
  | 0x51 => [1, 2]
  | 0x52 => [1, 2]
  | 0x53 => [1, 2]
  | 0x54 => [1, 2]
  | 0x55 => [1, 2]
  | 0x56 => [1, 2]
  | 0x57 => [1, 2]
  | 0x58 => [1, 2]
  | 0x59 => [1, 2]
  | 0x5A => [1, 2]
  | 0x5B => [1, 2]
  | 0x5C => [1, 2]
  | 0x5D => [1, 2]
  | 0x5E => [1]
  | 0x60 => [2]
  | 0x61 => [2]
  | 0x62 => [1, 2]
  | 0x63 => [1, 2]
  | 0x64 => [1, 2]
  | 0x65 => [1, 2]
  | 0x66 => [1, 2]
  | 0x68 => [1]
  | 0x69 => [1]
  | 0x6A => [1]
  | 0x6B => [1]
  | 0x6C => [1]
  | 0x6D => [1]
  | 0x6E => [1]
  | 0x6F => [1]
  | 0x70 => [1]
  | 0x71 => [1, 2]
  | 0x72 => [1, 2]
  | 0x74 => [1, 2]
  | 0x75 => [1, 2]
  | 0x76 => [1, 2]
  | 0x77 => [1, 2]
  | 0x78 => [1]
  | 0x79 => [1]
  | 0x7A => [1]
  | 0x7B => [1, 2]
  | 0x7C => [1]
  | 0x7D => [1]
  | 0x7E => [1]
  | _ => []
/-- The lowest reason among the broken rules (R56). -/
def lowest : List (Nat × Bool) → Option Nat
  | [] => none
  | (r, b) :: rest =>
    match lowest rest with
    | none => if b then some r else none
    | some m => if b && r < m then some r else some m
/-- An instruction unless some rule is broken; an unassigned selector value is reason 0x04 (R56). -/
def pick (i : Option Instr) (bad : List (Nat × Bool)) : Except Nat Instr :=
  match lowest bad with
  | none => match i with
    | some i => .ok i
    | none => .error 4
  | some r => match i with
    | some _ => .error r
    | none => .error (min r 4)
/-- The instruction of `n` parcels (R33); parcels beyond the length read zero (R34). -/
noncomputable def decodeMaj (w n w1 w2 : Nat) : Except Nat Instr :=
  match majOf w with
  | 0x01 => pick (match rrFn w with
    | 0 => some (.add (sD w) (sA w) (sB w))
    | 1 => some (.sub (sD w) (sA w) (sB w))
    | 2 => some (.and (sD w) (sA w) (sB w))
    | 3 => some (.or (sD w) (sA w) (sB w))
    | 4 => some (.xor (sD w) (sA w) (sB w))
    | 5 => some (.shl (sD w) (sA w) (sB w))
    | 6 => some (.shr (sD w) (sA w) (sB w))
    | 7 => some (.sar (sD w) (sA w) (sB w))
    | 8 => some (.min (sD w) (sA w) (sB w))
    | 9 => some (.mins (sD w) (sA w) (sB w))
    | 10 => some (.max (sD w) (sA w) (sB w))
    | 11 => some (.maxs (sD w) (sA w) (sB w))
    | 12 => some (.slt (sD w) (sA w) (sB w))
    | 13 => some (.slts (sD w) (sA w) (sB w))
    | 14 => some (.seq (sD w) (sA w) (sB w))
    | 15 => some (.sne (sD w) (sA w) (sB w))
    | 16 => some (.mul (sD w) (sA w) (sB w))
    | 17 => some (.mulhi (sD w) (sA w) (sB w))
    | 18 => some (.mulhis (sD w) (sA w) (sB w))
    | 19 => some (.div (sD w) (sA w) (sB w))
    | 20 => some (.divs (sD w) (sA w) (sB w))
    | 21 => some (.rem (sD w) (sA w) (sB w))
    | 22 => some (.rems (sD w) (sA w) (sB w))
    | 23 => some (.andn (sD w) (sA w) (sB w))
    | 24 => some (.orn (sD w) (sA w) (sB w))
    | _ => none) []
  | 0x02 => pick (match rrFn w with
    | 0 => some (.clz (sD w) (sA w))
    | 1 => some (.ctz (sD w) (sA w))
    | 2 => some (.popc (sD w) (sA w))
    | 3 => some (.sextB (sD w) (sA w))
    | 4 => some (.sextH (sD w) (sA w))
    | 5 => some (.sextW (sD w) (sA w))
    | 6 => some (.zextB (sD w) (sA w))
    | 7 => some (.zextH (sD w) (sA w))
    | 8 => some (.zextW (sD w) (sA w))
    | 9 => some (.brev (sD w) (sA w))
    | 10 => some (.bswap (sD w) (sA w))
    | _ => none) [(5, rrB w != 0)]
  | 0x03 => if n = 1 then pick (some (.addi (sD w) (sA w) (bv 11 (riImm w)))) []
    else pick (some (.addiL (sD w) (sA w) (bv 32 w2))) [(5, riImm w != 0), (5, w1 != 0)]
  | 0x04 => if n = 1 then pick (some (.andi (sD w) (sA w) (bv 11 (riImm w)))) []
    else pick (some (.andiL (sD w) (sA w) (bv 32 w2))) [(5, riImm w != 0), (5, w1 != 0)]
  | 0x05 => if n = 1 then pick (some (.ori (sD w) (sA w) (bv 11 (riImm w)))) []
    else pick (some (.oriL (sD w) (sA w) (bv 32 w2))) [(5, riImm w != 0), (5, w1 != 0)]
  | 0x06 => if n = 1 then pick (some (.xori (sD w) (sA w) (bv 11 (riImm w)))) []
    else pick (some (.xoriL (sD w) (sA w) (bv 32 w2))) [(5, riImm w != 0), (5, w1 != 0)]
  | 0x07 => pick (match riImm w / 64 % 4 with
    | 0 => some (.shli (sD w) (sA w) (bv 6 (riImm w)))
    | 1 => some (.shri (sD w) (sA w) (bv 6 (riImm w)))
    | 2 => some (.sari (sD w) (sA w) (bv 6 (riImm w)))
    | _ => some (.roli (sD w) (sA w) (bv 6 (riImm w)))
    ) [(5, riImm w / 256 != 0)]
  | 0x08 => if n = 1 then pick (some (.slti (sD w) (sA w) (bv 11 (riImm w)))) []
    else pick (some (.sltiL (sD w) (sA w) (bv 32 w2))) [(5, riImm w != 0), (5, w1 != 0)]
  | 0x09 => pick (some (.li (sD w) (bv 32 w2))) [(5, riA w != 0), (5, riImm w != 0), (5, w1 != 0)]
  | 0x0A => if n = 1 then pick (some (.lih (sD w) (sA w) (bv 11 (riImm w)))) []
    else pick (some (.lihL (sD w) (sA w) (bv 32 w2))) [(5, riImm w != 0), (5, w1 != 0)]
  | 0x0B => if n = 1 then pick (some (.addpc (sD w) (bv 17 (fjOff w)))) []
    else pick (some (.addpcL (sD w) (bv 32 w1))) [(5, fjOff w != 0)]
  | 0x0C => pick (match rrFn w with
    | 0 => some (.bfx (sD w) (sA w) (bv 6 (xsP12 w1)) (bv 6 (xsP12 w1 / 64)))
    | 1 => some (.bfxs (sD w) (sA w) (bv 6 (xsP12 w1)) (bv 6 (xsP12 w1 / 64)))
    | _ => none) [(5, rrB w != 0), (5, xsTop w1 != 0), (5, xsSc w1 != 0), (5, xsRnd w1 != 0), (7, 64 < xsP12 w1 % 64 + xsP12 w1 / 64 + 1)]
  | 0x0D => pick (match rrFn w with
    | 0 => some (.bfi (sD w) (sA w) (bv 6 (xsP12 w1)) (bv 6 (xsP12 w1 / 64)))
    | _ => none) [(5, rrB w != 0), (5, xsTop w1 != 0), (5, xsSc w1 != 0), (5, xsRnd w1 != 0), (7, 64 < xsP12 w1 % 64 + xsP12 w1 / 64 + 1)]
  | 0x0E => pick (match rrFn w with
    | 0 => some (.sel (sD w) (fin 64 (xsSc w1)) (sA w) (sB w))
    | _ => none) [(5, xsTop w1 != 0), (5, xsP12 w1 != 0), (5, xsRnd w1 != 0)]
  | 0x0F => pick (match rrFn w with
    | 0 => some (if n = 1 then .fadd (sD w) (sA w) (sB w) else .faddL (sD w) (sA w) (sB w) (Rnd.dec (xsRnd w1)))
    | 1 => some (if n = 1 then .fsub (sD w) (sA w) (sB w) else .fsubL (sD w) (sA w) (sB w) (Rnd.dec (xsRnd w1)))
    | 2 => some (if n = 1 then .fmul (sD w) (sA w) (sB w) else .fmulL (sD w) (sA w) (sB w) (Rnd.dec (xsRnd w1)))
    | 3 => some (.fmin (sD w) (sA w) (sB w) (n == 2))
    | 4 => some (.fmax (sD w) (sA w) (sB w) (n == 2))
    | 5 => some (.feq (sD w) (sA w) (sB w) (n == 2))
    | 6 => some (.flt (sD w) (sA w) (sB w) (n == 2))
    | 7 => some (.fle (sD w) (sA w) (sB w) (n == 2))
    | 8 => some (if n = 1 then .fcvtF32I64 (sD w) (sA w) else .fcvtF32I64L (sD w) (sA w) (Rnd.dec (xsRnd w1)))
    | 9 => some (if n = 1 then .fcvtI64F32 (sD w) (sA w) else .fcvtI64F32L (sD w) (sA w) (Rnd.dec (xsRnd w1)))
    | 10 => some (.ffma (sD w) (sA w) (sB w) (fin 64 (xsSc w1)) (Rnd.dec (xsRnd w1)))
    | 11 => some (.fabs (sD w) (sA w) (n == 2))
    | 12 => some (.fneg (sD w) (sA w) (n == 2))
    | _ => none)
    [(3, rrFn w == 10 && n == 1), (5, (rrFn w == 8 || rrFn w == 9 || rrFn w == 11 || rrFn w == 12) && rrB w != 0), (5, rrFn w != 10 && xsSc w1 != 0),
     (5, xsTop w1 != 0), (5, xsP12 w1 != 0), (8, xsRnd w1 == 6),
     (8, ((3 ≤ rrFn w && rrFn w ≤ 7) || rrFn w == 11 || rrFn w == 12) && xsRnd w1 != 0)]
  | 0x10 => pick (match fbCond w with
    | 0 => some (.beq (sD w) (sA w) (bv 8 (fbOff w)))
    | 1 => some (.bne (sD w) (sA w) (bv 8 (fbOff w)))
    | 2 => some (.blt (sD w) (sA w) (bv 8 (fbOff w)))
    | 3 => some (.bge (sD w) (sA w) (bv 8 (fbOff w)))
    | 4 => some (.blts (sD w) (sA w) (bv 8 (fbOff w)))
    | 5 => some (.bges (sD w) (sA w) (bv 8 (fbOff w)))
    | _ => none) []
  | 0x11 => pick (match fbCond w with
    | 0 => some (.beqL (sD w) (sA w) (bv 32 w1))
    | 1 => some (.bneL (sD w) (sA w) (bv 32 w1))
    | 2 => some (.bltL (sD w) (sA w) (bv 32 w1))
    | 3 => some (.bgeL (sD w) (sA w) (bv 32 w1))
    | 4 => some (.bltsL (sD w) (sA w) (bv 32 w1))
    | 5 => some (.bgesL (sD w) (sA w) (bv 32 w1))
    | _ => none) [(5, fbOff w != 0)]
  | 0x12 => if n = 1 then pick (some (.jal (sD w) (bv 17 (fjOff w)))) []
    else pick (some (.jalL (sD w) (bv 32 w1))) [(5, fjOff w != 0)]
  | 0x13 => pick (some (.jalr (sD w) (sA w) (bv 11 (riImm w)))) []
  | 0x14 => pick (some (.loop (fin 2 (riD w)) (sA w) (bv 11 (riImm w)))) [(6, 1 < riD w), (7, riImm w == 0)]
  | 0x15 => pick (some (.bqpush (sA w))) [(5, rrFn w != 0), (5, rrB w != 0), (5, rrD w != 0)]
  | 0x16 => if n = 1 then pick (some (.bqb (bv 17 (fjOff w)))) [(5, riD w != 0)]
    else pick (some (.bqbL (bv 32 w1))) [(5, riD w != 0), (5, fjOff w != 0)]
  | 0x18 => if n = 1 then pick (some (.ldD (sD w) (sA w) (bv 11 (riImm w)))) []
    else pick (some (.ldDL (sD w) (sA w) (XM.dec w1))) ((5, riImm w != 0) :: (5, xmW64 w1 != 0) :: xmBad w1)
  | 0x19 => if n = 1 then pick (some (.ldW (sD w) (sA w) (bv 11 (riImm w)))) []
    else pick (some (.ldWL (sD w) (sA w) (XM.dec w1))) ((5, riImm w != 0) :: (5, xmW64 w1 != 0) :: xmBad w1)
  | 0x1A => if n = 1 then pick (some (.stD (sD w) (sA w) (bv 11 (riImm w)))) []
    else pick (some (.stDL (sD w) (sA w) (XM.dec w1))) ((5, riImm w != 0) :: (5, xmW64 w1 != 0) :: xmBad w1)
  | 0x1B => if n = 1 then pick (some (.stW (sD w) (sA w) (bv 11 (riImm w)))) []
    else pick (some (.stWL (sD w) (sA w) (XM.dec w1))) ((5, riImm w != 0) :: (5, xmW64 w1 != 0) :: xmBad w1)
  | 0x1C => pick (some (.ldx (sD w) (sA w) (bv 2 (riImm w)) (riImm w / 8 % 2 == 1) (XM.dec w1)))
      ((4, 3 < riImm w % 8) :: (5, riImm w / 16 != 0) :: (5, xmW64 w1 != 0) :: xmBad w1)
  | 0x1D => pick (some (.stx (sD w) (sA w) (bv 2 (riImm w)) (XM.dec w1)))
      ((4, 3 < riImm w % 8) :: (5, riImm w / 8 != 0) :: (5, xmW64 w1 != 0) :: xmBad w1)
  | 0x1E => if n = 1 then pick (some (.ldv (fin 32 (fvVd w)) (fin 64 (fvmA w)) (bv 12 (fvmImm w)))) []
    else pick (some (.ldvL (fin 32 (fvVd w)) (fin 64 (fvmA w)) (XM.dec w1)))
      [(5, fvmImm w != 0), (5, xmW64 w1 != 0), (6, 4 < xmOrd w1), (6, 4 < xmScope w1), (8, xmOrd w1 != 0), (8, xmScope w1 != 0)]
  | 0x1F => if n = 1 then pick (some (.stv (fin 32 (fvVd w)) (fin 64 (fvmA w)) (bv 12 (fvmImm w)))) []
    else pick (some (.stvL (fin 32 (fvVd w)) (fin 64 (fvmA w)) (XM.dec w1)))
      [(5, fvmImm w != 0), (5, xmW64 w1 != 0), (6, 4 < xmOrd w1), (6, 4 < xmScope w1), (8, xmOrd w1 != 0), (8, xmScope w1 != 0)]
  | 0x20 => pick (if n = 1 then match rrFn w with
    | 0 => some (.atomAdd (sD w) (sA w) (sB w))
    | 1 => some (.atomAnd (sD w) (sA w) (sB w))
    | 2 => some (.atomOr (sD w) (sA w) (sB w))
    | 3 => some (.atomXor (sD w) (sA w) (sB w))
    | 4 => some (.atomMin (sD w) (sA w) (sB w))
    | 5 => some (.atomMins (sD w) (sA w) (sB w))
    | 6 => some (.atomMax (sD w) (sA w) (sB w))
    | 7 => some (.atomMaxs (sD w) (sA w) (sB w))
    | 8 => some (.atomSwap (sD w) (sA w) (sB w))
    | 9 => some (.atomFadd32 (sD w) (sA w) (sB w))
    | 10 => some (.atomCas (sD w) (sA w) (sB w))
    | _ => none
    else if rrFn w ≤ 10 then some (.atomL (AtomOp.dec (rrFn w)) (sD w) (sA w) (sB w) (XM.dec w1)) else none)
    [(6, n == 2 && 4 < xmOrd w1), (6, n == 2 && 4 < xmScope w1), (8, n == 2 && rrFn w == 9 && xmW64 w1 != 0)]
  | 0x21 => pick (match riImm w % 8 with
    | 0 => some (.fence (Scope.dec (riImm w / 8 % 8)))
    | 1 => some (.fenceAcq (Scope.dec (riImm w / 8 % 8)))
    | 2 => some (.fenceRel (Scope.dec (riImm w / 8 % 8)))
    | 3 => some .fenceEng
    | 4 => some .fetchb
    | _ => none)
    [(5, riD w != 0), (5, riA w != 0), (5, riImm w / 64 != 0), (5, (riImm w % 8 == 3 || riImm w % 8 == 4) && riImm w / 8 % 8 != 0), (6, 4 < riImm w / 8 % 8)]
  | 0x22 => pick (match rrFn w with
    | 0 => some (.rpass (sA w) (sB w))
    | 1 => some (.rshare (sA w))
    | _ => none) [(5, rrD w != 0), (5, rrFn w == 1 && rrB w != 0)]
  | 0x23 => pick (some (.rquery (sD w) (sA w))) [(5, rrFn w != 0), (5, rrB w != 0)]
  | 0x24 => pick (match riImm w % 8 with
    | 0 => some (.dcwb (sA w))
    | 1 => some (.dcwbi (sA w))
    | 2 => some (.dcinv (sA w))
    | 3 => some (.icinv (sA w))
    | 4 => some .icinva
    | 5 => some (.pref (sA w) (fin 3 (riImm w / 8 % 4)))
    | _ => none)
    [(4, riImm w % 8 == 5 && riImm w / 8 % 4 == 3), (5, riImm w % 8 != 5 && riImm w / 8 % 4 != 0), (5, riImm w / 32 != 0), (5, riD w != 0),
     (5, riImm w % 8 == 4 && riA w != 0)]
  | 0x25 => pick (some (.pbinv (sA w))) [(5, rrFn w != 0), (5, rrB w != 0), (5, rrD w != 0)]
  | 0x26 => pick (some (.publ (sA w))) [(5, rrFn w != 0), (5, rrB w != 0), (5, rrD w != 0)]
  | 0x28 => if n = 1 then pick (some (.vadd (VF.dec w))) (vecBad 0x28 w 0)
    else pick (some (.vaddL (VF.dec w) (XA.dec w1))) (vecBad 0x28 w w1)
  | 0x29 => if n = 1 then pick (some (.vsub (VF.dec w))) (vecBad 0x29 w 0)
    else pick (some (.vsubL (VF.dec w) (XA.dec w1))) (vecBad 0x29 w w1)
  | 0x2A => if n = 1 then pick (some (.vmul (VF.dec w))) (vecBad 0x2A w 0)
    else pick (some (.vmulL (VF.dec w) (XA.dec w1))) (vecBad 0x2A w w1)
  | 0x2B => if n = 1 then pick (some (.vfma (VF.dec w))) (vecBad 0x2B w 0)
    else pick (some (.vfmaL (VF.dec w) (XA.dec w1))) (vecBad 0x2B w w1)
  | 0x2C => if n = 1 then pick (some (.vfnma (VF.dec w))) (vecBad 0x2C w 0)
    else pick (some (.vfnmaL (VF.dec w) (XA.dec w1))) (vecBad 0x2C w w1)
  | 0x2D => if n = 1 then pick (some (.vmin (VF.dec w))) (vecBad 0x2D w 0)
    else pick (some (.vminL (VF.dec w) (XA.dec w1))) (vecBad 0x2D w w1)
  | 0x2E => if n = 1 then pick (some (.vmax (VF.dec w))) (vecBad 0x2E w 0)
    else pick (some (.vmaxL (VF.dec w) (XA.dec w1))) (vecBad 0x2E w w1)
  | 0x2F => if n = 1 then pick (some (.vabs (VF.dec w))) (vecBad 0x2F w 0)
    else pick (some (.vabsL (VF.dec w) (XA.dec w1))) (vecBad 0x2F w w1)
  | 0x30 => if n = 1 then pick (some (.vneg (VF.dec w))) (vecBad 0x30 w 0)
    else pick (some (.vnegL (VF.dec w) (XA.dec w1))) (vecBad 0x30 w w1)
  | 0x31 => if n = 1 then pick (some (.vlogic (VF.dec w))) (vecBad 0x31 w 0)
    else pick (some (.vlogicL (VF.dec w) (XA.dec w1))) (vecBad 0x31 w w1)
  | 0x32 => if n = 1 then pick (some (.vshift (VF.dec w))) (vecBad 0x32 w 0)
    else pick (some (.vshiftL (VF.dec w) (XA.dec w1))) (vecBad 0x32 w w1)
  | 0x33 => if n = 1 then pick (some (.vcmp (VF.dec w))) (vecBad 0x33 w 0)
    else pick (some (.vcmpL (VF.dec w) (XA.dec w1))) (vecBad 0x33 w w1)
  | 0x34 => if n = 1 then pick (some (.vsel (VF.dec w))) (vecBad 0x34 w 0)
    else pick (some (.vselL (VF.dec w) (XA.dec w1))) (vecBad 0x34 w w1)
  | 0x35 => pick (some (.vmulw (VF.dec w) (XA.dec w1))) (vecBad 0x35 w w1)
  | 0x36 => pick (some (.vaddw (VF.dec w) (XA.dec w1))) (vecBad 0x36 w w1)
  | 0x37 => if n = 1 then pick (some (.vdiv (VF.dec w))) (vecBad 0x37 w 0)
    else pick (some (.vdivL (VF.dec w) (XA.dec w1))) (vecBad 0x37 w w1)
  | 0x38 => if n = 1 then pick (some (.vsqrt (VF.dec w))) (vecBad 0x38 w 0)
    else pick (some (.vsqrtL (VF.dec w) (XA.dec w1))) (vecBad 0x38 w w1)
  | 0x39 => if n = 1 then pick (some (.vapprox (VF.dec w))) (vecBad 0x39 w 0)
    else pick (some (.vapproxL (VF.dec w) (XA.dec w1))) (vecBad 0x39 w w1)
  | 0x3A => if n = 1 then pick (some (.vred (VF.dec w))) (vecBad 0x3A w 0)
    else pick (some (.vredL (VF.dec w) (XA.dec w1))) (vecBad 0x3A w w1)
  | 0x3B => if n = 1 then pick (some (.vbcast (VF.dec w))) (vecBad 0x3B w 0)
    else if n = 2 then pick (some (.vbcastL (VF.dec w) (XA.dec w1))) (vecBad 0x3B w w1)
    else pick (some (.vbcastImm (VF.dec w) (bv 32 w2)))
      [(5, xaVr w1 != 0), (5, w1 / 2 ^ 10 % 2 ^ 11 != 0), (5, w1 / 2 ^ 22 != 0), (8, xaRnd w1 != 0), (8, xaSat w1 != 0), (8, xaFtz w1 != 0), (6, 15 < fvTy w), (7, fvVa w != 0), (7, fvVb w != 0), (7, w1 / 2 ^ 21 % 2 != 0)]
  | 0x3C => pick (some (.vext (VF.dec w) (XA.dec w1))) (vecBad 0x3C w w1)
  | 0x3D => pick (some (.vins (VF.dec w) (XA.dec w1))) (vecBad 0x3D w w1)
  | 0x3E => if n = 1 then pick (some (.vperm (VF.dec w))) (vecBad 0x3E w 0)
    else pick (some (.vpermL (VF.dec w) (XA.dec w1))) (vecBad 0x3E w w1)
  | 0x3F => pick (some (.vslide (VF.dec w) (XA.dec w1))) (vecBad 0x3F w w1)
  | 0x40 => pick (some (.vpack (VF.dec w) (XA.dec w1))) (vecBad 0x40 w w1)
  | 0x41 => pick (some (.vunpk (VF.dec w) (XA.dec w1))) (vecBad 0x41 w w1)
  | 0x42 => if n = 1 then pick (some (.vcvt (VF.dec w))) (vecBad 0x42 w 0)
    else pick (some (.vcvtL (VF.dec w) (XA.dec w1))) (vecBad 0x42 w w1)
  | 0x43 => pick (some (.vqnt (VF.dec w) (XA.dec w1))) (vecBad 0x43 w w1)
  | 0x44 => if n = 1 then pick (some (.vplane (VF.dec w))) (vecBad 0x44 w 0)
    else pick (some (.vplaneL (VF.dec w) (XA.dec w1))) (vecBad 0x44 w w1)
  | 0x45 => pick (some (.trw (VF.dec w) (XA.dec w1))) (vecBad 0x45 w w1)
  | 0x46 => pick (some (.trc (VF.dec w) (XA.dec w1))) (vecBad 0x46 w w1)
  | 0x47 => pick (some (.strmap (sA w) (sB w))) [(5, rrFn w != 0), (5, rrD w != 0)]
  | 0x48 => if n = 1 then pick (some (.vmov (VF.dec w))) (vecBad 0x48 w 0)
    else pick (some (.vmovL (VF.dec w) (XA.dec w1))) (vecBad 0x48 w w1)
  | 0x49 => if n = 1 then pick (some (.viota (VF.dec w))) (vecBad 0x49 w 0)
    else pick (some (.viotaL (VF.dec w) (XA.dec w1))) (vecBad 0x49 w w1)
  | 0x4A => pick (some (.vclamp (VF.dec w) (XA.dec w1))) (vecBad 0x4A w w1)
  | 0x4C => if n = 1 then pick (some (.tdset (sA w) (sB w))) [(5, rrFn w != 0), (5, rrD w != 0)]
    else pick (some (.tdsetL (sA w) (sB w) (XE.dec w1))) [(5, rrFn w != 0), (5, rrD w != 0), (5, xeTd w1 != 0), (5, xeImm w1 != 0)]
  | 0x4D => pick (some (.tdget (sD w) (sA w) (sB w) (n == 2))) [(5, rrFn w != 0), (5, w1 != 0)]
  | 0x4E => if n = 1 then pick (some (.mcfg (sA w))) [(5, rrFn w != 0), (5, rrD w != 0), (5, rrB w != 0)]
    else pick (some (.mcfgL (sA w) (XE.dec w1))) [(5, rrFn w != 0), (5, rrD w != 0), (5, rrB w != 0), (5, xeTd w1 != 0), (5, xeImm w1 != 0)]
  | 0x4F => pick (some (.mcfgr (sD w) (sB w) (n == 2))) [(5, rrFn w != 0), (5, rrA w != 0), (5, w1 != 0)]
  | 0x50 => if n = 1 then pick (some (.mldb (sA w) (sB w))) [(5, rrFn w != 0), (5, rrD w != 0)]
    else pick (some (.mldbL (sA w) (sB w) (XE.dec w1))) [(5, rrFn w != 0), (5, rrD w != 0), (5, 3 < xeImm w1)]
  | 0x51 => if n = 1 then pick (some (.mgo)) [(5, rrFn w != 0), (5, rrD w != 0), (5, rrA w != 0), (5, rrB w != 0)]
    else pick (some (.mgoL (XE.dec w1))) [(5, rrFn w != 0), (5, rrD w != 0), (5, rrA w != 0), (5, rrB w != 0), (5, xeImm w1 != 0)]
  | 0x52 => pick (some (.mzero (n == 2))) [(5, rrFn w != 0), (5, rrD w != 0), (5, rrA w != 0), (5, rrB w != 0), (5, w1 != 0)]
  | 0x53 => pick (some (.mrd (fin 32 (rrD w)) (sA w) (n == 2))) [(5, rrFn w != 0), (5, rrB w != 0), (6, 31 < rrD w), (5, w1 != 0)]
  | 0x54 => pick (some (.mwr (fin 32 (rrD w)) (sA w) (n == 2))) [(5, rrFn w != 0), (5, rrB w != 0), (6, 31 < rrD w), (5, w1 != 0)]
  | 0x55 => pick (some (.mstat (sD w) (sA w) (n == 2))) [(5, rrFn w != 0), (5, rrB w != 0), (5, w1 != 0)]
  | 0x56 => pick (some (.mchk (sA w) (n == 2))) [(5, rrFn w != 0), (5, rrD w != 0), (5, rrB w != 0), (5, w1 != 0)]
  | 0x57 => pick (some (.mabort (n == 2))) [(5, rrFn w != 0), (5, rrD w != 0), (5, rrA w != 0), (5, rrB w != 0), (5, w1 != 0)]
  | 0x58 => if n = 1 then pick (some (.cpy (fin 4 (rrFn w)) (sA w))) [(5, 3 < rrFn w), (5, rrD w != 0), (5, rrB w != 0)]
    else pick (some (.cpyL (fin 4 (rrFn w)) (sA w) (XE.dec w1))) [(5, 3 < rrFn w), (5, rrD w != 0), (5, rrB w != 0), (5, xeImm w1 != 0)]
  | 0x59 => if n = 1 then pick (some (.cpys (fin 4 (rrFn w)) (sD w) (sA w) (sB w))) [(5, 3 < rrFn w)]
    else pick (some (.cpysL (fin 4 (rrFn w)) (sD w) (sA w) (sB w) (XE.dec w1))) [(5, 3 < rrFn w), (5, 511 < xeImm w1)]
  | 0x5A => if n = 1 then pick (some (.gath (fin 4 (rrFn w)) (sA w))) [(5, 3 < rrFn w), (5, rrD w != 0), (5, rrB w != 0)]
    else pick (some (.gathL (fin 4 (rrFn w)) (sA w) (XE.dec w1))) [(5, 3 < rrFn w), (5, rrD w != 0), (5, rrB w != 0), (5, xeImm w1 != 0)]
  | 0x5B => if n = 1 then pick (some (.scat (fin 4 (rrFn w)) (sA w))) [(5, 3 < rrFn w), (5, rrD w != 0), (5, rrB w != 0)]
    else pick (some (.scatL (fin 4 (rrFn w)) (sA w) (XE.dec w1))) [(5, 3 < rrFn w), (5, rrD w != 0), (5, rrB w != 0), (5, xeImm w1 != 0)]
  | 0x5C => if n = 1 then pick (some (.fill (fin 4 (rrFn w)) (sA w))) [(5, 3 < rrFn w), (5, rrD w != 0), (5, rrB w != 0)]
    else pick (some (.fillL (fin 4 (rrFn w)) (sA w) (XE.dec w1))) [(5, 3 < rrFn w), (5, rrD w != 0), (5, rrB w != 0), (5, xeImm w1 != 0)]
  | 0x5D => if n = 1 then pick (some (.qsemw (fin 4 (rrFn w)) (sB w))) [(5, 3 < rrFn w), (5, rrD w != 0), (5, rrA w != 0)]
    else pick (some (.qsemwL (fin 4 (rrFn w)) (sB w) (XE.dec w1))) [(5, 3 < rrFn w), (5, rrD w != 0), (5, rrA w != 0)]
  | 0x5E => pick (match rrFn w / 4 % 4 with
    | 0 => some (.qflush (fin 4 (rrFn w)))
    | 1 => some (.qdrain (fin 4 (rrFn w)))
    | 2 => some (.qstat (fin 4 (rrFn w)) (sD w))
    | _ => some (.qws (fin 4 (rrFn w)) (sD w)))
    [(5, 15 < rrFn w), (5, rrA w != 0), (5, rrB w != 0), (5, rrFn w / 4 % 4 < 2 && rrD w != 0)]
  | 0x60 => pick (some (.twait (XE.dec w1))) [(5, rrFn w != 0), (5, rrD w != 0), (5, rrA w != 0), (5, rrB w != 0), (5, xeTd w1 != 0), (5, xeImm w1 != 0)]
  | 0x61 => pick (some (.ttest (sD w) (fin 32 (xeTa w1)))) [(5, rrFn w != 0), (5, rrA w != 0), (5, rrB w != 0), (5, xeTd w1 != 0), (5, xeTb w1 != 0), (5, xeTc w1 != 0), (5, xeImm w1 != 0)]
  | 0x62 => if n = 1 then pick (some (.semacq (sB w))) [(5, rrFn w != 0), (5, rrD w != 0), (5, rrA w != 0)]
    else pick (some (.semacqL (sB w) (XE.dec w1))) [(5, rrFn w != 0), (5, rrD w != 0), (5, rrA w != 0), (5, xeTd w1 != 0)]
  | 0x63 => if n = 1 then pick (some (.semrel (sB w) (sA w))) [(5, rrFn w != 0), (5, rrD w != 0)]
    else pick (some (.semrelL (sB w) (sA w) (XE.dec w1))) [(5, rrFn w != 0), (5, rrD w != 0), (5, xeTd w1 != 0)]
  | 0x64 => pick (match rrFn w with
    | 0 => some (.semrd (sD w) (sB w) (if n = 1 then none else some (XE.dec w1)))
    | 1 => some (.semset (sB w) (sA w) (if n = 1 then none else some (XE.dec w1)))
    | _ => none) [(5, rrFn w == 0 && rrA w != 0), (5, rrFn w == 1 && rrD w != 0), (5, xeTd w1 != 0), (5, xeImm w1 != 0)]
  | 0x65 => pick (some (.barcfg (fin 48 (rrB w)) (sA w) (if n = 1 then none else some (XE.dec w1)))) [(5, rrFn w != 0), (5, rrD w != 0), (6, 47 < rrB w), (5, xeTd w1 != 0), (5, xeImm w1 != 0)]
  | 0x66 => pick (match rrFn w with
    | 0 => some (.bararr (fin 48 (rrB w)) (sA w) (if n = 1 then none else some (XE.dec w1)))
    | 1 => some (.barwait (fin 48 (rrB w)) (sA w) (if n = 1 then none else some (XE.dec w1)))
    | 2 => some (.barsync (fin 48 (rrB w)) (sA w) (if n = 1 then none else some (XE.dec w1)))
    | 3 => some (.bartest (fin 48 (rrB w)) (sD w) (sA w) (if n = 1 then none else some (XE.dec w1)))
    | _ => none) [(5, rrFn w != 3 && rrD w != 0), (6, 47 < rrB w), (5, xeTd w1 != 0), (5, xeImm w1 != 0)]
  | 0x68 => pick (some .tend) [(5, rrFn w != 0), (5, rrD w != 0), (5, rrA w != 0), (5, rrB w != 0)]
  | 0x69 => pick (if rrFn w < 3 then some (.tself (sD w) (fin 3 (rrFn w))) else none) [(5, rrA w != 0), (5, rrB w != 0)]
  | 0x6A => pick (some (.ldlr (sD w) (fin 16 (riImm w)))) [(5, riA w != 0), (6, 15 < riImm w)]
  | 0x6B => pick (some (.tspawn (sA w) (sB w))) [(5, rrFn w != 0), (5, rrD w != 0)]
  | 0x6C => pick (some (.tabort (sA w))) [(5, rrFn w != 0), (5, rrD w != 0), (5, rrB w != 0)]
  | 0x6D => pick (match rrFn w with
    | 0 => some (.reuseQuery (sD w))
    | 1 => some .reuseAnchor
    | 2 => some .reuseDrop
    | _ => none) [(5, rrA w != 0), (5, rrB w != 0), (5, rrFn w != 0 && rrD w != 0)]
  | 0x6E => pick (some (.tmark (sA w) (sB w))) [(5, rrFn w != 0), (5, rrD w != 0)]
  | 0x6F => pick (some (.tyield (sD w))) [(5, rrFn w != 0), (5, rrA w != 0), (5, rrB w != 0)]
  | 0x70 => pick (some (.rngkey (sA w))) [(5, rrFn w != 0), (5, rrB w != 0), (5, rrD w != 0)]
  | 0x71 => if n = 1 then pick (some (.rngBits (VF.dec w))) (vecBad 0x71 w 0)
    else pick (match w1 / 2 ^ 24 with
    | 0 => some (.rngBitsL (VF.dec w) (XA.dec w1))
    | 1 => some (.rngUni (VF.dec w) (XA.dec w1))
    | 2 => some (.rngNorm (VF.dec w) (XA.dec w1))
    | 3 => some (.rngGumb (VF.dec w) (XA.dec w1))
    | 4 => some (.rngDrop (VF.dec w) (XA.dec w1))
    | _ => none) (vecBad 0x71 w w1)
  | 0x72 => if n = 1 then pick (some (.vgmax (VF.dec w))) (vecBad 0x72 w 0)
    else pick (some (.vgmaxL (VF.dec w) (XA.dec w1))) (vecBad 0x72 w w1)
  | 0x74 => if n = 1 then pick (some (.xcpy (fin 4 (rrFn w)) (sA w) (sB w))) [(5, 3 < rrFn w), (5, rrD w != 0)]
    else pick (some (.xcpyL (fin 4 (rrFn w)) (sA w) (sB w) (XE.dec w1))) [(5, 3 < rrFn w), (5, rrD w != 0), (5, xeImm w1 != 0)]
  | 0x75 => if n = 1 then pick (some (.halo (fin 4 (rrFn w)) (sA w))) [(5, 3 < rrFn w), (5, rrD w != 0), (5, rrB w != 0)]
    else pick (some (.haloL (fin 4 (rrFn w)) (sA w) (XE.dec w1))) [(5, 3 < rrFn w), (5, rrD w != 0), (5, rrB w != 0), (5, xeImm w1 != 0)]
  | 0x76 => if n = 1 then pick (some (.xred (fin 4 (rrFn w)) (sA w) (sB w))) [(5, 3 < rrFn w), (5, rrD w != 0)]
    else pick (some (.xredL (fin 4 (rrFn w)) (sA w) (sB w) (XE.dec w1))) [(5, 3 < rrFn w), (5, rrD w != 0), (5, 3 < xeImm w1)]
  | 0x77 => if n = 1 then pick (some (.xsig (sB w) (sA w))) [(5, rrFn w != 0), (5, rrD w != 0)]
    else pick (some (.xsigL (sB w) (sA w) (XE.dec w1))) [(5, rrFn w != 0), (5, rrD w != 0)]
  | 0x78 => pick (some (.trap (fin 16 (riImm w)) (sA w))) [(5, riD w != 0), (7, riImm w < 16), (7, 31 < riImm w)]
  | 0x79 => pick (match riImm w with
    | 0 => some .eretRerun
    | 1 => some .eretAbort
    | 2 => some .eretResume
    | _ => none) [(5, riD w != 0), (5, riA w != 0)]
  | 0x7A => pick (some (.csrr (sD w) (bv 11 (riImm w)))) [(5, riA w != 0), (9, !csrAssigned (riImm w))]
  | 0x7B => pick (some (if n = 1 then .csrw (sD w) (sA w) (bv 11 (riImm w)) else if xsP12 w1 % 2 = 0 then .csrwSet (sD w) (sA w) (bv 11 (riImm w)) else .csrwClr (sD w) (sA w) (bv 11 (riImm w))))
      [(5, xsTop w1 != 0), (5, 1 < xsP12 w1), (5, xsSc w1 != 0), (5, xsRnd w1 != 0), (9, !csrAssigned (riImm w))]
  | 0x7C => pick (some (.gear (sD w) (if riImm w % 2 = 1 then .f else .n))) [(5, riA w != 0), (5, riImm w / 2 != 0)]
  | 0x7D => pick (if riImm w < 4 then some (.time (sD w) (fin 4 (riImm w))) else none) [(5, riA w != 0)]
  | 0x7E => pick (match rrFn w with
    | 0 => some (.strstart (sA w) (sB w))
    | 1 => some (.strstop (sA w))
    | 2 => some (.wfe (sD w))
    | 3 => some (.tlbinv (sA w))
    | 4 => some (.brk (sA w))
    | 5 => some (.ctxid (sD w))
    | _ => none)
    [(5, (rrFn w == 2 || rrFn w == 5) && rrA w != 0), (5, rrFn w != 0 && rrB w != 0), (5, rrFn w != 2 && rrFn w != 5 && rrD w != 0)]
  | _ => .error 2
/-- The length in parcels that parcel 0 gives, or a reason (R33, R35, R36, R56). -/
def lengthOf (w : Nat) : Except Nat Nat :=
  if w % 4 = 3 then .error 1
  else if (lengths (majOf w)).isEmpty then .error 2
  else if (lengths (majOf w)).any (· == w % 4 + 1) then .ok (w % 4 + 1)
  else .error 3
/-- The instruction that three parcels hold, with its length; parcels beyond the length are not looked at. -/
noncomputable def decodeParcels (w w1 w2 : Nat) : Except Nat (Instr × Nat) :=
  match lengthOf w with
  | .error r => .error r
  | .ok n =>
    match decodeMaj w n (if 2 ≤ n then w1 else 0) (if 3 ≤ n then w2 else 0) with
    | .error r => .error r
    | .ok i => .ok (i, n)

/-- Why bytes are no instruction: too few, or a reason of R56. -/
inductive Reject where
  | short
  | illegal (reason : Nat)
  deriving DecidableEq, Repr
/-- The parcel at the head of a list of bytes, little-endian (R4). -/
def parcelOf : List Byte → Option (Nat × List Byte)
  | a :: b :: c :: d :: rest => some (a.toNat + 2 ^ 8 * b.toNat + 2 ^ 16 * c.toNat + 2 ^ 24 * d.toNat, rest)
  | _ => none
/-- The instruction at the head of a list of bytes, with the rest of the list. -/
noncomputable def decode (bytes : List Byte) : Except Reject (Instr × List Byte) :=
  match parcelOf bytes with
  | none => .error .short
  | some (w, r) =>
    match lengthOf w with
    | .error e => .error (.illegal e)
    | .ok n =>
      match (if 2 ≤ n then parcelOf r else some (0, r)) with
      | none => .error .short
      | some (w1, r1) =>
        match (if 3 ≤ n then parcelOf r1 else some (0, r1)) with
        | none => .error .short
        | some (w2, r2) =>
          match decodeMaj w n w1 w2 with
          | .error e => .error (.illegal e)
          | .ok i => .ok (i, r2)

/-! ## Encoding -/

/-- F-RR (R39). -/
def rr (maj len : Nat) (d a b : Fin 64) (fn : Nat) : Nat :=
  len + 4 * maj + 2 ^ 9 * d.val + 2 ^ 15 * a.val + 2 ^ 21 * b.val + 2 ^ 27 * fn
/-- F-RI (R39). -/
def ri (maj len : Nat) (d a : Fin 64) (imm : BitVec 11) : Nat :=
  len + 4 * maj + 2 ^ 9 * d.val + 2 ^ 15 * a.val + 2 ^ 21 * imm.toNat
/-- F-B (R39). -/
def fb (maj len : Nat) (a b : Fin 64) (cond : Nat) (off : BitVec 8) : Nat :=
  len + 4 * maj + 2 ^ 9 * a.val + 2 ^ 15 * b.val + 2 ^ 21 * cond + 2 ^ 24 * off.toNat
/-- F-J (R39). -/
def fj (maj len : Nat) (d : Fin 64) (off : BitVec 17) : Nat := len + 4 * maj + 2 ^ 9 * d.val + 2 ^ 15 * off.toNat
/-- F-VM (R39). -/
def fvm (maj len : Nat) (vd : Fin 32) (a : Fin 64) (imm : BitVec 12) : Nat :=
  len + 4 * maj + 2 ^ 9 * vd.val + 2 ^ 14 * a.val + 2 ^ 20 * imm.toNat
/-- X-S (R41). -/
def xs (p12 sc rnd : Nat) : Nat := rnd + 2 ^ 3 * sc + 2 ^ 9 * p12
/-- X-M (R41). -/
def XM.word (x : XM) : Nat :=
  x.ord.code + 2 ^ 3 * x.scope.code + 2 ^ 6 * x.rh.toNat + 2 ^ 8 * bit x.w64 + 2 ^ 9 * x.disp.toNat
/-- X-E (R41). -/
def XE.word (x : XE) : Nat :=
  x.td.val + 2 ^ 5 * x.ta.val + 2 ^ 10 * x.tb.val + 2 ^ 15 * x.tc.val + 2 ^ 20 * x.imm.toNat
/-- The parcels after parcel 0 of an instruction that may carry an X-E extension. -/
def xeTail : Option XE → List Nat
  | none => []
  | some x => [x.word]
/-- The parcels of an instruction; none for an event. -/
def encode : Instr → List Nat
  | .add d a b => [rr 0x01 0 d a b 0]
  | .sub d a b => [rr 0x01 0 d a b 1]
  | .and d a b => [rr 0x01 0 d a b 2]
  | .or d a b => [rr 0x01 0 d a b 3]
  | .xor d a b => [rr 0x01 0 d a b 4]
  | .shl d a b => [rr 0x01 0 d a b 5]
  | .shr d a b => [rr 0x01 0 d a b 6]
  | .sar d a b => [rr 0x01 0 d a b 7]
  | .min d a b => [rr 0x01 0 d a b 8]
  | .mins d a b => [rr 0x01 0 d a b 9]
  | .max d a b => [rr 0x01 0 d a b 10]
  | .maxs d a b => [rr 0x01 0 d a b 11]
  | .slt d a b => [rr 0x01 0 d a b 12]
  | .slts d a b => [rr 0x01 0 d a b 13]
  | .seq d a b => [rr 0x01 0 d a b 14]
  | .sne d a b => [rr 0x01 0 d a b 15]
  | .mul d a b => [rr 0x01 0 d a b 16]
  | .mulhi d a b => [rr 0x01 0 d a b 17]
  | .mulhis d a b => [rr 0x01 0 d a b 18]
  | .div d a b => [rr 0x01 0 d a b 19]
  | .divs d a b => [rr 0x01 0 d a b 20]
  | .rem d a b => [rr 0x01 0 d a b 21]
  | .rems d a b => [rr 0x01 0 d a b 22]
  | .andn d a b => [rr 0x01 0 d a b 23]
  | .orn d a b => [rr 0x01 0 d a b 24]
  | .clz d a => [rr 0x02 0 d a 0 0]
  | .ctz d a => [rr 0x02 0 d a 0 1]
  | .popc d a => [rr 0x02 0 d a 0 2]
  | .sextB d a => [rr 0x02 0 d a 0 3]
  | .sextH d a => [rr 0x02 0 d a 0 4]
  | .sextW d a => [rr 0x02 0 d a 0 5]
  | .zextB d a => [rr 0x02 0 d a 0 6]
  | .zextH d a => [rr 0x02 0 d a 0 7]
  | .zextW d a => [rr 0x02 0 d a 0 8]
  | .brev d a => [rr 0x02 0 d a 0 9]
  | .bswap d a => [rr 0x02 0 d a 0 10]
  | .addi d a imm => [ri 0x03 0 d a imm]
  | .addiL d a imm => [ri 0x03 2 d a (0 : BitVec 11), 0, imm.toNat]
  | .andi d a imm => [ri 0x04 0 d a imm]
  | .andiL d a imm => [ri 0x04 2 d a (0 : BitVec 11), 0, imm.toNat]
  | .ori d a imm => [ri 0x05 0 d a imm]
  | .oriL d a imm => [ri 0x05 2 d a (0 : BitVec 11), 0, imm.toNat]
  | .xori d a imm => [ri 0x06 0 d a imm]
  | .xoriL d a imm => [ri 0x06 2 d a (0 : BitVec 11), 0, imm.toNat]
  | .slti d a imm => [ri 0x08 0 d a imm]
  | .sltiL d a imm => [ri 0x08 2 d a (0 : BitVec 11), 0, imm.toNat]
  | .lih d a imm => [ri 0x0A 0 d a imm]
  | .lihL d a imm => [ri 0x0A 2 d a (0 : BitVec 11), 0, imm.toNat]
  | .shli d a amt => [ri 0x07 0 d a (BitVec.ofNat 11 (amt.toNat + 64 * 0))]
  | .shri d a amt => [ri 0x07 0 d a (BitVec.ofNat 11 (amt.toNat + 64 * 1))]
  | .sari d a amt => [ri 0x07 0 d a (BitVec.ofNat 11 (amt.toNat + 64 * 2))]
  | .roli d a amt => [ri 0x07 0 d a (BitVec.ofNat 11 (amt.toNat + 64 * 3))]
  | .li d imm => [ri 0x09 2 d 0 (0 : BitVec 11), 0, imm.toNat]
  | .addpc d off => [fj 0x0B 0 d off]
  | .addpcL d off => [fj 0x0B 1 d 0, off.toNat]
  | .jal d off => [fj 0x12 0 d off]
  | .jalL d off => [fj 0x12 1 d 0, off.toNat]
  | .bfx d a pos wm1 => [rr 0x0C 1 d a 0 0, xs (pos.toNat + 64 * wm1.toNat) 0 0]
  | .bfxs d a pos wm1 => [rr 0x0C 1 d a 0 1, xs (pos.toNat + 64 * wm1.toNat) 0 0]
  | .bfi d a pos wm1 => [rr 0x0D 1 d a 0 0, xs (pos.toNat + 64 * wm1.toNat) 0 0]
  | .sel d c a b => [rr 0x0E 1 d a b 0, xs 0 c.val 0]
  | .fadd d a b => [rr 0x0F 0 d a b 0]
  | .faddL d a b rnd => [rr 0x0F 1 d a b 0, xs 0 0 rnd.code]
  | .fsub d a b => [rr 0x0F 0 d a b 1]
  | .fsubL d a b rnd => [rr 0x0F 1 d a b 1, xs 0 0 rnd.code]
  | .fmul d a b => [rr 0x0F 0 d a b 2]
  | .fmulL d a b rnd => [rr 0x0F 1 d a b 2, xs 0 0 rnd.code]
  | .fmin d a b long => rr 0x0F (bit long) d a b 3 :: if long then [0] else []
  | .fmax d a b long => rr 0x0F (bit long) d a b 4 :: if long then [0] else []
  | .feq d a b long => rr 0x0F (bit long) d a b 5 :: if long then [0] else []
  | .flt d a b long => rr 0x0F (bit long) d a b 6 :: if long then [0] else []
  | .fle d a b long => rr 0x0F (bit long) d a b 7 :: if long then [0] else []
  | .fcvtF32I64 d a => [rr 0x0F 0 d a 0 8]
  | .fcvtF32I64L d a rnd => [rr 0x0F 1 d a 0 8, xs 0 0 rnd.code]
  | .fcvtI64F32 d a => [rr 0x0F 0 d a 0 9]
  | .fcvtI64F32L d a rnd => [rr 0x0F 1 d a 0 9, xs 0 0 rnd.code]
  | .ffma d a b c rnd => [rr 0x0F 1 d a b 10, xs 0 c.val rnd.code]
  | .fabs d a long => rr 0x0F (bit long) d a 0 11 :: if long then [0] else []
  | .fneg d a long => rr 0x0F (bit long) d a 0 12 :: if long then [0] else []
  | .beq a b off => [fb 0x10 0 a b 0 off]
  | .beqL a b off => [fb 0x11 1 a b 0 0, off.toNat]
  | .bne a b off => [fb 0x10 0 a b 1 off]
  | .bneL a b off => [fb 0x11 1 a b 1 0, off.toNat]
  | .blt a b off => [fb 0x10 0 a b 2 off]
  | .bltL a b off => [fb 0x11 1 a b 2 0, off.toNat]
  | .bge a b off => [fb 0x10 0 a b 3 off]
  | .bgeL a b off => [fb 0x11 1 a b 3 0, off.toNat]
  | .blts a b off => [fb 0x10 0 a b 4 off]
  | .bltsL a b off => [fb 0x11 1 a b 4 0, off.toNat]
  | .bges a b off => [fb 0x10 0 a b 5 off]
  | .bgesL a b off => [fb 0x11 1 a b 5 0, off.toNat]
  | .jalr d a imm => [ri 0x13 0 d a imm]
  | .loop lc a len => [ri 0x14 0 (lc.castLE (by decide)) a len]
  | .bqpush a => [rr 0x15 0 0 a 0 0]
  | .bqb off => [fj 0x16 0 0 off]
  | .bqbL off => [fj 0x16 1 0 0, off.toNat]
  | .ldD d a disp => [ri 0x18 0 d a disp]
  | .ldDL d a x => [ri 0x18 1 d a (0 : BitVec 11), x.word]
  | .ldW d a disp => [ri 0x19 0 d a disp]
  | .ldWL d a x => [ri 0x19 1 d a (0 : BitVec 11), x.word]
  | .stD d a disp => [ri 0x1A 0 d a disp]
  | .stDL d a x => [ri 0x1A 1 d a (0 : BitVec 11), x.word]
  | .stW d a disp => [ri 0x1B 0 d a disp]
  | .stWL d a x => [ri 0x1B 1 d a (0 : BitVec 11), x.word]
  | .ldx d a w sx x => [ri 0x1C 1 d a (BitVec.ofNat 11 (w.toNat + 8 * bit sx)), x.word]
  | .stx d a w x => [ri 0x1D 1 d a (BitVec.ofNat 11 w.toNat), x.word]
  | .ldv vd a disp => [fvm 0x1E 0 vd a disp]
  | .ldvL vd a x => [fvm 0x1E 1 vd a 0, x.word]
  | .stv vd a disp => [fvm 0x1F 0 vd a disp]
  | .stvL vd a x => [fvm 0x1F 1 vd a 0, x.word]
  | .atomAdd d a b => [rr 0x20 0 d a b 0]
  | .atomAnd d a b => [rr 0x20 0 d a b 1]
  | .atomOr d a b => [rr 0x20 0 d a b 2]
  | .atomXor d a b => [rr 0x20 0 d a b 3]
  | .atomMin d a b => [rr 0x20 0 d a b 4]
  | .atomMins d a b => [rr 0x20 0 d a b 5]
  | .atomMax d a b => [rr 0x20 0 d a b 6]
  | .atomMaxs d a b => [rr 0x20 0 d a b 7]
  | .atomSwap d a b => [rr 0x20 0 d a b 8]
  | .atomFadd32 d a b => [rr 0x20 0 d a b 9]
  | .atomCas d a b => [rr 0x20 0 d a b 10]
  | .atomL op d a b x => [rr 0x20 1 d a b op.code, x.word]
  | .fence scope => [ri 0x21 0 0 0 (BitVec.ofNat 11 (0 + 8 * scope.code))]
  | .fenceAcq scope => [ri 0x21 0 0 0 (BitVec.ofNat 11 (1 + 8 * scope.code))]
  | .fenceRel scope => [ri 0x21 0 0 0 (BitVec.ofNat 11 (2 + 8 * scope.code))]
  | .fenceEng => [ri 0x21 0 0 0 (3 : BitVec 11)]
  | .fetchb => [ri 0x21 0 0 0 (4 : BitVec 11)]
  | .rpass a b => [rr 0x22 0 0 a b 0]
  | .rshare a => [rr 0x22 0 0 a 0 1]
  | .rquery d a => [rr 0x23 0 d a 0 0]
  | .dcwb a => [ri 0x24 0 0 a (0 : BitVec 11)]
  | .dcwbi a => [ri 0x24 0 0 a (1 : BitVec 11)]
  | .dcinv a => [ri 0x24 0 0 a (2 : BitVec 11)]
  | .icinv a => [ri 0x24 0 0 a (3 : BitVec 11)]
  | .icinva => [ri 0x24 0 0 0 (4 : BitVec 11)]
  | .pref a hint => [ri 0x24 0 0 a (BitVec.ofNat 11 (5 + 8 * hint.val))]
  | .pbinv a => [rr 0x25 0 0 a 0 0]
  | .publ a => [rr 0x26 0 0 a 0 0]
  | .rngkey a => [rr 0x70 0 0 a 0 0]
  | .vadd f => [f.word 0x28 0]
  | .vaddL f x => [f.word 0x28 1, x.word]
  | .vsub f => [f.word 0x29 0]
  | .vsubL f x => [f.word 0x29 1, x.word]
  | .vmul f => [f.word 0x2A 0]
  | .vmulL f x => [f.word 0x2A 1, x.word]
  | .vfma f => [f.word 0x2B 0]
  | .vfmaL f x => [f.word 0x2B 1, x.word]
  | .vfnma f => [f.word 0x2C 0]
  | .vfnmaL f x => [f.word 0x2C 1, x.word]
  | .vmin f => [f.word 0x2D 0]
  | .vminL f x => [f.word 0x2D 1, x.word]
  | .vmax f => [f.word 0x2E 0]
  | .vmaxL f x => [f.word 0x2E 1, x.word]
  | .vabs f => [f.word 0x2F 0]
  | .vabsL f x => [f.word 0x2F 1, x.word]
  | .vneg f => [f.word 0x30 0]
  | .vnegL f x => [f.word 0x30 1, x.word]
  | .vlogic f => [f.word 0x31 0]
  | .vlogicL f x => [f.word 0x31 1, x.word]
  | .vshift f => [f.word 0x32 0]
  | .vshiftL f x => [f.word 0x32 1, x.word]
  | .vcmp f => [f.word 0x33 0]
  | .vcmpL f x => [f.word 0x33 1, x.word]
  | .vsel f => [f.word 0x34 0]
  | .vselL f x => [f.word 0x34 1, x.word]
  | .vdiv f => [f.word 0x37 0]
  | .vdivL f x => [f.word 0x37 1, x.word]
  | .vsqrt f => [f.word 0x38 0]
  | .vsqrtL f x => [f.word 0x38 1, x.word]
  | .vapprox f => [f.word 0x39 0]
  | .vapproxL f x => [f.word 0x39 1, x.word]
  | .vred f => [f.word 0x3A 0]
  | .vredL f x => [f.word 0x3A 1, x.word]
  | .vbcast f => [f.word 0x3B 0]
  | .vbcastL f x => [f.word 0x3B 1, x.word]
  | .vperm f => [f.word 0x3E 0]
  | .vpermL f x => [f.word 0x3E 1, x.word]
  | .vcvt f => [f.word 0x42 0]
  | .vcvtL f x => [f.word 0x42 1, x.word]
  | .vplane f => [f.word 0x44 0]
  | .vplaneL f x => [f.word 0x44 1, x.word]
  | .vmov f => [f.word 0x48 0]
  | .vmovL f x => [f.word 0x48 1, x.word]
  | .viota f => [f.word 0x49 0]
  | .viotaL f x => [f.word 0x49 1, x.word]
  | .vgmax f => [f.word 0x72 0]
  | .vgmaxL f x => [f.word 0x72 1, x.word]
  | .vbcastImm f imm => [f.word 0x3B 2, 0, imm.toNat]
  | .vmulw f x => [f.word 0x35 1, x.word]
  | .vaddw f x => [f.word 0x36 1, x.word]
  | .vext f x => [f.word 0x3C 1, x.word]
  | .vins f x => [f.word 0x3D 1, x.word]
  | .vslide f x => [f.word 0x3F 1, x.word]
  | .vpack f x => [f.word 0x40 1, x.word]
  | .vunpk f x => [f.word 0x41 1, x.word]
  | .vqnt f x => [f.word 0x43 1, x.word]
  | .trw f x => [f.word 0x45 1, x.word]
  | .trc f x => [f.word 0x46 1, x.word]
  | .vclamp f x => [f.word 0x4A 1, x.word]
  | .strmap a b => [rr 0x47 0 0 a b 0]
  | .rngBits f => [f.word 0x71 0]
  | .rngBitsL f x => [f.word 0x71 1, x.word]
  | .rngUni f x => [f.word 0x71 1, x.word]
  | .rngNorm f x => [f.word 0x71 1, x.word]
  | .rngGumb f x => [f.word 0x71 1, x.word]
  | .rngDrop f x => [f.word 0x71 1, x.word]
  | .tdset a b => [rr 0x4C 0 0 a b 0]
  | .tdsetL a b x => [rr 0x4C 1 0 a b 0, x.word]
  | .mcfg a => [rr 0x4E 0 0 a 0 0]
  | .mcfgL a x => [rr 0x4E 1 0 a 0 0, x.word]
  | .mldb a b => [rr 0x50 0 0 a b 0]
  | .mldbL a b x => [rr 0x50 1 0 a b 0, x.word]
  | .mgo => [rr 0x51 0 0 0 0 0]
  | .mgoL x => [rr 0x51 1 0 0 0 0, x.word]
  | .tdget d a b long => rr 0x4D (bit long) d a b 0 :: if long then [0] else []
  | .mcfgr d b long => rr 0x4F (bit long) d 0 b 0 :: if long then [0] else []
  | .mzero long => rr 0x52 (bit long) 0 0 0 0 :: if long then [0] else []
  | .mabort long => rr 0x57 (bit long) 0 0 0 0 :: if long then [0] else []
  | .mrd vd a long => rr 0x53 (bit long) (vd.castLE (by decide)) a 0 0 :: if long then [0] else []
  | .mwr vd a long => rr 0x54 (bit long) (vd.castLE (by decide)) a 0 0 :: if long then [0] else []
  | .mstat d a long => rr 0x55 (bit long) d a 0 0 :: if long then [0] else []
  | .mchk a long => rr 0x56 (bit long) 0 a 0 0 :: if long then [0] else []
  | .cpy q a => [rr 0x58 0 0 a 0 q.val]
  | .cpyL q a x => [rr 0x58 1 0 a 0 q.val, x.word]
  | .gath q a => [rr 0x5A 0 0 a 0 q.val]
  | .gathL q a x => [rr 0x5A 1 0 a 0 q.val, x.word]
  | .scat q a => [rr 0x5B 0 0 a 0 q.val]
  | .scatL q a x => [rr 0x5B 1 0 a 0 q.val, x.word]
  | .fill q a => [rr 0x5C 0 0 a 0 q.val]
  | .fillL q a x => [rr 0x5C 1 0 a 0 q.val, x.word]
  | .halo q a => [rr 0x75 0 0 a 0 q.val]
  | .haloL q a x => [rr 0x75 1 0 a 0 q.val, x.word]
  | .cpys q d a b => [rr 0x59 0 d a b q.val]
  | .cpysL q d a b x => [rr 0x59 1 d a b q.val, x.word]
  | .qsemw q sem => [rr 0x5D 0 0 0 sem q.val]
  | .qsemwL q sem x => [rr 0x5D 1 0 0 sem q.val, x.word]
  | .xcpy q a b => [rr 0x74 0 0 a b q.val]
  | .xcpyL q a b x => [rr 0x74 1 0 a b q.val, x.word]
  | .xred q a b => [rr 0x76 0 0 a b q.val]
  | .xredL q a b x => [rr 0x76 1 0 a b q.val, x.word]
  | .xsig sem a => [rr 0x77 0 0 a sem 0]
  | .xsigL sem a x => [rr 0x77 1 0 a sem 0, x.word]
  | .qflush q => [rr 0x5E 0 0 0 0 (q.val + 4 * 0)]
  | .qdrain q => [rr 0x5E 0 0 0 0 (q.val + 4 * 1)]
  | .qstat q d => [rr 0x5E 0 d 0 0 (q.val + 4 * 2)]
  | .qws q d => [rr 0x5E 0 d 0 0 (q.val + 4 * 3)]
  | .twait x => [rr 0x60 1 0 0 0 0, x.word]
  | .ttest d ta => [rr 0x61 1 d 0 0 0, (XE.mk 0 0 0 ta 0).word]
  | .semacq sem => [rr 0x62 0 0 0 sem 0]
  | .semacqL sem x => [rr 0x62 1 0 0 sem 0, x.word]
  | .semrel sem a => [rr 0x63 0 0 a sem 0]
  | .semrelL sem a x => [rr 0x63 1 0 a sem 0, x.word]
  | .semrd d sem x => rr 0x64 (bit x.isSome) d 0 sem 0 :: xeTail x
  | .semset sem a x => rr 0x64 (bit x.isSome) 0 a sem 1 :: xeTail x
  | .barcfg b a x => rr 0x65 (bit x.isSome) 0 a (b.castLE (by decide)) 0 :: xeTail x
  | .bararr b a x => rr 0x66 (bit x.isSome) 0 a (b.castLE (by decide)) 0 :: xeTail x
  | .barwait b a x => rr 0x66 (bit x.isSome) 0 a (b.castLE (by decide)) 1 :: xeTail x
  | .barsync b a x => rr 0x66 (bit x.isSome) 0 a (b.castLE (by decide)) 2 :: xeTail x
  | .bartest b d a x => rr 0x66 (bit x.isSome) d a (b.castLE (by decide)) 3 :: xeTail x
  | .tend => [rr 0x68 0 0 0 0 0]
  | .tself d w => [rr 0x69 0 d 0 0 w.val]
  | .ldlr d n => [ri 0x6A 0 d 0 (BitVec.ofNat 11 n.val)]
  | .tspawn a b => [rr 0x6B 0 0 a b 0]
  | .tmark a b => [rr 0x6E 0 0 a b 0]
  | .tabort a => [rr 0x6C 0 0 a 0 0]
  | .reuseQuery d => [rr 0x6D 0 d 0 0 0]
  | .reuseAnchor => [rr 0x6D 0 0 0 0 1]
  | .reuseDrop => [rr 0x6D 0 0 0 0 2]
  | .tyield d => [rr 0x6F 0 d 0 0 0]
  | .trap code a => [ri 0x78 0 0 a (BitVec.ofNat 11 (16 + code.val))]
  | .eretRerun => [ri 0x79 0 0 0 (0 : BitVec 11)]
  | .eretAbort => [ri 0x79 0 0 0 (1 : BitVec 11)]
  | .eretResume => [ri 0x79 0 0 0 (2 : BitVec 11)]
  | .csrr d csr => [ri 0x7A 0 d 0 csr]
  | .csrw d a csr => [ri 0x7B 0 d a csr]
  | .csrwSet d a csr => [ri 0x7B 1 d a csr, 0]
  | .csrwClr d a csr => [ri 0x7B 1 d a csr, 512]
  | .gear d g => [ri 0x7C 0 d 0 (BitVec.ofNat 11 (if g = .f then 1 else 0))]
  | .time d src => [ri 0x7D 0 d 0 (BitVec.ofNat 11 src.val)]
  | .strstart a b => [rr 0x7E 0 0 a b 0]
  | .strstop a => [rr 0x7E 0 0 a 0 1]
  | .tlbinv a => [rr 0x7E 0 0 a 0 3]
  | .brk a => [rr 0x7E 0 0 a 0 4]
  | .wfe d => [rr 0x7E 0 d 0 0 2]
  | .ctxid d => [rr 0x7E 0 d 0 0 5]
  | .handlerEntry _ => []
  | .noticeDelivery _ => []
  | .overrun _ => []
  | .discard _ => []
  | .powerOnReset => []
  | .check => []
  | .commit => []
  | .attest => []
  | .submit _ _ => []
  | .launchStart _ _ => []
  | .chaconneEvaluate _ _ _ _ _ => []
  | .taskPlacement _ => []
  | .shadowBankSwap _ => []
  | .taskCommit _ => []
  | .timeSliceExpiry _ => []
  | .shadowFill _ => []
  | .galliardSpill _ => []
  | .spillResume _ => []
  | .nestStart _ => []
  | .pass _ => []
  | .drain _ => []
  | .bankLoad _ => []
  | .copyCommandStart _ _ => []
  | .ringReserve _ _ => []
  | .copyRequestIssue _ _ => []
  | .copyCommandComplete _ _ => []
  | .readRequest _ => []
  | .write _ => []
  | .atomicOrOrderedAccess _ => []
  | .semaphoreIncrement _ => []
  | .barrierArrival _ => []
  | .ringPush _ => []
  | .controlSpaceAccess _ => []
  | .readAnswer _ => []
  | .writeAcknowledgement _ => []
  | .atomicAnswer _ => []
  | .barrierRelease _ => []
  | .recordRelease _ => []
  | .barrierDrop _ => []
  | .barrierReturn _ => []
  | .arbitrate _ => []
  | .admission _ => []
  | .injectionRelief _ _ => []
  | .linkReplay _ _ _ => []
  | .linkDead _ _ _ => []
  | .distanceTableLoad => []
  | .hbmFill _ _ => []
  | .tableWalk _ _ => []
  | .gearTransitionComplete _ => []
  | .activityWindowReset _ => []
  | .controllerPeriod => []
  | .thermalLimitUpdate _ _ => []
  | .thermalStop _ _ => []
  | .capMessage _ _ => []
  | .leaseExpiry => []
  | .errorCount _ _ => []
  | .coreLeavesPartition _ => []
  | .register _ _ => []
  | .unregister _ _ => []
  | .resize _ _ => []
  | .release _ _ => []
  | .hostWindowEntryWrite _ _ _ => []
  | .bar2Access _ _ _ => []
  | .hostRegisterWrite _ _ _ => []
  | .remoteAccess _ => []
  | .linkTraining _ _ _ _ => []
  | .clockAlignment _ => []
  | .ptmCorrection _ => []
  | .bq _ => []
  | .age _ => []
  | .rmode _ => []
  | .pgroot _ => []
  | .tdtab _ => []
  | .ringtab _ => []
  | .qf _ _ => []
  | .actctl _ => []
  | .telst _ => []
  | .zikinLinkFailure _ => []

/-- The instruction of a word numbered as spec/opcode_table.json numbers it: parcel 0 in the low bits, every bit
above `nbits` zero. -/
noncomputable def decodeTableWord (nbits w : Nat) : Option Instr :=
  let v := w % 2 ^ nbits
  match decodeParcels (v % 2 ^ 32) (v / 2 ^ 32 % 2 ^ 32) (v / 2 ^ 64 % 2 ^ 32) with
  | .ok (i, _) => some i
  | .error _ => none

end Sys2Proof
end

