-- ==== Sys2Proof/Machine/Flags.lean ====
section
/-! DEFINITION. Numbers: the formats, the rounding function Round and the defined operations (R70 to R104).
Dicel has no arithmetic flags (R90), so this file holds the whole of the arithmetic. A finite value is an exact
dyadic number; every operation is exact and is rounded at most once. -/
namespace Sys2Proof.Num

/-- A value read from a format: NaN, an infinity, or (-1)^neg * m * 2^e exactly. A zero keeps its sign. -/
inductive FV where
  | nan
  | inf (neg : Bool)
  | fin (neg : Bool) (m : Nat) (e : Int)
  deriving DecidableEq, Repr

/-- How a result is rounded: the mode (never DYN), the random bits of RSR and their count, sat and ftz (R78, R83, R88). -/
structure RC where
  mode : Rnd
  rb   : Nat := 0
  b    : Nat := 0
  sat  : Bool := false
  ftz  : Bool := false
  deriving DecidableEq, Repr
def rne : RC := { mode := .rne }

/-- The unsigned field [lo + w - 1 : lo] of a number. -/
def bits (x lo w : Nat) : Nat := x / 2 ^ lo % 2 ^ w
/-- A w-bit number read in two's complement (R75). -/
def sint (w x : Nat) : Int := if x % 2 ^ w < 2 ^ (w - 1) then (x % 2 ^ w : Nat) else (x % 2 ^ w : Nat) - (2 ^ w : Nat)
/-- An integer modulo 2^w (R85). -/
def wrap (w : Nat) (x : Int) : Nat := (x % (2 ^ w : Nat)).toNat
/-- An integer clamped to the range of Iw (R85, R86). -/
def clamp (w : Nat) (x : Int) : Nat :=
  wrap w (max (-(2 ^ (w - 1) : Nat)) (min ((2 ^ (w - 1) : Nat) - 1) x))
/-- R85: wrapped, or clamped with sat. -/
def wrapOrClamp (sat : Bool) (w : Nat) (x : Int) : Nat := if sat then clamp w x else wrap w x

/-- A floating-point format of R71: exponent and fraction bits, bias. -/
structure Fmt where
  eb : Nat
  fb : Nat
  bias : Int
def Fmt.of : Ty → Fmt
  | .f16 => ⟨5, 10, 15⟩
  | .bf16 => ⟨8, 7, 127⟩
  | .e4m3 => ⟨4, 3, 7⟩
  | .e5m2 => ⟨5, 2, 15⟩
  | .e2m1 => ⟨2, 1, 1⟩
  | .e8m0 => ⟨8, 0, 127⟩
  | _ => ⟨8, 23, 127⟩
/-- The precision P (R71). -/
def Fmt.p (f : Fmt) : Nat := f.fb + 1
/-- The exponent of the smallest normal value (R71). -/
def Fmt.emin (f : Fmt) : Int := 1 - f.bias
/-- The types of R71. -/
def isFp : Ty → Bool
  | .f32 | .f16 | .bf16 | .e4m3 | .e5m2 | .e2m1 | .e8m0 => true
  | _ => false
/-- Whether a format has infinities (R71). -/
def hasInf : Ty → Bool
  | .f32 | .f16 | .bf16 | .e5m2 => true
  | _ => false
/-- The canonical NaN (R71, R73, R80); +0 where there is none, 0 in an integer format. -/
def canonNan : Ty → Nat
  | .f32 => 0x7FC00000 | .f16 => 0x7E00 | .bf16 => 0x7FC0 | .e4m3 => 0x7F | .e5m2 => 0x7E | .e8m0 => 0xFF
  | _ => 0
/-- The sign bit of a signed format. -/
def signBit (t : Ty) (neg : Bool) : Nat := if neg then 2 ^ (t.bits - 1) else 0
/-- The encoding of infinity where the format has one. -/
def infBits (t : Ty) : Nat := (2 ^ (Fmt.of t).eb - 1) * 2 ^ (Fmt.of t).fb
/-- The encoding of the largest finite magnitude (R71). -/
def maxBits : Ty → Nat
  | .e4m3 => 0x7E | .e2m1 => 0x7 | .e8m0 => 0xFE
  | t => infBits t - 1

/-- The exact value of an encoding (R72, R73, R74, R75). -/
def read (t : Ty) (x0 : Nat) : FV :=
  let x := x0 % 2 ^ t.bits
  match t with
  | .e8m0 => if x = 255 then .nan else .fin false 1 (x - 127)
  | .f32 | .f16 | .bf16 | .e5m2 | .e4m3 | .e2m1 =>
    let f := Fmt.of t
    let neg := x / 2 ^ (f.eb + f.fb) = 1
    let e := x / 2 ^ f.fb % 2 ^ f.eb
    let fr := x % 2 ^ f.fb
    if hasInf t && e == 2 ^ f.eb - 1 then if fr = 0 then .inf neg else .nan
    else if t = .e4m3 ∧ x % 128 = 127 then .nan
    else if e = 0 then .fin neg fr (f.emin - f.fb) else .fin neg (fr + 2 ^ f.fb) (e - f.bias - f.fb)
  | .b1 => .fin false x 0
  | _ => let v := sint t.bits x; .fin (v < 0) v.natAbs 0
/-- An F32 operand under ftz: a subnormal is a zero of its sign (R88). -/
def flushIn (ftz : Bool) (t : Ty) (x : Nat) : Nat :=
  if ftz && t == .f32 && x / 2 ^ 23 % 256 == 0 then x / 2 ^ 31 % 2 * 2 ^ 31 else x
/-- A result under ftz (R88). -/
def flushOut (ftz : Bool) (t : Ty) (x : Nat) : Nat := flushIn ftz t x

/-- Whether a magnitude m * 2^e exceeds m' * 2^e'. -/
def magGt (m : Nat) (e : Int) (m' : Nat) (e' : Int) : Bool :=
  let b := min e e'
  decide (m' * 2 ^ (e' - b).toNat < m * 2 ^ (e - b).toNat)
/-- The rounding decision of R78 at the quantum 2^q: the magnitude in units of the quantum. `odd` overrides the
parity of lo where the format asks for another one (R81). -/
def roundAt (c : RC) (neg : Bool) (m : Nat) (e q : Int) (odd : Nat → Bool) : Nat :=
  if q ≤ e then m * 2 ^ (e - q).toNat
  else
    let sh := (q - e).toNat
    let lo := m / 2 ^ sh
    let rem := m % 2 ^ sh
    if rem = 0 then lo
    else
      let up : Bool := match c.mode with
        | .rne | .dyn => decide (2 ^ sh < 2 * rem) || (2 * rem == 2 ^ sh && odd lo)
        | .rna => decide (2 ^ sh ≤ 2 * rem)
        | .rtz => false
        | .rup => !neg
        | .rdn => neg
        | .rod => !odd lo
        | .rsr => decide (2 ^ (sh + c.b) ≤ rem * 2 ^ c.b + c.rb * 2 ^ sh)
      if up then lo + 1 else lo
/-- Overflow of R79. -/
def overflow (c : RC) (t : Ty) (neg : Bool) : Nat :=
  let toward : Bool := match c.mode with
    | .rtz | .rod => true
    | .rdn => !neg
    | .rup => neg
    | _ => false
  let s := signBit t neg
  match t with
  | .f32 => s + (if toward then maxBits t else infBits t)
  | .e4m3 => if c.sat || toward then s + 0x7E else 0x7F
  | .e2m1 => s + 7
  | .e8m0 => if c.sat || toward then 0xFE else 0xFF
  | _ => s + (if c.sat || toward then maxBits t else infBits t)
/-- The encoding of u units of 2^q in an IEEE-like format. -/
def encodeFp (t : Ty) (neg : Bool) (u : Nat) (q : Int) : Nat :=
  let f := Fmt.of t
  let s := signBit t neg
  if u = 0 then s
  else
    let top := (Nat.log2 u : Int) + q
    if f.emin ≤ top then
      let sh := top - f.fb - q
      let sig := if 0 ≤ sh then u / 2 ^ sh.toNat else u * 2 ^ (-sh).toNat
      s + (top + f.bias).toNat * 2 ^ f.fb + sig % 2 ^ f.fb
    else s + u * 2 ^ (q - (f.emin - f.fb)).toNat
/-- Round(x, mode, fmt) of R78 to R81 and R86, followed by the flush of R88. -/
def round (c : RC) (t : Ty) (x : FV) : Nat :=
  if isFp t then
    match x with
    | .nan => canonNan t
    | .inf neg =>
      match t with
      | .e4m3 => if c.sat then signBit t neg + 0x7E else 0x7F
      | .e2m1 => signBit t neg + 7
      | .e8m0 => if neg then 0xFF else if c.sat then 0xFE else 0xFF
      | _ => signBit t neg + infBits t
    | .fin neg m e =>
      if t = .e8m0 then
        if m = 0 ∨ neg then 0xFF
        else
          let fl := (Nat.log2 m : Int) + e
          if fl < -127 then 0
          else
            let u := roundAt c neg m e fl (fun _ => (fl + 127) % 2 == 1)
            let r := if u = 1 then fl + 127 else fl + 128
            if 254 < r then overflow c t false else r.toNat
      else if m = 0 then signBit t neg
      else
        let f := Fmt.of t
        let q := max ((Nat.log2 m : Int) + e) f.emin - f.fb
        let u := roundAt c neg m e q (fun lo => lo % 2 == 1)
        match read t (maxBits t) with
        | .fin _ lm le =>
          if magGt u q lm le then overflow c t neg else flushOut c.ftz t (encodeFp t neg u q)
        | _ => 0
  else
    match x with
    | .nan => 0
    | .inf neg => clamp t.bits (if neg then -(2 ^ 70 : Nat) else (2 ^ 70 : Nat))
    | .fin neg m e =>
      let u := roundAt c neg m e 0 (fun lo => lo % 2 == 1)
      clamp t.bits (if neg then -(u : Int) else u)
/-- A conversion to a 64-bit signed integer (R86, FCVT.I64.F32). -/
def roundI64 (c : RC) (x : FV) : Nat :=
  match x with
  | .nan => 0
  | .inf neg => if neg then 2 ^ 63 else 2 ^ 63 - 1
  | .fin neg m e =>
    let u := roundAt c neg m e 0 (fun lo => lo % 2 == 1)
    clamp 64 (if neg then -(u : Int) else u)

/-! ## Exact operations (R90 to R93) -/

/-- An exact integer as a value. -/
def ofInt (x : Int) : FV := .fin (x < 0) x.natAbs 0
/-- The signed significand of a value over the exponent b at or below its own. -/
def scaled (neg : Bool) (m : Nat) (e b : Int) : Int :=
  let u : Int := (m * 2 ^ (e - b).toNat : Nat)
  if neg then -u else u
def neg : FV → FV
  | .nan => .nan
  | .inf n => .inf !n
  | .fin n m e => .fin (!n) m e
/-- The exact sum; an exact zero of unlike operands is +0, or -0 under RDN (R80). -/
def add (mode : Rnd) : FV → FV → FV
  | .nan, _ | _, .nan => .nan
  | .inf a, .inf b => if a = b then .inf a else .nan
  | .inf a, _ => .inf a
  | _, .inf b => .inf b
  | .fin n1 m1 e1, .fin n2 m2 e2 =>
    let b := min e1 e2
    let s := scaled n1 m1 e1 b + scaled n2 m2 e2 b
    if s = 0 then .fin (if n1 = n2 then n1 else mode = .rdn) 0 0 else .fin (s < 0) s.natAbs b
def sub (mode : Rnd) (a b : FV) : FV := add mode a (neg b)
/-- The exact product. -/
def mul : FV → FV → FV
  | .nan, _ | _, .nan => .nan
  | .inf a, .inf b => .inf (a != b)
  | .inf a, .fin n m _ => if m = 0 then .nan else .inf (a != n)
  | .fin n m _, .inf b => if m = 0 then .nan else .inf (n != b)
  | .fin n1 m1 e1, .fin n2 m2 e2 => .fin (n1 != n2) (m1 * m2) (e1 + e2)
/-- The exact quotient, carried to 128 bits below the leading one with a sticky bit: enough for every rounding of
R78 to decide as it does on the exact real (R209). -/
def div : FV → FV → FV
  | .nan, _ | _, .nan => .nan
  | .inf _, .inf _ => .nan
  | .inf a, .fin n _ _ => .inf (a != n)
  | .fin n _ _, .inf b => .fin (n != b) 0 0
  | .fin n1 m1 e1, .fin n2 m2 e2 =>
    if m2 = 0 then if m1 = 0 then .nan else .inf (n1 != n2)
    else if m1 = 0 then .fin (n1 != n2) 0 0
    else
      let k := 128 + Nat.log2 m2
      let num := m1 * 2 ^ k
      .fin (n1 != n2) (2 * (num / m2) + (if num % m2 = 0 then 0 else 1)) (e1 - e2 - k - 1)
/-- The integer square root, one bit a turn from bit k - 1 down. -/
def isqrtGo (n : Nat) : Nat → Nat → Nat
  | 0, r => r
  | k + 1, r => isqrtGo n k (if (r + 2 ^ k) * (r + 2 ^ k) ≤ n then r + 2 ^ k else r)
def isqrt (n : Nat) : Nat := isqrtGo n (Nat.log2 n / 2 + 1) 0
/-- The exact square root in the same form (R90). -/
def sqrt : FV → FV
  | .nan => .nan
  | .inf n => if n then .nan else .inf false
  | .fin n m e =>
    if m = 0 then .fin n 0 0
    else if n then .nan
    else
      let h : Int := e % 2
      let num := m * 2 ^ (256 + h.toNat)
      let r := isqrt num
      .fin false (2 * r + (if r * r = num then 0 else 1)) ((e - h - 256) / 2 - 1)
/-- Whether a value is NaN. -/
def isNan : FV → Bool
  | .nan => true
  | _ => false
/-- Numeric order of two values that are not NaN: -1, 0 or 1, with -0 equal to +0 (R92). -/
def cmp : FV → FV → Int
  | .nan, _ | _, .nan => 0
  | .inf a, .inf b => if a = b then 0 else if a then -1 else 1
  | .inf a, .fin .. => if a then -1 else 1
  | .fin .., .inf b => if b then 1 else -1
  | .fin n1 m1 e1, .fin n2 m2 e2 =>
    let b := min e1 e2
    let x := scaled n1 m1 e1 b; let y := scaled n2 m2 e2 b
    if x < y then -1 else if x = y then 0 else 1
/-- The sign of a value. -/
def isNeg : FV → Bool
  | .nan => false
  | .inf n => n
  | .fin n _ _ => n
/-- The order of R91 and R96: -0 below +0. -/
def cmpZ (a b : FV) : Int :=
  let c := cmp a b
  if c ≠ 0 then c else if isNeg a = isNeg b then 0 else if isNeg a then -1 else 1
/-- Minimum or maximum of two operands as read (R91); signed for integers. -/
def minMax (t : Ty) (big : Bool) (x y : Nat) : Nat :=
  let a := read t x; let b := read t y
  if isNan a then if isNan b then canonNan t else y
  else if isNan b then x
  else if (cmpZ a b < 0) = big then y else x
/-- The comparisons of VCMP and R92: 0 EQ, 1 NE, 2 LT, 3 LE, 4 GT, 5 GE, 6 UN. -/
def compare (t : Ty) (op x y : Nat) : Bool :=
  let a := read t x; let b := read t y
  if isNan a || isNan b then op == 1 || op == 6
  else
    let c := cmp a b
    match op with
    | 0 => c == 0 | 1 => c != 0 | 2 => decide (c < 0) | 3 => decide (c ≤ 0) | 4 => decide (0 < c) | 5 => decide (0 ≤ c)
    | _ => false

/-- One of +, -, *, and the fused forms, rounded once (R90). -/
def arith (c : RC) (t : Ty) (f : Rnd → FV → FV → FV → FV) (x y z : Nat) : Nat :=
  if isFp t then
    round c t (f c.mode (read t (flushIn c.ftz t x)) (read t (flushIn c.ftz t y)) (read t (flushIn c.ftz t z)))
  else match f .rne (read t x) (read t y) (read t z) with
    | .fin n m e => wrapOrClamp c.sat t.bits (scaled n m e 0)
    | _ => 0

/-- Absolute value and negation (R93): the sign bit of an FP type, R85 on an integer type. -/
def absNeg (t : Ty) (isNegate sat : Bool) (x : Nat) : Nat :=
  if isFp t then
    if isNegate then (x + 2 ^ (t.bits - 1)) % 2 ^ t.bits else x % 2 ^ (t.bits - 1)
  else
    let v := sint t.bits x
    wrapOrClamp sat t.bits (if isNegate then -v else (v.natAbs : Int))

/-- NITrunc of R77: p planes of a w-bit nested integer. -/
def niTrunc (a p w : Nat) (mid : Bool) : Int :=
  let v := sint w (a % 2 ^ w / 2 ^ (w - p) * 2 ^ (w - p))
  if mid && decide (p < w) then v + (2 ^ (w - 1 - p) : Nat) else v

/-- A conversion of one element between two formats (R90, R221, R290). -/
def convert (c : RC) (dst src : Ty) (x : Nat) : Nat :=
  if isFp src then round c dst (read src (flushIn c.ftz src x))
  else if isFp dst then round c dst (read src x)
  else wrapOrClamp c.sat dst.bits (sint src.bits x)

/-! ## Integer operations (R87, R122) -/
def divU (a b : Nat) (w : Nat) : Nat := if b = 0 then 2 ^ w - 1 else a / b
def remU (a b : Nat) : Nat := if b = 0 then a else a % b
def divS (a b : Int) : Int := if b = 0 then -1 else Int.tdiv a b
def remS (a b : Int) : Int := if b = 0 then a else Int.tmod a b

/-! ## Reductions (R94 to R96) -/

/-- One level of the tree: lane i with lane i + n/2. Absent lanes are none. -/
def treeLevel {α : Type} (f : α → α → α) (l : List (Option α)) : List (Option α) :=
  let h := l.length / 2
  List.zipWith (fun a b => match a, b with
    | some x, some y => some (f x y)
    | some x, none => some x
    | none, y => y) (l.take h) (l.drop h)
/-- The tree of R94 over 2^k lanes. -/
def tree {α : Type} (f : α → α → α) : Nat → List (Option α) → Option α
  | 0, l => (l.head?).join
  | k + 1, l => tree f k (treeLevel f l)
/-- The winner of two (value, index) pairs (R96). A NaN that wins is handed on as its own lane holds it, payload and sign included
(DESIGN CHOICE, log 29: R96 picks a lane, and R73 speaks of arithmetic results). -/
def argPick (t : Ty) (a b : Nat × Nat) : Nat × Nat :=
  let x := read t a.1; let y := read t b.1
  let lowIdx := if a.2 ≤ b.2 then a else b
  if isNan x && isNan y then lowIdx
  else if isNan x then a
  else if isNan y then b
  else
    let c := cmpZ x y
    if c = 0 then lowIdx else if 0 < c then a else b
/-- The smallest and the largest value of an integer type, the canonical NaN of an FP type (R95). -/
def emptyMax (t : Ty) : Nat := if isFp t then canonNan t else 2 ^ (t.bits - 1)
def emptyMin (t : Ty) : Nat := if isFp t then canonNan t else 2 ^ (t.bits - 1) - 1

/-! ## Matrix arithmetic (R103, R104) -/

/-- IaccAdd: the new element and whether it clamped. -/
def iaccAdd (acc : Nat) (s : Int) (sat : Bool) : Nat × Bool :=
  let t := sint 32 acc + s
  if !sat then (wrap 32 t, false)
  else if t > 2 ^ 31 - 1 then (2 ^ 31 - 1, true)
  else if t < -(2 ^ 31 : Nat) then (2 ^ 31, true)
  else (wrap 32 t, false)
/-- FaccAdd. -/
def faccAdd (acc : Nat) (s : Int) (ea eb : Nat) (mode : Rnd) : Nat :=
  if ea = 255 ∨ eb = 255 then canonNan .f32
  else
    let term : FV := .fin (s < 0) s.natAbs ((ea : Int) + eb - 254)
    round { mode := mode } .f32 (add mode (read .f32 acc) term)

end Sys2Proof.Num
end

