-- ==== Sys2Proof/Config.lean ====
section
/-! DEFINITION. What a B2 fixes, and the values the spec leaves open. A constant declared `opaque` has no body:
nothing proves a value of it. -/
namespace Sys2Proof.Config

/-- A free value of `w` bits (R2): the `n`-th that the machine draws. Log 7. -/
opaque freeBits (w n : Nat) : BitVec w
/-- A free choice (R2), for instance among overlapping region entries (R158). Log 7, 19. -/
opaque freeChoice (n : Nat) : Nat
/-- The set of a slice that a line falls into; the spec gives the home channel (R151), not the set. Log 13. -/
opaque sliceSet (line : Nat) : Nat
/-- The XMSS public key that an image holds, what its signature signs, and the signature; the spec does not say where they lie (R515).
Log 22. -/
opaque imageKey (image : List Byte) : List Byte
opaque imageBody (image : List Byte) : List Byte
opaque imageSignature (image : List Byte) : List Byte
/-- The digest of the public key that is fused at manufacture (R515). Log 22. -/
opaque fusedKey : BitVec 512
/-- The security version an image carries (R515). Log 22. -/
opaque imageVersion (image : List Byte) : Nat
/-- The device's XMSS key: its secret seed, the key of its randomness, and its public seed (R517). Log 22. -/
opaque signSecret : BitVec 256
opaque signPrf : BitVec 256
opaque signSeed : BitVec 256
/-- The device serial of the attestation report (R517). Log 22. -/
opaque serial : BitVec 128
/-- The revision of the identity word (R507). Log 22. -/
opaque revision : BitVec 8

/-- Whether a site was fused as a spare (R13). Log 26. -/
opaque fusedSpare (site : Nat) : Bool
/-- The repair rows of a pseudo-channel (R519). Log 26. -/
opaque repairRows : Nat
/-- Whether a route table that firmware loads lists a package (R425). Log 23. -/
opaque routeListed (table own pkg : BitVec 8) : Bool
/-- The port by which that table reaches a package (R425). Log 23. -/
opaque routePort (table own pkg : BitVec 8) : BitVec 3

/-- Where byte i of a bank of a vault lies in it; the spec gives no such layout (R518). Log 41. -/
opaque vaultPlace (bank i : Nat) : Nat
/-- Every spare's state as the attestation report's digest takes it: the spare sites that are left, and the units that gave way (R517).
Log 22. -/
opaque spareBytes (sites : List Nat) (gone : List (List Nat)) : List (BitVec 8)

/-- The lines that refresh and the device's firmware transfer in a controller period (R492, R498). Log 9. -/
opaque upkeepLines (period : Nat) : Nat

/-- Installed HBM in bytes: 8 stacks of 48 GiB (R11, R151). -/
def hbmBytes : Nat := 384 * 2 ^ 30
/-- One vault (R15). -/
def vaultBytes : Nat := 16 * 2 ^ 20
/-- Entries of the store buffer (R178). -/
def storeBuffer : Nat := 32
/-- Entries of a copy queue (R282). -/
def queueDepth : Nat := 32
/-- Entries of the branch queue (R139). -/
def bqDepth : Nat := 64
/-- Trackers per plane and site (R328). -/
def trackers : Nat := 128
/-- The admission cap per die and plane (R325). -/
def netCap : Nat := 2048
/-- Bytes of a save-area slot (R467). -/
def slotBytes : Nat := 0x62000
/-- Offset of the trap frame in a slot (R468). -/
def frameOff : Nat := 0x61000

end Sys2Proof.Config
end

