-- ==== Sys2Proof/Machine/State.lean ====
section
/-! DEFINITION. The state of a B2: plain data, holding every piece of state the spec names (INVENTORY.md, State). -/
namespace Sys2Proof.Machine

/-- What stops the machine for good. -/
inductive Fault where
  /-- Raised by BAR2_ACCESS when the aperture plus the offset lies at or beyond the installed HBM, an address the
  spec says does not exist (R151, R506). Safe: the model stops where the spec gives no effect. -/
  | beyondHbm (address : Nat)
  deriving DecidableEq, Repr

/-- What the model has no meaning for. -/
inductive Refusal where
  /-- Raised by an arm of `exec` that has no meaning yet. Safe: nothing is claimed of it. -/
  | notModelled (mnemonic : String)
  deriving DecidableEq, Repr

/-! ## The strand -/

/-- The four states of a token (R342). -/
inductive TokSt where | idle | pending | done | faulted
  deriving DecidableEq, Repr
/-- A token with the cause that a faulted command recorded (R342). -/
structure Token where
  st    : TokSt
  cause : BitVec 8
  deriving DecidableEq, Repr
/-- A loop counter with its end address (R118). -/
structure LoopCtr where
  count  : BitVec 32
  active : Bool
  len    : BitVec 11
  end_   : BitVec 56
  deriving DecidableEq, Repr
/-- The roles of R108; `none` is the strand that no layout names (R116). -/
inductive Role where | l | c | e | none
  deriving DecidableEq, Repr
/-- The arrival record of a strand (R349). -/
structure Arrival where
  valid    : Bool
  home     : Fin 256
  bar      : Fin 48
  released : Bool
  error    : Bool
  sync     : Bool
  deriving DecidableEq, Repr
/-- What a strand's next instruction waits on (R111, R356). `drain` holds a QDRAIN for the commands, or a
release for the stores, numbered below `upTo` (R187, R305); `other` is a stall that no CSR shows. -/
inductive Wait where
  | none
  | token (t : Fin 32)
  | sem (n : Fin 64) (count : Nat)
  | bar (home : Fin 256) (b : Fin 48)
  | wfe
  | drain (upTo : Nat)
  | other
  deriving DecidableEq, Repr
/-- The private state of a strand (R106). `fence` bounds the numbers of the stores that a fence waits for (R171). -/
structure Strand where
  pc      : W64
  s       : Vector W64 64
  v       : Vector VReg 32
  k       : Vector KReg 8
  t       : Vector Token 32
  lc      : Vector LoopCtr 2
  role    : Role
  smode   : Bool
  age     : BitVec 10
  run     : Bool
  ended   : Bool
  named   : Bool
  stopped : Bool
  wait    : Wait
  latch   : BitVec 6
  arr     : Arrival
  fence   : Nat
  fbuf    : List (W64 × Parcel)
  rmode   : BitVec 3
  pop     : BitVec 8
  push    : BitVec 8
  rts     : W64
  ringsel : BitVec 8
  barsel  : BitVec 6
  rngix   : W64
  rngstep : W64
  rngq    : W64
  deriving DecidableEq, Repr

/-! ## The matrix engine -/

/-- The tag of a bank (R238), with where B lay when the tile was named (R239) and the marks of R273 and SWAP. -/
structure Tag where
  valid    : Bool
  ctx      : BitVec 12
  tensor   : BitVec 8
  kb       : BitVec 32
  group    : BitVec 32
  base     : W64
  rstr     : Nat
  ty       : Ty
  rows     : Nat
  cols     : Nat
  unloaded : Bool
  victim   : Bool
  deriving DecidableEq, Repr
/-- What a bank of the macros holds: 256 K rows of 1,024 bytes, with its poisoned 32-byte blocks (R237, R249). -/
structure BankData where
  rows   : Vector (BitVec 8192) 256
  poison : List Nat
  deriving DecidableEq, Repr
/-- A loop-nest configuration with its descriptor snapshots, as MCFGR reads it (R268): 448 bytes. -/
abbrev NestSet := BitVec 3584
/-- The three states of the shadow set (R253). -/
inductive ShadowSt where | empty | loaded | pending
  deriving DecidableEq, Repr
/-- The engine states of MSTAT word 0 (R273). -/
inductive EngSt where | idle | running | fault
  deriving DecidableEq, Repr
/-- What the running nest does next (R254). -/
inductive Phase where | pass | drain
  deriving DecidableEq, Repr
/-- An MGO that waits or runs (R253): its strand, its token, the consumed tokens that are still pending, and whether
one of them completed as FAULTED (R295). Its requests in q3 stand there under `id` (R256, log 9). -/
structure QueuedMgo where
  id     : Nat
  strand : Fin 4
  td     : Fin 32
  used   : List (Fin 32)
  bad    : Bool
  task   : W64
  deriving DecidableEq, Repr
/-- A bank load on its way (R269), a command of q3 under its number (R256). -/
structure PendLoad where
  id     : Nat
  bank   : Fin 4
  tag    : Tag
  strand : Fin 4
  td     : Fin 32
  used   : List (Fin 32)
  bad    : Bool
  deriving DecidableEq, Repr
/-- The matrix engine (R246, R253, R273). `copied` is the set that an accepted MGO starts with once its consumed tokens are
complete; it becomes the active set then (R253, R270, R295). -/
structure Matrix where
  acc      : Vector (Vector (BitVec 32) 1024) 32
  accPois  : Vector (BitVec 1024) 32
  mflag    : BitVec 32
  guard    : Vector (BitVec 26) 2048
  shadow   : NestSet
  active   : NestSet
  copied   : NestSet
  shadowSt : ShadowSt
  eng      : EngSt
  phase    : Phase
  idx      : Vector Nat 6
  row      : BitVec 8
  plane    : BitVec 4
  sweep    : BitVec 4
  passes   : BitVec 32
  mstat3   : W64
  mstat4   : W64
  queued   : Option QueuedMgo
  running  : Option QueuedMgo
  checkN   : BitVec 16
  checkC   : BitVec 16
  checkNow : Bool
  tags     : Vector Tag 4
  lru      : List (Fin 4)
  loads    : List PendLoad
  deriving DecidableEq, Repr

/-! ## Synchronisation and the copy engine -/

/-- A waiter on a semaphore (R345): a strand, or a copy queue with the fabric cycle in which it began to wait. The list that holds
them has the oldest first. -/
inductive Waiter where
  | strand (n : Fin 4) (sem : Fin 64) (need parcels : Nat)
  | queue (q : Fin 4) (sem : Fin 64) (need : Nat) (since : W64)
  deriving DecidableEq, Repr
/-- A named barrier at its home (R348). -/
structure Bar where
  cores    : BitVec 256
  strands  : BitVec 4
  phase    : Nat
  arrCores : BitVec 256
  arrStr   : BitVec 4
  deriving DecidableEq, Repr
/-- A parameter block of 128 bytes (R284). -/
abbrev Block := BitVec 1024
/-- The kinds of queue command. -/
inductive CmdKind where
  | cpy | gath | scat | fill | qsemw | xpush | xpull | xred (op : Fin 4) | halo
  deriving DecidableEq, Repr
/-- A copy command in a queue (R282, R288): its parameter block, the consumed tokens still pending, and how far it has
come. `far` is the far package, `extra` the strips of a HALO that are still to be sent (package and block), `acks` the
far accesses not yet acknowledged, `signalled` whether its far increment has been sent (R428), `faultAt` the element of the
recorded fault in nest order (R294), `down` the packages whose link has failed while it ran (R437). `ring` names the ring of a push with its slots, and `given` those of the slots, by their place
in that list, that are filled (R299). -/
structure Cmd where
  id      : Nat
  kind    : CmdKind
  block   : Block
  far     : BitVec 8
  sem     : Fin 64
  count   : Nat
  td      : Fin 32
  used    : List (Fin 32)
  strand  : Fin 4
  task    : W64
  mts     : W64
  started : Bool
  done    : Nat
  total   : Nat
  fault   : Option (BitVec 8 × BitVec 2 × W64)
  faultAt : Nat
  signalled : Bool
  ring    : Option (BitVec 8 × List Nat)
  given   : List Nat
  extra   : List (BitVec 8 × Block)
  down    : List (BitVec 8)
  acks    : Nat
  deriving DecidableEq, Repr
/-- A copy queue with its fault register and counters (R282, R306, R311). `flush` holds while a QFLUSH waits (R305); `state` is
the STATE of R307 that began at the fabric cycle `since`. -/
structure Queue where
  cmds      : List Cmd
  qf        : W64
  done      : BitVec 32
  lastCause : BitVec 8
  faults    : BitVec 8
  flush     : Bool
  state     : BitVec 4
  since     : W64
  deriving DecidableEq, Repr

/-! ## Tasks -/

/-- A held host write or publication of the commit queue (R176, R177). -/
inductive HostOp where
  | write (addr : W64) (data : List Byte)
  | publ (window : BitVec 8)
  deriving DecidableEq, Repr
/-- How a task that no longer runs ends (R379, R394, R448). -/
inductive Ending where
  | rerun
  | abort (cause : BitVec 8) (second : BitVec 8) (forced : Bool) (code : BitVec 16)
  deriving DecidableEq, Repr
/-- The verdict of Chaconne for an instance (R382, R395). -/
structure Verdict where
  reason : BitVec 4
  valid  : Bool
  astep  : BitVec 10
  m      : BitVec 32
  deriving DecidableEq, Repr
/-- A task on a core (R367, R376, R391). `spill` lists the lines of its version that lie in the overflow area (R377). -/
structure Task where
  node    : BitVec 12
  step    : BitVec 10
  inst    : Nat
  id      : W64
  mts     : W64
  prio    : BitVec 8
  retry   : Nat
  hint    : BitVec 2
  gapply  : Bool
  nr      : Bool
  escaped : Bool
  roles   : BitVec 8
  budget  : BitVec 32
  usedCyc : BitVec 32
  code    : W64
  desc    : BitVec 512
  rowOff  : Int
  colOff  : Int
  spawn   : List (BitVec 12 × BitVec 16 × BitVec 16)
  started : BitVec 4
  marks   : List (BitVec 8 × BitVec 32)
  drop    : Bool
  hostQ   : List HostOp
  version : List Host.Cell
  spill   : List Nat
  verPois : List (Nat × Bool)
  overs   : List (BitVec 8 × BitVec 512)
  descs   : List (BitVec 8 × BitVec 512)
  verdict : Verdict
  ending  : Option Ending
  deriving DecidableEq, Repr
/-- A trap or event that waits to enter the handler (R445, R451, R452). -/
structure Held where
  cause  : BitVec 8
  info   : W64
  strand : Fin 4
  pc     : W64
  brk    : Bool
  deriving DecidableEq, Repr
/-- The trap registers of a core (R475 to R477). -/
structure TrapRegs where
  tcause  : W64
  tinfo   : W64
  tpc     : W64
  ttask   : W64
  tframe  : W64
  tgrant  : BitVec 24
  handler : Bool
  held    : Option Held
  entry   : Option Held
  pc0     : W64
  run0    : Bool
  ended0  : Bool
  deriving DecidableEq, Repr

/-- An XSIG whose far increment is on its way: the access's number, the strand, its token and its task (R436). -/
structure Sig where
  id     : Nat
  strand : Fin 4
  td     : Fin 32
  task   : W64
  deriving DecidableEq, Repr
/-- A release that has reached the core and releases records 4 core cycles later (R349). With `err` it releases the
record of one strand, the one that was rejected (R350). -/
structure Due where
  home : Fin 256
  bar  : Fin 48
  err  : Option (Fin 4)
  deriving DecidableEq, Repr
/-- What the matrix engine still runs for a task whose strands have all ended, while the next task is active (R376, R390): its nest and
its bank loads, with the strands that hold their tokens. -/
structure LateNest where
  task    : W64
  strands : Vector Strand 4
  mat     : Matrix
  deriving DecidableEq, Repr
/-- The state of a context on a core: what the save-area slot holds (R468). `tail` holds the tasks whose strands have all
ended and whose engine commands have not, so that they commit while the next task runs (R376, R390), and `nests` what the matrix engine
runs for them, the oldest first. `late` counts the SEMACQs that were
served outside S mode since the last core cycle: each counts as an issue of that cycle (R345, R490). -/
structure Bank where
  loaded  : Bool
  ctx     : BitVec 12
  task    : Option Task
  tail    : List Task
  strands : Vector Strand 4
  bq      : List Bool
  tr      : Vector (Vector VReg 128) 2
  mat     : Matrix
  nests   : List LateNest
  sems    : Vector (BitVec 32) 64
  semov   : W64
  waiters : List Waiter
  bars    : Vector Bar 48
  barerr  : BitVec 48
  due     : List Due
  sigs    : List Sig
  bgear   : W64
  netctl  : BitVec 3
  seed    : BitVec 256
  queues  : Vector Queue 4
  trap    : TrapRegs
  evpend  : BitVec 3
  evinfo  : Vector W64 3
  acc     : BitVec 10
  pos     : BitVec 10
  blocked : BitVec 32
  late    : Nat
  gear    : Gear
  deriving DecidableEq, Repr

/-! ## The core -/

/-- A TLB entry (R150): context, level of the leaf, virtual page base, physical page base, W and X. -/
structure TlbEnt where
  ctx  : BitVec 12
  vbase : Nat
  size : Nat
  pbase : Nat
  w : Bool
  x : Bool
  deriving DecidableEq, Repr
/-- A line of the instruction cache (R156), by context and virtual line address. -/
structure ILine where
  ctx  : BitVec 12
  line : Nat
  data : BitVec 1024
  deriving DecidableEq, Repr
/-- Why a gear transition began (R481, R485). -/
inductive TransWhy where | gear | gapply | swap | drop | ret | leave
  deriving DecidableEq, Repr
/-- The shadow bank (R376, R464, R465): a filled one may hold the first task that the pool has placed there for it. -/
inductive Shadow where
  | free
  | task (t : Task)
  | filled (b : Bank) (first : Option Task)
  | unspilled (b : Bank)
  deriving DecidableEq, Repr
/-- A logical core (R15, R24). While `trans` holds a gear transition, the clock is stopped until the fabric edge `restart`
(R482). `swapCtx` is the context that a due swap brings in, `swapFrom` its entry of the time-slice list with the DCLK value of the
expiry (R466), and `stallCtx` the one whose fill stopped (R464, R471); a core that
is `moving` leaves its site for a spare (R14). `lastQ` is the copy queue that the engine last served (R283), `cycled` the fabric
cycle in which the core had its last cycle (R22), and `clean` holds the lines of the data cache that are not dirty (R153). -/
structure Core where
  part      : Option (Fin 16)
  leaving   : Option (Option (Fin 16))
  moving    : Bool
  vaultPart : Option (Fin 16)
  lent      : Bool
  vaultGone : Bool
  retired   : Bool
  ageLimit  : BitVec 10
  gear      : Gear
  gearCount : BitVec 32
  dropped   : Bool
  trans     : Option (Gear × TransWhy)
  restart   : W64
  barCycles : Nat
  lastQ     : Fin 4
  cycles    : W64
  cycled    : Option W64
  icache    : List ILine
  dirty     : List Host.Cell
  clean     : List Nat
  tlb       : List TlbEnt
  pbc       : List (BitVec 12 × W64 × BitVec 1024)
  banks     : Vector BankData 4
  bank      : Bank
  shadow    : Shadow
  swapDue   : Bool
  swapCtx   : BitVec 12
  swapFrom  : Option (Nat × Nat)
  stall     : Bool
  stallDir  : Bool
  stallAddr : W64
  stallCtx  : BitVec 12
  perr      : BitVec 16
  level     : BitVec 3
  netinj    : W64
  netdefl   : W64
  draw      : Nat
  lastDraw  : BitVec 32
  temp      : BitVec 8
  hold      : Bool
  deriving DecidableEq, Repr

/-! ## Contexts, launches and partitions -/

/-- A slot of a ring that is reserved or filled: its number, and the timestamp its pop returns (R229, R298). -/
structure RSlot where
  ix     : Nat
  filled : Bool
  ts     : W64
  deriving DecidableEq, Repr
/-- A ring: the next slot to reserve and the reserved slots in order. FREE, RSV and FILLED follow from them (R298). -/
structure Ring where
  n      : BitVec 8
  next   : Nat
  slots  : List RSlot
  deriving DecidableEq, Repr
/-- A bank of step loop registers (R369, R371): the step and its schedule row of 80 bytes. -/
structure StepBank where
  step : Nat
  row  : BitVec 640
  deriving DecidableEq, Repr
/-- An instance of a node (R367). Once `ready` it waits for a free entry of the pool: Chaconne has decided, or its task came
back from a core (R373, R382). -/
structure Inst where
  node  : BitVec 12
  step  : BitVec 10
  inst  : Nat
  rowOff : Int
  colOff : Int
  parent : Option (BitVec 12 × Nat)
  retry : Nat
  verdict : Verdict
  ready : Bool
  deriving DecidableEq, Repr
/-- A launch that runs (R358, R365 to R370): its eligible instances, those in the pool or on a core, those of the steps
in flight that have committed or were skipped, those of them whose spawned instances are not all complete, and the
STATUS and node of a failure. -/
structure Launch where
  rec_   : BitVec 512
  header : BitVec 512
  elig   : List Inst
  live   : List Inst
  done   : List (BitVec 12 × BitVec 10 × Nat)
  open_  : List Inst
  spawned : Nat
  stepsDone : Nat
  failed : Option (BitVec 8 × BitVec 12)
  deriving DecidableEq, Repr
/-- A Chaconne entry (R381), with the keys of its anchor slot, as first key and length, and whether a task has written
there. -/
structure ChEntry where
  index : Nat
  valid : Bool
  key   : BitVec 36
  astep : BitVec 10
  taint : Bool
  area  : List (Nat × Nat)
  deriving DecidableEq, Repr
/-- A context (R26) with its CSRs of context scope. -/
structure Ctx where
  id      : BitVec 12
  pgroot  : W64
  rtab    : W64
  tdtab   : W64
  ringtab : W64
  vovf    : W64
  tmarks  : W64
  zkpeer  : W64
  tvec    : W64
  tctl    : BitVec 8
  tscratch : W64
  evmask  : BitVec 3
  actctl  : W64
  actcap  : W64
  actw    : Vector (BitVec 4) 16
  telring : W64
  telst   : W64
  netctl  : BitVec 3
  bgear   : W64
  saveBase : W64
  saveSize : W64
  chent   : W64
  gear    : Gear
  ectx    : Vector W64 4
  rings   : List Ring
  banks   : Vector (Option StepBank) 2
  launches : BitVec 16
  launch  : Option Launch
  chac    : List ChEntry
  saved   : List (Fin 256 × Bank)
  deriving DecidableEq, Repr
/-- An entry of the ready pool (R373). -/
structure PoolEnt where
  ctx  : BitVec 12
  prio : BitVec 8
  inst : Inst
  deriving DecidableEq, Repr
/-- A partition (R26, R463, R511): `slice` is the current entry of its time-slice list and `ends` the DCLK value at which
that slice ends. -/
structure Part where
  stopped  : Bool
  waiting  : List (BitVec 512)
  pool     : List PoolEnt
  slice    : Nat
  ends     : Nat
  busy     : Bool
  result   : BitVec 8
  versions : List (BitVec 8 × W64)
  deriving DecidableEq, Repr

/-! ## The fabric and the device -/

/-- Where a message stands (R325, R321, R328). -/
inductive MsgSt where | queued | admitted | delivered | performed
  deriving DecidableEq, Repr
/-- A message of Farandole (R316 to R318), with what its receiver needs. `kind` is KIND of R318, `tag` the A-plane tracker that its
request holds at the requester, `qtrk` the Q-plane tracker that it holds at its destination (R328), and `pois` the numbers of the
32-byte parts of its payload that are poisoned (R317). `form` is SEL and NS of a compressed line (R336). An `echo` is the traffic of an
access that was performed in the step in which it issued: its flits cross the fabric, and it changes nothing where it arrives (log 11). -/
structure Msg where
  id     : Nat
  kind   : BitVec 5
  src    : Fin 256
  dst    : Fin 256
  strand : Option (Fin 4)
  ctx    : BitVec 12
  task   : W64
  addr   : Nat
  data   : List Byte
  rel    : Bool
  scope  : Scope
  ref    : Nat
  count  : Nat
  err    : Bool
  st     : MsgSt
  tag    : Option (Fin 128)
  qtrk   : Option (Fin 128)
  pois   : List Nat
  rh     : BitVec 2
  form   : Nat × Nat
  echo   : Bool
  deriving DecidableEq, Repr
/-- A flit in the mesh: the router it arrives at, its header and payload (R317). -/
structure Flit where
  plane : Plane
  at_   : Fin 272
  msg   : Nat
  hdr   : BitVec 128
  pay   : BitVec 512
  placed : Bool
  waitC : Nat
  deriving DecidableEq, Repr
/-- The mesh and its counters (R323, R327, R331, R340). `intake` holds the flits that wait for a Q-plane tracker (R328), and
`turned` the planes whose routers have had this fabric cycle (R316). -/
structure Fabric where
  net    : List Msg
  flits  : List Flit
  intake : List Flit
  turned : List Plane
  relief : List (Plane × Fin 272)
  dead   : List (Plane × Fin 272 × Port)
  replays : List (Plane × Fin 272 × Port × Nat)
  table  : List (Plane × Fin 272 × Port)
  netcfg : W64
  nextMsg : Nat
  deriving DecidableEq, Repr
/-- The power controller (R493 to R498). `idleDraw` is the part of the system account's draw that core cycles made, `ctxDraw` what
was charged to a context at no core, and `periods` counts the controller periods that have ended. -/
structure Power where
  cap      : Option (Nat × Nat)
  pendCap  : Option (Nat × Nat)
  fallback : Nat
  seq      : W64
  lowWord  : W64
  thermal  : Nat
  thermalStop : Bool
  sysAcct  : W64
  sysDraw  : Nat
  lastSys  : Nat
  idleDraw : Nat
  ctxDraw  : Nat
  periods  : Nat
  deriving DecidableEq, Repr
/-- What Fethen has let the device do (R515, R516). -/
inductive Boot where | held | running | recovery
  deriving DecidableEq, Repr
/-- Fethen (R515 to R517). -/
structure Fethen where
  boot    : Boot
  flash   : List Byte
  m0      : BitVec 512
  minVer  : Nat
  sigIdx  : Nat
  committed : Bool
  busy    : Bool
  cmd     : BitVec 8
  result  : BitVec 8
  deriving DecidableEq, Repr
/-- An access on its way to another package: its command, the package, the element that it serves, and the access
(R428, log 23). -/
structure FarAcc where
  cmd  : Nat
  pkg  : BitVec 8
  elem : Nat
  acc  : Remote
  deriving DecidableEq, Repr
/-- The multi-package registers (R425, R439, R441), and the accesses on their way to other packages. -/
structure Zikin where
  id    : BitVec 8
  count : BitVec 8
  up    : BitVec 8
  cmp   : BitVec 8
  skew  : BitVec 16
  routes : List (BitVec 8 × Fin 8)
  out    : List FarAcc
  deriving DecidableEq, Repr
/-- The errors of one unit: the times in ns of DCLK, newest first (R519). -/
structure ErrLog where
  u     : ErrUnit
  times : List Nat
  spared : Bool
  deriving DecidableEq, Repr
/-- The site of each logical id (R13, R507). -/
structure SiteMap where
  site    : Vector (Fin 272) 256
  spare   : BitVec 256
  retired : BitVec 256
  spares  : List (Fin 272)
  deriving DecidableEq, Repr
/-- A line of a memory-side slice with its hint (R152): `form` is the stored form that it came with, SEL and NS, until a write makes
it raw (R333), and `by_` the context of the write that last dirtied it, where there is one, or none for a line that is not dirty (R498). -/
structure SLine where
  line : Nat
  rh   : BitVec 2
  form : Option (Nat × Nat)
  by_  : Option (Option (BitVec 12))
  deriving DecidableEq, Repr
/-- Device-wide state. `wraps` counts how often the 64-bit fabric count has wrapped (R488). `dclk` is what corrections have added to DCLK, `slew` the ns still to be corrected (R488). `slices` holds
the lines of the slices, the next victims first; `forms` the coding in which a line was last written to HBM: selector and sectors
(R333). `errT` and `errW` hold T and W of each unit kind (R519). `hostRd` is the answer to the host's last read, `remoteRd` the
answer to the last read from another package, with whether a block of it is poisoned and whether a compressed line of it does not
decode (R294, R426, R430). `cmds` holds the partition commands that wait for a RESIZE to end, in the order in which they were written (R511). `hostRun` is the first key and the length of the host's latest write through BAR2, which may come in
pieces of 8 bytes (R540). -/
structure Dev where
  fabricCycles : W64
  wraps    : Nat
  dclk     : W64
  slew     : Int
  fab      : Fabric
  power    : Power
  fethen   : Fethen
  zikin    : Zikin
  errors   : List ErrLog
  errT     : Vector Nat 6
  errW     : Vector Nat 6
  deadChan : List (Nat × Bool)
  sites    : SiteMap
  devBusy  : Bool
  devResult : BitVec 8
  resizing : Option (Fin 256)
  cmds     : List (Fin 16 × W64)
  msix     : List (Fin 17 × Fin 4)
  slices   : List SLine
  forms    : List (Nat × Nat × Nat)
  hostRd   : W64
  remoteRd : List Byte
  remotePois : Bool
  remoteBad : Bool
  hostRun  : Nat × Nat
  deriving DecidableEq, Repr

/-- Memory: cells in canonical form (strictly rising addresses, no zero byte), the poisoned 32-byte blocks, and
the ranges whose bytes are undefined (R2). The key of an address is laid out in log 5. -/
structure Mem where
  cells  : List Host.Cell
  poison : List Nat
  undef  : List (Nat × Nat × Nat)
  deriving DecidableEq, Repr

/-- What the agenda names next (log 2). `hostRead` is a host read of 8 bytes of BAR0, and with `errorRule` firmware
sets T and W of a unit kind (R519): the opcode table has no row for them. -/
inductive Move where
  | event (i : Instr)
  | cycle (c : Fin 256)
  | fillI (c : Fin 256) (va : W64)
  | fetch (c : Fin 256) (n : Fin 4) (va : W64)
  | evictI (c : Fin 256) (line : Nat)
  | evictD (c : Fin 256) (line : Nat)
  | evictT (c : Fin 256) (vbase : Nat)
  | hostRead (fn : Fin 17) (off : BitVec 26)
  | errorRule (kind : Fin 6) (t : BitVec 8) (w : BitVec 16)
  | idle (n : Nat)
  deriving DecidableEq, Repr

/-- The machine. -/
structure State where
  mem     : Mem
  cores   : Vector Core 256
  ctxs    : List Ctx
  parts   : Vector Part 16
  dev     : Dev
  cur     : Fin 256
  curS    : Fin 4
  agenda  : List Move
  turn    : Nat
  freeCtr : Nat
  deriving DecidableEq, Repr

/-! ## Reset -/

def Token.idle : Token := ⟨.idle, 0⟩
def LoopCtr.off : LoopCtr := ⟨0, false, 0, 0⟩
def Arrival.none : Arrival := ⟨false, 0, 0, false, false, false⟩
/-- A strand as R107 starts it, at no address and in no role. -/
def Strand.clear : Strand where
  pc := 0
  s := Vector.replicate 64 0
  v := Vector.replicate 32 0
  k := Vector.replicate 8 0
  t := Vector.replicate 32 Token.idle
  lc := Vector.replicate 2 LoopCtr.off
  role := .none
  smode := false
  age := 0
  run := false
  ended := false
  named := false
  stopped := false
  wait := .none
  latch := 0
  arr := Arrival.none
  fence := 0
  fbuf := []
  rmode := 0
  pop := 0
  push := 0
  rts := 0
  ringsel := 0
  barsel := 0
  rngix := 0
  rngstep := 0
  rngq := 0
def Tag.none : Tag := ⟨false, 0, 0, 0, 0, 0, 0, .i8, 0, 0, false, false⟩
/-- The matrix engine at task start (R246), with no bank tag. -/
def Matrix.clear : Matrix where
  acc := Vector.replicate 32 (Vector.replicate 1024 0)
  accPois := Vector.replicate 32 0
  mflag := 0
  guard := Vector.replicate 2048 0
  shadow := 0
  active := 0
  copied := 0
  shadowSt := .empty
  eng := .idle
  phase := .pass
  idx := Vector.replicate 6 0
  row := 0
  plane := 0
  sweep := 0
  passes := 0
  mstat3 := 0
  mstat4 := 0
  queued := .none
  running := .none
  checkN := 0
  checkC := 0
  checkNow := false
  tags := Vector.replicate 4 Tag.none
  lru := [0, 1, 2, 3]
  loads := []
def Bar.off : Bar := ⟨0, 0, 0, 0, 0⟩
def Queue.empty : Queue := ⟨[], 0, 0, 0, 0, false, 0, 0⟩
def Verdict.none : Verdict := ⟨1, false, 0, 0x7FC00000⟩
def TrapRegs.clear : TrapRegs := ⟨0, 0, 0, 0, 0, 0, false, .none, .none, 0, false, false⟩
/-- The state of a context that has just been created (R344), on a core that has run nothing for it; strid.ROLE resets
to 0 (R116). -/
def Bank.clear : Bank where
  loaded := false
  ctx := 0
  task := .none
  tail := []
  strands := Vector.replicate 4 { Strand.clear with role := .l }
  bq := []
  tr := Vector.replicate 2 (Vector.replicate 128 0)
  mat := Matrix.clear
  nests := []
  sems := Vector.replicate 64 0
  semov := 0
  waiters := []
  bars := Vector.replicate 48 Bar.off
  barerr := 0
  due := []
  sigs := []
  bgear := 0
  netctl := 0
  seed := 0
  queues := Vector.replicate 4 Queue.empty
  trap := TrapRegs.clear
  evpend := 0
  evinfo := Vector.replicate 3 0
  acc := 0
  pos := 0
  blocked := 0
  late := 0
  gear := .n
/-- A core as it leaves reset: gear N, outside every partition (R24). -/
def Core.reset : Core where
  part := .none
  leaving := .none
  moving := false
  vaultPart := .none
  lent := false
  vaultGone := false
  retired := false
  ageLimit := 64
  gear := .n
  gearCount := 0
  dropped := false
  trans := .none
  restart := 0
  barCycles := 0
  lastQ := 3
  cycles := 0
  cycled := .none
  icache := []
  dirty := []
  clean := []
  tlb := []
  pbc := []
  banks := Vector.replicate 4 ⟨Vector.replicate 256 0, []⟩
  bank := Bank.clear
  shadow := .free
  swapDue := false
  swapCtx := 0
  swapFrom := .none
  stall := false
  stallDir := false
  stallAddr := 0
  stallCtx := 0
  perr := 0
  level := 0
  netinj := 0
  netdefl := 0
  draw := 0
  lastDraw := 0
  temp := 0
  hold := false
/-- The reset weights of R489. -/
def actwReset : Vector (BitVec 4) 16 := #v[1, 2, 1, 2, 4, 2, 4, 2, 3, 3, 3, 1, 1, 1, 4, 1]
/-- A context with every CSR at its reset value. -/
def Ctx.reset : Ctx where
  id := 0
  pgroot := 0
  rtab := 0
  tdtab := 0
  ringtab := 0
  vovf := 0x4000
  tmarks := 0
  zkpeer := 0
  tvec := 0
  tctl := 3
  tscratch := 0
  evmask := 0
  actctl := 0x82000060
  actcap := 1023
  actw := actwReset
  telring := 4
  telst := 0
  netctl := 0
  bgear := 0
  saveBase := 0
  saveSize := 0
  chent := 0
  gear := .n
  ectx := Vector.replicate 4 0
  rings := []
  banks := Vector.replicate 2 .none
  launches := 0
  launch := .none
  chac := []
  saved := []
def Part.reset : Part := ⟨false, [], [], 0, 0, false, 0, []⟩
def Fabric.reset : Fabric where
  net := []
  flits := []
  intake := []
  turned := []
  relief := []
  dead := []
  replays := []
  table := []
  netcfg := 0xCC5C3EC00028
  nextMsg := 1
def Power.reset : Power := ⟨.none, .none, 2000, 0, 0, 2000, false, 0, 0, 0, 0, 0, 0⟩
def Fethen.reset : Fethen := ⟨.held, [], 0, 0, 0, false, false, 0, 0⟩
def SiteMap.reset : SiteMap where
  site := Vector.replicate 256 0
  spare := 0
  retired := 0
  spares := []
def Dev.reset : Dev where
  fabricCycles := 0
  wraps := 0
  dclk := 0
  slew := 0
  fab := Fabric.reset
  power := Power.reset
  fethen := Fethen.reset
  zikin := ⟨0, 0, 0, 0, 0, [], []⟩
  errors := []
  errT := Vector.replicate 6 8
  errW := Vector.replicate 6 600
  deadChan := []
  sites := SiteMap.reset
  devBusy := false
  devResult := 0
  resizing := .none
  cmds := []
  msix := []
  slices := []
  forms := []
  hostRd := 0
  remoteRd := []
  remotePois := false
  remoteBad := false
  hostRun := (0, 0)
/-- The machine right after reset (R24, R515): Fethen holds everything in reset. -/
def State.reset : State where
  mem := ⟨[], [], []⟩
  cores := Vector.replicate 256 Core.reset
  ctxs := []
  parts := Vector.replicate 16 Part.reset
  dev := Dev.reset
  cur := 0
  curS := 0
  agenda := []
  turn := 0
  freeCtr := 0

end Sys2Proof.Machine
end

