-- ==== Sys2Proof/Machine/Mem.lean ====
section
/-! DEFINITION. Memory as cells in canonical form (log 4, 5), its poison (R165), and the overlays that hold the
dirty bytes of a data cache and the version of a task (R153, R155). -/
namespace Sys2Proof.Machine

/-! ## Keys: where an address of each space lies in the one memory (log 5) -/
def vaultKey (core off : Nat) : Nat := 2 ^ 48 + core * 2 ^ 24 + off
def hostKey (bus : Nat) : Nat := 2 ^ 64 + bus
def partKey (p off : Nat) : Nat := 2 ^ 80 + p * 2 ^ 20 + off
def devKey (off : Nat) : Nat := 2 ^ 84 + off

/-- The byte at a key of a cell list; an unlisted byte reads 0 (log 4). -/
def cellAt : List Host.Cell → Nat → Byte
  | [], _ => 0
  | (a, b) :: t, k => if a = k then b else if k < a then 0 else cellAt t k
/-- The list with the byte at a key set; a zero byte is not listed. -/
def cellSet : List Host.Cell → Nat → Byte → List Host.Cell
  | [], k, b => if b = 0 then [] else [(k, b)]
  | (a, c) :: t, k, b =>
    if a = k then if b = 0 then t else (k, b) :: t
    else if k < a then if b = 0 then (a, c) :: t else (k, b) :: (a, c) :: t
    else (a, c) :: cellSet t k b
/-- Every address of a cell list lies above a bound, the addresses rise, and no byte is zero. -/
def cellsFrom : Nat → List Host.Cell → Bool
  | _, [] => true
  | lo, (a, b) :: t => decide (lo ≤ a) && b != 0 && cellsFrom (a + 1) t
/-- The canonical form of memory. -/
def Mem.wf (m : Mem) : Bool := cellsFrom 0 m.cells

/-- The undefined ranges without one key. -/
def undefDrop (k : Nat) : List (Nat × Nat × Nat) → List (Nat × Nat × Nat)
  | [] => []
  | (lo, hi, n) :: t =>
    if lo ≤ k ∧ k < hi then
      (if lo < k then [(lo, k, n)] else []) ++ (if k + 1 < hi then [(k + 1, hi, n)] else []) ++ undefDrop k t
    else (lo, hi, n) :: undefDrop k t
/-- One byte of memory; a byte of an undefined range is a free value (R2, log 7). -/
def Mem.byte (m : Mem) (k : Nat) : Byte :=
  match m.undef.find? (fun r => decide (r.1 ≤ k) && decide (k < r.2.1)) with
  | some r => Config.freeBits 8 (r.2.2 * 2 ^ 90 + k)
  | none => cellAt m.cells k
def Mem.setByte (m : Mem) (k : Nat) (b : Byte) : Mem :=
  { m with cells := cellSet m.cells k b, undef := undefDrop k m.undef }
/-- Bytes from a key upward. -/
def Mem.setBytes (m : Mem) (k : Nat) : List Byte → Mem
  | [] => m
  | b :: t => (m.setByte k b).setBytes (k + 1) t

/-- An overlay: what it holds at a key, if anything. -/
def ovGet : List Host.Cell → Nat → Option Byte
  | [], _ => none
  | (a, b) :: t, k => if a = k then some b else ovGet t k
/-- An overlay with one byte set; zero bytes are listed. -/
def ovSet : List Host.Cell → Nat → Byte → List Host.Cell
  | [], k, b => [(k, b)]
  | (a, c) :: t, k, b =>
    if a = k then (k, b) :: t else if k < a then (k, b) :: (a, c) :: t else (a, c) :: ovSet t k b
def ovSets (o : List Host.Cell) (k : Nat) : List Byte → List Host.Cell
  | [] => o
  | b :: t => ovSets (ovSet o k b) (k + 1) t

/-- n bytes little-endian as a number (R4), and back. -/
def leNat : List Byte → Nat
  | [] => 0
  | b :: t => b.toNat + 256 * leNat t
def toLe : Nat → Nat → List Byte
  | 0, _ => []
  | n + 1, x => BitVec.ofNat 8 x :: toLe n (x / 256)
/-- The keys k, k + 1, ... of n bytes. -/
def keysFrom (k : Nat) : Nat → List Nat
  | 0 => []
  | n + 1 => k :: keysFrom (k + 1) n
/-- A list with each number once, at its last place. -/
def distinct : List Nat → List Nat
  | [] => []
  | a :: t => if t.any (· == a) then distinct t else a :: distinct t
/-- The home channel of an HBM physical address (R151). -/
def channelOf (pa : Nat) : Nat :=
  Nat.xor (Nat.xor (pa / 2 ^ 9 % 256) (pa / 2 ^ 17 % 256)) (Nat.xor (pa / 2 ^ 25 % 256) (pa / 2 ^ 33 % 128))
/-- The pseudo-channel (R151). -/
def pseudoOf (pa : Nat) : Bool := pa / 256 % 2 == 1

/-- Whether a key is an HBM address whose pseudo-channel is retired (R519, R520). -/
def State.deadLine (s : State) (k : Nat) : Bool :=
  !s.dev.deadChan.isEmpty && decide (k < 2 ^ 48) && s.dev.deadChan.any (· == (channelOf k, pseudoOf k))
/-- Committed memory at a key. -/
def State.rd (s : State) (k : Nat) : Byte := s.mem.byte k
def State.rdN (s : State) (k n : Nat) : Nat := leNat ((keysFrom k n).map s.rd)
/-- A write to committed memory; a line of a retired pseudo-channel discards it (R520). -/
def State.wr (s : State) (k : Nat) (b : Byte) : State :=
  if s.deadLine k then s else { s with mem := s.mem.setByte k b }
def State.wrs (s : State) (k : Nat) : List Byte → State
  | [] => s
  | b :: t => (s.wr k b).wrs (k + 1) t
/-- Whether the 32-byte block of a key is poisoned (R165). -/
def State.pois (s : State) (k : Nat) : Bool := s.mem.poison.any (· == k / 32) || s.deadLine k
def poisAdd (b : Nat) : List Nat → List Nat
  | [] => [b]
  | a :: t => if a = b then a :: t else if b < a then b :: a :: t else a :: poisAdd b t
def State.setPois (s : State) (block : Nat) (p : Bool) : State :=
  { s with mem := { s.mem with poison := if p then poisAdd block s.mem.poison else s.mem.poison.filter (· != block) } }
/-- A task wrote some keys: a later metric that reads an anchor slot there is undefined (R381). -/
def State.taint (s : State) (k n : Nat) : State :=
  if s.ctxs.all fun c => c.chac.isEmpty then s
  else
    let hit := fun (e : ChEntry) => e.area.any fun x => decide (x.1 < k + n) && decide (k < x.1 + x.2)
    { s with ctxs := s.ctxs.map fun c => { c with chac := c.chac.map fun e => if hit e then { e with taint := true } else e } }
/-- Bytes written by an agent that is no strand: whole blocks lose their poison (R165, R294). -/
def State.wrClean (s : State) (k : Nat) (d : List Byte) : State :=
  let s := s.wrs k d
  let b0 := (k + 31) / 32
  let b1 := (k + d.length) / 32
  (List.range (b1 - b0)).foldl (fun s i => s.setPois (b0 + i) false) s

end Sys2Proof.Machine
end

