-- ==== Sys2Proof/Machine/NestCfg.lean ====
section
/-! DEFINITION. The fields of a tensor descriptor (R242), a nest configuration (R250, R251, R268) and the coordinates
of a nest (R254). -/
namespace Sys2Proof.Machine

/-- The little-endian field of n bytes at a byte offset. -/
def fld {w : Nat} (v : BitVec w) (off n : Nat) : Nat := v.toNat / 2 ^ (8 * off) % 2 ^ (8 * n)
/-- The same field in two's complement. -/
def fldS {w : Nat} (v : BitVec w) (off n : Nat) : Int := Num.sint (8 * n) (fld v off n)

/-! ## Descriptors -/
abbrev Desc := BitVec 512
def Desc.base (d : Desc) : Nat := fld d 0 8
def Desc.sbase (d : Desc) : Nat := fld d 8 8
def Desc.mbase (d : Desc) : Nat := fld d 16 8
def Desc.rows (d : Desc) : Nat := fld d 24 4
def Desc.cols (d : Desc) : Nat := fld d 28 4
def Desc.rstr (d : Desc) : Nat := fld d 32 4
def Desc.sstr (d : Desc) : Nat := fld d 36 4
def Desc.mstr (d : Desc) : Nat := fld d 40 4
def Desc.ty (d : Desc) : Nat := fld d 44 1
def Desc.role (d : Desc) : Nat := fld d 45 1
def Desc.sparse (d : Desc) : Nat := fld d 46 1
def Desc.hint (d : Desc) : Nat := fld d 47 1
/-- M of an N:M sparse tensor; 1 when it is dense. -/
def Desc.m (d : Desc) : Nat := 2 ^ (d.sparse % 16)
/-- M / N, the number of K blocks of a pass (R243, R247). -/
def Desc.q (d : Desc) : Nat := 2 ^ (d.sparse / 16)
/-- The element type. -/
def Desc.elem (d : Desc) : Ty := Ty.dec d.ty
/-- Bytes of one row of elements. -/
def Desc.rowBytes (d : Desc) : Nat := (d.cols * d.elem.bits + 7) / 8

/-! ## A nest configuration with its three snapshots (R268) -/
def NestSet.a (n : NestSet) : Desc := n.extractLsb' 2048 512
def NestSet.b (n : NestSet) : Desc := n.extractLsb' 2560 512
def NestSet.o (n : NestSet) : Desc := n.extractLsb' 3072 512
def NestSet.ta (n : NestSet) : Nat := fld n 0 1
def NestSet.tb (n : NestSet) : Nat := fld n 1 1
def NestSet.to (n : NestSet) : Nat := fld n 2 1
def NestSet.mode (n : NestSet) : Nat := fld n 3 1
/-- ACC of MODE: 0 IACC wrap, 1 IACC saturate, 2 FACC. -/
def NestSet.acc (n : NestSet) : Nat := n.mode % 4
def NestSet.mid (n : NestSet) : Bool := n.mode / 4 % 2 == 1
def NestSet.rnd (n : NestSet) : Rnd := Rnd.dec (n.mode / 8 % 8)
def NestSet.p (n : NestSet) : Nat := fld n 4 1
def NestSet.pr (n : NestSet) : Nat := fld n 5 1
def NestSet.pc (n : NestSet) : Nat := 128 * 2 ^ fld n 6 1
def NestSet.ocv (n : NestSet) : Nat := fld n 7 1
/-- Whether B has 4 bits (R237). -/
def NestSet.b4 (n : NestSet) : Bool := n.b.elem.bits == 4
/-- W of R237. -/
def NestSet.w (n : NestSet) : Nat := if n.b4 then 2048 else 1024
/-- The origin of coordinate x, and its stride at level j; x counts arow, akb, bkb, bcol, crow, ccol, orow, ocol. -/
def NestSet.origin (n : NestSet) (x : Nat) : Int := fldS n (8 + 4 * x) 4
def NestSet.stride (n : NestSet) (j x : Nat) : Int := fldS n (64 + 32 * j + 4 + 2 * x) 2
def NestSet.trip (n : NestSet) (j : Nat) : Nat := fld n (64 + 32 * j) 2
def NestSet.act (n : NestSet) (j : Nat) : Nat := fld n (64 + 32 * j + 2) 1
/-- Coordinate x at the loop indices (R254); MCFG leaves none negative (R252). -/
def NestSet.coord (n : NestSet) (ix : Vector Nat 6) (x : Nat) : Nat :=
  ((List.range 6).foldl (fun c j => c + (ix.toList.getD j 0 : Int) * n.stride j x) (n.origin x)).toNat
/-- The actions after the pass at these indices: the union over the levels whose inner indices are all last (R254). -/
def actsGo (n : NestSet) (ix : List Nat) : Nat → Nat → Nat
  | 0, _ => 0
  | k + 1, j => if ix.getD j 0 + 1 = n.trip j then Nat.lor (n.act j) (actsGo n ix k (j + 1)) else 0
def NestSet.acts (n : NestSet) (ix : Vector Nat 6) : Nat := actsGo n ix.toList 6 0
/-- The next indices, innermost first; none after the last. -/
def nextIx (n : NestSet) : Nat → List Nat → Option (List Nat)
  | _, [] => none
  | j, i :: rest => if i + 1 < n.trip j then some ((i + 1) :: rest) else (nextIx n (j + 1) rest).map (0 :: ·)
def toIx (l : List Nat) : Vector Nat 6 := Vector.ofFn fun i => l.getD i.val 0
/-- The physical element of view element (v, c) (R246). -/
def physical (b4 : Bool) (v c : Nat) : Nat × Nat := if b4 then (v + 16 * (c / 1024), c % 1024) else (v, c)
/-- Whether physical element (row, col) lies in the region at (crow, ccol) of a nest (R246, R254). -/
def NestSet.inRegion (n : NestSet) (crow ccol row col : Nat) : Bool :=
  let (v, c) := if n.b4 then (row % 16, col + 1024 * (row / 16)) else (row, col)
  decide (n.pr * crow ≤ v) && decide (v < n.pr * (crow + 1)) && decide (n.pc * ccol ≤ c) && decide (c < n.pc * (ccol + 1))

/-! ## B tiles (R237, R238, R243) -/
/-- A B tile: where its bytes lie. -/
structure Tile where
  base  : Nat
  rstr  : Nat
  ty    : Ty
  rows  : Nat
  cols  : Nat
  kb    : Nat
  group : Nat
  deriving DecidableEq, Repr
/-- W of the tile. -/
def Tile.w (t : Tile) : Nat := if t.ty.bits = 4 then 2048 else 1024
/-- The columns of the tile that lie within B. -/
def Tile.width (t : Tile) : Nat := Nat.min t.w (t.cols - t.group * t.w)
/-- Whether the type is stored in planes (R76). -/
def planar (t : Ty) : Bool := match t with | .n4 | .n8 | .n16 | .n32 => true | _ => false
/-- The byte ranges (offset and length) of one row of the tile that hold columns of B. -/
def Tile.ranges (t : Tile) : List (Nat × Nat) :=
  if planar t.ty then (List.range t.ty.bits).map fun p => (p * (t.w / 8), (t.width + 7) / 8)
  else [(0, (t.width * t.ty.bits + 7) / 8)]
/-- The address of row k of the tile, k counting from 0 in the tile. -/
def Tile.rowAt (t : Tile) (k : Nat) : Nat := t.base + (t.kb * 256 + k) * t.rstr + t.group * 1024
/-- The tile that a tag names. -/
def Tag.tile (t : Tag) : Tile := ⟨t.base.toNat, t.rstr, t.ty, t.rows, t.cols, t.kb.toNat, t.group.toNat⟩
/-- Whether the tile reads a byte of a range of addresses. -/
def Tile.meets (t : Tile) (lo hi : Nat) : Bool :=
  (List.range 256).any fun k => decide (t.kb * 256 + k < t.rows) && t.ranges.any fun r =>
    decide (r.2 ≠ 0) && decide (t.rowAt k + r.1 ≤ hi) && decide (lo < t.rowAt k + r.1 + r.2)
/-- The tile of K block q of a pass, from the B snapshot. -/
def NestSet.tile (n : NestSet) (kb bcol : Nat) : Tile :=
  ⟨n.b.base, n.b.rstr, n.b.elem, n.b.rows, n.b.cols, kb, n.pc * bcol / n.w⟩
/-- The tiles of a pass at some indices. -/
def passTiles (n : NestSet) (ix : Vector Nat 6) : List Tile :=
  (List.range n.a.q).map fun k => n.tile (n.a.q * n.coord ix 2 + k) (n.coord ix 3)

/-! ## The passes that a check repeats (R263) -/
/-- The indices of the passes of the nest so far that added to the region of the current one, since its last ZERO. -/
def replayGo (n : NestSet) (stop : List Nat) (crow ccol : Nat) : Nat → List Nat → List (List Nat) → List (List Nat)
  | 0, _, found => found
  | k + 1, ix, found =>
    let v := toIx ix
    let mine := n.coord v 4 == crow && n.coord v 5 == ccol
    let found := if mine then found ++ [ix] else found
    if ix = stop then found
    else
      let found := if mine && n.acts v / 2 % 2 == 1 then [] else found
      match nextIx n 0 ix with
      | some next => replayGo n stop crow ccol k next found
      | none => found
/-- The passes in the nest's order up to an index vector. -/
def ordinal (n : NestSet) (ix : List Nat) : Nat := (List.range 6).foldr (fun j a => a * n.trip j + ix.getD j 0) 0

end Sys2Proof.Machine
end

