-- ==== Sys2Proof/Machine/Ops.lean ====
section
/-! DEFINITION. The named operations over the state: registers and their accessors, contexts, how an instruction
ends, and taking an exception (R444 to R453). An operation acts on the core `cur` and its strand `curS`. -/
namespace Sys2Proof.Machine

abbrev Out := Host.Outcome State Fault Refusal

/-! ## Where the machine stands -/
def State.core (s : State) : Core := s.cores[s.cur]
def State.setCore (s : State) (c : Core) : State := { s with cores := s.cores.set s.cur c }
def State.modCore (s : State) (f : Core → Core) : State := s.setCore (f s.core)
def State.bank (s : State) : Bank := s.core.bank
def State.modBank (s : State) (f : Bank → Bank) : State := s.modCore fun c => { c with bank := f c.bank }
def State.strand (s : State) : Strand := s.bank.strands[s.curS]
def State.modStrandN (s : State) (n : Fin 4) (f : Strand → Strand) : State :=
  s.modBank fun b => { b with strands := b.strands.set n (f b.strands[n]) }
def State.modStrand (s : State) (f : Strand → Strand) : State := s.modStrandN s.curS f
def State.modStrands (s : State) (f : Strand → Strand) : State :=
  s.modBank fun b => { b with strands := b.strands.map f }
def State.modMat (s : State) (f : Matrix → Matrix) : State := s.modBank fun b => { b with mat := f b.mat }
def State.modTrap (s : State) (f : TrapRegs → TrapRegs) : State := s.modBank fun b => { b with trap := f b.trap }
def State.modTask (s : State) (f : Task → Task) : State := s.modBank fun b => { b with task := b.task.map f }
def State.modDev (s : State) (f : Dev → Dev) : State := { s with dev := f s.dev }
def State.modFab (s : State) (f : Fabric → Fabric) : State := s.modDev fun d => { d with fab := f d.fab }
def State.part (s : State) (p : Fin 16) : Part := s.parts[p]
def State.modPart (s : State) (p : Fin 16) (f : Part → Part) : State := { s with parts := s.parts.set p (f s.parts[p]) }
/-- An operation done on another core, or on another strand of the core. -/
def State.on (s : State) (c : Fin 256) (f : State → State) : State := { f { s with cur := c } with cur := s.cur }
def State.onStrand (s : State) (n : Fin 4) (f : State → State) : State := { f { s with curS := n } with curS := s.curS }
/-- The context of an id, at reset values when none is installed. -/
def State.ctxOf (s : State) (id : BitVec 12) : Ctx := (s.ctxs.find? (·.id == id)).getD { Ctx.reset with id := id }
def State.modCtxOf (s : State) (id : BitVec 12) (f : Ctx → Ctx) : State :=
  { s with ctxs := s.ctxs.map fun c => if c.id = id then f c else c }
/-- The context that runs on the core. -/
def State.ctx (s : State) : Ctx := s.ctxOf s.bank.ctx
def State.modCtx (s : State) (f : Ctx → Ctx) : State := s.modCtxOf s.bank.ctx f
/-- The state that a context has on a core which has run nothing for it (R344, R508). -/
def Ctx.fresh (c : Ctx) : Bank :=
  { Bank.clear with loaded := true, ctx := c.id, bgear := c.bgear, netctl := c.netctl, gear := c.gear }
/-- The device clock in ns (R487, R488): all fabric cycles so far at 1.9 GHz plus the corrections, modulo 2^64. -/
def State.dclk (s : State) : W64 := s.dev.dclk + BitVec.ofNat 64 ((s.dev.wraps * 2 ^ 64 + s.dev.fabricCycles.toNat) * 10 / 19)
/-- A free value (R2, log 7). -/
def State.free (s : State) (w k : Nat) : BitVec w := Config.freeBits w (s.freeCtr * 2 ^ 32 + k)

/-- A gear transition begins at the end of a cycle that ends `after` fabric cycles from now: the clock stops at the first
fabric edge from there whose count is a multiple of 4, and restarts 256 fabric cycles later (R482). -/
def State.beginTrans (s : State) (g : Gear) (why : TransWhy) (after : Nat) : State :=
  s.modCore fun c =>
    { c with
      trans := some (g, why)
      restart := BitVec.ofNat 64 ((s.dev.fabricCycles.toNat + after + 3) / 4 * 4 + 256) }
/-- How many fabric cycles from now the cycle of the core that this fabric cycle began has to run, at the least (R22, R482). -/
def State.midCycle (s : State) : Nat := if s.core.cycled = some s.dev.fabricCycles then 1 else 0
/-- Whether the core's clock stands: in a gear transition (R482), or above the thermal limit (R32). Matrix and copy
engines stand with it (R483). -/
def State.clockStopped (s : State) : Bool := s.core.trans.isSome || s.dev.power.thermalStop

/-- What the host does through a function of its link: in recovery, and while Fethen holds the functions in reset, they do not
respond (R515, R516). -/
def State.hosted (s : State) (f : State → State) : State := if s.dev.fethen.boot = .running then f s else s

/-! ## Registers (R48, R49, R106) -/
/-- A scalar register; s0 reads zero (R49). -/
def State.rs (s : State) (r : Fin 64) : W64 := if r = 0 then 0 else s.strand.s[r]
/-- A write to s0 is discarded (R49). -/
def State.setS (s : State) (r : Fin 64) (x : W64) : State :=
  if r = 0 then s else s.modStrand fun t => { t with s := t.s.set r x }
/-- A mask register; k0 reads all ones (R49). -/
def State.rk (s : State) (r : Fin 8) : KReg := if r = 0 then BitVec.allOnes 1024 else s.strand.k[r]
def State.setK (s : State) (r : Fin 8) (x : KReg) : State :=
  if r = 0 then s else s.modStrand fun t => { t with k := t.k.set r x }
def State.setV (s : State) (r : Fin 32) (x : VReg) : State := s.modStrand fun t => { t with v := t.v.set r x }

/-! ## How an instruction ends -/
/-- Why an instruction has no effect in this step: it traps (R57), its strand is not ready (R111), or it stops the
machine. -/
inductive Stop where
  | trap (cause info : Nat)
  | wait (w : Wait)
  | halt (f : Fault)
  deriving DecidableEq, Repr
abbrev Res (α : Type) := Except Stop α

/-- The next sequential PC after an instruction of n parcels, and the loop counters it leaves (R137). -/
def loopNext (pc : W64) (n : Nat) (lcs : Vector LoopCtr 2) : W64 × Vector LoopCtr 2 :=
  let nxt := pc + BitVec.ofNat 64 (4 * n)
  let one := fun (nxt : W64) (l : LoopCtr) =>
    if l.active && nxt == l.end_.setWidth 64 then
      if l.count = 1 then (nxt, { l with count := 0, active := false }, false)
      else (l.end_.setWidth 64 - 4 * l.len.setWidth 64, { l with count := l.count - 1 }, true)
    else (nxt, l, false)
  let r1 := one nxt lcs[1]
  if r1.2.2 then (r1.1, lcs.set 1 r1.2.1)
  else
    let r0 := one r1.1 lcs[0]
    (r0.1, (lcs.set 1 r1.2.1).set 0 r0.2.1)
/-- An instruction of n parcels retires without a taken transfer (R137). -/
def Strand.retire (t : Strand) (n : Nat) : Strand :=
  let r := loopNext t.pc n t.lc
  { t with pc := r.1, lc := r.2, wait := .none }
def State.retire (s : State) (n : Nat) : State := s.modStrand fun t => t.retire n
/-- A taken transfer (R131). -/
def State.jump (s : State) (target : W64) : State := s.modStrand fun t => { t with pc := target, wait := .none }

/-! ## The trap model (R443 to R453) -/
def causeIllegal : Nat := 0x01
def causeOrder : Nat := 0x02
def causeMisaligned : Nat := 0x03
def causeOwnership : Nat := 0x04
def causeTranslation : Nat := 0x05
def causeProtection : Nat := 0x06
def causePoison : Nat := 0x07
def causeVersion : Nat := 0x08
def causeOverrun : Nat := 0x09
def causeToken : Nat := 0x0A
def causeRing : Nat := 0x0B
def causeBarrier : Nat := 0x0C
def causeParam : Nat := 0x0D
def causeTensor : Nat := 0x0E
/-- The class Fault of R443. -/
def isFaultCause (c : Nat) : Bool := decide (c ≤ 0x0E) && c != causeOverrun
/-- The notices of R443. -/
def isNotice (c : Nat) : Bool := decide (0x20 ≤ c ∧ c ≤ 0x22)
/-- Whether a task is restartable (R380). -/
def Task.restartable (t : Task) : Bool := !t.nr && !t.escaped

/-- The key of a virtual address when every walk succeeds; used by the writes and reads of Galliard and the trap
frame, which no region check governs (R446, R447, R467). -/
def walkKey (s : State) (root va : Nat) : Option Nat :=
  let step := fun (tbl shift bits : Nat) => s.rdN (tbl + 8 * (va / 2 ^ shift % 2 ^ bits)) 8
  let pa := fun (e : Nat) => e / 2 ^ 12 % 2 ^ 36 * 2 ^ 12
  let v := fun (e : Nat) => e % 2 == 1
  let leaf := fun (e : Nat) => e / 2 % 2 == 1
  let e1 := step root 43 13
  if !v e1 || leaf e1 then none
  else
    let e2 := step (pa e1) 30 13
    if !v e2 then none
    else if leaf e2 then some (pa e2 + va % 2 ^ 30)
    else
      let e3 := step (pa e2) 21 9
      if !v e3 then none
      else if leaf e3 then some (pa e3 + va % 2 ^ 21)
      else
        let e4 := step (pa e3) 16 5
        if !v e4 || !leaf e4 then none else some (pa e4 + va % 2 ^ 16)
/-- The address of the core's slot in the save area of its context (R467). -/
def State.slot (s : State) : Nat := s.ctx.saveBase.toNat + s.cur.val * Config.slotBytes
/-- A write without checks at a virtual address of the context; an unmapped byte is dropped. -/
def State.wrVirt (s : State) (va : Nat) : List Byte → State
  | [] => s
  | b :: t =>
    let s := match walkKey s s.ctx.pgroot.toNat va with
      | some k => s.wr k b
      | none => s
    s.wrVirt (va + 1) t
/-- A read without checks at a virtual address of the context; an unmapped byte reads 0. -/
def State.rdVirt (s : State) (va n : Nat) : List Byte :=
  (keysFrom va n).map fun a => match walkKey s s.ctx.pgroot.toNat a with
    | some k => s.rd k
    | none => 0
/-- The scalar registers of a strand as the trap frame holds them (R446). -/
def frameOf (t : Strand) : List Byte :=
  (List.range 64).flatMap fun i => if i = 0 then toLe 8 0 else toLe 8 (t.s.toList.getD i 0).toNat

/-- A consumer of a token that has completed waits on it no longer, and learns whether it faulted (R295, R342). -/
def dropToken (st n : Fin 4) (t : Fin 32) (used : List (Fin 32)) : List (Fin 32) :=
  if st = n then used.filter (· != t) else used
def QueuedMgo.settle (q : QueuedMgo) (n : Fin 4) (t : Fin 32) (bad : Bool) : QueuedMgo :=
  { q with used := dropToken q.strand n t q.used, bad := q.bad || (bad && q.strand == n && q.used.any (· == t)) }
def PendLoad.settle (q : PendLoad) (n : Fin 4) (t : Fin 32) (bad : Bool) : PendLoad :=
  { q with used := dropToken q.strand n t q.used, bad := q.bad || (bad && q.strand == n && q.used.any (· == t)) }
def Cmd.settle (c : Cmd) (n : Fin 4) (t : Fin 32) (bad : Bool) : Cmd :=
  { c with
    used := dropToken c.strand n t c.used
    fault := if bad && c.strand == n && c.used.any (· == t) then some (0x0A, 3, 0) else c.fault }
/-- The id of the task on the core; zero when none runs (R367). -/
def Bank.taskId (b : Bank) : W64 := (b.task.map (·.id)).getD 0
/-- A completed token reaches the commands of the matrix engine that consume it. -/
def Matrix.settle (m : Matrix) (n : Fin 4) (t : Fin 32) (bad : Bool) : Matrix :=
  { m with
    queued := m.queued.map (·.settle n t bad)
    running := m.running.map (·.settle n t bad)
    loads := m.loads.map (·.settle n t bad) }
/-- A completed token reaches the queue commands of its task that consume it, and what the matrix engine still runs for it. -/
def Bank.settle (b : Bank) (task : W64) (n : Fin 4) (t : Fin 32) (bad : Bool) : Bank :=
  { b with
    queues := b.queues.map fun q => { q with cmds := q.cmds.map fun c => if c.task = task then c.settle n t bad else c }
    nests := b.nests.map fun o => if o.task = task then { o with mat := o.mat.settle n t bad } else o }
/-- A token of a strand takes a state (R342); a completion sets wake bit 0 (R459) and reaches its consumers. -/
def Bank.setToken (b : Bank) (n : Fin 4) (t : Fin 32) (st : TokSt) (cause : BitVec 8) : Bank :=
  if t = 0 then b
  else
    let x := b.strands[n]
    let y := { x with t := x.t.set t ⟨st, cause⟩, latch := if st = .pending then x.latch else x.latch ||| 1 }
    let b := { b with strands := b.strands.set n y }
    if st = .pending then b
    else
      let bad := st == .faulted
      let b := b.settle b.taskId n t bad
      { b with mat := b.mat.settle n t bad }
def State.setToken (s : State) (n : Fin 4) (t : Fin 32) (st : TokSt) (cause : BitVec 8) : State :=
  s.modBank fun b => b.setToken n t st cause
/-- A command leaves its queue: its token completes, faulted when a cause is given (R342, R294). -/
def Bank.finishToken (b : Bank) (n : Fin 4) (t : Fin 32) (fault : Option (BitVec 8)) : Bank :=
  match fault with
  | none => b.setToken n t .done 0
  | some c => b.setToken n t .faulted c
def State.finishToken (s : State) (n : Fin 4) (t : Fin 32) (fault : Option (BitVec 8)) : State :=
  s.modBank fun b => b.finishToken n t fault
/-- The token of a command of some task completes. The strands hold the tokens of the active task alone: the tokens of a
task whose strands have ended are gone but for the commands that consume them (R390), and those of a suspended task are in
its saved state (R309, R397). -/
def State.finishTokenOf (s : State) (task : W64) (n : Fin 4) (t : Fin 32) (fault : Option (BitVec 8)) : State :=
  if t = 0 ∨ task = s.bank.taskId then s.finishToken n t fault
  else
    let s := s.modBank fun b => b.settle task n t fault.isSome
    let post := fun (e : Fin 256 × Bank) => if e.1 = s.cur ∧ e.2.taskId = task then (e.1, e.2.finishToken n t fault) else e
    s.modCtxOf s.bank.ctx fun x => { x with saved := x.saved.map post }

/-! ## Waking (R459) -/
def Bank.wake (b : Bank) (bits : BitVec 6) : Bank :=
  { b with strands := b.strands.map fun t => { t with latch := t.latch ||| bits } }
/-- A change of every copy of a context's state: on its cores, in their shadow banks and where it is saved. -/
def State.modBanksOf (s : State) (id : BitVec 12) (f : Bank → Bank) : State :=
  let g := fun (b : Bank) => if b.loaded && b.ctx == id then f b else b
  let core := fun (c : Core) =>
    { c with
      bank := g c.bank
      shadow := match c.shadow with
        | .filled b t => .filled (g b) t
        | .unspilled b => .unspilled (g b)
        | x => x }
  let s : State := { s with cores := s.cores.map core }
  s.modCtxOf id fun c => { c with saved := c.saved.map fun e => (e.1, f e.2) }
/-- FILLED and the ring of a number (R298). -/
def Ring.filledCount (r : Ring) : Nat := (r.slots.takeWhile (·.filled)).length
def Ctx.ringOf (c : Ctx) (n : Nat) : Ring := (c.rings.find? fun r => r.n.toNat == n).getD ⟨BitVec.ofNat 8 n, 0, []⟩
/-- A ring takes its new counters; a change of FREE or FILLED wakes the strands that have mapped it (R459). -/
def State.setRing (s : State) (id : BitVec 12) (r : Ring) : State :=
  let old := (s.ctxOf id).ringOf r.n.toNat
  let s := s.modCtxOf id fun c => { c with rings := r :: c.rings.filter (·.n != r.n) }
  if old.slots.length = r.slots.length ∧ old.filledCount = r.filledCount then s
  else s.modBanksOf id fun b =>
    { b with strands := b.strands.map fun t => if t.pop = r.n ∨ t.push = r.n then { t with latch := t.latch ||| 8 } else t }

/-! ## Semaphores (R344, R345) -/
/-- A semaphore takes a value; a change wakes the strands of the core (R459). -/
def Bank.setSem (b : Bank) (sem : Fin 64) (x : BitVec 32) : Bank :=
  if x = b.sems[sem] then b
  else
    let c : Bank := { b with sems := b.sems.set sem x }
    c.wake 2
/-- The semaphore a waiter waits on, and what it needs. -/
def Waiter.sem : Waiter → Fin 64
  | .strand _ n _ _ => n
  | .queue _ n _ _ => n
def Waiter.need : Waiter → Nat
  | .strand _ _ k _ => k
  | .queue _ _ k _ => k
/-- Whether a waiter that begins now stands before one that is there: before a queue that began in the same fabric cycle, as a strand
or as a lower queue (R345). -/
def Waiter.precedes (w x : Waiter) (now : W64) : Bool :=
  match w, x with
  | .strand .., .queue _ _ _ t => t == now
  | .queue q _ _ _, .queue p _ _ t => t == now && decide (q < p)
  | _, _ => false
/-- A waiter joins the list of waiters (R345). -/
def joinWaiters (w : Waiter) (now : W64) : List Waiter → List Waiter
  | [] => [w]
  | x :: t => if w.precedes x now then w :: x :: t else x :: joinWaiters w now t
/-- A QSEMW at the head of its queue has its count: it completes (R304). -/
def Bank.qsemwDone (b : Bank) (q : Fin 4) : Bank :=
  match b.queues[q].cmds.find? fun c => !c.started with
  | some c =>
    let x := b.queues[q]
    let b := { b with queues := b.queues.set q { x with cmds := x.cmds.filter (·.id != c.id), done := x.done + 1 } }
    if c.task = b.taskId then b.finishToken c.strand c.td none else b.settle c.task c.strand c.td false
  | none => b
/-- A served waiter completes as if it had issued now: a strand's age becomes 0 (R112), and its weight counts (R345, R490). -/
def Bank.served (b : Bank) : Waiter → Bank
  | .strand n _ _ parcels =>
    { b with
      strands := b.strands.set n { b.strands[n].retire parcels with age := 0 }
      late := if b.strands[n].smode then b.late else b.late + 1 }
  | .queue q _ _ _ => b.qsemwDone q
/-- Only the oldest waiter of a semaphore is tested; when it is served, the next one is (R345). -/
def Bank.serveGo (sem : Fin 64) : Nat → Bank → Bank
  | 0, b => b
  | k + 1, b =>
    match b.waiters.find? fun w => w.sem == sem with
    | none => b
    | some w =>
      if w.need ≤ b.sems[sem].toNat then
        let c : Bank := { b with waiters := b.waiters.erase w }
        Bank.serveGo sem k ((c.setSem sem (b.sems[sem] - BitVec.ofNat 32 w.need)).served w)
      else b
def Bank.serve (b : Bank) (sem : Fin 64) : Bank := Bank.serveGo sem b.waiters.length b
/-- An increment of a semaphore (R344). -/
def Bank.semAdd (b : Bank) (sem : Fin 64) (k : Nat) : Bank :=
  let x := b.sems[sem].toNat + k
  let c : Bank := { b with semov := if 2 ^ 32 ≤ x then b.semov ||| BitVec.ofNat 64 (2 ^ sem.val) else b.semov }
  (c.setSem sem (BitVec.ofNat 32 (Nat.min x (2 ^ 32 - 1)))).serve sem
/-- Waiters that are abandoned leave; those behind them are tested (R345, R355). -/
def Bank.dropWaiters (b : Bank) (gone : Waiter → Bool) : Bank :=
  let sems := (b.waiters.filter gone).map (·.sem)
  sems.foldl (fun b n => b.serve n) { b with waiters := b.waiters.filter fun w => !gone w }

/-- A QFLUSH that waits is abandoned, and its queue goes on; a strand that waits in one still sets it again at its next try (R305). -/
def Bank.stopFlush (b : Bank) : Bank := { b with queues := b.queues.map fun q => { q with flush := false } }
/-- Every strand of the task stops; a waiting instruction is abandoned and keeps its PC (R444). -/
def State.stopStrands (s : State) (keep0 : Bool) : State :=
  s.modBank fun b =>
    let c : Bank := { b.stopFlush with strands := b.strands.mapFinIdx fun i t _ =>
        if keep0 && i == 0 then t else { t with stopped := t.run, wait := .none } }
    c.dropWaiters fun w => match w with
      | .strand n _ _ _ => !(keep0 && n == 0)
      | .queue .. => false
/-- Reserved slots that were not filled return to FREE (R305). -/
def Ring.giveBack (r : Ring) (ixs : List Nat) : Ring :=
  { r with slots := r.slots.filter fun x => x.filled || !(ixs.any (· == x.ix)) }
/-- The slots of a push that are not filled yet. -/
def Cmd.ungiven (c : Cmd) (slots : List Nat) : List Nat :=
  (slots.zipIdx.filter fun x => !c.given.any (· == x.2)).map (·.1)
/-- What stays of a command that a flush removes, until its far accesses are acknowledged (R305): no request of it issues any more, and
cause 0 tells that it counts nowhere. -/
def Cmd.husk (c : Cmd) : Cmd := { c with started := true, done := 0, total := 0, fault := some (0, 3, 0), ring := none, given := [], used := [] }
/-- QFLUSH of one queue for the commands of one task, or all of them (R305, R308). A QSEMW that waits is the first
unstarted command of its queue. A command with writes on their way to another package stays as a husk until they are acknowledged. -/
def State.flushQueue (s : State) (q : Fin 4) (task : Option W64) : State :=
  let gone := s.bank.queues[q].cmds.filter fun c => (task.getD c.task) == c.task
  let waiter := (s.bank.queues[q].cmds.find? fun c => !c.started).any fun c => (task.getD c.task) == c.task
  let s := s.modBank fun b =>
    let x := b.queues[q]
    let left := (x.cmds.filter fun c => (task.getD c.task) != c.task || c.acks != 0).map fun c => if (task.getD c.task) = c.task then c.husk else c
    let c : Bank := { b with queues := b.queues.set q { x with cmds := left } }
    c.dropWaiters fun w => match w with
      | .queue n _ _ _ => n == q && waiter
      | .strand .. => false
  gone.foldl (fun s c =>
    let s := if c.acks = 0 then s.finishTokenOf c.task c.strand c.td (some 0) else s
    match c.ring with
    | some (n, slots) => s.setRing s.bank.ctx ((s.ctx.ringOf n.toNat).giveBack (c.ungiven slots))
    | none => s) s
/-- The nest is aborted (R260, R275): the tokens of the running and of a queued MGO complete as faulted with cause 0,
and the elements of the region that the interrupted pass or drain touched hold undefined values (R2, log 7). The spec gives the
cause alone: the operand field of MSTAT word 3 and word 4 become 0 with it (DESIGN CHOICE, log 9). -/
def State.abortNest (s : State) : State :=
  let m := s.bank.mat
  let s := match m.running with
    | some r => s.finishToken r.strand r.td (some 0)
    | none => s
  let s := match m.queued with
    | some r => s.finishToken r.strand r.td (some 0)
    | none => s
  s.modMat fun m =>
    let crow := m.active.coord m.idx 4
    let ccol := m.active.coord m.idx 5
    let busy := m.running.isSome || m.queued.isSome
    { m with
      eng := .idle, running := none, queued := none, phase := .pass
      shadowSt := if m.shadowSt = .pending then .loaded else m.shadowSt
      mstat3 := if busy then 0 else m.mstat3
      mstat4 := if busy then 0 else m.mstat4
      acc := if m.eng = .running then
          m.acc.mapFinIdx fun r row _ => row.mapFinIdx fun c x _ =>
            if m.active.inRegion crow ccol r c then s.free 32 (r * 1024 + c) else x
        else m.acc }
/-- Every strand of the task ends, the nest is aborted and the queues are flushed; DISCARD does the rest
(R448, R394, R260, R308, R355, R451). -/
def State.endTask (s : State) (e : Ending) : State :=
  let id := some s.bank.taskId
  let s := s.abortNest
  let s := [(0 : Fin 4), 1, 2, 3].foldl (fun s q => s.flushQueue q id) s
  let s := s.modBank fun b =>
    let c : Bank := { b.stopFlush with
      strands := b.strands.map fun t =>
        { t with run := false, stopped := false, smode := false, wait := .none, arr := Arrival.none }
      evpend := 0
      trap := { b.trap with handler := false, held := none, entry := none } }
    c.dropWaiters fun w => match w with
      | .strand .. => true
      | .queue .. => false
  s.modTask fun t => { t with ending := some e }
/-- tcause of a report (R475). -/
def causeWord (h : Held) (stopped : Bool) (t : Option Task) : W64 :=
  let retry := match t with | some t => min t.retry 255 | none => 0
  let restart := match t with | some t => t.restartable | none => false
  BitVec.ofNat 64 (h.cause.toNat + 2 ^ 8 * h.strand.val + 2 ^ 10 * bit stopped + 2 ^ 11 * bit restart + 2 ^ 12 * retry
    + 2 ^ 20 * bit h.brk)
/-- A waiting SEMACQ of strand 0, which a notice abandons (R444, R451). -/
def Waiter.ofStrand0 : Waiter → Bool
  | .strand n _ _ _ => n == 0
  | .queue .. => false
/-- A notice that waits to enter becomes pending again when another trap enters first (R451). -/
def Bank.holdEntry (b : Bank) : Bank :=
  match b.trap.entry with
  | none => b
  | some h =>
    let n := fin 3 (h.cause.toNat - 0x20)
    { b with evpend := b.evpend ||| BitVec.ofNat 3 (2 ^ n.val), evinfo := b.evinfo.set n h.info }
/-- The handler is entered on strand 0 (R445, R446, R449): the report, the frame, S mode and tvec.ENTRY. -/
def State.enterHandler (s : State) (h : Held) : State :=
  let notice := isNotice h.cause.toNat
  let b := s.bank
  let t0 := b.strands[0]
  let frame := s.slot + Config.frameOff
  let s := s.wrVirt frame (frameOf t0 ++ frameOf b.strands[h.strand])
  let s := if notice then s.modBank fun b => b.stopFlush.dropWaiters Waiter.ofStrand0 else (s.modBank Bank.holdEntry).stopStrands false
  let s := s.modTrap fun r =>
    { r with
      tcause := causeWord h (!notice) b.task
      tinfo := h.info
      tpc := h.pc &&& 0x00FFFFFFFFFFFFFF
      ttask := (b.task.map (·.id)).getD 0
      tframe := BitVec.ofNat 64 (frame % 2 ^ 56)
      tgrant := 0
      handler := true
      entry := none
      pc0 := t0.pc
      run0 := t0.run
      ended0 := t0.ended }
  s.modStrandN 0 fun t =>
    { t with smode := true, stopped := false, run := true, wait := .none, pc := s.ctx.tvec &&& 0x00FFFFFFFFFFFFFC }
/-- The one operation that takes an exception (R444, R445, R452, R453): a fault of the handler itself aborts the
task; a trap while a handler runs is held; without a handler the task aborts; otherwise the handler is entered. -/
def State.takeHeld (s : State) (h : Held) : State :=
  if s.bank.strands[h.strand].smode then
    (s.modTrap fun r => { r with tcause := r.tcause ||| 0x200000 }).endTask (.abort (s.bank.trap.tcause.setWidth 8) h.cause true 0)
  else if s.bank.trap.handler then
    if isNotice h.cause.toNat then s
    else (s.stopStrands true).modTrap fun r => { r with held := some (r.held.getD h) }
  else if s.ctx.tvec.getLsbD 0 then s.enterHandler h
  else if isNotice h.cause.toNat then s
  else s.endTask (.abort h.cause 0 false 0)
def State.takeTrap (s : State) (cause info : Nat) : State :=
  s.takeHeld ⟨BitVec.ofNat 8 cause, BitVec.ofNat 64 info, s.curS, s.strand.pc, false⟩
/-- A software trap (R454, R461): the strand's PC is already past the instruction when RESUME returns to it. -/
def State.takeSoft (s : State) (cause : Nat) (info : W64) (brk : Bool) : State :=
  let pc := s.strand.pc
  if s.strand.smode then s.takeTrap cause info.toNat
  else (s.retire 1).takeHeld ⟨BitVec.ofNat 8 cause, info, s.curS, pc, brk⟩
/-- The notices that may be delivered now, with the bits of evmask (R451, R453): enabled, to a context with a handler, while a task is
active that does not end. -/
def State.deliverable (s : State) : BitVec 3 :=
  if s.ctx.tvec.getLsbD 0 && s.bank.task.any (·.ending.isNone) then s.ctx.evmask else 0
/-- A notice (R451): delivered, held in evpend while a handler runs or another waits to enter, or discarded. -/
def State.notice (s : State) (cause info : Nat) : State :=
  let n := fin 3 (cause - 0x20)
  if !s.deliverable.getLsbD n.val then s
  else
    let s := s.modBank (·.wake 16)
    if s.bank.trap.handler || s.bank.trap.entry.isSome then
      s.modBank fun b =>
        { b with evpend := b.evpend ||| BitVec.ofNat 3 (2 ^ n.val), evinfo := b.evinfo.set n (BitVec.ofNat 64 info) }
    else
      s.modTrap fun r =>
        { r with entry := some ⟨BitVec.ofNat 8 cause, BitVec.ofNat 64 info, 0, s.bank.strands[0].pc, false⟩ }

/-- What a meaning answers for a stop (log 8): a trap is taken, a strand that is not ready records its wait. -/
def State.stop (s : State) : Stop → Out
  | .trap c i => .next (s.takeTrap c i)
  | .wait w => .next (s.modStrand fun t => { t with wait := w })
  | .halt f => .fault f
/-- A meaning of n parcels that retires sequentially. -/
def State.seq (s : State) (n : Nat) (r : Res State) : Out :=
  match r with
  | .ok t => .next (t.retire n)
  | .error e => s.stop e
/-- A meaning that ends at a PC of its own. -/
def State.done (s : State) (r : Res State) : Out :=
  match r with
  | .ok t => .next t
  | .error e => s.stop e

end Sys2Proof.Machine
end

