-- ==== Sys2Proof/Machine/Access.lean ====
section
/-! DEFINITION. Addresses, translation, regions and the checks of an access (R145 to R166, R509, R540), and what a
load reads and a store writes (R153, R155, R162, R176, R322, R377). -/
namespace Sys2Proof.Machine

/-- The accesses of R166. -/
inductive Acc where | load | store | atom | fetch | maint | own
  deriving DecidableEq, Repr
/-- The access code of R166. -/
def Acc.code : Acc → Nat
  | .load => 1 | .store => 2 | .atom => 3 | .fetch => 4 | .maint => 5 | .own => 6
/-- The info of a memory fault (R166). -/
def infoOf (code addr : Nat) : Nat := code * 2 ^ 56 + addr % 2 ^ 56
/-- A memory fault at an address (R166). -/
def Acc.fault {α : Type} (a : Acc) (cause addr : Nat) : Res α := .error (.trap cause (infoOf a.code addr))
/-- The kind of an address (R145). -/
def kindOf (addr : Nat) : Nat := addr / 2 ^ 52 % 16
/-- An HBM virtual address (R145). -/
def isHbmKind (addr : Nat) : Bool := decide (kindOf addr ≤ 0xB)

/-! ## Translation (R148, R149) -/
/-- A page that a walk or the TLB gives. -/
structure Leaf where
  vbase : Nat
  size  : Nat
  pbase : Nat
  w     : Bool
  x     : Bool
  deriving DecidableEq, Repr
/-- The levels of R148: lowest index bit, index bits, table alignment, leaf page size. -/
def walkLevels : List (Nat × Nat × Nat × Option Nat) :=
  [(43, 13, 2 ^ 16, none), (30, 13, 2 ^ 16, some (2 ^ 30)), (21, 9, 2 ^ 12, some (2 ^ 21)), (16, 5, 2 ^ 12, some (2 ^ 16))]
/-- A walk from a table down (R149). -/
def walkFrom (s : State) (acc : Acc) (va : Nat) : List (Nat × Nat × Nat × Option Nat) → Nat → Res Leaf
  | [], _ => acc.fault causeTranslation va
  | (shift, bits, align, leaf) :: rest, tbl =>
    if Config.hbmBytes ≤ tbl ∨ tbl % align ≠ 0 then acc.fault causeTranslation va
    else
      let ea := tbl + 8 * (va / 2 ^ shift % 2 ^ bits)
      if s.pois ea then .error (.trap causePoison (infoOf 7 ea))
      else
        let e := s.rdN ea 8
        let pa := e / 2 ^ 12 % 2 ^ 36 * 2 ^ 12
        if e % 2 = 0 ∨ e / 2 ^ 48 ≠ 0 ∨ e / 2 ^ 4 % 2 ^ 8 ≠ 0 then acc.fault causeTranslation va
        else if e / 2 % 2 = 1 then
          match leaf with
          | none => acc.fault causeTranslation va
          | some size =>
            if pa % size ≠ 0 ∨ Config.hbmBytes < pa + size then acc.fault causeTranslation va
            else .ok ⟨va / size * size, size, pa, e / 4 % 2 == 1, e / 8 % 2 == 1⟩
        else walkFrom s acc va rest pa
/-- A walk of the tables of a context. -/
def walkOf (s : State) (c : Ctx) (acc : Acc) (va : Nat) : Res Leaf := walkFrom s acc va walkLevels c.pgroot.toNat
/-- Translation on the core: its TLB first (R150, log 14), then a walk. -/
def translate (s : State) (acc : Acc) (va : Nat) : Res Leaf :=
  match s.core.tlb.find? fun e => e.ctx == s.bank.ctx && decide (e.vbase ≤ va) && decide (va < e.vbase + e.size) with
  | some e => .ok ⟨e.vbase, e.size, e.pbase, e.w, e.x⟩
  | none => walkOf s s.ctx acc va
def Leaf.pa (l : Leaf) (va : Nat) : Nat := l.pbase + (va - l.vbase)

/-! ## Regions (R158, R540) -/
/-- A region table entry with its index (R158). -/
structure Region where
  idx  : Nat
  base : Nat
  size : Nat
  kind : Nat
  core : Nat
  peer : Nat
  deriving DecidableEq, Repr
/-- The granule of the space of an address (R158). -/
def granuleOf (addr : Nat) : Nat := if kindOf addr = 15 then 2 ^ 14 else 2 ^ 21
/-- One past the last address of a region. -/
def Region.stop (r : Region) : Nat := r.base + r.size * granuleOf r.base
/-- A valid entry that covers an address (R158). -/
def Region.covers (r : Region) (addr : Nat) : Bool :=
  decide (r.kind ≤ 3) && decide (1 ≤ r.size) && decide (r.base < 2 ^ 56) && decide (r.base ≤ addr) && decide (addr < r.stop)
/-- rtab.BASE and rtab.COUNT (R159). -/
def rtabBase (c : Ctx) : Nat := c.rtab.toNat / 2 ^ 16 % 2 ^ 32 * 2 ^ 16
def rtabCount (c : Ctx) : Nat := c.rtab.toNat % 2 ^ 13
/-- The key of entry i of the region table, through the page tables (R540). -/
def regionKey (s : State) (c : Ctx) (acc : Acc) (addr i : Nat) : Res Nat :=
  let va := rtabBase c + 16 * i
  match walkOf s c acc va with
  | .ok l => if s.pois (l.pa va) then acc.fault causePoison addr else .ok (l.pa va)
  | .error (.trap cause _) => acc.fault cause addr
  | .error e => .error e
/-- Entry i of the region table; a fault carries the access's own address and code (R540). -/
def regionEntry (s : State) (c : Ctx) (acc : Acc) (addr i : Nat) : Res Region :=
  (regionKey s c acc addr i).map fun k =>
    ⟨i, s.rdN k 8, s.rdN (k + 8) 4, s.rdN (k + 12) 1, s.rdN (k + 13) 1, s.rdN (k + 14) 1⟩
/-- The entries that cover an address, read in table order up to the first whose BASE lies above it (log 19). -/
def regionScan (s : State) (c : Ctx) (acc : Acc) (addr : Nat) : Nat → Nat → List Region → Res (List Region)
  | 0, _, found => .ok found
  | n + 1, i, found =>
    match regionEntry s c acc addr i with
    | .error e => .error e
    | .ok r =>
      if addr < r.base then .ok found
      else regionScan s c acc addr n (i + 1) (if r.covers addr then found ++ [r] else found)
/-- The readable entries of the whole table. -/
def regionTable (s : State) (c : Ctx) (acc : Acc) (addr : Nat) : List Region :=
  (List.range (rtabCount c)).filterMap fun i => (regionEntry s c acc addr i).toOption
/-- Whether the BASEs of entries rise, as R158 demands. -/
def basesRise : List Region → Bool
  | r :: q :: t => decide (r.base < q.base) && basesRise (q :: t)
  | _ => true
/-- RegionEntry of R158 for a context. Overlapping entries leave the choice free, and so does a table that is not
sorted: any entry that covers the address, or none (R1, R2, log 19). -/
def regionOf (s : State) (c : Ctx) (acc : Acc) (addr : Nat) : Res (Option Region) :=
  (regionScan s c acc addr (rtabCount c) 0 []).map fun found =>
    let table := regionTable s c acc addr
    let any := fun (l : List Region) => l[Config.freeChoice (s.freeCtr * 2 ^ 64 + addr) % (l.length + 1)]?
    if !basesRise table then any (table.filter (·.covers addr))
    else match found with
      | [] => none
      | [r] => some r
      | l => any l
def regionAt (s : State) (acc : Acc) (addr : Nat) : Res (Option Region) := regionOf s s.ctx acc addr
/-- The change of KIND and CORE that the device writes back (R540). -/
def State.setRegion (s : State) (k kind core : Nat) : State := s.wrs (k + 12) [BitVec.ofNat 8 kind, BitVec.ofNat 8 core]

/-! ## The checks of an access (R147, R160, R163 to R166) -/
/-- Where a part of an access lies. -/
inductive Space where | hbm | vault (core : Fin 256) | host | control
  deriving DecidableEq, Repr
/-- A checked part: its address and length, the key of its first byte and its region's kind (4 for a slot, R447). -/
structure Piece where
  va    : Nat
  len   : Nat
  key   : Nat
  space : Space
  kind  : Nat
  deriving DecidableEq, Repr
/-- Whether a part has bytes in a line. -/
def Piece.inLine (p : Piece) (l : Nat) : Bool := decide (p.key / 128 ≤ l) && decide (l ≤ (p.key + p.len - 1) / 128)
/-- What an access asks for. An engine's accesses need no alignment by themselves (R289). -/
structure Ask where
  acc     : Acc
  ea      : Nat
  len     : Nat
  align   : Nat := 1
  ordered : Bool := false
  op      : Option AtomOp := none
  engine  : Bool := false
  deriving DecidableEq, Repr
/-- Whether a vault address names a core of the partition (R146, R520, R388). -/
def vaultOk (s : State) (addr : Nat) : Bool :=
  addr / 2 ^ 33 % 2 ^ 19 == 0 && decide (addr / 2 ^ 24 % 2 ^ 9 < 256) &&
    (let c := s.cores[fin 256 (addr / 2 ^ 24)]
     !c.vaultGone && c.vaultPart.isSome && c.vaultPart == s.core.part)
/-- The ill-formed addresses of R147. -/
def illFormed (s : State) (engine : Bool) (addr : Nat) : Bool :=
  addr / 2 ^ 56 != 0 || kindOf addr == 13 || (kindOf addr == 14 && (engine || !s.strand.smode))
    || (kindOf addr == 15 && !vaultOk s addr)
/-- The core's own slot for a strand in S mode (R447). -/
def ownSlot (s : State) (engine : Bool) (addr len : Nat) : Bool :=
  !engine && s.strand.smode && s.ctx.saveBase != 0 && decide (s.slot ≤ addr) && decide (addr + len ≤ s.slot + Config.slotBytes)
/-- A host window entry (R509). -/
structure Window where
  haddr : Nat
  size  : Nat
  vaddr : Nat
  flags : Nat
  deriving DecidableEq, Repr
def windowOf (s : State) (p : Fin 16) (w : Nat) : Window :=
  let k := partKey p.val (0x11000 + 32 * w)
  ⟨s.rdN k 8, s.rdN (k + 8) 8, s.rdN (k + 16) 8, s.rdN (k + 24) 1⟩
/-- The ops a host window supports (R170). -/
def hostOp : AtomOp → Bool
  | .add | .swap | .cas => true
  | _ => false
/-- A part in a host window (R509): the key of its first byte. -/
def windowKey (s : State) (q : Ask) (addr len : Nat) : Option Nat :=
  match s.core.part with
  | none => none
  | some p =>
    let w := windowOf s p (addr / 2 ^ 40 % 256)
    let off := addr % 2 ^ 40
    let right := match q.acc with
      | .load | .fetch | .maint | .own => w.flags / 2 % 2
      | .store => w.flags / 4 % 2
      | .atom => w.flags / 8 % 2
    if addr / 2 ^ 48 % 16 ≠ 0 ∨ w.flags % 2 = 0 ∨ w.size < off + len ∨ right = 0 ∨ !(q.op.all hostOp) then none
    else some (hostKey (w.haddr + off))
/-- The cause that the table of R160 gives an access to a region; none when it is allowed. -/
def regionCause (s : State) (q : Ask) (r : Option Region) : Option Nat :=
  match r with
  | none => some causeOwnership
  | some r =>
    let own := r.core == s.cur.val
    match r.kind with
    | 0 => if own then none else some causeOwnership
    | 1 => match q.acc with
      | .load | .fetch => none
      | _ => some causeOwnership
    | 2 => match q.acc with
      | .atom => none
      | .load | .store => if q.ordered then none else some causeOwnership
      | _ => some causeOwnership
    | _ => match q.acc with
      | .fetch => some causeOwnership
      | _ => some causeRing
/-- Whether the strands and engines of the core find the block of a key poisoned: the task's version first
(R155, R165). -/
def poisSeen (s : State) (k : Nat) : Bool :=
  match s.bank.task.bind fun t => t.verPois.find? (·.1 == k / 32) with
  | some e => e.2
  | none => s.pois k
/-- Whether a message travels on the A plane (R316, R318). -/
def Msg.onA (m : Msg) : Bool := decide (16 ≤ m.kind.toNat)
/-- A store of a strand that is not yet acknowledged: a write, an ordered access or a control-space access. -/
def Msg.isStore (m : Msg) : Bool := m.strand.isSome && !m.echo && (m.kind == 1 || m.kind == 2 || m.kind == 6)
/-- The core's store messages (R178, R322). -/
def State.stores (s : State) : List Msg := s.dev.fab.net.filter fun m => m.isStore && m.src == s.cur
/-- The latest of some stores that covers a key. -/
def latestAt (l : List Msg) (k : Nat) : Option Msg := (l.filter fun m => decide (m.addr ≤ k) && decide (k < m.addr + m.data.length)).getLast?
/-- The byte that the core's store buffer holds at a key: that of its latest store which is not performed (R182). -/
def State.buffered (s : State) (k : Nat) : Option Byte :=
  match latestAt (s.stores.filter (·.st != .performed)) k with
  | some m => m.data[k - m.addr]?
  | none => none
/-- The byte that the latest unacknowledged store of the core has for a key (R322). Once that store is performed, it is good as
long as its home still holds it: a later write that stands there may have to be read (R188, log 10). -/
def State.unacked (s : State) (k : Nat) : Option Byte :=
  match latestAt s.stores k with
  | some m => (m.data[k - m.addr]?).filter fun b => m.st != .performed || b == s.rd k
  | none => none
/-- The first byte of a range whose block counts as poisoned for an access (R165): a store that covers a whole block
never does, and a block that buffered stores of the core cover whole is no longer poisoned for it (R182). -/
def poisonIn (s : State) (store : Bool) (key len : Nat) : Option Nat :=
  (keysFrom key len).find? fun k =>
    poisSeen s k && !(store && decide (key ≤ k / 32 * 32) && decide (k / 32 * 32 + 32 ≤ key + len))
      && !((keysFrom (k / 32 * 32) 32).all fun j => (s.buffered j).isSome)
/-- The part of an access that starts at `addr`, checked in the order of R166. -/
def checkPart (s : State) (q : Ask) (addr len : Nat) : Res Piece :=
  let kind := kindOf addr
  let vault := kind == 15
  let fault := fun (cause : Nat) => (q.acc.fault cause addr : Res Piece)
  if illFormed s q.engine addr || (q.acc == .fetch && !isHbmKind addr) then fault causeProtection
  else
    let pois := fun (p : Piece) =>
      match (if q.engine || p.space == .host || p.space == .control then none else poisonIn s (q.acc == .store) p.key len) with
      | some k => q.acc.fault causePoison (addr + (k - p.key))
      | none => .ok p
    if kind = 14 then
      if q.ea % q.len ≠ 0 ∨ q.len ≠ 8 then fault causeMisaligned
      else if addr / 2 ^ 20 % 2 ^ 32 ≠ 0 then fault causeProtection
      else match s.core.part with
        | some p => .ok ⟨addr, len, partKey p.val (addr % 2 ^ 20), .control, 0⟩
        | none => fault causeProtection
    else if kind = 12 then
      if (q.engine = false ∧ q.ea % q.len ≠ 0) ∨ q.ea % q.align ≠ 0 then fault causeMisaligned
      else match windowKey s q addr len with
        | some k => .ok ⟨addr, len, k, .host, 0⟩
        | none => fault causeProtection
    else if ownSlot s q.engine addr len then
      if q.ea % q.align ≠ 0 then fault causeMisaligned
      else match translate s q.acc addr with
        | .error e => .error e
        | .ok l =>
          if ((q.acc == .store || q.acc == .atom) && !l.w) || (q.acc == .fetch && !l.x) then fault causeProtection
          else pois ⟨addr, len, l.pa addr, .hbm, 4⟩
    else
      let region := regionAt s q.acc addr
      let commons := match region with
        | .ok (some r) => r.kind == 2
        | _ => false
      if q.ea % q.align ≠ 0 ∨ (commons = true ∧ q.engine = false ∧ q.ea % q.len ≠ 0) then fault causeMisaligned
      else
        let place : Res (Nat × Space × Bool × Bool) :=
          if vault then
            let c := fin 256 (addr / 2 ^ 24)
            .ok (vaultKey c.val (addr % 2 ^ 24), .vault c, true, true)
          else (translate s q.acc addr).map fun l => (l.pa addr, .hbm, l.w, l.x)
        match place, region with
        | .error e, _ => .error e
        | .ok (key, space, w, x), region =>
          if ((q.acc == .store || q.acc == .atom) && !w) || (q.acc == .fetch && !x) then fault causeProtection
          else match region with
            | .error e => .error e
            | .ok r =>
              match regionCause s q r with
              | some cause => fault cause
              | none => pois ⟨addr, len, key, space, (r.map (·.kind)).getD 0⟩
/-- The parts of an access, lowest address first: it is cut at 16 KiB boundaries, which every page, region, vault and
kind boundary is (R164). -/
def partsOf (ea len : Nat) : List (Nat × Nat) :=
  let room := 2 ^ 14 - ea % 2 ^ 14
  if len ≤ room then [(ea, len)]
  else if ea + len ≤ 2 ^ 64 then [(ea, room), (ea + room, len - room)]
  else [(ea + len - 2 ^ 64 - (len - room), len - room), (ea, room)]
/-- An access checked in each part (R164); the parts come back in the order of the access's bytes. -/
def checkAll (s : State) (q : Ask) : Res (List Piece) :=
  match partsOf q.ea q.len with
  | [(a, n)] => (checkPart s q a n).map fun p => [p]
  | [(a, n), (b, m)] =>
    match checkPart s q a n with
    | .error e => .error e
    | .ok p => (checkPart s q b m).map fun r => if a = q.ea then [p, r] else [r, p]
  | _ => .ok []

/-! ## The core's store messages (R178, R322) -/
/-- Whether a store of the core numbered below a bound is not performed. A release covers what its strand acquired
from the other strands of the core, whose stores it therefore waits for too (R187, R188). -/
def State.pendingBelow (s : State) (n : Nat) : Bool := s.stores.any fun m => decide (m.id < n) && m.st != .performed
/-- The stores that a release waits for: those before its first attempt. -/
def State.releaseBound (s : State) : Nat := match s.strand.wait with
  | .drain n => n
  | _ => s.dev.fab.nextMsg
/-- A release that is performed where it issues waits for those stores (R184, R187). -/
def State.released (s : State) : Res State :=
  if s.pendingBelow s.releaseBound then .error (.wait (.drain s.releaseBound)) else .ok s
/-- The entries of the store buffer in use: one per store, which its messages share as `ref`. -/
def State.bufferUsed (s : State) : Nat := (distinct (s.stores.map (·.ref))).length
def Msg.meets (m : Msg) (key len : Nat) : Bool := decide (key < m.addr + m.data.length) && decide (m.addr < key + len)
/-- Memory, engine and synchronisation instructions wait behind a fence (R171). -/
def State.fenceHold (s : State) : Bool := s.pendingBelow s.strand.fence
def State.clearFence (s : State) : State := s.modStrand fun t => { t with fence := 0 }

/-! ## What the core sees (R154, R155, R182) -/
/-- One byte as the strands and engines of the core see it: the data cache, the task's version, memory. -/
def State.seen (s : State) (k : Nat) : Byte :=
  match ovGet s.core.dirty k with
  | some b => b
  | none =>
    match s.bank.task.bind fun t => ovGet t.version k with
    | some b => b
    | none => s.rd k
/-- The launches of a partition that wait: their context runs another, or an earlier one of it stands before them (R359). One that
could start at once does not wait (log 38). -/
def State.waitCount (s : State) (p : Fin 16) : Nat :=
  let ctx := fun (r : BitVec 512) => fld r 28 2
  let l := (s.part p).waiting
  (l.zipIdx.filter fun x => (s.ctxs.any fun c => c.id.toNat == ctx x.1 && c.launch.isSome) || (l.take x.2).any fun y => ctx y == ctx x.1).length
/-- A read of the partition's block by 8-byte word, as the host reads it (R508, R510, R511). -/
def State.partWord (s : State) (p : Fin 16) (off : Nat) : Nat :=
  if off = 0x10000 then s.waitCount p % 32
  else if off = 0x10300 then 0
  else if off = 0x10308 then bit (s.part p).busy * 2 ^ 63 + (s.part p).result.toNat
  else s.rdN (partKey p.val off) 8
/-- The bytes of a checked part: while it overlaps an unacknowledged store, from the store buffer when that holds them all, and held
otherwise (R322). An acquire of a COMMONS location is held until such a store is performed, since a COMMONS write becomes visible to
every agent at one moment (R189, log 10); and a read of the partition's block, which answers as the host's would (R510), is held too. -/
def State.loadPiece (s : State) (acq : Bool) (p : Piece) : Res (List Byte) :=
  let keys := keysFrom p.key p.len
  let met := s.stores.filter fun m => m.meets p.key p.len
  if !met.isEmpty then
    let held := keys.filterMap s.unacked
    if p.space == .control || (acq && p.kind == 2 && met.any (·.st != .performed)) || held.length != p.len then .error (.wait .other)
    else .ok held
  else
    match p.space, s.core.part with
    | .control, some part => .ok (toLe 8 (s.partWord part (p.va % 2 ^ 20)))
    | .host, _ => .ok (keys.map s.rd)
    | _, _ => .ok (keys.map s.seen)
def State.loadAll (s : State) (acq : Bool) : List Piece → Res (List Byte)
  | [] => .ok []
  | p :: t =>
    match s.loadPiece acq p with
    | .error e => .error e
    | .ok b => (s.loadAll acq t).map (b ++ ·)

/-! ## Versions (R155, R377) -/
/-- The number of 128-byte lines that a range touches. -/
def lineCount (a len : Nat) : Nat := if len = 0 then 0 else (a + len - 1) / 128 - a / 128 + 1
/-- The 128-byte lines that an overlay touches. -/
def linesOf (o : List Host.Cell) : List Nat := distinct (o.map fun c => c.1 / 128)
/-- The set of a line: one of the 512 of its home slice (R15, R151, log 13). -/
def setOf (line : Nat) : Nat := channelOf (line * 128) * 512 + Config.sliceSet line % 512
/-- The tasks that a bank holds: those whose strands have ended, then the active one. -/
def Bank.tasks (b : Bank) : List Task := b.tail ++ b.task.toList
/-- The bank that a shadow bank holds, if any. -/
def Shadow.bank : Shadow → Option Bank
  | .filled b _ => some b
  | .unspilled b => some b
  | _ => none
/-- The banks that hold the state of a context: on its cores, in their shadow banks, and saved. -/
def State.banksOf (s : State) (id : BitVec 12) : List Bank :=
  (s.cores.toList.flatMap fun c => (c.bank :: c.shadow.bank.toList).filter fun b => b.loaded && b.ctx == id) ++ (s.ctxOf id).saved.map (·.2)
/-- The lines that the tasks of a context hold in their versions, wherever the tasks are (R377). -/
def State.versionLines (s : State) (id : BitVec 12) : List Nat := (s.banksOf id).flatMap fun b => b.tasks.flatMap fun t => linesOf t.version
/-- The lines that the active task of a core holds: those of its version, and those that are dirty in the data cache, each of which is
to be written back to it. -/
def Core.held (c : Core) : List Nat :=
  match c.bank.task with
  | none => []
  | some t => linesOf t.version ++ linesOf c.dirty
/-- The lines of a task that lie in a way of their set, and those that spilled. -/
def Task.inWays (t : Task) : List Nat := (linesOf t.version).filter fun l => !t.spill.any (· == l)
def Task.spilled (t : Task) : List Nat := (linesOf t.version).filter fun l => t.spill.any (· == l)
/-- The dirty lines of a core that are in no version yet: they lie in a way, or have spilled. -/
def Core.pending (c : Core) (spilt : Bool) : List Nat :=
  match c.bank.task with
  | none => []
  | some t => (linesOf c.dirty).filter fun l => !(linesOf t.version).any (· == l) && t.spill.any (· == l) == spilt
/-- The lines of the device that hold a version in a way of their set, those of every context (R377). -/
def State.wayLines (s : State) : List Nat :=
  (s.cores.toList.flatMap fun c => c.pending false ++ (c.bank :: c.shadow.bank.toList).flatMap fun b => b.tasks.flatMap Task.inWays)
    ++ s.ctxs.flatMap fun x => x.saved.flatMap fun e => e.2.tasks.flatMap Task.inWays
/-- The spilled lines of a context (R377, R400). A line that has spilled stays there as long as its task holds it (DESIGN CHOICE, log
13: the spec moves none back). -/
def State.spilledLines (s : State) (id : BitVec 12) : Nat :=
  ((s.banksOf id).flatMap fun b => b.tasks.flatMap Task.spilled).length
    + (s.cores.toList.flatMap fun c => if c.bank.loaded && c.bank.ctx == id then c.pending true else []).length
/-- Those of some new lines that spill, in order: a set has 4 ways for versions (R377). -/
def spills (ways : List Nat) : List Nat → List Nat
  | [] => []
  | l :: t => if decide (4 ≤ ways.length) && decide (4 ≤ (ways.filter fun w => setOf w == setOf l).length) then l :: spills ways t else spills (l :: ways) t
/-- The lines of a write that the active task does not hold yet. -/
def State.newLines (s : State) (key len : Nat) : List Nat :=
  distinct ((keysFrom key len).map (· / 128)) |>.filter fun l => !s.core.held.any (· == l)
/-- A versioned write of bytes at an HBM key needs room in vovf.SIZE MiB of overflow area for the lines that spill (R377, R399);
otherwise VERSION_OVERFLOW with the address. -/
def versionRoom (s : State) (key len : Nat) : Bool :=
  match s.bank.task with
  | none => true
  | some _ =>
    let out := spills s.wayLines (s.newLines key len)
    out.isEmpty || decide (s.spilledLines s.bank.ctx + out.length ≤ s.ctx.vovf.toNat / 2 ^ 8 % 2 ^ 12 * 8192)
/-- The active task comes to hold the lines of a write (R377). -/
def State.noteLines (s : State) (key len : Nat) : State :=
  let new := s.newLines key len
  let out := spills s.wayLines new
  s.modTask fun t => { t with spill := out ++ t.spill.filter fun l => !new.any (· == l) }
/-- The blocks that a write covers whole lose their poison in the version (R165). -/
def verClean (key len : Nat) (vp : List (Nat × Bool)) (was : Nat → Bool) : List (Nat × Bool) :=
  let b0 := (key + 31) / 32
  let full := (List.range ((key + len) / 32 - b0)).map (b0 + ·)
  (full.filter was).map (·, false) ++ vp.filter fun e => !(full.any (· == e.1))
/-- Bytes into the version of the task; without a task, into memory. -/
def State.verWrite (s : State) (key : Nat) (d : List Byte) : State :=
  match s.bank.task with
  | none => s.wrClean key d
  | some _ =>
    let was := fun b => s.pois (b * 32)
    (s.noteLines key d.length).modTask fun t => { t with version := ovSets t.version key d, verPois := verClean key d.length t.verPois was }
/-- The dirty bytes of the core's data cache in some lines go to the version (R155). The lines stay valid (R174). -/
def State.writeBack (s : State) (inLines : Nat → Bool) : State :=
  let out := s.core.dirty.filter fun c => inLines (c.1 / 128)
  let s : State := match s.bank.task with
    | none => out.foldr (fun c (s : State) => s.wr c.1 c.2) s
    | some _ => s.modTask fun t => { t with version := out.foldr (fun c o => ovSet o c.1 c.2) t.version }
  s.modCore fun c =>
    { c with dirty := (c.dirty.filter fun x => !inLines (x.1 / 128)), clean := distinct (linesOf (c.dirty.filter fun x => inLines (x.1 / 128)) ++ c.clean) }
/-- Some lines that are not dirty leave the data cache (R153). -/
def State.dropLines (s : State) (inLines : Nat → Bool) : State :=
  s.modCore fun c => { c with clean := c.clean.filter fun l => !inLines l }
/-- Some lines are written back if they are dirty, and then invalidated (R153, R154, R174). -/
def State.expel (s : State) (inLines : Nat → Bool) : State := (s.writeBack inLines).dropLines inLines
/-- The lines that the data cache holds. -/
def Core.cached (c : Core) : List Nat := distinct (linesOf c.dirty ++ c.clean)
/-- A line is to come into the data cache: of the 128 sets of 4 ways, its own gives up a free one of four other lines (R153, log
12). -/
def State.cacheRoom (s : State) (line : Nat) : State :=
  let set := s.core.cached.filter fun l => l % 128 == line % 128
  if set.length < 4 || set.any (· == line) then s
  else
    let victim := set.getD (Config.freeChoice (s.freeCtr * 2 ^ 64 + line) % 4) line
    s.expel fun l => l == victim
/-- A line that the core may cache comes into its data cache, as a task's load that misses allocates it (R153). Its bytes are those of
its home, so a line that is not dirty needs none of its own (log 12). -/
def State.cacheFill (s : State) (line : Nat) : State :=
  if s.bank.task.isNone || s.core.cached.any (· == line) then s
  else (s.cacheRoom line).modCore fun c => { c with clean := line :: c.clean }
/-- The lines of a part that the core may cache: of HBM regions that it owns or that are SHARED-RO (R153). -/
def Piece.cacheLines (p : Piece) : List Nat :=
  if p.space = .hbm ∧ p.kind ≤ 1 then (List.range (lineCount p.key p.len)).map (p.key / 128 + ·) else []
/-- A plain store to OWNED HBM goes to the data cache (R153). -/
def State.cacheWrite (s : State) (key : Nat) (d : List Byte) : State :=
  match s.bank.task with
  | none => s.wrClean key d
  | some _ =>
    let s := (distinct ((keysFrom key d.length).map (· / 128))).foldl State.cacheRoom (s.noteLines key d.length)
    let was := fun b => s.pois (b * 32)
    let mine := fun (l : Nat) => decide (key / 128 ≤ l) && decide (l ≤ (key + d.length - 1) / 128)
    ((s.dropLines mine).modCore fun c => { c with dirty := ovSets c.dirty key d }).modTask fun t =>
      { t with verPois := verClean key d.length t.verPois was }
/-- The parameter blocks that a strand's store overlaps leave the cache (R287). -/
def State.dropBlocks (s : State) (va len : Nat) : State :=
  s.modCore fun c =>
    { c with pbc := c.pbc.filter fun e => !(e.1 == s.bank.ctx && decide (va < e.2.1.toNat + 128) && decide (e.2.1.toNat < va + len)) }

/-- Where a write to a partition block has an effect (R508, R511): the launch window, the time-slice list, the event
ring, the host window table and the context records. Every other offset ignores it. -/
def blockHolds (off : Nat) : Bool :=
  decide (off < 0x10000) || (decide (0x10100 ≤ off) && decide (off < 0x10200)) || (decide (0x10200 ≤ off) && decide (off < 0x10218))
    || (decide (0x11000 ≤ off) && decide (off < 0x13000)) || (decide (0x20000 ≤ off) && decide (off < 0x30000))
/-- The version counter of a window that an entry with V = 1 loads from VADDR (R509). -/
def State.loadCounter (s : State) (p : Fin 16) (w : Nat) : State :=
  let e := windowOf s p w
  if e.flags % 2 = 1 then
    let v : W64 := BitVec.ofNat 64 (s.rdN (hostKey e.vaddr) 8)
    s.modPart p fun x => { x with versions := (BitVec.ofNat 8 w, v) :: x.versions.filter (·.1 != BitVec.ofNat 8 w) }
  else s
/-- A host write of 8 bytes to a partition block, but for the submit and command registers (R508, R509). -/
def State.partWrite (s : State) (p : Fin 16) (off : Nat) (v : W64) : State :=
  if !blockHolds off then s
  else
    let s := s.wrs (partKey p.val off) (toLe 8 v.toNat)
    if 0x11000 ≤ off ∧ off < 0x13000 then s.loadCounter p ((off - 0x11000) / 32) else s
/-- A control-space write of a strand: the submit register, the command register and the time-slice list ignore it
(R510). -/
def State.controlWrite (s : State) (p : Fin 16) (off : Nat) (v : W64) : State :=
  if 0x10000 ≤ off ∧ off < 0x10200 then s else s.partWrite p off v

/-! ## Energy of an access (R492, R493, R498) -/
/-- A vault access of some bytes. -/
def vaultUnits (bytes : Nat) : Nat := 4 * ((bytes + 1023) / 1024)
/-- A charge to an account of a context (0 core, 1 matrix, 2 fabric, 3 memory), and to the draw of the core that asks. -/
def State.chargeTo (s : State) (id : BitVec 12) (c : Fin 256) (account : Fin 4) (units : Nat) : State :=
  (s.modCtxOf id fun x => { x with ectx := x.ectx.set account (x.ectx[account] + BitVec.ofNat 64 units) }).on c fun s =>
    s.modCore fun k => { k with draw := k.draw + units }
/-- A charge to an account of the context on the core. -/
def State.charge (s : State) (account : Fin 4) (units : Nat) : State := s.chargeTo s.bank.ctx s.cur account units
/-- A charge to the system account. -/
def State.chargeSys (s : State) (units : Nat) : State :=
  s.modDev fun d =>
    { d with power := { d.power with sysAcct := d.power.sysAcct + BitVec.ofNat 64 units, sysDraw := d.power.sysDraw + units } }
/-- A charge to the memory account: of a context, with the draw at the core that asks, or of the system where no context does (R493,
R498). -/
def State.payMem (s : State) (id : Option (BitVec 12)) (c : Option (Fin 256)) (units : Nat) : State :=
  match id, c with
  | some id, some c => s.chargeTo id c 3 units
  | some id, none => (s.modCtxOf id fun x => { x with ectx := x.ectx.set 3 (x.ectx[3] + BitVec.ofNat 64 units) }).modDev fun d =>
      { d with power := { d.power with ctxDraw := d.power.ctxDraw + units } }
  | none, _ => s.chargeSys units

/-! ## Sending -/
/-- A message enters the fabric's list with a number of its own (log 15). -/
def State.send (s : State) (m : Nat → Msg) : State :=
  s.modFab fun f => { f with net := f.net ++ [m f.nextMsg], nextMsg := f.nextMsg + 1 }
/-- A message of the issuing strand with nothing in it. -/
def State.msg0 (s : State) (kind : Nat) (dst : Fin 256) (id : Nat) : Msg where
  id := id
  kind := BitVec.ofNat 5 kind
  src := s.cur
  dst := dst
  strand := some s.curS
  ctx := s.bank.ctx
  task := (s.bank.task.map (·.id)).getD 0
  addr := 0
  data := []
  rel := false
  scope := .dev
  ref := id
  count := 0
  err := false
  st := .queued
  tag := none
  qtrk := none
  pois := []
  rh := 0
  form := (0, 0)
  echo := false
/-- A range cut at the boundaries of its single-copy atomic blocks (R162). -/
def blocksOf (b : Nat) : Nat → Nat → List Byte → List (Nat × List Byte)
  | 0, _, _ => []
  | n + 1, key, d =>
    match d with
    | [] => []
    | _ => (key, d.take (b - key % b)) :: blocksOf b n (key + (b - key % b)) (d.drop (b - key % b))
/-- The store messages of one part (R162, R318). -/
def State.sendStore (s : State) (kind : Nat) (dst : Fin 256) (key : Nat) (d : List Byte) (rel : Bool) (scope : Scope) (rh : BitVec 2)
    (ref : Nat) : State :=
  (blocksOf (if key < 2 ^ 48 then 32 else 64) (d.length + 1) key d).foldl (fun s b =>
    s.send fun id => { s.msg0 kind dst id with addr := b.1, data := b.2, rel := rel, scope := scope, rh := rh, ref := ref }) s
/-- The task made an escaping access (R161). -/
def State.escape (s : State) : State := s.modTask fun t => { t with escaped := true }
/-- Whether a scope reaches beyond the strands of the core, so that a release waits for the store buffer (R180, R182). -/
def wideScope : Scope → Bool
  | .strand | .core => false
  | _ => true
/-- One part of a store takes its effect (R153, R155, R160, R176, R318). A vault access ignores its hint (R152). -/
def State.storePiece (s : State) (p : Piece) (d : List Byte) (ordered rel : Bool) (scope : Scope) (rh : BitVec 2) (ref : Nat) : State :=
  match p.space with
  | .host => s.modTask fun t => { t with hostQ := t.hostQ ++ [.write (BitVec.ofNat 64 (p.key - 2 ^ 64)) d] }
  | .control => s.send fun id => { s.msg0 6 s.cur id with addr := p.key, data := d, rel := rel, scope := scope, ref := ref }
  | .vault c =>
    let s := if p.kind = 2 then s.escape else s
    s.sendStore (if ordered then 2 else 1) c p.key d rel scope 0 ref
  | .hbm =>
    if p.kind = 4 then s.wrClean p.key d
    else if p.kind = 2 then s.escape.sendStore 2 (fin 256 (channelOf p.key)) p.key d rel scope rh ref
    else if ordered then (s.expel p.inLine).verWrite p.key d
    else s.cacheWrite p.key d
def State.storeParts (s : State) (ordered rel : Bool) (scope : Scope) (rh : BitVec 2) (ref : Nat) : List Piece → List Byte → State
  | [], _ => s
  | p :: t, d =>
    (((s.storePiece p (d.take p.len) ordered rel scope rh ref).dropBlocks p.va p.len).storeParts ordered rel scope rh ref t
      (d.drop p.len))
/-- The part of a store that needs room in the version and finds none (R377). -/
def overflowOf (s : State) (ps : List Piece) : Option Nat :=
  (ps.find? fun p => p.space == .hbm && p.kind == 0 && !versionRoom s p.key p.len).map (·.va)

/-! ## Loads and stores (R167 to R169, R184) -/
/-- A load: its bytes as a number (R166, R184). An acquire needs no more here: a load is one step (log 11). -/
def State.load (s : State) (ea : W64) (len align : Nat) (x : XM) : Res Nat :=
  if s.fenceHold then .error (.wait .other)
  else
    let ordered := x.ord != .plain
    match checkAll s { acc := .load, ea := ea.toNat, len := len, align := if ordered then len else align, ordered := ordered } with
    | .error e => .error e
    | .ok ps => (s.loadAll (x.ord == .acq) ps).map leNat
/-- What a load does besides reading: a plain one brings its lines into the data cache, and an ordered one takes the line out of it
(R153) and may escape (R161). -/
def State.loadNote (s : State) (ea : W64) (len : Nat) (x : XM) : State :=
  let s := s.clearFence
  let ordered := x.ord != .plain
  match checkAll s { acc := .load, ea := ea.toNat, len := len, align := if ordered then len else 1, ordered := ordered } with
  | .ok ps => ps.foldl (fun s p =>
      if !ordered then p.cacheLines.foldl State.cacheFill s
      else
        let s := if p.kind = 2 then s.escape else s
        if p.space = .hbm then s.expel p.inLine else s) s
  | .error _ => s
/-- A store of bytes (R166, R178, R184, R377). -/
def State.store (s : State) (ea : W64) (d : List Byte) (align : Nat) (x : XM) : Res State :=
  if s.fenceHold then .error (.wait .other)
  else
    let s := s.clearFence
    let ordered := x.ord != .plain
    let rel := (x.ord == .rel || x.ord == .ar) && wideScope x.scope
    match checkAll s { acc := .store, ea := ea.toNat, len := d.length, align := if ordered then d.length else align, ordered := ordered } with
    | .error e => .error e
    | .ok ps =>
      match overflowOf s ps with
      | some a => .error (.trap causeVersion a)
      | none =>
        if Config.storeBuffer ≤ s.bufferUsed then .error (.wait .other)
        else if rel && s.pendingBelow s.releaseBound && ps.any (fun p => p.space == .hbm && p.kind != 2) then
          .error (.wait (.drain s.releaseBound))
        else .ok (s.storeParts ordered rel x.scope x.rh s.dev.fab.nextMsg ps d)

end Sys2Proof.Machine
end

