-- ==== Sys2Proof/Machine/Compress.lean ====
section
/-! DEFINITION. The memory-side slices (R152), the coding of the lines that they evict (R333 to R335), HBM_FILL, and
TABLE_WALK (R149, R150). -/
namespace Sys2Proof.Machine

/-! ## The codings of R334 -/
/-- The 32 words, 64 halfwords and 128 bytes of a line. -/
def lineWord (l : List Byte) (i : Nat) : Nat := leNat ((l.drop (4 * i)).take 4)
def lineHalf (l : List Byte) (i : Nat) : Nat := leNat ((l.drop (2 * i)).take 2)
/-- The deltas of a base-delta coding, when each is the sign extension of n bytes. -/
def deltas (l : List Byte) (n : Nat) : Option (List Nat) :=
  let d := (List.range 32).map fun i => Num.wrap 32 ((lineWord l i : Int) - lineWord l 0)
  if d.all fun x => Num.wrap 32 (Num.sint (8 * n) x) == x then some (d.map (· % 2 ^ (8 * n))) else none
/-- The smallest k of 2, 4 and 6 for which every byte fits k bits. -/
def planesOf (l : List Byte) : Option Nat :=
  [2, 4, 6].find? fun k => l.all fun b => decide (-(2 ^ (k - 1) : Int) ≤ Num.sint 8 b.toNat) && decide (Num.sint 8 b.toNat < (2 ^ (k - 1) : Int))
/-- A list of numbers in increasing order. -/
def insertNat (x : Nat) : List Nat → List Nat
  | [] => [x]
  | y :: t => if x ≤ y then x :: y :: t else y :: insertNat x t
/-- The exponent fields of the halfwords, in increasing order. -/
def exponents (l : List Byte) : List Nat :=
  (distinct ((List.range 64).map fun i => lineHalf l i / 2 ^ 7 % 2 ^ 8)).foldr insertNat []
/-- A number as the bytes of n sectors of 32 bytes. -/
def sectors (n v : Nat) : List Byte := toLe (32 * n) v
/-- The form of a line under a selector: its sectors and bytes; none when the coding does not apply. -/
def codeLine (l : List Byte) (sel : Nat) : Option (Nat × List Byte) :=
  let w0 := lineWord l 0
  match sel with
  | 0 => some (4, l)
  | 1 => if l.all (· == 0) then some (1, sectors 1 0) else none
  | 2 => if (List.range 32).all fun i => lineWord l i == w0 then some (1, sectors 1 w0) else none
  | 3 => (deltas l 1).map fun d => (2, (toLe 4 w0 ++ d.flatMap (toLe 1) ++ List.replicate 28 0))
  | 4 => (deltas l 2).map fun d => (3, (toLe 4 w0 ++ d.flatMap (toLe 2) ++ List.replicate 28 0))
  | 5 => (planesOf l).map fun k =>
      let plane := fun (j : Nat) => (List.range 128).foldl (fun v i => v + (l.getD i 0).toNat / 2 ^ j % 2 * 2 ^ i) 0
      (k / 2, (List.range k).flatMap fun j => toLe 16 (plane j))
  | 6 =>
    let e := exponents l
    if 4 < e.length then none
    else
      let dict := e ++ List.replicate (4 - e.length) (e.getLastD 0)
      let code := fun (i : Nat) =>
        let h := lineHalf l i
        h / 2 ^ 15 * 2 ^ 9 + (e.findIdx (· == h / 2 ^ 7 % 2 ^ 8)) * 2 ^ 7 + h % 2 ^ 7
      some (3, sectors 3 (leNat (dict.flatMap (toLe 1)) + 2 ^ 32 * (List.range 64).foldl (fun v i => v + code i * 2 ^ (10 * i)) 0))
  | _ => none
/-- The coding that a slice keeps: the fewest sectors, then the lowest selector (R333). -/
def bestCode (l : List Byte) : Nat × Nat × List Byte :=
  ((List.range 7).filterMap fun sel => (codeLine l sel).map fun c => (sel, c)).foldl (fun best c => if c.2.1 < best.2.1 then c else best) (0, 4, l)
/-- The NS values that a selector allows (R335). -/
def nsAllowed (sel ns : Nat) : Bool :=
  match sel with
  | 0 => ns == 4
  | 1 | 2 => ns == 1
  | 3 => ns == 2
  | 5 => decide (1 ≤ ns) && decide (ns ≤ 3)
  | 4 | 6 => ns == 3
  | _ => false
/-- The line that a form decodes to; none is a decode failure. -/
def decodeLine (sel ns : Nat) (d : List Byte) : Option (List Byte) :=
  if !nsAllowed sel ns then none
  else
    let w0 := leNat (d.take 4)
    let words := fun (f : Nat → Nat) => (List.range 32).flatMap fun i => toLe 4 (f i)
    match sel with
    | 0 => some (d.take 128)
    | 1 => some (List.replicate 128 0)
    | 2 => some (words fun _ => w0)
    | 3 => some (words fun i => Num.wrap 32 (w0 + Num.sint 8 (leNat ((d.drop (4 + i)).take 1))))
    | 4 => some (words fun i => Num.wrap 32 (w0 + Num.sint 16 (leNat ((d.drop (4 + 2 * i)).take 2))))
    | 5 => some ((List.range 128).map fun i =>
        let v := (List.range (2 * ns)).foldl (fun v j => v + (d.getD (16 * j + i / 8) 0).toNat / 2 ^ (i % 8) % 2 * 2 ^ j) 0
        BitVec.ofNat 8 (Num.wrap 8 (Num.sint (2 * ns) v)))
    | _ => some ((List.range 64).flatMap fun i =>
        let c := leNat (d.drop 4) / 2 ^ (10 * i) % 2 ^ 10
        toLe 2 (c / 2 ^ 9 * 2 ^ 15 + (d.getD (c / 2 ^ 7 % 4) 0).toNat * 2 ^ 7 + c % 2 ^ 7))

/-! ## HBM_FILL (R152, R333) -/
/-- The lines of the set of a line, the next victim first. -/
def State.setLines (s : State) (line : Nat) : List SLine :=
  s.dev.slices.filter fun x => setOf x.line == setOf line
/-- The ways of the slice of a line that are in service (R15, R519). -/
def State.sliceWays (s : State) (line : Nat) : Nat :=
  16 - (s.dev.errors.filter fun e => e.spared && (match e.u with
    | .sliceWay c _ => c == channelOf (line * 128)
    | _ => false)).length
/-- Whether a line is stored with metadata that do not decode: its selector reads 111, and its four blocks are poisoned until
a write covers them (R335). -/
def State.undecodable (s : State) (line : Nat) : Bool :=
  (s.dev.forms.any fun f => f.1 == line && f.2.1 == 7) && (List.range 4).all fun i => s.pois (line * 128 + 32 * i)
/-- The victim of a set: a line marked long-lived only when no other is there. -/
def victimOf (l : List SLine) : Option SLine := (l.find? fun x => x.rh != 2).orElse fun _ => l.head?
/-- The write-back of an evicted line is charged to the context of the write that last dirtied it, to the system account where that was
none's, and a line that is not dirty costs nothing (R498). It draws at no core. -/
def State.chargeEvict (s : State) (x : SLine) : State :=
  match x.by_ with
  | none => s
  | some id => s.payMem id none 8
/-- An evicted line is coded and written to HBM; its selector and sectors are kept with it. -/
def State.evictLine (s : State) (x : SLine) : State :=
  let s := s.chargeEvict x
  let c := bestCode ((keysFrom (x.line * 128) 128).map s.rd)
  s.modDev fun d =>
    { d with slices := d.slices.erase x, forms := (x.line, c.1, c.2.1) :: d.forms.filter fun f => f.1 != x.line }
/-- The units of reaching a line in its slice: one access, and the transfer from HBM of a line that is not there (R492). -/
def State.fillUnits (s : State) (line : Nat) : Nat := if s.dev.slices.any fun x => x.line == line then 2 else 10
/-- A line is allocated under the hint of the access that reaches its slice, in a set of 16 ways; it changes no value (R152).
Under bypass only the write of a versioned line allocates, as short-lived. A form that does not decode is not kept: the slice
holds the line with its four blocks poisoned (R335), and any other stays with the line until it is written (R333). -/
def State.fillLine (s : State) (line : Nat) (hint : BitVec 2) : State :=
  let versioned := s.ctxs.any fun c => (s.versionLines c.id).any (· == line)
  let rh := if hint = 3 ∧ versioned then 1 else hint
  if s.dev.slices.any fun x => x.line == line then
    s.modDev fun d => { d with slices := d.slices.map fun x => if x.line = line then { x with rh := rh } else x }
  else if rh = 3 then s
  else
    let set := s.setLines line
    let s := if set.length < s.sliceWays line then s else match victimOf set with
      | some x => s.evictLine x
      | none => s
    s.modDev fun d =>
      let new : SLine := ⟨line, rh, ((d.forms.find? fun f => f.1 == line).map (·.2)).filter fun f => f.1 != 7, none⟩
      { d with
        slices := if rh = 1 then new :: d.slices else d.slices ++ [new]
        forms := d.forms.filter fun f => !(f.1 == line && f.2.1 == 7) }
/-- A write reaches a line, for a context or for none (R498): its slice holds it raw from then on, or in the form in which a copy brought
it whole (R333, R336). A line that is not allocated goes to HBM raw. -/
def State.dirtyLine (s : State) (line : Nat) (id : Option (BitVec 12)) (form : Option (Nat × Nat)) : State :=
  s.modDev fun d =>
    if d.slices.any fun x => x.line == line then
      { d with slices := d.slices.map fun x => if x.line = line then { x with form := form, by_ := some id } else x }
    else { d with forms := (line, 0, 4) :: d.forms.filter fun f => f.1 != line }
/-- The context and the core whose access waits for a line: those of the oldest message in the fabric that is for it. -/
def State.askedBy (s : State) (line : Nat) : Option Msg :=
  s.dev.fab.net.find? fun m => decide (m.kind.toNat ≤ 2) && decide (m.addr / 128 ≤ line) && decide (line * 128 < m.addr + Nat.max m.count m.data.length)
/-- HBM_FILL: its transfer is charged to the access that waits for the line (R498), and to the system account where none does (DESIGN
CHOICE, log 9: the row names no context). -/
def execHbmFill (line : Nat) (rh : BitVec 2) (s : State) : Out :=
  let m := s.askedBy line
  .next ((s.payMem (m.map (·.ctx)) (m.map (·.src)) (s.fillUnits line)).fillLine line rh)

/-! ## TABLE_WALK (R150) -/
/-- The lines of the table entries that a walk reads (R148). -/
def walkLines (s : State) (va : Nat) : List (Nat × Nat × Nat × Option Nat) → Nat → List Nat
  | [], _ => []
  | (shift, bits, _, _) :: rest, tbl =>
    if Config.hbmBytes ≤ tbl then []
    else
      let ea := tbl + 8 * (va / 2 ^ shift % 2 ^ bits)
      let e := s.rdN ea 8
      ea / 128 :: (if e % 2 = 1 ∧ e / 2 % 2 = 0 then walkLines s va rest (e / 2 ^ 12 % 2 ^ 36 * 2 ^ 12) else [])
/-- A walk fills its entries' lines as long-lived, at the cost of the system account (R498); one that ends well leaves its page in the core's TLB of 256 entries. -/
def State.walkDone (s : State) (va : Nat) : State :=
  let leaf := walkOf s s.ctx .load va
  let s := (walkLines s va walkLevels s.ctx.pgroot.toNat).foldl (fun (s : State) l => (s.chargeSys (s.fillUnits l)).fillLine l 2) s
  match leaf with
  | .error _ => s
  | .ok l =>
    let e : TlbEnt := ⟨s.bank.ctx, l.vbase, l.size, l.pbase, l.w, l.x⟩
    s.modCore fun c => { c with tlb := (e :: c.tlb.filter fun x => !(x.ctx == e.ctx && x.vbase == e.vbase)).take 256 }
def execTableWalk (c : Fin 256) (va : BitVec 64) (s : State) : Out := .next (s.on c fun s => s.walkDone va.toNat)

end Sys2Proof.Machine
end

