-- ==== Sys2Proof/Machine/Scalar.lean ====
section
/-! DEFINITION. The meanings of the scalar integer instructions (R121 to R129). -/
namespace Sys2Proof.Machine

/-- A result into d by an instruction of n parcels (R121). -/
def State.put (s : State) (n : Nat) (d : Fin 64) (x : W64) : Out := .next ((s.setS d x).retire n)
/-- 1 or 0 (R122). -/
def flag (b : Bool) : W64 := if b then 1 else 0
/-- A shift amount (R122). -/
def shiftOf (b : W64) : Nat := b.toNat % 64
/-- The number of one bits (R123). -/
def popCount (x : W64) : Nat := (List.range 64).foldl (fun n i => n + x.toNat / 2 ^ i % 2) 0
/-- The bits, or the groups of w bits, in the reverse order (R123). -/
def reverseBy (w : Nat) (x : W64) : W64 :=
  BitVec.ofNat 64 ((List.range (64 / w)).foldl (fun acc i => acc * 2 ^ w + x.toNat / 2 ^ (w * i) % 2 ^ w) 0)
/-- Leading zero bits (R123). -/
def leadingZeros (x : W64) : Nat := if x = 0 then 64 else 63 - Nat.log2 x.toNat
/-- Trailing zero bits (R123). -/
def trailingZeros (x : W64) : Nat := if x = 0 then 64 else Nat.log2 (x &&& -x).toNat
/-- The target of a PC-relative offset in words (R127, R131). -/
def State.target {w : Nat} (s : State) (off : BitVec w) : W64 := s.strand.pc + 4 * off.signExtend 64
/-- LIH of R126. -/
def highHalf (h a : W64) : W64 := h <<< 32 ||| (a &&& 0xFFFFFFFF)
/-- The field of BFX and BFXS (R128). -/
def fieldOf (a : W64) (pos wm1 : BitVec 6) : Nat := a.toNat / 2 ^ pos.toNat % 2 ^ (wm1.toNat + 1)

def execAdd (d a b : Fin 64) (s : State) : Out := s.put 1 d (s.rs a + s.rs b)
def execSub (d a b : Fin 64) (s : State) : Out := s.put 1 d (s.rs a - s.rs b)
def execAnd (d a b : Fin 64) (s : State) : Out := s.put 1 d (s.rs a &&& s.rs b)
def execOr (d a b : Fin 64) (s : State) : Out := s.put 1 d (s.rs a ||| s.rs b)
def execXor (d a b : Fin 64) (s : State) : Out := s.put 1 d (s.rs a ^^^ s.rs b)
def execShl (d a b : Fin 64) (s : State) : Out := s.put 1 d (s.rs a <<< shiftOf (s.rs b))
def execShr (d a b : Fin 64) (s : State) : Out := s.put 1 d (s.rs a >>> shiftOf (s.rs b))
def execSar (d a b : Fin 64) (s : State) : Out := s.put 1 d ((s.rs a).sshiftRight (shiftOf (s.rs b)))
def execMin (d a b : Fin 64) (s : State) : Out := s.put 1 d (if s.rs a < s.rs b then s.rs a else s.rs b)
def execMins (d a b : Fin 64) (s : State) : Out := s.put 1 d (if (s.rs a).slt (s.rs b) then s.rs a else s.rs b)
def execMax (d a b : Fin 64) (s : State) : Out := s.put 1 d (if s.rs a < s.rs b then s.rs b else s.rs a)
def execMaxs (d a b : Fin 64) (s : State) : Out := s.put 1 d (if (s.rs a).slt (s.rs b) then s.rs b else s.rs a)
def execSlt (d a b : Fin 64) (s : State) : Out := s.put 1 d (flag ((s.rs a).ult (s.rs b)))
def execSlts (d a b : Fin 64) (s : State) : Out := s.put 1 d (flag ((s.rs a).slt (s.rs b)))
def execSeq (d a b : Fin 64) (s : State) : Out := s.put 1 d (flag (s.rs a == s.rs b))
def execSne (d a b : Fin 64) (s : State) : Out := s.put 1 d (flag (s.rs a != s.rs b))
def execMul (d a b : Fin 64) (s : State) : Out := s.put 1 d (s.rs a * s.rs b)
def execMulhi (d a b : Fin 64) (s : State) : Out :=
  s.put 1 d (BitVec.ofNat 64 ((s.rs a).toNat * (s.rs b).toNat / 2 ^ 64))
def execMulhis (d a b : Fin 64) (s : State) : Out :=
  s.put 1 d (BitVec.ofInt 64 ((s.rs a).toInt * (s.rs b).toInt / (2 ^ 64 : Nat)))
def execDiv (d a b : Fin 64) (s : State) : Out :=
  s.put 1 d (BitVec.ofNat 64 (Num.divU (s.rs a).toNat (s.rs b).toNat 64))
def execDivs (d a b : Fin 64) (s : State) : Out :=
  s.put 1 d (BitVec.ofInt 64 (Num.divS (s.rs a).toInt (s.rs b).toInt))
def execRem (d a b : Fin 64) (s : State) : Out := s.put 1 d (BitVec.ofNat 64 (Num.remU (s.rs a).toNat (s.rs b).toNat))
def execRems (d a b : Fin 64) (s : State) : Out := s.put 1 d (BitVec.ofInt 64 (Num.remS (s.rs a).toInt (s.rs b).toInt))
def execAndn (d a b : Fin 64) (s : State) : Out := s.put 1 d (s.rs a &&& ~~~(s.rs b))
def execOrn (d a b : Fin 64) (s : State) : Out := s.put 1 d (s.rs a ||| ~~~(s.rs b))

def execClz (d a : Fin 64) (s : State) : Out := s.put 1 d (BitVec.ofNat 64 (leadingZeros (s.rs a)))
def execCtz (d a : Fin 64) (s : State) : Out := s.put 1 d (BitVec.ofNat 64 (trailingZeros (s.rs a)))
def execPopc (d a : Fin 64) (s : State) : Out := s.put 1 d (BitVec.ofNat 64 (popCount (s.rs a)))
def execSextB (d a : Fin 64) (s : State) : Out := s.put 1 d (((s.rs a).setWidth 8).signExtend 64)
def execSextH (d a : Fin 64) (s : State) : Out := s.put 1 d (((s.rs a).setWidth 16).signExtend 64)
def execSextW (d a : Fin 64) (s : State) : Out := s.put 1 d (((s.rs a).setWidth 32).signExtend 64)
def execZextB (d a : Fin 64) (s : State) : Out := s.put 1 d (((s.rs a).setWidth 8).setWidth 64)
def execZextH (d a : Fin 64) (s : State) : Out := s.put 1 d (((s.rs a).setWidth 16).setWidth 64)
def execZextW (d a : Fin 64) (s : State) : Out := s.put 1 d (((s.rs a).setWidth 32).setWidth 64)
def execBrev (d a : Fin 64) (s : State) : Out := s.put 1 d (reverseBy 1 (s.rs a))
def execBswap (d a : Fin 64) (s : State) : Out := s.put 1 d (reverseBy 8 (s.rs a))

/-! The immediate x is imm11 in length 00, and the literal of parcel 2 in length 10 (R124). -/
def execAddi (d a : Fin 64) (imm : BitVec 11) (s : State) : Out := s.put 1 d (s.rs a + imm.signExtend 64)
def execAddiL (d a : Fin 64) (imm : BitVec 32) (s : State) : Out := s.put 3 d (s.rs a + imm.signExtend 64)
def execAndi (d a : Fin 64) (imm : BitVec 11) (s : State) : Out := s.put 1 d (s.rs a &&& imm.setWidth 64)
def execAndiL (d a : Fin 64) (imm : BitVec 32) (s : State) : Out := s.put 3 d (s.rs a &&& imm.setWidth 64)
def execOri (d a : Fin 64) (imm : BitVec 11) (s : State) : Out := s.put 1 d (s.rs a ||| imm.setWidth 64)
def execOriL (d a : Fin 64) (imm : BitVec 32) (s : State) : Out := s.put 3 d (s.rs a ||| imm.setWidth 64)
def execXori (d a : Fin 64) (imm : BitVec 11) (s : State) : Out := s.put 1 d (s.rs a ^^^ imm.signExtend 64)
def execXoriL (d a : Fin 64) (imm : BitVec 32) (s : State) : Out := s.put 3 d (s.rs a ^^^ imm.signExtend 64)
def execSlti (d a : Fin 64) (imm : BitVec 11) (s : State) : Out := s.put 1 d (flag ((s.rs a).slt (imm.signExtend 64)))
def execSltiL (d a : Fin 64) (imm : BitVec 32) (s : State) : Out := s.put 3 d (flag ((s.rs a).slt (imm.signExtend 64)))
def execShli (d a : Fin 64) (amt : BitVec 6) (s : State) : Out := s.put 1 d (s.rs a <<< amt.toNat)
def execShri (d a : Fin 64) (amt : BitVec 6) (s : State) : Out := s.put 1 d (s.rs a >>> amt.toNat)
def execSari (d a : Fin 64) (amt : BitVec 6) (s : State) : Out := s.put 1 d ((s.rs a).sshiftRight amt.toNat)
def execRoli (d a : Fin 64) (amt : BitVec 6) (s : State) : Out := s.put 1 d ((s.rs a).rotateLeft amt.toNat)
def execLi (d : Fin 64) (imm : BitVec 32) (s : State) : Out := s.put 3 d (imm.signExtend 64)
def execLih (d a : Fin 64) (imm : BitVec 11) (s : State) : Out := s.put 1 d (highHalf (imm.signExtend 64) (s.rs a))
def execLihL (d a : Fin 64) (imm : BitVec 32) (s : State) : Out := s.put 3 d (highHalf (imm.signExtend 64) (s.rs a))
def execAddpc (d : Fin 64) (off : BitVec 17) (s : State) : Out := s.put 1 d (s.target off)
def execAddpcL (d : Fin 64) (off : BitVec 32) (s : State) : Out := s.put 2 d (s.target off)
def execBfx (d a : Fin 64) (pos wm1 : BitVec 6) (s : State) : Out :=
  s.put 2 d (BitVec.ofNat 64 (fieldOf (s.rs a) pos wm1))
def execBfxs (d a : Fin 64) (pos wm1 : BitVec 6) (s : State) : Out :=
  s.put 2 d (BitVec.ofInt 64 (Num.sint (wm1.toNat + 1) (fieldOf (s.rs a) pos wm1)))
/-- BFI reads d as a source (R128). -/
def execBfi (d a : Fin 64) (pos wm1 : BitVec 6) (s : State) : Out :=
  let mask : W64 := BitVec.ofNat 64 (2 ^ (wm1.toNat + 1) - 1) <<< pos.toNat
  s.put 2 d ((s.rs d &&& ~~~mask) ||| ((s.rs a <<< pos.toNat) &&& mask))
def execSel (d c a b : Fin 64) (s : State) : Out := s.put 2 d (if s.rs c ≠ 0 then s.rs a else s.rs b)

end Sys2Proof.Machine
end

