-- ==== Sys2Proof/Machine/Fp.lean ====
section
/-! DEFINITION. The meanings of the scalar F32 instructions (R130). -/
namespace Sys2Proof.Machine

/-- The mode that an instruction rounds by: DYN is rmode, and RSR there is RNE (R82). -/
def State.rounding (s : State) (rnd : Rnd) : Rnd :=
  if rnd = .dyn then
    let m := Rnd.dec s.strand.rmode.toNat
    if m = .rsr ∨ m = .dyn then .rne else m
  else rnd
/-- F32(x) of a scalar register (R130). -/
def lowF (x : W64) : Nat := x.toNat % 2 ^ 32
def addF (m : Rnd) (x y _ : Num.FV) : Num.FV := Num.add m x y
def subF (m : Rnd) (x y _ : Num.FV) : Num.FV := Num.sub m x y
def mulF (_ : Rnd) (x y _ : Num.FV) : Num.FV := Num.mul x y
def fmaF (m : Rnd) (x y z : Num.FV) : Num.FV := Num.add m (Num.mul x y) z
/-- An F32 operation under a mode (R90, R130). -/
def State.fp (s : State) (f : Rnd → Num.FV → Num.FV → Num.FV → Num.FV) (rnd : Rnd) (a b c : Fin 64) : W64 :=
  BitVec.ofNat 64 (Num.arith { mode := s.rounding rnd } .f32 f (lowF (s.rs a)) (lowF (s.rs b)) (lowF (s.rs c)))
/-- The parcels of a form with an optional parcel 1. -/
def parcels (long : Bool) : Nat := if long then 2 else 1

def execFadd (d a b : Fin 64) (s : State) : Out := s.put 1 d (s.fp addF .rne a b 0)
def execFaddL (d a b : Fin 64) (rnd : Rnd) (s : State) : Out := s.put 2 d (s.fp addF rnd a b 0)
def execFsub (d a b : Fin 64) (s : State) : Out := s.put 1 d (s.fp subF .rne a b 0)
def execFsubL (d a b : Fin 64) (rnd : Rnd) (s : State) : Out := s.put 2 d (s.fp subF rnd a b 0)
def execFmul (d a b : Fin 64) (s : State) : Out := s.put 1 d (s.fp mulF .rne a b 0)
def execFmulL (d a b : Fin 64) (rnd : Rnd) (s : State) : Out := s.put 2 d (s.fp mulF rnd a b 0)
def execFmin (d a b : Fin 64) (long : Bool) (s : State) : Out :=
  s.put (parcels long) d (BitVec.ofNat 64 (Num.minMax .f32 false (lowF (s.rs a)) (lowF (s.rs b))))
def execFmax (d a b : Fin 64) (long : Bool) (s : State) : Out :=
  s.put (parcels long) d (BitVec.ofNat 64 (Num.minMax .f32 true (lowF (s.rs a)) (lowF (s.rs b))))
def execFeq (d a b : Fin 64) (long : Bool) (s : State) : Out :=
  s.put (parcels long) d (flag (Num.compare .f32 0 (lowF (s.rs a)) (lowF (s.rs b))))
def execFlt (d a b : Fin 64) (long : Bool) (s : State) : Out :=
  s.put (parcels long) d (flag (Num.compare .f32 2 (lowF (s.rs a)) (lowF (s.rs b))))
def execFle (d a b : Fin 64) (long : Bool) (s : State) : Out :=
  s.put (parcels long) d (flag (Num.compare .f32 3 (lowF (s.rs a)) (lowF (s.rs b))))
/-- FCVT.F32.I64 (R130). -/
def State.toF32 (s : State) (rnd : Rnd) (a : Fin 64) : W64 :=
  BitVec.ofNat 64 (Num.round { mode := s.rounding rnd } .f32 (Num.ofInt (s.rs a).toInt))
/-- FCVT.I64.F32 (R86, R130). -/
def State.toI64 (s : State) (rnd : Rnd) (a : Fin 64) : W64 :=
  BitVec.ofNat 64 (Num.roundI64 { mode := s.rounding rnd } (Num.read .f32 (lowF (s.rs a))))
def execFcvtF32I64 (d a : Fin 64) (s : State) : Out := s.put 1 d (s.toF32 .rne a)
def execFcvtF32I64L (d a : Fin 64) (rnd : Rnd) (s : State) : Out := s.put 2 d (s.toF32 rnd a)
def execFcvtI64F32 (d a : Fin 64) (s : State) : Out := s.put 1 d (s.toI64 .rne a)
def execFcvtI64F32L (d a : Fin 64) (rnd : Rnd) (s : State) : Out := s.put 2 d (s.toI64 rnd a)
def execFfma (d a b c : Fin 64) (rnd : Rnd) (s : State) : Out := s.put 2 d (s.fp fmaF rnd a b c)
def execFabs (d a : Fin 64) (long : Bool) (s : State) : Out := s.put (parcels long) d (s.rs a &&& 0x7FFFFFFF)
def execFneg (d a : Fin 64) (long : Bool) (s : State) : Out :=
  s.put (parcels long) d ((s.rs a &&& 0xFFFFFFFF) ^^^ 0x80000000)

end Sys2Proof.Machine
end

