-- ==== Sys2Proof/Machine/Operands.lean ====
section
/-! DEFINITION. Stream rings (R297, R298) and the operand forms of the vector instructions: ring ports, elements,
masks, broadcasts, spans and the random bits of RSR (R201 to R205, R228, R83). -/
namespace Sys2Proof.Machine

/-! ## Rings -/
/-- An entry of the ring table (R297). -/
structure RingInfo where
  base  : Nat
  depth : Nat
  prod  : Nat
  cons  : Nat
  deriving DecidableEq, Repr
/-- The key of an address that the device reads for itself, when it is mapped. -/
def deviceKey (s : State) (va : Nat) : Option Nat :=
  if va / 2 ^ 56 ≠ 0 then none
  else if isHbmKind va then
    match walkOf s s.ctx .load va with
    | .ok l => some (l.pa va)
    | .error _ => none
  else if kindOf va = 15 ∧ vaultOk s va then some (vaultKey (va / 2 ^ 24 % 256) (va % 2 ^ 24))
  else none
/-- A valid ring of the context (R297). -/
def ringInfo (s : State) (n : Nat) : Option RingInfo :=
  let tab := s.ctx.ringtab.toNat
  if n = 0 ∨ tab % 256 < n then none
  else match deviceKey s (tab / 2 ^ 12 % 2 ^ 44 * 2 ^ 12 + 16 * n) with
    | none => none
    | some k =>
      let r : RingInfo := ⟨s.rdN k 8, s.rdN (k + 8) 2, s.rdN (k + 10) 1, s.rdN (k + 11) 1⟩
      if s.pois k || s.rdN (k + 12) 4 != 0 || r.depth < 2 || 256 < r.depth || r.base % 512 != 0 || r.base / 2 ^ 56 != 0
          || kindOf r.base != 15 || !vaultOk s r.base then none
      else match regionAt s .load r.base with
        | .ok (some e) =>
          if e.kind = 3 ∧ e.core = r.prod ∧ e.peer = r.cons ∧ r.base + 512 * r.depth ≤ e.stop then some r else none
        | _ => none
/-- The key of a slot. -/
def RingInfo.slotKey (r : RingInfo) (ix : Nat) : Nat := vaultKey (r.base / 2 ^ 24 % 256) (r.base % 2 ^ 24 + 512 * ix)
/-- The counters of a ring, all free until a slot is reserved (R298). -/
def State.ringOf (s : State) (n : Nat) : Ring := s.ctx.ringOf n
def Ring.free (r : Ring) (depth : Nat) : Nat := depth - r.slots.length
/-- The free slots of a ring, the next one first. Slots that a flush gave back may lie behind reserved ones (R305). -/
def Ring.freeSlots (r : Ring) (depth : Nat) : List Nat :=
  ((List.range depth).map fun i => (r.next + i) % depth).filter fun ix => !r.slots.any (·.ix == ix)
/-- The next k slots of a ring are reserved, in order (R298). -/
def Ring.reserve (r : Ring) (depth k : Nat) (ts : W64) : Ring :=
  let ixs := (r.freeSlots depth).take k
  { r with next := (ixs.getLastD r.next + 1) % depth, slots := r.slots ++ ixs.map fun ix => ⟨ix, false, ts⟩ }
/-- A reserved slot becomes filled (R298). -/
def Ring.fill (r : Ring) (ix : Nat) (ts : W64) : Ring :=
  { r with slots := r.slots.map fun x => if x.ix = ix then { x with filled := true, ts := ts } else x }
/-- The media timestamp of the task on the core (R367). -/
def State.mts (s : State) : W64 := (s.bank.task.map (·.mts)).getD 0
/-- The oldest filled slot leaves the ring: the state after and the slot's bytes (R229, R298). -/
def State.popSlot (s : State) (i : RingInfo) (n : Nat) : Option (State × VReg) :=
  let r := s.ringOf n
  match r.slots with
  | x :: rest =>
    if x.filled then
      let d := BitVec.ofNat 4096 (s.rdN (i.slotKey x.ix) 512)
      some (((s.setRing s.bank.ctx { r with slots := rest }).escape.modStrand fun t => { t with rts := x.ts }), d)
    else none
  | [] => none
/-- A strand pushes one slot: it is reserved, and a ring push carries its bytes and the timestamp (R229, R318). -/
def State.pushSlot (s : State) (i : RingInfo) (n : Nat) (d : VReg) : State :=
  let r := s.ringOf n
  let ix := (r.freeSlots i.depth).headD r.next
  let s := (s.setRing s.bank.ctx (r.reserve i.depth 1 0)).escape
  s.send fun id =>
    { s.msg0 5 (fin 256 (i.base / 2 ^ 24)) id with
      addr := i.slotKey ix, data := toLe 512 d.toNat ++ toLe 8 s.mts.toNat, rel := true, ref := n, count := ix }

/-! ## Ports (R228) -/
/-- The vector operands of one instruction: the state after the pop and what v30 reads as. -/
structure VIn where
  s    : State
  slot : VReg
/-- A vector source. -/
def VIn.v (io : VIn) (r : Fin 32) : VReg := if r = 30 then io.slot else io.s.strand.v[r]
/-- What a destination holds before: an element that a push does not write is zero, the half that VPACK.E2M1 leaves out too (DESIGN
CHOICE, log 29: R219 leaves that half unchanged, and R228 names other elements). -/
def VIn.old (io : VIn) (r : Fin 32) : VReg := if r = 31 ∧ io.s.strand.push ≠ 0 then 0 else io.s.strand.v[r]
/-- A result into a vector register, or one slot pushed. -/
def VIn.write (io : VIn) (r : Fin 32) (x : VReg) : State :=
  let n := io.s.strand.push.toNat
  if r = 31 ∧ n ≠ 0 then
    match ringInfo io.s n with
    | some i => io.s.pushSlot i n x
    | none => io.s
  else io.s.setV r x
/-- RING without an info that the spec states (log 7). -/
def State.ringTrap {α : Type} (s : State) : Res α := .error (.trap causeRing (s.free 64 1).toNat)
/-- The operands of an instruction with these vector sources, destination and spans (R228): RING first, then the
waits for a slot, then the pop; the spec does not order the trap and the waits (DESIGN CHOICE, log 29). `readsDst` marks an
instruction that reads its destination. -/
def State.vecIn (s : State) (srcs : List (Fin 32)) (dst : Option (Fin 32)) (readsDst : Bool) (spans : List (Fin 32)) : Res VIn :=
  let pop := s.strand.pop.toNat
  let push := s.strand.push.toNat
  let has := fun (l : List (Fin 32)) (r : Fin 32) => l.any (· == r)
  let popping := pop != 0 && has srcs 30
  let pushing := push != 0 && dst == some 31
  if (pop != 0 && (dst == some 30 || has spans 30)) || (push != 0 && (has srcs 31 || has spans 31)) || (pushing && readsDst)
      || (popping && (ringInfo s pop).isNone) || (pushing && (ringInfo s push).isNone) then s.ringTrap
  else if (match ringInfo s push with
      | some i => pushing && (s.ringOf push).free i.depth == 0
      | none => false) then .error (.wait .other)
  else if popping then
    match (ringInfo s pop).bind fun i => s.popSlot i pop with
    | some (t, d) => .ok ⟨t, d⟩
    | none => .error (.wait .other)
  else .ok ⟨s, s.strand.v[30]⟩

/-! ## Elements (R70, R201) -/
/-- Element i of w bits. -/
def lane (w : Nat) (v : VReg) (i : Nat) : Nat := v.toNat / 2 ^ (w * i) % 2 ^ w
/-- The n elements of w bits that f gives, element 0 lowest. -/
def packGo (w : Nat) (f : Nat → Nat) : Nat → Nat → Nat
  | 0, acc => acc
  | n + 1, acc => packGo w f n (acc * 2 ^ w + f n % 2 ^ w)
def pack (w n : Nat) (f : Nat → Nat) : Nat := packGo w f n 0
/-- A register of the elements that f gives. -/
def vecOf (w : Nat) (f : Nat → Nat) : VReg := BitVec.ofNat 4096 (pack w (4096 / w) f)
/-- Whether the mask leaves element i of a type (R201, R203). -/
def State.masked (s : State) (k : Fin 8) (ty : Ty) (i : Nat) : Bool := (s.rk k).getLsbD (if ty = .b1 then i / 4 else i)
/-- Sc(s, ty) of R202. -/
def State.scalarOp (s : State) (r : Fin 64) (ty : Ty) : Nat := (s.rs r).toNat % 2 ^ ty.bits
/-- The sources that a rounding instruction adds: vr under RSR (R42, R84). -/
def rsrSrc (x : XA) : List (Fin 32) := if x.rnd = .rsr then [x.vr] else []
/-- The vb operand as a source (R204). -/
def bsrcs (f : VF) (x : XA) : List (Fin 32) := if x.bs then [] else [f.vb]
/-- Element i of the vb operand, or the broadcast scalar (R204). -/
def VIn.y (io : VIn) (f : VF) (x : XA) (i : Nat) : Nat := if x.bs then io.s.scalarOp x.sc f.ty else lane f.ty.bits (io.v f.vb) i
/-- How result i of n is rounded (R82, R83, R88). -/
def VIn.rc (io : VIn) (x : XA) (n i : Nat) : Num.RC :=
  let b := Nat.min 32 (4096 / n)
  { mode := io.s.rounding x.rnd, sat := x.sat, ftz := x.ftz, b := b
    rb := if x.rnd = .rsr then (io.v x.vr).toNat / 2 ^ (b * i) % 2 ^ b else 0 }
/-- A register written under the mask, with lanes of a type (R203). -/
def VIn.merge (io : VIn) (k : Fin 8) (ty : Ty) (vd : Fin 32) (g : Nat → Nat) : VReg :=
  vecOf ty.bits fun i => if io.s.masked k ty i then g i else lane ty.bits (io.old vd) i

/-- An instruction of n parcels that writes vd element by element. -/
def State.vecOp (s : State) (n : Nat) (f : VF) (srcs : List (Fin 32)) (readsDst : Bool) (g : VIn → Nat → Nat) : Out :=
  match s.vecIn srcs (some f.vd) readsDst [] with
  | .error e => s.stop e
  | .ok io => .next ((io.write f.vd (io.merge f.k f.ty f.vd (g io))).retire n)

/-! ## Spans (R205) -/
/-- The registers of a span. -/
def widLen : Wid → Nat
  | .none => 1
  | .pair => 2
  | .quad => 4
def spanRegs (base : Fin 32) (m : Nat) : List (Fin 32) := (List.range m).map fun i => fin 32 (base.val + i)
/-- Logical element i of a span of m registers with elements of w bits. -/
def VIn.spanLane (io : VIn) (w m : Nat) (base : Fin 32) (i : Nat) : Nat :=
  lane w (io.v (fin 32 (base.val + i % m))) (i / m)
/-- A span of m registers written under the mask at the logical index. -/
def VIn.writeSpan (io : VIn) (k : Fin 8) (w m : Nat) (base : Fin 32) (g : Nat → Nat) : State :=
  (List.range m).foldl (fun s q =>
    let r := fin 32 (base.val + q)
    s.setV r (vecOf w fun j =>
      if (io.s.rk k).getLsbD (j * m + q) then g (j * m + q) else lane w (io.s.strand.v[r]) j)) io.s

end Sys2Proof.Machine
end

