-- ==== Sys2Proof/Machine/Engine.lean ====
section
/-! DEFINITION. What the engines share: the tokens of a command (R43, R194, R342), their reads and writes
(R154, R258, R291, R294), energy (R492, R498) and the telemetry ring (R499 to R501). -/
namespace Sys2Proof.Machine

/-! ## Tokens -/
/-- The fields of X-E in length 00 (R34). -/
def XE.none : XE := ⟨0, 0, 0, 0, 0⟩
/-- The consumed set (R43). -/
def consumed (x : XE) : List (Fin 32) :=
  (if x.ta = 0 then [] else [x.ta]) ++ (if x.tb = 0 ∨ x.tb = x.ta then [] else [x.tb])
    ++ (if x.tc = 0 ∨ x.tc = x.ta ∨ x.tc = x.tb then [] else [x.tc])
/-- The consumed tokens that are PENDING. -/
def State.pendingOf (s : State) (x : XE) : List (Fin 32) := (consumed x).filter fun t => s.strand.t[t].st == .pending
/-- The lowest consumed token that is FAULTED, with its cause (R343). -/
def State.faultedOf (s : State) (x : XE) : Option (Fin 32 × BitVec 8) :=
  ((consumed x).filter fun t => s.strand.t[t].st == .faulted).foldl (fun best t =>
    match best with
    | some (b, c) => if t < b then some (t, s.strand.t[t].cause) else some (b, c)
    | none => some (t, s.strand.t[t].cause)) none
/-- The consumed set of an instruction that the strand executes itself: waited on and acquired as TWAIT does
(R264, R343). Of several PENDING tokens, swait.OBJ shows the first in the order ta, tb, tc (DESIGN CHOICE, log 33: R356 names none). -/
def State.acquire (s : State) (x : XE) : Res State :=
  if s.fenceHold then .error (.wait .other)
  else match s.pendingOf x, s.faultedOf x with
    | t :: _, _ => .error (.wait (.token t))
    | [], some (t, c) => .error (.trap causeToken (t.val + 2 ^ 8 * c.toNat))
    | [], none => .ok s.clearFence
/-- Before an engine command issues: the fence (R171), and td must not be PENDING (R342). -/
def State.engGate (s : State) (x : XE) : Res State :=
  if s.fenceHold then .error (.wait .other)
  else if x.td ≠ 0 ∧ s.strand.t[x.td].st = .pending then .error (.wait .other)
  else .ok s.clearFence
/-- The command's token becomes PENDING as its instruction retires (R342). -/
def State.produce (s : State) (x : XE) : State := s.setToken s.curS x.td .pending 0

/-! ## The commands of the matrix engine in q3 (R256) -/
/-- Whether the next drain is a sampled one (R263). -/
def Matrix.sampleDue (m : Matrix) : Bool := m.checkN != 0 && (m.checkNow || m.checkC + 1 == m.checkN)
/-- Whether requests of the running nest stand in q3: the fetches of the pass that is next, or the checker's reads for a sampled drain
(R256, R263). -/
def Matrix.fetching (m : Matrix) : Bool := m.eng == .running && (m.phase == .pass || m.sampleDue)
/-- How many entries they hold: a free number from 1 to 8 (R256, log 9). -/
def Matrix.requests (m : Matrix) : Nat := if m.fetching then 1 + Config.freeChoice ((m.running.map (·.id)).getD 0) % 8 else 0
/-- Whether the engine has nothing to do: no nest, and no bank load. -/
def Matrix.quiet (m : Matrix) : Bool := m.running.isNone && m.queued.isNone && m.loads.isEmpty
/-- The engine is busy from an MGO until its nest ends (R253). -/
def Matrix.busy (m : Matrix) : Bool := m.running.isSome || m.queued.isSome
/-- What the matrix engine runs on a core: for the tasks whose strands have ended, the oldest first, then for the active one. -/
def Bank.mats (b : Bank) : List Matrix := b.nests.map (·.mat) ++ [b.mat]
def Bank.engineBusy (b : Bank) : Bool := b.mats.any (·.busy)
/-- The bank loads of a core in their order. -/
def Bank.bankLoads (b : Bank) : List PendLoad := b.mats.flatMap (·.loads)
/-- The entries of q3 that the operand fetcher holds, at most 8 of its 32 (R256, R306). -/
def Bank.fetches (b : Bank) : Nat := Nat.min 8 (b.mats.foldl (fun n m => n + m.loads.length + m.requests) 0)

/-! ## The task of a command -/
/-- The task of a command that is not the active one: it has ended and not committed, or TYIELD has suspended it (R309, R376, R390,
R397). -/
def State.otherTask (s : State) (task : W64) : Option Task :=
  if task = s.bank.taskId then none
  else
    let kept := (s.ctx.saved.find? fun e => e.1 == s.cur && e.2.taskId == task).bind (·.2.task)
    (s.bank.tail.find? (·.id == task)).orElse fun _ => kept
/-- The state in which a command of some task acts: such a task stands in for the active one, without the lines of the data cache. -/
def State.standIn (s : State) (task : W64) : State :=
  match s.otherTask task with
  | none => s
  | some t => (s.modCore fun c => { c with dirty := [] }).modBank fun b => { b with task := some t }
/-- An operation for a command of some task. -/
def State.asTask (s : State) (task : W64) (f : State → State) : State :=
  let u := f (s.standIn task)
  match s.otherTask task with
  | none => u
  | some _ =>
    let now := s.bank.task
    let dirty := s.core.dirty
    let new := u.bank.task
    let put := fun (x : Task) => if x.id = task then new.getD x else x
    let u := (u.modCore fun c => { c with dirty := dirty }).modBank fun b => { b with task := now, tail := b.tail.map put }
    u.modCtxOf u.bank.ctx fun x =>
      { x with saved := x.saved.map fun e => if e.1 = u.cur then (e.1, { e.2 with task := e.2.task.map put }) else e }

/-- A matrix with the banks' tags and the sampling of another: these are the core's (R238, R263, R278). -/
def Matrix.lend (m now : Matrix) : Matrix :=
  { m with tags := now.tags, lru := now.lru, checkN := now.checkN, checkC := now.checkC, checkNow := now.checkNow }
/-- The first of the tasks whose strands have ended for which a condition holds of what the matrix engine runs for it (R376, R390). -/
def State.lateNest (s : State) (pick : Matrix → Bool) : Option LateNest := s.bank.nests.find? fun o => pick o.mat
/-- The state in which the matrix engine acts for it, else for the active task. -/
def State.nestView (s : State) (pick : Matrix → Bool) : State :=
  match s.lateNest pick with
  | none => s
  | some o => (s.standIn o.task).modBank fun b => { b with strands := o.strands, mat := o.mat.lend b.mat }
/-- An operation on the matrix engine for it, else for the active task. -/
def State.onNest (s : State) (pick : Matrix → Bool) (f : State → State) : State :=
  match s.lateNest pick with
  | none => f s
  | some o =>
    s.asTask o.task fun s =>
      let was := s.bank
      let t := f (s.modBank fun b => { b with strands := o.strands, mat := o.mat.lend b.mat })
      t.modBank fun b =>
        let back := if b.mat.quiet then [] else [{ o with strands := b.strands, mat := b.mat }]
        { b with
          strands := was.strands, mat := was.mat.lend b.mat
          nests := b.nests.flatMap fun x => if x.task = o.task then back else [x] }

/-! ## Engine accesses -/
/-- A fault of an engine: cause and address. -/
abbrev EngFault := Nat × Nat
/-- What an engine's access finds. -/
def engRes {α : Type} (ea : Nat) : Res α → Except EngFault α
  | .ok x => .ok x
  | .error (.trap c i) => .error (c, i % 2 ^ 56)
  | .error _ => .error (causeProtection, ea % 2 ^ 56)
/-- The parts of an engine's access. `commons` allows a COMMONS region, as R291 does for copies, and `align` is the alignment
of a converting element or of an index (R289). -/
def engCheck (s : State) (acc : Acc) (ea len : Nat) (commons : Bool) (align : Nat := 1) : Except EngFault (List Piece) :=
  engRes ea (checkAll s { acc := acc, ea := ea, len := len, align := align, ordered := commons, engine := true })
/-- The bytes of a part as the engines of the core see them (R154), and whether a block of it is poisoned. -/
def State.engPiece (s : State) (p : Piece) : List Byte × Bool :=
  let ks := keysFrom p.key p.len
  if p.space = .host then (ks.map s.rd, false) else (ks.map s.seen, ks.any (poisSeen s))
/-- A read of an engine. -/
def engRead (s : State) (ea len : Nat) (commons : Bool) (align : Nat := 1) : Except EngFault (List Byte × Bool) :=
  (engCheck s .load ea len commons align).map fun ps =>
    ps.foldl (fun d p =>
      let r := s.engPiece p
      (d.1 ++ r.1, d.2 || r.2)) ([], false)
/-- The blocks of a range become poisoned: in the task's version for OWNED HBM, else in memory (R165, R294). -/
def State.markPois (s : State) (p : Piece) (key len : Nat) : State :=
  let blocks := distinct ((keysFrom key len).map (· / 32))
  if p.space = .host then s
  else if p.space = .hbm ∧ p.kind = 0 ∧ s.bank.task.isSome then
    s.modTask fun t =>
      { t with verPois := blocks.map (·, true) ++ t.verPois.filter fun e => !(blocks.any (· == e.1)) }
  else blocks.foldl (fun s b => s.setPois b true) s
/-- One part of an engine's write (R154, R155, R176, R257, R291). -/
def State.engPut (s : State) (p : Piece) (d : List Byte) (pois : Bool) : State :=
  let s : State := match p.space with
    | .host => s.modTask fun t => { t with hostQ := t.hostQ ++ [.write (BitVec.ofNat 64 (p.key - 2 ^ 64)) d] }
    | .hbm =>
      if p.kind = 0 then
        let mine := fun (l : Nat) => decide (p.key / 128 ≤ l) && decide (l ≤ (p.key + d.length - 1) / 128)
        ((s.writeBack mine).dropLines mine).verWrite p.key d
      else ((s.wrClean p.key d).taint p.key d.length).escape
    | _ => if p.kind = 2 then (s.wrClean p.key d).escape else s.wrClean p.key d
  if pois then s.markPois p p.key d.length else s
def State.engPuts (s : State) (pois : Bool) : List Piece → List Byte → State
  | [], _ => s
  | p :: t, d => (s.engPut p (d.take p.len) pois).engPuts pois t (d.drop p.len)
/-- A write of an engine whose parts are checked; a full version faults it (R377). -/
def State.engWrite (s : State) (ps : List Piece) (d : List Byte) (pois : Bool) : Except EngFault State :=
  match overflowOf s ps with
  | some a => .error (causeVersion, a)
  | none => .ok (s.engPuts pois ps d)

/-! ## Messages and injection (R316, R325, R326) -/
/-- The flits of a message, at most 16 (R317). -/
def Msg.flits (m : Msg) : Nat := Nat.min 16 (Nat.max 1 ((m.data.length + 63) / 64))
/-- Whether a message holds room on its die and plane (R325). -/
def Msg.held (m : Msg) : Bool := m.st == .admitted || m.st == .delivered
/-- The die of a site, and of a logical core (R12, R13). -/
def dieOf (site : Fin 272) : Bool := decide (17 ≤ site.val % 34)
def State.siteOf (s : State) (c : Fin 256) : Fin 272 := s.dev.sites.site[c]
/-- The flits that the sites of a die hold on a plane (R325). -/
def State.dieFlits (s : State) (die a : Bool) : Nat :=
  s.dev.fab.net.foldl (fun n m => if m.held && m.onA == a && dieOf (s.siteOf m.src) == die then n + m.flits else n) 0
/-- Whether the throttle, in this fabric cycle, or the Q-plane cap of its die holds the core's site (R325, R326). -/
def State.fabricHeld (s : State) : Bool :=
  decide (8 - s.core.level.toNat ≤ s.dev.fabricCycles.toNat % 8) || decide (Config.netCap ≤ s.dieFlits (dieOf (s.siteOf s.cur)) false)

/-! ## Power (R493, R494) -/
/-- The cap in force: the accepted cap, else the fallback (R496, R497). -/
def Power.inForce (p : Power) : Nat := match p.cap with
  | some (w, _) => w
  | none => p.fallback
/-- The effective power in watts (R494). -/
def Power.effective (p : Power) : Nat := Nat.min p.inForce (Nat.min 2000 p.thermal)
/-- The allowance of a period, ⌊P × 4,096 / 1.9⌋ (R493). -/
def Power.allowance (p : Power) : Nat := p.effective * 40960 / 19
/-- The share of a core (R493). -/
def State.share (s : State) : Int :=
  ((s.dev.power.allowance : Int) - s.dev.power.lastSys) / (Nat.max 1 ((s.cores.toList.filter (·.part.isSome)).length) : Nat)
/-- Whether the pass-start hold lets the core start a pass (R493). -/
def State.mayPass (s : State) : Bool := !s.core.hold || decide ((s.core.draw : Int) < s.share)

/-! ## The telemetry ring -/
/-- The key of a byte of the ring, in HBM or in a writable host window (R499). -/
def telKey (s : State) (c : Ctx) (p : Option (Fin 16)) (va : Nat) : Option Nat :=
  if isHbmKind va then
    match walkOf s c .store va with
    | .ok l => some (l.pa va)
    | .error _ => none
  else match p with
    | some p =>
      let w := windowOf s p (va / 2 ^ 40 % 256)
      if kindOf va = 12 ∧ w.flags % 2 = 1 ∧ w.flags / 4 % 2 = 1 ∧ va % 2 ^ 40 + 8 ≤ w.size then some (hostKey (w.haddr + va % 2 ^ 40))
      else none
    | none => none
/-- A record for the telemetry ring of a context (R499, R500, R501), written by a core or by Chaconne. -/
def State.record (s : State) (id : BitVec 12) (p : Option (Fin 16)) (writer : Option (Fin 256)) (kind : Nat) (mts : W64)
    (payload : List Byte) : State :=
  let c := s.ctxOf id
  let base := c.telring.toNat / 2 ^ 12 % 2 ^ 44 * 2 ^ 12
  let n := 2 ^ (c.telring.toNat % 16)
  match telKey s c p base, telKey s c p (base + 8) with
  | some kw, some kr =>
    if base = 0 then s
    else
      let wr := s.rdN kw 8
      let full := decide (n ≤ (wr + 2 ^ 64 - s.rdN kr 8) % 2 ^ 64)
      if full then
        let was := c.telst.getLsbD 32
        let lost := Nat.min (2 ^ 32 - 1) (c.telst.toNat % 2 ^ 32 + 1)
        let s := s.modCtxOf id fun c => { c with telst := BitVec.ofNat 64 (2 ^ 32 + lost) }
        if !was && writer.isSome then s.notice 0x21 kind else s
      else
        let header := toLe 2 kind ++ toLe 2 (match writer with | some w => w.val | none => 0xFFFF) ++ toLe 2 id.toNat ++ toLe 2 0
          ++ toLe 8 mts.toNat ++ toLe 8 s.dclk.toNat ++ toLe 8 wr
        let rec_ := (header ++ payload ++ List.replicate 32 0).take 64
        let s := match telKey s c p (base + 64 + 64 * (wr % n)) with
          | some k => s.wrClean k rec_
          | none => s
        (s.wrClean kw (toLe 8 ((wr + 1) % 2 ^ 64))).modCtxOf id fun c => { c with telst := c.telst &&& 0xFFFFFFFF }
  | _, _ => s

end Sys2Proof.Machine
end

