-- ==== Sys2Proof/Machine/CopyOps.lean ====
section
/-! DEFINITION. Parameter blocks, their checks and boxes (R195, R284 to R292), and how a command enters a queue
(R282, R302). -/
namespace Sys2Proof.Machine

/-! ## The parameter block (R284) -/
def Block.src (b : Block) : Nat := fld b 0 8
def Block.dst (b : Block) : Nat := fld b 8 8
def Block.count (b : Block) (j : Nat) : Nat := fld b (16 + 4 * j) 4
def Block.sstr (b : Block) (j : Nat) : Int := fldS b (40 + 5 * j) 5
def Block.dstr (b : Block) (j : Nat) : Int := fldS b (70 + 5 * j) 5
/-- The element size E. -/
def Block.e (b : Block) : Nat := 2 ^ (fld b 100 1 % 16)
def Block.srcTy (b : Block) : Nat := fld b 101 1
def Block.dstTy (b : Block) : Nat := fld b 102 1
def Block.cvt (b : Block) : Nat := fld b 103 1
def Block.converts (b : Block) : Bool := b.cvt % 2 == 1
def Block.semctl (b : Block) : Nat := fld b 105 1
def Block.sem (b : Block) : Fin 64 := fin 64 (b.semctl % 64)
def Block.raises (b : Block) : Bool := b.semctl / 64 % 2 == 1
def Block.remote (b : Block) : Bool := b.semctl / 128 % 2 == 1
def Block.semcore (b : Block) : Nat := fld b 106 1
def Block.seminc (b : Block) : Nat := fld b 107 1
def Block.mcbase (b : Block) : Nat := fld b 108 1
def Block.wide (b : Block) : Bool := fld b 109 1 % 2 == 1
def Block.mcmask (b : Block) : Nat := fld b 112 8
def Block.idx (b : Block) : Nat := fld b 120 8
/-- The number of elements (R288). -/
def Block.total (b : Block) : Nat := (List.range 6).foldl (fun n j => n * b.count j) 1
/-- The bytes written for one element (R288, R290). -/
def Block.outLen (b : Block) : Nat := if b.converts then (Ty.dec b.dstTy).bits / 8 else b.e
/-- The targets of a multicast, in increasing order (R292). -/
def Block.targets (b : Block) : List Nat :=
  (List.range 64).filterMap fun i => if b.mcmask / 2 ^ i % 2 = 1 then some (b.mcbase + i) else none
/-- Whether a logical core lies in the partition of the issuing core. -/
def State.inPart (s : State) (c : Nat) : Bool :=
  decide (c < 256) && s.core.part.isSome && (s.cores[fin 256 c]).part == s.core.part

/-! ## The checks of R285 -/
/-- The lowest of some byte offsets whose value is not zero. -/
def lowest (l : List (Nat × Nat)) : Option Nat :=
  l.foldl (fun m x => if x.2 = 0 then m else some (match m with | some y => Nat.min x.1 y | none => x.1)) none
/-- The nonzero bytes of a range of the block. -/
def Block.bytesAt (b : Block) (off n : Nat) : List (Nat × Nat) := (List.range n).map fun i => (off + i, fld b (off + i) 1)
/-- A type that a conversion takes (R285): F32, F16, BF16, E4M3, E5M2, I8 to I32, N8 to N32 and E8M0. -/
def cvtTy (t : Nat) : Bool := decide (t ≤ 4) || (decide (6 ≤ t) && decide (t ≤ 11)) || t == 14
def Block.check (s : State) (b : Block) (kind : CmdKind) : Option Nat :=
  let reserved := lowest ([(100, fld b 100 1 / 16), (103, b.cvt / 32), (104, fld b 104 1 / 4), (109, fld b 109 1 / 2)]
    ++ b.bytesAt 110 2)
  let size := if 9 < fld b 100 1 % 16 then some 100 else none
  let product := if 2 ^ 40 < b.total * b.e then some 16 else none
  let noCvt := if b.converts then none else lowest (b.bytesAt 101 3)
  let conv :=
    if b.converts then
      lowest [(100, bit (cvtTy b.srcTy && decide ((Ty.dec b.srcTy).bits ≠ 8 * b.e))), (101, bit (!cvtTy b.srcTy)),
        (102, bit (!cvtTy b.dstTy)), (103, bit (decide (5 < b.cvt / 2 % 8)))]
    else none
  let sem :=
    if b.raises then
      lowest [(107, bit (b.seminc == 0)), (106, bit (b.remote && b.mcmask == 0 && !s.inPart b.semcore))]
    else lowest (b.bytesAt 105 3)
  let multi :=
    if b.mcmask = 0 then none
    else lowest [(14, bit (kindOf b.dst != 15)), (11, b.dst / 2 ^ 24 % 256), (12, b.dst / 2 ^ 32 % 2),
      (108, bit (b.targets.any fun c => !s.inPart c)), (106, if b.remote then b.semcore else 0)]
  let index := if kind = .cpy ∨ kind = .fill then lowest (b.bytesAt 109 1 ++ b.bytesAt 120 8) else none
  let fill := if kind = .fill then lowest (b.bytesAt 40 30 ++ b.bytesAt 103 1) else none
  [reserved, size, product, noCvt, conv, sem, multi, index, fill].findSome? id

/-! ## The walk (R288) -/
/-- The counter of level j for element n. -/
def Block.ix (b : Block) (n j : Nat) : Nat :=
  n / ((List.range j).foldl (fun m k => m * b.count k) 1) % b.count j
/-- An address of the walk, modulo 2^64; `first` replaces the counter of level 0. -/
def walkAddr (base : Nat) (str : Nat → Int) (ix : Nat → Nat) (first : Int) : Nat :=
  Num.wrap 64 ((base : Int) + first * str 0 + (List.range 5).foldl (fun a j => a + (ix (j + 1) : Int) * str (j + 1)) 0)

/-! ## Boxes (R195, R428) -/
/-- A range of addresses; `far` is 0 for this package, else 1 + 2 × package + direction. -/
structure Box where
  far : Nat
  lo  : Nat
  hi  : Nat
  deriving DecidableEq, Repr
/-- Whether two boxes hold an address in common, and so a kind; a box may run past the top of the address space. -/
def Box.meets (a b : Box) : Bool :=
  let meet := fun (p q : Nat) => decide (a.lo + p ≤ b.hi + q) && decide (b.lo + q ≤ a.hi + p)
  a.far == b.far && (meet 0 0 || meet (2 ^ 64) 0 || meet 0 (2 ^ 64))
/-- The smallest box that holds two boxes. -/
def Box.hull (a b : Box) : Box := ⟨a.far, Nat.min a.lo b.lo, Nat.max a.hi b.hi⟩
/-- The whole address kind of an address (R302). -/
def kindBox (far addr : Nat) : Box := ⟨far, kindOf addr * 2 ^ 52, kindOf addr * 2 ^ 52 + 2 ^ 52 - 1⟩
/-- The smallest range that holds every byte of a walk with elements of `len` bytes. -/
def walkBox (b : Block) (far base : Nat) (str : Nat → Int) (len : Nat) : Box :=
  let ext := fun (f : Int → Int → Int) =>
    (List.range 6).foldl (fun a j => a + f 0 (((b.count j : Int) - 1) * str j)) (base : Int)
  let lo := Num.wrap 64 (ext min)
  ⟨far, lo, lo + (ext max - ext min).toNat + len - 1⟩
/-- An address with its vault replaced (R292). -/
def inVault (a core : Nat) : Nat := a / 2 ^ 33 * 2 ^ 33 + core * 2 ^ 24 + a % 2 ^ 24
/-- The write box in a target's vault: the vault of every destination address is replaced, and of a walk that leaves the 16 MiB of
its base the elements are looked at one by one (R195, R292). -/
def vaultBox (b : Block) (core : Nat) : Box :=
  let w := walkBox b 0 b.dst b.dstr 1
  if w.lo / 2 ^ 24 = w.hi / 2 ^ 24 then ⟨0, inVault w.lo core, inVault w.hi core + b.outLen - 1⟩
  else
    let at_ := fun (n : Nat) => inVault (walkAddr b.dst b.dstr (b.ix n) (b.ix n 0)) core
    let r := (List.range b.total).foldl (fun (r : Nat × Nat) n => (Nat.min r.1 (at_ n), Nat.max r.2 (at_ n))) (at_ 0, at_ 0)
    ⟨0, r.1, r.2 + b.outLen - 1⟩
/-- The read boxes and the write boxes of a command. An index list belongs to the read box (R302). -/
def Cmd.boxes (c : Cmd) : List Box × List Box :=
  let b : Block := c.block
  let src := fun far => walkBox b far b.src b.sstr b.e
  let dst := fun far base => walkBox b far base b.dstr b.outLen
  let push := 1 + 2 * c.far.toNat
  let list : Box := ⟨0, b.idx, b.idx + b.count 0 * (if b.wide then 8 else 4) - 1⟩
  let dsts := if b.mcmask = 0 then [dst 0 b.dst] else b.targets.map (vaultBox b)
  if b.total = 0 ∧ c.kind ≠ .halo then ([], [])
  else match c.kind with
    | .qsemw => ([], [])
    | .cpy => ([src 0], dsts)
    | .fill => ([], dsts)
    | .gath => ([(kindBox 0 b.src).hull list], dsts)
    | .scat => ([(src 0).hull list], if b.mcmask = 0 then [kindBox 0 b.dst] else b.targets.map fun _ => kindBox 0 b.dst)
    | .xpush | .xred _ => ([src 0], [dst push b.dst])
    | .xpull => ([src (push + 1)], [dst 0 b.dst])
    | .halo => (c.extra.map fun (_, b) => walkBox b 0 b.src b.sstr b.e,
        c.extra.map fun (p, b) => walkBox b (1 + 2 * p.toNat) b.dst b.dstr b.e)
/-- Whether a later command conflicts with an earlier one (R195). -/
def conflicts (later earlier : List Box × List Box) : Bool :=
  let any := fun (a b : List Box) => a.any fun x => b.any fun y => x.meets y
  any earlier.2 later.1 || any earlier.2 later.2 || any earlier.1 later.2
/-- The entries of a region table, up to the first that cannot be read. -/
def regionsFrom (s : State) (c : Ctx) : Nat → Nat → List Region
  | 0, _ => []
  | n + 1, i => match regionEntry s c .own (rtabBase c + 16 * i) i with
    | .ok r => r :: regionsFrom s c n (i + 1)
    | .error _ => []
/-- Whether a region entry covers a byte of a box. -/
def Region.meetsBox (r : Region) (b : Box) : Bool :=
  decide (r.kind ≤ 3) && decide (1 ≤ r.size) && b.meets ⟨0, r.base, r.stop - 1⟩
/-- Whether a command can perform an escaping write, or raises a remote or multicast semaphore (R291, R427). -/
def escapes (s : State) (c : Cmd) : Bool :=
  match c.kind with
  | .qsemw => false
  | .xpush | .xred _ | .halo => true
  | _ =>
    (c.block.raises && c.block.remote) ||
      (regionsFrom s s.ctx (rtabCount s.ctx) 0).any fun r =>
        (r.kind == 2 || r.kind == 3 || (r.kind == 0 && kindOf r.base == 15 && r.core != s.cur.val)) && c.boxes.2.any r.meetsBox

/-! ## Reading a block (R265, R286, R348) -/
/-- A plain load of a block for which a COMMONS or RING region raises PARAM with an info. -/
def State.blockLoad (s : State) (ea len align info : Nat) : Res Nat :=
  match checkAll s { acc := .load, ea := ea, len := len, align := align } with
  | .ok ps => (s.loadAll false ps).map leNat
  | .error (.trap c i) =>
    let shared := match regionAt s .load (i % 2 ^ 56) with
      | .ok (some r) => decide (2 ≤ r.kind)
      | _ => false
    if shared then
      if c = causeOwnership ∨ c = causeRing ∨ (c = causeMisaligned ∧ ea % align = 0) then .error (.trap causeParam info)
      else .error (.trap c i)
    else .error (.trap c i)
  | .error e => .error e
/-- The parameter block at an address: from the cache, else loaded into it (R286, R287). -/
def State.paramBlock (s : State) (ea : W64) : Res (State × Block) :=
  match s.core.pbc.find? fun e => e.1 == s.bank.ctx && e.2.1 == ea with
  | some e => .ok (s, e.2.2)
  | none =>
    match s.blockLoad ea.toNat 128 128 0x100 with
    | .error e => .error e
    | .ok v =>
      let b : Block := BitVec.ofNat 1024 v
      .ok (s.modCore fun c => { c with pbc := ((s.bank.ctx, ea, b) :: c.pbc).take 16 }, b)

/-! ## Entering a queue -/
/-- The entries that a queue holds; bank loads and the operand fetches of a nest are commands of q3 (R256, R282, R306). -/
def State.entries (s : State) (q : Fin 4) : Nat :=
  s.bank.queues[q].cmds.length + (if q = 3 then s.bank.fetches else 0)
/-- A new command of the issuing strand with nothing done. -/
def State.newCmd (s : State) (kind : CmdKind) (block : Block) (x : XE) : Cmd where
  id := s.dev.fab.nextMsg
  kind := kind
  block := block
  far := 0
  sem := 0
  count := 0
  td := x.td
  used := s.pendingOf x
  strand := s.curS
  task := (s.bank.task.map (·.id)).getD 0
  mts := s.mts
  started := false
  done := 0
  total := block.total
  fault := if (s.faultedOf x).isSome then some (0x0A, 3, 0) else none
  faultAt := 0
  signalled := false
  ring := none
  given := []
  extra := []
  down := []
  acks := 0
/-- A command enters its queue as its instruction retires (R282, R291, R342). -/
def State.enqueue (s : State) (q : Fin 4) (c : Cmd) (x : XE) : State :=
  let s := if escapes s c then s.escape else s
  let s := s.modFab fun f => { f with nextMsg := f.nextMsg + 1 }
  let s := s.modBank fun b => { b with queues := b.queues.set q { b.queues[q] with cmds := b.queues[q].cmds ++ [c] } }
  s.produce x
/-- The waits of an instruction that enters a queue: the fence, td and a full queue (R171, R282, R342). -/
def State.queueGate (s : State) (q : Fin 4) (x : XE) : Res State :=
  match s.engGate x with
  | .error e => .error e
  | .ok t => if Config.queueDepth ≤ s.entries q then .error (.wait .other) else .ok t
/-- CPY, GATH, SCAT and FILL (R302). -/
def State.queueBlock (s : State) (q : Fin 4) (kind : CmdKind) (a : Fin 64) (x : XE) : Res State :=
  match s.queueGate q x with
  | .error e => .error e
  | .ok s =>
    match s.paramBlock (s.rs a) with
    | .error e => .error e
    | .ok (t, b) =>
      match b.check s kind with
      | some off => .error (.trap causeParam off)
      | none => .ok (t.enqueue q (t.newCmd kind b x) x)

end Sys2Proof.Machine
end

