-- ==== Sys2Proof/Machine/Copy.lean ====
section
/-! DEFINITION. The meanings of the copy engine's instructions (R301 to R307), and the events by which a command starts,
performs its elements and completes (R282, R288 to R299). -/
namespace Sys2Proof.Machine

/-! ## CPY, GATH, SCAT and FILL (R302) -/
def execCpy (q : Fin 4) (a : Fin 64) (s : State) : Out := s.seq 1 (s.queueBlock q .cpy a XE.none)
def execCpyL (q : Fin 4) (a : Fin 64) (x : XE) (s : State) : Out := s.seq 2 (s.queueBlock q .cpy a x)
def execGath (q : Fin 4) (a : Fin 64) (s : State) : Out := s.seq 1 (s.queueBlock q .gath a XE.none)
def execGathL (q : Fin 4) (a : Fin 64) (x : XE) (s : State) : Out := s.seq 2 (s.queueBlock q .gath a x)
def execScat (q : Fin 4) (a : Fin 64) (s : State) : Out := s.seq 1 (s.queueBlock q .scat a XE.none)
def execScatL (q : Fin 4) (a : Fin 64) (x : XE) (s : State) : Out := s.seq 2 (s.queueBlock q .scat a x)
def execFill (q : Fin 4) (a : Fin 64) (s : State) : Out := s.seq 1 (s.queueBlock q .fill a XE.none)
def execFillL (q : Fin 4) (a : Fin 64) (x : XE) (s : State) : Out := s.seq 2 (s.queueBlock q .fill a x)

/-! ## CPYS (R303) -/
/-- The block that a CPYS acts as. -/
def cpysBlock (d a b : W64) (imm : BitVec 12) : Block :=
  let on := imm.getLsbD 8
  let at_ := fun (off v : Nat) => v * 2 ^ (8 * off)
  BitVec.ofNat 1024 (a.toNat + at_ 8 d.toNat + at_ 16 (b.toNat % 2 ^ 32)
    + (at_ 20 1 + at_ 24 1 + at_ 28 1 + at_ 32 1 + at_ 36 1) + at_ 40 1 + at_ 70 1 + at_ 104 (imm.toNat % 4)
    + (if on then at_ 105 (64 + imm.toNat / 4 % 64) + at_ 107 1 else 0))
def State.cpys (s : State) (q : Fin 4) (d a b : Fin 64) (x : XE) : Res State :=
  match s.queueGate q x with
  | .error e => .error e
  | .ok s =>
    if (s.rs b).toNat / 2 ^ 32 ≠ 0 then .error (.trap causeParam (s.rs b).toNat)
    else .ok (s.enqueue q (s.newCmd .cpy (cpysBlock (s.rs d) (s.rs a) (s.rs b) x.imm) x) x)
def execCpys (q : Fin 4) (d a b : Fin 64) (s : State) : Out := s.seq 1 (s.cpys q d a b XE.none)
def execCpysL (q : Fin 4) (d a b : Fin 64) (x : XE) (s : State) : Out := s.seq 2 (s.cpys q d a b x)

/-! ## QSEMW, QFLUSH, QDRAIN, QSTAT and QWS (R304 to R307) -/
/-- The count of an imm12 whose 0 means 1 (R304, R346). -/
def countOf (x : XE) : Nat := Nat.max 1 x.imm.toNat
def State.qsemw (s : State) (q : Fin 4) (sem : Fin 64) (x : XE) : Res State :=
  match s.queueGate q x with
  | .error e => .error e
  | .ok s => .ok (s.enqueue q { s.newCmd .qsemw 0 x with sem := sem, count := countOf x } x)
def execQsemw (q : Fin 4) (sem : Fin 64) (s : State) : Out := s.seq 1 (s.qsemw q sem XE.none)
def execQsemwL (q : Fin 4) (sem : Fin 64) (x : XE) (s : State) : Out := s.seq 2 (s.qsemw q sem x)
/-- QFLUSH and QDRAIN of q3 wait for the matrix engine (R305). -/
def State.flushWaits (s : State) (q : Fin 4) : Bool := s.fenceHold || (q == 3 && s.bank.engineBusy)
def State.modQueue (s : State) (q : Fin 4) (f : Queue → Queue) : State :=
  s.modBank fun b => { b with queues := b.queues.set q (f b.queues[q]) }
/-- The bank loads of a core are removed, with their tokens (R256, R305). -/
def State.flushLoads (s : State) : State :=
  (List.range (s.bank.nests.length + 1)).foldl (fun s _ => s.onNest (fun m => !m.loads.isEmpty) fun s =>
    s.bank.mat.loads.foldl (fun s l => s.finishToken l.strand l.td (some 0)) (s.modMat fun m => { m with loads := [] })) s
/-- QFLUSH: it stops the commands of the queue at an element boundary, waits for the far writes in flight, and then removes
them; what the engine has performed stands. A bank load that is a command of q3 goes with the others (R256, R305). -/
def execQflush (q : Fin 4) (s : State) : Out :=
  if s.flushWaits q then s.stop (.wait .other)
  else if s.bank.queues[q].cmds.any fun c => c.acks != 0 then (s.modQueue q fun x => { x with flush := true }).stop (.wait .other)
  else
    let s := (s.clearFence.flushQueue q none).modQueue q fun x => { x with flush := false }
    .next ((if q = 3 then s.flushLoads else s).retire 1)
/-- QDRAIN: the commands that entered before it; its wait keeps the first number beyond them. -/
def execQdrain (q : Fin 4) (s : State) : Out :=
  let upTo := match s.strand.wait with
    | .drain n => n
    | _ => s.dev.fab.nextMsg
  if s.flushWaits q || (s.bank.queues[q].cmds.any fun c => decide (c.id < upTo))
      || (q == 3 && s.bank.bankLoads.any fun l => decide (l.id < upTo)) then
    s.stop (.wait (.drain upTo))
  else .next (s.clearFence.retire 1)

/-! ## Order within a queue (R195, R196, R256) -/
/-- The head of a queue: the first command that has not started. -/
def State.headCmd (s : State) (q : Fin 4) : Option Cmd := s.bank.queues[q].cmds.find? fun c => !c.started
/-- The started commands that the head of a queue conflicts with (R195). -/
def Queue.blocking (x : Queue) (head : Cmd) : List Cmd :=
  (x.cmds.takeWhile (·.id != head.id)).filter fun c => conflicts head.boxes c.boxes
/-- The range that a bank load reads. -/
def PendLoad.box (l : PendLoad) : Box := ⟨0, l.tag.tile.rowAt 0, l.tag.tile.rowAt 255 + 1023⟩
/-- The command of q3 that entered before a bank load and writes where it reads. -/
def State.loadBlocked (s : State) (l : PendLoad) : Option Cmd :=
  s.bank.queues[3].cmds.find? fun c => decide (c.id < l.id) && c.boxes.2.any l.box.meets
/-- Whether a bank load has started: its tokens are complete, every command of q3 that entered before it has started, a QSEMW
among them, and none of those writes where it reads (R195, R196, R282). -/
def State.loadStarted (s : State) (l : PendLoad) : Bool :=
  l.used.isEmpty && !(s.bank.queues[3].cmds.any fun c => decide (c.id < l.id) && !c.started) && (s.loadBlocked l).isNone
/-- The bank loads before a number of q3 that have not started (R195). -/
def State.loadsHeld (s : State) (bound : Nat) : Bool := s.bank.bankLoads.any fun l => decide (l.id < bound) && !s.loadStarted l
/-- The bank loads that the head of a queue waits for: those before it that have not started or read where it writes. -/
def State.loadsBefore (s : State) (q : Fin 4) (c : Cmd) : List PendLoad :=
  if q = 3 then s.bank.bankLoads.filter fun l => decide (l.id < c.id) && (!s.loadStarted l || c.boxes.2.any l.box.meets) else []
/-- The ranges that the fetches of a pass may read. -/
def passBoxes (n : NestSet) (ix : Vector Nat 6) : List Box :=
  let r0 := n.pr * n.coord ix 0
  let akb := n.coord ix 1
  let rowsBox := fun (at_ str len : Nat) => (⟨0, at_ + r0 * str, at_ + (r0 + n.pr - 1) * str + len - 1⟩ : Box)
  [rowsBox (n.a.base + akb * 256) n.a.rstr 256]
    ++ (if n.a.sparse = 0 then [] else [rowsBox (n.a.mbase + akb * 128) n.a.mstr 128])
    ++ (if n.acc = 2 ∧ n.a.sbase ≠ 0 then [rowsBox (n.a.sbase + n.a.q * akb) n.a.sstr n.a.q] else [])
    ++ (if n.acc = 2 ∧ n.b.sbase ≠ 0 then
          let c := n.b.sbase + n.pc * n.coord ix 3
          [⟨0, c, c + n.pc - 1⟩]
        else [])
    ++ (passTiles n ix).map fun t => ⟨0, t.rowAt 0, t.rowAt 255 + 1023⟩
/-- The indices of the passes that the check of the drain that is next repeats. -/
def Matrix.checked (m : Matrix) : List (List Nat) :=
  let ix := m.idx.toList
  replayGo m.active ix (m.active.coord m.idx 4) (m.active.coord m.idx 5) (ordinal m.active ix + 1) (List.replicate 6 0) []
/-- The ranges that the requests of the running nest in q3 may read: those of the pass that is next, or of the passes that a sampled
drain repeats. -/
def Matrix.requestBoxes (m : Matrix) : List Box :=
  if !m.fetching then []
  else if m.phase = .pass then passBoxes m.active m.idx
  else m.checked.flatMap fun ix => passBoxes m.active (toIx ix)
/-- Whether the head of q3 waits for requests of a running nest: they entered q3 before it, and it writes where they read (R195,
R256). -/
def State.passBefore (s : State) (q : Fin 4) (c : Cmd) : Bool :=
  q == 3 && s.bank.mats.any fun m => m.running.any (fun r => decide (r.id < c.id)) && c.boxes.2.any fun w => m.requestBoxes.any w.meets
/-- Whether something in q3 holds the requests of the running nest back: no entry is free for them, a command or a bank load that
entered before them has not started, a QSEMW among them, or one that has started writes where they read (R195, R196, R256). -/
def State.fetchHeld (s : State) : Bool :=
  let m := s.bank.mat
  let first := (m.running.map (·.id)).getD 0
  let cmds := s.bank.queues[3].cmds
  decide (Config.queueDepth ≤ cmds.length) || s.loadsHeld first
    || cmds.any fun c => if c.started then c.boxes.2.any fun w => m.requestBoxes.any fun r => w.meets r else decide (c.id < first)

/-! ## QSTAT and QWS (R306, R307) -/
/-- The status word (R306). -/
def State.qstat (s : State) (q : Fin 4) : W64 :=
  let x := s.bank.queues[q]
  let loads := (s.bank.bankLoads.takeWhile s.loadStarted).length
  let fetches := s.bank.mats.foldl (fun n m => n + (if (s.modMat fun _ => m).fetchHeld then 0 else m.requests)) 0
  let active := (x.cmds.filter (·.started)).length + (if q = 3 then Nat.min s.bank.fetches (loads + fetches) else 0)
  BitVec.ofNat 64 (x.done.toNat * 2 ^ 32 + x.lastCause.toNat * 2 ^ 24 + x.faults.toNat * 2 ^ 16 + active * 2 ^ 8 + s.entries q)
def execQstat (q : Fin 4) (d : Fin 64) (s : State) : Out :=
  if s.fenceHold then s.stop (.wait .other) else s.clearFence.put 1 d (s.qstat q)
/-- Whether an address lies in the core's own vault, whose traffic stays off the fabric (R316). -/
def State.ownVault (s : State) (a : Nat) : Bool := kindOf a == 15 && a / 2 ^ 24 % 2 ^ 9 == s.cur.val
/-- Whether the throttle or the cap holds the next request of a command, which needs the fabric (R325, R326). -/
def State.heldAt (s : State) (c : Cmd) : Bool :=
  let b := c.block
  s.fabricHeld && !(b.mcmask == 0 && s.ownVault (Block.dst b) && (c.kind == .fill || s.ownVault (Block.src b)))
/-- The first started command of a queue with work left (R283). -/
def State.working (s : State) (q : Fin 4) : Option Cmd := s.bank.queues[q].cmds.find? fun c => c.started && decide (c.done < c.total)
/-- The wait state of a command at the head of its queue, past GEAR and FLUSH. -/
def State.cmdState (s : State) (q : Fin 4) (c : Cmd) : Nat × Nat × Nat :=
  match c.used, s.bank.queues[q].blocking c, s.loadsBefore q c with
  | t :: _, _, _ => (2, t.val, 0)
  | [], d :: _, _ => (4, d.td.val, 0)
  | [], [], d :: _ => (4, d.td.val, 0)
  | [], [], [] =>
    if s.passBefore q c then (4, ((s.bank.mats.findSome? fun (m : Matrix) => m.running.map QueuedMgo.td).getD 0).val, 0)
    else if c.kind = .qsemw then (3, c.sem.val, c.count)
    else match c.ring with
      | some (n, _) => (5, n.toNat, 0)
      | none => if s.heldAt c then (6, 0, 0) else (1, 0, 0)
/-- The wait state of a bank load at the head of q3. -/
def State.loadState (s : State) (l : PendLoad) : Nat × Nat × Nat :=
  match l.used, s.loadBlocked l with
  | t :: _, _ => (2, t.val, 0)
  | [], some d => (4, d.td.val, 0)
  | [], none => (1, 0, 0)
/-- STATE, OBJ and COUNT of the wait state: of the entry at the head, a command or a bank load (R307). -/
def State.waitState (s : State) (q : Fin 4) : Nat × Nat × Nat :=
  if s.entries q = 0 then (0, 0, 0)
  else if s.core.trans.isSome then (7, 0, 0)
  else if s.bank.queues[q].flush then (8, 0, 0)
  else match s.headCmd q, (if q = 3 then s.bank.bankLoads.find? fun l => !s.loadStarted l else none) with
    | none, none => if (s.working q).any s.heldAt then (6, 0, 0) else (1, 0, 0)
    | some c, none => s.cmdState q c
    | none, some l => s.loadState l
    | some c, some l => if c.id < l.id then s.cmdState q c else s.loadState l
/-- The queues of a core whose STATE has changed note the cycle (R307). -/
def State.noteStates (s : State) : State :=
  [(0 : Fin 4), 1, 2, 3].foldl (fun s q =>
    let st := BitVec.ofNat 4 (s.waitState q).1
    if st = s.bank.queues[q].state then s else s.modQueue q fun x => { x with state := st, since := s.dev.fabricCycles }) s
def execQws (q : Fin 4) (d : Fin 64) (s : State) : Out :=
  if s.fenceHold then s.stop (.wait .other)
  else
    let (st, obj, count) := s.waitState q
    let x := s.bank.queues[q]
    let waited := if x.state.toNat = st then Nat.min (2 ^ 24 - 1) (s.dev.fabricCycles - x.since).toNat else 0
    s.clearFence.put 1 d (BitVec.ofNat 64 (waited * 2 ^ 40 + s.entries q * 2 ^ 32 + count * 2 ^ 16 + obj * 2 ^ 8 + st))

/-! ## Starting (R282, R295, R299) -/
def State.modCmd (s : State) (q : Fin 4) (id : Nat) (f : Cmd → Cmd) : State :=
  s.modQueue q fun x => { x with cmds := x.cmds.map fun c => if c.id = id then f c else c }
/-- A command completes: it leaves its queue, the counters and qf follow, and its token (R294, R306, R311). One that was flushed
counts nowhere (R305). -/
def State.complete (s : State) (q : Fin 4) (c : Cmd) : State :=
  let s := s.modQueue q fun x =>
    let flushed := c.fault.any fun f => f.1 == 0
    let x := { x with cmds := x.cmds.filter (·.id != c.id), done := if flushed then x.done else x.done + 1 }
    match c.fault.filter fun f => f.1 != 0 with
    | none => x
    | some (cause, opnd, addr) =>
      { x with
        faults := if x.faults = 255 then 255 else x.faults + 1
        lastCause := cause
        qf := if x.qf = 0 then BitVec.ofNat 64 (opnd.toNat * 2 ^ 61 + cause.toNat % 32 * 2 ^ 56 + addr.toNat % 2 ^ 56) else x.qf }
  s.finishTokenOf c.task c.strand c.td (c.fault.map (·.1))
/-- A fault of an element: cause, OPND and address. -/
abbrev ElemFault := BitVec 8 × BitVec 2 × W64
def elemFault (f : EngFault) (opnd : Nat) : ElemFault := (BitVec.ofNat 8 f.1, BitVec.ofNat 2 opnd, BitVec.ofNat 64 f.2)
/-- The index of level 0 for GATH and SCAT (R288, R289, R294). -/
def listIndex (s : State) (b : Block) (i : Nat) : Except ElemFault Int :=
  let w := if b.wide then 8 else 4
  let a := (b.idx + i * w) % 2 ^ 64
  match engRead s a w true w with
    | .error f => .error (elemFault f 2)
    | .ok (d, pois) => if pois then .error (elemFault (causePoison, a % 2 ^ 56) 2) else .ok (Num.sint (8 * w) (leNat d))
/-- The offsets from DST of the first and the last byte that a command writes; a SCAT's follow from its index list. -/
def extentOf (s : State) (c : Cmd) : Int × Int :=
  let b := c.block
  let ext := fun (f : Int → Int → Int) (from_ : Nat) =>
    (List.range 6).foldl (fun a j => if j < from_ then a else a + f 0 (((b.count j : Int) - 1) * b.dstr j)) (0 : Int)
  if c.kind = .scat then
    let firsts := (List.range (b.count 0)).filterMap fun i => match listIndex s b i with
      | .ok x => some (x * b.dstr 0)
      | .error _ => none
    let lo := firsts.foldl min (firsts.headD 0)
    let hi := firsts.foldl max (firsts.headD 0)
    (lo + ext min 1, hi + ext max 1 + b.outLen - 1)
  else (ext min 0, ext max 0 + b.outLen - 1)
/-- The ring that a destination in a RING region names, and the slots its command pushes; none where R299 fails. -/
def ringDst (s : State) (c : Cmd) : Option (Nat × RingInfo × Nat) :=
  let b := c.block
  let found := (List.range (s.ctx.ringtab.toNat % 256)).findSome? fun i =>
    match ringInfo s (i + 1) with
    | some r => if r.base = b.dst ∧ r.prod = s.cur.val then some (i + 1, r) else none
    | none => none
  match found with
  | none => none
  | some (n, r) =>
    let e := extentOf s c
    if b.mcmask ≠ 0 ∨ e.1 < 0 ∨ (512 * r.depth : Nat) ≤ e.2 then none
    else some (n, r, e.2.toNat / 512 + 1)
/-- Whether the destination of a command, or a target's under multicast, lies in a RING region of this package (R299, R427). A command of
zero elements, which has no largest offset, is none: it makes no check and pushes no slot (DESIGN CHOICE, log 31: the spec gives none). -/
def toRing (s : State) (c : Cmd) : Bool :=
  let b : Block := c.block
  let here := match c.kind with
    | .cpy | .gath | .scat | .fill | .xpull => c.total != 0
    | _ => false
  here && (if b.mcmask = 0 then [b.dst] else b.targets.map (inVault b.dst)).any fun a => match regionAt s .store a with
    | .ok (some r) => r.kind == 3
    | _ => false
/-- Whether every wait of R194, R195 and R256 is over for the head of a queue, and the engine may start a command: no gear
transition and no thermal stop holds it (R32, R283), and no QFLUSH removes it (R305). -/
def State.headReady (s : State) (q : Fin 4) (c : Cmd) : Bool :=
  c.used.isEmpty && (s.bank.queues[q].blocking c).isEmpty && (s.loadsBefore q c).isEmpty && !s.passBefore q c
    && !s.clockStopped && !s.bank.queues[q].flush
/-- The head of a queue starts. A QSEMW is served, or begins to wait (R304, R345). -/
def State.startHead (s : State) (q : Fin 4) : State :=
  match s.headCmd q with
  | none => s
  | some c =>
    if !s.headReady q c then s
    else if c.fault.isSome then s.complete q c
    else if c.kind = .qsemw then
      if s.bank.waiters.any fun w => (match w with | Waiter.queue n _ _ _ => n == q | Waiter.strand .. => false) then s
      else s.modBank fun b =>
        let x : Bank := { b with waiters := joinWaiters (.queue q c.sem c.count s.dev.fabricCycles) s.dev.fabricCycles b.waiters }
        x.serve c.sem
    else if c.ring.isSome then s
    else if toRing s c then
      match ringDst s c with
      | none => s.modCmd q c.id fun c => { c with started := true, total := 0, fault := some (BitVec.ofNat 8 causeRing, 3, 0) }
      | some (n, _, _) => s.modCmd q c.id fun c => { c with ring := some (BitVec.ofNat 8 n, []) }
    else s.modCmd q c.id fun c => { c with started := true }
def execCopyCommandStart (c : Fin 256) (q : Fin 4) (s : State) : Out := .next (s.on c fun s => s.startHead q)
/-- A command with a ring destination reserves its slots once FREE allows; their bytes begin as zero (R299). -/
def State.reserveHead (s : State) (q : Fin 4) : State :=
  match s.headCmd q with
  | none => s
  | some c =>
    match c.ring with
    | some (n, []) =>
      match ringDst s c with
      | some (_, i, k) =>
        let r := s.ringOf n.toNat
        if r.free i.depth < k ∨ s.clockStopped ∨ s.bank.queues[q].flush then s
        else
          let ixs := (r.freeSlots i.depth).take k
          let s := s.setRing s.bank.ctx (r.reserve i.depth k c.mts)
          let s := ixs.foldl (fun s ix => s.wrClean (i.slotKey ix) (List.replicate 512 0)) s
          s.modCmd q c.id fun c => { c with started := true, ring := some (n, ixs) }
      | none => s.modCmd q c.id fun c =>
          { c with started := true, total := 0, ring := none, fault := some (BitVec.ofNat 8 causeRing, 3, 0) }
    | _ => s
def execRingReserve (c : Fin 256) (q : Fin 4) (s : State) : Out := .next (s.on c fun s => s.reserveHead q)

/-! ## Elements (R288 to R294) -/
/-- One converted element (R290). -/
def convertElem (b : Block) (d : List Byte) : List Byte :=
  if b.converts then
    let c : Num.RC := { mode := Rnd.dec (b.cvt / 2 % 8), sat := b.cvt / 16 % 2 == 1 }
    toLe b.outLen (Num.convert c (Ty.dec b.dstTy) (Ty.dec b.srcTy) (leNat d))
  else d
/-- What an element reads: its bytes, whether they are poisoned, and the fault of a compressed line that does not decode
(R288, R294, R335). -/
def elemSource (s : State) (c : Cmd) (first : Int) (n : Nat) : Except ElemFault (List Byte × Bool × Option ElemFault) :=
  let b := c.block
  if c.kind = .fill then .ok ((List.range b.e).map fun k => BitVec.ofNat 8 (b.src / 2 ^ (8 * (k % 8)) % 256), false, none)
  else
    let a := walkAddr b.src b.sstr (b.ix n) (if c.kind = .gath then first else b.ix n 0)
    match engRead s a b.e true (if b.converts then b.e else 1), engCheck s .load a b.e true with
    | .error f, _ => .error (elemFault f 0)
    | .ok (d, pois), ps =>
      let bad := pois && (match ps with
        | .ok ps => ps.any fun p => p.space == .hbm && (keysFrom p.key p.len).any fun k => poisSeen s k && s.undecodable (k / 128)
        | .error _ => false)
      .ok (convertElem b d, pois, if bad then some (elemFault (causePoison, a % 2 ^ 56) 0) else none)
/-- Whether a write into another core's vault region is a deposit that the command may make (R291). -/
def deposits (s : State) (c : Cmd) (r : Region) (addr : Nat) : Bool :=
  let b := c.block
  r.kind == 0 && kindOf addr == 15 && vaultOk s addr && b.raises && b.remote &&
    (if b.mcmask = 0 then b.semcore == r.core else b.targets.any (· == r.core))
/-- The parts that an element may write at an address, deposits allowed (R289, R291). -/
def elemParts (s : State) (c : Cmd) (a len : Nat) : Except EngFault (List Piece) :=
  let ask : Ask :=
    { acc := .store, ea := a, len := len, align := if c.block.converts then len else 1, ordered := true, engine := true }
  (partsOf a len).foldr (fun part rest =>
    let here : Except EngFault Piece :=
      match engRes a (checkPart s ask part.1 part.2) with
      | .ok p => .ok p
      | .error f =>
        match regionAt s .store part.1 with
        | .ok (some r) =>
          if f.1 = causeOwnership ∧ deposits s c r part.1 then
            .ok ⟨part.1, part.2, vaultKey (part.1 / 2 ^ 24 % 256) (part.1 % 2 ^ 24), .vault (fin 256 (part.1 / 2 ^ 24)), 0⟩
          else .error f
        | _ => .error f
    match here, rest with
    | .error f, _ => .error f
    | _, .error f => .error f
    | .ok p, .ok r => .ok (p :: r)) (.ok [])
/-- An element's write to one target. -/
def elemPut (s : State) (c : Cmd) (a : Nat) (d : List Byte) (pois : Bool) : State × Option ElemFault :=
  match elemParts s c a d.length with
  | .error f => (s, some (elemFault f 1))
  | .ok ps => match s.engWrite ps d pois with
    | .error f => (s, some (elemFault f 1))
    | .ok t => (t, none)
/-- An element's bytes into the slots of a push: byte o of the command into its slot (R299). A converting element needs its
alignment here too (R289), and an index list that has changed since the start may not lead past the slots. -/
def ringPut (s : State) (c : Cmd) (i : RingInfo) (ixs : List Nat) (a : Nat) (d : List Byte) (pois : Bool) : State × Option ElemFault :=
  let o := a - c.block.dst
  if c.block.converts ∧ a % d.length ≠ 0 then (s, some (elemFault (causeMisaligned, a % 2 ^ 56) 1))
  else if a < c.block.dst ∨ 512 * ixs.length < o + d.length then (s, some (elemFault (causeRing, a % 2 ^ 56) 1))
  else
    let s := (blocksOf 512 (d.length + 1) o d).foldl (fun s b =>
      let k := i.slotKey (ixs.getD (b.1 / 512) 0) + b.1 % 512
      let s := s.wrClean k b.2
      if pois then s.markPois ⟨0, b.2.length, k, .vault s.cur, 3⟩ k b.2.length else s) s
    (s, none)
/-- The bytes of an element at its destination in this package: slots of a ring, one place, or each target, whose lowest fault
is kept (R292, R294, R299). -/
def State.deliver (s : State) (c : Cmd) (a : Nat) (d : List Byte) (pois : Bool) : State × Option ElemFault :=
  let b := c.block
  match c.ring with
  | some (r, ixs) =>
    match ringInfo s r.toNat with
    | some i => ringPut s c i ixs a d pois
    | none => (s, some (elemFault (causeRing, a % 2 ^ 56) 1))
  | none =>
    if b.mcmask = 0 then elemPut s c a d pois
    else b.targets.foldl (fun r t =>
      let x := elemPut r.1 c (inVault a t) d pois
      (x.1, r.2.orElse fun _ => x.2)) (s, none)
/-- Element n of a command (R288 to R294): the state after it and its fault. -/
def State.element (s : State) (c : Cmd) (n : Nat) : State × Option ElemFault :=
  let b := c.block
  let index := if c.kind = .gath ∨ c.kind = .scat then listIndex s b (b.ix n 0) else .ok (b.ix n 0 : Int)
  match index with
  | .error f => (s, some f)
  | .ok first =>
    match elemSource s c first n with
    | .error f => (s, some f)
    | .ok (d, pois, bad) =>
      let a := walkAddr b.dst b.dstr (b.ix n) (if c.kind = .scat then first else b.ix n 0)
      let r := s.deliver c a d pois
      (r.1, bad.orElse fun _ => r.2)
/-- A fault of an element: that of the element earliest in nest order is kept (R294). -/
def Cmd.fail (c : Cmd) (elem : Nat) (f : Option ElemFault) : Cmd :=
  match f with
  | none => c
  | some f => if c.fault.isSome && decide (c.faultAt ≤ elem) then c else { c with fault := some f, faultAt := elem }
/-- A command after its next element. -/
def Cmd.after (c : Cmd) (f : Option ElemFault) : Cmd := { c.fail c.done f with done := c.done + 1 }

/-! ## Commands to and from another package (R426, R428, R432 to R435) -/
/-- The peer context at a package (R426). -/
def peerOf (s : State) (pkg : BitVec 8) : Option (BitVec 12) :=
  match deviceKey s (s.ctx.zkpeer.toNat + 8 * pkg.toNat) with
  | none => none
  | some k =>
    let e := s.rdN k 8
    if s.pois k || e / 2 ^ 63 != 1 || e % 2 ^ 63 / 2 ^ 12 != 0 then none else some (BitVec.ofNat 12 e)
/-- Whether a package is reached: not this one, listed in the route table, over a live port (R425, R437). -/
def State.reaches (s : State) (pkg : BitVec 8) : Bool :=
  let z := s.dev.zikin
  pkg != z.id && z.routes.any fun r => r.1 == pkg && z.up.getLsbD r.2.val
/-- Whether a command reaches a package, whose link has not failed while the command ran (R437). -/
def State.reachesFor (s : State) (c : Cmd) (pkg : BitVec 8) : Bool := s.reaches pkg && !c.down.any (· == pkg)
/-- The cause of a misaligned far element (R289): an ill-formed address comes first (R147, R166). Whether a vault address names a core of
the peer's partition, the far package decides: where it may not, the cause is a free choice of the two (log 23). -/
def State.farMisaligned (s : State) (a : Nat) : Nat :=
  if a / 2 ^ 56 ≠ 0 ∨ !(isHbmKind a || kindOf a == 15) ∨ (kindOf a = 15 ∧ (a / 2 ^ 33 % 2 ^ 19 ≠ 0 ∨ 256 ≤ a / 2 ^ 24 % 2 ^ 9)) then causeProtection
  else if kindOf a = 15 ∧ (s.free 1 11).toNat = 1 then causeProtection
  else causeMisaligned
/-- An access on its way to another package. -/
def State.sendFar (s : State) (id : Nat) (pkg : BitVec 8) (elem : Nat) (r : Remote) : State :=
  s.modDev fun d => { d with zikin := { d.zikin with out := d.zikin.out ++ [⟨id, pkg, elem, r⟩] } }
/-- The element of a far command that its next request performs: the package, the block and the element's number. -/
def Cmd.farElem (c : Cmd) : BitVec 8 × Block × Nat :=
  (c.extra.foldl (fun (r : Option (BitVec 8 × Block × Nat) × Nat) x =>
    match r with
    | (some e, n) => (some e, n)
    | (none, n) => if n < x.2.total then (some (x.1, x.2, n), n) else (none, n - x.2.total)) (none, c.done)).1.getD
    (c.far, c.block, c.done)
/-- Element n of a far command: its local read and the request to the far package, or its fault (R437). The far side's fault
has OPND 3, a misaligned converting element's too (R289). -/
def State.farElement (s : State) (c : Cmd) : State × Option ElemFault × Nat :=
  let (pkg, b, n) := c.farElem
  let c' := { c with block := b, kind := CmdKind.cpy }
  let sa := walkAddr b.src b.sstr (b.ix n) (b.ix n 0)
  let da := walkAddr b.dst b.dstr (b.ix n) (b.ix n 0)
  let (ra, len) := if c.kind = .xpull then (sa, b.e) else (da, b.outLen)
  let far := fun (cause : Nat) => (s, some (elemFault (cause, ra % 2 ^ 56) 3), 0)
  match peerOf s pkg with
  | none => far causeProtection
  | some ctx =>
    let core := fin 256 b.semcore
    let at_ := BitVec.ofNat 64 ra
    let deposit := b.raises && b.remote
    if !s.reachesFor c pkg then far causeProtection
    else if b.converts ∧ ra % len ≠ 0 then far (s.farMisaligned ra)
    else if c.kind = .xpull then (s.sendFar c.id pkg c.done (.read ctx core at_ b.e), none, 1)
    else match elemSource s c' (b.ix n 0) n with
      | .error f => (s, some f, 0)
      | .ok (d, pois, bad) =>
        let r : Remote := match c.kind with
          | .xred op => .update ctx core at_ op (BitVec.ofNat 32 (leNat d)) deposit pois
          | _ => .write ctx core at_ d deposit pois
        (s.sendFar c.id pkg c.done r, bad, 1)
def Cmd.isFar (c : Cmd) : Bool :=
  match c.kind with
  | .xpush | .xpull | .xred _ | .halo => true
  | _ => false
/-- The slots of a push, by their place in its list, that an element writes (R299). -/
def elemSlots (s : State) (c : Cmd) (n : Nat) : List Nat :=
  let b := c.block
  let first := if c.kind = .scat then (listIndex s b (b.ix n 0)).toOption else some (b.ix n 0 : Int)
  match first with
  | none => []
  | some first =>
    let a := walkAddr b.dst b.dstr (b.ix n) first
    if a < b.dst then [] else (List.range ((a - b.dst + b.outLen - 1) / 512 + 1)).drop ((a - b.dst) / 512)
/-- The elements of a command that are still to be performed: not issued, or not answered by the far package. -/
def State.elemsLeft (s : State) (c : Cmd) : List Nat :=
  (List.range c.total).drop c.done ++ (s.dev.zikin.out.filter fun x => x.cmd == c.id).map (·.elem)
/-- Each slot of a push that an element has written, and that no element is still to write, is filled, with the command's media timestamp
(R298, R299). -/
def State.fillWritten (s : State) (q : Fin 4) (id elem : Nat) : State :=
  match s.bank.queues[q].cmds.find? fun c => c.id == id with
  | none => s
  | some c => match c.ring with
    | none => s
    | some (n, ixs) =>
      let left := (s.elemsLeft c).flatMap (elemSlots s c)
      let now := (elemSlots s c elem).filter fun p => decide (p < ixs.length) && !c.given.any (· == p) && !left.any (· == p)
      (s.setRing s.bank.ctx (now.foldl (fun r p => r.fill (ixs.getD p 0) c.mts) (s.ringOf n.toNat))).modCmd q id fun c => { c with given := now ++ c.given }
/-- A running command of a queue performs its next element, for its own task (R289, R309, log 9). -/
def State.nextElement (s : State) (q : Fin 4) : State :=
  match s.working q with
  | none => s
  | some c =>
    s.asTask c.task fun s =>
      if c.isFar then
        let r := s.farElement c
        r.1.modCmd q c.id fun c => { c.after r.2.1 with acks := c.acks + r.2.2 }
      else
        let r := s.element c c.done
        (r.1.modCmd q c.id fun c => c.after r.2).fillWritten q c.id c.done
/-- Whether a queue has a running command whose next request may issue. -/
def State.mayServe (s : State) (q : Fin 4) : Bool :=
  !s.bank.queues[q].flush && (s.working q).any fun c => !s.heldAt c
/-- The queue that the engine serves next: round robin from the one after the queue that it last served (R283). -/
def State.nextQueue (s : State) : Option (Fin 4) :=
  ((List.range 4).map fun i => fin 4 (s.core.lastQ.val + 1 + i)).find? s.mayServe
/-- The engine issues one request: the next element of a running command of the queue whose turn it is (R283). -/
def State.issueCopy (s : State) (q : Fin 4) : State :=
  if s.clockStopped ∨ s.nextQueue ≠ some q then s
  else (s.nextElement q).modCore fun c => { c with lastQ := q }
def execCopyRequestIssue (c : Fin 256) (q : Fin 4) (s : State) : Out := .next (s.on c fun s => s.issueCopy q)

/-! ## Completion (R293, R294, R428) -/
/-- Where the state of a context on a core is held: on the core, in its shadow bank or in its saved state (R344). -/
def State.bankOf (s : State) (id : BitVec 12) (c : Fin 256) : Bank :=
  let core := s.cores[c]
  let held := fun (b : Bank) => b.loaded && b.ctx == id
  let saved := (((s.ctxOf id).saved.find? fun e => e.1 == c).map (·.2)).getD (s.ctxOf id).fresh
  if held core.bank then core.bank
  else match core.shadow with
    | .filled b _ | .unspilled b => if held b then b else saved
    | _ => saved
/-- The newest saved state for a core takes a new value. -/
def putSaved (c : Fin 256) (x : Bank) : List (Fin 256 × Bank) → List (Fin 256 × Bank)
  | [] => [(c, x)]
  | e :: t => if e.1 = c then (c, x) :: t else e :: putSaved c x t
def State.setBankOf (s : State) (id : BitVec 12) (c : Fin 256) (x : Bank) : State :=
  let core := s.cores[c]
  let held := fun (b : Bank) => b.loaded && b.ctx == id
  let saved := fun (s : State) => s.modCtxOf id fun y => { y with saved := putSaved c x y.saved }
  if held core.bank then s.on c fun s => s.modBank fun _ => x
  else match core.shadow with
    | .filled b t => if held b then s.on c fun s => s.modCore fun y => { y with shadow := .filled x t } else saved s
    | .unspilled b => if held b then s.on c fun s => s.modCore fun y => { y with shadow := .unspilled x } else saved s
    | _ => saved s
/-- An operation on a bank that is not loaded, as if it were: no line of the data cache is its own. -/
def State.inBank (s : State) (x : Bank) (f : State → State) : State × Bank :=
  let now := s.core.bank
  let dirty := s.core.dirty
  let t := f (s.modCore fun k => { k with bank := x, dirty := [] })
  (t.modCore fun k => { k with bank := now, dirty := dirty }, t.core.bank)
/-- An operation on the state of a context for the core, loaded there or not. -/
def State.inState (s : State) (id : BitVec 12) (f : State → State) : State :=
  if s.bank.loaded && s.bank.ctx == id then f s
  else
    let r := s.inBank (s.bankOf id s.cur) f
    r.1.setBankOf id s.cur r.2
/-- The contexts whose state for the core lies in its shadow bank or is saved. -/
def State.elsewhere (s : State) : List (BitVec 12) :=
  let shadow := match s.core.shadow with
    | .filled b _ | .unspilled b => if b.loaded then [b.ctx] else []
    | _ => []
  let saved := (s.ctxs.filter fun x => !shadow.any (· == x.id) && x.saved.any fun e => e.1 == s.cur).map (·.id)
  (shadow ++ saved).filter fun id => !(s.bank.loaded && s.bank.ctx == id)
/-- An operation on the state that is loaded on the core, and then on each that is not. -/
def State.everywhere (s : State) (f : State → State) : State := s.elsewhere.foldl (fun s id => s.inState id f) (f s)
/-- An increment of a semaphore of the context on a core (R344). -/
def State.semAt (s : State) (id : BitVec 12) (c : Fin 256) (sem : Fin 64) (k : Nat) : State :=
  s.setBankOf id c ((s.bankOf id c).semAdd sem k)
/-- A semaphore message to a core (R318): kind 3, with the semaphore and the count. -/
def State.sendSem (s : State) (dst : Fin 256) (sem : Fin 64) (k : Nat) (ofStrand : Bool) : State :=
  s.send fun id =>
    let m := s.msg0 3 dst id
    { m with strand := if ofStrand then m.strand else none, rel := true, ref := sem.val, count := k }
/-- The semaphores of a completed command (R293). -/
def State.raiseSems (s : State) (c : Cmd) : State :=
  let b := c.block
  let one := fun (s : State) (t : Nat) =>
    if t = s.cur.val then s.modBank fun x => x.semAdd b.sem b.seminc else s.sendSem (fin 256 t) b.sem b.seminc false
  if !b.raises || c.fault.isSome then s
  else if !b.remote then s.modBank fun x => x.semAdd b.sem b.seminc
  else if b.mcmask = 0 then one s b.semcore
  else b.targets.foldl one s
/-- The far increments of a far command, each to be acknowledged; one that no binding or port carries faults the command
(R428, R432, R435, R437). -/
def State.signalFar (s : State) (c : Cmd) : State × Nat × Option ElemFault :=
  let sides := if c.kind = .halo then c.extra else [(c.far, c.block)]
  sides.foldl (fun r x =>
    if x.2.raises && x.2.remote then
      match peerOf s x.1 with
      | some ctx =>
        if s.reachesFor c x.1 then (r.1.sendFar c.id x.1 c.total (.incr ctx (fin 256 x.2.semcore) x.2.sem x.2.seminc), r.2.1 + 1, r.2.2)
        else (r.1, r.2.1, some (elemFault (causeProtection, 0) 3))
      | none => (r.1, r.2.1, some (elemFault (causeProtection, 0) 3))
    else r) (s, 0, none)
/-- The slots of a push that are not filled yet, such as those that no element writes, are filled as it completes (R298, R299). -/
def State.fillSlots (s : State) (c : Cmd) : State :=
  match c.ring with
  | some (n, ixs) => s.setRing s.bank.ctx ((c.ungiven ixs).foldl (fun r ix => r.fill ix c.mts) (s.ringOf n.toNat))
  | none => s
/-- A started command whose elements are all performed and acknowledged completes. -/
def State.finishCopy (s : State) (q : Fin 4) : State :=
  match s.bank.queues[q].cmds.find? fun c => c.started && c.done == c.total && c.acks == 0 with
  | none => s
  | some c =>
    let push := c.isFar && c.kind != .xpull
    let r := if push && !c.signalled && c.fault.isNone then s.signalFar c else (s, 0, none)
    if r.2.1 ≠ 0 then r.1.modCmd q c.id fun c => { c.fail c.total r.2.2 with signalled := true, acks := r.2.1 }
    else
      let c := c.fail c.total r.2.2
      let s := s.fillSlots c
      (if push && c.block.remote then s else s.raiseSems c).complete q c
/-- COPY_COMMAND_COMPLETE: a command of a context that has left the core finishes in the background (R309). -/
def execCopyCommandComplete (c : Fin 256) (q : Fin 4) (s : State) : Out :=
  .next (s.on c fun s => s.everywhere fun s => s.finishCopy q)

end Sys2Proof.Machine
end

