-- ==== Sys2Proof/Machine/MatOps.lean ====
section
/-! DEFINITION. Tensor descriptors and nest configurations (R241 to R252), and how a nest starts and stops
(R253, R257 to R260, R270, R295). -/
namespace Sys2Proof.Machine

/-! ## The tensor identifier table (R241) -/
/-- Entry `id` of the table in memory, through the page tables; none when reading it faults (R244). -/
def tableEntry (s : State) (id : Nat) : Option Desc :=
  let va := s.ctx.tdtab.toNat / 2 ^ 14 % 2 ^ 42 * 2 ^ 14 + 64 * id
  if !isHbmKind va then none
  else match walkOf s s.ctx .load va with
    | .error _ => none
    | .ok l =>
      let k := l.pa va
      if s.pois k || s.pois (k + 32) then none else some (BitVec.ofNat 512 (s.rdN k 64))
/-- TENSOR_ID (R244). -/
def tensorTrap {α : Type} (id reason : Nat) : Res α := .error (.trap causeTensor (id + 2 ^ 8 * reason))
/-- Entry `id` as the core sees it: the task's override, its cached entry, else the table, which it then caches. -/
def State.descOf (s : State) (id : Nat) : Res (State × Desc) :=
  let key := BitVec.ofNat 8 id
  let pick := fun (l : List (BitVec 8 × BitVec 512)) => (l.find? fun e => e.1 == key).map (·.2)
  match s.bank.task with
  | some t =>
    match (pick t.overs).orElse fun _ => pick t.descs with
    | some d => .ok (s, d)
    | none => match tableEntry s id with
      | some d => .ok (s.modTask fun t => { t with descs := (key, d) :: t.descs }, d)
      | none => tensorTrap id 6
  | none => match tableEntry s id with
    | some d => .ok (s, d)
    | none => tensorTrap id 6

/-! ## The checks of R244 -/
/-- The types accepted for a role; an ACC of 3 accepts every type of OUT (R252). -/
def tyAccepted (role acc ty : Nat) : Bool :=
  if role = 1 then ty == 6 || ty == 9
  else if role = 2 then ty == 6 || ty == 12 || ty == 9 || ty == 13
  else if acc = 3 then true
  else if acc = 2 then ty == 0 || ty == 1 || ty == 2
  else ty == 8 || ty == 0
/-- The checks of a descriptor's form: reasons 3 to 5. -/
def Desc.formReason (d : Desc) (role : Nat) : Option Nat :=
  let sparse := d.sparse
  let lo := sparse % 16
  let hi := sparse / 16
  if d.base % 64 ≠ 0 ∨ d.mbase % 64 ≠ 0 ∨ d.rstr % 64 ≠ 0 ∨ d.mstr % 64 ≠ 0 then some 3
  else if sparse ≠ 0 ∧ (role ≠ 1 ∨ !(decide (2 ≤ lo ∧ lo ≤ 4) && decide (1 ≤ hi ∧ hi ≤ 2))) then some 4
  else if d.base / 2 ^ 56 ≠ 0 ∨ d.hint / 4 ≠ 0 ∨ fld d 48 16 ≠ 0 then some 5
  else none
/-- The first failing reason of a descriptor used in a role. -/
def Desc.reason (d : Desc) (role acc : Nat) : Option Nat :=
  if d.role ≠ role then some 1 else if !tyAccepted role acc d.ty then some 2 else d.formReason role
/-- A descriptor used in a role (R244). -/
def State.useDesc (s : State) (id role acc : Nat) : Res (State × Desc) :=
  match s.descOf id with
  | .error e => .error e
  | .ok (t, d) => match d.reason role acc with
    | some r => tensorTrap id r
    | none => .ok (t, d)

/-! ## The checks of MCFG (R252) -/
/-- The bytes of the header and of the levels that are out of range, lowest first. -/
def nestByte (n : NestSet) : Option Nat :=
  let i8a := n.a.ty == 6
  let b4 := n.b4
  let head : List (Nat × Nat) := [
    (3, bit (n.acc == 3 || (i8a && n.mid) || decide (5 < n.mode / 8 % 8) || n.mode / 64 != 0)),
    (4, bit (decide (n.p < 2) || decide (8 < n.p) || (i8a && n.p != 8))),
    (5, bit (!(n.pr == 8 || n.pr == 16 || n.pr == 32) || (b4 && n.pr == 32))),
    (6, bit (decide ((if b4 then 4 else 3) < fld n 6 1))),
    (7, bit (decide (5 < n.ocv % 8) || n.ocv / 16 != 0))]
  let zero := fun (off k : Nat) => (List.range k).map fun i => (off + i, fld n (off + i) 1)
  let levels := (List.range 6).flatMap fun j =>
    let o := 64 + 32 * j
    [(o, bit (n.trip j == 0)), (o + 2, n.act j / 8), (o + 3, fld n (o + 3) 1)] ++ zero (o + 20) 12
  let coords := (List.range 8).map fun x =>
    let ext := fun (f : Int → Int → Int) => (List.range 6).foldl (fun a j => a + f 0 (((n.trip j : Int) - 1) * n.stride j x)) (n.origin x)
    let view : Int := if x = 4 then (if b4 then 16 else 32) / (n.pr : Int) else if x = 5 then n.w / (n.pc : Int) else 2 ^ 62
    (8 + 4 * x, bit (decide (ext min < 0) || (decide (x = 4 ∨ x = 5) && decide (view ≤ ext max))))
  lowest (head ++ coords ++ zero 40 24 ++ levels)
/-- The configuration of a block of 256 bytes with its three snapshots (R252, R267). -/
def State.loadNest (s : State) (v : Nat) : Res (State × NestSet) :=
  let block := BitVec.ofNat 2048 v
  match s.useDesc (fld block 0 1) 1 0 with
  | .error e => .error e
  | .ok (s, a) => match s.useDesc (fld block 1 1) 2 0 with
    | .error e => .error e
    | .ok (s, b) => match s.useDesc (fld block 2 1) 3 (fld block 3 1 % 4) with
      | .error e => .error e
      | .ok (s, o) =>
        let n : NestSet := BitVec.ofNat 3584 (v + a.toNat * 2 ^ 2048 + b.toNat * 2 ^ 2560 + o.toNat * 2 ^ 3072)
        match nestByte n with
        | some off => .error (.trap causeParam off)
        | none => .ok (s, n)

/-! ## Starting and stopping -/
/-- The MGO that an engine command's token names. -/
def State.newMgo (s : State) (x : XE) : QueuedMgo :=
  ⟨s.dev.fab.nextMsg, s.curS, x.td, s.pendingOf x, (s.faultedOf x).isSome, (s.bank.task.map (·.id)).getD 0⟩
/-- A nest that may not start because of a faulted token (R295). -/
def State.mgoRefused (s : State) (r : QueuedMgo) : State :=
  (s.modMat fun m => { m with mstat3 := BitVec.ofNat 64 causeToken, mstat4 := 0 }).finishToken r.strand r.td
    (some (BitVec.ofNat 8 causeToken))
/-- The active set starts: state 1, its indices and its pass count at 0 (R254, R259). -/
def Matrix.begin (m : Matrix) : Matrix :=
  { m with eng := .running, phase := .pass, idx := Vector.replicate 6 0, row := 0, plane := 0, sweep := 0, passes := 0 }
/-- The nest that was copied starts once its consumed tokens are complete; else a queued MGO copies the shadow set
and starts once the engine is idle and its tokens are complete (R253, R270, R295). Until then the engine field of MSTAT word 0
and the active set that MCFGR reads stay as they were (log 9). -/
def State.startNest (s : State) : State :=
  let m := s.bank.mat
  match m.running, m.queued with
  | some r, _ =>
    if m.eng = .running ∨ !r.used.isEmpty then s
    else if r.bad then (s.modMat fun m => { m with running := none }).mgoRefused r
    else s.modMat fun m => { m with active := m.copied }.begin
  | none, some r =>
    if !r.used.isEmpty then s
    else
      let s := s.modMat fun m => { m with queued := none, shadowSt := .loaded }
      if r.bad then s.mgoRefused r
      else s.modMat fun m => { m with active := m.shadow, running := some r }.begin
  | none, none => s
/-- The requests of the running nest that are next enter q3 now: from here on they stand behind what entered before (R195, R256). -/
def State.enterRequests (s : State) : State :=
  let id := s.dev.fab.nextMsg
  (s.modFab fun f => { f with nextMsg := f.nextMsg + 1 }).modMat fun m => { m with running := m.running.map fun r => { r with id := id } }
/-- MGO (R253, R270). The engine is busy with the nests of the tasks before it too (R376, R390). -/
def State.mgo (s : State) (x : XE) : Res State :=
  match s.engGate x with
  | .error e => .error e
  | .ok s =>
    let m := s.bank.mat
    let r := s.newMgo x
    let s := s.modFab fun f => { f with nextMsg := f.nextMsg + 1 }
    match m.shadowSt with
    | .empty => .error (.trap causeParam 0x100)
    | .pending => .error (.wait .other)
    | .loaded =>
      if s.bank.engineBusy then .ok ((s.modMat fun m => { m with queued := some r, shadowSt := .pending }).produce x)
      else .ok (((s.modMat fun m => { m with copied := m.shadow, running := some r }).produce x).startNest)
/-- A nest stops on a fault after what it has done (R258, R259): its token, a queued MGO, the record of MSTAT. -/
def State.nestFault (s : State) (f : EngFault) (operand : Nat) : State :=
  let m := s.bank.mat
  let s := s.modMat fun m =>
    { m with
      eng := .fault, running := none, queued := none
      shadowSt := if m.shadowSt = .pending then .loaded else m.shadowSt
      mstat3 := BitVec.ofNat 64 (f.1 + 2 ^ 8 * operand), mstat4 := BitVec.ofNat 64 f.2 }
  let s := match m.running with
    | some r => s.finishToken r.strand r.td (some (BitVec.ofNat 8 f.1))
    | none => s
  match m.queued with
  | some r => s.finishToken r.strand r.td (some (BitVec.ofNat 8 causeToken))
  | none => s
/-! ## Bank tags (R239) -/
/-- The tags that a condition picks out are cleared (R239). -/
def State.clearTags (s : State) (f : Tag → Bool) : State :=
  s.modMat fun m => { m with tags := m.tags.map fun t => if f t then Tag.none else t }

end Sys2Proof.Machine
end

