-- ==== Sys2Proof/Machine/Matrix.lean ====
section
/-! DEFINITION. The meanings of the matrix instructions (R264 to R275). -/
namespace Sys2Proof.Machine

/-- The parcels of an instruction that has a length 00 and a length 01 without a field in it. -/
def parcelsOf (long : Bool) : Nat := if long then 2 else 1
/-- PARAM with a register's value where it must be zero (R264). -/
def paramTrap {α : Type} (x : W64) : Res α := .error (.trap causeParam x.toNat)

/-! ## Descriptors -/
/-- TDSET (R265). -/
def State.tdset (s : State) (a b : Fin 64) (x : XE) : Res State :=
  match s.acquire x with
  | .error e => .error e
  | .ok s =>
    let id := (s.rs b).toNat
    if id / 2 ^ 8 ≠ 0 then paramTrap (s.rs b)
    else match s.blockLoad (s.rs a).toNat 64 64 (s.free 64 2).toNat with
      | .error e => .error e
      | .ok v =>
        let key := BitVec.ofNat 8 id
        .ok ((s.modTask fun t => { t with overs := (key, BitVec.ofNat 512 v) :: t.overs.filter (·.1 != key) }).clearTags
          fun t => t.tensor == key)
def execTdset (a b : Fin 64) (s : State) : Out := s.seq 1 (s.tdset a b XE.none)
def execTdsetL (a b : Fin 64) (x : XE) (s : State) : Out := s.seq 2 (s.tdset a b x)
/-- TDGET (R266). -/
def execTdget (d a b : Fin 64) (long : Bool) (s : State) : Out :=
  if s.fenceHold then s.stop (.wait .other)
  else s.seq (parcelsOf long)
    (if (s.rs a).toNat / 2 ^ 8 ≠ 0 then paramTrap (s.rs a)
    else if (s.rs b).toNat / 2 ^ 3 ≠ 0 then paramTrap (s.rs b)
    else match s.clearFence.descOf (s.rs a).toNat with
      | .error e => .error e
      | .ok (t, v) => .ok (t.setS d (BitVec.ofNat 64 (fld v (8 * (s.rs b).toNat) 8))))

/-! ## The configuration -/
/-- MCFG (R252, R253, R267). -/
def State.mcfg (s : State) (a : Fin 64) (x : XE) : Res State :=
  match s.acquire x with
  | .error e => .error e
  | .ok s =>
    if s.bank.mat.shadowSt = .pending then .error (.wait .other)
    else match s.blockLoad (s.rs a).toNat 256 64 (s.free 64 3).toNat with
      | .error e => .error e
      | .ok v => match s.loadNest v with
        | .error e => .error e
        | .ok (t, n) => .ok (t.modMat fun m => { m with shadow := n, shadowSt := .loaded })
def execMcfg (a : Fin 64) (s : State) : Out := s.seq 1 (s.mcfg a XE.none)
def execMcfgL (a : Fin 64) (x : XE) (s : State) : Out := s.seq 2 (s.mcfg a x)
/-- MCFGR (R268). -/
def execMcfgr (d b : Fin 64) (long : Bool) (s : State) : Out :=
  let v := (s.rs b).toNat
  let set : NestSet :=
    if v / 64 % 2 = 1 then s.bank.mat.active else if s.bank.mat.shadowSt = .empty then 0 else s.bank.mat.shadow
  if s.fenceHold then s.stop (.wait .other)
  else s.seq (parcelsOf long)
    (if v / 2 ^ 7 ≠ 0 then paramTrap (s.rs b)
    else .ok (s.clearFence.setS d (BitVec.ofNat 64 (fld set (8 * (v % 64)) 8))))

/-! ## Bank loads and nests -/
/-- MLDB (R269): the load itself is BANK_LOAD. It enters q3 as it retires, which holds at most 8 of the fetcher's entries
(R256, R282, log 9). -/
def State.mldb (s : State) (a b : Fin 64) (x : XE) : Res State :=
  match s.queueGate 3 x with
  | .error e => .error e
  | .ok s =>
    if 8 ≤ s.bank.bankLoads.length then .error (.wait .other)
    else
    let va := (s.rs a).toNat
    if va / 2 ^ 8 % 2 ^ 24 ≠ 0 then paramTrap (s.rs a)
    else if (s.rs b).toNat / 2 ^ 32 ≠ 0 then paramTrap (s.rs b)
    else match s.useDesc (va % 2 ^ 8) 2 0 with
      | .error e => .error e
      | .ok (t, d) =>
        let tag : Tag := ⟨true, s.bank.ctx, BitVec.ofNat 8 va, BitVec.ofNat 32 (va / 2 ^ 32), (s.rs b).setWidth 32,
          BitVec.ofNat 64 d.base, d.rstr, d.elem, d.rows, d.cols, false, false⟩
        let load : PendLoad := ⟨s.dev.fab.nextMsg, fin 4 x.imm.toNat, tag, s.curS, x.td, s.pendingOf x, (s.faultedOf x).isSome⟩
        let t := t.modFab fun f => { f with nextMsg := f.nextMsg + 1 }
        .ok ((t.modMat fun m => { m with loads := m.loads ++ [load] }).produce x)
def execMldb (a b : Fin 64) (s : State) : Out := s.seq 1 (s.mldb a b XE.none)
def execMldbL (a b : Fin 64) (x : XE) (s : State) : Out := s.seq 2 (s.mldb a b x)
def execMgo (s : State) : Out := s.seq 1 (s.mgo XE.none)
def execMgoL (x : XE) (s : State) : Out := s.seq 2 (s.mgo x)

/-! ## The accumulator file (R246, R257, R271, R272) -/
/-- An instruction that waits for the nests before it (R257). -/
def State.afterNest (s : State) (r : State → Res State) : Res State :=
  if s.fenceHold || s.bank.engineBusy then .error (.wait .other) else r s.clearFence
def execMzero (long : Bool) (s : State) : Out :=
  s.seq (parcelsOf long) (s.afterNest fun s => .ok (s.modMat fun m =>
    { m with acc := Vector.replicate 32 (Vector.replicate 1024 0), accPois := Vector.replicate 32 0, mflag := 0, eng := .idle }))
/-- The location operand of MRD and MWR: a row and the first column. -/
def accLoc (a : W64) : Option (Fin 32 × Nat) :=
  let v := a.toNat
  if v / 2 ^ 5 % 8 ≠ 0 ∨ v / 2 ^ 11 ≠ 0 then none else some (fin 32 v, 128 * (v / 2 ^ 8))
def execMrd (vd : Fin 32) (a : Fin 64) (long : Bool) (s : State) : Out :=
  s.seq (parcelsOf long) (s.afterNest fun s =>
    match accLoc (s.rs a) with
    | none => paramTrap (s.rs a)
    | some (row, c0) =>
      let m := s.bank.mat
      if (List.range 128).any fun j => m.accPois[row].getLsbD (c0 + j) then .error (.trap causePoison (s.rs a).toNat)
      else
        let l := m.acc[row].toList.drop c0
        (s.vecIn [] (some vd) false []).map fun io => io.write vd (vecOf 32 fun j => (l.getD j 0).toNat))
def execMwr (vd : Fin 32) (a : Fin 64) (long : Bool) (s : State) : Out :=
  s.seq (parcelsOf long) (s.afterNest fun s =>
    match accLoc (s.rs a) with
    | none => paramTrap (s.rs a)
    | some (row, c0) =>
      let keep : BitVec 1024 := ~~~((BitVec.allOnes 1024 >>> 896) <<< c0)
      (s.vecIn [vd] none false []).map fun io => io.s.modMat fun m =>
        let x := io.v vd
        { m with
          acc := m.acc.set row (m.acc[row].mapFinIdx fun c old _ =>
            if c0 ≤ c ∧ c < c0 + 128 then BitVec.ofNat 32 (lane 32 x (c - c0)) else old)
          accPois := m.accPois.set row (m.accPois[row] &&& keep) })

/-! ## Status, sampling and abort -/
def bankTag (t : Tag) : Nat :=
  t.tensor.toNat + 2 ^ 8 * bit t.valid + 2 ^ 9 * bit (t.ty.bits == 4) + 2 ^ 10 * bit t.unloaded + 2 ^ 11 * (t.group.toNat % 2 ^ 21)
    + 2 ^ 32 * t.kb.toNat
/-- The status words (R273). -/
def Matrix.status (m : Matrix) (w : Nat) : W64 :=
  let eng := match m.eng with | .idle => 0 | .running => 1 | .fault => 2
  let shadow := match m.shadowSt with | .empty => 0 | .loaded => 1 | .pending => 2
  let i := fun (j : Nat) => m.idx.toList.getD j 0
  match w with
  | 0 => BitVec.ofNat 64 (eng + 4 * shadow + 2 ^ 32 * m.passes.toNat)
  | 1 => BitVec.ofNat 64 (i 0 + 2 ^ 16 * i 1 + 2 ^ 32 * i 2 + 2 ^ 48 * i 3)
  | 2 => BitVec.ofNat 64 (i 4 + 2 ^ 16 * i 5 + 2 ^ 32 * m.row.toNat + 2 ^ 40 * m.plane.toNat + 2 ^ 44 * m.sweep.toNat)
  | 3 => m.mstat3
  | 4 => m.mstat4
  | 5 => BitVec.ofNat 64 ((List.range 32).foldl (fun n r => n + 2 ^ r * bit (m.accPois.toList.getD r 0 != 0)) 0)
  | w => BitVec.ofNat 64 (bankTag (m.tags.toList.getD (w - 6) Tag.none))
def execMstat (d a : Fin 64) (long : Bool) (s : State) : Out :=
  if s.fenceHold then s.stop (.wait .other)
  else s.seq (parcelsOf long)
    (if 10 ≤ (s.rs a).toNat then paramTrap (s.rs a) else .ok (s.clearFence.setS d (s.bank.mat.status (s.rs a).toNat)))
/-- A new sampling count (R263, R274, R278). The next drain is a sampled one after a CSRW of mchk as after MCHK (DEDUCED, log 28: R263
names MCHK alone, and R278 gives a write of N no more than COUNT := 0). -/
def Matrix.sample (m : Matrix) (n : BitVec 16) : Matrix := { m with checkN := n, checkC := 0, checkNow := true }
def execMchk (a : Fin 64) (long : Bool) (s : State) : Out :=
  if s.fenceHold then s.stop (.wait .other)
  else s.seq (parcelsOf long)
    (if (s.rs a).toNat / 2 ^ 16 ≠ 0 then paramTrap (s.rs a)
    else .ok (s.clearFence.modMat (·.sample ((s.rs a).setWidth 16))))
/-- MABORT (R259, R260, R275). -/
def execMabort (long : Bool) (s : State) : Out :=
  if s.fenceHold then s.stop (.wait .other) else s.seq (parcelsOf long) (.ok s.clearFence.abortNest)

end Sys2Proof.Machine
end

