-- ==== Sys2Proof/Machine/Sync.lean ====
section
/-! DEFINITION. The meanings of the synchronisation instructions: tokens (R343), semaphores (R346, R347) and named
barriers (R348 to R351). -/
namespace Sys2Proof.Machine

/-! ## Tokens (R343) -/
def execTwait (x : XE) (s : State) : Out := s.seq 2 (s.acquire x)
/-- TTEST: the state and the cause of a FAULTED token. -/
def tokWord (t : Token) : W64 :=
  match t.st with
  | .idle => 0
  | .pending => 1
  | .done => 2
  | .faulted => BitVec.ofNat 64 (3 + 2 ^ 8 * t.cause.toNat)
def execTtest (d : Fin 64) (ta : Fin 32) (s : State) : Out :=
  if s.fenceHold then s.stop (.wait .other)
  else s.clearFence.put 2 d (if ta = 0 then 0 else tokWord s.strand.t[ta])

/-! ## Semaphores (R345 to R347) -/
/-- The form of an instruction with an optional parcel of tokens: its parcels and its X-E fields. -/
def formOf (x : Option XE) : Nat × XE := match x with
  | none => (1, XE.none)
  | some x => (2, x)
/-- SEMACQ: served at once when no older waiter is on the semaphore and the count is there, else it waits. A waiter
that is served later retires then, and its weight counts then (R345, R490); one that is served at once has issued as others do. -/
def State.semacq (s : State) (n : Nat) (sem : Fin 64) (x : XE) : Out :=
  match s.acquire x with
  | .error e => s.stop e
  | .ok s =>
    let need := countOf x
    let waits := s.stop (.wait (.sem sem need))
    if s.bank.waiters.any fun w => w == .strand s.curS sem need n then waits
    else
      let t := s.modBank fun b =>
        let c : Bank := { b with waiters := joinWaiters (.strand s.curS sem need n) s.dev.fabricCycles b.waiters }
        c.serve sem
      if t.bank.waiters.any fun w => w == .strand s.curS sem need n then t.stop (.wait (.sem sem need))
      else .next (t.modBank fun b => { b with late := if s.strand.smode then b.late else b.late - 1 })
def execSemacq (sem : Fin 64) (s : State) : Out := s.semacq 1 sem XE.none
def execSemacqL (sem : Fin 64) (x : XE) (s : State) : Out := s.semacq 2 sem x
/-- The core that a target or home operand names (R347, R351). -/
def State.homeOf (s : State) (a : Fin 64) : Res (Fin 256) :=
  let v := (s.rs a).toNat
  if v = 0 then .ok s.cur
  else if v / 2 ^ 9 ≠ 0 ∨ v / 2 ^ 8 % 2 = 0 then .error (.trap causeParam v)
  else if !s.inPart (v % 2 ^ 8) then .error (.trap causeProtection v)
  else .ok (fin 256 v)
/-- SEMREL: a local increment is performed as it issues, after the stores before it; a remote one is a message after the strand's earlier accesses. -/
def State.semrel (s : State) (sem : Fin 64) (a : Fin 64) (x : XE) : Res State :=
  match s.acquire x with
  | .error e => .error e
  | .ok s => match s.homeOf a with
    | .error e => .error e
    | .ok c =>
      if c = s.cur then s.released.map fun s => s.modBank fun b => b.semAdd sem (countOf x)
      else .ok (s.escape.sendSem c sem (countOf x) true)
def execSemrel (sem : Fin 64) (a : Fin 64) (s : State) : Out := s.seq 1 (s.semrel sem a XE.none)
def execSemrelL (sem : Fin 64) (a : Fin 64) (x : XE) (s : State) : Out := s.seq 2 (s.semrel sem a x)
def execSemrd (d : Fin 64) (sem : Fin 64) (x : Option XE) (s : State) : Out :=
  s.seq (formOf x).1 ((s.acquire (formOf x).2).map fun s => s.setS d ((s.bank.sems[sem]).setWidth 64))
def execSemset (sem : Fin 64) (a : Fin 64) (x : Option XE) (s : State) : Out :=
  s.seq (formOf x).1 (match s.acquire (formOf x).2 with
    | .error e => .error e
    | .ok s =>
      if (s.rs a).toNat / 2 ^ 32 ≠ 0 then paramTrap (s.rs a)
      else .ok (s.modBank fun b => (b.setSem sem ((s.rs a).setWidth 32)).serve sem))

/-! ## Named barriers (R348 to R351) -/
/-- The number of one bits of a mask. -/
def ones {w : Nat} (x : BitVec w) : Nat := ((List.range w).filter fun i => x.getLsbD i).length
/-- The participant count P. -/
def Bar.p (b : Bar) : Nat := ones b.strands + ones b.cores
/-- The arrivals counted in the phase. -/
def Bar.arrived (b : Bar) : Nat := ones b.arrStr + ones b.arrCores
/-- BARCFG (R348). -/
def State.barcfg (s : State) (b : Fin 48) (a : Fin 64) (x : XE) : Res State :=
  match s.acquire x with
  | .error e => .error e
  | .ok s => match s.blockLoad (s.rs a).toNat 64 64 0x100 with
    | .error e => .error e
    | .ok v =>
      let blk := BitVec.ofNat 512 v
      let cores : BitVec 256 := blk.setWidth 256
      let bad := (List.range 256).find? fun i => cores.getLsbD i && (i == s.cur.val || !s.inPart i)
      let bytes : List (Nat × Nat) := [(32, fld blk 32 1 / 16)] ++ (List.range 31).map fun i => (33 + i, fld blk (33 + i) 1)
      let new : Bar := ⟨cores, BitVec.ofNat 4 (fld blk 32 1), 0, 0, 0⟩
      match bad.map (· / 8) |>.orElse (fun _ => if new.p = 0 then some 0 else none) |>.orElse (fun _ => lowest bytes) with
      | some off => .error (.trap causeParam off)
      | none =>
        let old := s.bank.bars[b]
        if old.arrived ≠ 0 then .error (.trap causeBarrier b.val)
        else .ok (s.modBank fun k => { k with bars := k.bars.set b { new with phase := old.phase } })
/-- Whether the release of the record of a running strand is due, whether the strand still waits for it or a trap abandoned
the wait (R354, R355). -/
def Bank.releaseDue (b : Bank) : Bool :=
  b.strands.toList.any fun t => t.run && t.arr.valid && (t.arr.released || b.due.any fun d => d.home == t.arr.home && d.bar == t.arr.bar)
/-- A phase of a barrier at its home is complete: the next phase begins, and its participants are released (R349). -/
def releasePhase (s : State) (id : BitVec 12) (home : Fin 256) (b : Fin 48) : State :=
  let k := s.bankOf id home
  let x := k.bars[b]
  if x.p = 0 ∨ x.arrived < x.p then s
  else
    let s := s.setBankOf id home
      { k with
        bars := k.bars.set b { x with phase := x.phase + 1, arrCores := 0, arrStr := 0 }
        due := if x.strands = 0 then k.due else k.due ++ [⟨home, b, none⟩] }
    (List.range 256).foldl (fun s c =>
      if x.cores.getLsbD c then
        s.send fun i => { s.msg0 19 (fin 256 c) i with src := home, strand := none, ctx := id, count := b.val }
      else s) s
/-- Whether the strand's arrival record names a barrier. -/
def State.arrNames (s : State) (home : Fin 256) (b : Fin 48) : Bool :=
  s.strand.arr.valid && s.strand.arr.home == home && s.strand.arr.bar == b
/-- BARARR (R349 to R351): the record, and the arrival counted at a local home or sent to a remote one. -/
def State.arrive (s : State) (home : Fin 256) (b : Fin 48) (sync : Bool) : Res State :=
  let r := s.strand.arr
  let record := fun (s : State) => s.modStrand fun t => { t with arr := ⟨true, home, b, false, false, sync⟩ }
  if r.valid && !r.released then .error (.trap causeBarrier b.val)
  else if home = s.cur then
    let x := s.bank.bars[b]
    if !x.strands.getLsbD s.curS.val || x.arrStr.getLsbD s.curS.val then .error (.trap causeBarrier b.val)
    else if s.pendingBelow s.releaseBound then .error (.wait (.drain s.releaseBound))
    else
      let s := record (s.modBank fun k => { k with bars := k.bars.set b { x with arrStr := x.arrStr ||| BitVec.ofNat 4 (2 ^ s.curS.val) } })
      .ok (releasePhase s s.bank.ctx home b)
  else
    .ok (record (s.send fun i =>
      { s.msg0 4 home i with rel := true, ref := s.curS.val, count := b.val }))
/-- The end of BARWAIT and BARSYNC (R351). -/
def State.barEnd (s : State) (n : Nat) (home : Fin 256) (b : Fin 48) : Out :=
  let r := s.strand.arr
  if !s.arrNames home b then s.stop (.trap causeBarrier b.val)
  else if !r.released then s.stop (.wait (.bar home b))
  else
    let s := s.modStrand fun t => { t with arr := { r with valid := false, sync := false } }
    if r.error then s.stop (.trap causeBarrier b.val) else .next (s.retire n)
/-- The tokens and the home of a barrier instruction (R351). -/
def State.barGate (s : State) (a : Fin 64) (x : Option XE) : Res (State × Fin 256) :=
  match s.acquire (formOf x).2 with
  | .error e => .error e
  | .ok s => (s.homeOf a).map fun h => (s, h)
def execBarcfg (b : Fin 48) (a : Fin 64) (x : Option XE) (s : State) : Out := s.seq (formOf x).1 (s.barcfg b a (formOf x).2)
def execBararr (b : Fin 48) (a : Fin 64) (x : Option XE) (s : State) : Out :=
  s.seq (formOf x).1 (match s.barGate a x with
    | .error e => .error e
    | .ok (s, h) => s.arrive h b false)
def execBarwait (b : Fin 48) (a : Fin 64) (x : Option XE) (s : State) : Out :=
  match s.barGate a x with
  | .error e => s.stop e
  | .ok (s, h) => s.barEnd (formOf x).1 h b
/-- BARSYNC: a wait that a trap or a swap abandoned does not arrive a second time (R355). -/
def execBarsync (b : Fin 48) (a : Fin 64) (x : Option XE) (s : State) : Out :=
  match s.barGate a x with
  | .error e => s.stop e
  | .ok (s, h) =>
    if s.strand.arr.sync && s.arrNames h b then s.barEnd (formOf x).1 h b
    else match s.arrive h b true with
      | .error e => s.stop e
      | .ok t => t.barEnd (formOf x).1 h b
def execBartest (b : Fin 48) (d a : Fin 64) (x : Option XE) (s : State) : Out :=
  s.seq (formOf x).1 ((s.barGate a x).map fun (s, h) =>
    let r := s.strand.arr
    s.setS d (if s.arrNames h b then BitVec.ofNat 64 (bit r.released + 2 * bit r.error) else 0))

end Sys2Proof.Machine
end

