-- ==== Sys2Proof/Machine/Csr.lean ====
section
/-! DEFINITION. The CSRs of every chapter: what each reads as, who may access it and what a write does (R7, R51, R455);
the meanings of CSRR and CSRW, and of the writes that have a row of their own. -/
namespace Sys2Proof.Machine

/-! ## Trackers (R328) -/
/-- IDX of a flit (R317). -/
def Flit.idx (f : Flit) : Nat := f.hdr.toNat / 2 ^ 49 % 16
/-- The numbers of the flits of a message that have been ejected and taken from the intake (R328, R330). -/
def State.arrivedIdx (s : State) (m : Msg) : List Nat :=
  let away := (s.dev.fab.flits ++ s.dev.fab.intake).filter (·.msg == m.id)
  if m.st = .queued then [] else (List.range m.flits).filter fun i => !away.any fun f => f.idx == i
/-- The messages that hold an A-plane tracker of a core's site, and those that hold a Q-plane tracker of it. -/
def State.aTracked (s : State) (c : Fin 256) : List Msg := s.dev.fab.net.filter fun m => !m.onA && m.src == c && m.tag.isSome
def State.qTracked (s : State) (c : Fin 256) : List Msg := s.dev.fab.net.filter fun m => m.dst == c && m.qtrk.isSome
/-- The trackers in use at a core's site. -/
def State.aTrackers (s : State) (c : Fin 256) : Nat := (s.aTracked c).length
def State.qTrackers (s : State) (c : Fin 256) : Nat := (s.qTracked c).length

/-! ## Reading -/
def roleCode : Role → Nat
  | .l => 0 | .c => 1 | .e => 2 | .none => 3
/-- A bit per strand. -/
def Bank.mask (b : Bank) (f : Strand → Bool) : Nat :=
  (List.range 4).foldl (fun n i => n + 2 ^ i * bit (f (b.strands.toList.getD i Strand.clear))) 0
def LoopCtr.word (l : LoopCtr) : Nat := l.count.toNat + 2 ^ 32 * bit l.active + 2 ^ 33 * l.len.toNat
/-- swaitn (R356). -/
def waitWord (me : Fin 256) : Wait → Nat
  | .token t => 1 + 2 ^ 8 * t.val
  | .sem n k => 2 + 2 ^ 8 * n.val + 2 ^ 32 * (k % 2 ^ 12)
  | .bar h b => 3 + 2 ^ 8 * b.val + 2 ^ 16 * h.val + 2 ^ 24 * bit (h != me)
  | _ => 0
/-- netst (R338). -/
def State.netst (s : State) : Nat :=
  let c := s.core
  let die := dieOf (s.siteOf s.cur)
  let starve := s.dev.fab.relief.any fun r => r.2 == s.siteOf s.cur
  c.level.toNat + 2 ^ 9 * bit (decide (Config.netCap ≤ s.dieFlits die false)) + 2 ^ 10 * bit (decide (Config.netCap ≤ s.dieFlits die true))
    + 2 ^ 11 * bit starve + 2 ^ 24 * s.qTrackers s.cur + 2 ^ 32 * s.aTrackers s.cur + 2 ^ 48 * c.perr.toNat
/-- ringst (R313). -/
def State.ringst (s : State) : Nat :=
  let n := s.strand.ringsel.toNat
  match ringInfo s n with
  | none => 0
  | some i =>
    let r := s.ringOf n
    r.free i.depth + 2 ^ 16 * r.filledCount + 2 ^ 32 * i.depth + 2 ^ 41
/-- vuse.USED (R400): the spilled lines of the context's versions, in KiB rounded up. -/
def State.vuse (s : State) : Nat := (s.spilledLines s.bank.ctx * 128 + 1023) / 1024
/-- pvstat (R403). STEP0 and STEP1 read 0 while V0 or V1 is 0 (DESIGN CHOICE, log 34: the spec does not say). -/
def Ctx.pvstat (c : Ctx) : Nat :=
  let bank := fun (b : Option StepBank) => match b with
    | some x => x.step + 2 ^ 10
    | none => 0
  bank c.banks[0] + 2 ^ 16 * bank c.banks[1] + 2 ^ 32 * c.launches.toNat
/-- ctxst (R479). A pre-empted task is saved on the core in its shadow bank too. -/
def State.ctxst (s : State) : Nat :=
  let p := s.core.part.map s.part
  let left := (p.map fun p => (p.ends - s.dclk.toNat) / 1000).getD 0
  let saved := (s.ctxs.any fun c => c.id != s.bank.ctx && c.saved.any fun e => e.1 == s.cur && e.2.task.isSome)
    || s.core.shadow.bank.any fun b => b.loaded && b.ctx != s.bank.ctx && b.task.isSome
  s.bank.ctx.toNat + 2 ^ 16 * bit saved + 2 ^ 17 * ((p.map (·.slice)).getD 0 % 32) + 2 ^ 48 * Nat.min left (2 ^ 16 - 1)
/-- pwcap (R502). -/
def Power.word (p : Power) : Nat :=
  let eff := p.effective
  let src := if p.inForce = eff then (if p.cap.isSome then 0 else 1) else if p.thermal = eff then 2 else 3
  eff + 2 ^ 16 * p.fallback + 2 ^ 30 * src + 2 ^ 32 * (p.seq.toNat % 2 ^ 32)
/-- tcause; RESTART tells whether the task is restartable now (R475). -/
def tcauseWord (r : TrapRegs) (t : Option Task) : Nat :=
  let v := r.tcause.toNat
  v - v / 2 ^ 11 % 2 * 2 ^ 11 + 2 ^ 11 * bit (t.any (·.restartable))
/-- The value of a CSR as CSRR reads it, as a number; WO and RES fields read zero (R7). sstate.RUN reads 1 for a strand that a trap has
stopped while the handler runs (DESIGN CHOICE, log 9: R120 does not say). -/
def csrNat (s : State) (n : Nat) : Nat :=
  let t := s.strand
  let b := s.bank
  let c := s.core
  let x := s.ctx
  let r := b.trap
  let z := s.dev.zikin
  match n with
  | 0x000 => s.curS.val + 2 ^ 3 * roleCode t.role + 2 ^ 7 * bit t.smode + 2 ^ 8 * (c.part.map (·.val)).getD 0 + 2 ^ 12 * s.cur.val
  | 0x001 => c.ageLimit.toNat
  | 0x002 => t.lc[0].word
  | 0x003 => t.lc[1].word
  | 0x004 => t.lc[0].end_.toNat
  | 0x005 => t.lc[1].end_.toNat
  | 0x008 => b.bq.length
  | 0x009 => b.bq.foldr (fun e a => 2 * a + bit e) 0
  | 0x00A => b.mask (·.run) + 2 ^ 4 * b.mask (·.wait == .wfe)
  | 0x100 => 0x356 + 2 ^ 12 * 255 + 2 ^ 20 * 7
  | 0x101 => x.pgroot.toNat
  | 0x102 => x.rtab.toNat
  | 0x200 => t.rmode.toNat
  | 0x201 => t.pop.toNat + 2 ^ 8 * t.push.toNat
  | 0x202 => t.rts.toNat
  | 0x203 => 128 + 2 ^ 16 * 512
  | 0x280 => 32 + 2 ^ 8 * 128 + 2 ^ 16 * 1024 + 2 ^ 28 * 4 + 2 ^ 32 * 8
  | 0x281 => b.mat.checkN.toNat + 2 ^ 16 * b.mat.checkC.toNat
  | 0x282 => b.mat.mflag.toNat
  | 0x283 => x.tdtab.toNat
  | 0x300 => s.netst
  | 0x301 => c.netinj.toNat
  | 0x302 => c.netdefl.toNat
  | 0x303 => s.dev.fab.netcfg.toNat
  | 0x304 => b.netctl.toNat
  | 0x340 => b.queues[0].qf.toNat
  | 0x341 => b.queues[1].qf.toNat
  | 0x342 => b.queues[2].qf.toNat
  | 0x343 => b.queues[3].qf.toNat
  | 0x344 => x.ringtab.toNat
  | 0x345 => t.ringsel.toNat
  | 0x346 => s.ringst
  | 0x347 => 4 + 2 ^ 8 * 32 + 2 ^ 16 * 16
  | 0x380 => b.bgear.toNat
  | 0x381 => waitWord s.cur b.strands[0].wait
  | 0x382 => waitWord s.cur b.strands[1].wait
  | 0x383 => waitWord s.cur b.strands[2].wait
  | 0x384 => waitWord s.cur b.strands[3].wait
  | 0x385 => b.semov.toNat
  | 0x386 => b.barerr.toNat
  | 0x387 => t.barsel.toNat
  | 0x388 =>
    if t.barsel.toNat < 48 then
      let e := b.bars.toList.getD t.barsel.toNat Bar.off
      e.p + 2 ^ 16 * e.arrived + 2 ^ 32 * (e.phase % 2 ^ 16)
    else 0
  | 0x400 => x.vovf.toNat
  | 0x401 => s.vuse
  | 0x402 => x.tmarks.toNat
  | 0x403 => x.chent.toNat
  | 0x404 => x.pvstat
  | 0x405 => (b.task.map fun k => k.usedCyc.toNat + 2 ^ 32 * k.budget.toNat).getD 0
  | 0x500 => t.rngix.toNat
  | 0x501 => t.rngstep.toNat
  | 0x502 => t.rngq.toNat
  | 0x580 => z.id.toNat + 2 ^ 8 * z.count.toNat
  | 0x581 => x.zkpeer.toNat
  | 0x582 => z.up.toNat + 2 ^ 8 * z.cmp.toNat + 2 ^ 48 * z.skew.toNat
  | 0x600 => x.tvec.toNat
  | 0x601 => tcauseWord r b.task
  | 0x602 => r.tinfo.toNat
  | 0x603 => r.tpc.toNat
  | 0x604 => r.ttask.toNat
  | 0x605 => r.tframe.toNat
  | 0x606 => r.tgrant.toNat
  | 0x607 => x.evmask.toNat
  | 0x608 => b.evpend.toNat
  | 0x609 => x.tctl.toNat
  | 0x60A => x.tscratch.toNat
  | 0x60B => s.ctxst
  | 0x60C => c.stallAddr.toNat % 2 ^ 56 + 2 ^ 61 * bit c.stallDir + 2 ^ 62 * bit c.stall
  | 0x700 => bit (c.gear == .f) + 2 * bit c.dropped + 2 ^ 32 * c.gearCount.toNat
  | 0x701 => x.actctl.toNat
  | 0x702 => x.actcap.toNat
  | 0x703 => b.acc.toNat + 2 ^ 16 * b.pos.toNat + 2 ^ 32 * b.blocked.toNat
  | 0x704 => s.dev.power.word
  | 0x705 => bit c.hold + 2 ^ 24 * c.temp.toNat + 2 ^ 32 * c.lastDraw.toNat
  | 0x706 => x.ectx[0].toNat
  | 0x707 => x.ectx[1].toNat
  | 0x708 => x.ectx[2].toNat
  | 0x709 => x.ectx[3].toNat
  | 0x70A => x.telring.toNat
  | 0x70B => x.telst.toNat
  | n => if 0x710 ≤ n ∧ n < 0x720 then (x.actw.toList.getD (n - 0x710) 0).toNat else 0
def csrRead (s : State) (n : Nat) : W64 := BitVec.ofNat 64 (csrNat s n)

/-! ## Access (R51, R115, R159, R231, R276, R310, R337, R356, R398, R412, R438, R473, R502) -/
/-- A CSR that only S mode reads. -/
def csrReadS (n : Nat) : Bool := (decide (0x601 ≤ n) && decide (n ≤ 0x606)) || n == 0x60A
/-- A CSR that only S mode writes. -/
def csrWriteS (n : Nat) : Bool :=
  csrReadS n || [0x001, 0x008, 0x101, 0x102, 0x283, 0x304, 0x344, 0x400, 0x402, 0x581, 0x600, 0x608, 0x609, 0x60B, 0x60C, 0x702,
    0x70A].any (· == n)
/-- The W1C and WO fields of a CSR (R455). -/
def csrOnes (n : Nat) : Nat :=
  match n with
  | 0x008 | 0x340 | 0x341 | 0x342 | 0x343 | 0x60C | 0x70B => 2 ^ 63
  | 0x282 => 2 ^ 32 - 1
  | 0x385 => 2 ^ 64 - 1
  | 0x386 => 2 ^ 48 - 1
  | _ => 0

/-! ## Writing -/
/-- A field of a value, in place. -/
def keep (v : W64) (hi lo : Nat) : W64 := BitVec.ofNat 64 (v.toNat / 2 ^ lo % 2 ^ (hi - lo + 1) * 2 ^ lo)
def writeBq (s : State) (v : W64) : State := if v.getLsbD 63 then s.modBank fun b => { b with bq := [] } else s
def writeAge (s : State) (v : W64) : State := s.modCore fun c => { c with ageLimit := BitVec.ofNat 10 (Nat.max 16 (v.toNat % 2 ^ 10)) }
def writeRmode (s : State) (v : W64) : State := if v.toNat % 8 = 7 then s else s.modStrand fun t => { t with rmode := v.setWidth 3 }
/-- pgroot: the parameter-block cache is invalidated (R287). -/
def writePgroot (s : State) (v : W64) : State :=
  (s.modCtx fun c => { c with pgroot := keep v 47 16 }).modCore fun c => { c with pbc := [] }
/-- tdtab: the bank tags go, and descriptors are read anew (R239, R241). -/
def writeTdtab (s : State) (v : W64) : State :=
  (s.modCtx fun c => { c with tdtab := keep v 55 14 }).modBanksOf s.bank.ctx fun b =>
    { b with
      mat := { b.mat with tags := Vector.replicate 4 Tag.none }
      task := b.task.map fun t => { t with descs := [] } }
/-- ringtab: every ring is free again (R298). -/
def writeRingtab (s : State) (v : W64) : State :=
  let s := s.ctx.rings.foldl (fun s r => s.setRing s.bank.ctx { r with next := 0, slots := [] }) s
  s.modCtx fun c => { c with ringtab := BitVec.ofNat 64 ((keep v 55 12).toNat + v.toNat % 2 ^ 8), rings := [] }
def writeQf (s : State) (q : Fin 4) (v : W64) : State :=
  if v.getLsbD 63 then s.modBank fun b => { b with queues := b.queues.set q { b.queues[q] with qf := 0 } } else s
/-- actctl (R491): the forced enable, the clamped window and budget, and a fresh window when its length changes. -/
def writeActctl (s : State) (v : W64) : State :=
  let x := s.ctx
  let window := Nat.min 1024 (Nat.max 8 (v.toNat / 2 ^ 20 % 2 ^ 11))
  let budget := Nat.max 1 (Nat.min (v.toNat % 2 ^ 10) (x.actcap.toNat % 2 ^ 10))
  let en := v.getLsbD 31 || (x.actcap.getLsbD 10 && x.actctl.getLsbD 31)
  let s := if window = x.actctl.toNat / 2 ^ 20 % 2 ^ 11 then s else s.modBank fun b => { b with acc := 0, pos := 0 }
  s.modCtx fun c => { c with actctl := BitVec.ofNat 64 (budget + 2 ^ 20 * window + 2 ^ 31 * bit en) }
def writeTelst (s : State) (v : W64) : State := if v.getLsbD 63 then s.modCtx fun c => { c with telst := 0 } else s
/-- The effect of writing a value; RO and RES fields ignore it (R7). -/
def State.csrWrite (s : State) (n : Nat) (v : W64) : State :=
  match n with
  | 0x001 => writeAge s v
  | 0x008 => writeBq s v
  | 0x101 => writePgroot s v
  | 0x102 => s.modCtx fun c =>
      { c with rtab := BitVec.ofNat 64 ((keep v 47 16).toNat + Nat.min 4096 (v.toNat % 2 ^ 13)) }
  | 0x200 => writeRmode s v
  | 0x281 => s.modMat (·.sample (v.setWidth 16))
  | 0x282 => s.modMat fun m => { m with mflag := m.mflag &&& ~~~(v.setWidth 32) }
  | 0x283 => writeTdtab s v
  | 0x304 => s.modBank fun b => { b with netctl := v.setWidth 3 }
  | 0x340 => writeQf s 0 v
  | 0x341 => writeQf s 1 v
  | 0x342 => writeQf s 2 v
  | 0x343 => writeQf s 3 v
  | 0x344 => writeRingtab s v
  | 0x345 => s.modStrand fun t => { t with ringsel := v.setWidth 8 }
  | 0x380 => s.modBank fun b => { b with bgear := v &&& 0xFFFF0001 }
  | 0x385 => s.modBank fun b => { b with semov := b.semov &&& ~~~v }
  | 0x386 => s.modBank fun b => { b with barerr := b.barerr &&& ~~~(v.setWidth 48) }
  | 0x387 => s.modStrand fun t => { t with barsel := v.setWidth 6 }
  | 0x400 => s.modCtx fun c =>
      { c with vovf := BitVec.ofNat 64 ((keep v 55 20).toNat + 2 ^ 8 * Nat.max 1 (v.toNat / 2 ^ 8 % 2 ^ 12)) }
  | 0x402 => s.modCtx fun c => { c with tmarks := keep v 55 12 }
  | 0x500 => s.modStrand fun t => { t with rngix := keep v 40 0 }
  | 0x501 => s.modStrand fun t => { t with rngstep := keep v 31 0 }
  | 0x502 => s.modStrand fun t => { t with rngq := BitVec.ofNat 64 (Nat.min (2 ^ 32) (v.toNat % 2 ^ 33)) }
  | 0x581 => s.modCtx fun c => { c with zkpeer := keep v 55 12 }
  | 0x600 => s.modCtx fun c => { c with tvec := v &&& 0x00FFFFFFFFFFFFFD }
  | 0x606 => s.modTrap fun r => { r with tgrant := v.setWidth 24 }
  | 0x607 => s.modCtx fun c => { c with evmask := v.setWidth 3 }
  | 0x609 => s.modCtx fun c => { c with tctl := v.setWidth 8 }
  | 0x60A => s.modCtx fun c => { c with tscratch := v }
  | 0x701 => writeActctl s v
  | 0x702 => s.modCtx fun c => { c with actcap := keep v 10 0 }
  | 0x70A => s.modCtx fun c => { c with telring := BitVec.ofNat 64 ((keep v 55 12).toNat + Nat.max 4 (v.toNat % 2 ^ 4)) }
  | 0x70B => writeTelst s v
  | n =>
    if 0x710 ≤ n ∧ n < 0x720 then
      s.modCtx fun c => { c with actw := c.actw.set (fin 16 (n - 0x710)) (v.setWidth 4) }
    else s

/-! ## CSRR and CSRW (R455) -/
/-- The trap of an access: ILLEGAL_INSN for a number that no chapter assigns (R51, R56), PROTECTION outside S mode. -/
def State.csrTrap (s : State) (maj len : Nat) (d a : Fin 64) (csr : BitVec 11) (privileged : Bool) : Option Stop :=
  if !csrAssigned csr.toNat then
    some (.trap causeIllegal (len + 4 * maj + 2 ^ 9 * d.val + 2 ^ 15 * a.val + 2 ^ 21 * csr.toNat + 2 ^ 32 * 9))
  else if privileged && !s.strand.smode then some (.trap causeProtection csr.toNat)
  else none
def execCsrr (d : Fin 64) (csr : BitVec 11) (s : State) : Out :=
  match s.csrTrap 0x7A 0 d 0 csr (csrReadS csr.toNat) with
  | some e => s.stop e
  | none => s.put 1 d (csrRead s csr.toNat)
/-- The three forms write f old (value of a). -/
def State.csrForm (s : State) (len : Nat) (d a : Fin 64) (csr : BitVec 11) (f : W64 → W64 → W64) : Out :=
  match s.csrTrap 0x7B len d a csr (csrWriteS csr.toNat) with
  | some e => s.stop e
  | none =>
    let old := csrRead s csr.toNat
    (s.csrWrite csr.toNat (f old (s.rs a))).put (len + 1) d old
def execCsrw (d a : Fin 64) (csr : BitVec 11) (s : State) : Out := s.csrForm 0 d a csr fun _ x => x
def execCsrwSet (d a : Fin 64) (csr : BitVec 11) (s : State) : Out :=
  let m := BitVec.ofNat 64 (csrOnes csr.toNat)
  s.csrForm 1 d a csr fun old x => ((old ||| x) &&& ~~~m) ||| (x &&& m)
def execCsrwClr (d a : Fin 64) (csr : BitVec 11) (s : State) : Out :=
  let m := BitVec.ofNat 64 (csrOnes csr.toNat)
  s.csrForm 1 d a csr fun old x => (old &&& ~~~x) &&& ~~~m

/-! ## The writes with a row of their own (R45, R117, R119, R239, R287, R298, R311, R491, R502) -/
def execBq (v : W64) (s : State) : Out := .next (writeBq s v)
def execAge (v : W64) (s : State) : Out := .next (writeAge s v)
def execRmode (v : W64) (s : State) : Out := .next (writeRmode s v)
def execPgroot (v : W64) (s : State) : Out := .next (writePgroot s v)
def execTdtab (v : W64) (s : State) : Out := .next (writeTdtab s v)
def execRingtab (v : W64) (s : State) : Out := .next (writeRingtab s v)
def execQf (q : Fin 4) (v : W64) (s : State) : Out := .next (writeQf s q v)
def execActctl (v : W64) (s : State) : Out := .next (writeActctl s v)
def execTelst (v : W64) (s : State) : Out := .next (writeTelst s v)

end Sys2Proof.Machine
end

