-- ==== Sys2Proof/Machine/Report.lean ====
section
/-! DEFINITION. What the device reports to the host: event rings (R512, R513) and MSI-X vectors (R505). -/
namespace Sys2Proof.Machine

/-- The function of a partition; none is the physical function (R25). -/
def fnOf (p : Option (Fin 16)) : Fin 17 := match p with
  | some p => fin 17 (p.val + 1)
  | none => 0
/-- An MSI-X vector fires (R505). -/
def State.fire (s : State) (p : Option (Fin 16)) (vector : Fin 4) : State :=
  s.modDev fun d => { d with msix := d.msix ++ [(fnOf p, vector)] }
/-- The key of an event ring's BASE, LOGN and LOST (R507, R508). -/
def ringRegs (p : Option (Fin 16)) : Nat := match p with
  | some p => partKey p.val 0x10200
  | none => devKey 0x3000
/-- An event record for the ring of a partition or of the device; a full ring drops it (R512). -/
def State.event (s : State) (p : Option (Fin 16)) (code : Nat) (core : Option (Fin 256)) (ctx : Nat) (info0 info1 : Nat) : State :=
  let regs := ringRegs p
  let base := s.rdN regs 8
  let n := 2 ^ (s.rdN (regs + 8) 8 % 64)
  if base = 0 then s
  else
    let wr := s.rdN (hostKey base) 8
    if n ≤ (wr + 2 ^ 64 - s.rdN (hostKey (base + 8)) 8) % 2 ^ 64 then
      s.wrs (regs + 16) (toLe 8 (Nat.min (2 ^ 32 - 1) (s.rdN (regs + 16) 8 + 1)))
    else
      let rec_ := toLe 2 code ++ [BitVec.ofNat 8 (match p with | some p => p.val | none => 0xFF), 0]
        ++ toLe 2 (match core with | some c => c.val | none => 0xFFFF) ++ toLe 2 ctx ++ toLe 8 info0 ++ toLe 8 info1
        ++ toLe 8 s.dclk.toNat ++ List.replicate 32 0
      ((s.wrs (hostKey (base + 64 + 64 * (wr % n))) rec_).wrs (hostKey base) (toLe 8 ((wr + 1) % 2 ^ 64))).fire p 0

end Sys2Proof.Machine
end

