-- ==== Sys2Proof/Machine/Gear.lean ====
section
/-! DEFINITION. The meanings of GEAR and TIME (R486, R487), and the events of gears, the activity window and power
(R32, R354, R482, R490, R493 to R497). -/
namespace Sys2Proof.Machine

/-! ## GEAR and TIME -/
def gearCode : Gear → Nat
  | .n => 0
  | .f => 1
/-- Whether a barrier arrival of the core is unacknowledged (R352, R353). -/
def State.arriving (s : State) : Bool := s.dev.fab.net.any fun m => m.kind == 4 && m.src == s.cur
/-- GEAR: the old gear is in d when the clock runs again; nothing issues before (R486). -/
def execGear (d : Fin 64) (g : Gear) (s : State) : Out :=
  if s.arriving || s.core.trans.isSome then s.stop (.wait .other)
  else
    let old := s.core.gear
    let s := if g = old then s else s.beginTrans g .gear 1
    s.put 1 d (BitVec.ofNat 64 (gearCode old))
def execTime (d : Fin 64) (src : Fin 4) (s : State) : Out :=
  s.put 1 d (match src with
    | 0 => s.dclk
    | 1 => s.core.cycles
    | 2 => s.dev.fabricCycles
    | _ => s.mts)

/-! ## Transitions (R354, R482, R485) -/
/-- The clock runs again in the new gear, at the fabric edge `restart` and not before (R482). The gear of the context does
not follow a drop (R484), and a core that leaves gear N is no longer dropped. -/
def State.gearDone (s : State) : State :=
  match s.core.trans with
  | none => s
  | some (g, why) =>
    if s.dev.fabricCycles.toNat < s.core.restart.toNat then s else
    let old := s.core.gear
    let s := s.modCore fun c =>
      { c with
        gear := g, gearCount := c.gearCount + 1, trans := none, barCycles := 0
        dropped := why == .drop }
    let s := if why = .drop ∨ why = .ret then s else s.modBank fun b => { b with gear := g }
    if why = .gear ∨ why = .gapply then s.notice 0x22 (gearCode g + 2 * gearCode old) else s
def execGearTransitionComplete (c : Fin 256) (s : State) : Out := .next (s.on c fun s => s.gearDone)
/-- Whether every running strand of the core waits in BARWAIT or BARSYNC. -/
def Bank.allInBar (b : Bank) : Bool :=
  (b.strands.toList.any (·.run)) && b.strands.toList.all fun t => !t.run || (match t.wait with
    | .bar _ _ => true
    | _ => false)
/-- The core drops to gear N when it has waited for bgear.W cycles. -/
def State.barDrop (s : State) : State :=
  let c := s.core
  if s.bank.bgear.getLsbD 0 && c.gear == .f && !c.dropped && c.trans.isNone && s.bank.allInBar
      && decide (s.bank.bgear.toNat / 2 ^ 16 % 2 ^ 16 ≤ c.barCycles) then
    s.beginTrans .n .drop s.midCycle
  else s
def execBarrierDrop (c : Fin 256) (s : State) : Out := .next (s.on c fun s => s.barDrop)
def State.barReturn (s : State) : State :=
  if s.core.dropped && s.core.trans.isNone && s.bank.releaseDue then s.beginTrans .f .ret s.midCycle else s
def execBarrierReturn (c : Fin 256) (s : State) : Out := .next (s.on c fun s => s.barReturn)

/-! ## Activity and power -/
/-- At POS = 0 the accumulator is cleared (R490). -/
def State.windowReset (s : State) : State := s.modBank fun b => if b.pos = 0 then { b with acc := 0 } else b
def execActivityWindowReset (c : Fin 256) (s : State) : Out := .next (s.on c fun s => s.windowReset)
/-- The new level and hold of a core, and whether THROTTLE arises (R341, R493). -/
def stepLevel (above below : Bool) (share : Int) (c : Core) : Core :=
  if above then
    if decide (share < (c.draw : Int)) then if c.level.toNat < 7 then { c with level := c.level + 1 } else { c with hold := true } else c
  else if below then
    if c.hold then { c with hold := false } else if 0 < c.level.toNat then { c with level := c.level - 1 } else c
  else c
/-- CONTROLLER_PERIOD (R493, R496): the levels follow the draws, a new period begins, and a pending cap comes into force. -/
def State.controllerPeriod (s : State) : State :=
  let p := s.dev.power
  let total := s.cores.toList.foldl (fun n c => n + c.draw) (p.sysDraw - p.idleDraw + p.ctxDraw)
  let allow := p.allowance
  let share := s.share
  let was := s.cores
  let next := fun (c : Core) =>
    let d := stepLevel (decide (allow < total)) (decide (8 * total ≤ 7 * allow)) share c
    { d with lastDraw := BitVec.ofNat 32 (Nat.min (2 ^ 32 - 1) c.draw), draw := 0 }
  let s : State := { s with cores := s.cores.map next }
  let s := s.modDev fun d => { d with power := { p with
    lastSys := p.sysDraw, sysDraw := 0, idleDraw := 0, ctxDraw := 0, periods := p.periods + 1, cap := p.pendCap.orElse fun _ => p.cap, pendCap := none } }
  (List.range 256).foldl (fun s i =>
    let c := fin 256 i
    let thresh := (s.cores[c]).bank.netctl.toNat
    let level := (s.cores[c]).level.toNat
    if thresh ≠ 0 ∧ (was[c]).level.toNat < thresh ∧ thresh ≤ level then s.on c fun s => s.notice 0x20 level else s) s
def execControllerPeriod (s : State) : Out := .next s.controllerPeriod
def State.modPower (s : State) (f : Power → Power) : State := s.modDev fun d => { d with power := f d.power }
/-- The thermal limit moves by 50 W (R494). -/
def execThermalLimitUpdate (hot cool : Bool) (s : State) : Out :=
  .next (s.modPower fun p =>
    { p with thermal := if hot then Nat.max 200 (p.thermal - 50) else if cool then Nat.min 2000 (p.thermal + 50) else p.thermal })
/-- A sensor's reading; at 115 °C every core clock stops and the host is told (R32, R513). -/
def execThermalStop (site : Fin 272) (temp : BitVec 8) (s : State) : Out :=
  let sites := s.dev.sites
  let s : State := { s with cores := s.cores.mapFinIdx fun i c h =>
    if sites.site[i] = site ∧ !c.retired then { c with temp := temp } else c }
  if temp.toNat < 115 then .next s
  else .next ((s.modPower fun p => { p with thermalStop := true }).event none 0x43 none 0 site.val temp.toNat)
/-- CAP_MESSAGE (R495, R496): SEQ, and the word with CAP, FLAGS and LEASE. -/
def State.capMessage (s : State) (lo hi : W64) : State :=
  let cap := Nat.min 2000 (Nat.max 200 (hi.toNat % 2 ^ 16))
  let fb := hi.getLsbD 16
  let lease := hi.toNat / 2 ^ 32
  if lo ≤ s.dev.power.seq ∨ hi.toNat / 2 ^ 17 % 2 ^ 15 ≠ 0 ∨ (lease = 0 ∧ fb = false) then s
  else if fb then s.modPower fun p => { p with seq := lo, fallback := cap }
  else s.modPower fun p => { p with seq := lo, pendCap := some (cap, s.dclk.toNat + lease * 1000000) }
def execCapMessage (lo hi : BitVec 64) (s : State) : Out := .next (s.capMessage lo hi)
/-- The lease of the cap in force expires (R497). -/
def State.leaseExpiry (s : State) : State :=
  s.modPower fun p => match p.cap with
    | some (_, ends) => if ends ≤ s.dclk.toNat then { p with cap := none } else p
    | none => p
def execLeaseExpiry (s : State) : Out := .next s.leaseExpiry

end Sys2Proof.Machine
end

