-- ==== Sys2Proof/Machine/MatEvents.lean ====
section
/-! DEFINITION. The events of the matrix engine: a bank load (R238, R240, R269), a pass (R247 to R249, R256), a drain
(R255, R258, R263) and the start of a queued nest (R253). -/
namespace Sys2Proof.Machine

/-- A fault of the nest: cause, address and operand (R273). -/
abbrev NestFaultRec := EngFault × Nat
/-- A fetch of the nest (R258): a plain load of the core, from a region that it owns or that is SHARED-RO. -/
def fetch (s : State) (operand ea len : Nat) : Except NestFaultRec (List Byte × Bool) :=
  if len = 0 then .ok ([], false)
  else if kindOf ea = 12 then .error ((causeOwnership, ea % 2 ^ 56), operand)
  else match engRead s ea len false with
    | .ok d => .ok d
    | .error f => .error (f, operand)
/-- Applies a fetch along a list and stops at the first fault. -/
def fetchList {α β : Type} (f : α → Except NestFaultRec β) : List α → Except NestFaultRec (List β)
  | [] => .ok []
  | a :: t =>
    match f a with
    | .error e => .error e
    | .ok b => (fetchList f t).map (b :: ·)

/-! ## B tiles (R237, R238, R243) -/
/-- The 32-byte blocks of a range at an address that are poisoned, as blocks of the bank. -/
def poisonedBlocks (s : State) (ea len off : Nat) : List Nat :=
  match engCheck s .load ea len false with
  | .ok ps => (ps.foldl (fun (r : Nat × List Nat) p =>
      (r.1 + p.len, r.2 ++ distinct (((keysFrom p.key p.len).filter (poisSeen s)).map fun k => (r.1 + (k - p.key)) / 32))) (off, [])).2
  | .error _ => []
/-- One row of the tile: its 1,024 bytes as a number, and its poisoned blocks of the bank. -/
def tileRow (s : State) (t : Tile) (k : Nat) : Except NestFaultRec (Nat × List Nat) :=
  if t.rows ≤ t.kb * 256 + k then .ok (0, [])
  else
    (fetchList (fun (r : Nat × Nat) => (fetch s 4 (t.rowAt k + r.1) r.2).map fun d => (r, d)) t.ranges).map fun l =>
      l.foldl (fun acc (x : (Nat × Nat) × (List Byte × Bool)) =>
        (acc.1 + leNat x.2.1 * 2 ^ (8 * x.1.1),
          if x.2.2 then acc.2 ++ poisonedBlocks s (t.rowAt k + x.1.1) x.1.2 (k * 1024 + x.1.1) else acc.2)) (0, [])
/-- The bytes of a tile as a bank holds them. -/
def loadTile (s : State) (t : Tile) : Except NestFaultRec BankData :=
  (fetchList (tileRow s t) (List.range 256)).map fun l =>
    { rows := Vector.ofFn fun k => BitVec.ofNat 8192 ((l.getD k.val (0, [])).1), poison := l.flatMap (·.2) }
/-- The reads of a tile: address and length. -/
def tileReads (t : Tile) : List (Nat × Nat) :=
  (List.range 256).flatMap fun k => if t.rows ≤ t.kb * 256 + k then [] else t.ranges.map fun r => (t.rowAt k + r.1, r.2)
/-- The bits of an element of a tile row, lowest weight first, as bit positions in the row's 1,024 bytes (R70, R76). -/
def elemBits (ty : Ty) (w c : Nat) : List Nat :=
  if planar ty then (List.range ty.bits).map fun j => (ty.bits - 1 - j) * w + c
  else (List.range ty.bits).map fun j => c * ty.bits + j
/-- Element c of a row of the tile, in two's complement (R100). -/
def Tile.elem (t : Tile) (row : BitVec 8192) (c : Nat) : Int :=
  if planar t.ty then
    Num.sint t.ty.bits ((elemBits t.ty t.w c).foldr (fun p n => 2 * n + bit (row.getLsbD p)) 0)
  else Num.sint t.ty.bits (row.toNat / 2 ^ (t.ty.bits * c) % 2 ^ t.ty.bits)
/-- Whether an element of the tile lies in a poisoned block of the bank (R249). -/
def Tile.poisoned (t : Tile) (b : BankData) (k c : Nat) : Bool :=
  !b.poison.isEmpty && (elemBits t.ty t.w c).any fun p => b.poison.any (· == (k * 1024 + p / 8) / 32)

/-! ## Banks (R238) -/
def Tag.names (t : Tag) (ctx : BitVec 12) (tensor kb group : Nat) (b4 : Bool) : Bool :=
  t.valid && t.ctx == ctx && t.tensor.toNat == tensor && t.kb.toNat == kb && t.group.toNat == group && (t.ty.bits == 4) == b4
/-- Bank `i` now holds a tile: its tag, the tags of other banks that named the tile, and its turn as the latest used. -/
def State.setBank (s : State) (i : Fin 4) (tag : Tag) (d : BankData) : State :=
  let s := s.modMat fun m =>
    { m with
      tags := (m.tags.map fun t =>
        if t.names tag.ctx tag.tensor.toNat tag.kb.toNat tag.group.toNat (tag.ty.bits == 4) then Tag.none else t).set i tag
      lru := (m.lru.filter (· != i)) ++ [i] }
  s.modCore fun c => { c with banks := c.banks.set i d }
/-- The oldest load finishes once it has started (R269): its tile is in the bank, or its token is faulted and the tag is
cleared. It goes on during a gear transition (R262, R483). -/
def State.loadBank (s : State) : State :=
  match s.bank.mat.loads.head?.filter s.loadStarted with
  | none => s
  | some l =>
    if s.dev.power.thermalStop || s.loadsHeld l.id then s else
    let s := s.modMat fun m => { m with loads := m.loads.erase l }
    if l.bad then s.finishToken l.strand l.td (some (BitVec.ofNat 8 causeToken))
    else
      match loadTile s l.tag.tile with
      | .error f =>
        (s.modMat fun m => { m with tags := m.tags.set l.bank Tag.none }).finishToken l.strand l.td
          (some (BitVec.ofNat 8 f.1.1))
      | .ok d => (s.setBank l.bank l.tag d).finishToken l.strand l.td none
def execBankLoad (c : Fin 256) (s : State) : Out := .next (s.on c fun s => s.onNest (fun m => !m.loads.isEmpty) State.loadBank)

/-- The banks that a pass may use, in the order of its K blocks. -/
def bankSets (q : Nat) : List (List (Fin 4)) :=
  if q = 1 then [[0], [1], [2], [3]] else if q = 2 then [[0, 1], [2, 3]] else [[0, 1, 2, 3]]
/-- Whether a bank holds a tile of the nest's B. -/
def holds (s : State) (n : NestSet) (i : Fin 4) (t : Tile) : Bool :=
  (s.bank.mat.tags[i]).names s.bank.ctx n.tb t.kb t.group n.b4
/-- The banks of a pass (R238): those that hold its tiles, else the lowest marked by SWAP, else the least recently
used. -/
def chooseBanks (s : State) (n : NestSet) (tiles : List Tile) : List (Fin 4) :=
  let sets := bankSets tiles.length
  let matching := sets.find? fun l => (l.zip tiles).all fun x => holds s n x.1 x.2
  let partly := sets.find? fun l => (l.zip tiles).any fun x => holds s n x.1 x.2
  let marked := sets.find? fun l => l.all fun i => (s.bank.mat.tags[i]).victim
  let oldest := s.bank.mat.lru.findSome? fun i => sets.find? fun l => l.any (· == i)
  (matching.orElse fun _ => partly.orElse fun _ => marked.orElse fun _ => oldest).getD []
/-- The tiles of a pass are brought into its banks: the state and their contents in the order of the K blocks. A bank that
holds a tile gives the bytes of its last load, and one marked unloaded those in memory now; of what R240 leaves to each element
of a tile that software changed in between, the model takes these (log 9). -/
def useTiles (s : State) (n : NestSet) : List (Fin 4 × Tile) → Except NestFaultRec (State × List BankData)
  | [] => .ok (s, [])
  | (i, t) :: rest =>
    let tag := s.bank.mat.tags[i]
    let here : Except NestFaultRec (State × BankData) :=
      if holds s n i t && !tag.unloaded then
        .ok (s.modMat fun m => { m with lru := (m.lru.filter (· != i)) ++ [i] }, s.core.banks[i])
      else (loadTile s t).map fun d =>
        (s.setBank i ⟨true, s.bank.ctx, BitVec.ofNat 8 n.tb, BitVec.ofNat 32 t.kb, BitVec.ofNat 32 t.group, BitVec.ofNat 64 t.base,
          t.rstr, t.ty, t.rows, t.cols, false, false⟩ d, d)
    match here with
    | .error e => .error e
    | .ok (s, d) => (useTiles s n rest).map fun r => (r.1, d :: r.2)

/-! ## A rows (R243, R247, R249) -/
/-- What a pass reads of one A row: the active lanes with their offset in the span and their value, the scale of each
K block, whether a poisoned block was read, and the addresses and lengths of its reads. -/
structure ARow where
  lanes  : List (Nat × Int)
  scales : List Nat
  pois   : Bool
  reads  : List (Nat × Nat)
  deriving DecidableEq, Repr
/-- The offset of a lane in the span (R247). -/
def laneOff (a : Desc) (idx : List Byte) (lane : Nat) : Nat :=
  if a.sparse = 0 then lane
  else
    let n := a.m / a.q
    a.m * (lane / n) + (idx.getD (lane / 2) 0).toNat / 16 ^ (lane % 2) % 16 % a.m
/-- The value of a lane read at p planes (R76, R77, R100). -/
def laneValue (i8 : Bool) (p : Nat) (mid : Bool) (d : List (List Byte)) (lane : Nat) : Int :=
  let x :=
    if i8 then ((d.getD (lane / 32) []).getD (lane % 32) 0).toNat
    else (List.range p).foldl (fun n j => n + 2 ^ (7 - j) * bit (((d.getD j []).getD (lane / 8) 0).getLsbD (lane % 8))) 0
  Num.niTrunc x p 8 mid
/-- Row r of A over span `akb` (R247): `facc` reads its scales. -/
def fetchRow (s : State) (a : Desc) (p : Nat) (mid facc : Bool) (akb r : Nat) : Except NestFaultRec ARow :=
  let q := a.q
  let span := 256 * q
  let left := a.cols - span * akb
  let none_ : ARow := ⟨[], List.replicate q 0x7F, false, []⟩
  if a.rows ≤ r ∨ left = 0 then .ok none_
  else
    -- the lanes of groups that begin below COLS, whose indices are read
    let lanes := if a.sparse = 0 then Nat.min 256 left else Nat.min 256 ((left + a.m - 1) / a.m * (a.m / a.q))
    let ixAt := a.mbase + r * a.mstr + 128 * akb
    let ixLen := if a.sparse = 0 then 0 else (lanes + 1) / 2
    match fetch s 2 ixAt ixLen with
    | .error e => .error e
    | .ok idx =>
      let active := (List.range lanes).filter fun l => decide (laneOff a idx.1 l < left)
      if active.isEmpty then .ok { none_ with pois := idx.2, reads := [(ixAt, ixLen)] }
      else
        let i8 := a.ty == 6
        let at_ := a.base + r * a.rstr + akb * 256
        let parts : List (Nat × Nat) :=
          if i8 then (List.range 8).map fun b =>
            let mine := active.filter fun l => l / 32 == b
            (32 * b, match mine.getLast? with | some l => l % 32 + 1 | none => 0)
          else (List.range p).map fun j => (32 * j, 32)
        match fetchList (fun (x : Nat × Nat) => fetch s 1 (at_ + x.1) x.2) parts with
        | .error e => .error e
        | .ok data =>
          let blocks := (List.range q).map fun b => active.any fun l => laneOff a idx.1 l / 256 == b
          let scAt := fun (b : Nat) => a.sbase + r * a.sstr + q * akb + b
          let scaled := fun (x : Nat × Bool) => facc && x.2 && a.sbase != 0
          let scale := fun (x : Nat × Bool) => if scaled x then fetch s 3 (scAt x.1) 1 else .ok ([0x7F], false)
          let reads := (ixAt, ixLen) :: (parts.map fun x => (at_ + x.1, x.2)) ++ (((List.range q).zip blocks).filter scaled).map fun x => (scAt x.1, 1)
          match fetchList scale ((List.range q).zip blocks) with
          | .error e => .error e
          | .ok sc =>
            .ok ⟨active.map fun l => (laneOff a idx.1 l, laneValue i8 p mid (data.map (·.1)) l),
              sc.map fun d => (d.1.headD 0x7F).toNat, idx.2 || data.any (·.2) || sc.any (·.2), reads⟩
/-- The B scale of a column (R247): read under FACC for a column below COLS. -/
def fetchScale (s : State) (b : Desc) (facc : Bool) (n : Nat) : Except NestFaultRec (Nat × Bool) :=
  if facc && decide (n < b.cols) && b.sbase != 0 then
    (fetch s 5 (b.sbase + n) 1).map fun d => ((d.1.headD 0x7F).toNat, d.2)
  else .ok (0x7F, false)

/-! ## The pass (R247) -/
/-- What a pass works on: its A rows, the B elements of its span by offset and column, whether an active lane of any row
selects a poisoned B element of a column (R249), and the B scales. -/
structure PassIn where
  rows   : List ARow
  b      : Array (Array Int)
  bPois  : Array Bool
  scales : Array (Nat × Bool)
/-- The B elements of a span, from the tiles of its K blocks. -/
def spanOf (n : NestSet) (tiles : List (Tile × BankData)) (bcol : Nat) : Array (Array Int) × (Nat → Nat → Bool) :=
  let c0 := n.pc * bcol % n.w
  let rows := tiles.flatMap fun (t, d) => (List.range 256).map fun k =>
    let row := d.rows.toList.getD k 0
    ((List.range n.pc).map fun j => if t.rows ≤ t.kb * 256 + k ∨ t.width ≤ c0 + j then 0 else t.elem row (c0 + j)).toArray
  (rows.toArray, fun off j => match tiles[off / 256]? with
    | some (t, d) => decide (t.kb * 256 + off % 256 < t.rows) && decide (c0 + j < t.width) && t.poisoned d (off % 256) (c0 + j)
    | none => false)
/-- The block sums of a row and a column (R101, R102). -/
def blockSums (q : Nat) (row : ARow) (b : Array (Array Int)) (j : Nat) : List Int :=
  (List.range q).map fun k => row.lanes.foldl (fun s l =>
    if l.1 / 256 = k then s + l.2 * ((b.getD l.1 #[]).getD j 0) else s) 0
/-- The element after a pass, and whether it clamped (R103, R104). -/
def accumulate (acc : Nat) (mode : Nat) (rnd : Rnd) (sums : List Int) (ea : List Nat) (eb : Nat) (x : Nat) : Nat × Bool :=
  if mode = 2 then ((sums.zip ea).foldl (fun a t => Num.faccAdd a t.1 t.2 eb rnd) x, false)
  else Num.iaccAdd x (sums.foldl (· + ·) 0) (acc == 1)
/-- The view element of a physical element, when it lies in the region of the pass: row and column in the region. -/
def NestSet.place (n : NestSet) (crow ccol r c : Nat) : Option (Nat × Nat) :=
  if n.inRegion crow ccol r c then
    let (v, w) := if n.b4 then (r % 16, c + 1024 * (r / 16)) else (r, c)
    some (v - n.pr * crow, w - n.pc * ccol)
  else none
/-- Element (r, c) of the file after a pass: its value, its poison bit and whether it clamped. -/
def passElem (s : State) (m : Matrix) (n : NestSet) (i : PassIn) (crow ccol r c : Nat) (x : BitVec 32) : BitVec 32 × Bool × Bool :=
  let was := (m.accPois.toList.getD r 0).getLsbD c
  match n.place crow ccol r c with
  | none => (x, was, false)
  | some (rr, j) =>
    let row := i.rows.getD rr ⟨[], [], false, []⟩
    let sc := i.scales.getD j (0x7F, false)
    let v := accumulate n.acc n.acc n.rnd (blockSums n.a.q row i.b j) row.scales sc.1 x.toNat
    let pois := was || row.pois || sc.2 || i.bPois.getD j false
    (if pois then s.free 32 (r * 1024 + c) else BitVec.ofNat 32 v.1, pois, v.2)
/-- The reads of a pass but for B: its A rows and its B scales. -/
def passReads (n : NestSet) (i : PassIn) (ix : Vector Nat 6) : List (Nat × Nat) :=
  let cols := (List.range n.pc).filter fun j => n.acc == 2 && decide (n.pc * n.coord ix 3 + j < n.b.cols) && n.b.sbase != 0
  i.rows.flatMap (·.reads) ++ cols.map fun j => (n.b.sbase + n.pc * n.coord ix 3 + j, 1)
/-- What the guard set holds after a pass: the sums of its last row, one field a column under IACC and one for each block sum
under FACC. A sweep has at most as many K blocks active as the fields allow for all the columns; those of the last sweep stand in
place of an earlier one's (R248). Which field a sum uses, the spec does not say (DESIGN CHOICE, log 9): column by column. -/
def guardAfter (n : NestSet) (i : PassIn) : Vector (BitVec 26) 2048 :=
  let row := i.rows.getLastD ⟨[], [], false, []⟩
  let q := if n.acc = 2 then n.a.q else 1
  let per := Nat.max 1 (Nat.min q (2048 / n.pc))
  let first := (q - 1) / per * per
  let sums := ((List.range n.pc).map fun j =>
    let b := blockSums n.a.q row i.b j
    if n.acc = 2 then (b.drop first).take per else [b.foldl (· + ·) 0]).toArray
  Vector.ofFn fun f => BitVec.ofInt 26 (((sums.getD (f.val / per) []).toArray).getD (f.val % per) 0)
/-- The file after a pass (R246 to R249). -/
def State.applyPass (s : State) (n : NestSet) (i : PassIn) (crow ccol : Nat) : State :=
  s.modMat fun m =>
    let out := m.acc.mapFinIdx fun r row _ => row.mapFinIdx fun c x _ => passElem s m n i crow ccol r c x
    { m with
      acc := out.map fun row => row.map (·.1)
      accPois := out.mapFinIdx fun r row _ =>
        if (List.range 1024).any fun c => (n.place crow ccol r c).isSome then
          BitVec.ofNat 1024 (row.foldr (fun x a => 2 * a + bit x.2.1) 0)
        else m.accPois.toList.getD r 0
      mflag := BitVec.ofNat 32 (out.foldr (fun row a => 2 * a + bit (row.any (·.2.2))) 0) ||| m.mflag
      guard := guardAfter n i
      passes := m.passes + 1 }
/-- The reads of a pass, with B from the banks. -/
def passInputs (s : State) (n : NestSet) (tiles : List (Tile × BankData)) (p : Nat) (mid : Bool) (ix : Vector Nat 6) :
    Except NestFaultRec PassIn :=
  let facc := n.acc == 2
  match fetchList (fun rr => fetchRow s n.a p mid facc (n.coord ix 1) (n.pr * n.coord ix 0 + rr)) (List.range n.pr) with
  | .error e => .error e
  | .ok rows =>
    match fetchList (fun j => fetchScale s n.b facc (n.pc * n.coord ix 3 + j)) (List.range n.pc) with
    | .error e => .error e
    | .ok sc =>
      let b := spanOf n tiles (n.coord ix 3)
      let any := tiles.any fun t => !t.2.poison.isEmpty
      let cols := (List.range n.pc).map fun j => any && rows.any fun r => r.lanes.any fun l => b.2 l.1 j
      .ok ⟨rows, b.1, cols.toArray, sc.toArray⟩
/-! ## After a pass (R254) -/
/-- The region of the nest becomes zero, with its poison bits and the clamp flags of the rows it touches. -/
def Matrix.zeroRegion (m : Matrix) (crow ccol : Nat) : Matrix :=
  let n := m.active
  let hit := fun (r c : Nat) => (n.place crow ccol r c).isSome
  { m with
    acc := m.acc.mapFinIdx fun r row _ => row.mapFinIdx fun c x _ => if hit r c then 0 else x
    accPois := m.accPois.mapFinIdx fun r p _ =>
      BitVec.ofNat 1024 ((List.range 1024).foldr (fun c a => 2 * a + bit (p.getLsbD c && !hit r c)) 0)
    mflag := BitVec.ofNat 32 ((List.range 32).foldr (fun r a =>
      2 * a + bit (m.mflag.getLsbD r && !((List.range 1024).any (hit r)))) 0) }
/-- ZERO and SWAP of the action set. -/
def State.actions (s : State) : State :=
  let m := s.bank.mat
  let n := m.active
  let acts := n.acts m.idx
  let s := if acts / 2 % 2 = 1 then s.modMat fun m => m.zeroRegion (n.coord m.idx 4) (n.coord m.idx 5) else s
  if acts / 4 % 2 = 1 then
    let tiles := passTiles n m.idx
    s.modMat fun m =>
      { m with tags := m.tags.map fun t =>
          if tiles.any fun x => t.names s.bank.ctx n.tb x.kb x.group n.b4 then { t with victim := true } else t }
  else s
/-- The next indices, or the nest is complete: its token, and the engine is idle (R254, R257). -/
def State.advance (s : State) : State :=
  let m := s.bank.mat
  match nextIx m.active 0 m.idx.toList with
  | some l => (s.modMat fun m => { m with idx := toIx l, phase := .pass }).enterRequests
  | none =>
    let s := s.modMat fun m => { m with eng := .idle, running := none, phase := .pass }
    match m.running with
    | some r => s.finishToken r.strand r.td none
    | none => s
/-- One pass (R247), its fetches (R256, R258) and, when no drain follows, its actions. -/
def State.passStep (s : State) : State :=
  let m := s.bank.mat
  let n := m.active
  if m.eng ≠ .running ∨ m.phase ≠ .pass ∨ !s.mayPass ∨ s.clockStopped ∨ s.fetchHeld then s
  else
    let tiles := passTiles n m.idx
    match useTiles s n ((chooseBanks s n tiles).zip tiles) with
    | .error f => s.nestFault f.1 f.2
    | .ok (t, data) =>
      match passInputs t n (tiles.zip data) n.p n.mid m.idx with
      | .error f => t.nestFault f.1 f.2
      | .ok i =>
        let t := (t.applyPass n i (n.coord m.idx 4) (n.coord m.idx 5)).charge 1 (n.pr * n.p * (if n.b4 then 64 else 48))
        if n.acts m.idx % 2 = 1 then (t.modMat fun m => { m with phase := .drain }).enterRequests else t.actions.advance
def execPass (c : Fin 256) (s : State) : Out := .next (s.on c fun s => s.onNest Matrix.busy State.passStep)

/-! ## The numerical check (R263) -/
/-- The inputs of a pass read again from memory at 8 planes without MID; a read that faults contributes zero. -/
def checkInputs (s : State) (n : NestSet) (ix : List Nat) : Option PassIn :=
  let v := toIx ix
  match fetchList (fun t => (loadTile s t).map fun d => (t, d)) (passTiles n v) with
  | .error _ => none
  | .ok tiles => match passInputs s n tiles 8 false v with
    | .error _ => none
    | .ok i => some i
/-- The reference of an element (R263), as an F32. -/
def reference (n : NestSet) (ins : List PassIn) (rr j : Nat) : Nat :=
  let sums := ins.map fun i =>
    let row := i.rows.getD rr ⟨[], [], false, []⟩
    (blockSums n.a.q row i.b j, row.scales, (i.scales.getD j (0x7F, false)).1)
  if n.acc = 2 then sums.foldl (fun a x => (accumulate 2 2 .rne x.1 x.2.1 x.2.2 a).1) 0
  else Num.round Num.rne .f32 (Num.ofInt (sums.foldl (fun a x => a + x.1.foldl (· + ·) 0) 0))
/-- dev and rel of an element, as F32 (R263). -/
def deviation (x ref : Nat) : Nat × Nat :=
  let f := Num.read .f32
  let absF := fun (v : Nat) => v % 2 ^ 31
  let dev := absF (Num.round Num.rne .f32 (Num.sub .rne (f x) (f ref)))
  let rel := if dev = 0 then 0 else if absF ref = 0 then Num.infBits .f32 else Num.round Num.rne .f32 (Num.div (f dev) (f (absF ref)))
  (dev, rel)
/-- The record of a sampled drain. -/
def checkPayload (s : State) : List Byte :=
  let m := s.bank.mat
  let n := m.active
  let crow := n.coord m.idx 4
  let ccol := n.coord m.idx 5
  let r0 := n.pr * n.coord m.idx 6
  let c0 := n.pc * n.coord m.idx 7
  let ins := m.checked.filterMap (checkInputs s n)
  let places := (List.range n.pr).flatMap fun rr => (List.range n.pc).map fun j => (rr, j)
  let worst := places.foldl (fun (w : Nat × Nat) x =>
    let (r, c) := physical n.b4 (n.pr * crow + x.1) (n.pc * ccol + x.2)
    if n.o.rows ≤ r0 + x.1 ∨ n.o.cols ≤ c0 + x.2 ∨ (m.accPois.toList.getD r 0).getLsbD c then w
    else
      let v := ((m.acc.toList.getD r (Vector.replicate 1024 0)).toList.getD c 0).toNat
      let x' := if n.acc = 2 then v else Num.round Num.rne .f32 (Num.ofInt (Num.sint 32 v))
      let d := deviation x' (reference n ins x.1 x.2)
      (Num.minMax .f32 true w.1 d.1, Num.minMax .f32 true w.2 d.2)) (0, 0)
  let t := s.bank.task
  toLe 8 ((t.map fun t => t.id.toNat).getD 0) ++ toLe 4 ((t.map fun t => t.step.toNat).getD 0)
    ++ [BitVec.ofNat 8 n.to, BitVec.ofNat 8 (n.p + 128 * bit n.mid), 0, 0] ++ toLe 4 (n.coord m.idx 6) ++ toLe 4 (n.coord m.idx 7)
    ++ toLe 4 worst.1 ++ toLe 4 worst.2
/-- The drain counts towards the sampling, and a sampled one is recorded (R263, R278). -/
def State.checkDrain (s : State) : State :=
  let m := s.bank.mat
  if m.checkN = 0 then s
  else
    let due := m.sampleDue
    let s := s.modMat fun m => { m with checkNow := false, checkC := if due then 0 else m.checkC + 1 }
    if due then s.record s.bank.ctx s.core.part (some s.cur) 1 s.mts (checkPayload s) else s

/-! ## The drain (R255) -/
/-- An element of the file converted for OUT. -/
def drainElem (n : NestSet) (x : Nat) : Nat :=
  let c : Num.RC := { mode := Rnd.dec (n.ocv % 8), sat := n.ocv / 8 % 2 == 1 && n.o.elem != .f32 }
  if n.acc = 2 then if n.o.elem = .f32 then x else Num.convert c n.o.elem .f32 x
  else if n.o.elem = .f32 then Num.round { c with sat := false } .f32 (Num.ofInt (Num.sint 32 x)) else x
/-- The 32-byte blocks of the drain: a row of the region, the first column and the number of columns. -/
def drainBlocks (n : NestSet) (ix : Vector Nat 6) : List (Nat × Nat × Nat) :=
  let per := 256 / n.o.elem.bits
  let rows := Nat.min n.pr (n.o.rows - n.pr * n.coord ix 6)
  let cols := Nat.min n.pc (n.o.cols - n.pc * n.coord ix 7)
  (List.range rows).flatMap fun rr => (List.range ((cols + per - 1) / per)).map fun k => (rr, per * k, Nat.min per (cols - per * k))
/-- A list ordered by keys. -/
def insertKey {α : Type} (k : Nat) (x : α) : List (Nat × α) → List (Nat × α)
  | [] => [(k, x)]
  | (h, y) :: t => if k ≤ h then (k, x) :: (h, y) :: t else (h, y) :: insertKey k x t
/-- The order of the writes: free where output rows overlap in memory (R2, R255). -/
def drainOrder (s : State) (n : NestSet) (l : List (Nat × Nat × Nat)) : List (Nat × Nat × Nat) :=
  if n.pc * n.o.elem.bits / 8 ≤ n.o.rstr then l
  else (l.foldl (fun acc x => insertKey (Config.freeChoice (s.freeCtr * 2 ^ 32 + x.1 * 2 ^ 16 + x.2.1)) x acc) []).map (·.2)
/-- The address of a block of a drain, and its length. -/
def drainRange (n : NestSet) (ix : Vector Nat 6) (x : Nat × Nat × Nat) : Nat × Nat :=
  let w := n.o.elem.bits / 8
  (n.o.base + (n.pr * n.coord ix 6 + x.1) * n.o.rstr + (n.pc * n.coord ix 7 + x.2.1) * w, x.2.2 * w)
/-- One block of a drain: the state after it, and the fault of its write. -/
def drainBlock (n : NestSet) (r : State × Option EngFault) (x : Nat × Nat × Nat) : State × Option EngFault :=
  let s := r.1
  let m := s.bank.mat
  let cells := (List.range x.2.2).map fun k =>
    let p := physical n.b4 (n.pr * n.coord m.idx 4 + x.1) (n.pc * n.coord m.idx 5 + x.2.1 + k)
    (((m.acc.toList.getD p.1 (Vector.replicate 1024 0)).toList.getD p.2 0).toNat, (m.accPois.toList.getD p.1 0).getLsbD p.2)
  let w := n.o.elem.bits / 8
  let ea := n.o.base + (n.pr * n.coord m.idx 6 + x.1) * n.o.rstr + (n.pc * n.coord m.idx 7 + x.2.1) * w
  let d := cells.flatMap fun c => toLe w (drainElem n c.1)
  let put : Except EngFault State :=
    if kindOf ea = 12 then .error (causeOwnership, ea % 2 ^ 56)
    else match engCheck s .store ea d.length false with
      | .error f => .error f
      | .ok ps => s.engWrite ps d (cells.any (·.2))
  match put with
  | .error f => (s, r.2.orElse fun _ => some f)
  | .ok t => (t, r.2)
/-- One drain (R255), with the actions that follow it; a fault of a write stops the nest after them (R258). The reads of the checker wait
in q3 as a pass's do (R263). -/
def State.drainStep (s : State) : State :=
  let m := s.bank.mat
  let n := m.active
  if m.eng ≠ .running ∨ m.phase ≠ .drain ∨ s.clockStopped ∨ (m.sampleDue ∧ s.fetchHeld) then s
  else
    let s := s.checkDrain
    let r := (drainOrder s n (drainBlocks n m.idx)).foldl (drainBlock n) (s, none)
    let t := r.1.actions
    match r.2 with
    | some f => t.nestFault f 6
    | none => t.advance
def execDrain (c : Fin 256) (s : State) : Out := .next (s.on c fun s => s.onNest Matrix.busy State.drainStep)
/-- A nest that starts has its first requests enter q3. -/
def State.beginNest (s : State) : State :=
  let t := s.startNest
  if s.bank.mat.eng ≠ .running ∧ t.bank.mat.eng = .running then t.enterRequests else t
/-- NEST_START (R253). -/
def execNestStart (c : Fin 256) (s : State) : Out :=
  .next (s.on c fun s => if s.clockStopped then s else s.onNest Matrix.busy State.beginNest)

end Sys2Proof.Machine
end

