-- ==== Sys2Proof/Machine/Memory.lean ====
section
/-! DEFINITION. The meanings of the loads, stores, atomics, fences, cache operations and publications
(R167 to R171, R173 to R177). RPASS and RSHARE are in Regions. -/
namespace Sys2Proof.Machine

/-- The fields of parcel 1 in length 00. -/
def XM.none : XM := ⟨0, false, 0, .strand, .plain⟩
/-- The effective address (R145, R167). -/
def State.ea {w : Nat} (s : State) (a : Fin 64) (disp : BitVec w) : W64 := s.rs a + disp.signExtend 64

/-! ## Loads and stores -/
/-- A scalar load of n parcels; a load into s0 does every check and discards its value (R167). -/
def State.loadTo (s : State) (n : Nat) (d : Fin 64) (ea : W64) (len : Nat) (x : XM) (ext : Nat → W64) : Out :=
  match s.load ea len 1 x with
  | .ok v => ((s.loadNote ea len x).setS d (ext v)).retire n |> .next
  | .error e => s.stop e
def State.storeFrom (s : State) (n : Nat) (v : W64) (ea : W64) (len : Nat) (x : XM) : Out :=
  s.seq n (s.store ea (toLe len v.toNat) 1 x)
def dword (v : Nat) : W64 := BitVec.ofNat 64 v
def wordSx (v : Nat) : W64 := (BitVec.ofNat 32 v).signExtend 64
/-- The bytes of a width code of LDX and STX (R168). -/
def widthOf (w : BitVec 2) : Nat := 2 ^ w.toNat
/-- The extension of LDX (R168). -/
def ldxExt (w : BitVec 2) (sx : Bool) (v : Nat) : W64 :=
  if sx then BitVec.ofInt 64 (Num.sint (8 * widthOf w) v) else BitVec.ofNat 64 v

def execLdD (d a : Fin 64) (disp : BitVec 11) (s : State) : Out := s.loadTo 1 d (s.ea a disp) 8 XM.none dword
def execLdW (d a : Fin 64) (disp : BitVec 11) (s : State) : Out := s.loadTo 1 d (s.ea a disp) 4 XM.none wordSx
def execStD (d a : Fin 64) (disp : BitVec 11) (s : State) : Out := s.storeFrom 1 (s.rs d) (s.ea a disp) 8 XM.none
def execStW (d a : Fin 64) (disp : BitVec 11) (s : State) : Out := s.storeFrom 1 (s.rs d) (s.ea a disp) 4 XM.none
/-- The info of ILLEGAL_ORDER (R46): parcel 0. -/
def orderInfo (maj : Nat) (d a : Fin 64) (imm : Nat) : Nat := 1 + 4 * maj + 2 ^ 9 * d.val + 2 ^ 15 * a.val + 2 ^ 21 * imm
/-- Whether a load names a release, or a store an acquire (R46). -/
def badLoad (x : XM) : Bool := x.ord == .rel || x.ord == .ar
def badStore (x : XM) : Bool := x.ord == .acq || x.ord == .ar
def execLdDL (d a : Fin 64) (x : XM) (s : State) : Out :=
  if badLoad x then .next (s.takeTrap causeOrder (orderInfo 0x18 d a 0)) else s.loadTo 2 d (s.ea a x.disp) 8 x dword
def execLdWL (d a : Fin 64) (x : XM) (s : State) : Out :=
  if badLoad x then .next (s.takeTrap causeOrder (orderInfo 0x19 d a 0)) else s.loadTo 2 d (s.ea a x.disp) 4 x wordSx
def execStDL (d a : Fin 64) (x : XM) (s : State) : Out :=
  if badStore x then .next (s.takeTrap causeOrder (orderInfo 0x1A d a 0)) else s.storeFrom 2 (s.rs d) (s.ea a x.disp) 8 x
def execStWL (d a : Fin 64) (x : XM) (s : State) : Out :=
  if badStore x then .next (s.takeTrap causeOrder (orderInfo 0x1B d a 0)) else s.storeFrom 2 (s.rs d) (s.ea a x.disp) 4 x
def execLdx (d a : Fin 64) (w : BitVec 2) (sx : Bool) (x : XM) (s : State) : Out :=
  if badLoad x then .next (s.takeTrap causeOrder (orderInfo 0x1C d a (w.toNat + 8 * bit sx)))
  else s.loadTo 2 d (s.ea a x.disp) (widthOf w) x (ldxExt w sx)
def execStx (d a : Fin 64) (w : BitVec 2) (x : XM) (s : State) : Out :=
  if badStore x then .next (s.takeTrap causeOrder (orderInfo 0x1D d a w.toNat))
  else s.storeFrom 2 (s.rs d) (s.ea a x.disp) (widthOf w) x

/-- LDV: 512 bytes, aligned to 64, into a vector register or a mapped push port (R163, R169, R228). -/
def State.loadV (s : State) (n : Nat) (vd : Fin 32) (ea : W64) : Out :=
  match s.vecIn [] (some vd) false [] with
  | .error e => s.stop e
  | .ok io =>
    match io.s.load ea 512 64 XM.none with
    | .ok v => .next (({ io with s := io.s.loadNote ea 512 XM.none }.write vd (BitVec.ofNat 4096 v)).retire n)
    | .error e => s.stop e
/-- STV: 512 bytes from a vector register or a mapped pop port; a store that does not retire pops nothing (R228). -/
def State.storeV (s : State) (n : Nat) (vd : Fin 32) (ea : W64) : Out :=
  match s.vecIn [vd] none false [] with
  | .error e => s.stop e
  | .ok io =>
    match io.s.store ea (toLe 512 (io.v vd).toNat) 64 XM.none with
    | .ok t => .next (t.retire n)
    | .error e => s.stop e
def execLdv (vd : Fin 32) (a : Fin 64) (disp : BitVec 12) (s : State) : Out :=
  s.loadV 1 vd (s.rs a + 64 * disp.signExtend 64)
def execLdvL (vd : Fin 32) (a : Fin 64) (x : XM) (s : State) : Out := s.loadV 2 vd (s.ea a x.disp)
def execStv (vd : Fin 32) (a : Fin 64) (disp : BitVec 12) (s : State) : Out :=
  s.storeV 1 vd (s.rs a + 64 * disp.signExtend 64)
def execStvL (vd : Fin 32) (a : Fin 64) (x : XM) (s : State) : Out := s.storeV 2 vd (s.ea a x.disp)

/-! ## Atomics (R170) -/
/-- The new value of an ATOM; none where CAS fails. -/
def atomNew (op : AtomOp) (n old x cmp : Nat) : Option Nat :=
  let m := 2 ^ (8 * n)
  let le := fun (a b : Nat) => decide (Num.sint (8 * n) a ≤ Num.sint (8 * n) b)
  match op with
  | .add => some ((old + x) % m)
  | .and => some (Nat.land old x)
  | .or => some (Nat.lor old x)
  | .xor => some (Nat.xor old x)
  | .min => some (Nat.min old x)
  | .mins => some (if le old x then old else x)
  | .max => some (Nat.max old x)
  | .maxs => some (if le old x then x else old)
  | .swap => some x
  | .fadd32 => some (Num.arith Num.rne .f32 addF old x 0)
  | .cas => if old = cmp then some x else none
/-- The indivisible access at the home of the location: the state after it and the old value (R153, R161, R170). It waits
for the acknowledgement of every store of the core that it overlaps (R322), and taints an anchor slot that it writes (R381). -/
def State.atomAt (s : State) (p : Piece) (rel : Bool) (op : AtomOp) (x cmp : Nat) : Res (State × Nat) :=
  match s.loadPiece false p with
  | .error e => .error e
  | .ok bytes =>
    if s.stores.any fun m => m.meets p.key p.len then .error (.wait .other)
    else
      let old := leNat bytes
      let new := atomNew op p.len old x cmp
      if new.isSome && rel && s.pendingBelow s.releaseBound then .error (.wait (.drain s.releaseBound))
      else
        let owned := p.space == .hbm && p.kind == 0
        if owned && new.isSome && !versionRoom s p.key p.len then .error (.trap causeVersion p.va)
        else
          let s := if p.kind = 2 ∨ p.space = .host then s.escape else s
          let s := if p.space = .hbm then s.expel p.inLine else s
          let s := match new with
            | none => s
            | some v =>
              match p.space, s.core.part with
              | .control, some part => s.controlWrite part (p.va % 2 ^ 20) (BitVec.ofNat 64 v)
              | _, _ => if owned then s.verWrite p.key (toLe p.len v) else (s.wrs p.key (toLe p.len v)).taint p.key p.len
          .ok (s.dropBlocks p.va p.len, old)
def State.atom (s : State) (parcels : Nat) (op : AtomOp) (d a b : Fin 64) (x : XM) : Out :=
  if s.fenceHold then s.stop (.wait .other)
  else
    let n := if x.w64 then 8 else 4
    let ea := s.ea a x.disp
    match checkAll s { acc := .atom, ea := ea.toNat, len := n, align := n, ordered := true, op := some op } with
    | .error e => s.stop e
    | .ok ps =>
      match ps with
      | p :: _ =>
        let rel := (x.ord == .rel || x.ord == .ar) && (wideScope x.scope || p.space == .host)
        match s.clearFence.atomAt p rel op ((s.rs b).toNat % 2 ^ (8 * n)) ((s.rs d).toNat % 2 ^ (8 * n)) with
        | .error e => s.stop e
        | .ok (t, old) => .next ((t.setS d (BitVec.ofNat 64 old)).retire parcels)
      | [] => .next s
def execAtomAdd (d a b : Fin 64) (s : State) : Out := s.atom 1 .add d a b XM.none
def execAtomAnd (d a b : Fin 64) (s : State) : Out := s.atom 1 .and d a b XM.none
def execAtomOr (d a b : Fin 64) (s : State) : Out := s.atom 1 .or d a b XM.none
def execAtomXor (d a b : Fin 64) (s : State) : Out := s.atom 1 .xor d a b XM.none
def execAtomMin (d a b : Fin 64) (s : State) : Out := s.atom 1 .min d a b XM.none
def execAtomMins (d a b : Fin 64) (s : State) : Out := s.atom 1 .mins d a b XM.none
def execAtomMax (d a b : Fin 64) (s : State) : Out := s.atom 1 .max d a b XM.none
def execAtomMaxs (d a b : Fin 64) (s : State) : Out := s.atom 1 .maxs d a b XM.none
def execAtomSwap (d a b : Fin 64) (s : State) : Out := s.atom 1 .swap d a b XM.none
def execAtomFadd32 (d a b : Fin 64) (s : State) : Out := s.atom 1 .fadd32 d a b XM.none
def execAtomCas (d a b : Fin 64) (s : State) : Out := s.atom 1 .cas d a b XM.none
def execAtomL (op : AtomOp) (d a b : Fin 64) (x : XM) (s : State) : Out := s.atom 2 op d a b x

/-! ## Fences (R171) -/
/-- Later memory, engine and synchronisation instructions of the strand are held while an earlier store of the
core is not performed. A scope within the core needs no hold: its strands read the store buffer (R182, log 10). -/
def State.fence (s : State) (hold : Bool) : Out :=
  .next ((s.modStrand fun t => { t with fence := if hold then s.dev.fab.nextMsg else t.fence }).retire 1)
def execFence (scope : Scope) (s : State) : Out := s.fence (wideScope scope)
/-- FENCE.ACQ orders loads and atomics, which are performed when they retire (log 11); a COMMONS load that the store buffer
served counts as performed with its store (R189, log 10). -/
def execFenceAcq (scope : Scope) (s : State) : Out := s.fence (wideScope scope && s.stores.any (·.kind == 2))
def execFenceRel (scope : Scope) (s : State) : Out := s.fence (wideScope scope)
def execFenceEng (s : State) : Out := s.fence true
/-- FETCHB waits for the stores of the core and discards what the strand has fetched beyond it. -/
def execFetchb (s : State) : Out :=
  if s.stores.any fun m => m.st != .performed then s.stop (.wait .other)
  else .next ((s.modStrand fun t => { t with fbuf := [] }).retire 1)

/-! ## RQUERY, the caches and publication (R173 to R177) -/
/-- RQUERY never traps: where no entry can be read it reports VALID = 0. -/
def execRquery (d a : Fin 64) (s : State) : Out :=
  let addr := (s.rs a).toNat
  if s.fenceHold then s.stop (.wait .other)
  else if illFormed s false addr || kindOf addr == 12 || kindOf addr == 14 then s.clearFence.put 1 d 0
  else
    let x := match regionAt s .own addr with
      | .ok (some r) =>
        r.peer * 2 ^ 16 + r.core * 2 ^ 8 + bit (r.core == s.cur.val || r.peer == s.cur.val) * 8 + 4 + r.kind
      | _ => 0
    s.clearFence.put 1 d (BitVec.ofNat 64 x)
/-- The physical line of a cache operation: it translates a and makes no region check (R174). -/
def lineOf (s : State) (addr : Nat) : Res (Option Nat) :=
  if illFormed s false addr then Acc.maint.fault causeProtection addr
  else if isHbmKind addr then (translate s .maint addr).map fun l => some (l.pa addr / 128)
  else .ok none
def State.lineOp (s : State) (a : Fin 64) (f : State → Nat → State) : Out :=
  if s.fenceHold then s.stop (.wait .other)
  else match lineOf s (s.rs a).toNat with
    | .error e => s.stop e
    | .ok (some l) => .next ((f s.clearFence l).retire 1)
    | .ok none => .next (s.clearFence.retire 1)
/-- Poison marks of the version whose block the version no longer covers (R165, R174). -/
def State.trimMarks (s : State) (line : Nat) : State :=
  s.modTask fun t =>
    { t with verPois := t.verPois.filter fun e =>
        e.2 || e.1 / 4 != line || ((keysFrom (e.1 * 32) 32).all fun k => (ovGet t.version k).isSome) }
def execDcwb (a : Fin 64) (s : State) : Out := s.lineOp a fun s l => s.writeBack fun x => x == l
def execDcwbi (a : Fin 64) (s : State) : Out := s.lineOp a fun s l => s.expel fun x => x == l
/-- DCINV loses the unwritten stores of the line. -/
def execDcinv (a : Fin 64) (s : State) : Out :=
  s.lineOp a fun s l => ((s.modCore fun c => { c with dirty := c.dirty.filter fun x => x.1 / 128 != l }).dropLines fun x => x == l).trimMarks l
def execIcinv (a : Fin 64) (s : State) : Out :=
  s.lineOp a fun t _ =>
    t.modCore fun c => { c with icache := c.icache.filter fun e => !(e.ctx == s.bank.ctx && e.line == (s.rs a).toNat / 128) }
def execIcinva (s : State) : Out :=
  if s.fenceHold then s.stop (.wait .other)
  else .next ((s.clearFence.modCore fun c => { c with icache := [] }).retire 1)
/-- PREF fills the home slice as its hint says, or the data cache, where the line changes no value (log 12). It never
traps, and does nothing for a line that the core may not cache (R152, R153, R174). -/
def execPref (a : Fin 64) (hint : Fin 3) (s : State) : Out :=
  if s.fenceHold then s.stop (.wait .other)
  else
    let t := s.clearFence
    match checkAll t { acc := .load, ea := (s.rs a).toNat, len := 1, align := 1 } with
    | .ok [p] =>
      if hint = 0 then .next ((p.cacheLines.foldl State.cacheFill t).retire 1)
      else .next ((p.cacheLines.foldl (fun (t : State) l => (t.charge 3 (t.fillUnits l)).fillLine l (if hint = 1 then 2 else 1)) t).retire 1)
    | _ => .next (t.retire 1)
/-- PBINV: with a = s0 the whole parameter-block cache (R175). -/
def execPbinv (a : Fin 64) (s : State) : Out :=
  if s.fenceHold then s.stop (.wait .other)
  else if a = 0 then .next ((s.clearFence.modCore fun c => { c with pbc := [] }).retire 1)
  else .next ((s.clearFence.dropBlocks (s.rs a).toNat 128).retire 1)
/-- PUBL enters the commit queue (R177). -/
def execPubl (a : Fin 64) (s : State) : Out :=
  let w := (s.rs a).toNat
  if s.fenceHold then s.stop (.wait .other)
  else if decide (w < 256) && s.core.part.any fun p => (windowOf s p w).flags % 2 == 1 then
    .next ((s.clearFence.modTask fun t => { t with hostQ := t.hostQ ++ [.publ (BitVec.ofNat 8 w)] }).retire 1)
  else .next (s.takeTrap causeProtection w)

end Sys2Proof.Machine
end

