-- ==== Sys2Proof/Machine/Mesh.lean ====
section
/-! DEFINITION. Farandole: sites and links (R12, R316), headers (R317), arbitration (R319, R320), admission and injection
(R322, R325 to R328), and dead links (R331). -/
namespace Sys2Proof.Machine

/-! ## Sites and links -/
/-- The site beyond a port; row 0 is the north (R12, R320). -/
def neighbour (site : Fin 272) (p : Port) : Option (Fin 272) :=
  let col := site.val % 34
  let row := site.val / 34
  match p with
  | .e => if col < 33 then some (fin 272 (site.val + 1)) else none
  | .w => if 0 < col then some (fin 272 (site.val - 1)) else none
  | .n => if 0 < row then some (fin 272 (site.val - 34)) else none
  | .s => if row < 7 then some (fin 272 (site.val + 34)) else none
def backPort : Port → Port
  | .e => .w
  | .w => .e
  | .n => .s
  | .s => .n
/-- The order of R320. -/
def ports : List Port := [.e, .w, .n, .s]
def portCode : Port → Nat
  | .e => 0 | .w => 1 | .n => 2 | .s => 3
abbrev Links := List (Plane × Fin 272 × Port)
/-- The site beyond a link that a list does not name. -/
def liveTo (dead : Links) (plane : Plane) (site : Fin 272) (p : Port) : Option (Fin 272) :=
  if dead.any (· == (plane, site, p)) then none else neighbour site p
/-- One round of shortest distances over the live links. -/
def relax (dead : Links) (plane : Plane) (v : Vector Nat 272) : Vector Nat 272 :=
  v.mapFinIdx fun i d h => ports.foldl (fun d p => match liveTo dead plane ⟨i, h⟩ p with
    | some n => Nat.min d (v[n] + 1)
    | none => d) d
def bfsGo (dead : Links) (plane : Plane) : Nat → Vector Nat 272 → Vector Nat 272
  | 0, v => v
  | n + 1, v =>
    let w := relax dead plane v
    if w = v then v else bfsGo dead plane n w
/-- Live hop distances to a site; 1,000 where none is reached. -/
def bfs (dead : Links) (plane : Plane) (dst : Fin 272) : Vector Nat 272 :=
  bfsGo dead plane 272 ((Vector.replicate 272 1000).set dst 0)
/-- The live hop distance that a router's table holds. -/
def hops (table : Links) (plane : Plane) (a b : Fin 272) : Nat :=
  if table.any (·.1 == plane) then (bfs table plane b)[a]
  else
    let gap := fun (x y : Nat) => (x - y) + (y - x)
    gap (a.val % 34) (b.val % 34) + gap (a.val / 34) (b.val / 34)
/-- The core at a site. -/
def State.coreAt (s : State) (site : Fin 272) : Option (Fin 256) :=
  ((List.range 256).find? fun i => s.siteOf (fin 256 i) == site && !s.dev.sites.retired.getLsbD i).map (fin 256 ·)

/-! ## Headers (R317) -/
/-- ADDR: an HBM physical address, or a vault offset joined to its logical core. -/
def addrOf (key : Nat) : Nat := if key < 2 ^ 48 then key else (key - 2 ^ 48) % 2 ^ 40
/-- The header of flit `idx`. SEL and NS tell of a compressed line; a read request carries none itself (R336). -/
def header (m : Msg) (idx : Nat) (src dst : Fin 272) (stamp : Nat) : BitVec 128 :=
  let form := if m.kind = 0 ∨ m.form.1 = 0 then 0 else m.form.1 % 2 ^ 3 * 2 ^ 62 + (m.form.2 - 1) % 2 ^ 2 * 2 ^ 65
  let tag := (m.tag.map (·.val)).getD 0
  let pois := bit (m.pois.any (· == 2 * idx)) + 2 * bit (m.pois.any (· == 2 * idx + 1))
  BitVec.ofNat 128 (dst.val + src.val * 2 ^ 9 + stamp % 2 ^ 24 * 2 ^ 18 + tag * 2 ^ 42 + idx % 16 * 2 ^ 49 + (m.flits - 1) * 2 ^ 53
    + m.kind.toNat * 2 ^ 57 + pois * 2 ^ 67 + m.ctx.toNat * 2 ^ 69 + (addrOf m.addr + 64 * idx) % 2 ^ 40 * 2 ^ 81 + m.rh.toNat * 2 ^ 121 + form)
def hdrDst (h : BitVec 128) : Fin 272 := fin 272 (h.toNat % 2 ^ 9)
def hdrSrc (h : BitVec 128) : Fin 272 := fin 272 (h.toNat / 2 ^ 9 % 2 ^ 9)
def hdrStamp (h : BitVec 128) : Nat := h.toNat / 2 ^ 18 % 2 ^ 24
def hdrKind (h : BitVec 128) : Nat := h.toNat / 2 ^ 57 % 2 ^ 5
/-- The kinds of R318. -/
def kindKnown (k : Nat) : Bool := decide (k ≤ 6) || (decide (16 ≤ k) && decide (k ≤ 19))
/-- The rank of a flit: greater age, then lower SRC, TAG, IDX and DST (R319), as a key whose least value is first. -/
def rankOf (now : Nat) (h : BitVec 128) : Nat :=
  let age := (now + 2 ^ 24 - hdrStamp h) % 2 ^ 24
  let low := fun (lo n : Nat) => h.toNat / 2 ^ lo % 2 ^ n
  ((((2 ^ 24 - 1 - age) * 2 ^ 9 + low 9 9) * 2 ^ 7 + low 42 7) * 2 ^ 4 + low 49 4) * 2 ^ 9 + low 0 9
/-- A list in the order of rising keys. -/
def insertBy {α : Type} (key : α → Nat) (x : α) : List α → List α
  | [] => [x]
  | y :: t => if key x ≤ key y then x :: y :: t else y :: insertBy key x t
def sortBy {α : Type} (key : α → Nat) (l : List α) : List α := l.foldr (insertBy key) []

/-! ## Arbitration (R320, R326, R327) -/
/-- Where a flit goes: ejected, or to a site, by a productive port or not. -/
inductive Way where
  | eject
  | hop (dest : Fin 272) (productive : Bool)
  deriving DecidableEq, Repr
/-- The first free port that qualifies. -/
def pickPort (dead table : Links) (plane : Plane) (site dst : Fin 272) (free : List Port) : Option (Port × Fin 272 × Bool) :=
  let here := hops table plane site dst
  let live := free.filterMap fun p => (liveTo dead plane site p).map fun n => (p, n, decide (hops table plane n dst < here))
  (live.find? (·.2.2)).orElse fun _ => live.head?
/-- The ranked flits of one router take their ways. -/
def assign (dead table : Links) (plane : Plane) (site : Fin 272) : List Flit → List Port → Nat → List (Flit × Way) × List Port
  | [], free, _ => ([], free)
  | f :: t, free, ejects =>
    if hdrDst f.hdr = site ∧ 0 < ejects then
      let r := assign dead table plane site t free (ejects - 1)
      ((f, .eject) :: r.1, r.2)
    else match pickPort dead table plane site (hdrDst f.hdr) free with
      | some (p, n, good) =>
        let r := assign dead table plane site t (free.filter (· != p)) ejects
        ((f, .hop n good) :: r.1, r.2)
      | none => assign dead table plane site t free ejects
/-- Whether the throttle lets a site inject in this cycle (R326). -/
def State.injects (s : State) (site : Fin 272) : Bool :=
  match s.coreAt site with
  | some c => decide (s.dev.fabricCycles.toNat % 8 < 8 - (s.cores[c]).level.toNat)
  | none => true
/-- Whether relief keeps a site from injecting (R327). -/
def State.reliefHolds (s : State) (plane : Plane) (site : Fin 272) : Bool :=
  match s.dev.fab.relief.find? (·.1 == plane) with
  | some r => r.2 != site
  | none => false
/-- What one router does in one cycle: the ways of its flits, and its candidate with its way, or one that only waits. A candidate
waits for a free port, or while another site holds relief; a cycle in which the throttle holds it does not count (R327). -/
structure Turn where
  ways   : List (Flit × Way)
  inject : Option (Flit × Way)
  waits  : Option Flit
def State.turn1 (s : State) (plane : Plane) (site : Fin 272) : Turn :=
  let fab := s.dev.fab
  let here := fab.flits.filter fun f => f.plane == plane && f.at_ == site
  let ranked := sortBy (fun f => rankOf s.dev.fabricCycles.toNat f.hdr) (here.filter (·.placed))
  let r := assign fab.dead fab.table plane site ranked ports 2
  match here.find? fun f => !f.placed with
  | none => ⟨r.1, none, none⟩
  | some f =>
    if !s.injects site then ⟨r.1, none, none⟩
    else match (if s.reliefHolds plane site then none else pickPort fab.dead fab.table plane site (hdrDst f.hdr) r.2) with
      | some (_, n, good) => ⟨r.1, some (f, .hop n good), none⟩
      | none => ⟨r.1, none, some f⟩
/-- A flit's hop is charged to the context of its message, at the site that injected it (R492, R498). -/
def State.chargeHop (s : State) (f : Flit) : State :=
  match s.dev.fab.net.find? (·.id == f.msg) with
  | some m => s.chargeTo m.ctx m.src 2 1
  | none => s
/-- A core's counter at the site that injected a flit. -/
def State.atSource (s : State) (f : Flit) (g : Core → Core) : State :=
  match s.coreAt (hdrSrc f.hdr) with
  | some c => s.on c fun s => s.modCore g
  | none => s
/-- A flit with the same message and index. -/
def Flit.same (a b : Flit) : Bool := a.plane == b.plane && a.msg == b.msg && a.idx == b.idx
def State.modFlit (s : State) (f : Flit) (g : Flit → Flit) : State :=
  s.modFab fun x => { x with flits := x.flits.map fun y => if y.same f then g y else y }
def State.modMsg (s : State) (id : Nat) (f : Msg → Msg) : State :=
  s.modFab fun x => { x with net := x.net.map fun m => if m.id = id then f m else m }
/-- The lowest tracker number that is not in use (R328). -/
def freeTracker (used : List (Fin 128)) : Option (Fin 128) := ((List.range 128).map (fin 128 ·)).find? fun t => !used.any (· == t)
/-- The receiving site takes a flit: the first of a multi-flit message of the Q plane takes a tracker, and waits in the intake while
none is free (R324, R328). -/
def State.takeFlit (s : State) (f : Flit) : State :=
  match s.dev.fab.net.find? (·.id == f.msg) with
  | none => s
  | some m =>
    if m.onA || decide (m.flits < 2) || m.qtrk.isSome then s
    else match freeTracker ((s.qTracked m.dst).filterMap (·.qtrk)) with
      | some t => s.modMsg m.id fun x => { x with qtrk := some t }
      | none => s.modFab fun x => { x with intake := x.intake ++ [f] }
/-- The flits in the intake are tried again, oldest first. -/
def State.drainIntake (s : State) : State :=
  s.dev.fab.intake.foldl State.takeFlit (s.modFab fun x => { x with intake := [] })
/-- An ejected flit: an unassigned KIND is dropped and counted (R318); the last one delivers its message (R321). -/
def State.ejectFlit (s : State) (site : Fin 272) (f : Flit) : State :=
  let s := s.modFab fun x => { x with flits := x.flits.filter fun y => !y.same f }
  if !kindKnown (hdrKind f.hdr) then
    let s := match s.coreAt site with
      | some c => s.on c fun s => s.modCore fun c => { c with perr := if c.perr = 0xFFFF then c.perr else c.perr + 1 }
      | none => s
    s.modFab fun x => { x with net := x.net.filter (·.id != f.msg) }
  else
    let s := s.takeFlit f
    if s.dev.fab.flits.any (·.msg == f.msg) then s
    else s.modMsg f.msg fun m => if m.st = .admitted then { m with st := .delivered } else m
/-- A flit crosses a link: the receiver confirms it, so its replays are over (R331). -/
def State.confirm (s : State) (plane : Plane) (site next : Fin 272) : State :=
  s.modFab fun x => { x with replays := x.replays.filter fun r => !(r.1 == plane && r.2.1 == site && neighbour site r.2.2.1 == some next) }
def State.moveFlit (s : State) (site : Fin 272) (x : Flit × Way) : State :=
  let s := s.chargeHop x.1
  match x.2 with
  | .eject => s.ejectFlit site x.1
  | .hop n good =>
    let s := (s.confirm x.1.plane site n).modFlit x.1 fun f => { f with at_ := n }
    if good then s else s.atSource x.1 fun c => { c with netdefl := c.netdefl + 1 }
/-- A candidate is injected: its STAMP, netinj, and the end of relief (R317, R327, R339). -/
def State.injectFlit (s : State) (plane : Plane) (site : Fin 272) (x : Flit × Way) : State :=
  let now := s.dev.fabricCycles.toNat % 2 ^ 24
  let s := s.modFlit x.1 fun f =>
    { f with placed := true, waitC := 0, hdr := BitVec.ofNat 128 (f.hdr.toNat - hdrStamp f.hdr * 2 ^ 18 + now * 2 ^ 18) }
  let s := s.modFab fun f => { f with relief := f.relief.filter (· != (plane, site)) }
  (s.atSource x.1 fun c => { c with netinj := c.netinj + 1 }).moveFlit site x
/-- A site whose candidate has waited 64 cycles requests injection relief, behind the requests that stand (R327). -/
def State.askRelief (s : State) (plane : Plane) (site : Fin 272) : State :=
  let waiting := s.dev.fab.flits.any fun f => f.plane == plane && f.at_ == site && !f.placed && decide (64 ≤ f.waitC)
  if waiting && !s.dev.fab.relief.any (· == (plane, site)) then
    s.modFab fun f => { f with relief := f.relief ++ [(plane, site)] }
  else s
def execInjectionRelief (plane : Plane) (site : Fin 272) (s : State) : Out := .next (s.askRelief plane site)
def State.applyTurn (s : State) (plane : Plane) (site : Fin 272) (t : Turn) : State :=
  let s := t.ways.foldl (fun s x => s.moveFlit site x) s
  let s := match t.inject with
    | some x => s.injectFlit plane site x
    | none => s
  match t.waits with
  | some f => (s.modFlit f fun f => { f with waitC := f.waitC + 1 }).askRelief plane site
  | none => s
/-- ARBITRATE: one fabric cycle of every router of a plane; a plane has one in each fabric cycle (R316, R320). Requests for relief of
one cycle stand in the order of the sites (R327). -/
def State.arbitrate (s : State) (plane : Plane) : State :=
  if s.dev.fab.turned.any (· == plane) then s
  else
    let s := (if plane = .q then s.drainIntake else s).modFab fun f => { f with turned := plane :: f.turned }
    if s.dev.fab.flits.isEmpty then s
    else
      let turns := ((List.range 272).map (fin 272 ·)).map fun x => (x, s.turn1 plane x)
      turns.foldl (fun s t => s.applyTurn plane t.1 t.2) s
def execArbitrate (plane : Plane) (s : State) : Out := .next (s.arbitrate plane)

/-! ## Admission (R322, R325, R328) -/
/-- The 32- or 64-byte blocks of a store message (R162). -/
def Msg.sameBlock (a b : Msg) : Bool :=
  let w := if a.addr < 2 ^ 48 then 32 else 64
  decide (a.addr / w ≤ (b.addr + b.data.length - 1) / w) && decide (b.addr / w ≤ (a.addr + a.data.length - 1) / w)
/-- Whether an earlier write of the core holds a write back (R322). -/
def State.writeHeld (s : State) (m : Msg) : Bool :=
  m.isStore && s.dev.fab.net.any fun e => e.isStore && e.src == m.src && decide (e.id < m.id) && e.sameBlock m
def Msg.plane (m : Msg) : Plane := if m.onA then .a else .q
/-- The flits of a message, waiting at its site to be injected. -/
def State.flitsOf (s : State) (m : Msg) : List Flit :=
  (List.range m.flits).map fun i =>
    { plane := m.plane, at_ := s.siteOf m.src, msg := m.id, hdr := header m i (s.siteOf m.src) (s.siteOf m.dst) 0,
      pay := BitVec.ofNat 512 (leNat ((m.data.drop (64 * i)).take 64)), placed := false, waitC := 0 }
/-- Whether a message expects an answer or an acknowledgement (R318, R328): all of the Q plane but a semaphore increment. -/
def Msg.answered (m : Msg) : Bool := !m.onA && m.kind != 3
/-- The A-plane tracker of a message that is admitted: its own for a request, that of its request for an answer (R328). -/
def State.trackerOf (s : State) (m : Msg) : Option (Fin 128) :=
  if m.answered then freeTracker ((s.aTracked m.src).filterMap (·.tag)) else m.tag
/-- ADMISSION: room for all the flits, and a tracker for a message that expects an answer. A message within one site does not enter
the fabric (R316). -/
def State.letIn (s : State) (id : Nat) : State :=
  match s.dev.fab.net.find? (·.id == id) with
  | none => s
  | some m =>
    let room := decide (s.dieFlits (dieOf (s.siteOf m.src)) m.onA + m.flits ≤ Config.netCap)
    let m : Msg := { m with tag := s.trackerOf m }
    if m.st ≠ .queued ∨ m.src = m.dst ∨ !room ∨ (m.answered ∧ m.tag.isNone) ∨ s.writeHeld m then s
    else (s.modMsg id fun _ => { m with st := .admitted }).modFab fun f => { f with flits := f.flits ++ s.flitsOf m }
def execAdmission (m : Nat) (s : State) : Out := .next (s.letIn m)

/-! ## Dead links (R323, R331, R340) -/
/-- One more replay of the flit on a link. -/
def State.linkReplay (s : State) (plane : Plane) (site : Fin 272) (port : Port) : State :=
  s.modFab fun f =>
    let old := ((f.replays.find? fun r => r.1 == plane && r.2.1 == site && r.2.2.1 == port).map (·.2.2.2)).getD 0
    { f with replays := (plane, site, port, old + 1) :: f.replays.filter fun r => !(r.1 == plane && r.2.1 == site && r.2.2.1 == port) }
/-- Whether every site is reached from the first. -/
def connected (dead : Links) (plane : Plane) : Bool := (bfs dead plane 0).all fun d => decide (d < 1000)
/-- A link is marked dead in both directions; when the live graph falls apart, the host is told and the partitions that
span the break stop. -/
def State.killLink (s : State) (plane : Plane) (site : Fin 272) (port : Port) : State :=
  match liveTo s.dev.fab.dead plane site port with
  | none => s
  | some n =>
    let s := s.modFab fun f => { f with dead := (plane, site, port) :: (plane, n, (backPort port)) :: f.dead }
    let dead := s.dev.fab.dead
    if !dead.isEmpty && connected dead plane then s
    else
      let d := bfs dead plane site
      let s := s.event none 0x42 none 0 (site.val * 4 + portCode port) 0
      let spans := fun (p : Nat) =>
        let mine := (List.range 256).filter fun c => (s.cores[fin 256 c]).part == some (fin 16 p)
        (mine.any fun c => d[s.siteOf (fin 256 c)] < 1000) && mine.any fun c => 1000 ≤ d[s.siteOf (fin 256 c)]
      { s with parts := s.parts.mapFinIdx fun i p _ => if spans i then { p with stopped := true } else p }
/-- LINK_DEAD after 16 failed replays. -/
def State.linkDead (s : State) (plane : Plane) (site : Fin 272) (port : Port) : State :=
  if s.dev.fab.replays.any fun r => r.1 == plane && r.2.1 == site && r.2.2.1 == port && decide (16 ≤ r.2.2.2) then
    s.killLink plane site port
  else s
def execLinkDead (plane : Plane) (site : Fin 272) (port : Port) (s : State) : Out := .next (s.linkDead plane site port)
/-- Dlive over a plane. -/
def diameter (dead : Links) (plane : Plane) : Nat :=
  if dead.any (·.1 == plane) then
    (List.range 272).foldl (fun m i => (bfs dead plane (fin 272 i)).foldl (fun m d => if d < 1000 then Nat.max m d else m) m) 0
  else 40
/-- DISTANCE_TABLE_LOAD: the tables follow the dead links, and netcfg reports the plane with the larger bound. The 8 bits of DEAD
saturate at 255 (DESIGN CHOICE, log 37: the spec does not say what more dead links read as). -/
def State.loadTables (s : State) : State :=
  s.modFab fun f =>
    let word := fun (plane : Plane) =>
      let all := (f.dead.filter (·.1 == plane)).length
      let deadN := Nat.min 255 all
      let l := 1004 - all
      let d := diameter f.dead plane
      ((l + 272) * (d + 1)) * 2 ^ 32 + l * 2 ^ 20 + deadN * 2 ^ 12 + d
    { f with table := f.dead, netcfg := BitVec.ofNat 64 (Nat.max (word .q) (word .a)) }
def execDistanceTableLoad (s : State) : Out := .next s.loadTables

end Sys2Proof.Machine
end

