-- ==== Sys2Proof/Machine/Messages.lean ====
section
/-! DEFINITION. What a message of Farandole does when it is applied (R316, R318, R322): at its home for the Q plane, at
the requester for the A plane, and the release of arrival records (R349, R350). -/
namespace Sys2Proof.Machine

/-! ## Applying a message (log 15) -/
def State.msgOf (s : State) (id : Nat) : Option Msg := s.dev.fab.net.find? (·.id == id)
def State.dropMsg (s : State) (id : Nat) : State := s.modFab fun f => { f with net := f.net.filter (·.id != id) }
/-- A message that may be applied: all its flits are ejected and counted, or it goes to its own site and never entered the fabric
(R316, R321, R328). No earlier write of its core holds it back (R322). An echo is never applied: its access has been performed (log 11). -/
def State.arrived (s : State) (m : Msg) : Bool :=
  !m.echo && ((m.st == .delivered && !s.dev.fab.intake.any (·.msg == m.id)) || (m.st == .queued && m.src == m.dst)) && !s.writeHeld m
/-- A release message of a strand goes after every earlier store of its core is performed (R184, R187, R347). -/
def State.afterStores (s : State) (m : Msg) : Bool :=
  !(m.rel && m.strand.isSome) || !(s.dev.fab.net.any fun e => e.isStore && e.src == m.src && decide (e.id < m.id) && e.st != .performed)
/-- A protocol error at a core (R318). -/
def State.protocolError (s : State) (c : Fin 256) : State :=
  s.on c fun s => s.modCore fun c => { c with perr := if c.perr = 0xFFFF then c.perr else c.perr + 1 }
/-- A message of one kind is applied where it arrives; one of an unassigned KIND is dropped and counted (R318). -/
def State.applyMsg (s : State) (id kind : Nat) (f : State → Msg → State) : State :=
  match s.msgOf id with
  | none => s
  | some m =>
    if !s.arrived m then s
    else if !kindKnown m.kind.toNat then (s.dropMsg id).protocolError m.dst
    else if m.kind.toNat = kind ∧ s.afterStores m then f s m
    else s
/-- An A-plane message back to the sender of a Q-plane message. -/
def State.reply (s : State) (m : Msg) (kind : Nat) (data : List Byte) (err : Bool) : State :=
  s.send fun id =>
    { m with
      id := id, kind := BitVec.ofNat 5 kind, src := m.dst, dst := m.src, strand := none, data := data, rel := false, ref := m.id,
      err := err, st := .queued, qtrk := none, pois := [], rh := 0 }
/-- A message is performed: it frees its Q-plane tracker, and its A-plane tracker when its answer has arrived (R328). -/
def State.donePerf (s : State) (m : Msg) : State := s.modMsg m.id fun x => { x with st := .performed, qtrk := none }
/-- The message is performed and its answer leaves (R322). -/
def State.performMsg (s : State) (m : Msg) (kind : Nat) (data : List Byte) : State := (s.donePerf m).reply m kind data false
/-- An answer reaches its requester: it and the message it answers are done. -/
def State.settleMsg (s : State) (m : Msg) : State := (s.dropMsg m.id).dropMsg m.ref

/-! ## The Q plane -/
/-- READ_REQUEST: the bytes at the home; the answer marks those of its parts that a poisoned block feeds (R165, R317, R318). -/
def State.readRequest (s : State) (m : Msg) : State :=
  let ks := keysFrom m.addr m.count
  let pois := distinct ((ks.filter s.pois).map fun k => (k - m.addr) / 32)
  (s.donePerf m).send fun id =>
    { m with
      id := id, kind := 16, src := m.dst, dst := m.src, strand := none, data := ks.map s.rd, rel := false, ref := m.id, err := false,
      st := .queued, qtrk := none, pois := pois }
def execReadRequest (m : Nat) (s : State) : Out := .next (s.applyMsg m 0 State.readRequest)
/-- The blocks that the poisoned parts of a payload feed (R294, R317). -/
def State.markParts (s : State) (key : Nat) (m : Msg) : State :=
  let fed := (keysFrom key m.data.length).filter fun k => m.pois.any (· == (k - key) / 32)
  (distinct (fed.map (· / 32))).foldl (fun s b => s.setPois b true) s
/-- WRITE: the bytes at the home, and its acknowledgement (R322). -/
def State.writeMsg (s : State) (m : Msg) : State :=
  (((s.wrClean m.addr m.data).markParts m.addr m).taint m.addr m.data.length).performMsg m 17 []
def execWrite (m : Nat) (s : State) : Out := .next (s.applyMsg m 1 State.writeMsg)
/-- The op of an atomic message: `count` 0 is an ordered store. -/
def atomOf (n : Nat) : Option AtomOp :=
  match n with
  | 1 => some .add | 2 => some .and | 3 => some .or | 4 => some .xor | 5 => some .min | 6 => some .mins | 7 => some .max
  | 8 => some .maxs | 9 => some .swap | 10 => some .fadd32 | 11 => some .cas
  | _ => none
/-- ATOMIC_OR_ORDERED_ACCESS: an ordered store, or an atomic whose answer is the old value (R170, R318). The data of an
atomic is its operand, for CAS the new value and then the value compared with. -/
def State.orderedMsg (s : State) (m : Msg) : State :=
  match atomOf m.count with
  | none => s.writeMsg m
  | some op =>
    let n := if op = .cas then m.data.length / 2 else m.data.length
    let old := s.rdN m.addr n
    let s := match atomNew op n old (leNat (m.data.take n)) (leNat (m.data.drop n)) with
      | some v => (s.wrClean m.addr (toLe n v)).taint m.addr n
      | none => s
    s.performMsg m 18 (toLe n old)
def execAtomicOrOrderedAccess (m : Nat) (s : State) : Out := .next (s.applyMsg m 2 State.orderedMsg)
/-- SEMAPHORE_INCREMENT: the target applies it, loaded or not (R344). -/
def State.semMsg (s : State) (m : Msg) : State := (s.dropMsg m.id).semAt m.ctx m.dst (fin 64 m.ref) m.count
def execSemaphoreIncrement (m : Nat) (s : State) : Out := .next (s.applyMsg m 3 State.semMsg)
/-- BARRIER_ARRIVAL: counted, or rejected with a release that carries the error flag (R349, R350, R352). -/
def State.arrivalMsg (s : State) (m : Msg) : State :=
  let b := fin 48 m.count
  let k := s.bankOf m.ctx m.dst
  let x := k.bars[b]
  let s := s.performMsg m 17 []
  if x.p = 0 ∨ !x.cores.getLsbD m.src.val ∨ x.arrCores.getLsbD m.src.val then
    let s := s.setBankOf m.ctx m.dst { k with barerr := k.barerr ||| BitVec.ofNat 48 (2 ^ b.val) }
    s.send fun i =>
      { m with
        id := i, kind := 19, src := m.dst, dst := m.src, strand := none, data := [], rel := false, err := true, st := .queued
        tag := none, qtrk := none }
  else
    let s := s.setBankOf m.ctx m.dst
      { k with bars := k.bars.set b { x with arrCores := x.arrCores ||| BitVec.ofNat 256 (2 ^ m.src.val) } }
    releasePhase s m.ctx m.dst b
def execBarrierArrival (m : Nat) (s : State) : Out := .next (s.applyMsg m 4 State.arrivalMsg)
/-- RING_PUSH: 512 bytes into the slot, and the timestamp that its pop returns (R229, R298); its flits are acknowledged when all of
them have been applied (R328). -/
def State.ringMsg (s : State) (m : Msg) : State :=
  let s := (s.performMsg m 17 []).wrClean m.addr (m.data.take 512)
  s.setRing m.ctx (((s.ctxOf m.ctx).ringOf m.ref).fill m.count (BitVec.ofNat 64 (leNat (m.data.drop 512))))
def execRingPush (m : Nat) (s : State) : Out := .next (s.applyMsg m 5 State.ringMsg)
/-- CONTROL_SPACE_ACCESS: the write reaches the partition's block (R510). -/
def State.controlMsg (s : State) (m : Msg) : State :=
  let off := m.addr - partKey 0 0
  (s.controlWrite (fin 16 (off / 2 ^ 20)) (off % 2 ^ 20) (BitVec.ofNat 64 (leNat m.data))).performMsg m 17 []
def execControlSpaceAccess (m : Nat) (s : State) : Out := .next (s.applyMsg m 6 State.controlMsg)

/-! ## The A plane -/
/-- READ_ANSWER: the bytes are written at the requester, at the vault offset that the request names; a poisoned part poisons what it
feeds (R294, R317, R318). -/
def State.readAnswer (s : State) (m : Msg) : State :=
  match s.msgOf m.ref with
  | none => s.dropMsg m.id
  | some q =>
    let k := vaultKey m.dst.val (q.ref % 2 ^ 24)
    ((s.settleMsg m).wrClean k m.data).markParts k m
def execReadAnswer (m : Nat) (s : State) : Out := .next (s.applyMsg m 16 State.readAnswer)
/-- WRITE_ACKNOWLEDGEMENT: a held write of the core may go (R322). -/
def execWriteAcknowledgement (m : Nat) (s : State) : Out := .next (s.applyMsg m 17 State.settleMsg)
/-- ATOMIC_ANSWER: the old value, at the requester. -/
def execAtomicAnswer (m : Nat) (s : State) : Out := .next (s.applyMsg m 18 State.settleMsg)
/-- BARRIER_RELEASE: the release has reached the participant's router (R349). -/
def State.releaseMsg (s : State) (m : Msg) : State :=
  let k := s.bankOf m.ctx m.dst
  (s.dropMsg m.id).setBankOf m.ctx m.dst
    { k with due := k.due ++ [⟨m.src, fin 48 m.count, if m.err then some (fin 4 m.ref) else none⟩] }
def execBarrierRelease (m : Nat) (s : State) : Out := .next (s.applyMsg m 19 State.releaseMsg)

/-! ## Records (R349, R350, R354, R459) -/
/-- A strand's record is released when it names the barrier. -/
def Strand.release (t : Strand) (d : Due) (n : Nat) : Strand :=
  let mine := match d.err with
    | some e => e.val == n
    | none => true
  if mine && t.arr.valid && !t.arr.released && t.arr.home == d.home && t.arr.bar == d.bar then
    { t with arr := { t.arr with released := true, error := d.err.isSome }, latch := t.latch ||| 4 }
  else t
/-- RECORD_RELEASE: the oldest release that is due. The clock must run, and a core that dropped returns first when the release of a
running strand's record is due (R354). -/
def State.recordRelease (s : State) : State :=
  if s.clockStopped || (s.core.dropped && s.bank.releaseDue) then s
  else match s.bank.due with
    | [] => s
    | d :: rest => s.modBank fun b =>
        { b with due := rest, strands := b.strands.mapFinIdx fun i t _ => t.release d i }
def execRecordRelease (c : Fin 256) (s : State) : Out := .next (s.on c fun s => s.recordRelease)

end Sys2Proof.Machine
end

