-- ==== Sys2Proof/Machine/Regions.lean ====
section
/-! DEFINITION. What a change of a region's kind or owner does (R172, R191, R239, R287), and the meanings of RPASS and
RSHARE (R172). -/
namespace Sys2Proof.Machine

/-- The physical spans of a range of HBM addresses, as first key and length; an unmapped page has none. -/
def spansFrom (s : State) (c : Ctx) : Nat → Nat → Nat → List (Nat × Nat)
  | 0, _, _ => []
  | n + 1, va, stop =>
    if stop ≤ va then []
    else match walkOf s c .own va with
      | .ok l =>
        let next := Nat.min stop (l.vbase + l.size)
        (l.pa va, next - va) :: spansFrom s c n next stop
      | .error _ => spansFrom s c n (va / 2 ^ 16 * 2 ^ 16 + 2 ^ 16) stop
/-- The physical spans of a region; a vault region has none, since no cache and no version holds its bytes. -/
def Region.spans (s : State) (c : Ctx) (r : Region) : List (Nat × Nat) :=
  if isHbmKind r.base then spansFrom s c (r.size * 32 + 1) r.base r.stop else []
def inSpans (l : List (Nat × Nat)) (k : Nat) : Bool := l.any fun x => decide (x.1 ≤ k) && decide (k < x.1 + x.2)
/-- What a task's version holds in some spans: its bytes and its poison marks. -/
def Task.cellsIn (t : Task) (spans : List (Nat × Nat)) : List Host.Cell × List (Nat × Bool) :=
  (t.version.filter fun c => inSpans spans c.1, t.verPois.filter fun e => inSpans spans (e.1 * 32))
/-- A task whose version no longer holds anything in some spans. -/
def Task.without (t : Task) (spans : List (Nat × Nat)) : Task :=
  { t with
    version := t.version.filter fun c => !inSpans spans c.1
    verPois := t.verPois.filter fun e => !inSpans spans (e.1 * 32) }
/-- Versioned bytes and poison marks become committed memory. -/
def State.commitCells (s : State) (x : List Host.Cell × List (Nat × Bool)) : State :=
  let s := x.1.foldl (fun (s : State) c => (s.wr c.1 c.2).taint c.1 1) s
  x.2.foldl (fun (s : State) e => s.setPois e.1 e.2) s
/-- The core writes back its lines of a region, and the versioned writes of its tasks there commit (R172). -/
def State.regionOut (s : State) (r : Region) : State :=
  let spans := r.spans s s.ctx
  if spans.isEmpty then s
  else
    let s := s.expel fun l => inSpans spans (l * 128)
    let s := s.bank.tasks.foldl (fun (s : State) t => s.commitCells (t.cellsIn spans)) s
    s.modBank fun b => { b with task := b.task.map (·.without spans), tail := b.tail.map (·.without spans) }
/-- A region of a context changes kind or owner: its bank tags (R239) and its cached parameter blocks (R287) go. -/
def State.regionChanged (s : State) (id : BitVec 12) (r : Region) : State :=
  let hit := fun (t : Tag) => t.valid && t.ctx == id && t.tile.meets r.base (r.stop - 1)
  let s := s.modBanksOf id fun b =>
    { b with mat := { b.mat with tags := b.mat.tags.map fun t => if hit t then Tag.none else t } }
  { s with cores := s.cores.map fun c =>
      { c with pbc := c.pbc.filter fun e => !(e.1 == id && decide (r.base < e.2.1.toNat + 128) && decide (e.2.1.toNat < r.stop)) } }
/-- Whether an engine command of the core, issued before a bound, may touch a region (R172). -/
def Bank.engineMeets (k : Bank) (r : Region) (bound : Nat) : Bool :=
  let nest := fun (n : NestSet) =>
    let span := fun (base rows str : Nat) => (⟨0, base, base + rows * str - 1⟩ : Box)
    [span n.a.base n.a.rows n.a.rstr, span n.b.base n.b.rows n.b.rstr, span n.o.base n.o.rows n.o.rstr]
      ++ (if n.a.sbase = 0 then [] else [span n.a.sbase n.a.rows n.a.sstr])
      ++ (if n.b.sbase = 0 then [] else [span n.b.sbase n.b.cols 1])
      ++ (if n.a.sparse = 0 then [] else [span n.a.mbase n.a.rows n.a.mstr])
  let cmds := k.queues.toList.flatMap fun q => q.cmds.filter fun c => decide (c.id < bound)
  (cmds.any fun c => c.boxes.1.any r.meetsBox || c.boxes.2.any r.meetsBox)
    || (k.nests.map (·.mat) ++ [k.mat]).any fun m =>
      (m.running.isSome && (nest m.active).any r.meetsBox)
        || (m.queued.isSome && (nest (if m.running.isSome then m.shadow else m.copied)).any r.meetsBox)
        || (m.loads.any fun l => l.tag.tile.meets r.base (r.stop - 1))
/-- Whether a core has stores to a region of the context that are not performed. -/
def State.unperformed (s : State) (c : Fin 256) (r : Region) : Bool :=
  let stores := s.dev.fab.net.filter fun m => m.isStore && m.src == c && m.st != .performed
  let keys := if kindOf r.base = 15 then [(vaultKey (r.base / 2 ^ 24 % 256) (r.base % 2 ^ 24), r.stop - r.base)] else r.spans s s.ctx
  !stores.isEmpty && stores.any fun m => keys.any fun x => m.meets x.1 x.2
/-- RPASS to a core, or RSHARE (R172, R540). The entry turns after the stores that its strand's release covers, and after every other
store of the core to the region (R191). -/
def State.giveRegion (s : State) (a : Fin 64) (dest : Option (Fin 64)) : Res State :=
  let addr := (s.rs a).toNat
  let fault := fun (cause : Nat) => (Acc.own.fault cause addr : Res State)
  if s.fenceHold then .error (.wait .other)
  else if illFormed s false addr then fault causeProtection
  else match regionAt s .own addr with
    | .error e => .error e
    | .ok none => fault causeOwnership
    | .ok (some r) =>
      if r.kind ≠ 0 ∨ r.core ≠ s.cur.val then fault causeOwnership
      else
        let t := (dest.map fun b => (s.rs b).toNat).getD 0
        if dest.isSome ∧ !s.inPart t then fault causeProtection
        else if dest.isSome ∧ t = s.cur.val then .ok s.clearFence
        else
          let bound := s.releaseBound
          if s.pendingBelow bound || s.bank.engineMeets r bound || s.unperformed s.cur r then .error (.wait (.drain bound))
          else match regionKey s s.ctx .own addr r.idx with
            | .error e => .error e
            | .ok k =>
              let s := (s.clearFence.regionOut r).escape
              let s := s.setRegion k (if dest.isSome then 0 else 1) t
              .ok (s.regionChanged s.bank.ctx r)
def execRpass (a b : Fin 64) (s : State) : Out := s.seq 1 (s.giveRegion a (some b))
def execRshare (a : Fin 64) (s : State) : Out := s.seq 1 (s.giveRegion a none)

end Sys2Proof.Machine
end

