-- ==== Sys2Proof/Machine/Task.lean ====
section
/-! DEFINITION. The meanings of the task instructions (R389 to R396). TYIELD is in Pool. -/
namespace Sys2Proof.Machine

/-- In S mode the instructions of the class trap, but for LDLR and REUSE.QUERY (R389). -/
def State.inTask (s : State) (k : State → Out) : Out :=
  if s.strand.smode then .next (s.takeTrap causeProtection 0) else k s

/-! ## TEND, TSELF and LDLR (R390 to R392) -/
/-- A strand ends; the other strands of the core see it (R390, R458, R459). -/
def State.endStrand (s : State) (n : Fin 4) : State :=
  let s := s.modBank fun b =>
    { b with strands := b.strands.mapFinIdx fun i t _ =>
        if i = n.val then { t with run := false, stopped := false, ended := true, wait := .none }
        else { t with latch := t.latch ||| 32 } }
  s.modBank fun b => b.dropWaiters fun w => match w with
    | .strand m _ _ _ => m == n
    | .queue .. => false
def execTend (s : State) : Out := s.inTask fun s => .next ((s.retire 1).endStrand s.curS)
/-- The task status word (R391). -/
def Task.status (t : Task) : Nat :=
  t.prio.toNat + 2 ^ 8 * Nat.min 255 t.retry + 2 ^ 16 * t.hint.toNat + 2 ^ 18 * bit t.restartable + 2 ^ 19 * bit t.nr
    + 2 ^ 24 * t.roles.toNat
def execTself (d : Fin 64) (w : Fin 3) (s : State) : Out :=
  s.inTask fun s =>
    let t := s.bank.task
    s.put 1 d (match w with
      | 0 => (t.map (·.id)).getD 0
      | 1 => (t.map (·.mts)).getD 0
      | _ => BitVec.ofNat 64 ((t.map (·.status)).getD 0))
/-- A step loop register of the task's step: the bank of that step (R369, R371, R372). -/
def State.loopReg (s : State) (n : Fin 16) : W64 :=
  let step := (s.bank.task.map fun t => t.step.toNat).getD 0
  match s.ctx.banks[step % 2]'(Nat.mod_lt _ (by decide)) with
  | some b => BitVec.ofNat 64 (fld b.row (4 * n.val) 4)
  | none => 0
def execLdlr (d : Fin 64) (n : Fin 16) (s : State) : Out := s.put 1 d (s.loopReg n)

/-! ## Node descriptors (R361) -/
abbrev Node := BitVec 512
/-- The graph header of the running launch (R360), all zero when none runs. -/
def Ctx.header (c : Ctx) : BitVec 512 := (c.launch.map (·.header)).getD 0
def Node.mode (d : Node) (j : Nat) : Nat := fld d (16 + 4 * j) 4 / 2 ^ 8 % 4
def Node.tensor (d : Node) (j : Nat) : Nat := fld d (16 + 4 * j) 1
def Node.row (d : Node) (j : Nat) : Nat := fld d (16 + 4 * j) 4 / 2 ^ 10 % 2 ^ 11
def Node.col (d : Node) (j : Nat) : Nat := fld d (16 + 4 * j) 4 / 2 ^ 21
def Node.flags (d : Node) : Nat := fld d 49 1
def Node.template (d : Node) : Bool := d.flags / 16 % 2 == 1
def Node.reuse (d : Node) : Nat := fld d 51 1
/-- The descriptor of a node of the running launch. -/
def nodeOf (s : State) (n : Nat) : Option Node :=
  let h := s.ctx.header
  if fld h 32 2 ≤ n then none
  else
    match deviceKey s (fld h 0 8 + 64 * n) with
    | some k => if s.pois k || s.pois (k + 32) then none else some (BitVec.ofNat 512 (s.rdN k 64))
    | none => none

/-! ## TSPAWN and TABORT (R393, R394) -/
/-- TSPAWN. R393 orders its PARAM cases nowhere: the model tests a's upper bits, b's upper bits, whether node a is a template, and then
the offsets and the count, so a nonzero b[63:32] gives the info b also where the template check would give a (DESIGN CHOICE, log 34). -/
def State.tspawn (s : State) (a b : W64) : Res State :=
  if a.toNat / 2 ^ 12 ≠ 0 then .error (.trap causeParam a.toNat)
  else if b.toNat / 2 ^ 32 ≠ 0 then .error (.trap causeParam b.toNat)
  else match (nodeOf s a.toNat).filter (·.template) with
    | none => .error (.trap causeParam a.toNat)
    | some d =>
      let dr := Num.sint 16 (b.toNat % 2 ^ 16)
      let dc := Num.sint 16 (b.toNat / 2 ^ 16)
      let out := fun (x : Nat) (by_ : Int) => decide ((x : Int) + by_ < 0) || decide (2047 < (x : Int) + by_)
      let off := (List.range 8).any fun j => d.mode j != 0 && (out (d.row j) dr || out (d.col j) dc)
      if 64 ≤ (s.bank.task.map fun t => t.spawn.length).getD 0 ∨ off then .error (.trap causeParam b.toNat)
      else .ok (s.modTask fun t => { t with spawn := t.spawn ++ [(a.setWidth 12, b.setWidth 16, (b >>> 16).setWidth 16)] })
def execTspawn (a b : Fin 64) (s : State) : Out := s.inTask fun s => s.seq 1 (s.tspawn (s.rs a) (s.rs b))
def execTabort (a : Fin 64) (s : State) : Out :=
  s.inTask fun s =>
    let code := s.rs a
    if code.toNat / 2 ^ 16 ≠ 0 then .next (s.takeTrap causeParam code.toNat)
    else .next (s.endTask (.abort 0 0 false (code.setWidth 16)))

/-! ## REUSE and TMARK (R395, R396) -/
/-- What REUSE.QUERY reads. -/
def Verdict.word (v : Verdict) : W64 :=
  BitVec.ofNat 64 (v.m.toNat + 2 ^ 32 * v.astep.toNat + 2 ^ 43 * bit v.valid + 2 ^ 44 * v.reason.toNat)
def execReuseQuery (d : Fin 64) (s : State) : Out := s.put 1 d (((s.bank.task.map (·.verdict)).getD Verdict.none).word)
/-- DROP and ANCHOR have no effect for a node with no clause. -/
def State.reuse (s : State) (drop : Bool) : State :=
  s.modTask fun t => if Node.reuse t.desc = 0 then t else { t with drop := drop }
def execReuseAnchor (s : State) : Out := s.inTask fun s => .next ((s.reuse false).retire 1)
def execReuseDrop (s : State) : Out := s.inTask fun s => .next ((s.reuse true).retire 1)
/-- tmarks.BASE. -/
def Ctx.markBase (c : Ctx) : Nat := c.tmarks.toNat / 2 ^ 12 % 2 ^ 44 * 2 ^ 12
def State.tmark (s : State) (a b : W64) : Res State :=
  if a.toNat / 2 ^ 32 ≠ 0 then .error (.trap causeParam a.toNat)
  else if b.toNat / 2 ^ 8 ≠ 0 then .error (.trap causeParam b.toNat)
  else
    let commons := match regionAt s .load s.ctx.markBase with
      | .ok (some r) => r.kind == 2
      | _ => false
    if commons then .ok (s.modTask fun t => { t with marks := t.marks ++ [(b.setWidth 8, a.setWidth 32)] })
    else .error (.trap causeParam 0x100)
def execTmark (a b : Fin 64) (s : State) : Out := s.inTask fun s => s.seq 1 (s.tmark (s.rs a) (s.rs b))

end Sys2Proof.Machine
end

