-- ==== Sys2Proof/Machine/Traps.lean ====
section
/-! DEFINITION. The meanings of TRAP, BREAK, ERET and the SYS instructions (R448, R454 to R461), and the events of a trap
and of a task that ends (R379, R404, R446, R451). -/
namespace Sys2Proof.Machine

/-! ## TRAP and BREAK (R454, R461) -/
def execTrap (code : Fin 16) (a : Fin 64) (s : State) : Out := .next (s.takeSoft (0x10 + code.val) (s.rs a) false)
def execBrk (a : Fin 64) (s : State) : Out := .next (s.takeSoft 0x1F (s.rs a) true)

/-! ## ERET (R448, R449, R452) -/
/-- GrantBudget. -/
def grantBudget (budget : BitVec 32) (units : BitVec 24) : BitVec 32 :=
  if units = 0 then 0 else BitVec.ofNat 32 (Nat.min (2 ^ 32 - 1) (budget.toNat + 64 * units.toNat))
/-- The scalar registers that 512 bytes hold; s0 stays zero. -/
def loadRegs (d : List Byte) (t : Strand) : Strand :=
  { t with s := Vector.ofFn fun i => if i = 0 then 0 else BitVec.ofNat 64 (leNat ((d.drop (8 * i.val)).take 8)) }
/-- The other strands of the core see an ERET (R459). -/
def State.wakeOthers (s : State) : State :=
  s.modBank fun b =>
    { b with strands := b.strands.mapFinIdx fun i t _ => if i = s.curS.val then t else { t with latch := t.latch ||| 32 } }
/-- A notice that was held enters once no handler runs; one that may no longer be delivered is discarded (R451, R453). -/
def State.nextNotice (s : State) : State :=
  let pend := s.bank.evpend &&& s.deliverable
  match [0, 1, 2].find? fun i => pend.getLsbD i with
  | none => s.modBank fun b => { b with evpend := 0 }
  | some i =>
    (s.modBank fun b => { b with evpend := pend &&& ~~~(BitVec.ofNat 3 (2 ^ i)) }).modTrap fun r =>
      { r with entry := some ⟨BitVec.ofNat 8 (0x20 + i), s.bank.evinfo.toList.getD i 0, 0, s.bank.strands[0].pc, false⟩ }
/-- RESUME: the frame's registers, the granted budget, strand 0 as it was, and every stopped strand again; then a held
trap, or else a held notice. -/
def State.resume (s : State) : State :=
  let r := s.bank.trap
  let frame := s.slot + Config.frameOff
  let n := fin 4 (r.tcause.toNat / 2 ^ 8)
  let a := s.rdVirt frame 512
  let b := s.rdVirt (frame + 512) 512
  let s := (s.modStrandN 0 (loadRegs a)).modStrandN n (loadRegs b)
  let s := if r.tcause.toNat % 2 ^ 8 = causeOverrun then s.modTask fun t => { t with budget := grantBudget t.budget r.tgrant } else s
  let s := s.modStrandN 0 fun t => { t with smode := false, pc := r.pc0, run := r.run0, ended := r.ended0, wait := .none }
  let s := s.modStrands fun t => { t with stopped := false }
  let s := s.modTrap fun r => { r with handler := false, held := none }
  match r.held with
  | some h => s.takeHeld { h with pc := if h.strand = 0 then s.bank.strands[0].pc else h.pc }
  | none => s.nextNotice
/-- The actions of R448. -/
inductive EretAction where | rerun | abort | resume
  deriving DecidableEq, Repr
def State.eret (s : State) (action : EretAction) : Out :=
  if !s.strand.smode then .next (s.takeTrap causeProtection 0)
  else
    let s := s.wakeOthers
    let c := s.bank.trap.tcause.setWidth 8
    let retry := (s.bank.task.map (·.retry)).getD 0
    let may := s.bank.task.any fun t => t.restartable
    let forced := match action with
      | .resume => isFaultCause c.toNat
      | .rerun => !may || decide (s.ctx.tctl.toNat ≤ retry)
      | .abort => false
    if forced then
      .next ((s.modTrap fun r => { r with tcause := r.tcause ||| 0x200000 }).endTask (.abort c 0 true 0))
    else match action with
      | .resume => .next s.resume
      | .rerun => .next (s.endTask .rerun)
      | .abort => .next (s.endTask (.abort c 0 false 0))
def execEretRerun (s : State) : Out := s.eret .rerun
def execEretAbort (s : State) : Out := s.eret .abort
def execEretResume (s : State) : Out := s.eret .resume

/-! ## SYS (R457 to R461) -/
/-- A strand in the state of R107, which leaves its arrival record and its selectors as they are (R344). -/
def Strand.fresh (t : Strand) : Strand := { Strand.clear with arr := t.arr, barsel := t.barsel, ringsel := t.ringsel }
/-- Whether a trap has stopped the task while a handler runs: no other strand issues until it ends (R444, R452). -/
def Bank.held (b : Bank) : Bool := b.trap.handler && (b.trap.tcause.getLsbD 10 || b.trap.held.isSome)
/-- A strand that starts at an address and in a role (R107). -/
def Strand.start (t : Strand) (pc : W64) (role : Role) (named : Bool) : Strand :=
  { t.fresh with pc := pc, role := role, run := true, named := named }
def roleOf (n : Nat) : Role := if n = 0 then .l else if n = 1 then .c else if n = 2 then .e else .none
/-- STRSTART: a strand that starts while its task is stopped issues when the handler ends (R444). -/
def execStrstart (a b : Fin 64) (s : State) : Out :=
  let v := (s.rs a).toNat
  let n := fin 4 v
  let x := s.bank.strands[n]
  let started := s.bank.task.any fun t => t.started.getLsbD n.val
  if v / 2 ^ 4 ≠ 0 ∨ v / 4 % 4 = 3 ∨ x.named ∨ started then .next (s.takeTrap causeParam v)
  else if (s.rs b).toNat % 4 ≠ 0 then .next (s.takeTrap causeMisaligned (s.rs b).toNat)
  else
    let s := s.modTask fun t => { t with started := t.started ||| BitVec.ofNat 4 (2 ^ n.val) }
    let pc := s.rs b
    let role := roleOf (v / 4 % 4)
    if x.smode then
      -- a handler starts the strand that it runs on: it starts when the handler leaves it
      let s := s.modTrap fun r => { r with pc0 := pc, run0 := true, ended0 := false }
      .next ((s.modStrandN n fun t => { t with role := role }).retire 1)
    else .next ((s.modStrandN n fun t => { t.start pc role false with stopped := s.bank.held }).retire 1)
/-- STRSTOP; a strand that a trap has stopped counts as running (R458). A QFLUSH in which it waits is abandoned (R305). -/
def execStrstop (a : Fin 64) (s : State) : Out :=
  let v := (s.rs a).toNat
  let n := fin 4 v
  let x := s.bank.strands[n]
  let started := x.named || s.bank.task.any fun t => t.started.getLsbD n.val
  if v / 2 ^ 2 ≠ 0 ∨ x.ended ∨ !started ∨ x.smode then .next (s.takeTrap causeParam v)
  else .next (((s.retire 1).endStrand n).modBank Bank.stopFlush).wakeOthers
def execWfe (d : Fin 64) (s : State) : Out :=
  if s.strand.latch = 0 then s.stop (.wait .wfe)
  else
    let v := s.strand.latch.setWidth 64
    (s.modStrand fun t => { t with latch := 0 }).put 1 d v
/-- TLBINV: with a = s0 every entry of the context, else those of the page that holds a. The instruction cache holds lines
by virtual address, so the context's lines go too: a later fetch uses the page tables as they stand (R460). -/
def execTlbinv (a : Fin 64) (s : State) : Out :=
  if !s.strand.smode then .next (s.takeTrap causeProtection 0)
  else
    let va := (s.rs a).toNat
    let gone := fun (e : TlbEnt) => e.ctx == s.bank.ctx && (a == 0 || (decide (e.vbase ≤ va) && decide (va < e.vbase + e.size)))
    .next ((s.modCore fun c =>
      { c with tlb := c.tlb.filter fun e => !gone e, pbc := [], icache := c.icache.filter fun l => l.ctx != s.bank.ctx }).retire 1)
def execCtxid (d : Fin 64) (s : State) : Out :=
  s.put 1 d (BitVec.ofNat 64 (s.bank.ctx.toNat + 2 ^ 12 * (s.core.part.map (·.val)).getD 0))

/-! ## Events of a trap -/
/-- HANDLER_ENTRY: strand 0 enters the handler for the notice that waits (R446, R451), while the core's clock runs (R32, R482). One
that may no longer be delivered is discarded (R451, R453). -/
def State.handlerEntry (s : State) : State :=
  match s.bank.trap.entry with
  | some h =>
    if s.bank.trap.handler || s.clockStopped then s
    else if s.deliverable.getLsbD (h.cause.toNat - 0x20) then s.enterHandler { h with pc := s.bank.strands[0].pc }
    else s.modTrap fun r => { r with entry := none }
  | none => s
def execHandlerEntry (c : Fin 256) (s : State) : Out := .next (s.on c fun s => s.handlerEntry)
/-- NOTICE_DELIVERY: an enabled notice that is pending reaches strand 0 (R451). -/
def State.deliverNotice (s : State) : State :=
  if s.bank.trap.handler || s.clockStopped then s
  else if s.bank.trap.entry.isSome then s.handlerEntry
  else s.nextNotice.handlerEntry
def execNoticeDelivery (c : Fin 256) (s : State) : Out := .next (s.on c fun s => s.deliverNotice)
/-- OVERRUN: USED has passed BUDGET; the task stops, and tpc is that of the lowest strand that runs (R404, R445). While a
handler runs it is held (R452); it is not raised again while it is served, nor while the core's clock stands (R32, R482). -/
def State.overrun (s : State) : State :=
  match s.bank.task with
  | none => s
  | some t =>
    let r := s.bank.trap
    let mine := r.handler && r.tcause.toNat % 2 ^ 8 == causeOverrun
    if s.clockStopped ∨ t.budget = 0 ∨ t.usedCyc ≤ t.budget ∨ t.ending.isSome ∨ mine ∨ r.held.isSome then s
    else
      let n := ([(0 : Fin 4), 1, 2, 3].find? fun n => (s.bank.strands[n]).run && !(s.bank.strands[n]).smode).getD 0
      let h : Held := ⟨BitVec.ofNat 8 causeOverrun, t.usedCyc.setWidth 64, n, s.bank.strands[n].pc, false⟩
      if r.handler then (s.stopStrands true).modTrap fun r => { r with held := some h } else s.takeHeld h
def execOverrun (c : Fin 256) (s : State) : Out := .next (s.on c fun s => s.overrun)

end Sys2Proof.Machine
end

