-- ==== Sys2Proof/Machine/Graph.lean ====
section
/-! DEFINITION. Task graphs as the device reads them (R358 to R365, R371): launch records, headers, descriptors, edges,
clauses and schedule rows; the byte sets and regions of tile operands (R362); the checks of a launch (R365). -/
namespace Sys2Proof.Machine

/-! ## The device's view of a context -/
/-- The partition of a context id (R508). -/
def partOfCtx (id : BitVec 12) : Fin 16 := fin 16 (id.toNat / 256)
/-- The state as an agent of a context's partition sees it, for reading and translation only. -/
def State.lens (s : State) (id : BitVec 12) : State :=
  s.modCore fun c => { c with part := some (partOfCtx id), bank := { c.bank with ctx := id, task := none }, dirty := [], tlb := [] }
/-- A field of at most 64 bytes within one aligned block of 64; none when it is unmapped or poisoned. -/
def devWord (s : State) (va n : Nat) : Option Nat :=
  match deviceKey s va with
  | some k => if s.pois k || s.pois (k + n - 1) then none else some (s.rdN k n)
  | none => none

/-! ## Records, rows and clauses -/
abbrev Rec := BitVec 512
def Rec.graph (r : Rec) : Nat := fld r 0 8
def Rec.sched (r : Rec) : Nat := fld r 8 8
def Rec.mts (r : Rec) : Nat := fld r 16 8
def Rec.steps (r : Rec) : Nat := fld r 24 2
def Rec.window (r : Rec) : Nat := fld r 26 1
def Rec.ctx (r : Rec) : Nat := fld r 28 2
def Rec.area (r : Rec) : Nat := fld r 32 8
abbrev Header := BitVec 512
def Header.nodes (h : Header) : Nat := fld h 0 8
def Header.edges (h : Header) : Nat := fld h 8 8
def Header.code (h : Header) : Nat := fld h 16 8
def Header.clauses (h : Header) : Nat := fld h 24 8
def Header.ncount (h : Header) : Nat := fld h 32 2
def Header.ecount (h : Header) : Nat := fld h 34 2
def Header.ccount (h : Header) : Nat := fld h 36 1
/-- A schedule row (R371). -/
abbrev Row := BitVec 640
def Row.ls (r : Row) (j : Nat) : Nat := fld r (4 * j) 4
def Row.moff (r : Row) : Nat := fld r 64 8
def Row.force (r : Row) : Bool := fld r 72 1 % 2 == 1
def Row.checkpoint (r : Row) : Bool := fld r 72 1 / 2 % 2 == 1
def Row.publish (r : Row) : Bool := fld r 72 1 / 4 % 2 == 1
def Row.clean (r : Row) : Bool := fld r 72 1 / 8 == 0 && fld r 73 7 == 0
def rowOf (s : State) (r : Rec) (k : Nat) : Option Row :=
  ((List.range 5).foldr (fun i rest =>
    match devWord s (r.sched + 80 * k + 16 * i) 16, rest with
    | some x, some y => some (x + 2 ^ 128 * y)
    | _, _ => none) (some 0)).map fun v => BitVec.ofNat 640 v
/-- A reuse clause (R364). -/
abbrev Clause := BitVec 256
def Clause.flags (c : Clause) : Nat := fld c 0 1
def Clause.en (c : Clause) : Bool := c.flags % 2 == 1
def Clause.mad (c : Clause) : Bool := c.flags / 2 % 2 == 1
def Clause.log (c : Clause) : Bool := c.flags / 4 % 2 == 1
def Clause.probe (c : Clause) : Nat := fld c 1 1
def Clause.result (c : Clause) : Nat := fld c 2 1
def Clause.lsreg (c : Clause) : Nat := fld c 3 1
def Clause.maxAge (c : Clause) : Nat := fld c 4 2
def Clause.fper (c : Clause) : Nat := fld c 6 2
def Clause.base (c : Clause) : Nat := fld c 8 4
def Clause.abase (c : Clause) : Nat := fld c 12 8
def Clause.astr (c : Clause) : Nat := fld c 20 4
def clauseOf (s : State) (h : Header) (j : Nat) : Option Clause :=
  (devWord s (h.clauses + 32 * (j - 1)) 32).map (BitVec.ofNat 256 ·)
/-- Edge-table entry i: the predecessor and STEP. -/
def edgeOf (s : State) (h : Header) (i : Nat) : Option (Nat × Bool) :=
  (devWord s (h.edges + 2 * i) 2).map fun e => (e % 2 ^ 12, e / 2 ^ 12 % 2 == 1)

/-! ## Descriptors (R361) -/
def Node.entry (d : Node) (j : Nat) : Nat := fld d (4 * j) 4
def Node.named (d : Node) (j : Nat) : Bool := d.entry j / 2 ^ 31 == 1
def Node.prio (d : Node) : Int := fldS d 48 1
def Node.gear (d : Node) : Nat := d.flags % 4
def Node.gapply (d : Node) : Bool := d.flags / 4 % 2 == 1
def Node.nr (d : Node) : Bool := d.flags / 8 % 2 == 1
def Node.afv (d : Node) : Bool := d.flags / 32 % 2 == 1
def Node.aff (d : Node) : Nat := fld d 50 1
def Node.predIdx (d : Node) : Nat := fld d 52 2
def Node.predCnt (d : Node) : Nat := fld d 54 1
def Node.tr (d : Node) : Nat := fld d 55 1 % 16
def Node.tc (d : Node) : Nat := fld d 55 1 / 16
def Node.budget (d : Node) : Nat := fld d 56 3
/-- (LAYER, BLOCK, LANE). -/
def Node.key (d : Node) : BitVec 36 := BitVec.ofNat 36 (fld d 60 2 % 2 ^ 12 * 2 ^ 24 + fld d 62 2 * 2 ^ 8 + fld d 59 1)
/-- Node n of a graph; none when it cannot be read. -/
def graphNode (s : State) (h : Header) (n : Nat) : Option Node := (devWord s (h.nodes + 64 * n) 64).map (BitVec.ofNat 512 ·)
/-- The predecessors of a node (R363). -/
def predsOf (s : State) (h : Header) (d : Node) : List (Option (Nat × Bool)) :=
  (List.range (d.predCnt % 32)).map fun i => edgeOf s h (d.predIdx + i)

/-! ## Tile operands (R362) -/
/-- The tensor of an operand. -/
def opTensor (s : State) (d : Node) (j : Nat) : Option Desc := tableEntry s (d.tensor j)
/-- The byte set of operand j of an instance, as ranges of first byte and length; none without its descriptor. -/
def opRanges (s : State) (d : Node) (dr dc : Int) (j : Nat) : Option (List (Nat × Nat)) :=
  (opTensor s d j).map fun t =>
    let r0 := ((d.row j : Int) + dr).toNat * 2 ^ d.tr
    let c0 := ((d.col j : Int) + dc).toNat * 2 ^ d.tc
    let rows := Nat.min (2 ^ d.tr) (t.rows - r0)
    let c1 := Nat.min t.cols (c0 + 2 ^ d.tc)
    if c1 ≤ c0 then []
    else (List.range rows).map fun i =>
      let a := t.base + (r0 + i) * t.rstr
      if planar t.elem then (a, t.rstr) else (a + c0 * t.elem.bits / 8, c1 * t.elem.bits / 8 - c0 * t.elem.bits / 8)
/-- The regions of the context. -/
def allRegions (s : State) : List Region := regionsFrom s s.ctx (rtabCount s.ctx) 0
def Region.meetsRange (r : Region) (x : Nat × Nat) : Bool := decide (0 < x.2) && r.meetsBox ⟨0, x.1, x.1 + x.2 - 1⟩
/-- Whether every granule of a range lies in a valid entry. -/
def coveredBy (l : List Region) (x : Nat × Nat) : Bool :=
  let g := granuleOf x.1
  (List.range ((x.1 + x.2 - 1) / g - x.1 / g + 1)).all fun i => l.any fun r => r.covers (Nat.max x.1 ((x.1 / g + i) * g))
/-- The operands with a mode. -/
def Node.ops (d : Node) : List Nat := (List.range 8).filter fun j => d.mode j != 0
/-- Whether a task or an instance names a region in a mode of a set. -/
def namesRegion (s : State) (d : Node) (dr dc : Int) (mode : Nat → Bool) (r : Region) : Bool :=
  d.ops.any fun j => mode (d.mode j) && ((opRanges s d dr dc j).getD []).any r.meetsRange
def writesMode (m : Nat) : Bool := decide (2 ≤ m)
def Task.names (t : Task) (s : State) (mode : Nat → Bool) (r : Region) : Bool := namesRegion s t.desc t.rowOff t.colOff mode r

/-! ## The checks of a launch (R365) -/
/-- An address of the HBM kinds, aligned. -/
def hbmAligned (a n : Nat) : Bool := isHbmKind a && decide (a < 2 ^ 56) && a % n == 0
def Rec.ok (r : Rec) : Bool :=
  decide (1 ≤ r.steps) && decide (r.steps ≤ 1024) && fld r 27 1 == 0 && fld r 28 2 / 2 ^ 12 == 0 && fld r 30 2 == 0 && fld r 48 16 == 0
    && hbmAligned r.graph 64 && hbmAligned r.sched 16 && r.area % 32 == 0 && kindOf r.area == 12 && decide (r.area < 2 ^ 56)
def Header.ok (h : Header) : Bool :=
  h.nodes % 64 == 0 && h.edges % 2 == 0 && hbmAligned h.code 4 && h.clauses % 32 == 0 && decide (1 ≤ h.ncount) && decide (h.ncount ≤ 4096)
    && fld h 37 27 == 0
def Node.ok (d : Node) (ccount : Nat) : Bool :=
  ((List.range 4).all fun j => d.entry j / 2 ^ 30 % 2 == 0 && decide (d.entry j / 2 ^ 28 % 4 ≤ 2)) && ((List.range 4).any d.named)
    && d.flags / 64 == 0 && decide (d.gear ≤ 2) && decide (d.predCnt ≤ 16) && fld d 60 2 / 2 ^ 12 == 0 && decide (d.reuse ≤ ccount)
/-- One round of removing the nodes whose STEP = 0 predecessors are all removed. -/
def kahn (preds : List (List Nat)) (gone : List Bool) : List Bool :=
  (preds.zip gone).map fun x => x.2 || x.1.all fun n => gone.getD n true
def kahnGo (preds : List (List Nat)) : Nat → List Bool → List Bool
  | 0, gone => gone
  | n + 1, gone => kahnGo preds n (kahn preds gone)
/-- A graph as it was read: its nodes with their edges, and what could not be read is none. -/
structure Graph where
  nodes : List (Option Node)
  edges : List (List (Option (Nat × Bool)))
  table : List (Option (Nat × Bool))
  deriving DecidableEq, Repr
def graphOf (s : State) (h : Header) : Graph :=
  let nodes := (List.range h.ncount).map (graphNode s h)
  ⟨nodes, nodes.map fun d => (d.map (predsOf s h)).getD [], (List.range h.ecount).map (edgeOf s h)⟩
/-- Check 0x04. -/
def Graph.edgesOk (g : Graph) : Bool :=
  let n := g.nodes.length
  let template := fun (i : Nat) => ((g.nodes.getD i none).map Node.template).getD false
  let all := (g.edges.flatten ++ g.table).filterMap id
  let preds := g.edges.map fun l => (l.filterMap id).filterMap fun e => if e.2 then none else some e.1
  (all.all fun e => decide (e.1 < n) && !template e.1)
    && (g.nodes.all fun d => !((d.map fun d => d.template && d.predCnt != 0).getD false))
    && (kahnGo preds n (g.nodes.map fun _ => false)).all id
/-- Check 0x05 of one node and its clause. -/
def clauseOk (d : Node) (c : Clause) : Bool :=
  let outs := d.ops.filter fun j => d.mode j == 2
  decide (c.flags < 8) && decide (c.probe < 8) && decide (c.result < 8) && decide (c.lsreg < 16) && decide (1 ≤ c.maxAge)
    && decide (c.maxAge ≤ 1023) && hbmAligned c.abase 64 && c.astr % 64 == 0 && fld c 24 8 == 0 && d.mode c.probe == 1 && outs == [c.result]
    && (d.ops.all fun j => d.mode j != 3) && !d.template && decide (4 * 2 ^ (d.tr + d.tc) ≤ c.astr)
/-- The first failing check of a launch; none when every check passes. -/
def launchCheck (s : State) (r : Rec) : Option Nat :=
  let rows := (List.range (Nat.min 1024 r.steps)).map (rowOf s r)
  let head : Option Header := (devWord s r.graph 64).map fun v => BitVec.ofNat 512 v
  if !r.ok || !((rows.take 2).all fun x => (x.map Row.clean).getD true) then some 0x01
  else match head with
    | none => some 0x09
    | some h =>
      if !h.ok then some 0x02
      else
        let g := graphOf s h
        let nodes := g.nodes.filterMap id
        let clauses := nodes.map fun d => (d, if d.reuse = 0 then none else clauseOf s h d.reuse)
        let resultOf := fun (x : Node × Option Clause) => x.2.map fun c => (x.1.tensor c.result, x.1.row c.result, x.1.col c.result, fld x.1 55 1)
        let shared := clauses.zipIdx.any fun x =>
          match resultOf x.1 with
          | none => false
          | some t => clauses.zipIdx.any fun y =>
              y.2 != x.2 && y.1.1.ops.any fun j =>
                writesMode (y.1.1.mode j) && (y.1.1.tensor j, y.1.1.row j, y.1.1.col j, fld y.1.1 55 1) == t
        let vaultInout := nodes.any fun d => !d.nr && d.ops.any fun j =>
          d.mode j == 3 && ((opTensor s d j).map fun t => kindOf t.base == 15).getD false
        let unread := (g.nodes.any Option.isNone) || (g.edges.flatten.any Option.isNone) || (g.table.any Option.isNone)
          || (clauses.any fun x => x.1.reuse != 0 && x.2.isNone) || (rows.any Option.isNone)
          || (nodes.any fun d => d.ops.any fun j => (opTensor s d j).isNone)
        if !(nodes.all fun d => d.ok h.ccount) then some 0x03
        else if !g.edgesOk then some 0x04
        else if !(clauses.all fun x => (x.2.map (clauseOk x.1)).getD true) then some 0x05
        else if shared then some 0x06
        else if vaultInout then some 0x07
        else if s.ctx.chent.toNat / 2 ^ 16 % 2 ^ 15 < (nodes.filter fun d => d.reuse != 0).length then some 0x08
        else if unread then some 0x09
        else none

end Sys2Proof.Machine
end

