-- ==== Sys2Proof/Machine/Launch.lean ====
section
/-! DEFINITION. Launches and steps (R359, R366 to R370): SUBMIT and LAUNCH_START, eligibility, step records and the end of
a launch; and what every agent of a partition shares: regions brought to a state (R172, R375) and tasks that fail. -/
namespace Sys2Proof.Machine

/-! ## The time-slice list (R462) -/
def State.slice (s : State) (p : Fin 16) (i : Nat) : Nat := s.rdN (partKey p.val (0x10100 + 8 * i)) 8
def sliceOn (e : Nat) : Bool := e / 2 ^ 63 == 1
def sliceCtx (e : Nat) : BitVec 12 := BitVec.ofNat 12 e
def slicePrio (e : Nat) : Nat := e / 2 ^ 48 % 2 ^ 8
def sliceLimit (e : Nat) : Nat := e / 2 ^ 32 % 2 ^ 16
/-- The slice length in ns. -/
def sliceNs (e : Nat) : Nat := Nat.max 1 (e / 2 ^ 16 % 2 ^ 16) * 1000
/-- The first valid entry that names a context. -/
def State.entryFor (s : State) (id : BitVec 12) : Option Nat :=
  ((List.range 32).map (s.slice (partOfCtx id))).find? fun e => sliceOn e && sliceCtx e == id

/-! ## Writes to a host window by the device (R366, R177) -/
def windowTakes (s : State) (p : Fin 16) (addr len : Nat) : Bool :=
  let w := windowOf s p (addr / 2 ^ 40 % 256)
  w.flags % 2 == 1 && w.flags / 4 % 2 == 1 && decide (addr % 2 ^ 40 + len ≤ w.size)
def State.toWindow (s : State) (p : Fin 16) (addr : Nat) (d : List Byte) : State :=
  if windowTakes s p addr d.length then s.wrs (hostKey ((windowOf s p (addr / 2 ^ 40 % 256)).haddr + addr % 2 ^ 40)) d else s
/-- PUBL as it is performed: the window's version counter advances and is written (R177). -/
def State.publish (s : State) (p : Fin 16) (w : BitVec 8) : State :=
  let e := windowOf s p w.toNat
  if e.flags % 2 = 0 then s
  else
    let v := (((s.part p).versions.find? fun x => x.1 == w).map (·.2)).getD 0 + 1
    (s.wrs (hostKey e.vaddr) (toLe 8 v.toNat)).modPart p fun x => { x with versions := (w, v) :: x.versions.filter fun y => y.1 != w }
/-- A step record, its vector when it is written, and its publication (R366, R505). -/
def State.stepRecord (s : State) (id : BitVec 12) (r : Rec) (slot step flags status node mts : Nat) : State :=
  let p := partOfCtx id
  let d := toLe 8 (fld r 40 8) ++ toLe 2 step ++ [BitVec.ofNat 8 flags, BitVec.ofNat 8 status] ++ toLe 2 node ++ [0, 0] ++ toLe 8 mts
    ++ toLe 8 s.dclk.toNat
  let s := if windowTakes s p (r.area + 32 * slot) 32 then (s.toWindow p (r.area + 32 * slot) d).fire (some p) 1 else s
  if flags / 2 % 2 = 1 ∨ flags / 4 % 2 = 1 then s.publish p (BitVec.ofNat 8 r.window) else s
/-- The media timestamp of a step: that of its row (R371). -/
def mtsOf (r : Rec) (row : Option Row) : Nat := (r.mts + (row.map Row.moff).getD 0) % 2 ^ 64
/-- The end record (R366): it carries the last step, and its timestamp when that row can be read. -/
def State.endLaunch (s : State) (id : BitVec 12) (r : Rec) (failed : Option (Nat × Nat)) : State :=
  let mts := mtsOf r (rowOf (s.lens id) r (r.steps - 1))
  let s := match failed with
    | none => s.stepRecord id r r.steps (r.steps - 1) 4 0 0 mts
    | some (status, node) => s.stepRecord id r r.steps (r.steps - 1) 12 status node mts
  s.modCtxOf id fun c => { c with launch := none, banks := #v[none, none] }

/-! ## Instances (R367 to R370) -/
def Inst.at (i : Inst) (n k j : Nat) : Bool := i.node.toNat == n && i.step.toNat == k && i.inst == j
def Inst.same (a b : Inst) : Bool := a.node == b.node && a.step == b.step && a.inst == b.inst
/-- Whether a scheduled node is complete at a step. -/
def Launch.complete (l : Launch) (n k : Nat) : Bool :=
  decide (k < l.stepsDone) || (l.done.any (fun d => d.1.toNat == n && d.2.1.toNat == k && d.2.2 == 0) && !l.open_.any (·.at n k 0))
/-- The row of a step that a bank holds. -/
def Ctx.row (c : Ctx) (k : Nat) : Option Row :=
  match c.banks[k % 2]'(Nat.mod_lt _ (by decide)) with
  | some b => if b.step = k then some b.row else none
  | none => none
/-- The scheduled instances that have become eligible (R368), in increasing step and node. -/
def newEligible (s : State) (c : Ctx) (l : Launch) (g : Graph) : List Inst :=
  if l.failed.isSome then []
  else [l.stepsDone, l.stepsDone + 1].flatMap fun k =>
    match c.row k with
    | none => []
    | some _ =>
      let held := decide (l.stepsDone < k) && ((c.row (k - 1)).map Row.checkpoint).getD false
      (List.range g.nodes.length).filterMap fun n =>
        let d := (g.nodes.getD n none).getD 0
        let known := l.elig.any (·.at n k 0) || l.live.any (·.at n k 0) || l.done.any fun x => x.1.toNat == n && x.2.1.toNat == k && x.2.2 == 0
        let before := k == 0 || l.complete n (k - 1)
        let preds := (predsOf s l.header d).all fun e =>
          match e with
          | some (m, true) => k == 0 || l.complete m (k - 1)
          | some (m, false) => l.complete m k
          | none => true
        if d.template || known || held || !before || !preds then none
        else some ⟨BitVec.ofNat 12 n, BitVec.ofNat 10 k, 0, 0, 0, none, 0, Verdict.none, false⟩
/-- Whether every instance of a step is complete. -/
def Launch.stepComplete (l : Launch) (g : Graph) (k : Nat) : Bool :=
  ((List.range g.nodes.length).all fun n => ((g.nodes.getD n none).map Node.template).getD false || l.complete n k)
    && !((l.elig ++ l.live ++ l.open_).any fun i => i.step.toNat == k)
def State.modLaunch (s : State) (id : BitVec 12) (f : Launch → Launch) : State :=
  s.modCtxOf id fun c => { c with launch := c.launch.map f }
/-- The launch fails: nothing more becomes eligible, and what waits is removed (R370). -/
def State.failLaunch (s : State) (id : BitVec 12) (status node : Nat) : State :=
  let p := partOfCtx id
  let waiting := ((s.part p).pool.filter fun e => e.ctx == id).map (·.inst)
  let s := s.modPart p fun x => { x with pool := x.pool.filter fun e => e.ctx != id }
  s.modLaunch id fun l =>
    { l with
      failed := some (l.failed.getD (BitVec.ofNat 8 status, BitVec.ofNat 12 node)), elig := []
      live := l.live.filter fun i => !waiting.any i.same }
/-- Row k is loaded into its bank (R369, R371). -/
def State.loadRow (s : State) (id : BitVec 12) (r : Rec) (k : Nat) : State :=
  match rowOf (s.lens id) r k with
  | none => s.failLaunch id 0x09 0
  | some row =>
    if !row.clean then s.failLaunch id 0x01 0
    else s.modCtxOf id fun c => { c with banks := c.banks.set (k % 2) (some ⟨k, row⟩) (Nat.mod_lt _ (by decide)) }
/-- A step completes: its record, its bank and the row two steps on (R366, R369). -/
def State.stepDone (s : State) (id : BitVec 12) (c : Ctx) (l : Launch) : State :=
  let r : Rec := l.rec_
  let k := l.stepsDone
  let row := c.row k
  let flags := bit ((row.map Row.checkpoint).getD false) + 2 * bit ((row.map Row.publish).getD false)
  let s := if flags = 0 then s else s.stepRecord id r k k flags 0 0 (mtsOf r row)
  let s := s.modCtxOf id fun c => { c with banks := c.banks.set (k % 2) none (Nat.mod_lt _ (by decide)) }
  let s := s.modLaunch id fun l => { l with stepsDone := k + 1, done := l.done.filter fun d => d.2.1.toNat != k }
  if k + 1 = r.steps then s.endLaunch id r (l.failed.map fun f => (f.1.toNat, f.2.toNat))
  else if k + 2 < r.steps then s.loadRow id r (k + 2)
  else s
/-- Instances become eligible, steps complete, and the launch ends when it has to (R368 to R370). A step completes in a launch that has
failed too, when the tasks that still ran were its last (R366, R369). -/
def State.progressGo (id : BitVec 12) : Nat → State → State
  | 0, s => s
  | n + 1, s =>
    match (s.ctxOf id).launch with
    | none => s
    | some l =>
      let v := s.lens id
      let g := graphOf v l.header
      let s := s.modLaunch id fun l => { l with elig := l.elig ++ newEligible v (s.ctxOf id) l g }
      match (s.ctxOf id).launch with
      | none => s
      | some l =>
        if l.stepComplete g l.stepsDone then State.progressGo id n (s.stepDone id (s.ctxOf id) l)
        else match l.failed with
          | some (status, node) => if l.live.isEmpty then s.endLaunch id l.rec_ (some (status.toNat, node.toNat)) else s
          | none => s
def State.progress (s : State) (id : BitVec 12) : State := s.progressGo id 1026
/-- The instances whose spawned instances are all complete are no longer open. -/
def closeGo : Nat → Launch → Launch
  | 0, l => l
  | n + 1, l =>
    let child := fun (o : Inst) => (l.elig ++ l.live ++ l.open_).any fun i => i.step == o.step && i.parent == some (o.node, o.inst)
    closeGo n { l with open_ := l.open_.filter child }
/-- An instance has committed or was skipped; its spawned instances become eligible (R368, R386). -/
def State.instDone (s : State) (id : BitVec 12) (i : Inst) (spawned : List Inst) : State :=
  let s := s.modLaunch id fun l =>
    let gone := fun (x : List Inst) => x.filter fun y => !y.same i
    let kids := if l.failed.isSome then [] else spawned
    let l := { l with
      elig := gone l.elig ++ kids, live := gone l.live, done := (i.node, i.step, i.inst) :: l.done
      open_ := if kids.isEmpty then l.open_ else i :: l.open_
      spawned := l.spawned + kids.length }
    closeGo (l.open_.length + 1) l
  s.progress id

/-! ## SUBMIT and LAUNCH_START (R359, R365) -/
/-- Whether a launch of a context runs. -/
def State.launching (s : State) (id : BitVec 12) : Bool := (s.ctxOf id).launch.isSome
/-- A submit (R359). A value with a nonzero bit in [63:10] breaks a must with no named consequence (R1): a free choice ignores it,
without event 0x40, or takes the slot of its [9:0] (DESIGN CHOICE, log 20). -/
def State.submit (s : State) (p : Fin 16) (v : W64) : State :=
  if v.toNat / 2 ^ 10 ≠ 0 ∧ Config.freeChoice (s.freeCtr * 2 ^ 64 + v.toNat) % 2 = 0 then s
  else
    let slot := v.toNat % 2 ^ 10
    let r : Rec := BitVec.ofNat 512 (s.rdN (partKey p.val (64 * slot)) 64)
    let id : BitVec 12 := BitVec.ofNat 12 r.ctx
    let waiting := (s.part p).waiting
    let waits := s.launching id || waiting.any fun (x : Rec) => x.ctx == r.ctx
    if waits ∧ 16 ≤ s.waitCount p then s.event (some p) 0x40 none r.ctx slot 0
    else if 2 ^ 12 ≤ r.ctx ∨ partOfCtx id ≠ p ∨ !(s.ctxs.any fun c => c.id == id) then s.event (some p) 0x40 none r.ctx slot 1
    else s.modPart p fun x => { x with waiting := x.waiting ++ [r] }
def execSubmit (p : Fin 16) (v : BitVec 64) (s : State) : Out := .next (s.hosted fun s => s.submit p v)
/-- The first waiting launch of a context starts: the checks, the Chaconne entries, the banks, and step 0. -/
def State.startLaunch (s : State) (id : BitVec 12) : State :=
  let p := partOfCtx id
  match (s.part p).waiting.find? fun (r : Rec) => r.ctx == id.toNat with
  | none => s
  | some r =>
    if s.launching id ∨ !(s.ctxs.any fun c => c.id == id) then s
    else
      let s := s.modPart p fun x => { x with waiting := x.waiting.erase r }
      let v := s.lens id
      let s := s.modCtxOf id fun c => { c with launches := c.launches + 1, chac := [] }
      match launchCheck v r with
      | some code => s.endLaunch id r (some (code, 0))
      | none =>
        let h : Header := BitVec.ofNat 512 ((devWord v (Rec.graph r) 64).getD 0)
        let first := v.ctx.chent.toNat % 2 ^ 14
        let named := (graphOf v h).nodes.filterMap fun d => d.filter fun d => Node.reuse d != 0
        let s := s.modCtxOf id fun c =>
          { c with
            chac := named.zipIdx.map fun x => ⟨first + x.2, false, Node.key x.1, 0, false, []⟩
            launch := some ⟨r, h, [], [], [], [], 0, 0, none⟩ }
        let s := s.loadRow id r 0
        let s := if 1 < Rec.steps r then s.loadRow id r 1 else s
        s.progress id
def ctxId (p : Fin 16) (j : BitVec 8) : BitVec 12 := BitVec.ofNat 12 (256 * p.val + j.toNat)
def execLaunchStart (p : Fin 16) (j : BitVec 8) (s : State) : Out := .next (s.startLaunch (ctxId p j))

/-! ## Regions brought to a state (R172, R375, R382) -/
/-- The tasks of a context on a core, running, ended but not committed, preloaded or saved. -/
def Core.tasks (c : Core) (id : BitVec 12) : List Task :=
  let of := fun (b : Bank) => if b.loaded && b.ctx == id then b.tasks else []
  let shadow := match c.shadow with
    | .task t => if c.bank.ctx == id then [t] else []
    | .filled b first => of b ++ (if b.loaded && b.ctx == id then first.toList else [])
    | .unspilled b => of b
    | .free => []
  of c.bank ++ shadow
def State.tasksOf (s : State) (id : BitVec 12) : List (Fin 256 × Task) :=
  ((List.range 256).flatMap fun i => (s.cores[fin 256 i].tasks id).map fun t => (fin 256 i, t))
    ++ (s.ctxOf id).saved.flatMap fun e => e.2.tasks.map fun t => (e.1, t)
/-- The owner's core writes back, and its task's versioned writes in the region commit (R172). -/
def State.ownerOut (s : State) (id : BitVec 12) (r : Region) : State :=
  let c := fin 256 r.core
  if s.cores[c].bank.loaded && s.cores[c].bank.ctx == id then s.on c fun s => s.regionOut r
  else
    let b := s.bankOf id c
    let spans := r.spans (s.lens id) (s.ctxOf id)
    b.tasks.foldl (fun (s : State) t => s.commitCells (t.cellsIn spans))
      (s.setBankOf id c { b with task := b.task.map (·.without spans), tail := b.tail.map (·.without spans) })
/-- Whether the entry of a region can be written (R540); `v` is the view of its context. -/
def canTurn (v : State) (r : Region) : Bool := (regionKey v v.ctx .own r.base r.idx).toOption.isSome
/-- Whether an entry that the check of some ranges may need cannot be read: they do not all lie in the entries before it
(R540). -/
def unreadRegion (v : State) (ranges : List (Nat × Nat)) : Bool :=
  let l := allRegions v
  decide (l.length < rtabCount v.ctx) && !ranges.all (coveredBy l)
/-- Whether the owner of a region has stores to it that are not performed (R172, R191). -/
def State.storesMeet (s : State) (id : BitVec 12) (r : Region) : Bool := (s.lens id).unperformed (fin 256 r.core) r
/-- Whether the owner of a region has stores to it that are not performed, or engine commands that meet it (R172, R191). -/
def State.ownerBusy (s : State) (id : BitVec 12) (r : Region) : Bool :=
  s.storesMeet id r || (s.bankOf id (fin 256 r.core)).engineMeets r s.dev.fab.nextMsg
/-- The entry of a region takes a kind and an owner (R540). -/
def State.turnRegion (s : State) (id : BitVec 12) (r : Region) (kind core : Nat) : State :=
  let v := s.lens id
  match regionKey v v.ctx .own r.base r.idx with
  | .error _ => s
  | .ok k => (s.setRegion k kind core).regionChanged id r
/-- An OWNED region becomes SHARED-RO as RSHARE makes it. -/
def State.shareRegion (s : State) (id : BitVec 12) (r : Region) : State := (s.ownerOut id r).turnRegion id r 1 0
/-- An OWNED region passes to a core as RPASS passes it. -/
def State.passRegion (s : State) (id : BitVec 12) (r : Region) (dest : Fin 256) : State := (s.ownerOut id r).turnRegion id r 0 dest.val
/-- A SHARED-RO region becomes OWNED; every core of the partition drops its cached lines of it. -/
def State.takeRegion (s : State) (id : BitVec 12) (r : Region) (dest : Fin 256) : State :=
  let s := s.turnRegion id r 0 dest.val
  { s with cores := s.cores.map fun c =>
      if c.part = some (partOfCtx id) then
        { c with icache := c.icache.filter fun l => !(l.ctx == id && decide (r.base < l.line * 128 + 128) && decide (l.line * 128 < r.stop)) }
      else c }
/-- Whether the owner's running or preloaded task names a region as OUT or INOUT. -/
def State.ownerWrites (s : State) (id : BitVec 12) (r : Region) : Bool :=
  (s.tasksOf id).any fun x => x.1.val == r.core && x.2.names (s.lens id) writesMode r

/-! ## A node that fails (R370, R513) -/
/-- The task id (R367). -/
def taskId (c : Ctx) (i : Inst) : W64 :=
  BitVec.ofNat 64 (i.node.toNat + 2 ^ 12 * i.step.toNat + 2 ^ 22 * (i.inst % 2 ^ 12) + 2 ^ 34 * c.launches.toNat)
/-- An instance fails: the host is told, and the launch ends once nothing of it runs. -/
def State.nodeFails (s : State) (id : BitVec 12) (i : Inst) (core : Option (Fin 256)) (info : Nat) : State :=
  let s := s.event (some (partOfCtx id)) 0x41 core id.toNat (taskId (s.ctxOf id) i).toNat info
  let s := s.failLaunch id 0x10 i.node.toNat
  let s := s.modLaunch id fun l => { l with live := l.live.filter fun y => !y.same i }
  s.progress id

end Sys2Proof.Machine
end

