-- ==== Sys2Proof/Machine/Tables.lean ====
section
/-! DEFINITION. The tables of R98 and R420. Entry i of a table is the F32 encoding nearest to the exact mathematical
point, ties to even (R97, R420); the points were computed to 60 digits, and no point lies within 10^-35 of a unit in
the last place of a midpoint. Each list holds numbers of 256 entries, entry 0 lowest. -/
namespace Sys2Proof.Tables

/-- Entry i of a table. -/
def get (t : List Nat) (i : Nat) : Nat := Num.bits (t.getD (i / 256) 0) (32 * (i % 256)) 32

/-- R98: 2^((i + 0.5)/1,024). -/
def exp2 : List Nat :=
  [0x3f982ac13f9810653f97f60d3f97dbba3f97c16c3f97a7223f978cdd3f97729c3f9758603f973e283f9723f53f9709c73f96ef9d3f96d5773f96bb563f96a13a3f9687223f966d0e3f9653003f9638f53f961eef3f9604ee3f95eaf13f95d0f93f95b7053f959d163f95832b3f9569453f954f633f9535853f951bad3f9501d83f94e8083f94ce3d3f94b4763f949ab33f9480f53f94673c3f944d863f9433d63f941a293f9400823f93e6de3f93cd3f3f93b3a53f939a0f3f93807d3f9366f03f934d673f9333e33f931a633f9300e83f92e7713f92cdfe3f92b4903f929b263f9281c03f92685f3f924f033f9235aa3f921c563f9203073f91e9bc3f91d0753f91b7333f919df53f9184bb3f916b863f9152553f9139293f9120013f9106dd3f90edbd3f90d4a23f90bb8c3f90a2793f90896b3f9070623f90575c3f903e5b3f90255e3f900c663f8ff3723f8fda823f8fc1973f8fa8b03f8f8fcd3f8f76ef3f8f5e153f8f453f3f8f2c6d3f8f13a03f8efad73f8ee2123f8ec9523f8eb0963f8e97de3f8e7f2b3f8e667b3f8e4dd13f8e352a3f8e1c873f8e03e93f8deb4f3f8dd2ba3f8dba293f8da19b3f8d89133f8d708e3f8d580e3f8d3f923f8d271a3f8d0ea63f8cf6373f8cddcc3f8cc5653f8cad023f8c94a33f8c7c493f8c63f33f8c4ba13f8c33543f8c1b0a3f8c02c53f8bea843f8bd2473f8bba0f3f8ba1db3f8b89aa3f8b717e3f8b59573f8b41333f8b29133f8b10f83f8af8e13f8ae0ce3f8ac8bf3f8ab0b53f8a98ae3f8a80ac3f8a68ae3f8a50b43f8a38be3f8a20cd3f8a08df3f89f0f63f89d9113f89c1303f89a9533f89917a3f8979a53f8961d53f894a083f8932403f891a7c3f8902bc3f88eb003f88d3483f88bb943f88a3e53f888c393f8874923f885cef3f88454f3f882db43f88161d3f87fe8a3f87e6fb3f87cf713f87b7ea3f87a0673f8788e93f87716e3f8759f83f8742853f872b173f8713ad3f86fc473f86e4e53f86cd873f86b62d3f869ed73f8687853f8670373f8658ed3f8641a73f862a653f8613283f85fbee3f85e4b83f85cd863f85b6593f859f2f3f8588093f8570e83f8559ca3f8542b13f852b9b3f8514893f84fd7c3f84e6723f84cf6c3f84b86b3f84a16d3f848a733f84737e3f845c8c3f84459e3f842eb43f8417cf3f8400ed3f83ea0f3f83d3353f83bc5f3f83a58d3f838ebf3f8377f53f83612f3f834a6c3f8333ae3f831cf43f83063d3f82ef8b3f82d8dc3f82c2323f82ab8b3f8294e83f827e4a3f8267af3f8251183f823a853f8223f53f820d6a3f81f6e33f81e05f3f81c9e03f81b3643f819cec3f8186783f8170083f81599c3f8143343f812cd03f81166f3f8100133f80e9ba3f80d3653f80bd143f80a6c73f80907e3f807a393f8063f73f804db93f8037803f80214a3f800b18,
  0x3fb4f5453fb4d5ec3fb4b6983fb4974b3fb478023fb458bf3fb439813fb41a493fb3fb163fb3dbe83fb3bcc03fb39d9e3fb37e803fb35f683fb340563fb321493fb302413fb2e33e3fb2c4413fb2a54a3fb286573fb2676b3fb248833fb229a13fb20ac43fb1ebec3fb1cd1a3fb1ae4d3fb18f863fb170c43fb152073fb1334f3fb1149d3fb0f5f03fb0d7493fb0b8a63fb09a093fb07b723fb05cdf3fb03e523fb01fcb3fb001483fafe2cb3fafc4533fafa5e03faf87733faf690b3faf4aa83faf2c4b3faf0df23faeef9f3faed1513faeb3093fae94c63fae76883fae584f3fae3a1b3fae1bed3fadfdc43faddfa03fadc1813fada3683fad85533fad67443fad493b3fad2b363fad0d373facef3c3facd1473facb3583fac956d3fac77873fac59a73fac3bcc3fac1df63fac00253fabe25a3fabc4933faba6d23fab89163fab6b5f3fab4dad3fab30003fab12593faaf4b63faad7193faab9813faa9bee3faa7e603faa60d73faa43543faa25d53faa085c3fa9eae73fa9cd783fa9b00e3fa992a93fa975493fa957ee3fa93a983fa91d483fa8fffc3fa8e2b53fa8c5743fa8a8383fa88b003fa86dce3fa850a13fa833793fa816553fa7f9373fa7dc1e3fa7bf0a3fa7a1fb3fa784f13fa767ed3fa74aed3fa72df23fa710fc3fa6f40b3fa6d7203fa6ba393fa69d573fa6807a3fa663a23fa646d03fa62a023fa60d393fa5f0753fa5d3b73fa5b6fd3fa59a483fa57d983fa560ed3fa544473fa527a63fa50b0a3fa4ee733fa4d1e13fa4b5543fa498cc3fa47c483fa45fca3fa443513fa426dc3fa40a6d3fa3ee023fa3d19c3fa3b53b3fa398e03fa37c893fa360373fa343e93fa327a13fa30b5e3fa2ef1f3fa2d2e63fa2b6b13fa29a823fa27e573fa262313fa2460f3fa229f33fa20ddc3fa1f1c93fa1d5bc3fa1b9b33fa19daf3fa181b03fa165b63fa149c03fa12dd03fa111e43fa0f5fd3fa0da1b3fa0be3e3fa0a2653fa086923fa06ac33fa04ef93fa033343fa017743f9ffbb83f9fe0023f9fc4503f9fa8a33f9f8cfa3f9f71573f9f55b83f9f3a1e3f9f1e893f9f02f93f9ee76d3f9ecbe63f9eb0643f9e94e73f9e796e3f9e5dfb3f9e428c3f9e27213f9e0bbc3f9df05b3f9dd4ff3f9db9a83f9d9e553f9d83083f9d67be3f9d4c7a3f9d313a3f9d16003f9cfac93f9cdf983f9cc46b3f9ca9433f9c8e203f9c73013f9c57e73f9c3cd23f9c21c13f9c06b53f9bebae3f9bd0ac3f9bb5ae3f9b9ab53f9b7fc03f9b64d03f9b49e53f9b2eff3f9b141d3f9af9403f9ade673f9ac3933f9aa8c43f9a8df93f9a73333f9a58723f9a3db53f9a22fd3f9a084a3f99ed9b3f99d2f13f99b84c3f999dab3f99830e3f9968773f994de33f9933553f9918cb3f98fe463f98e3c53f98c9493f98aed13f98945f3f9879f03f985f863f984521,
  0x3fd732573fd70d103fd6e7cf3fd6c2953fd69d613fd678333fd6530c3fd62dec3fd608d23fd5e3be3fd5beb13fd599aa3fd574aa3fd54fb03fd52abc3fd505cf3fd4e0e83fd4bc083fd4972e3fd4725a3fd44d8d3fd428c63fd404053fd3df4b3fd3ba983fd395ea3fd371433fd34ca23fd328083fd303743fd2dee63fd2ba5f3fd295de3fd271633fd24cef3fd228813fd204193fd1dfb73fd1bb5c3fd197073fd172b93fd14e713fd12a2f3fd105f33fd0e1bd3fd0bd8e3fd099653fd075433fd051263fd02d103fd009003fcfe4f73fcfc0f43fcf9cf63fcf78ff3fcf550f3fcf31243fcf0d403fcee9623fcec58a3fcea1b93fce7ded3fce5a283fce36693fce12b03fcdeefe3fcdcb513fcda7ab3fcd840b3fcd60713fcd3cde3fcd19503fccf5c93fccd2473fccaecc3fcc8b573fcc67e93fcc44803fcc211d3fcbfdc13fcbda6b3fcbb71a3fcb93d03fcb708c3fcb4d4f3fcb2a173fcb06e53fcae3ba3fcac0943fca9d753fca7a5c3fca57493fca343c3fca11353fc9ee343fc9cb393fc9a8443fc985553fc9626c3fc93f8a3fc91cad3fc8f9d63fc8d7063fc8b43b3fc891773fc86eb83fc84c003fc8294d3fc806a13fc7e3fb3fc7c15a3fc79ec03fc77c2b3fc7599d3fc737143fc714923fc6f2153fc6cf9f3fc6ad2e3fc68ac43fc6685f3fc646003fc623a83fc601553fc5df083fc5bcc13fc59a803fc578453fc556103fc533e13fc511b83fc4ef953fc4cd773fc4ab603fc4894e3fc467423fc4453d3fc4233d3fc401433fc3df4f3fc3bd603fc39b783fc379963fc357b93fc335e23fc314113fc2f2463fc2d0813fc2aec23fc28d083fc26b553fc249a73fc227ff3fc2065d3fc1e4c13fc1c32a3fc1a1993fc1800f3fc15e893fc13d0a3fc11b913fc0fa1d3fc0d8af3fc0b7473fc095e53fc074893fc053323fc031e13fc010963fbfef503fbfce113fbfacd73fbf8ba33fbf6a743fbf494c3fbf28293fbf070c3fbee5f43fbec4e33fbea3d73fbe82d13fbe61d03fbe40d53fbe1fe03fbdfef13fbdde073fbdbd243fbd9c453fbd7b6d3fbd5a9a3fbd39cd3fbd19053fbcf8433fbcd7873fbcb6d13fbc96203fbc75753fbc54cf3fbc34303fbc13953fbbf3013fbbd2723fbbb1e93fbb91653fbb70e73fbb506f3fbb2ffc3fbb0f8f3fbaef283fbacec63fbaae6a3fba8e133fba6dc23fba4d763fba2d313fba0cf03fb9ecb63fb9cc813fb9ac513fb98c273fb96c033fb94be43fb92bcb3fb90bb73fb8eba93fb8cba03fb8ab9d3fb88ba03fb86ba83fb84bb63fb82bc93fb80be13fb7ec003fb7cc233fb7ac4d3fb78c7b3fb76cb03fb74ce93fb72d293fb70d6d3fb6edb83fb6ce073fb6ae5d3fb68eb83fb66f183fb64f7d3fb62fe93fb610593fb5f0cf3fb5d14b3fb5b1cc3fb592533fb572de3fb553703fb534073fb514a3,
  0x3fffe9d33fffbd7e3fff91313fff64eb3fff38ad3fff0c773ffee0493ffeb4223ffe88033ffe5beb3ffe2fdb3ffe03d33ffdd7d23ffdabd93ffd7fe83ffd53fe3ffd281c3ffcfc413ffcd06e3ffca4a33ffc78df3ffc4d233ffc216e3ffbf5c13ffbca1c3ffb9e7e3ffb72e73ffb47583ffb1bd13ffaf0513ffac4d93ffa99683ffa6dff3ffa429e3ffa17433ff9ebf13ff9c0a63ff995623ff96a263ff93ef13ff913c43ff8e89e3ff8bd803ff892693ff8675a3ff83c523ff811523ff7e6593ff7bb683ff7907e3ff7659b3ff73ac03ff70fec3ff6e5203ff6ba5b3ff68f9d3ff664e73ff63a393ff60f913ff5e4f13ff5ba593ff58fc83ff5653e3ff53abc3ff510403ff4e5cd3ff4bb603ff490fb3ff4669e3ff43c483ff411f93ff3e7b13ff3bd713ff393383ff369063ff33edc3ff314b93ff2ea9d3ff2c0883ff2967b3ff26c753ff242773ff2187f3ff1ee8f3ff1c4a63ff19ac53ff170eb3ff147173ff11d4c3ff0f3873ff0c9ca3ff0a0143ff076653ff04cbd3ff0231d3feff9843fefcff23fefa6673fef7ce33fef53673fef29f13fef00833feed71c3feeadbd3fee84643fee5b133fee31c93fee08863feddf4a3fedb6153fed8ce73fed63c13fed3aa13fed11893fece8783fecbf6e3fec966b3fec6d6f3fec447a3fec1b8d3febf2a63febc9c73feba0ef3feb781d3feb4f533feb26903feafdd43fead51f3feaac713fea83ca3fea5b2a3fea32913fea09ff3fe9e1753fe9b8f13fe990743fe967fe3fe93f903fe917283fe8eec73fe8c66d3fe89e1b3fe875cf3fe84d8a3fe8254c3fe7fd153fe7d4e63fe7acbd3fe7849b3fe75c803fe7346c3fe70c5f3fe6e4583fe6bc593fe694613fe66c703fe644853fe61ca23fe5f4c53fe5ccef3fe5a5203fe57d583fe555973fe52ddd3fe5062a3fe4de7e3fe4b6d83fe48f393fe467a23fe440113fe418873fe3f1033fe3c9873fe3a2113fe37aa33fe3533b3fe32bda3fe304803fe2dd2c3fe2b5e03fe28e9a3fe2675b3fe240233fe218f13fe1f1c73fe1caa33fe1a3863fe17c6f3fe155603fe12e573fe107553fe0e05a3fe0b9663fe092783fe06b913fe044b13fe01dd73fdff7043fdfd0383fdfa9733fdf82b43fdf5bfd3fdf354b3fdf0ea13fdee7fd3fdec1603fde9aca3fde743a3fde4db13fde272e3fde00b33fddda3e3fddb3cf3fdd8d683fdd67073fdd40ac3fdd1a583fdcf40b3fdccdc53fdca7853fdc814c3fdc5b193fdc34ed3fdc0ec83fdbe8a93fdbc2913fdb9c7f3fdb76743fdb50703fdb2a723fdb047b3fdade8a3fdab8a03fda92bd3fda6ce03fda47093fda213a3fd9fb703fd9d5ae3fd9aff13fd98a3c3fd9648d3fd93ee43fd919423fd8f3a63fd8ce113fd8a8833fd882fb3fd85d793fd837fe3fd8128a3fd7ed1c3fd7c7b43fd7a2533fd77cf93fd757a4]

/-- R98: log2(1 + (i + 0.5)/1,024). -/
def log2 : List Nat :=
  [0x3ea489e13ea3f6083ea362113ea2cdfd3ea239cb3ea1a57c3ea1110e3ea07c833e9fe7d93e9f53123e9ebe2d3e9e292a3e9d94093e9cfec93e9c696c3e9bd3f03e9b3e563e9aa89d3e9a12c63e997cd13e98e6bd3e98508b3e97ba3a3e9723cb3e968d3d3e95f6903e955fc53e94c8da3e9431d13e939aa93e9303623e926bfc3e91d4773e913cd33e90a50f3e900d2d3e8f752b3e8edd0a3e8e44c93e8dac693e8d13ea3e8c7b4b3e8be28d3e8b49af3e8ab0b13e8a17933e897e563e88e4f93e884b7c3e87b1e03e8718233e867e463e85e4493e854a2c3e84afef3e8415923e837b143e82e0763e8245b83e81aad93e810fd93e8074b93e7fb2f23e7e7c2f3e7d452c3e7c0de63e7ad65f3e799e973e78668c3e772e403e75f5b13e74bce03e7383cd3e724a783e7110e03e6fd7053e6e9ce83e6d62883e6c27e53e6aecff3e69b1d53e6876693e673ab93e65fec53e64c28e3e6386133e6249543e610c513e5fcf0a3e5e917f3e5d53b03e5c159c3e5ad7443e5998a73e5859c53e571a9f3e55db333e549b823e535b8c3e521b513e50dad03e4f9a0a3e4e58fd3e4d17ab3e4bd6143e4a94363e4952113e480fa73e46ccf63e4589ff3e4446c03e43033c3e41bf703e407b5d3e3f37033e3df2623e3cad793e3b68493e3a22d13e38dd113e37970a3e3650ba3e350a233e33c3433e327c1b3e3134aa3e2fecf03e2ea4ee3e2d5ca33e2c140f3e2acb323e29820b3e28389b3e26eee23e25a4df3e245a923e230ffb3e21c51a3e2079ef3e1f2e7a3e1de2ba3e1c96b03e1b4a5b3e19fdbb3e18b0d03e17639a3e1616193e14c84d3e137a353e122bd13e10dd223e0f8e273e0e3ee03e0cef4c3e0b9f6d3e0a4f403e08fec83e07ae023e065cf03e050b913e03b9e53e0267eb3e0115a43dff861f3dfce05b3dfa39fb3df792ff3df4eb673df243333def9a623decf0f33dea46e83de79c3f3de4f0f83de245133ddf988f3ddceb6d3dda3dac3dd78f4b3dd4e04b3dd230ab3dcf806b3dcccf8a3dca1e093dc76be63dc4b9223dc205bd3dbf51b53dbc9d0c3db9e7bf3db731d03db47b3e3db1c4093daf0c2f3dac53b23da99a903da6e0ca3da4265f3da16b4e3d9eaf983d9bf33c3d99363a3d9678923d93ba423d90fb4c3d8e3bae3d8b7b683d88ba7b3d85f8e53d8336a63d8073bf3d7b605c3d75d7e73d704e1f3d6ac3013d65368f3d5fa8c73d5a19a93d5489333d4ef7663d4964403d43cfc23d3e39e93d38a2b73d330a2a3d2d70403d27d4fb3d2238593d1c9a593d16fafb3d115a3e3d0bb8213d0614a43d006fc63cf5930d3cea43ca3cdef1c03cd39cef3cc845563cbceaf23cb18dc33ca62dc73c9acafd3c8f65643c83fcf93c7123793c5a47583c43658c3c2c7e143c1590eb3bfd3c203bcf4afe3ba14e6c3b668cc53b0a65bb3a389eb1,
  0x3f15a1523f1563ba3f1526173f14e86a3f14aab33f146cf13f142f253f13f14f3f13b36f3f1375843f13378e3f12f98f3f12bb843f127d703f123f513f1201273f11c2f33f1184b53f11466c3f1108193f10c9bb3f108b523f104cdf3f100e613f0fcfd93f0f91463f0f52a93f0f14013f0ed54e3f0e96913f0e57c93f0e18f63f0dda193f0d9b313f0d5c3e3f0d1d413f0cde383f0c9f253f0c60073f0c20df3f0be1ab3f0ba26d3f0b63243f0b23d03f0ae4713f0aa5083f0a65933f0a26143f09e6893f09a6f43f0967543f0927a83f08e7f23f08a8313f0868653f08288d3f07e8ab3f07a8be3f0768c53f0728c23f06e8b33f06a8993f0668743f0628443f05e8093f05a7c33f0567713f0527143f04e6ac3f04a6393f0465ba3f0425313f03e49c3f03a3fb3f0363503f0322993f02e1d63f02a1083f02602f3f021f4b3f01de5b3f019d603f015c593f011b473f00da293f0099003f0057cb3f00168b3effaa7e3eff27d03efea50a3efe222d3efd9f393efd1c2d3efc990b3efc15d13efb92803efb0f173efa8b973efa08003ef984513ef9008b3ef87cad3ef7f8b73ef774aa3ef6f0853ef66c493ef5e7f53ef563893ef4df063ef45a6b3ef3d5b83ef350ed3ef2cc0a3ef2470f3ef1c1fc3ef13cd23ef0b78f3ef032343eefacc13eef27363eeea1933eee1bd83eed96043eed10183eec8a143eec03f73eeb7dc33eeaf7753eea71103ee9ea913ee963fb3ee8dd4c3ee856843ee7cfa33ee748aa3ee6c1993ee63a6e3ee5b32b3ee52bcf3ee4a45a3ee41ccd3ee395263ee30d673ee2858e3ee1fd9d3ee175923ee0ed6f3ee065323edfdcdc3edf546d3edecbe53ede43433eddba893edd31b53edca8c73edc1fc03edb96a03edb0d663eda84133ed9faa63ed971203ed8e7803ed85dc63ed7d3f33ed74a053ed6bfff3ed635de3ed5aba33ed5214f3ed496e03ed40c583ed381b63ed2f6f93ed26c233ed1e1323ed156283ed0cb033ed03fc43ecfb46a3ecf28f73ece9d683ece11c03ecd85fd3eccfa203ecc6e283ecbe2163ecb55e93ecac9a13eca3d3f3ec9b0c23ec9242a3ec897783ec80aaa3ec77dc23ec6f0bf3ec663a13ec5d6683ec549143ec4bba53ec42e1b3ec3a0763ec312b53ec284da3ec1f6e33ec168d03ec0daa33ec04c5a3ebfbdf53ebf2f763ebea0da3ebe12233ebd83513ebcf4623ebc65593ebbd6333ebb46f23ebab7953eba281c3eb998873eb908d63eb879093eb7e9203eb7591b3eb6c8fa3eb638bd3eb5a8643eb517ef3eb4875d3eb3f6af3eb365e43eb2d4fd3eb243fa3eb1b2da3eb1219e3eb090453eaffecf3eaf6d3d3eaedb8e3eae49c23eadb7da3ead25d53eac93b23eac01733eab6f173eaadc9e3eaa4a083ea9b7543ea924843ea891963ea7fe8b3ea76b633ea6d81e3ea644bb3ea5b13a3ea51d9c,
  0x3f4e946e3f4e5fa33f4e2ad13f4df5f73f4dc1163f4d8c2e3f4d573d3f4d22453f4ced463f4cb83f3f4c83303f4c4e1a3f4c18fc3f4be3d63f4baea93f4b79743f4b44373f4b0ef33f4ad9a73f4aa4533f4a6ef83f4a39953f4a042a3f49ceb83f49993d3f4963bb3f492e323f48f8a03f48c3073f488d663f4857bd3f48220c3f47ec533f47b6933f4780cb3f474afb3f4715233f46df433f46a95c3f46736d3f463d753f4607763f45d16f3f459b603f4565493f452f2a3f44f9033f44c2d53f448c9e3f44565f3f4420193f43e9ca3f43b3743f437d153f4346ae3f4310403f42d9c93f42a34b3f426cc43f4236353f41ff9e3f41c8ff3f4192583f415ba93f4124f23f40ee333f40b76b3f40809c3f4049c43f4012e43f3fdbfc3f3fa50c3f3f6e143f3f37133f3f000b3f3ec8fa3f3e91e13f3e5abf3f3e23963f3dec643f3db52a3f3d7de73f3d469d3f3d0f4a3f3cd7ef3f3ca08b3f3c691f3f3c31ab3f3bfa2f3f3bc2aa3f3b8b1d3f3b53873f3b1be93f3ae4433f3aac943f3a74dd3f3a3d1e3f3a05563f39cd863f3995ad3f395dcc3f3925e23f38edf03f38b5f53f387df23f3845e73f380dd33f37d5b63f379d913f3765633f372d2d3f36f4ee3f36bca73f3684573f364bfe3f36139d3f35db333f35a2c13f356a463f3531c23f34f9363f34c0a13f3488033f344f5d3f3416ae3f33ddf63f33a5353f336c6c3f33339a3f32fac03f32c1dc3f3288f03f324ffb3f3216fd3f31ddf73f31a4e73f316bcf3f3132ae3f30f9843f30c0523f3087163f304dd23f3014843f2fdb2e3f2fa1cf3f2f68673f2f2ef63f2ef57c3f2ebbf93f2e826d3f2e48d83f2e0f3b3f2dd5943f2d9be43f2d622b3f2d28693f2cee9f3f2cb4cb3f2c7aee3f2c41083f2c07193f2bcd203f2b931f3f2b59153f2b1f013f2ae4e43f2aaabe3f2a708f3f2a36573f29fc163f29c1cb3f2987773f294d1a3f2912b43f28d8453f289dcc3f28634a3f2828bf3f27ee2a3f27b38c3f2778e53f273e353f27037b3f26c8b83f268deb3f2653163f2618363f25dd4e3f25a25c3f2567603f252c5b3f24f14d3f24b6353f247b143f243fe93f2404b53f23c9783f238e303f2352e03f2317853f22dc223f22a0b43f22653d3f2229bd3f21ee333f21b29f3f2177023f213b5b3f20ffaa3f20c3f03f20882c3f204c5f3f2010883f1fd4a73f1f98bc3f1f5cc83f1f20c93f1ee4c23f1ea8b03f1e6c953f1e306f3f1df4403f1db8073f1d7bc53f1d3f783f1d03223f1cc6c23f1c8a583f1c4de43f1c11663f1bd4de3f1b984c3f1b5bb13f1b1f0b3f1ae25c3f1aa5a23f1a68df3f1a2c113f19ef393f19b2583f19756c3f1938773f18fb773f18be6d3f1881593f18443b3f1807133f17c9e13f178ca43f174f5e3f17120d3f16d4b23f16974d3f1659dd3f161c643f15dee0,
  0x3f7fe8ea3f7fbaba3f7f8c843f7f5e483f7f30063f7f01be3f7ed3713f7ea51e3f7e76c53f7e48663f7e1a023f7deb983f7dbd273f7d8eb13f7d60353f7d31b43f7d032c3f7cd49f3f7ca60b3f7c77723f7c48d33f7c1a2e3f7beb833f7bbcd23f7b8e1b3f7b5f5f3f7b309c3f7b01d43f7ad3053f7aa4313f7a75573f7a46773f7a17913f79e8a43f79b9b23f798aba3f795bbc3f792cb83f78fdae3f78ce9e3f789f883f78706c3f78414a3f7812223f77e2f43f77b3c03f7784863f7755463f7726003f76f6b33f76c7613f7698093f7668aa3f7639463f7609db3f75da6a3f75aaf43f757b773f754bf43f751c6b3f74ecdb3f74bd463f748daa3f745e093f742e613f73feb33f73ceff3f739f453f736f843f733fbe3f730ff13f72e01e3f72b0453f7280653f7250803f7220943f71f0a23f71c0a93f7190ab3f7160a63f71309b3f71008a3f70d0723f70a0553f7070313f7040063f700fd63f6fdf9f3f6faf623f6f7f1e3f6f4ed43f6f1e843f6eee2e3f6ebdd13f6e8d6e3f6e5d043f6e2c953f6dfc1f3f6dcba23f6d9b1f3f6d6a963f6d3a063f6d09703f6cd8d43f6ca8313f6c77883f6c46d83f6c16223f6be5653f6bb4a33f6b83d93f6b53093f6b22333f6af1563f6ac0733f6a8f893f6a5e993f6a2da33f69fca53f69cba23f699a983f6969873f6938703f6907523f68d62e3f68a5033f6873d23f68429a3f68115b3f67e0163f67aecb3f677d793f674c203f671ac03f66e95a3f66b7ee3f66867b3f6655013f6623803f65f1f93f65c06b3f658ed73f655d3c3f652b9a3f64f9f23f64c8433f64968d3f6464d13f64330d3f6401443f63cf733f639d9c3f636bbe3f6339d93f6307ed3f62d5fb3f62a4023f6272023f623ffc3f620dee3f61dbda3f61a9bf3f61779e3f6145753f6113463f60e10f3f60aed23f607c8f3f604a443f6017f23f5fe59a3f5fb33b3f5f80d53f5f4e683f5f1bf43f5ee9793f5eb6f73f5e846f3f5e51df3f5e1f493f5decab3f5dba073f5d875c3f5d54a93f5d21f03f5cef303f5cbc693f5c899b3f5c56c63f5c23e93f5bf1063f5bbe1c3f5b8b2b3f5b58333f5b25343f5af22d3f5abf203f5a8c0c3f5a58f03f5a25ce3f59f2a43f59bf733f598c3b3f5958fd3f5925b63f58f2693f58bf153f588bba3f5858573f5824ed3f57f17c3f57be043f578a853f5756ff3f5723713f56efdc3f56bc403f56889d3f5654f33f5621413f55ed883f55b9c83f5586003f5552323f551e5c3f54ea7f3f54b69a3f5482ae3f544ebb3f541ac13f53e6bf3f53b2b63f537ea53f534a8e3f53166f3f52e2483f52ae1a3f5279e53f5245a83f5211643f51dd193f51a8c63f51746c3f51400a3f510ba13f50d7313f50a2b93f506e393f5039b23f5005243f4fd08e3f4f9bf13f4f674c3f4f32a03f4efdec3f4ec930]

/-- R98: sin(pi (i + 0.5)/512). -/
def sin : List Nat :=
  [0x3f7fffb13f7ffd393f7ff84a3f7ff0e33f7fe7053f7fdaaf3f7fcbe23f7fba9e3f7fa6e33f7f90b13f7f78083f7f5ce93f7f3f543f7f1f493f7efcc93f7ed7d43f7eb0693f7e868b3f7e5a383f7e2b723f7dfa383f7dc68c3f7d906e3f7d57de3f7d1cdd3f7cdf6c3f7c9f8a3f7c5d3a3f7c187a3f7bd14d3f7b87b23f7b3bab3f7aed373f7a9c593f7a49103f79f35e3f799b433f7940c03f78e3d63f7884863f7822d13f77beb73f77583a3f76ef5b3f76841b3f76167a3f75a67b3f75341d3f74bf623f74484b3f73ced93f73530e3f72d4eb3f7254703f71d19f3f714c7a3f70c5013f703b373f6faf1b3f6f20b03f6e8ff83f6dfcf23f6d67a13f6cd0073f6c36243f6b99fb3f6afb8c3f6a5ad93f69b7e43f6912ae3f686b393f67c1873f6715993f6667713f65b7103f6504793f644fac3f6398ac3f62df7b3f62241a3f61668a3f60a6cf3f5fe4e93f5f20db3f5e5aa63f5d924d3f5cc7d13f5bfb343f5b2c793f5a5ba03f5988ad3f58b3a13f57dc7f3f5703483f5627fe3f554aa43f546b3b3f5389c73f52a6493f51c0c23f50d9373f4fefa83f4f04173f4e16893f4d26fd3f4c35783f4b41fa3f4a4c873f4955213f485bca3f4760853f4663543f4564393f4463373f4360513f425b893f4154e13f404c5c3f3f41fc3f3e35c53f3d27b83f3c17d93f3b06293f39f2ac3f38dd653f37c6553f36ad7f3f3592e73f34768f3f33587a3f3238aa3f3117223f2ff3e63f2ecef73f2da8593f2c800f3f2b561b3f2a2a803f28fd413f27ce613f269de33f256bcb3f24381a3f2302d33f21cbfb3f2093933f1f599f3f1e1e223f1ce11f3f1ba2993f1a62933f19210f3f17de123f16999f3f1553b73f140c5f3f12c39a3f11796b3f102dd53f0ee0db3f0d92813f0c42c93f0af1b73f099f4e3f084b923f06f6863f05a02c3f0448893f02ef9f3f0195733f003a063efdbabb3efafef73ef840c83ef580353ef2bd433eeff7fb3eed30633eea66813ee79a5d3ee4cbfe3ee1fb6a3edf28a93edc53c13ed97cb93ed6a3993ed3c8673ed0eb2a3ece0bea3ecb2aae3ec8477c3ec5625c3ec27b553ebf926f3ebca7af3eb9bb1e3eb6ccc33eb3dca53eb0eacb3eadf73c3eab02013ea80b1f3ea5129f3ea218873e9f1cdf3e9c1faf3e9920fe3e9620d23e931f353e901c2c3e8d17c03e8a11f73e870ada3e8402703e80f8c03e7bdba43e75c35a3e6fa8b23e698bba3e636c833e5d4b1a3e57278f3e5101f13e4ada4f3e44b0b93e3e853e3e3857ec3e3228d43e2bf8043e25c58c3e1f917b3e195be03e1324ca3e0cec4a3e06b26e3e0077453df475c03de7fa9a3ddb7d373dcefdb73dc27c393db5f8da3da973ba3d9cecf93d9064b43d83db0a3d6ea0383d55880e3d3c6dd53d2351cb3d0a342f3ce22a7a3cafea693c7b514b3c16cb583b490fc6,
  0x3b490fc63c16cb583c7b514b3cafea693ce22a7a3d0a342f3d2351cb3d3c6dd53d55880e3d6ea0383d83db0a3d9064b43d9cecf93da973ba3db5f8da3dc27c393dcefdb73ddb7d373de7fa9a3df475c03e0077453e06b26e3e0cec4a3e1324ca3e195be03e1f917b3e25c58c3e2bf8043e3228d43e3857ec3e3e853e3e44b0b93e4ada4f3e5101f13e57278f3e5d4b1a3e636c833e698bba3e6fa8b23e75c35a3e7bdba43e80f8c03e8402703e870ada3e8a11f73e8d17c03e901c2c3e931f353e9620d23e9920fe3e9c1faf3e9f1cdf3ea218873ea5129f3ea80b1f3eab02013eadf73c3eb0eacb3eb3dca53eb6ccc33eb9bb1e3ebca7af3ebf926f3ec27b553ec5625c3ec8477c3ecb2aae3ece0bea3ed0eb2a3ed3c8673ed6a3993ed97cb93edc53c13edf28a93ee1fb6a3ee4cbfe3ee79a5d3eea66813eed30633eeff7fb3ef2bd433ef580353ef840c83efafef73efdbabb3f003a063f0195733f02ef9f3f0448893f05a02c3f06f6863f084b923f099f4e3f0af1b73f0c42c93f0d92813f0ee0db3f102dd53f11796b3f12c39a3f140c5f3f1553b73f16999f3f17de123f19210f3f1a62933f1ba2993f1ce11f3f1e1e223f1f599f3f2093933f21cbfb3f2302d33f24381a3f256bcb3f269de33f27ce613f28fd413f2a2a803f2b561b3f2c800f3f2da8593f2ecef73f2ff3e63f3117223f3238aa3f33587a3f34768f3f3592e73f36ad7f3f37c6553f38dd653f39f2ac3f3b06293f3c17d93f3d27b83f3e35c53f3f41fc3f404c5c3f4154e13f425b893f4360513f4463373f4564393f4663543f4760853f485bca3f4955213f4a4c873f4b41fa3f4c35783f4d26fd3f4e16893f4f04173f4fefa83f50d9373f51c0c23f52a6493f5389c73f546b3b3f554aa43f5627fe3f5703483f57dc7f3f58b3a13f5988ad3f5a5ba03f5b2c793f5bfb343f5cc7d13f5d924d3f5e5aa63f5f20db3f5fe4e93f60a6cf3f61668a3f62241a3f62df7b3f6398ac3f644fac3f6504793f65b7103f6667713f6715993f67c1873f686b393f6912ae3f69b7e43f6a5ad93f6afb8c3f6b99fb3f6c36243f6cd0073f6d67a13f6dfcf23f6e8ff83f6f20b03f6faf1b3f703b373f70c5013f714c7a3f71d19f3f7254703f72d4eb3f73530e3f73ced93f74484b3f74bf623f75341d3f75a67b3f76167a3f76841b3f76ef5b3f77583a3f77beb73f7822d13f7884863f78e3d63f7940c03f799b433f79f35e3f7a49103f7a9c593f7aed373f7b3bab3f7b87b23f7bd14d3f7c187a3f7c5d3a3f7c9f8a3f7cdf6c3f7d1cdd3f7d57de3f7d906e3f7dc68c3f7dfa383f7e2b723f7e5a383f7e868b3f7eb0693f7ed7d43f7efcc93f7f1f493f7f3f543f7f5ce93f7f78083f7f90b13f7fa6e33f7fba9e3f7fcbe23f7fdaaf3f7fe7053f7ff0e33f7ff84a3f7ffd393f7fffb1,
  0xbf7fffb1bf7ffd39bf7ff84abf7ff0e3bf7fe705bf7fdaafbf7fcbe2bf7fba9ebf7fa6e3bf7f90b1bf7f7808bf7f5ce9bf7f3f54bf7f1f49bf7efcc9bf7ed7d4bf7eb069bf7e868bbf7e5a38bf7e2b72bf7dfa38bf7dc68cbf7d906ebf7d57debf7d1cddbf7cdf6cbf7c9f8abf7c5d3abf7c187abf7bd14dbf7b87b2bf7b3babbf7aed37bf7a9c59bf7a4910bf79f35ebf799b43bf7940c0bf78e3d6bf788486bf7822d1bf77beb7bf77583abf76ef5bbf76841bbf76167abf75a67bbf75341dbf74bf62bf74484bbf73ced9bf73530ebf72d4ebbf725470bf71d19fbf714c7abf70c501bf703b37bf6faf1bbf6f20b0bf6e8ff8bf6dfcf2bf6d67a1bf6cd007bf6c3624bf6b99fbbf6afb8cbf6a5ad9bf69b7e4bf6912aebf686b39bf67c187bf671599bf666771bf65b710bf650479bf644facbf6398acbf62df7bbf62241abf61668abf60a6cfbf5fe4e9bf5f20dbbf5e5aa6bf5d924dbf5cc7d1bf5bfb34bf5b2c79bf5a5ba0bf5988adbf58b3a1bf57dc7fbf570348bf5627febf554aa4bf546b3bbf5389c7bf52a649bf51c0c2bf50d937bf4fefa8bf4f0417bf4e1689bf4d26fdbf4c3578bf4b41fabf4a4c87bf495521bf485bcabf476085bf466354bf456439bf446337bf436051bf425b89bf4154e1bf404c5cbf3f41fcbf3e35c5bf3d27b8bf3c17d9bf3b0629bf39f2acbf38dd65bf37c655bf36ad7fbf3592e7bf34768fbf33587abf3238aabf311722bf2ff3e6bf2ecef7bf2da859bf2c800fbf2b561bbf2a2a80bf28fd41bf27ce61bf269de3bf256bcbbf24381abf2302d3bf21cbfbbf209393bf1f599fbf1e1e22bf1ce11fbf1ba299bf1a6293bf19210fbf17de12bf16999fbf1553b7bf140c5fbf12c39abf11796bbf102dd5bf0ee0dbbf0d9281bf0c42c9bf0af1b7bf099f4ebf084b92bf06f686bf05a02cbf044889bf02ef9fbf019573bf003a06befdbabbbefafef7bef840c8bef58035bef2bd43beeff7fbbeed3063beea6681bee79a5dbee4cbfebee1fb6abedf28a9bedc53c1bed97cb9bed6a399bed3c867bed0eb2abece0beabecb2aaebec8477cbec5625cbec27b55bebf926fbebca7afbeb9bb1ebeb6ccc3beb3dca5beb0eacbbeadf73cbeab0201bea80b1fbea5129fbea21887be9f1cdfbe9c1fafbe9920febe9620d2be931f35be901c2cbe8d17c0be8a11f7be870adabe840270be80f8c0be7bdba4be75c35abe6fa8b2be698bbabe636c83be5d4b1abe57278fbe5101f1be4ada4fbe44b0b9be3e853ebe3857ecbe3228d4be2bf804be25c58cbe1f917bbe195be0be1324cabe0cec4abe06b26ebe007745bdf475c0bde7fa9abddb7d37bdcefdb7bdc27c39bdb5f8dabda973babd9cecf9bd9064b4bd83db0abd6ea038bd55880ebd3c6dd5bd2351cbbd0a342fbce22a7abcafea69bc7b514bbc16cb58bb490fc6,
  0xbb490fc6bc16cb58bc7b514bbcafea69bce22a7abd0a342fbd2351cbbd3c6dd5bd55880ebd6ea038bd83db0abd9064b4bd9cecf9bda973babdb5f8dabdc27c39bdcefdb7bddb7d37bde7fa9abdf475c0be007745be06b26ebe0cec4abe1324cabe195be0be1f917bbe25c58cbe2bf804be3228d4be3857ecbe3e853ebe44b0b9be4ada4fbe5101f1be57278fbe5d4b1abe636c83be698bbabe6fa8b2be75c35abe7bdba4be80f8c0be840270be870adabe8a11f7be8d17c0be901c2cbe931f35be9620d2be9920febe9c1fafbe9f1cdfbea21887bea5129fbea80b1fbeab0201beadf73cbeb0eacbbeb3dca5beb6ccc3beb9bb1ebebca7afbebf926fbec27b55bec5625cbec8477cbecb2aaebece0beabed0eb2abed3c867bed6a399bed97cb9bedc53c1bedf28a9bee1fb6abee4cbfebee79a5dbeea6681beed3063beeff7fbbef2bd43bef58035bef840c8befafef7befdbabbbf003a06bf019573bf02ef9fbf044889bf05a02cbf06f686bf084b92bf099f4ebf0af1b7bf0c42c9bf0d9281bf0ee0dbbf102dd5bf11796bbf12c39abf140c5fbf1553b7bf16999fbf17de12bf19210fbf1a6293bf1ba299bf1ce11fbf1e1e22bf1f599fbf209393bf21cbfbbf2302d3bf24381abf256bcbbf269de3bf27ce61bf28fd41bf2a2a80bf2b561bbf2c800fbf2da859bf2ecef7bf2ff3e6bf311722bf3238aabf33587abf34768fbf3592e7bf36ad7fbf37c655bf38dd65bf39f2acbf3b0629bf3c17d9bf3d27b8bf3e35c5bf3f41fcbf404c5cbf4154e1bf425b89bf436051bf446337bf456439bf466354bf476085bf485bcabf495521bf4a4c87bf4b41fabf4c3578bf4d26fdbf4e1689bf4f0417bf4fefa8bf50d937bf51c0c2bf52a649bf5389c7bf546b3bbf554aa4bf5627febf570348bf57dc7fbf58b3a1bf5988adbf5a5ba0bf5b2c79bf5bfb34bf5cc7d1bf5d924dbf5e5aa6bf5f20dbbf5fe4e9bf60a6cfbf61668abf62241abf62df7bbf6398acbf644facbf650479bf65b710bf666771bf671599bf67c187bf686b39bf6912aebf69b7e4bf6a5ad9bf6afb8cbf6b99fbbf6c3624bf6cd007bf6d67a1bf6dfcf2bf6e8ff8bf6f20b0bf6faf1bbf703b37bf70c501bf714c7abf71d19fbf725470bf72d4ebbf73530ebf73ced9bf74484bbf74bf62bf75341dbf75a67bbf76167abf76841bbf76ef5bbf77583abf77beb7bf7822d1bf788486bf78e3d6bf7940c0bf799b43bf79f35ebf7a4910bf7a9c59bf7aed37bf7b3babbf7b87b2bf7bd14dbf7c187abf7c5d3abf7c9f8abf7cdf6cbf7d1cddbf7d57debf7d906ebf7dc68cbf7dfa38bf7e2b72bf7e5a38bf7e868bbf7eb069bf7ed7d4bf7efcc9bf7f1f49bf7f3f54bf7f5ce9bf7f7808bf7f90b1bf7fa6e3bf7fba9ebf7fcbe2bf7fdaafbf7fe705bf7ff0e3bf7ff84abf7ffd39bf7fffb1]

/-- R420, NORM level 0: entry j for j = 1 to 4,095. -/
def normP : List Nat :=
  [0xbfc49f36bfc4e08fbfc5221cbfc563dcbfc5a5d1bfc5e7fabfc62a58bfc66cecbfc6afb6bfc6f2b6bfc735ecbfc7795abfc7bcffbfc800dcbfc844f2bfc88940bfc8cdc8bfc9128abfc95785bfc99cbcbfc9e22dbfca27dabfca6dc4bfcab3e9bfcafa4cbfcb40edbfcb87cbbfcbcee9bfcc1645bfcc5de1bfcca5bdbfcceddabfcd3638bfcd7ed8bfcdc7bbbfce10e0bfce5a49bfcea3f6bfceede8bfcf381fbfcf829cbfcfcd5fbfd0186abfd063bcbfd0af57bfd0fb3bbfd14769bfd193e1bfd1e0a4bfd22db3bfd27b0ebfd2c8b7bfd316adbfd364f3bfd3b387bfd4026cbfd451a1bfd4a128bfd4f102bfd5412ebfd591afbfd5e285bfd633b0bfd68531bfd6d70abfd7293cbfd77bc6bfd7ceaabfd821e9bfd87584bfd8c97cbfd91dd2bfd97286bfd9c79abfda1d0ebfda72e4bfdac91dbfdb1fb9bfdb76babfdbce22bfdc25f0bfdc7e26bfdcd6c5bfdd2fcfbfdd8944bfdde326bfde3d76bfde9835bfdef364bfdf4f05bfdfab1abfe007a2bfe064a0bfe0c215bfe12003bfe17e6abfe1dd4dbfe23cadbfe29c8abfe2fce8bfe35dc7bfe3bf29bfe4210fbfe4837bbfe4e66fbfe549edbfe5adf6bfe6128dbfe677b2bfe6dd67bfe743b0bfe7aa8dbfe81200bfe87a0cbfe8e2b2bfe94bf5bfe9b5d6bfea2059bfea8b7ebfeaf749bfeb63bbbfebd0d8bfec3ea1bfecad19bfed1c42bfed8c1fbfedfcb2bfee6dffbfeee008bfef52d0bfefc65abff03aa8bff0afbebff1259fbff19c4dbff213cdbff28c21bff3054dbff37f54bff3fa3abff47603bff4f2b2bff5704bbff5eed2bff66e4cbff6eebbbff77025bff7f28ebff875fbbff8fa6fbff97ff0bffa0683bffa8e2cbffb16f1bffba0d7bffc2be4bffcb81cbffd4587bffdd429bffe6409bffef52ebfff879dc0000dafc000583bc000a378c000ef67c0013c0ec0018970c001d792c0022676c0027623c002c69bc00317e5c0036a04c003bcfec00410d7c0046596c004bb3fc00511d9c0056969c005c1f6c0061b85c006761ec006d1c8c0072e8ac0078c6bc007eb73c0084babc008ad1bc0090fccc00973c7c009d915c00a3fc2c00aa7d8c00b1161c00b7c6ac00be8ffc00c572cc00cc6ffc00d3887c00dabd2c00e20f1c00e97f3c00f10eac00f8be8c0100902c010884cc01109dcc0118dc9c012142dc0129d20c01328c0c013b72bc0144880c014dce2c0157475c0160f61c016add1c0174ff1c017f5f4c018a00fc0194e7bc01a0178c01ab949c01b763bc01c38a0c01d00d0c01dcf31c01ea42fc01f8045c02063fbc0214fe9c02244b9c023432fc0244c24c0256094c026819ec027b091c028eef2c02a3e8cc02ba17ec02d1a57c02eac34c0305aeac0322b49c0342378c0364b84c038ae3ec03b5ab4c03e66bdc041f3e3c04639a8c04b9eacc0530537c05f2cb700000000,
  0xbf93658abf938c7bbf93b37abf93da86bf9401a1bf9428c9bf944fffbf947743bf949e95bf94c5f6bf94ed64bf9514e0bf953c6bbf956403bf958babbf95b360bf95db24bf9602f7bf962ad8bf9652c7bf967ac5bf96a2d2bf96caeebf96f318bf971b52bf97439abf976bf2bf979458bf97bccebf97e552bf980de6bf98368abf985f3cbf9887febf98b0d0bf98d9b1bf9902a2bf992ba2bf9954b2bf997dd2bf99a702bf99d042bf99f991bf9a22f1bf9a4c61bf9a75e1bf9a9f72bf9ac912bf9af2c4bf9b1c85bf9b4657bf9b703abf9b9a2dbf9bc431bf9bee46bf9c186cbf9c42a3bf9c6cebbf9c9744bf9cc1aebf9cec29bf9d16b6bf9d4154bf9d6c03bf9d96c4bf9dc197bf9dec7bbf9e1771bf9e4279bf9e6d93bf9e98bebf9ec3fcbf9eef4cbf9f1aaebf9f4623bf9f71aabf9f9d43bf9fc8efbf9ff4aebfa0207fbfa04c63bfa0785abfa0a464bfa0d081bfa0fcb1bfa128f4bfa1554bbfa181b5bfa1ae33bfa1dac4bfa20768bfa23421bfa260edbfa28dcdbfa2bac2bfa2e7cabfa314e7bfa34217bfa36f5dbfa39cb6bfa3ca25bfa3f7a8bfa4253fbfa452ecbfa480adbfa4ae84bfa4dc70bfa50a71bfa53887bfa566b3bfa594f4bfa5c34bbfa5f1b8bfa6203bbfa64ed3bfa67d82bfa6ac47bfa6db22bfa70a14bfa7391cbfa7683bbfa79770bfa7c6bdbfa7f620bfa8259abfa8552cbfa884d5bfa8b495bfa8e46cbfa9145cbfa94463bfa97482bfa9a4b9bfa9d508bfaa0570bfaa35efbfaa6687bfaa9738bfaac802bfaaf8e4bfab29e0bfab5af4bfab8c22bfabbd69bfabeecabfac2044bfac51d8bfac8386bfacb54ebface730bfad192dbfad4b43bfad7d75bfadafc1bfade228bfae14abbfae4748bfae7a01bfaeacd5bfaedfc4bfaf12d0bfaf45f7bfaf793abfafac9abfafe016bfb013aebfb04764bfb07b36bfb0af24bfb0e331bfb1175abfb14ba1bfb18005bfb1b488bfb1e928bfb21de7bfb252c3bfb287bfbfb2bcd8bfb2f211bfb32769bfb35ce0bfb39276bfb3c82cbfb3fe01bfb433f7bfb46a0cbfb4a042bfb4d699bfb50d10bfb543a8bfb57a60bfb5b13bbfb5e836bfb61f53bfb65692bfb68df4bfb6c577bfb6fd1dbfb734e5bfb76cd1bfb7a4dfbfb7dd11bfb81566bfb84ddfbfb8867dbfb8bf3ebfb8f823bfb9312ebfb96a5dbfb9a3b1bfb9dd2bbfba16cabfba508fbfba8a7abfbac48bbfbafec3bfbb3922bfbb73a7bfbbae54bfbbe929bfbc2425bfbc5f49bfbc9a96bfbcd60bbfbd11a9bfbd4d71bfbd8961bfbdc57bbfbe01c0bfbe3e2ebfbe7ac7bfbeb78bbfbef47abfbf3194bfbf6edabfbfac4cbfbfe9ebbfc027b6bfc065adbfc0a3d2bfc0e225bfc120a5bfc15f54bfc19e31bfc1dd3dbfc21c78bfc25be3bfc29b7dbfc2db48bfc31b43bfc35b6fbfc39bcdbfc3dc5cbfc41d1dbfc45e10,
  0xbf635781bf639306bf63ce96bf640a33bf6445dcbf648192bf64bd54bf64f922bf6534fdbf6570e5bf65acd9bf65e8dabf6624e7bf666101bf669d28bf66d95cbf67159cbf6751e9bf678e43bf67caaabf68071ebf68439ebf68802cbf68bcc7bf68f96ebf693623bf6972e5bf69afb4bf69ec91bf6a297abf6a6671bf6aa375bf6ae087bf6b1da6bf6b5ad2bf6b980cbf6bd553bf6c12a7bf6c500abf6c8d7abf6ccaf7bf6d0882bf6d461bbf6d83c2bf6dc176bf6dff39bf6e3d09bf6e7ae7bf6eb8d3bf6ef6cdbf6f34d5bf6f72ebbf6fb10fbf6fef41bf702d82bf706bd0bf70aa2dbf70e898bf712712bf71659abf71a430bf71e2d5bf722188bf72604abf729f1abf72ddf9bf731ce7bf735be4bf739aefbf73da09bf741931bf745869bf7497afbf74d705bf751669bf7555ddbf759560bf75d4f1bf761492bf765442bf769402bf76d3d0bf7713afbf77539cbf779399bf77d3a5bf7813c1bf7853edbf789428bf78d472bf7914cdbf795537bf7995b1bf79d63bbf7a16d5bf7a577ebf7a9838bf7ad902bf7b19dbbf7b5ac5bf7b9bc0bf7bdccabf7c1de4bf7c5f0fbf7ca04bbf7ce196bf7d22f3bf7d645fbf7da5dcbf7de76abf7e2909bf7e6ab8bf7eac78bf7eee49bf7f302bbf7f721dbf7fb421bf7ff636bf801c2ebf803d49bf805e6dbf807f9abf80a0cfbf80c20dbf80e353bf8104a3bf8125fbbf81475cbf8168c5bf818a38bf81abb3bf81cd37bf81eec4bf82105abf8231f9bf8253a1bf827552bf82970dbf82b8d0bf82da9cbf82fc71bf831e50bf834038bf836229bf838423bf83a626bf83c833bf83ea49bf840c69bf842e92bf8450c4bf847300bf849545bf84b794bf84d9ecbf84fc4ebf851eb9bf85412ebf8563adbf858636bf85a8c8bf85cb64bf85ee0abf8610b9bf863373bf865636bf867903bf869bdbbf86bebcbf86e1a7bf87049cbf87279cbf874aa5bf876db9bf8790d6bf87b3febf87d731bf87fa6dbf881db4bf884105bf886461bf8887c7bf88ab37bf88ceb2bf88f238bf8915c8bf893962bf895d08bf8980b8bf89a472bf89c838bf89ec08bf8a0fe3bf8a33c8bf8a57b9bf8a7bb5bf8a9fbbbf8ac3cdbf8ae7e9bf8b0c11bf8b3044bf8b5482bf8b78cbbf8b9d1fbf8bc17fbf8be5e9bf8c0a60bf8c2ee1bf8c536ebf8c7807bf8c9cabbf8cc15abf8ce615bf8d0adcbf8d2faebf8d548cbf8d7976bf8d9e6bbf8dc36dbf8de87abf8e0d93bf8e32b8bf8e57e9bf8e7d26bf8ea270bf8ec7c5bf8eed26bf8f1294bf8f380ebf8f5d94bf8f8327bf8fa8c6bf8fce71bf8ff429bf9019edbf903fbebf90659cbf908b86bf90b17dbf90d780bf90fd91bf9123aebf9149d8bf91700fbf919653bf91bca4bf91e302bf92096dbf922fe6bf92566cbf927cffbf92a39fbf92ca4cbf92f107bf9317d0bf933ea6,
  0xbf2cddb9bf2d101dbf2d4287bf2d74f8bf2da770bf2dd9eebf2e0c74bf2e3f00bf2e7193bf2ea42cbf2ed6cdbf2f0974bf2f3c22bf2f6ed7bf2fa193bf2fd456bf300720bf3039f1bf306cc8bf309fa7bf30d28dbf310579bf31386dbf316b67bf319e69bf31d172bf320481bf323798bf326ab6bf329ddbbf32d108bf33043bbf333776bf336ab7bf339e00bf33d150bf3404a8bf343806bf346b6cbf349ed9bf34d24ebf3505c9bf35394dbf356cd7bf35a069bf35d402bf3607a2bf363b4abf366efabf36a2b0bf36d66fbf370a34bf373e02bf3771d6bf37a5b3bf37d996bf380d82bf384175bf38756fbf38a971bf38dd7bbf39118dbf3945a6bf3979c6bf39adefbf39e21fbf3a1657bf3a4a96bf3a7edebf3ab32dbf3ae784bf3b1be3bf3b5049bf3b84b8bf3bb92ebf3bedacbf3c2232bf3c56c1bf3c8b57bf3cbff4bf3cf49abf3d2948bf3d5dfebf3d92bcbf3dc782bf3dfc50bf3e3127bf3e6605bf3e9aebbf3ecfdabf3f04d1bf3f39d0bf3f6ed7bf3fa3e6bf3fd8febf400e1dbf404346bf407876bf40adafbf40e2f0bf411839bf414d8bbf4182e5bf41b848bf41edb3bf422326bf4258a2bf428e26bf42c3b3bf42f949bf432ee7bf43648dbf439a3cbf43cff4bf4405b4bf443b7dbf44714fbf44a72abf44dd0dbf4512f8bf4548edbf457eeabf45b4f0bf45eaffbf462117bf465738bf468d61bf46c394bf46f9cfbf473013bf476660bf479cb6bf47d316bf48097ebf483fefbf487669bf48acedbf48e379bf491a0fbf4950adbf498755bf49be07bf49f4c1bf4a2b84bf4a6251bf4a9927bf4ad007bf4b06efbf4b3de2bf4b74ddbf4babe2bf4be2f0bf4c1a08bf4c5129bf4c8853bf4cbf88bf4cf6c5bf4d2e0cbf4d655dbf4d9cb8bf4dd41cbf4e0b89bf4e4301bf4e7a82bf4eb20cbf4ee9a1bf4f213fbf4f58e7bf4f9099bf4fc854bf50001abf5037e9bf506fc2bf50a7a6bf50df93bf51178abf514f8bbf518796bf51bfabbf51f7cabf522ff4bf526827bf52a065bf52d8adbf5310ffbf53495bbf5381c1bf53ba32bf53f2adbf542b33bf5463c2bf549c5cbf54d501bf550db0bf554669bf557f2dbf55b7fbbf55f0d4bf5629b8bf5662a6bf569b9ebf56d4a2bf570db0bf5746c8bf577fecbf57b91abf57f252bf582b96bf5864e5bf589e3ebf58d7a2bf591111bf594a8bbf598410bf59bda0bf59f73bbf5a30e1bf5a6a93bf5aa44fbf5ade16bf5b17e9bf5b51c6bf5b8bafbf5bc5a3bf5bffa3bf5c39aebf5c73c4bf5cade5bf5ce812bf5d224abf5d5c8ebf5d96ddbf5dd138bf5e0b9ebf5e4610bf5e808dbf5ebb16bf5ef5abbf5f304bbf5f6af7bf5fa5afbf5fe072bf601b41bf60561dbf609104bf60cbf7bf6106f6bf614200bf617d17bf61b83abf61f369bf622ea4bf6269ebbf62a53ebf62e09ebf631c09,
  0xbefa9b4ebefaf5bebefb5035befbaab4befc053bbefc5fcabefcba60befd14ffbefd6fa6befdca54befe250bbefe7fc9befeda8fbeff355ebeff9034beffeb13bf0022fdbf005074bf007defbf00ab6fbf00d8f2bf01067abf013406bf016195bf018f29bf01bcc1bf01ea5dbf0217fdbf0245a2bf02734abf02a0f7bf02cea8bf02fc5dbf032a16bf0357d3bf038595bf03b35abf03e124bf040ef2bf043cc5bf046a9bbf049876bf04c655bf04f439bf052220bf05500cbf057dfdbf05abf1bf05d9eabf0607e7bf0635e9bf0663eebf0691f9bf06c007bf06ee1abf071c31bf074a4dbf07786dbf07a691bf07d4babf0802e7bf083119bf085f4fbf088d8abf08bbc9bf08ea0cbf091854bf0946a1bf0974f2bf09a347bf09d1a1bf0a0000bf0a2e62bf0a5ccabf0a8b36bf0ab9a7bf0ae81cbf0b1696bf0b4514bf0b7397bf0ba21fbf0bd0abbf0bff3cbf0c2dd1bf0c5c6bbf0c8b0abf0cb9adbf0ce855bf0d1702bf0d45b3bf0d746abf0da324bf0dd1e4bf0e00a8bf0e2f71bf0e5e3fbf0e8d12bf0ebbe9bf0eeac5bf0f19a6bf0f488cbf0f7776bf0fa666bf0fd55abf100453bf103351bf106253bf10915bbf10c067bf10ef79bf111e8fbf114daabf117ccabf11abefbf11db19bf120a48bf12397cbf1268b5bf1297f3bf12c736bf12f67dbf1325cabf13551cbf138473bf13b3cfbf13e330bf141296bf144201bf147172bf14a0e7bf14d061bf14ffe1bf152f66bf155ef0bf158e7fbf15be13bf15edacbf161d4bbf164ceebf167c97bf16ac46bf16dbf9bf170bb2bf173b6fbf176b33bf179afbbf17cac9bf17fa9cbf182a74bf185a52bf188a34bf18ba1dbf18ea0abf1919fdbf1949f6bf1979f4bf19a9f7bf19d9ffbf1a0a0dbf1a3a21bf1a6a39bf1a9a58bf1aca7cbf1afaa5bf1b2ad3bf1b5b08bf1b8b41bf1bbb81bf1bebc6bf1c1c10bf1c4c60bf1c7cb5bf1cad10bf1cdd71bf1d0dd7bf1d3e43bf1d6eb4bf1d9f2cbf1dcfa8bf1e002bbf1e30b3bf1e6141bf1e91d4bf1ec26ebf1ef30cbf1f23b1bf1f545cbf1f850cbf1fb5c2bf1fe67dbf20173fbf204806bf2078d4bf20a9a7bf20da7fbf210b5ebf213c43bf216d2dbf219e1ebf21cf14bf220010bf223112bf22621abf229328bf22c43cbf22f556bf232676bf23579cbf2388c8bf23b9fabf23eb33bf241c71bf244db5bf247effbf24b050bf24e1a6bf251303bf254466bf2575cfbf25a73ebf25d8b3bf260a2fbf263bb0bf266d38bf269ec7bf26d05bbf2701f6bf273397bf27653ebf2796ebbf27c89fbf27fa59bf282c1abf285de1bf288faebf28c182bf28f35cbf29253cbf295723bf298910bf29bb04bf29ecfebf2a1effbf2a5106bf2a8314bf2ab528bf2ae743bf2b1964bf2b4b8cbf2b7dbbbf2baff0bf2be22bbf2c146ebf2c46b6bf2c7906bf2cab5c,
  0xbea37919bea3cd83bea421f2bea47665bea4caddbea51f59bea573dabea5c85fbea61ce9bea67177bea6c60abea71aa1bea76f3dbea7c3ddbea81882bea86d2cbea8c1dabea9168dbea96b45bea9c001beaa14c1beaa6987beaabe51beab1320beab67f3beabbcccbeac11a8beac668abeacbb71bead105cbead654cbeadba40beae0f3abeae6438beaeb93bbeaf0e43beaf6350beafb861beb00d78beb06293beb0b7b3beb10cd8beb16202beb1b731beb20c64beb2619dbeb2b6dbbeb30c1dbeb36165beb3b6b1beb40c03beb46159beb4b6b5beb50c16beb5617bbeb5b6e6beb60c55beb661cabeb6b744beb70cc3beb76247beb7b7d0beb80d5fbeb862f2beb8b88bbeb90e28beb963cbbeb9b973beba0f21beba64d3bebaba8bbebb1048bebb660abebbbbd2bebc119ebebc6770bebcbd48bebd1324bebd6906bebdbeeebebe14dabebe6accbebec0c4bebf16c0bebf6cc2bebfc2cabec018d7bec06ee9bec0c501bec11b1ebec17141bec1c769bec21d97bec273cabec2ca03bec32041bec37685bec3cccebec4231dbec47971bec4cfccbec5262bbec57c90bec5d2fbbec6296cbec67fe2bec6d65ebec72cdfbec78366bec7d9f3bec83086bec8871ebec8ddbcbec93460bec98b0abec9e1b9beca386ebeca8f29becae5eabecb3cb1becb937dbecbea4fbecc4127becc9805becceee9becd45d3becd9cc3becdf3b8bece4ab4becea1b6becef8bdbecf4fcbbecfa6debecffdf8bed05517bed0ac3dbed10368bed15a9abed1b1d2bed20910bed26054bed2b79ebed30eeebed36644bed3bda1bed41503bed46c6cbed4c3dbbed51b50bed572ccbed5ca4dbed621d5bed67963bed6d0f8bed72892bed78034bed7d7dbbed82f89bed8873dbed8def7bed936b8bed98e7fbed9e64cbeda3e20beda95fbbedaeddbbedb45c3bedb9db0bedbf5a4bedc4d9fbedca5a0bedcfda8bedd55b6beddadcbbede05e6bede5e08bedeb631bedf0e60bedf6696bedfbed2bee01715bee06f5fbee0c7afbee12006bee17864bee1d0c8bee22934bee281a6bee2da1ebee3329ebee38b24bee3e3b1bee43c45bee494e0bee4ed81bee5462abee59ed9bee5f78fbee6504cbee6a910bee701dbbee75aadbee7b386bee80c66bee8654dbee8be3bbee91730bee9702cbee9c92fbeea2239beea7b4abeead462beeb2d81beeb86a8beebdfd5beec390abeec9246beeceb89beed44d4beed9e25beedf77ebeee50debeeeaa45beef03b4beef5d2abeefb6a7bef0102bbef069b7bef0c34abef11ce5bef17687bef1d030bef229e1bef28399bef2dd59bef33720bef390efbef3eac5bef444a3bef49e88bef4f874bef55269bef5ac64bef60668bef66073bef6ba86bef714a0bef76ec2bef7c8ebbef8231dbef87d56bef8d796bef931dfbef98c2fbef9e687befa40e7,
  0xbe21b87bbe225aedbe22fd63be239fdebe24425cbe24e4debe258765be2629f0be26cc7fbe276f12be2811a9be28b445be2956e5be29f989be2a9c31be2b3edebe2be18fbe2c8445be2d26febe2dc9bcbe2e6c7fbe2f0f46be2fb211be3054e1be30f7b5be319a8ebe323d6bbe32e04dbe338333be34261ebe34c90dbe356c01be360efabe36b1f7be3754f9be37f7ffbe389b0abe393e1abe39e12fbe3a8448be3b2766be3bca88be3c6db0be3d10dcbe3db40dbe3e5743be3efa7ebe3f9dbdbe404101be40e44bbe418799be422aecbe42ce44be4371a1be441503be44b86abe455bd6be45ff47be46a2bdbe474638be47e9b8be488d3ebe4930c8be49d458be4a77ecbe4b1b86be4bbf25be4c62c9be4d0673be4daa22be4e4dd6be4ef18fbe4f954dbe503911be50dcdabe5180a9be52247dbe52c856be536c35be541019be54b402be5557f1be55fbe6be569fdfbe5743dfbe57e7e4be588beebe592ffebe59d414be5a782fbe5b1c50be5bc076be5c64a2be5d08d4be5dad0bbe5e5149be5ef58bbe5f99d4be603e22be60e276be6186d0be622b30be62cf96be637401be641872be64bce9be656167be6605e9be66aa72be674f01be67f396be689831be693cd2be69e179be6a8626be6b2ad8be6bcf92be6c7451be6d1916be6dbde1be6e62b3be6f078bbe6fac69be70514dbe70f637be719b28be72401fbe72e51cbe738a20be742f29be74d43abe757950be761e6dbe76c390be7768babe780deabe78b321be79585ebe79fda2be7aa2ecbe7b483dbe7bed94be7c92f2be7d3856be7dddc1be7e8332be7f28abbe7fce2abe8039d8be808c9ebe80df67be813234be818504be81d7d8be822aafbe827d89be82d067be832349be83762dbe83c916be841c01be846ef0be84c1e3be8514d9be8567d2be85bad0be860dd0be8660d4be86b3dcbe8706e7be8759f6be87ad08be88001ebe885337be88a654be88f975be894c99be899fc1be89f2edbe8a461cbe8a994fbe8aec85be8b3fbfbe8b92fdbe8be63ebe8c3984be8c8cccbe8ce019be8d3369be8d86bebe8dda15be8e2d71be8e80d0be8ed433be8f279abe8f7b05be8fce74be9021e6be90755cbe90c8d6be911c54be916fd6be91c35cbe9216e5be926a72be92be04be931199be936532be93b8cfbe940c70be946015be94b3bebe95076bbe955b1cbe95aed0be960289be965646be96aa07be96fdccbe975195be97a562be97f933be984d08be98a0e1be98f4bebe9948a0be999c85be99f06fbe9a445dbe9a984fbe9aec45be9b403fbe9b943ebe9be840be9c3c47be9c9052be9ce461be9d3875be9d8c8dbe9de0a9be9e34c9be9e88edbe9edd16be9f3143be9f8575be9fd9aabea02de4bea08223bea0d665bea12aacbea17ef8bea1d348bea2279cbea27bf4bea2d051bea324b3,
  0xba206c9abaa06c9cbaf0a2eebb206ca3bb4887d4bb70a309bb8c5f22bba06cc3bbb47a68bbc88811bbdc95c0bbf0a373bc025896bc0c5f76bc16665abc206d41bc2a742cbc347b1bbc3e820fbc488907bc529005bc5c9707bc669e0fbc70a51dbc7aac30bc8259a5bc875d35bc8c60c8bc91645fbc9667f9bc9b6b97bca06f39bca572dfbcaa7689bcaf7a37bcb47de9bcb981a0bcbe855bbcc3891bbcc88ce0bccd90aabcd29479bcd7984cbcdc9c26bce1a004bce6a3e9bceba7d2bcf0abc2bcf5afb8bcfab3b3bcffb7b5bd025ddfbd04dfe6bd0761f0bd09e3febd0c660fbd0ee824bd116a3cbd13ec58bd166e77bd18f09abd1b72c1bd1df4ecbd20771abd22f94dbd257b83bd27fdbebd2a7ffdbd2d023fbd2f8487bd3206d2bd348922bd370b76bd398dcfbd3c102cbd3e928ebd4114f5bd439760bd4619d0bd489c46bd4b1ec0bd4da13fbd5023c3bd52a64cbd5528dabd57ab6ebd5a2e07bd5cb0a5bd5f3349bd61b5f2bd6438a1bd66bb55bd693e0fbd6bc0cfbd6e4395bd70c660bd734932bd75cc09bd784ee7bd7ad1cabd7d54b4bd7fd7a4bd812d4dbd826ecbbd83b04dbd84f1d2bd86335abd8774e5bd88b674bd89f806bd8b399cbd8c7b35bd8dbcd1bd8efe71bd904014bd9181bbbd92c366bd940514bd9546c6bd96887bbd97ca35bd990bf2bd9a4db2bd9b8f77bd9cd13fbd9e130cbd9f54dcbda096b0bda1d888bda31a64bda45c44bda59e28bda6e011bda821fdbda963eebdaaa5e2bdabe7dbbdad29d8bdae6bdabdafade0bdb0efeabdb231f8bdb3740bbdb4b622bdb5f83ebdb73a5fbdb87c83bdb9beadbdbb00dbbdbc430ebdbd8545bdbec781bdc009c2bdc14c07bdc28e51bdc3d0a0bdc512f4bdc6554dbdc797abbdc8da0dbdca1c75bdcb5ee2bdcca153bdcde3cabdcf2646bdd068c7bdd1ab4dbdd2edd9bdd43069bdd572ffbdd6b59abdd7f83bbdd93ae1bdda7d8cbddbc03dbddd02f3bdde45aebddf886fbde0cb36bde20e02bde350d4bde493acbde5d689bde7196cbde85c55bde99f43bdeae237bdec2532bded6832bdeeab37bdefee43bdf13155bdf2746dbdf3b78bbdf4faafbdf63dd9bdf78109bdf8c43fbdfa077bbdfb4abebdfc8e07bdfdd156bdff14acbe002c04be00cdb5be016f6abe021121be02b2dcbe03549abe03f65bbe049820be0539e8be05dbb3be067d82be071f54be07c12abe086302be0904dfbe09a6bebe0a48a1be0aea88be0b8c72be0c2e5fbe0cd050be0d7245be0e143dbe0eb638be0f5838be0ffa3abe109c41be113e4bbe11e058be12826abe13247ebe13c697be1468b3be150ad3be15acf7be164f1fbe16f14abe179379be1835acbe18d7e3be197a1dbe1a1c5cbe1abe9ebe1b60e4be1c032ebe1ca57cbe1d47cebe1dea24be1e8c7ebe1f2edcbe1fd13ebe2073a3be21160d] ++
  [0x3e2073a33e1fd13e3e1f2edc3e1e8c7e3e1dea243e1d47ce3e1ca57c3e1c032e3e1b60e43e1abe9e3e1a1c5c3e197a1d3e18d7e33e1835ac3e1793793e16f14a3e164f1f3e15acf73e150ad33e1468b33e13c6973e13247e3e12826a3e11e0583e113e4b3e109c413e0ffa3a3e0f58383e0eb6383e0e143d3e0d72453e0cd0503e0c2e5f3e0b8c723e0aea883e0a48a13e09a6be3e0904df3e0863023e07c12a3e071f543e067d823e05dbb33e0539e83e0498203e03f65b3e03549a3e02b2dc3e0211213e016f6a3e00cdb53e002c043dff14ac3dfdd1563dfc8e073dfb4abe3dfa077b3df8c43f3df781093df63dd93df4faaf3df3b78b3df2746d3df131553defee433deeab373ded68323dec25323deae2373de99f433de85c553de7196c3de5d6893de493ac3de350d43de20e023de0cb363ddf886f3dde45ae3ddd02f33ddbc03d3dda7d8c3dd93ae13dd7f83b3dd6b59a3dd572ff3dd430693dd2edd93dd1ab4d3dd068c73dcf26463dcde3ca3dcca1533dcb5ee23dca1c753dc8da0d3dc797ab3dc6554d3dc512f43dc3d0a03dc28e513dc14c073dc009c23dbec7813dbd85453dbc430e3dbb00db3db9bead3db87c833db73a5f3db5f83e3db4b6223db3740b3db231f83db0efea3dafade03dae6bda3dad29d83dabe7db3daaa5e23da963ee3da821fd3da6e0113da59e283da45c443da31a643da1d8883da096b03d9f54dc3d9e130c3d9cd13f3d9b8f773d9a4db23d990bf23d97ca353d96887b3d9546c63d9405143d92c3663d9181bb3d9040143d8efe713d8dbcd13d8c7b353d8b399c3d89f8063d88b6743d8774e53d86335a3d84f1d23d83b04d3d826ecb3d812d4d3d7fd7a43d7d54b43d7ad1ca3d784ee73d75cc093d7349323d70c6603d6e43953d6bc0cf3d693e0f3d66bb553d6438a13d61b5f23d5f33493d5cb0a53d5a2e073d57ab6e3d5528da3d52a64c3d5023c33d4da13f3d4b1ec03d489c463d4619d03d4397603d4114f53d3e928e3d3c102c3d398dcf3d370b763d3489223d3206d23d2f84873d2d023f3d2a7ffd3d27fdbe3d257b833d22f94d3d20771a3d1df4ec3d1b72c13d18f09a3d166e773d13ec583d116a3c3d0ee8243d0c660f3d09e3fe3d0761f03d04dfe63d025ddf3cffb7b53cfab3b33cf5afb83cf0abc23ceba7d23ce6a3e93ce1a0043cdc9c263cd7984c3cd294793ccd90aa3cc88ce03cc3891b3cbe855b3cb981a03cb47de93caf7a373caa76893ca572df3ca06f393c9b6b973c9667f93c91645f3c8c60c83c875d353c8259a53c7aac303c70a51d3c669e0f3c5c97073c5290053c4889073c3e820f3c347b1b3c2a742c3c206d413c16665a3c0c5f763c0258963bf0a3733bdc95c03bc888113bb47a683ba06cc33b8c5f223b70a3093b4887d43b206ca33af0a2ee3aa06c9c3a206c9a00000000,
  0x3ea2d0513ea27bf43ea2279c3ea1d3483ea17ef83ea12aac3ea0d6653ea082233ea02de43e9fd9aa3e9f85753e9f31433e9edd163e9e88ed3e9e34c93e9de0a93e9d8c8d3e9d38753e9ce4613e9c90523e9c3c473e9be8403e9b943e3e9b403f3e9aec453e9a984f3e9a445d3e99f06f3e999c853e9948a03e98f4be3e98a0e13e984d083e97f9333e97a5623e9751953e96fdcc3e96aa073e9656463e9602893e95aed03e955b1c3e95076b3e94b3be3e9460153e940c703e93b8cf3e9365323e9311993e92be043e926a723e9216e53e91c35c3e916fd63e911c543e90c8d63e90755c3e9021e63e8fce743e8f7b053e8f279a3e8ed4333e8e80d03e8e2d713e8dda153e8d86be3e8d33693e8ce0193e8c8ccc3e8c39843e8be63e3e8b92fd3e8b3fbf3e8aec853e8a994f3e8a461c3e89f2ed3e899fc13e894c993e88f9753e88a6543e8853373e88001e3e87ad083e8759f63e8706e73e86b3dc3e8660d43e860dd03e85bad03e8567d23e8514d93e84c1e33e846ef03e841c013e83c9163e83762d3e8323493e82d0673e827d893e822aaf3e81d7d83e8185043e8132343e80df673e808c9e3e8039d83e7fce2a3e7f28ab3e7e83323e7dddc13e7d38563e7c92f23e7bed943e7b483d3e7aa2ec3e79fda23e79585e3e78b3213e780dea3e7768ba3e76c3903e761e6d3e7579503e74d43a3e742f293e738a203e72e51c3e72401f3e719b283e70f6373e70514d3e6fac693e6f078b3e6e62b33e6dbde13e6d19163e6c74513e6bcf923e6b2ad83e6a86263e69e1793e693cd23e6898313e67f3963e674f013e66aa723e6605e93e6561673e64bce93e6418723e6374013e62cf963e622b303e6186d03e60e2763e603e223e5f99d43e5ef58b3e5e51493e5dad0b3e5d08d43e5c64a23e5bc0763e5b1c503e5a782f3e59d4143e592ffe3e588bee3e57e7e43e5743df3e569fdf3e55fbe63e5557f13e54b4023e5410193e536c353e52c8563e52247d3e5180a93e50dcda3e5039113e4f954d3e4ef18f3e4e4dd63e4daa223e4d06733e4c62c93e4bbf253e4b1b863e4a77ec3e49d4583e4930c83e488d3e3e47e9b83e4746383e46a2bd3e45ff473e455bd63e44b86a3e4415033e4371a13e42ce443e422aec3e4187993e40e44b3e4041013e3f9dbd3e3efa7e3e3e57433e3db40d3e3d10dc3e3c6db03e3bca883e3b27663e3a84483e39e12f3e393e1a3e389b0a3e37f7ff3e3754f93e36b1f73e360efa3e356c013e34c90d3e34261e3e3383333e32e04d3e323d6b3e319a8e3e30f7b53e3054e13e2fb2113e2f0f463e2e6c7f3e2dc9bc3e2d26fe3e2c84453e2be18f3e2b3ede3e2a9c313e29f9893e2956e53e28b4453e2811a93e276f123e26cc7f3e2629f03e2587653e24e4de3e24425c3e239fde3e22fd633e225aed3e21b87b3e21160d,
  0x3ef9e6873ef98c2f3ef931df3ef8d7963ef87d563ef8231d3ef7c8eb3ef76ec23ef714a03ef6ba863ef660733ef606683ef5ac643ef552693ef4f8743ef49e883ef444a33ef3eac53ef390ef3ef337203ef2dd593ef283993ef229e13ef1d0303ef176873ef11ce53ef0c34a3ef069b73ef0102b3eefb6a73eef5d2a3eef03b43eeeaa453eee50de3eedf77e3eed9e253eed44d43eeceb893eec92463eec390a3eebdfd53eeb86a83eeb2d813eead4623eea7b4a3eea22393ee9c92f3ee9702c3ee917303ee8be3b3ee8654d3ee80c663ee7b3863ee75aad3ee701db3ee6a9103ee6504c3ee5f78f3ee59ed93ee5462a3ee4ed813ee494e03ee43c453ee3e3b13ee38b243ee3329e3ee2da1e3ee281a63ee229343ee1d0c83ee178643ee120063ee0c7af3ee06f5f3ee017153edfbed23edf66963edf0e603edeb6313ede5e083ede05e63eddadcb3edd55b63edcfda83edca5a03edc4d9f3edbf5a43edb9db03edb45c33edaeddb3eda95fb3eda3e203ed9e64c3ed98e7f3ed936b83ed8def73ed8873d3ed82f893ed7d7db3ed780343ed728923ed6d0f83ed679633ed621d53ed5ca4d3ed572cc3ed51b503ed4c3db3ed46c6c3ed415033ed3bda13ed366443ed30eee3ed2b79e3ed260543ed209103ed1b1d23ed15a9a3ed103683ed0ac3d3ed055173ecffdf83ecfa6de3ecf4fcb3ecef8bd3ecea1b63ece4ab43ecdf3b83ecd9cc33ecd45d33ecceee93ecc98053ecc41273ecbea4f3ecb937d3ecb3cb13ecae5ea3eca8f293eca386e3ec9e1b93ec98b0a3ec934603ec8ddbc3ec8871e3ec830863ec7d9f33ec783663ec72cdf3ec6d65e3ec67fe23ec6296c3ec5d2fb3ec57c903ec5262b3ec4cfcc3ec479713ec4231d3ec3ccce3ec376853ec320413ec2ca033ec273ca3ec21d973ec1c7693ec171413ec11b1e3ec0c5013ec06ee93ec018d73ebfc2ca3ebf6cc23ebf16c03ebec0c43ebe6acc3ebe14da3ebdbeee3ebd69063ebd13243ebcbd483ebc67703ebc119e3ebbbbd23ebb660a3ebb10483ebaba8b3eba64d33eba0f213eb9b9733eb963cb3eb90e283eb8b88b3eb862f23eb80d5f3eb7b7d03eb762473eb70cc33eb6b7443eb661ca3eb60c553eb5b6e63eb5617b3eb50c163eb4b6b53eb461593eb40c033eb3b6b13eb361653eb30c1d3eb2b6db3eb2619d3eb20c643eb1b7313eb162023eb10cd83eb0b7b33eb062933eb00d783eafb8613eaf63503eaf0e433eaeb93b3eae64383eae0f3a3eadba403ead654c3ead105c3eacbb713eac668a3eac11a83eabbccc3eab67f33eab13203eaabe513eaa69873eaa14c13ea9c0013ea96b453ea9168d3ea8c1da3ea86d2c3ea818823ea7c3dd3ea76f3d3ea71aa13ea6c60a3ea671773ea61ce93ea5c85f3ea573da3ea51f593ea4cadd3ea476653ea421f23ea3cd833ea379193ea324b3,
  0x3f2c79063f2c46b63f2c146e3f2be22b3f2baff03f2b7dbb3f2b4b8c3f2b19643f2ae7433f2ab5283f2a83143f2a51063f2a1eff3f29ecfe3f29bb043f2989103f2957233f29253c3f28f35c3f28c1823f288fae3f285de13f282c1a3f27fa593f27c89f3f2796eb3f27653e3f2733973f2701f63f26d05b3f269ec73f266d383f263bb03f260a2f3f25d8b33f25a73e3f2575cf3f2544663f2513033f24e1a63f24b0503f247eff3f244db53f241c713f23eb333f23b9fa3f2388c83f23579c3f2326763f22f5563f22c43c3f2293283f22621a3f2231123f2200103f21cf143f219e1e3f216d2d3f213c433f210b5e3f20da7f3f20a9a73f2078d43f2048063f20173f3f1fe67d3f1fb5c23f1f850c3f1f545c3f1f23b13f1ef30c3f1ec26e3f1e91d43f1e61413f1e30b33f1e002b3f1dcfa83f1d9f2c3f1d6eb43f1d3e433f1d0dd73f1cdd713f1cad103f1c7cb53f1c4c603f1c1c103f1bebc63f1bbb813f1b8b413f1b5b083f1b2ad33f1afaa53f1aca7c3f1a9a583f1a6a393f1a3a213f1a0a0d3f19d9ff3f19a9f73f1979f43f1949f63f1919fd3f18ea0a3f18ba1d3f188a343f185a523f182a743f17fa9c3f17cac93f179afb3f176b333f173b6f3f170bb23f16dbf93f16ac463f167c973f164cee3f161d4b3f15edac3f15be133f158e7f3f155ef03f152f663f14ffe13f14d0613f14a0e73f1471723f1442013f1412963f13e3303f13b3cf3f1384733f13551c3f1325ca3f12f67d3f12c7363f1297f33f1268b53f12397c3f120a483f11db193f11abef3f117cca3f114daa3f111e8f3f10ef793f10c0673f10915b3f1062533f1033513f1004533f0fd55a3f0fa6663f0f77763f0f488c3f0f19a63f0eeac53f0ebbe93f0e8d123f0e5e3f3f0e2f713f0e00a83f0dd1e43f0da3243f0d746a3f0d45b33f0d17023f0ce8553f0cb9ad3f0c8b0a3f0c5c6b3f0c2dd13f0bff3c3f0bd0ab3f0ba21f3f0b73973f0b45143f0b16963f0ae81c3f0ab9a73f0a8b363f0a5cca3f0a2e623f0a00003f09d1a13f09a3473f0974f23f0946a13f0918543f08ea0c3f08bbc93f088d8a3f085f4f3f0831193f0802e73f07d4ba3f07a6913f07786d3f074a4d3f071c313f06ee1a3f06c0073f0691f93f0663ee3f0635e93f0607e73f05d9ea3f05abf13f057dfd3f05500c3f0522203f04f4393f04c6553f0498763f046a9b3f043cc53f040ef23f03e1243f03b35a3f0385953f0357d33f032a163f02fc5d3f02cea83f02a0f73f02734a3f0245a23f0217fd3f01ea5d3f01bcc13f018f293f0161953f0134063f01067a3f00d8f23f00ab6f3f007def3f0050743f0022fd3effeb133eff90343eff355e3efeda8f3efe7fc93efe250b3efdca543efd6fa63efd14ff3efcba603efc5fca3efc053b3efbaab43efb50353efaf5be3efa9b4e3efa40e7,
  0x3f62e09e3f62a53e3f6269eb3f622ea43f61f3693f61b83a3f617d173f6142003f6106f63f60cbf73f6091043f60561d3f601b413f5fe0723f5fa5af3f5f6af73f5f304b3f5ef5ab3f5ebb163f5e808d3f5e46103f5e0b9e3f5dd1383f5d96dd3f5d5c8e3f5d224a3f5ce8123f5cade53f5c73c43f5c39ae3f5bffa33f5bc5a33f5b8baf3f5b51c63f5b17e93f5ade163f5aa44f3f5a6a933f5a30e13f59f73b3f59bda03f5984103f594a8b3f5911113f58d7a23f589e3e3f5864e53f582b963f57f2523f57b91a3f577fec3f5746c83f570db03f56d4a23f569b9e3f5662a63f5629b83f55f0d43f55b7fb3f557f2d3f5546693f550db03f54d5013f549c5c3f5463c23f542b333f53f2ad3f53ba323f5381c13f53495b3f5310ff3f52d8ad3f52a0653f5268273f522ff43f51f7ca3f51bfab3f5187963f514f8b3f51178a3f50df933f50a7a63f506fc23f5037e93f50001a3f4fc8543f4f90993f4f58e73f4f213f3f4ee9a13f4eb20c3f4e7a823f4e43013f4e0b893f4dd41c3f4d9cb83f4d655d3f4d2e0c3f4cf6c53f4cbf883f4c88533f4c51293f4c1a083f4be2f03f4babe23f4b74dd3f4b3de23f4b06ef3f4ad0073f4a99273f4a62513f4a2b843f49f4c13f49be073f4987553f4950ad3f491a0f3f48e3793f48aced3f4876693f483fef3f48097e3f47d3163f479cb63f4766603f4730133f46f9cf3f46c3943f468d613f4657383f4621173f45eaff3f45b4f03f457eea3f4548ed3f4512f83f44dd0d3f44a72a3f44714f3f443b7d3f4405b43f43cff43f439a3c3f43648d3f432ee73f42f9493f42c3b33f428e263f4258a23f4223263f41edb33f41b8483f4182e53f414d8b3f4118393f40e2f03f40adaf3f4078763f4043463f400e1d3f3fd8fe3f3fa3e63f3f6ed73f3f39d03f3f04d13f3ecfda3f3e9aeb3f3e66053f3e31273f3dfc503f3dc7823f3d92bc3f3d5dfe3f3d29483f3cf49a3f3cbff43f3c8b573f3c56c13f3c22323f3bedac3f3bb92e3f3b84b83f3b50493f3b1be33f3ae7843f3ab32d3f3a7ede3f3a4a963f3a16573f39e21f3f39adef3f3979c63f3945a63f39118d3f38dd7b3f38a9713f38756f3f3841753f380d823f37d9963f37a5b33f3771d63f373e023f370a343f36d66f3f36a2b03f366efa3f363b4a3f3607a23f35d4023f35a0693f356cd73f35394d3f3505c93f34d24e3f349ed93f346b6c3f3438063f3404a83f33d1503f339e003f336ab73f3337763f33043b3f32d1083f329ddb3f326ab63f3237983f3204813f31d1723f319e693f316b673f31386d3f3105793f30d28d3f309fa73f306cc83f3039f13f3007203f2fd4563f2fa1933f2f6ed73f2f3c223f2f09743f2ed6cd3f2ea42c3f2e71933f2e3f003f2e0c743f2dd9ee3f2da7703f2d74f83f2d42873f2d101d3f2cddb93f2cab5c,
  0x3f9317d03f92f1073f92ca4c3f92a39f3f927cff3f92566c3f922fe63f92096d3f91e3023f91bca43f9196533f91700f3f9149d83f9123ae3f90fd913f90d7803f90b17d3f908b863f90659c3f903fbe3f9019ed3f8ff4293f8fce713f8fa8c63f8f83273f8f5d943f8f380e3f8f12943f8eed263f8ec7c53f8ea2703f8e7d263f8e57e93f8e32b83f8e0d933f8de87a3f8dc36d3f8d9e6b3f8d79763f8d548c3f8d2fae3f8d0adc3f8ce6153f8cc15a3f8c9cab3f8c78073f8c536e3f8c2ee13f8c0a603f8be5e93f8bc17f3f8b9d1f3f8b78cb3f8b54823f8b30443f8b0c113f8ae7e93f8ac3cd3f8a9fbb3f8a7bb53f8a57b93f8a33c83f8a0fe33f89ec083f89c8383f89a4723f8980b83f895d083f8939623f8915c83f88f2383f88ceb23f88ab373f8887c73f8864613f8841053f881db43f87fa6d3f87d7313f87b3fe3f8790d63f876db93f874aa53f87279c3f87049c3f86e1a73f86bebc3f869bdb3f8679033f8656363f8633733f8610b93f85ee0a3f85cb643f85a8c83f8586363f8563ad3f85412e3f851eb93f84fc4e3f84d9ec3f84b7943f8495453f8473003f8450c43f842e923f840c693f83ea493f83c8333f83a6263f8384233f8362293f8340383f831e503f82fc713f82da9c3f82b8d03f82970d3f8275523f8253a13f8231f93f82105a3f81eec43f81cd373f81abb33f818a383f8168c53f81475c3f8125fb3f8104a33f80e3533f80c20d3f80a0cf3f807f9a3f805e6d3f803d493f801c2e3f7ff6363f7fb4213f7f721d3f7f302b3f7eee493f7eac783f7e6ab83f7e29093f7de76a3f7da5dc3f7d645f3f7d22f33f7ce1963f7ca04b3f7c5f0f3f7c1de43f7bdcca3f7b9bc03f7b5ac53f7b19db3f7ad9023f7a98383f7a577e3f7a16d53f79d63b3f7995b13f7955373f7914cd3f78d4723f7894283f7853ed3f7813c13f77d3a53f7793993f77539c3f7713af3f76d3d03f7694023f7654423f7614923f75d4f13f7595603f7555dd3f7516693f74d7053f7497af3f7458693f7419313f73da093f739aef3f735be43f731ce73f72ddf93f729f1a3f72604a3f7221883f71e2d53f71a4303f71659a3f7127123f70e8983f70aa2d3f706bd03f702d823f6fef413f6fb10f3f6f72eb3f6f34d53f6ef6cd3f6eb8d33f6e7ae73f6e3d093f6dff393f6dc1763f6d83c23f6d461b3f6d08823f6ccaf73f6c8d7a3f6c500a3f6c12a73f6bd5533f6b980c3f6b5ad23f6b1da63f6ae0873f6aa3753f6a66713f6a297a3f69ec913f69afb43f6972e53f6936233f68f96e3f68bcc73f68802c3f68439e3f68071e3f67caaa3f678e433f6751e93f67159c3f66d95c3f669d283f6661013f6624e73f65e8da3f65acd93f6570e53f6534fd3f64f9223f64bd543f6481923f6445dc3f640a333f63ce963f6393063f6357813f631c09,
  0x3fc41d1d3fc3dc5c3fc39bcd3fc35b6f3fc31b433fc2db483fc29b7d3fc25be33fc21c783fc1dd3d3fc19e313fc15f543fc120a53fc0e2253fc0a3d23fc065ad3fc027b63fbfe9eb3fbfac4c3fbf6eda3fbf31943fbef47a3fbeb78b3fbe7ac73fbe3e2e3fbe01c03fbdc57b3fbd89613fbd4d713fbd11a93fbcd60b3fbc9a963fbc5f493fbc24253fbbe9293fbbae543fbb73a73fbb39223fbafec33fbac48b3fba8a7a3fba508f3fba16ca3fb9dd2b3fb9a3b13fb96a5d3fb9312e3fb8f8233fb8bf3e3fb8867d3fb84ddf3fb815663fb7dd113fb7a4df3fb76cd13fb734e53fb6fd1d3fb6c5773fb68df43fb656923fb61f533fb5e8363fb5b13b3fb57a603fb543a83fb50d103fb4d6993fb4a0423fb46a0c3fb433f73fb3fe013fb3c82c3fb392763fb35ce03fb327693fb2f2113fb2bcd83fb287bf3fb252c33fb21de73fb1e9283fb1b4883fb180053fb14ba13fb1175a3fb0e3313fb0af243fb07b363fb047643fb013ae3fafe0163fafac9a3faf793a3faf45f73faf12d03faedfc43faeacd53fae7a013fae47483fae14ab3fade2283fadafc13fad7d753fad4b433fad192d3face7303facb54e3fac83863fac51d83fac20443fabeeca3fabbd693fab8c223fab5af43fab29e03faaf8e43faac8023faa97383faa66873faa35ef3faa05703fa9d5083fa9a4b93fa974823fa944633fa9145c3fa8e46c3fa8b4953fa884d53fa8552c3fa8259a3fa7f6203fa7c6bd3fa797703fa7683b3fa7391c3fa70a143fa6db223fa6ac473fa67d823fa64ed33fa6203b3fa5f1b83fa5c34b3fa594f43fa566b33fa538873fa50a713fa4dc703fa4ae843fa480ad3fa452ec3fa4253f3fa3f7a83fa3ca253fa39cb63fa36f5d3fa342173fa314e73fa2e7ca3fa2bac23fa28dcd3fa260ed3fa234213fa207683fa1dac43fa1ae333fa181b53fa1554b3fa128f43fa0fcb13fa0d0813fa0a4643fa0785a3fa04c633fa0207f3f9ff4ae3f9fc8ef3f9f9d433f9f71aa3f9f46233f9f1aae3f9eef4c3f9ec3fc3f9e98be3f9e6d933f9e42793f9e17713f9dec7b3f9dc1973f9d96c43f9d6c033f9d41543f9d16b63f9cec293f9cc1ae3f9c97443f9c6ceb3f9c42a33f9c186c3f9bee463f9bc4313f9b9a2d3f9b703a3f9b46573f9b1c853f9af2c43f9ac9123f9a9f723f9a75e13f9a4c613f9a22f13f99f9913f99d0423f99a7023f997dd23f9954b23f992ba23f9902a23f98d9b13f98b0d03f9887fe3f985f3c3f98368a3f980de63f97e5523f97bcce3f9794583f976bf23f97439a3f971b523f96f3183f96caee3f96a2d23f967ac53f9652c73f962ad83f9602f73f95db243f95b3603f958bab3f9564033f953c6b3f9514e03f94ed643f94c5f63f949e953f9477433f944fff3f9428c93f9401a13f93da863f93b37a3f938c7b3f93658a3f933ea6,
  0x405f2cb740530537404b9eac404639a84041f3e3403e66bd403b5ab44038ae3e40364b844034237840322b4940305aea402eac34402d1a57402ba17e402a3e8c4028eef24027b0914026819e4025609440244c244023432f402244b940214fe9402063fb401f8045401ea42f401dcf31401d00d0401c38a0401b763b401ab949401a017840194e7b4018a00f4017f5f440174ff14016add140160f61401574754014dce2401448804013b72b401328c040129d204012142d40118dc9401109dc4010884c40100902400f8be8400f10ea400e97f3400e20f1400dabd2400d3887400cc6ff400c572c400be8ff400b7c6a400b1161400aa7d8400a3fc24009d915400973c740090fcc4008ad1b40084bab4007eb7340078c6b40072e8a4006d1c84006761e40061b854005c1f640056969400511d94004bb3f40046596400410d74003bcfe40036a04400317e54002c69b40027623400226764001d7924001897040013c0e4000ef674000a3784000583b40000daf3fff879d3ffef52e3ffe64093ffdd4293ffd45873ffcb81c3ffc2be43ffba0d73ffb16f13ffa8e2c3ffa06833ff97ff03ff8fa6f3ff875fb3ff7f28e3ff770253ff6eebb3ff66e4c3ff5eed23ff5704b3ff4f2b23ff476033ff3fa3a3ff37f543ff3054d3ff28c213ff213cd3ff19c4d3ff1259f3ff0afbe3ff03aa83fefc65a3fef52d03feee0083fee6dff3fedfcb23fed8c1f3fed1c423fecad193fec3ea13febd0d83feb63bb3feaf7493fea8b7e3fea20593fe9b5d63fe94bf53fe8e2b23fe87a0c3fe812003fe7aa8d3fe743b03fe6dd673fe677b23fe6128d3fe5adf63fe549ed3fe4e66f3fe4837b3fe4210f3fe3bf293fe35dc73fe2fce83fe29c8a3fe23cad3fe1dd4d3fe17e6a3fe120033fe0c2153fe064a03fe007a23fdfab1a3fdf4f053fdef3643fde98353fde3d763fdde3263fdd89443fdd2fcf3fdcd6c53fdc7e263fdc25f03fdbce223fdb76ba3fdb1fb93fdac91d3fda72e43fda1d0e3fd9c79a3fd972863fd91dd23fd8c97c3fd875843fd821e93fd7ceaa3fd77bc63fd7293c3fd6d70a3fd685313fd633b03fd5e2853fd591af3fd5412e3fd4f1023fd4a1283fd451a13fd4026c3fd3b3873fd364f33fd316ad3fd2c8b73fd27b0e3fd22db33fd1e0a43fd193e13fd147693fd0fb3b3fd0af573fd063bc3fd0186a3fcfcd5f3fcf829c3fcf381f3fceede83fcea3f63fce5a493fce10e03fcdc7bb3fcd7ed83fcd36383fccedda3fcca5bd3fcc5de13fcc16453fcbcee93fcb87cb3fcb40ed3fcafa4c3fcab3e93fca6dc43fca27da3fc9e22d3fc99cbc3fc957853fc9128a3fc8cdc83fc889403fc844f23fc800dc3fc7bcff3fc7795a3fc735ec3fc6f2b63fc6afb63fc66cec3fc62a583fc5e7fa3fc5a5d13fc563dc3fc5221c3fc4e08f3fc49f363fc45e10]

/-- R420, NORM lower side level 1: entry j for j = 0 to 4,096. -/
def norm1 : List Nat :=
  [0xc085746bc0857bc1c085831dc0858a81c08591ecc085995ec085a0d7c085a858c085afe0c085b76fc085bf06c085c6a5c085ce4bc085d5f9c085ddaec085e56cc085ed31c085f4fec085fcd3c08604b0c0860c95c0861483c0861c79c0862477c0862c7dc086348cc0863ca4c08644c4c0864cedc086551ec0865d59c086659cc0866de8c086763ec0867e9cc0868704c0868f75c08697f0c086a074c086a901c086b199c086ba3ac086c2e5c086cb99c086d458c086dd21c086e5f4c086eed2c086f7bac08700acc08709a9c08712b1c0871bc3c08724e0c0872e09c087373cc087407bc08749c5c087531bc0875c7cc08765e9c0876f61c08778e6c0878276c0878c13c08795bcc0879f72c087a934c087b302c087bcdec087c6c6c087d0bcc087dabfc087e4cfc087eeecc087f918c0880351c0880d98c08817edc0882250c0882cc2c0883743c08841d2c0884c70c088571dc08861d9c0886ca5c0887781c088826cc0888d67c0889873c088a38fc088aebbc088b9f8c088c546c088d0a6c088dc16c088e798c088f32dc088fed3c0890a8bc0891656c0892234c0892e24c0893a28c089463fc089526ac0895ea9c0896afcc0897764c08983e1c0899072c0899d19c089a9d6c089b6a8c089c391c089d091c089dda7c089ead5c089f81ac08a0577c08a12ecc08a207ac08a2e20c08a3be0c08a49bac08a57aec08a65bdc08a73e6c08a822bc08a908bc08a9f07c08aada1c08abc57c08acb2bc08ada1dc08ae92dc08af85cc08b07abc08b171ac08b26aac08b365bc08b462ec08b5623c08b663ac08b7676c08b86d6c08b975ac08ba804c08bb8d4c08bc9cbc08bdaeac08bec31c08bfda2c08c0f3cc08c2101c08c32f2c08c450fc08c575ac08c69d3c08c7c7bc08c8f54c08ca25dc08cb599c08cc909c08cdcacc08cf086c08d0496c08d18dfc08d2d60c08d421cc08d5715c08d6c4ac08d81bfc08d9774c08dad6ac08dc3a5c08dda24c08df0ebc08e07fac08e1f54c08e36fbc08e4ef0c08e6736c08e7fcfc08e98bec08eb204c08ecba5c08ee5a2c08effffc08f1abfc08f35e4c08f5172c08f6d6bc08f89d4c08fa6b0c08fc402c08fe1cfc090001bc0901eebc0903e42c0905e26c0907e9cc0909fa9c090c154c090e3a1c0910699c0912a41c0914ea1c09173c0c09199a8c091c060c091e7f2c0921069c09239cec092642ec0928f94c092bc10c092e9adc093187ec0934891c09379fac093accdc093e120c094170ac0944ea5c094880fc094c367c09500d1c0954073c095827ac095c717c0960e80c09658f5c096a6bbc096f826c0974d92c097a76dc0980635c0986a81c098d504c0994694c099c03ac09a4339c09ad12bc09b6c1dc09c16bfc09cd4b3c09dab0bc09ea12dc09fc282c0a1220cc0a2e32cc0a5549cc0a96e3700000000,
  0xc0804ba6c0804f70c080533cc080570ac0805ad9c0805eaac080627ec0806653c0806a29c0806e02c08071ddc08075b9c0807998c0807d78c080815ac080853ec0808924c0808d0cc08090f5c08094e1c08098cec0809cbec080a0afc080a4a3c080a898c080ac90c080b089c080b484c080b882c080bc81c080c082c080c486c080c88bc080cc93c080d09cc080d4a8c080d8b5c080dcc5c080e0d7c080e4eac080e900c080ed18c080f133c080f54fc080f96dc080fd8ec08101b1c08105d5c08109fcc0810e26c0811251c081167fc0811aaec0811ee0c0812315c081274bc0812b84c0812fbfc08133fcc081383bc0813c7dc08140c1c0814508c0814950c0814d9bc08151e9c0815638c0815a8ac0815edfc0816336c081678fc0816beac0817048c08174a9c081790bc0817d71c08181d8c0818642c0818aafc0818f1ec0819390c0819804c0819c7ac081a0f4c081a56fc081a9edc081ae6ec081b2f2c081b778c081bc00c081c08bc081c519c081c9a9c081ce3cc081d2d2c081d76bc081dc06c081e0a3c081e544c081e9e7c081ee8dc081f336c081f7e1c081fc8fc0820140c08205f4c0820aabc0820f64c0821420c08218e0c0821da2c0822266c082272ec0822bf9c08230c7c0823597c0823a6bc0823f41c082441bc08248f7c0824dd7c08252b9c082579fc0825c87c0826173c0826662c0826b54c0827049c0827541c0827a3cc0827f3bc082843cc0828941c0828e49c0829354c0829863c0829d75c082a28ac082a7a2c082acbec082b1ddc082b700c082bc26c082c14fc082c67bc082cbabc082d0dfc082d616c082db50c082e08ec082e5d0c082eb15c082f05dc082f5a9c082faf9c083004dc08305a4c0830afec083105dc08315bfc0831b24c083208ec08325fbc0832b6cc08330e1c083365ac0833bd6c0834157c08346dbc0834c63c08351efc083577fc0835d13c08362abc0836847c0836de8c083738cc0837934c0837ee1c0838491c0838a46c0838fffc08395bcc0839b7dc083a143c083a70dc083acdbc083b2aec083b885c083be60c083c440c083ca24c083d00dc083d5fac083dbecc083e1e3c083e7dec083edddc083f3e1c083f9eac083fff8c084060ac0840c22c084123dc084185ec0841e84c08424aec0842adec0843112c084374cc0843d8ac08443cdc0844a16c0845063c08456b6c0845d0ec084636bc08469cec0847036c08476a3c0847d15c084838dc0848a0ac084908dc0849715c0849da3c084a436c084aacfc084b16ec084b812c084bebcc084c56cc084cc22c084d2ddc084d99ec084e066c084e733c084ee06c084f4e0c084fbbfc08502a5c0850991c0851083c085177cc0851e7ac085257fc0852c8bc085339dc0853ab6c08541d5c08548fbc0855027c085575ac0855e94c08565d5c0856d1d,
  0xc07a6298c07a67c1c07a6cebc07a7218c07a7745c07a7c75c07a81a6c07a86d9c07a8c0ec07a9144c07a967cc07a9bb5c07aa0f1c07aa62dc07aab6cc07ab0acc07ab5eec07abb32c07ac077c07ac5bec07acb07c07ad051c07ad59ec07adaebc07ae03bc07ae58cc07aeadfc07af034c07af58bc07afae3c07b003dc07b0599c07b0af7c07b1056c07b15b7c07b1b1ac07b207fc07b25e5c07b2b4dc07b30b7c07b3623c07b3b91c07b4100c07b4672c07b4be5c07b515ac07b56d0c07b5c49c07b61c4c07b6740c07b6cbec07b723ec07b77c0c07b7d43c07b82c9c07b8850c07b8ddac07b9365c07b98f2c07b9e81c07ba412c07ba9a5c07baf39c07bb4d0c07bba69c07bc003c07bc59fc07bcb3ec07bd0dec07bd680c07bdc25c07be1cbc07be773c07bed1dc07bf2c9c07bf877c07bfe27c07c03d9c07c098dc07c0f43c07c14fbc07c1ab5c07c2071c07c262fc07c2bf0c07c31b2c07c3776c07c3d3cc07c4304c07c48cfc07c4e9bc07c546ac07c5a3ac07c600dc07c65e2c07c6bb9c07c7192c07c776dc07c7d4ac07c8329c07c890bc07c8eefc07c94d4c07c9abcc07ca0a6c07ca692c07cac81c07cb271c07cb864c07cbe59c07cc450c07cca49c07cd045c07cd643c07cdc43c07ce245c07ce849c07cee50c07cf459c07cfa64c07d0071c07d0681c07d0c93c07d12a7c07d18bec07d1ed6c07d24f1c07d2b0fc07d312fc07d3751c07d3d75c07d439cc07d49c5c07d4ff0c07d561ec07d5c4ec07d6280c07d68b5c07d6eedc07d7526c07d7b62c07d81a1c07d87e2c07d8e25c07d946bc07d9ab3c07da0fdc07da74ac07dad9ac07db3ecc07dba40c07dc097c07dc6f1c07dcd4dc07dd3abc07dda0cc07de070c07de6d6c07ded3fc07df3aac07dfa17c07e0088c07e06fac07e0d70c07e13e8c07e1a63c07e20e0c07e2760c07e2de2c07e3467c07e3aefc07e4179c07e4806c07e4e96c07e5528c07e5bbec07e6255c07e68f0c07e6f8dc07e762dc07e7cd0c07e8375c07e8a1dc07e90c8c07e9776c07e9e26c07ea4d9c07eab8fc07eb248c07eb904c07ebfc2c07ec684c07ecd48c07ed40fc07edad9c07ee1a5c07ee875c07eef47c07ef61dc07efcf5c07f03d0c07f0aafc07f1190c07f1874c07f1f5bc07f2645c07f2d32c07f3422c07f3b15c07f420bc07f4904c07f5000c07f56ffc07f5e01c07f6506c07f6c0fc07f731ac07f7a28c07f813ac07f884fc07f8f67c07f9682c07f9da0c07fa4c1c07fabe6c07fb30dc07fba38c07fc166c07fc898c07fcfccc07fd704c07fde3fc07fe57ec07fecbfc07ff404c07ffb4cc080014cc08004f3c080089cc0800c47c0800ff4c08013a2c0801752c0801b03c0801eb7c080226cc0802622c08029dbc0802d95c0803151c080350fc08038cec0803c8fc0804052c0804417c08047dd,
  0xc075e61fc075ea0dc075edfdc075f1edc075f5dec075f9d1c075fdc4c07601b8c07605adc07609a3c0760d9ac0761192c076158bc0761984c0761d7fc076217bc0762577c0762975c0762d74c0763173c0763574c0763975c0763d77c076417bc076457fc0764984c0764d8bc0765192c076559ac07659a3c0765dadc07661b9c07665c5c07669d2c0766de0c07671efc07675ffc0767a10c0767e23c0768236c076864ac0768a5fc0768e75c076928cc07696a4c0769abdc0769ed7c076a2f3c076a70fc076ab2cc076af4ac076b369c076b78ac076bbabc076bfcdc076c3f1c076c815c076cc3ac076d061c076d488c076d8b1c076dcdac076e105c076e531c076e95dc076ed8bc076f1bac076f5eac076fa1bc076fe4dc0770280c07706b4c0770ae9c0770f1fc0771357c077178fc0771bc9c0772003c077243fc077287bc0772cb9c07730f8c0773538c0773979c0773dbbc07741ffc0774643c0774a88c0774ecfc0775317c077575fc0775ba9c0775ff4c0776440c077688ec0776cdcc077712bc077757cc07779cec0777e20c0778274c07786cac0778b20c0778f77c07793d0c0779829c0779c84c077a0e0c077a53dc077a99bc077adfbc077b25bc077b6bdc077bb20c077bf84c077c3e9c077c850c077ccb7c077d120c077d58ac077d9f5c077de61c077e2cfc077e73dc077ebadc077f01ec077f490c077f904c077fd79c07801eec0780665c0780adec0780f57c07813d2c078184ec0781ccbc0782149c07825c9c0782a49c0782ecbc078334fc07837d3c0783c59c07840e0c0784568c07849f1c0784e7cc0785308c0785795c0785c24c07860b3c0786544c07869d7c0786e6ac07872ffc0787795c0787c2cc07880c5c078855fc07889fac0788e96c0789334c07897d3c0789c74c078a115c078a5b8c078aa5dc078af02c078b3a9c078b851c078bcfbc078c1a6c078c652c078caffc078cfaec078d45ec078d910c078ddc3c078e277c078e72cc078ebe3c078f09bc078f555c078fa10c078feccc079038ac0790849c0790d09c07911cbc079168ec0791b53c0792019c07924e0c07929a9c0792e73c079333ec079380bc0793cdac07941a9c079467ac0794b4dc0795021c07954f6c07959cdc0795ea5c079637fc079685ac0796d36c0797214c07976f4c0797bd5c07980b7c079859bc0798a80c0798f67c079944fc0799938c0799e23c079a310c079a7fec079aceec079b1dfc079b6d1c079bbc5c079c0bbc079c5b2c079caaac079cfa4c079d4a0c079d99dc079de9bc079e39bc079e89dc079eda0c079f2a5c079f7abc079fcb3c07a01bcc07a06c7c07a0bd3c07a10e1c07a15f1c07a1b02c07a2014c07a2529c07a2a3ec07a2f56c07a346fc07a3989c07a3ea5c07a43c3c07a48e3c07a4e04c07a5326c07a584ac07a5d70,
  0xc0725e6fc072619ec07264cec07267ffc0726b30c0726e62c0727195c07274c8c07277fbc0727b30c0727e65c072819ac07284d0c0728807c0728b3ec0728e76c07291afc07294e8c0729822c0729b5cc0729e97c072a1d3c072a50fc072a84cc072ab8ac072aec8c072b206c072b546c072b886c072bbc6c072bf08c072c24ac072c58cc072c8cfc072cc13c072cf57c072d29cc072d5e2c072d928c072dc6fc072dfb7c072e2ffc072e648c072e992c072ecdcc072f027c072f372c072f6bec072fa0bc072fd58c07300a6c07303f5c0730744c0730a94c0730de5c0731136c0731488c07317dbc0731b2ec0731e82c07321d6c073252bc0732881c0732bd8c0732f2fc0733287c07335dfc0733939c0733c92c0733fedc0734348c07346a4c0734a01c0734d5ec07350bcc073541ac0735779c0735ad9c0735e3ac073619bc07364fdc0736860c0736bc3c0736f27c073728cc07375f1c0737957c0737cbec0738025c073838dc07386f6c0738a5fc0738dcac0739134c07394a0c073980cc0739b79c0739ee7c073a255c073a5c4c073a934c073aca4c073b016c073b387c073b6fac073ba6dc073bde1c073c156c073c4cbc073c842c073cbb8c073cf30c073d2a8c073d621c073d99bc073dd15c073e090c073e40cc073e789c073eb06c073ee84c073f203c073f582c073f903c073fc84c0740005c0740388c074070bc0740a8fc0740e13c0741199c074151fc07418a6c0741c2dc0741fb6c074233fc07426c9c0742a53c0742ddec074316ac07434f7c0743885c0743c13c0743fa2c0744332c07446c3c0744a54c0744de6c0745179c074550dc07458a1c0745c36c0745fccc0746363c07466fac0746a92c0746e2bc07471c5c0747560c07478fbc0747c97c0748034c07483d2c0748770c0748b0fc0748eafc0749250c07495f2c0749994c0749d37c074a0dbc074a480c074a826c074abccc074af73c074b31bc074b6c4c074ba6dc074be17c074c1c3c074c56fc074c91bc074ccc9c074d077c074d426c074d7d6c074db87c074df39c074e2ebc074e69ec074ea52c074ee07c074f1bdc074f574c074f92bc074fce3c075009cc0750456c0750811c0750bccc0750f88c0751346c0751704c0751ac2c0751e82c0752243c0752604c07529c6c0752d89c075314dc0753512c07538d8c0753c9ec0754065c075442ec07547f7c0754bc0c0754f8bc0755357c0755723c0755af1c0755ebfc075628ec075665ec0756a2fc0756e00c07571d3c07575a6c075797bc0757d50c0758126c07584fdc07588d5c0758caec0759087c0759462c075983dc0759c19c0759ff7c075a3d5c075a7b4c075ab93c075af74c075b356c075b739c075bb1cc075bf00c075c2e6c075c6ccc075cab3c075ce9bc075d284c075d66ec075da59c075de45c075e231,
  0xc06f735dc06f760bc06f78bbc06f7b6ac06f7e1ac06f80cbc06f837cc06f862dc06f88dfc06f8b91c06f8e44c06f90f7c06f93aac06f965ec06f9912c06f9bc7c06f9e7cc06fa132c06fa3e8c06fa69ec06fa955c06fac0dc06faec4c06fb17dc06fb435c06fb6eec06fb9a8c06fbc62c06fbf1cc06fc1d7c06fc492c06fc74ec06fca0ac06fccc6c06fcf83c06fd241c06fd4ffc06fd7bdc06fda7cc06fdd3bc06fdffac06fe2bbc06fe57bc06fe83cc06feafdc06fedbfc06ff082c06ff344c06ff608c06ff8cbc06ffb8fc06ffe54c0700119c07003dec07006a4c070096ac0700c31c0700ef8c07011c0c0701488c0701751c0701a1ac0701ce3c0701fadc0702278c0702543c070280ec0702adac0702da6c0703073c0703340c070360dc07038dcc0703baac0703e79c0704149c0704419c07046e9c07049bac0704c8bc0704f5dc070522fc0705502c07057d5c0705aa9c0705d7dc0706052c0706327c07065fcc07068d2c0706ba9c0706e80c0707157c070742fc0707707c07079e0c0707cbac0707f93c070826ec0708549c0708824c0708b00c0708ddcc07090b8c0709396c0709673c0709951c0709c30c0709f0fc070a1efc070a4cfc070a7afc070aa90c070ad72c070b054c070b337c070b61ac070b8fdc070bbe1c070bec5c070c1aac070c490c070c776c070ca5cc070cd43c070d02bc070d313c070d5fbc070d8e4c070dbcdc070deb7c070e1a2c070e48dc070e778c070ea64c070ed50c070f03dc070f32bc070f619c070f907c070fbf6c070fee6c07101d6c07104c6c07107b7c0710aa9c0710d9bc071108dc0711380c0711674c0711968c0711c5cc0711f51c0712247c071253dc0712834c0712b2bc0712e23c071311bc0713413c071370dc0713a06c0713d01c0713ffbc07142f7c07145f3c07148efc0714becc0714ee9c07151e7c07154e6c07157e5c0715ae4c0715de4c07160e5c07163e6c07166e8c07169eac0716cecc0716ff0c07172f3c07175f8c07178fdc0717c02c0717f08c071820ec0718515c071881dc0718b25c0718e2ec0719137c0719441c071974bc0719a56c0719d61c071a06dc071a37ac071a687c071a994c071aca2c071afb1c071b2c0c071b5d0c071b8e0c071bbf1c071bf02c071c214c071c527c071c83ac071cb4ec071ce62c071d177c071d48cc071d7a2c071dab8c071ddcfc071e0e7c071e3ffc071e718c071ea31c071ed4bc071f065c071f380c071f69cc071f9b8c071fcd5c071fff2c0720310c072062ec072094dc0720c6dc0720f8dc07212aec07215cfc07218f1c0721c13c0721f36c072225ac072257ec07228a3c0722bc8c0722eeec0723215c072353cc0723864c0723b8cc0723eb5c07241dfc0724509c0724833c0724b5fc0724e8bc07251b7c07254e4c0725812c0725b40,
  0xc06cf566c06cf7b9c06cfa0bc06cfc5ec06cfeb1c06d0104c06d0358c06d05acc06d0800c06d0a55c06d0caac06d0effc06d1155c06d13aac06d1601c06d1857c06d1aaec06d1d05c06d1f5dc06d21b4c06d240cc06d2665c06d28bec06d2b17c06d2d70c06d2fcac06d3224c06d347ec06d36d9c06d3934c06d3b8fc06d3debc06d4047c06d42a3c06d44ffc06d475cc06d49bac06d4c17c06d4e75c06d50d3c06d5332c06d5591c06d57f0c06d5a4fc06d5cafc06d5f0fc06d6170c06d63d1c06d6632c06d6893c06d6af5c06d6d57c06d6fbac06d721cc06d7480c06d76e3c06d7947c06d7babc06d7e0fc06d8074c06d82d9c06d853fc06d87a5c06d8a0bc06d8c71c06d8ed8c06d913fc06d93a6c06d960ec06d9876c06d9adfc06d9d48c06d9fb1c06da21ac06da484c06da6eec06da959c06dabc3c06dae2fc06db09ac06db306c06db572c06db7dfc06dba4bc06dbcb9c06dbf26c06dc194c06dc402c06dc671c06dc8e0c06dcb4fc06dcdbfc06dd02fc06dd29fc06dd510c06dd781c06dd9f2c06ddc64c06dded6c06de148c06de3bbc06de62ec06de8a1c06deb15c06ded89c06deffec06df272c06df4e8c06df75dc06df9d3c06dfc49c06dfec0c06e0137c06e03aec06e0626c06e089ec06e0b16c06e0d8fc06e1008c06e1281c06e14fbc06e1775c06e19efc06e1c6ac06e1ee5c06e2161c06e23ddc06e2659c06e28d6c06e2b53c06e2dd0c06e304ec06e32ccc06e354ac06e37c9c06e3a48c06e3cc8c06e3f48c06e41c8c06e4449c06e46c9c06e494bc06e4bcdc06e4e4fc06e50d1c06e5354c06e55d7c06e585bc06e5adec06e5d63c06e5fe7c06e626cc06e64f2c06e6777c06e69fec06e6c84c06e6f0bc06e7192c06e741ac06e76a2c06e792ac06e7bb3c06e7e3cc06e80c5c06e834fc06e85dac06e8864c06e8aefc06e8d7ac06e9006c06e9292c06e951fc06e97acc06e9a39c06e9cc7c06e9f55c06ea1e3c06ea472c06ea701c06ea990c06eac20c06eaeb1c06eb141c06eb3d2c06eb664c06eb8f6c06ebb88c06ebe1ac06ec0adc06ec341c06ec5d5c06ec869c06ecafdc06ecd92c06ed027c06ed2bdc06ed553c06ed7eac06eda81c06edd18c06edfb0c06ee248c06ee4e0c06ee779c06eea12c06eecacc06eef46c06ef1e0c06ef47bc06ef716c06ef9b2c06efc4ec06efeeac06f0187c06f0424c06f06c2c06f0960c06f0bfec06f0e9dc06f113cc06f13dcc06f167cc06f191cc06f1bbdc06f1e5ec06f2100c06f23a2c06f2644c06f28e7c06f2b8ac06f2e2ec06f30d2c06f3376c06f361bc06f38c0c06f3b66c06f3e0cc06f40b3c06f4359c06f4601c06f48a9c06f4b51c06f4df9c06f50a2c06f534cc06f55f5c06f58a0c06f5b4ac06f5df5c06f60a1c06f634dc06f65f9c06f68a6c06f6b53c06f6e00c06f70ae,
  0xc06ac7f4c06aca00c06acc0cc06ace19c06ad026c06ad233c06ad440c06ad64ec06ad85bc06ada69c06adc78c06ade86c06ae095c06ae2a4c06ae4b3c06ae6c3c06ae8d2c06aeae2c06aecf3c06aef03c06af114c06af325c06af536c06af747c06af959c06afb6bc06afd7dc06aff8fc06b01a2c06b03b5c06b05c8c06b07dbc06b09efc06b0c03c06b0e17c06b102bc06b1240c06b1455c06b166ac06b1880c06b1a95c06b1cabc06b1ec1c06b20d8c06b22eec06b2505c06b271cc06b2934c06b2b4bc06b2d63c06b2f7bc06b3194c06b33acc06b35c5c06b37dec06b39f8c06b3c11c06b3e2bc06b4045c06b4260c06b447ac06b4695c06b48b1c06b4accc06b4ce8c06b4f04c06b5120c06b533cc06b5559c06b5776c06b5993c06b5bb1c06b5dcec06b5fecc06b620bc06b6429c06b6648c06b6867c06b6a86c06b6ca6c06b6ec6c06b70e6c06b7306c06b7527c06b7747c06b7968c06b7b8ac06b7dabc06b7fcdc06b81efc06b8412c06b8635c06b8858c06b8a7bc06b8c9ec06b8ec2c06b90e6c06b930ac06b952fc06b9753c06b9978c06b9b9ec06b9dc3c06b9fe9c06ba20fc06ba436c06ba65cc06ba883c06baaaac06bacd2c06baef9c06bb121c06bb34ac06bb572c06bb79bc06bb9c4c06bbbedc06bbe17c06bc041c06bc26bc06bc495c06bc6c0c06bc8ebc06bcb16c06bcd41c06bcf6dc06bd199c06bd3c6c06bd5f2c06bd81fc06bda4cc06bdc79c06bdea7c06be0d5c06be303c06be532c06be760c06be98fc06bebbfc06bedeec06bf01ec06bf24ec06bf47fc06bf6afc06bf8e0c06bfb11c06bfd43c06bff75c06c01a7c06c03d9c06c060cc06c083fc06c0a72c06c0ca5c06c0ed9c06c110dc06c1341c06c1576c06c17abc06c19e0c06c1c15c06c1e4bc06c2081c06c22b7c06c24eec06c2724c06c295bc06c2b93c06c2dcbc06c3002c06c323bc06c3473c06c36acc06c38e5c06c3b1ec06c3d58c06c3f92c06c41ccc06c4407c06c4642c06c487dc06c4ab8c06c4cf4c06c4f30c06c516cc06c53a8c06c55e5c06c5822c06c5a60c06c5c9dc06c5edbc06c611ac06c6358c06c6597c06c67d6c06c6a16c06c6c55c06c6e95c06c70d6c06c7316c06c7557c06c7798c06c79dac06c7c1cc06c7e5ec06c80a0c06c82e3c06c8526c06c8769c06c89acc06c8bf0c06c8e34c06c9079c06c92bec06c9503c06c9748c06c998ec06c9bd4c06c9e1ac06ca060c06ca2a7c06ca4eec06ca736c06ca97dc06cabc5c06cae0ec06cb056c06cb29fc06cb4e8c06cb732c06cb97cc06cbbc6c06cbe10c06cc05bc06cc2a6c06cc4f1c06cc73dc06cc989c06ccbd5c06cce22c06cd06fc06cd2bcc06cd509c06cd757c06cd9a5c06cdbf4c06cde42c06ce091c06ce2e1c06ce530c06ce780c06ce9d1c06cec21c06cee72c06cf0c3c06cf315] ++
  [0xc068d871c068da46c068dc1cc068ddf1c068dfc7c068e19dc068e373c068e54ac068e720c068e8f7c068eacec068eca5c068ee7dc068f054c068f22cc068f404c068f5dcc068f7b4c068f98dc068fb65c068fd3ec068ff17c06900f1c06902cac06904a4c069067ec0690858c0690a32c0690c0dc0690de7c0690fc2c069119dc0691378c0691554c0691730c069190bc0691ae7c0691cc4c0691ea0c069207dc069225ac0692437c0692614c06927f1c06929cfc0692badc0692d8bc0692f69c0693147c0693326c0693505c06936e4c06938c3c0693aa2c0693c82c0693e62c0694042c0694222c0694402c06945e3c06947c4c06949a5c0694b86c0694d67c0694f49c069512bc069530dc06954efc06956d1c06958b4c0695a97c0695c7ac0695e5dc0696041c0696224c0696408c06965ecc06967d0c06969b5c0696b99c0696d7ec0696f63c0697149c069732ec0697514c06976fac06978e0c0697ac6c0697cadc0697e93c069807ac0698261c0698449c0698630c0698818c0698a00c0698be8c0698dd0c0698fb9c06991a2c069938bc0699574c069975dc0699947c0699b31c0699d1bc0699f05c069a0efc069a2dac069a4c5c069a6b0c069a89bc069aa87c069ac73c069ae5ec069b04bc069b237c069b423c069b610c069b7fdc069b9eac069bbd8c069bdc5c069bfb3c069c1a1c069c38fc069c57ec069c76dc069c95bc069cb4bc069cd3ac069cf29c069d119c069d309c069d4f9c069d6eac069d8dac069dacbc069dcbcc069deadc069e09fc069e290c069e482c069e674c069e867c069ea59c069ec4cc069ee3fc069f032c069f226c069f419c069f60dc069f801c069f9f5c069fbeac069fddfc069ffd4c06a01c9c06a03bec06a05b4c06a07a9c06a099fc06a0b96c06a0d8cc06a0f83c06a117ac06a1371c06a1568c06a1760c06a1958c06a1b50c06a1d48c06a1f40c06a2139c06a2332c06a252bc06a2724c06a291ec06a2b18c06a2d12c06a2f0cc06a3106c06a3301c06a34fcc06a36f7c06a38f3c06a3aeec06a3ceac06a3ee6c06a40e2c06a42dfc06a44dbc06a46d8c06a48d6c06a4ad3c06a4cd1c06a4ecec06a50ccc06a52cbc06a54c9c06a56c8c06a58c7c06a5ac6c06a5cc6c06a5ec5c06a60c5c06a62c5c06a64c6c06a66c6c06a68c7c06a6ac8c06a6cc9c06a6ecbc06a70cdc06a72cfc06a74d1c06a76d3c06a78d6c06a7ad9c06a7cdcc06a7edfc06a80e3c06a82e7c06a84ebc06a86efc06a88f3c06a8af8c06a8cfdc06a8f02c06a9108c06a930dc06a9513c06a971ac06a9920c06a9b27c06a9d2dc06a9f34c06aa13cc06aa343c06aa54bc06aa753c06aa95bc06aab64c06aad6dc06aaf76c06ab17fc06ab388c06ab592c06ab79cc06ab9a6c06abbb1c06abdbbc06abfc6c06ac1d1c06ac3ddc06ac5e8,
  0xc0671a19c0671bc2c0671d6bc0671f14c06720bec0672268c0672412c06725bcc0672766c0672910c0672abbc0672c65c0672e10c0672fbbc0673166c0673312c06734bdc0673669c0673815c06739c1c0673b6dc0673d19c0673ec5c0674072c067421fc06743ccc0674579c0674726c06748d3c0674a81c0674c2ec0674ddcc0674f8ac0675138c06752e7c0675495c0675644c06757f3c06759a2c0675b51c0675d00c0675eafc067605fc067620fc06763bfc067656fc067671fc06768cfc0676a80c0676c31c0676de2c0676f93c0677144c06772f5c06774a7c0677658c067780ac06779bcc0677b6fc0677d21c0677ed3c0678086c0678239c06783ecc067859fc0678752c0678906c0678abac0678c6dc0678e21c0678fd5c067918ac067933ec06794f3c06796a8c067985dc0679a12c0679bc7c0679d7dc0679f32c067a0e8c067a29ec067a454c067a60ac067a7c1c067a977c067ab2ec067ace5c067ae9cc067b054c067b20bc067b3c3c067b57ac067b732c067b8eac067baa3c067bc5bc067be14c067bfcdc067c186c067c33fc067c4f8c067c6b1c067c86bc067ca25c067cbdfc067cd99c067cf53c067d10ec067d2c8c067d483c067d63ec067d7f9c067d9b5c067db70c067dd2cc067dee8c067e0a4c067e260c067e41cc067e5d9c067e795c067e952c067eb0fc067ecccc067ee8ac067f047c067f205c067f3c3c067f581c067f73fc067f8fec067fabcc067fc7bc067fe3ac067fff9c06801b8c0680378c0680537c06806f7c06808b7c0680a77c0680c37c0680df8c0680fb9c0681179c068133ac06814fcc06816bdc068187ec0681a40c0681c02c0681dc4c0681f86c0682149c068230bc06824cec0682691c0682854c0682a17c0682bdbc0682d9ec0682f62c0683126c06832eac06834afc0683673c0683838c06839fdc0683bc2c0683d87c0683f4cc0684112c06842d8c068449ec0684664c068482ac06849f1c0684bb7c0684d7ec0684f45c068510cc06852d4c068549bc0685663c068582bc06859f3c0685bbbc0685d84c0685f4cc0686115c06862dec06864a7c0686670c068683ac0686a04c0686bcec0686d98c0686f62c068712cc06872f7c06874c2c068768dc0687858c0687a23c0687befc0687dbbc0687f86c0688152c068831fc06884ebc06886b8c0688885c0688a52c0688c1fc0688decc0688fbac0689187c0689355c0689524c06896f2c06898c0c0689a8fc0689c5ec0689e2dc0689ffcc068a1cbc068a39bc068a56bc068a73bc068a90bc068aadbc068acacc068ae7cc068b04dc068b21ec068b3f0c068b5c1c068b793c068b965c068bb37c068bd09c068bedbc068c0aec068c281c068c454c068c627c068c7fac068c9cec068cba1c068cd75c068cf49c068d11ec068d2f2c068d4c7c068d69c,
  0xc06583c2c0658547c06586ccc0658851c06589d6c0658b5cc0658ce1c0658e67c0658fedc0659172c06592f8c065947fc0659605c065978bc0659912c0659a98c0659c1fc0659da6c0659f2dc065a0b4c065a23bc065a3c3c065a54ac065a6d2c065a85ac065a9e2c065ab6ac065acf2c065ae7ac065b003c065b18cc065b314c065b49dc065b626c065b7afc065b939c065bac2c065bc4bc065bdd5c065bf5fc065c0e9c065c273c065c3fdc065c587c065c712c065c89cc065ca27c065cbb2c065cd3dc065cec8c065d053c065d1dfc065d36ac065d4f6c065d682c065d80ec065d99ac065db26c065dcb2c065de3fc065dfcbc065e158c065e2e5c065e472c065e5ffc065e78cc065e91ac065eaa7c065ec35c065edc3c065ef51c065f0dfc065f26dc065f3fcc065f58ac065f719c065f8a7c065fa36c065fbc5c065fd55c065fee4c0660073c0660203c0660393c0660522c06606b2c0660843c06609d3c0660b63c0660cf4c0660e85c0661015c06611a6c0661337c06614c9c066165ac06617ecc066197dc0661b0fc0661ca1c0661e33c0661fc5c0662158c06622eac066247dc066260fc06627a2c0662935c0662ac8c0662c5cc0662defc0662f83c0663117c06632aac066343ec06635d3c0663767c06638fbc0663a90c0663c25c0663dbac0663f4fc06640e4c0664279c066440ec06645a4c066473ac06648cfc0664a65c0664bfcc0664d92c0664f28c06650bfc0665256c06653ecc0665583c066571ac06658b2c0665a49c0665be1c0665d78c0665f10c06660a8c0666240c06663d9c0666571c066670ac06668a2c0666a3bc0666bd4c0666d6dc0666f06c06670a0c0667239c06673d3c066756dc0667707c06678a1c0667a3bc0667bd6c0667d70c0667f0bc06680a6c0668241c06683dcc0668577c0668713c06688aec0668a4ac0668be6c0668d82c0668f1ec06690bac0669257c06693f3c0669590c066972dc06698cac0669a67c0669c05c0669da2c0669f40c066a0ddc066a27bc066a419c066a5b8c066a756c066a8f5c066aa93c066ac32c066add1c066af70c066b10fc066b2afc066b44ec066b5eec066b78ec066b92ec066bacec066bc6ec066be0fc066bfafc066c150c066c2f1c066c492c066c633c066c7d4c066c976c066cb18c066ccb9c066ce5bc066cffdc066d1a0c066d342c066d4e5c066d687c066d82ac066d9cdc066db70c066dd13c066deb7c066e05bc066e1fec066e3a2c066e546c066e6eac066e88fc066ea33c066ebd8c066ed7dc066ef22c066f0c7c066f26cc066f411c066f5b7c066f75dc066f903c066faa9c066fc4fc066fdf5c066ff9cc0670142c06702e9c0670490c0670637c06707dec0670986c0670b2dc0670cd5c0670e7dc0671025c06711cdc0671376c067151ec06716c7c0671870,
  0xc0640ea2c0641009c064116fc06412d6c064143dc06415a3c064170ac0641871c06419d9c0641b40c0641ca7c0641e0fc0641f76c06420dec0642246c06423aec0642516c064267ec06427e6c064294fc0642ab7c0642c20c0642d89c0642ef1c064305ac06431c3c064332dc0643496c06435ffc0643769c06438d2c0643a3cc0643ba6c0643d10c0643e7ac0643fe4c064414ec06442b9c0644423c064458ec06446f9c0644863c06449cec0644b39c0644ca5c0644e10c0644f7bc06450e7c0645252c06453bec064552ac0645696c0645802c064596ec0645adac0645c47c0645db3c0645f20c064608dc06461fac0646367c06464d4c0646641c06467aec064691cc0646a89c0646bf7c0646d65c0646ed2c0647040c06471afc064731dc064748bc06475fac0647768c06478d7c0647a46c0647bb4c0647d24c0647e93c0648002c0648171c06482e1c0648450c06485c0c0648730c06488a0c0648a10c0648b80c0648cf0c0648e61c0648fd1c0649142c06492b3c0649424c0649595c0649706c0649877c06499e8c0649b5ac0649ccbc0649e3dc0649fafc064a121c064a293c064a405c064a577c064a6e9c064a85cc064a9cfc064ab41c064acb4c064ae27c064af9ac064b10dc064b281c064b3f4c064b568c064b6dbc064b84fc064b9c3c064bb37c064bcabc064be1fc064bf94c064c108c064c27dc064c3f2c064c567c064c6dcc064c851c064c9c6c064cb3bc064ccb1c064ce26c064cf9cc064d112c064d288c064d3fec064d574c064d6eac064d860c064d9d7c064db4ec064dcc4c064de3bc064dfb2c064e129c064e2a1c064e418c064e58fc064e707c064e87fc064e9f7c064eb6fc064ece7c064ee5fc064efd7c064f150c064f2c8c064f441c064f5bac064f733c064f8acc064fa25c064fb9ec064fd18c064fe91c065000bc0650184c06502fec0650478c06505f3c065076dc06508e7c0650a62c0650bdcc0650d57c0650ed2c065104dc06511c8c0651343c06514bfc065163ac06517b6c0651932c0651aadc0651c29c0651da5c0651f22c065209ec065221bc0652397c0652514c0652691c065280ec065298bc0652b08c0652c85c0652e03c0652f80c06530fec065327cc06533fac0653578c06536f6c0653875c06539f3c0653b72c0653cf0c0653e6fc0653feec065416dc06542ecc065446cc06545ebc065476bc06548ebc0654a6ac0654beac0654d6ac0654eebc065506bc06551ebc065536cc06554edc065566ec06557efc0655970c0655af1c0655c72c0655df4c0655f75c06560f7c0656279c06563fbc065657dc06566ffc0656882c0656a04c0656b87c0656d0ac0656e8dc0657010c0657193c0657316c0657499c065761dc06577a1c0657924c0657aa8c0657c2cc0657db0c0657f35c06580b9c065823e,
  0xc062b588c062b6d5c062b821c062b96ec062babbc062bc08c062bd55c062bea2c062bfefc062c13cc062c28ac062c3d7c062c525c062c673c062c7c0c062c90ec062ca5cc062cbaac062ccf8c062ce47c062cf95c062d0e4c062d232c062d381c062d4cfc062d61ec062d76dc062d8bcc062da0bc062db5ac062dcaac062ddf9c062df49c062e098c062e1e8c062e338c062e488c062e5d8c062e728c062e878c062e9c8c062eb18c062ec69c062edb9c062ef0ac062f05bc062f1abc062f2fcc062f44dc062f59fc062f6f0c062f841c062f992c062fae4c062fc36c062fd87c062fed9c063002bc063017dc06302cfc0630421c0630573c06306c6c0630818c063096bc0630abdc0630c10c0630d63c0630eb6c0631009c063115cc06312afc0631403c0631556c06316aac06317fdc0631951c0631aa5c0631bf9c0631d4dc0631ea1c0631ff5c0632149c063229ec06323f2c0632547c063269cc06327f1c0632945c0632a9ac0632bf0c0632d45c0632e9ac0632fefc0633145c063329bc06333f0c0633546c063369cc06337f2c0633948c0633a9ec0633bf4c0633d4bc0633ea1c0633ff8c063414fc06342a5c06343fcc0634553c06346aac0634801c0634959c0634ab0c0634c08c0634d5fc0634eb7c063500fc0635167c06352bfc0635417c063556fc06356c7c063581fc0635978c0635ad1c0635c29c0635d82c0635edbc0636034c063618dc06362e6c063643fc0636599c06366f2c063684cc06369a6c0636affc0636c59c0636db3c0636f0dc0637068c06371c2c063731cc0637477c06375d1c063772cc0637887c06379e2c0637b3dc0637c98c0637df3c0637f4ec06380aac0638205c0638361c06384bdc0638619c0638775c06388d1c0638a2dc0638b89c0638ce5c0638e42c0638f9ec06390fbc0639258c06393b5c0639512c063966fc06397ccc0639929c0639a86c0639be4c0639d42c0639e9fc0639ffdc063a15bc063a2b9c063a417c063a575c063a6d4c063a832c063a990c063aaefc063ac4ec063adadc063af0cc063b06bc063b1cac063b329c063b488c063b5e8c063b747c063b8a7c063ba07c063bb67c063bcc7c063be27c063bf87c063c0e7c063c248c063c3a8c063c509c063c66ac063c7cac063c92bc063ca8cc063cbeec063cd4fc063ceb0c063d012c063d173c063d2d5c063d437c063d598c063d6fac063d85dc063d9bfc063db21c063dc84c063dde6c063df49c063e0abc063e20ec063e371c063e4d4c063e637c063e79bc063e8fec063ea62c063ebc5c063ed29c063ee8dc063eff1c063f155c063f2b9c063f41dc063f581c063f6e6c063f84ac063f9afc063fb14c063fc79c063fddec063ff43c06400a8c064020dc0640373c06404d8c064063ec06407a4c064090ac0640a70c0640bd6c0640d3c,
  0xc0617467c061759dc06176d4c061780ac0617941c0617a77c0617baec0617ce5c0617e1cc0617f53c061808ac06181c1c06182f8c061842fc0618567c061869ec06187d6c061890dc0618a45c0618b7dc0618cb5c0618dedc0618f25c061905dc0619195c06192cdc0619405c061953ec0619676c06197afc06198e8c0619a20c0619b59c0619c92c0619dcbc0619f04c061a03dc061a177c061a2b0c061a3eac061a523c061a65dc061a796c061a8d0c061aa0ac061ab44c061ac7ec061adb8c061aef2c061b02cc061b167c061b2a1c061b3dbc061b516c061b651c061b78bc061b8c6c061ba01c061bb3cc061bc77c061bdb2c061beeec061c029c061c164c061c2a0c061c3dcc061c517c061c653c061c78fc061c8cbc061ca07c061cb43c061cc7fc061cdbbc061cef8c061d034c061d170c061d2adc061d3eac061d527c061d663c061d7a0c061d8ddc061da1ac061db58c061dc95c061ddd2c061df10c061e04dc061e18bc061e2c8c061e406c061e544c061e682c061e7c0c061e8fec061ea3cc061eb7bc061ecb9c061edf7c061ef36c061f075c061f1b3c061f2f2c061f431c061f570c061f6afc061f7eec061f92dc061fa6dc061fbacc061fcecc061fe2bc061ff6bc06200abc06201eac062032ac062046ac06205aac06206ebc062082bc062096bc0620aacc0620becc0620d2dc0620e6dc0620faec06210efc0621230c0621371c06214b2c06215f3c0621735c0621876c06219b8c0621af9c0621c3bc0621d7dc0621ebec0622000c0622142c0622284c06223c7c0622509c062264bc062278ec06228d0c0622a13c0622b55c0622c98c0622ddbc0622f1ec0623061c06231a4c06232e7c062342bc062356ec06236b2c06237f5c0623939c0623a7dc0623bc0c0623d04c0623e48c0623f8dc06240d1c0624215c0624359c062449ec06245e2c0624727c062486cc06249b1c0624af5c0624c3ac0624d80c0624ec5c062500ac062514fc0625295c06253dac0625520c0625666c06257abc06258f1c0625a37c0625b7dc0625cc4c0625e0ac0625f50c0626097c06261ddc0626324c062646ac06265b1c06266f8c062683fc0626986c0626acdc0626c14c0626d5cc0626ea3c0626febc0627132c062727ac06273c2c062750ac0627652c062779ac06278e2c0627a2ac0627b72c0627cbbc0627e03c0627f4cc0628095c06281ddc0628326c062846fc06285b8c0628701c062884bc0628994c0628addc0628c27c0628d70c0628ebac0629004c062914ec0629298c06293e2c062952cc0629676c06297c1c062990bc0629a56c0629ba0c0629cebc0629e36c0629f81c062a0ccc062a217c062a362c062a4adc062a5f8c062a744c062a88fc062a9dbc062ab27c062ac73c062adbfc062af0bc062b057c062b1a3c062b2efc062b43b,
  0xc0604806c0604929c0604a4cc0604b6fc0604c92c0604db5c0604ed8c0604ffcc060511fc0605243c0605366c060548ac06055aec06056d2c06057f6c0605919c0605a3dc0605b62c0605c86c0605daac0605ecec0605ff3c0606117c060623cc0606360c0606485c06065aac06066cec06067f3c0606918c0606a3dc0606b62c0606c87c0606dadc0606ed2c0606ff7c060711dc0607242c0607368c060748ec06075b3c06076d9c06077ffc0607925c0607a4bc0607b71c0607c97c0607dbec0607ee4c060800ac0608131c0608257c060837ec06084a5c06085cbc06086f2c0608819c0608940c0608a67c0608b8ec0608cb5c0608dddc0608f04c060902bc0609153c060927ac06093a2c06094cac06095f1c0609719c0609841c0609969c0609a91c0609bb9c0609ce2c0609e0ac0609f32c060a05bc060a183c060a2acc060a3d4c060a4fdc060a626c060a74fc060a878c060a9a1c060aacac060abf3c060ad1cc060ae46c060af6fc060b099c060b1c2c060b2ecc060b415c060b53fc060b669c060b793c060b8bdc060b9e7c060bb11c060bc3bc060bd66c060be90c060bfbac060c0e5c060c20fc060c33ac060c465c060c590c060c6bbc060c7e6c060c911c060ca3cc060cb67c060cc92c060cdbdc060cee9c060d014c060d140c060d26bc060d397c060d4c3c060d5efc060d71bc060d847c060d973c060da9fc060dbcbc060dcf8c060de24c060df50c060e07dc060e1aac060e2d6c060e403c060e530c060e65dc060e78ac060e8b7c060e9e4c060eb11c060ec3ec060ed6cc060ee99c060efc7c060f0f4c060f222c060f350c060f47ec060f5acc060f6dac060f808c060f936c060fa64c060fb92c060fcc1c060fdefc060ff1ec061004cc061017bc06102aac06103d8c0610507c0610636c0610765c0610894c06109c4c0610af3c0610c22c0610d52c0610e81c0610fb1c06110e1c0611210c0611340c0611470c06115a0c06116d0c0611800c0611930c0611a61c0611b91c0611cc2c0611df2c0611f23c0612053c0612184c06122b5c06123e6c0612517c0612648c0612779c06128aac06129dcc0612b0dc0612c3ec0612d70c0612ea2c0612fd3c0613105c0613237c0613369c061349bc06135cdc06136ffc0613831c0613964c0613a96c0613bc9c0613cfbc0613e2ec0613f60c0614093c06141c6c06142f9c061442cc061455fc0614692c06147c6c06148f9c0614a2dc0614b60c0614c94c0614dc7c0614efbc061502fc0615163c0615297c06153cbc06154ffc0615633c0615767c061589cc06159d0c0615b05c0615c3ac0615d6ec0615ea3c0615fd8c061610dc0616242c0616377c06164acc06165e1c0616717c061684cc0616982c0616ab7c0616bedc0616d23c0616e59c0616f8ec06170c4c06171fac0617331,
  0xc05f2dc9c05f2edbc05f2fedc05f30ffc05f3211c05f3323c05f3435c05f3548c05f365ac05f376cc05f387fc05f3991c05f3aa4c05f3bb7c05f3ccac05f3ddcc05f3eefc05f4002c05f4115c05f4228c05f433bc05f444fc05f4562c05f4675c05f4789c05f489cc05f49b0c05f4ac3c05f4bd7c05f4ceac05f4dfec05f4f12c05f5026c05f513ac05f524ec05f5362c05f5476c05f558ac05f569fc05f57b3c05f58c7c05f59dcc05f5af0c05f5c05c05f5d1ac05f5e2ec05f5f43c05f6058c05f616dc05f6282c05f6397c05f64acc05f65c1c05f66d6c05f67ecc05f6901c05f6a17c05f6b2cc05f6c42c05f6d57c05f6e6dc05f6f83c05f7098c05f71aec05f72c4c05f73dac05f74f0c05f7606c05f771dc05f7833c05f7949c05f7a60c05f7b76c05f7c8dc05f7da3c05f7ebac05f7fd0c05f80e7c05f81fec05f8315c05f842cc05f8543c05f865ac05f8771c05f8889c05f89a0c05f8ab7c05f8bcfc05f8ce6c05f8dfec05f8f15c05f902dc05f9145c05f925dc05f9374c05f948cc05f95a4c05f96bcc05f97d5c05f98edc05f9a05c05f9b1dc05f9c36c05f9d4ec05f9e67c05f9f7fc05fa098c05fa1b1c05fa2cac05fa3e2c05fa4fbc05fa614c05fa72dc05fa847c05fa960c05faa79c05fab92c05facacc05fadc5c05faedfc05faff8c05fb112c05fb22cc05fb345c05fb45fc05fb579c05fb693c05fb7adc05fb8c7c05fb9e2c05fbafcc05fbc16c05fbd30c05fbe4bc05fbf65c05fc080c05fc19bc05fc2b5c05fc3d0c05fc4ebc05fc606c05fc721c05fc83cc05fc957c05fca72c05fcb8ec05fcca9c05fcdc4c05fcee0c05fcffbc05fd117c05fd232c05fd34ec05fd46ac05fd586c05fd6a2c05fd7bec05fd8dac05fd9f6c05fdb12c05fdc2ec05fdd4bc05fde67c05fdf83c05fe0a0c05fe1bdc05fe2d9c05fe3f6c05fe513c05fe630c05fe74dc05fe86ac05fe987c05feaa4c05febc1c05fecdec05fedfcc05fef19c05ff036c05ff154c05ff272c05ff38fc05ff4adc05ff5cbc05ff6e9c05ff807c05ff925c05ffa43c05ffb61c05ffc7fc05ffd9dc05ffebcc05fffdac06000f9c0600217c0600336c0600455c0600573c0600692c06007b1c06008d0c06009efc0600b0ec0600c2ec0600d4dc0600e6cc0600f8bc06010abc06011cac06012eac060140ac0601529c0601649c0601769c0601889c06019a9c0601ac9c0601be9c0601d0ac0601e2ac0601f4ac060206bc060218bc06022acc06023ccc06024edc060260ec060272fc0602850c0602971c0602a92c0602bb3c0602cd4c0602df5c0602f17c0603038c0603159c060327bc060339dc06034bec06035e0c0603702c0603824c0603946c0603a68c0603b8ac0603cacc0603dcec0603ef1c0604013c0604135c0604258c060437bc060449dc06045c0c06046e3] ++
  [0xc05f2cb7]

/-- R420, NORM lower side level 2: entry j for j = 0 to 4,096. -/
def norm2 : List Nat :=
  [0xc0b8fec1c0b9042bc0b9099ac0b90f0fc0b91489c0b91a08c0b91f8dc0b92518c0b92aa8c0b9303ec0b935d9c0b93b7ac0b94121c0b946cec0b94c80c0b95239c0b957f7c0b95dbbc0b96386c0b96956c0b96f2dc0b9750ac0b97aedc0b980d6c0b986c6c0b98cbcc0b992b9c0b998bcc0b99ec6c0b9a4d6c0b9aaedc0b9b10bc0b9b730c0b9bd5bc0b9c38ec0b9c9c7c0b9d007c0b9d64fc0b9dc9ec0b9e2f4c0b9e951c0b9efb6c0b9f622c0b9fc96c0ba0311c0ba0995c0ba101fc0ba16b2c0ba1d4cc0ba23efc0ba2a99c0ba314cc0ba3807c0ba3ecac0ba4595c0ba4c69c0ba5345c0ba5a2ac0ba6118c0ba680ec0ba6f0ec0ba7616c0ba7d27c0ba8442c0ba8b65c0ba9293c0ba99c9c0baa109c0baa853c0baafa6c0bab703c0babe6ac0bac5dbc0bacd57c0bad4dcc0badc6cc0bae407c0baebacc0baf35cc0bafb16c0bb02dcc0bb0aadc0bb1289c0bb1a70c0bb2263c0bb2a61c0bb326bc0bb3a81c0bb42a3c0bb4ad2c0bb530cc0bb5b53c0bb63a7c0bb6c07c0bb7474c0bb7cefc0bb8576c0bb8e0bc0bb96aec0bb9f5ec0bba81cc0bbb0e9c0bbb9c3c0bbc2acc0bbcba4c0bbd4abc0bbddc0c0bbe6e5c0bbf019c0bbf95dc0bc02b1c0bc0c15c0bc1589c0bc1f0ec0bc28a3c0bc324ac0bc3c01c0bc45cbc0bc4fa6c0bc5992c0bc6392c0bc6da3c0bc77c8c0bc81ffc0bc8c4ac0bc96a9c0bca11bc0bcaba2c0bcb63dc0bcc0edc0bccbb3c0bcd68ec0bce17fc0bcec86c0bcf7a4c0bd02d8c0bd0e25c0bd1988c0bd2504c0bd3099c0bd3c47c0bd480ec0bd53efc0bd5feac0bd6c00c0bd7831c0bd847ec0bd90e7c0bd9d6dc0bdaa10c0bdb6d2c0bdc3b1c0bdd0b0c0bdddcec0bdeb0cc0bdf86cc0be05ecc0be138fc0be2155c0be2f3ec0be3d4cc0be4b7fc0be59d7c0be6856c0be76fdc0be85ccc0be94c5c0bea3e7c0beb335c0bec2aec0bed255c0bee22ac0bef22fc0bf0263c0bf12cac0bf2363c0bf3430c0bf4532c0bf566bc0bf67ddc0bf7988c0bf8b6ec0bf9d91c0bfaff2c0bfc293c0bfd576c0bfe89dc0bffc0ac0c00fbec0c023bdc0c03807c0c04ca0c0c0618ac0c076c7c0c08c5ac0c0a247c0c0b88fc0c0cf36c0c0e63fc0c0fdafc0c11587c0c12dcdc0c14683c0c15fb0c0c17956c0c1937bc0c1ae23c0c1c955c0c1e516c0c2016bc0c21e5cc0c23befc0c25a2cc0c2791ac0c298c2c0c2b92dc0c2da65c0c2fc75c0c31f67c0c34347c0c36825c0c38e0cc0c3b50fc0c3dd3cc0c406a8c0c43168c0c45d90c0c48b3cc0c4ba86c0c4eb8ec0c51e76c0c55364c0c58a85c0c5c40ac0c6002ac0c63f27c0c6814bc0c6c6ecc0c7106fc0c75e4bc0c7b10dc0c80962c0c8681ac0c8ce37c0c93d01c0c9b619c0ca3ba5c0cad08dc0cb78dfc0cc3a8bc0cd1eb9c0ce34b6c0cf990cc0d18b6cc0d4d54800000000,
  0xc0b53791c0b53a52c0b53d13c0b53fd7c0b5429bc0b54561c0b54829c0b54af2c0b54dbcc0b55087c0b55354c0b55622c0b558f2c0b55bc3c0b55e96c0b5616ac0b5643fc0b56716c0b569eec0b56cc7c0b56fa3c0b5727fc0b5755dc0b5783cc0b57b1dc0b57e00c0b580e4c0b583c9c0b586b0c0b58998c0b58c82c0b58f6dc0b5925ac0b59548c0b59838c0b59b2ac0b59e1cc0b5a111c0b5a407c0b5a6ffc0b5a9f8c0b5acf3c0b5afefc0b5b2edc0b5b5ecc0b5b8edc0b5bbf0c0b5bef4c0b5c1fac0b5c502c0b5c80bc0b5cb16c0b5ce22c0b5d130c0b5d440c0b5d752c0b5da65c0b5dd7ac0b5e090c0b5e3a8c0b5e6c2c0b5e9dec0b5ecfbc0b5f01ac0b5f33bc0b5f65ec0b5f982c0b5fca8c0b5ffd0c0b602f9c0b60625c0b60952c0b60c81c0b60fb2c0b612e4c0b61619c0b6194fc0b61c87c0b61fc1c0b622fdc0b6263ac0b6297ac0b62cbbc0b62ffec0b63344c0b6368bc0b639d4c0b63d1fc0b6406bc0b643bac0b6470bc0b64a5ec0b64db2c0b65109c0b65462c0b657bcc0b65b19c0b65e78c0b661d8c0b6653bc0b668a0c0b66c07c0b66f70c0b672dbc0b67648c0b679b7c0b67d28c0b6809bc0b68411c0b68789c0b68b02c0b68e7ec0b691fdc0b6957dc0b698ffc0b69c84c0b6a00bc0b6a394c0b6a720c0b6aaadc0b6ae3dc0b6b1cfc0b6b564c0b6b8fac0b6bc93c0b6c02fc0b6c3ccc0b6c76cc0b6cb0fc0b6ceb4c0b6d25bc0b6d604c0b6d9b0c0b6dd5ec0b6e10fc0b6e4c2c0b6e878c0b6ec30c0b6efebc0b6f3a8c0b6f767c0b6fb29c0b6feeec0b702b5c0b7067fc0b70a4bc0b70e1ac0b711ebc0b715bfc0b71996c0b71d6fc0b7214bc0b7252ac0b7290bc0b72cefc0b730d6c0b734c0c0b738acc0b73c9bc0b7408dc0b74481c0b74879c0b74c73c0b75070c0b75470c0b75873c0b75c78c0b76081c0b7648cc0b7689bc0b76cacc0b770c1c0b774d8c0b778f2c0b77d10c0b78130c0b78554c0b7897ac0b78da4c0b791d1c0b79601c0b79a34c0b79e6ac0b7a2a3c0b7a6e0c0b7ab20c0b7af63c0b7b3a9c0b7b7f3c0b7bc40c0b7c090c0b7c4e4c0b7c93bc0b7cd95c0b7d1f3c0b7d654c0b7dab9c0b7df21c0b7e38dc0b7e7fcc0b7ec6fc0b7f0e5c0b7f55fc0b7f9ddc0b7fe5ec0b802e3c0b8076bc0b80bf7c0b81087c0b8151bc0b819b2c0b81e4ec0b822edc0b82790c0b82c36c0b830e1c0b83590c0b83a42c0b83ef9c0b843b4c0b84872c0b84d35c0b851fcc0b856c7c0b85b96c0b86069c0b86540c0b86a1cc0b86efcc0b873e0c0b878c9c0b87db6c0b882a7c0b8879dc0b88c97c0b89196c0b89699c0b89ba1c0b8a0adc0b8a5bec0b8aad3c0b8afeec0b8b50dc0b8ba30c0b8bf59c0b8c486c0b8c9b8c0b8ceefc0b8d42bc0b8d96cc0b8deb2c0b8e3fdc0b8e94dc0b8eea2c0b8f3fcc0b8f95c,
  0xc0b2f98ec0b2fb69c0b2fd45c0b2ff21c0b300fdc0b302dbc0b304b8c0b30697c0b30876c0b30a56c0b30c36c0b30e17c0b30ff9c0b311dbc0b313bec0b315a1c0b31785c0b3196ac0b31b4fc0b31d35c0b31f1bc0b32103c0b322eac0b324d3c0b326bcc0b328a6c0b32a90c0b32c7bc0b32e67c0b33053c0b33240c0b3342ec0b3361cc0b3380bc0b339fac0b33bebc0b33ddbc0b33fcdc0b341bfc0b343b2c0b345a6c0b3479ac0b3498fc0b34b84c0b34d7ac0b34f71c0b35169c0b35361c0b3555ac0b35754c0b3594ec0b35b49c0b35d45c0b35f41c0b3613ec0b3633cc0b3653ac0b36739c0b36939c0b36b3ac0b36d3bc0b36f3dc0b37140c0b37343c0b37547c0b3774cc0b37951c0b37b57c0b37d5ec0b37f66c0b3816ec0b38378c0b38581c0b3878cc0b38997c0b38ba3c0b38db0c0b38fbec0b391ccc0b393dbc0b395eac0b397fbc0b39a0cc0b39c1ec0b39e31c0b3a044c0b3a259c0b3a46ec0b3a683c0b3a89ac0b3aab1c0b3acc9c0b3aee2c0b3b0fcc0b3b316c0b3b531c0b3b74dc0b3b96ac0b3bb87c0b3bda6c0b3bfc5c0b3c1e5c0b3c405c0b3c627c0b3c849c0b3ca6cc0b3cc90c0b3ceb4c0b3d0dac0b3d300c0b3d527c0b3d74fc0b3d978c0b3dba1c0b3ddccc0b3dff7c0b3e223c0b3e450c0b3e67ec0b3e8acc0b3eadbc0b3ed0cc0b3ef3dc0b3f16fc0b3f3a1c0b3f5d5c0b3f809c0b3fa3fc0b3fc75c0b3feacc0b400e4c0b4031cc0b40556c0b40790c0b409ccc0b40c08c0b40e45c0b41083c0b412c2c0b41502c0b41742c0b41984c0b41bc6c0b41e0ac0b4204ec0b42293c0b424d9c0b42720c0b42968c0b42bb1c0b42dfbc0b43045c0b43291c0b434ddc0b4372bc0b43979c0b43bc8c0b43e19c0b4406ac0b442bcc0b4450fc0b44763c0b449b8c0b44c0ec0b44e65c0b450bdc0b45316c0b4556fc0b457cac0b45a26c0b45c83c0b45ee0c0b4613fc0b4639fc0b46600c0b46861c0b46ac4c0b46d28c0b46f8cc0b471f2c0b47459c0b476c1c0b47929c0b47b93c0b47dfec0b4806ac0b482d7c0b48545c0b487b4c0b48a24c0b48c95c0b48f07c0b4917ac0b493eec0b49664c0b498dac0b49b52c0b49dcac0b4a044c0b4a2bec0b4a53ac0b4a7b7c0b4aa35c0b4acb4c0b4af34c0b4b1b6c0b4b438c0b4b6bbc0b4b940c0b4bbc6c0b4be4dc0b4c0d5c0b4c35ec0b4c5e8c0b4c873c0b4cb00c0b4cd8dc0b4d01cc0b4d2acc0b4d53dc0b4d7d0c0b4da63c0b4dcf8c0b4df8ec0b4e225c0b4e4bdc0b4e756c0b4e9f1c0b4ec8dc0b4ef2ac0b4f1c8c0b4f467c0b4f708c0b4f9aac0b4fc4dc0b4fef1c0b50197c0b5043ec0b506e6c0b5098fc0b50c3ac0b50ee5c0b51192c0b51441c0b516f0c0b519a1c0b51c54c0b51f07c0b521bcc0b52472c0b52729c0b529e2c0b52c9cc0b52f57c0b53214c0b534d2,
  0xc0b15e55c0b15fbcc0b16123c0b1628bc0b163f3c0b1655bc0b166c4c0b1682dc0b16996c0b16b00c0b16c6ac0b16dd5c0b16f40c0b170abc0b17216c0b17382c0b174eec0b1765bc0b177c8c0b17935c0b17aa2c0b17c10c0b17d7fc0b17eedc0b1805cc0b181ccc0b1833bc0b184acc0b1861cc0b1878dc0b188fec0b18a70c0b18be1c0b18d54c0b18ec6c0b19039c0b191adc0b19320c0b19494c0b19609c0b1977ec0b198f3c0b19a68c0b19bdec0b19d55c0b19ecbc0b1a042c0b1a1bac0b1a331c0b1a4aac0b1a622c0b1a79bc0b1a914c0b1aa8ec0b1ac08c0b1ad82c0b1aefdc0b1b078c0b1b1f4c0b1b370c0b1b4ecc0b1b669c0b1b7e6c0b1b963c0b1bae1c0b1bc5fc0b1bddec0b1bf5dc0b1c0dcc0b1c25cc0b1c3dcc0b1c55dc0b1c6dec0b1c85fc0b1c9e1c0b1cb63c0b1cce6c0b1ce69c0b1cfecc0b1d170c0b1d2f4c0b1d478c0b1d5fdc0b1d783c0b1d908c0b1da8fc0b1dc15c0b1dd9cc0b1df23c0b1e0abc0b1e233c0b1e3bcc0b1e545c0b1e6cec0b1e858c0b1e9e2c0b1eb6dc0b1ecf8c0b1ee83c0b1f00fc0b1f19cc0b1f328c0b1f4b5c0b1f643c0b1f7d1c0b1f95fc0b1faeec0b1fc7dc0b1fe0dc0b1ff9dc0b2012dc0b202bec0b20450c0b205e2c0b20774c0b20906c0b20a99c0b20c2dc0b20dc1c0b20f55c0b210eac0b2127fc0b21415c0b215abc0b21742c0b218d9c0b21a70c0b21c08c0b21da0c0b21f39c0b220d2c0b2226cc0b22406c0b225a0c0b2273bc0b228d7c0b22a73c0b22c0fc0b22dacc0b22f49c0b230e7c0b23285c0b23423c0b235c2c0b23762c0b23902c0b23aa2c0b23c43c0b23de5c0b23f86c0b24129c0b242cbc0b2446fc0b24612c0b247b6c0b2495bc0b24b00c0b24ca6c0b24e4cc0b24ff2c0b25199c0b25341c0b254e9c0b25691c0b2583ac0b259e3c0b25b8dc0b25d38c0b25ee2c0b2608ec0b26239c0b263e6c0b26592c0b26740c0b268edc0b26a9cc0b26c4ac0b26dfac0b26fa9c0b2715ac0b2730ac0b274bcc0b2766dc0b2781fc0b279d2c0b27b85c0b27d39c0b27eedc0b280a2c0b28257c0b2840dc0b285c3c0b2877ac0b28931c0b28ae9c0b28ca1c0b28e5ac0b29014c0b291cdc0b29388c0b29543c0b296fec0b298bac0b29a77c0b29c34c0b29df1c0b29fafc0b2a16ec0b2a32dc0b2a4edc0b2a6adc0b2a86ec0b2aa2fc0b2abf1c0b2adb3c0b2af76c0b2b139c0b2b2fdc0b2b4c2c0b2b687c0b2b84cc0b2ba13c0b2bbd9c0b2bda1c0b2bf68c0b2c131c0b2c2fac0b2c4c3c0b2c68dc0b2c858c0b2ca23c0b2cbefc0b2cdbbc0b2cf88c0b2d155c0b2d323c0b2d4f2c0b2d6c1c0b2d890c0b2da61c0b2dc32c0b2de03c0b2dfd5c0b2e1a7c0b2e37bc0b2e54ec0b2e723c0b2e8f8c0b2eacdc0b2eca3c0b2ee7ac0b2f051c0b2f229c0b2f401c0b2f5dac0b2f7b4,
  0xc0b01d02c0b01e23c0b01f44c0b02066c0b02187c0b022a9c0b023ccc0b024eec0b02610c0b02733c0b02856c0b0297ac0b02a9dc0b02bc1c0b02ce5c0b02e09c0b02f2dc0b03052c0b03177c0b0329cc0b033c1c0b034e6c0b0360cc0b03732c0b03858c0b0397fc0b03aa5c0b03bccc0b03cf3c0b03e1bc0b03f42c0b0406ac0b04192c0b042bac0b043e3c0b0450bc0b04634c0b0475ec0b04887c0b049b1c0b04adac0b04c05c0b04d2fc0b04e59c0b04f84c0b050afc0b051dbc0b05306c0b05432c0b0555ec0b0568ac0b057b6c0b058e3c0b05a10c0b05b3dc0b05c6bc0b05d98c0b05ec6c0b05ff4c0b06123c0b06251c0b06380c0b064afc0b065dec0b0670ec0b0683ec0b0696ec0b06a9ec0b06bcfc0b06cffc0b06e30c0b06f62c0b07093c0b071c5c0b072f7c0b07429c0b0755cc0b0768fc0b077c2c0b078f5c0b07a28c0b07b5cc0b07c90c0b07dc4c0b07ef9c0b0802ec0b08162c0b08298c0b083cdc0b08503c0b08639c0b0876fc0b088a6c0b089ddc0b08b14c0b08c4bc0b08d82c0b08ebac0b08ff2c0b0912ac0b09263c0b0939cc0b094d5c0b0960ec0b09748c0b09882c0b099bcc0b09af6c0b09c31c0b09d6cc0b09ea7c0b09fe2c0b0a11ec0b0a25ac0b0a396c0b0a4d2c0b0a60fc0b0a74cc0b0a889c0b0a9c7c0b0ab05c0b0ac43c0b0ad81c0b0aebfc0b0affec0b0b13dc0b0b27dc0b0b3bcc0b0b4fcc0b0b63dc0b0b77dc0b0b8bec0b0b9ffc0b0bb40c0b0bc82c0b0bdc3c0b0bf05c0b0c048c0b0c18ac0b0c2cdc0b0c411c0b0c554c0b0c698c0b0c7dcc0b0c920c0b0ca65c0b0cba9c0b0ccefc0b0ce34c0b0cf7ac0b0d0c0c0b0d206c0b0d34cc0b0d493c0b0d5dac0b0d722c0b0d869c0b0d9b1c0b0daf9c0b0dc42c0b0dd8bc0b0ded4c0b0e01dc0b0e167c0b0e2b1c0b0e3fbc0b0e545c0b0e690c0b0e7dbc0b0e927c0b0ea72c0b0ebbec0b0ed0bc0b0ee57c0b0efa4c0b0f0f1c0b0f23ec0b0f38cc0b0f4dac0b0f628c0b0f777c0b0f8c6c0b0fa15c0b0fb65c0b0fcb4c0b0fe04c0b0ff55c0b100a5c0b101f6c0b10348c0b10499c0b105ebc0b1073dc0b10890c0b109e2c0b10b36c0b10c89c0b10dddc0b10f31c0b11085c0b111d9c0b1132ec0b11484c0b115d9c0b1172fc0b11885c0b119dbc0b11b32c0b11c89c0b11de1c0b11f38c0b12090c0b121e9c0b12341c0b1249ac0b125f3c0b1274dc0b128a7c0b12a01c0b12b5cc0b12cb6c0b12e12c0b12f6dc0b130c9c0b13225c0b13381c0b134dec0b1363bc0b13799c0b138f6c0b13a54c0b13bb3c0b13d11c0b13e70c0b13fd0c0b1412fc0b1428fc0b143f0c0b14550c0b146b1c0b14813c0b14974c0b14ad6c0b14c39c0b14d9bc0b14efec0b15061c0b151c5c0b15329c0b1548dc0b155f2c0b15757c0b158bcc0b15a22c0b15b88c0b15cee,
  0xc0af14e6c0af15d8c0af16cac0af17bdc0af18afc0af19a2c0af1a95c0af1b88c0af1c7bc0af1d6fc0af1e62c0af1f56c0af204ac0af213ec0af2232c0af2326c0af241bc0af2510c0af2604c0af26f9c0af27eec0af28e4c0af29d9c0af2acfc0af2bc4c0af2cbac0af2db0c0af2ea7c0af2f9dc0af3093c0af318ac0af3281c0af3378c0af346fc0af3566c0af365ec0af3756c0af384dc0af3945c0af3a3dc0af3b36c0af3c2ec0af3d27c0af3e20c0af3f19c0af4012c0af410bc0af4204c0af42fec0af43f8c0af44f2c0af45ecc0af46e6c0af47e0c0af48dbc0af49d5c0af4ad0c0af4bcbc0af4cc7c0af4dc2c0af4ebec0af4fb9c0af50b5c0af51b1c0af52adc0af53aac0af54a6c0af55a3c0af56a0c0af579dc0af589ac0af5998c0af5a95c0af5b93c0af5c91c0af5d8fc0af5e8dc0af5f8bc0af608ac0af6189c0af6288c0af6387c0af6486c0af6585c0af6685c0af6785c0af6884c0af6985c0af6a85c0af6b85c0af6c86c0af6d87c0af6e88c0af6f89c0af708ac0af718bc0af728dc0af738fc0af7491c0af7593c0af7695c0af7798c0af789bc0af799ec0af7aa1c0af7ba4c0af7ca7c0af7dabc0af7eaec0af7fb2c0af80b6c0af81bbc0af82bfc0af83c4c0af84c9c0af85cec0af86d3c0af87d8c0af88dec0af89e3c0af8ae9c0af8befc0af8cf6c0af8dfcc0af8f03c0af9009c0af9110c0af9217c0af931fc0af9426c0af952ec0af9636c0af973ec0af9846c0af994ec0af9a57c0af9b60c0af9c69c0af9d72c0af9e7bc0af9f85c0afa08fc0afa198c0afa2a2c0afa3adc0afa4b7c0afa5c2c0afa6cdc0afa7d8c0afa8e3c0afa9eec0afaafac0afac05c0afad11c0afae1ec0afaf2ac0afb036c0afb143c0afb250c0afb35dc0afb46ac0afb578c0afb685c0afb793c0afb8a1c0afb9afc0afbabec0afbbccc0afbcdbc0afbdeac0afbef9c0afc009c0afc118c0afc228c0afc338c0afc448c0afc558c0afc669c0afc77ac0afc88bc0afc99cc0afcaadc0afcbbfc0afccd0c0afcde2c0afcef4c0afd006c0afd119c0afd22cc0afd33fc0afd452c0afd565c0afd678c0afd78cc0afd8a0c0afd9b4c0afdac8c0afdbddc0afdcf1c0afde06c0afdf1bc0afe031c0afe146c0afe25cc0afe372c0afe488c0afe59ec0afe6b5c0afe7cbc0afe8e2c0afe9f9c0afeb11c0afec28c0afed40c0afee58c0afef70c0aff088c0aff1a1c0aff2b9c0aff3d2c0aff4ecc0aff605c0aff71fc0aff838c0aff952c0affa6cc0affb87c0affca2c0affdbcc0affed7c0affff3c0b0010ec0b0022ac0b00346c0b00462c0b0057ec0b0069bc0b007b7c0b008d4c0b009f1c0b00b0fc0b00c2cc0b00d4ac0b00e68c0b00f86c0b010a5c0b011c3c0b012e2c0b01401c0b01521c0b01640c0b01760c0b01880c0b019a0c0b01ac0c0b01be1,
  0xc0ae3479c0ae3549c0ae361ac0ae36ebc0ae37bcc0ae388cc0ae395ec0ae3a2fc0ae3b00c0ae3bd2c0ae3ca3c0ae3d75c0ae3e47c0ae3f18c0ae3feac0ae40bdc0ae418fc0ae4261c0ae4334c0ae4406c0ae44d9c0ae45acc0ae467fc0ae4752c0ae4825c0ae48f8c0ae49cbc0ae4a9fc0ae4b73c0ae4c46c0ae4d1ac0ae4deec0ae4ec2c0ae4f96c0ae506bc0ae513fc0ae5214c0ae52e8c0ae53bdc0ae5492c0ae5567c0ae563cc0ae5711c0ae57e7c0ae58bcc0ae5992c0ae5a68c0ae5b3dc0ae5c13c0ae5ceac0ae5dc0c0ae5e96c0ae5f6dc0ae6043c0ae611ac0ae61f1c0ae62c8c0ae639fc0ae6476c0ae654dc0ae6624c0ae66fcc0ae67d4c0ae68abc0ae6983c0ae6a5bc0ae6b33c0ae6c0cc0ae6ce4c0ae6dbdc0ae6e95c0ae6f6ec0ae7047c0ae7120c0ae71f9c0ae72d2c0ae73abc0ae7485c0ae755fc0ae7638c0ae7712c0ae77ecc0ae78c6c0ae79a0c0ae7a7bc0ae7b55c0ae7c30c0ae7d0ac0ae7de5c0ae7ec0c0ae7f9bc0ae8077c0ae8152c0ae822dc0ae8309c0ae83e5c0ae84c1c0ae859cc0ae8679c0ae8755c0ae8831c0ae890ec0ae89eac0ae8ac7c0ae8ba4c0ae8c81c0ae8d5ec0ae8e3bc0ae8f18c0ae8ff6c0ae90d4c0ae91b1c0ae928fc0ae936dc0ae944bc0ae952ac0ae9608c0ae96e6c0ae97c5c0ae98a4c0ae9983c0ae9a62c0ae9b41c0ae9c20c0ae9d00c0ae9ddfc0ae9ebfc0ae9f9fc0aea07fc0aea15fc0aea23fc0aea31fc0aea400c0aea4e0c0aea5c1c0aea6a2c0aea783c0aea864c0aea945c0aeaa27c0aeab08c0aeabeac0aeaccbc0aeadadc0aeae8fc0aeaf72c0aeb054c0aeb136c0aeb219c0aeb2fcc0aeb3dec0aeb4c1c0aeb5a5c0aeb688c0aeb76bc0aeb84fc0aeb932c0aeba16c0aebafac0aebbdec0aebcc2c0aebda7c0aebe8bc0aebf70c0aec054c0aec139c0aec21ec0aec303c0aec3e9c0aec4cec0aec5b4c0aec699c0aec77fc0aec865c0aec94bc0aeca32c0aecb18c0aecbffc0aecce5c0aecdccc0aeceb3c0aecf9ac0aed081c0aed169c0aed250c0aed338c0aed41fc0aed507c0aed5efc0aed6d8c0aed7c0c0aed8a8c0aed991c0aeda7ac0aedb63c0aedc4cc0aedd35c0aede1ec0aedf08c0aedff1c0aee0dbc0aee1c5c0aee2afc0aee399c0aee484c0aee56ec0aee659c0aee743c0aee82ec0aee919c0aeea04c0aeeaf0c0aeebdbc0aeecc7c0aeedb3c0aeee9fc0aeef8bc0aef077c0aef163c0aef250c0aef33cc0aef429c0aef516c0aef603c0aef6f0c0aef7dec0aef8cbc0aef9b9c0aefaa7c0aefb95c0aefc83c0aefd71c0aefe5fc0aeff4ec0af003dc0af012bc0af021ac0af030ac0af03f9c0af04e8c0af05d8c0af06c8c0af07b8c0af08a8c0af0998c0af0a88c0af0b79c0af0c69c0af0d5ac0af0e4bc0af0f3cc0af102dc0af111fc0af1210c0af1302c0af13f4,
  0xc0ad7138c0ad71efc0ad72a6c0ad735ec0ad7415c0ad74cdc0ad7584c0ad763cc0ad76f4c0ad77acc0ad7864c0ad791cc0ad79d4c0ad7a8cc0ad7b44c0ad7bfdc0ad7cb5c0ad7d6ec0ad7e27c0ad7edfc0ad7f98c0ad8051c0ad810ac0ad81c3c0ad827cc0ad8336c0ad83efc0ad84a9c0ad8562c0ad861cc0ad86d6c0ad878fc0ad8849c0ad8903c0ad89bdc0ad8a78c0ad8b32c0ad8becc0ad8ca7c0ad8d61c0ad8e1cc0ad8ed7c0ad8f92c0ad904cc0ad9107c0ad91c3c0ad927ec0ad9339c0ad93f4c0ad94b0c0ad956bc0ad9627c0ad96e3c0ad979fc0ad985ac0ad9916c0ad99d3c0ad9a8fc0ad9b4bc0ad9c07c0ad9cc4c0ad9d80c0ad9e3dc0ad9efac0ad9fb7c0ada074c0ada131c0ada1eec0ada2abc0ada368c0ada426c0ada4e3c0ada5a1c0ada65ec0ada71cc0ada7dac0ada898c0ada956c0adaa14c0adaad2c0adab91c0adac4fc0adad0dc0adadccc0adae8bc0adaf4ac0adb008c0adb0c7c0adb186c0adb246c0adb305c0adb3c4c0adb484c0adb543c0adb603c0adb6c3c0adb782c0adb842c0adb902c0adb9c3c0adba83c0adbb43c0adbc03c0adbcc4c0adbd85c0adbe45c0adbf06c0adbfc7c0adc088c0adc149c0adc20ac0adc2cbc0adc38dc0adc44ec0adc510c0adc5d1c0adc693c0adc755c0adc817c0adc8d9c0adc99bc0adca5dc0adcb20c0adcbe2c0adcca5c0adcd67c0adce2ac0adceedc0adcfb0c0add073c0add136c0add1f9c0add2bdc0add380c0add443c0add507c0add5cbc0add68fc0add753c0add817c0add8dbc0add99fc0adda63c0addb28c0addbecc0addcb1c0addd75c0adde3ac0addeffc0addfc4c0ade089c0ade14fc0ade214c0ade2d9c0ade39fc0ade464c0ade52ac0ade5f0c0ade6b6c0ade77cc0ade842c0ade908c0ade9cfc0adea95c0adeb5cc0adec22c0adece9c0adedb0c0adee77c0adef3ec0adf005c0adf0ccc0adf194c0adf25bc0adf323c0adf3eac0adf4b2c0adf57ac0adf642c0adf70ac0adf7d2c0adf89ac0adf963c0adfa2bc0adfaf4c0adfbbdc0adfc86c0adfd4ec0adfe17c0adfee1c0adffaac0ae0073c0ae013dc0ae0206c0ae02d0c0ae039ac0ae0463c0ae052dc0ae05f7c0ae06c2c0ae078cc0ae0856c0ae0921c0ae09ebc0ae0ab6c0ae0b81c0ae0c4cc0ae0d17c0ae0de2c0ae0eadc0ae0f79c0ae1044c0ae1110c0ae11dbc0ae12a7c0ae1373c0ae143fc0ae150bc0ae15d7c0ae16a4c0ae1770c0ae183dc0ae1909c0ae19d6c0ae1aa3c0ae1b70c0ae1c3dc0ae1d0ac0ae1dd7c0ae1ea5c0ae1f72c0ae2040c0ae210ec0ae21dcc0ae22aac0ae2378c0ae2446c0ae2514c0ae25e2c0ae26b1c0ae2780c0ae284ec0ae291dc0ae29ecc0ae2abbc0ae2b8ac0ae2c5ac0ae2d29c0ae2df9c0ae2ec8c0ae2f98c0ae3068c0ae3138c0ae3208c0ae32d8c0ae33a8] ++
  [0xc0acc454c0acc4f8c0acc59bc0acc63fc0acc6e2c0acc786c0acc82ac0acc8cec0acc971c0acca15c0accab9c0accb5ec0accc02c0accca6c0accd4ac0accdefc0acce93c0accf38c0accfdcc0acd081c0acd126c0acd1cbc0acd26fc0acd314c0acd3b9c0acd45ec0acd504c0acd5a9c0acd64ec0acd6f4c0acd799c0acd83fc0acd8e4c0acd98ac0acda2fc0acdad5c0acdb7bc0acdc21c0acdcc7c0acdd6dc0acde13c0acdebac0acdf60c0ace006c0ace0adc0ace153c0ace1fac0ace2a0c0ace347c0ace3eec0ace495c0ace53cc0ace5e3c0ace68ac0ace731c0ace7d8c0ace880c0ace927c0ace9cec0acea76c0aceb1dc0acebc5c0acec6dc0aced15c0acedbcc0acee64c0acef0cc0acefb5c0acf05dc0acf105c0acf1adc0acf256c0acf2fec0acf3a7c0acf44fc0acf4f8c0acf5a1c0acf64ac0acf6f2c0acf79bc0acf844c0acf8eec0acf997c0acfa40c0acfae9c0acfb93c0acfc3cc0acfce6c0acfd8fc0acfe39c0acfee3c0acff8dc0ad0037c0ad00e1c0ad018bc0ad0235c0ad02dfc0ad038ac0ad0434c0ad04dec0ad0589c0ad0634c0ad06dec0ad0789c0ad0834c0ad08dfc0ad098ac0ad0a35c0ad0ae0c0ad0b8bc0ad0c36c0ad0ce2c0ad0d8dc0ad0e39c0ad0ee4c0ad0f90c0ad103cc0ad10e8c0ad1193c0ad123fc0ad12ebc0ad1398c0ad1444c0ad14f0c0ad159cc0ad1649c0ad16f5c0ad17a2c0ad184fc0ad18fbc0ad19a8c0ad1a55c0ad1b02c0ad1bafc0ad1c5cc0ad1d09c0ad1db7c0ad1e64c0ad1f11c0ad1fbfc0ad206dc0ad211ac0ad21c8c0ad2276c0ad2324c0ad23d2c0ad2480c0ad252ec0ad25dcc0ad268ac0ad2739c0ad27e7c0ad2896c0ad2944c0ad29f3c0ad2aa2c0ad2b51c0ad2bffc0ad2caec0ad2d5ec0ad2e0dc0ad2ebcc0ad2f6bc0ad301bc0ad30cac0ad317ac0ad3229c0ad32d9c0ad3389c0ad3439c0ad34e9c0ad3599c0ad3649c0ad36f9c0ad37a9c0ad385ac0ad390ac0ad39bbc0ad3a6bc0ad3b1cc0ad3bcdc0ad3c7dc0ad3d2ec0ad3ddfc0ad3e90c0ad3f42c0ad3ff3c0ad40a4c0ad4156c0ad4207c0ad42b9c0ad436ac0ad441cc0ad44cec0ad4580c0ad4632c0ad46e4c0ad4796c0ad4848c0ad48fac0ad49adc0ad4a5fc0ad4b12c0ad4bc4c0ad4c77c0ad4d2ac0ad4dddc0ad4e90c0ad4f43c0ad4ff6c0ad50a9c0ad515cc0ad5210c0ad52c3c0ad5377c0ad542ac0ad54dec0ad5592c0ad5646c0ad56fac0ad57aec0ad5862c0ad5916c0ad59cac0ad5a7fc0ad5b33c0ad5be8c0ad5c9cc0ad5d51c0ad5e06c0ad5ebbc0ad5f70c0ad6025c0ad60dac0ad618fc0ad6244c0ad62fac0ad63afc0ad6465c0ad651bc0ad65d0c0ad6686c0ad673cc0ad67f2c0ad68a8c0ad695ec0ad6a14c0ad6acbc0ad6b81c0ad6c38c0ad6ceec0ad6da5c0ad6e5cc0ad6f13c0ad6fcac0ad7081,
  0xc0ac2924c0ac29b8c0ac2a4bc0ac2adfc0ac2b73c0ac2c06c0ac2c9ac0ac2d2ec0ac2dc2c0ac2e56c0ac2eeac0ac2f7ec0ac3012c0ac30a7c0ac313bc0ac31cfc0ac3264c0ac32f8c0ac338dc0ac3421c0ac34b6c0ac354bc0ac35dfc0ac3674c0ac3709c0ac379ec0ac3833c0ac38c8c0ac395dc0ac39f2c0ac3a87c0ac3b1dc0ac3bb2c0ac3c47c0ac3cddc0ac3d72c0ac3e08c0ac3e9dc0ac3f33c0ac3fc9c0ac405fc0ac40f4c0ac418ac0ac4220c0ac42b6c0ac434cc0ac43e2c0ac4479c0ac450fc0ac45a5c0ac463bc0ac46d2c0ac4768c0ac47ffc0ac4895c0ac492cc0ac49c3c0ac4a59c0ac4af0c0ac4b87c0ac4c1ec0ac4cb5c0ac4d4cc0ac4de3c0ac4e7ac0ac4f12c0ac4fa9c0ac5040c0ac50d8c0ac516fc0ac5207c0ac529ec0ac5336c0ac53cec0ac5465c0ac54fdc0ac5595c0ac562dc0ac56c5c0ac575dc0ac57f5c0ac588dc0ac5926c0ac59bec0ac5a56c0ac5aefc0ac5b87c0ac5c20c0ac5cb8c0ac5d51c0ac5deac0ac5e82c0ac5f1bc0ac5fb4c0ac604dc0ac60e6c0ac617fc0ac6218c0ac62b1c0ac634bc0ac63e4c0ac647dc0ac6517c0ac65b0c0ac664ac0ac66e3c0ac677dc0ac6817c0ac68b1c0ac694ac0ac69e4c0ac6a7ec0ac6b18c0ac6bb2c0ac6c4dc0ac6ce7c0ac6d81c0ac6e1bc0ac6eb6c0ac6f50c0ac6febc0ac7085c0ac7120c0ac71bbc0ac7256c0ac72f0c0ac738bc0ac7426c0ac74c1c0ac755cc0ac75f8c0ac7693c0ac772ec0ac77c9c0ac7865c0ac7900c0ac799cc0ac7a37c0ac7ad3c0ac7b6fc0ac7c0ac0ac7ca6c0ac7d42c0ac7ddec0ac7e7ac0ac7f16c0ac7fb2c0ac804ec0ac80ebc0ac8187c0ac8223c0ac82c0c0ac835cc0ac83f9c0ac8496c0ac8532c0ac85cfc0ac866cc0ac8709c0ac87a6c0ac8843c0ac88e0c0ac897dc0ac8a1ac0ac8ab8c0ac8b55c0ac8bf2c0ac8c90c0ac8d2dc0ac8dcbc0ac8e69c0ac8f06c0ac8fa4c0ac9042c0ac90e0c0ac917ec0ac921cc0ac92bac0ac9358c0ac93f6c0ac9495c0ac9533c0ac95d1c0ac9670c0ac970ec0ac97adc0ac984cc0ac98ebc0ac9989c0ac9a28c0ac9ac7c0ac9b66c0ac9c05c0ac9ca4c0ac9d44c0ac9de3c0ac9e82c0ac9f22c0ac9fc1c0aca061c0aca100c0aca1a0c0aca240c0aca2dfc0aca37fc0aca41fc0aca4bfc0aca55fc0aca5ffc0aca6a0c0aca740c0aca7e0c0aca881c0aca921c0aca9c2c0acaa62c0acab03c0acaba4c0acac44c0acace5c0acad86c0acae27c0acaec8c0acaf69c0acb00ac0acb0acc0acb14dc0acb1eec0acb290c0acb331c0acb3d3c0acb475c0acb516c0acb5b8c0acb65ac0acb6fcc0acb79ec0acb840c0acb8e2c0acb984c0acba27c0acbac9c0acbb6bc0acbc0ec0acbcb0c0acbd53c0acbdf6c0acbe98c0acbf3bc0acbfdec0acc081c0acc124c0acc1c7c0acc26ac0acc30dc0acc3b1,
  0xc0ab9c51c0ab9cd8c0ab9d5fc0ab9de5c0ab9e6cc0ab9ef3c0ab9f79c0aba000c0aba087c0aba10ec0aba195c0aba21cc0aba2a3c0aba32ac0aba3b1c0aba438c0aba4c0c0aba547c0aba5cec0aba656c0aba6ddc0aba765c0aba7ecc0aba874c0aba8fbc0aba983c0abaa0bc0abaa92c0abab1ac0ababa2c0abac2ac0abacb2c0abad3ac0abadc2c0abae4ac0abaed2c0abaf5ac0abafe3c0abb06bc0abb0f3c0abb17cc0abb204c0abb28dc0abb315c0abb39ec0abb426c0abb4afc0abb538c0abb5c0c0abb649c0abb6d2c0abb75bc0abb7e4c0abb86dc0abb8f6c0abb97fc0abba08c0abba91c0abbb1bc0abbba4c0abbc2dc0abbcb7c0abbd40c0abbdc9c0abbe53c0abbeddc0abbf66c0abbff0c0abc07ac0abc103c0abc18dc0abc217c0abc2a1c0abc32bc0abc3b5c0abc43fc0abc4c9c0abc553c0abc5ddc0abc668c0abc6f2c0abc77cc0abc807c0abc891c0abc91cc0abc9a6c0abca31c0abcabbc0abcb46c0abcbd1c0abcc5cc0abcce7c0abcd71c0abcdfcc0abce87c0abcf12c0abcf9ec0abd029c0abd0b4c0abd13fc0abd1cac0abd256c0abd2e1c0abd36dc0abd3f8c0abd484c0abd50fc0abd59bc0abd626c0abd6b2c0abd73ec0abd7cac0abd856c0abd8e2c0abd96ec0abd9fac0abda86c0abdb12c0abdb9ec0abdc2ac0abdcb7c0abdd43c0abddcfc0abde5cc0abdee8c0abdf75c0abe001c0abe08ec0abe11bc0abe1a8c0abe234c0abe2c1c0abe34ec0abe3dbc0abe468c0abe4f5c0abe582c0abe60fc0abe69dc0abe72ac0abe7b7c0abe844c0abe8d2c0abe95fc0abe9edc0abea7ac0abeb08c0abeb96c0abec23c0abecb1c0abed3fc0abedcdc0abee5bc0abeee9c0abef77c0abf005c0abf093c0abf121c0abf1afc0abf23ec0abf2ccc0abf35ac0abf3e9c0abf477c0abf506c0abf595c0abf623c0abf6b2c0abf741c0abf7cfc0abf85ec0abf8edc0abf97cc0abfa0bc0abfa9ac0abfb29c0abfbb9c0abfc48c0abfcd7c0abfd66c0abfdf6c0abfe85c0abff15c0abffa4c0ac0034c0ac00c3c0ac0153c0ac01e3c0ac0273c0ac0303c0ac0393c0ac0422c0ac04b2c0ac0543c0ac05d3c0ac0663c0ac06f3c0ac0783c0ac0814c0ac08a4c0ac0935c0ac09c5c0ac0a56c0ac0ae6c0ac0b77c0ac0c08c0ac0c98c0ac0d29c0ac0dbac0ac0e4bc0ac0edcc0ac0f6dc0ac0ffec0ac108fc0ac1120c0ac11b2c0ac1243c0ac12d4c0ac1366c0ac13f7c0ac1489c0ac151ac0ac15acc0ac163ec0ac16cfc0ac1761c0ac17f3c0ac1885c0ac1917c0ac19a9c0ac1a3bc0ac1acdc0ac1b5fc0ac1bf2c0ac1c84c0ac1d16c0ac1da9c0ac1e3bc0ac1ecdc0ac1f60c0ac1ff3c0ac2085c0ac2118c0ac21abc0ac223ec0ac22d1c0ac2364c0ac23f7c0ac248ac0ac251dc0ac25b0c0ac2643c0ac26d6c0ac276ac0ac27fdc0ac2891,
  0xc0ab1b64c0ab1bdfc0ab1c5bc0ab1cd7c0ab1d53c0ab1dcfc0ab1e4ac0ab1ec6c0ab1f42c0ab1fbec0ab203ac0ab20b6c0ab2132c0ab21aec0ab222bc0ab22a7c0ab2323c0ab239fc0ab241cc0ab2498c0ab2515c0ab2591c0ab260dc0ab268ac0ab2707c0ab2783c0ab2800c0ab287dc0ab28f9c0ab2976c0ab29f3c0ab2a70c0ab2aedc0ab2b6ac0ab2be6c0ab2c63c0ab2ce1c0ab2d5ec0ab2ddbc0ab2e58c0ab2ed5c0ab2f52c0ab2fd0c0ab304dc0ab30cac0ab3148c0ab31c5c0ab3243c0ab32c0c0ab333ec0ab33bbc0ab3439c0ab34b7c0ab3534c0ab35b2c0ab3630c0ab36aec0ab372cc0ab37aac0ab3828c0ab38a6c0ab3924c0ab39a2c0ab3a20c0ab3a9ec0ab3b1cc0ab3b9bc0ab3c19c0ab3c97c0ab3d16c0ab3d94c0ab3e13c0ab3e91c0ab3f10c0ab3f8ec0ab400dc0ab408bc0ab410ac0ab4189c0ab4208c0ab4286c0ab4305c0ab4384c0ab4403c0ab4482c0ab4501c0ab4580c0ab45ffc0ab467fc0ab46fec0ab477dc0ab47fcc0ab487cc0ab48fbc0ab497ac0ab49fac0ab4a79c0ab4af9c0ab4b78c0ab4bf8c0ab4c78c0ab4cf7c0ab4d77c0ab4df7c0ab4e77c0ab4ef7c0ab4f77c0ab4ff6c0ab5076c0ab50f6c0ab5177c0ab51f7c0ab5277c0ab52f7c0ab5377c0ab53f8c0ab5478c0ab54f8c0ab5579c0ab55f9c0ab567ac0ab56fac0ab577bc0ab57fbc0ab587cc0ab58fdc0ab597dc0ab59fec0ab5a7fc0ab5b00c0ab5b81c0ab5c02c0ab5c83c0ab5d04c0ab5d85c0ab5e06c0ab5e87c0ab5f08c0ab5f8ac0ab600bc0ab608cc0ab610ec0ab618fc0ab6211c0ab6292c0ab6314c0ab6395c0ab6417c0ab6499c0ab651ac0ab659cc0ab661ec0ab66a0c0ab6722c0ab67a4c0ab6826c0ab68a8c0ab692ac0ab69acc0ab6a2ec0ab6ab0c0ab6b32c0ab6bb5c0ab6c37c0ab6cb9c0ab6d3cc0ab6dbec0ab6e41c0ab6ec3c0ab6f46c0ab6fc9c0ab704bc0ab70cec0ab7151c0ab71d3c0ab7256c0ab72d9c0ab735cc0ab73dfc0ab7462c0ab74e5c0ab7568c0ab75ecc0ab766fc0ab76f2c0ab7775c0ab77f9c0ab787cc0ab78ffc0ab7983c0ab7a06c0ab7a8ac0ab7b0ec0ab7b91c0ab7c15c0ab7c99c0ab7d1cc0ab7da0c0ab7e24c0ab7ea8c0ab7f2cc0ab7fb0c0ab8034c0ab80b8c0ab813cc0ab81c0c0ab8245c0ab82c9c0ab834dc0ab83d2c0ab8456c0ab84dac0ab855fc0ab85e3c0ab8668c0ab86edc0ab8771c0ab87f6c0ab887bc0ab8900c0ab8984c0ab8a09c0ab8a8ec0ab8b13c0ab8b98c0ab8c1dc0ab8ca3c0ab8d28c0ab8dadc0ab8e32c0ab8eb7c0ab8f3dc0ab8fc2c0ab9048c0ab90cdc0ab9153c0ab91d8c0ab925ec0ab92e4c0ab9369c0ab93efc0ab9475c0ab94fbc0ab9581c0ab9607c0ab968dc0ab9713c0ab9799c0ab981fc0ab98a5c0ab992bc0ab99b1c0ab9a38c0ab9abec0ab9b45c0ab9bcb,
  0xc0aaa479c0aaa4ecc0aaa55ec0aaa5d1c0aaa643c0aaa6b6c0aaa729c0aaa79bc0aaa80ec0aaa881c0aaa8f3c0aaa966c0aaa9d9c0aaaa4cc0aaaabfc0aaab32c0aaaba5c0aaac18c0aaac8bc0aaacfec0aaad71c0aaade4c0aaae57c0aaaecac0aaaf3dc0aaafb1c0aab024c0aab097c0aab10bc0aab17ec0aab1f1c0aab265c0aab2d8c0aab34cc0aab3bfc0aab433c0aab4a7c0aab51ac0aab58ec0aab602c0aab675c0aab6e9c0aab75dc0aab7d1c0aab845c0aab8b9c0aab92dc0aab9a1c0aaba15c0aaba89c0aabafdc0aabb71c0aabbe5c0aabc59c0aabccec0aabd42c0aabdb6c0aabe2ac0aabe9fc0aabf13c0aabf88c0aabffcc0aac071c0aac0e5c0aac15ac0aac1cec0aac243c0aac2b8c0aac32cc0aac3a1c0aac416c0aac48bc0aac500c0aac575c0aac5e9c0aac65ec0aac6d3c0aac748c0aac7bec0aac833c0aac8a8c0aac91dc0aac992c0aaca07c0aaca7dc0aacaf2c0aacb67c0aacbddc0aacc52c0aaccc8c0aacd3dc0aacdb3c0aace28c0aace9ec0aacf13c0aacf89c0aacfffc0aad074c0aad0eac0aad160c0aad1d6c0aad24cc0aad2c2c0aad338c0aad3aec0aad424c0aad49ac0aad510c0aad586c0aad5fcc0aad672c0aad6e8c0aad75fc0aad7d5c0aad84bc0aad8c2c0aad938c0aad9afc0aada25c0aada9cc0aadb12c0aadb89c0aadbffc0aadc76c0aadcedc0aadd63c0aadddac0aade51c0aadec8c0aadf3fc0aadfb6c0aae02cc0aae0a3c0aae11ac0aae192c0aae209c0aae280c0aae2f7c0aae36ec0aae3e5c0aae45dc0aae4d4c0aae54bc0aae5c3c0aae63ac0aae6b1c0aae729c0aae7a1c0aae818c0aae890c0aae907c0aae97fc0aae9f7c0aaea6ec0aaeae6c0aaeb5ec0aaebd6c0aaec4ec0aaecc6c0aaed3ec0aaedb6c0aaee2ec0aaeea6c0aaef1ec0aaef96c0aaf00ec0aaf086c0aaf0ffc0aaf177c0aaf1efc0aaf268c0aaf2e0c0aaf358c0aaf3d1c0aaf449c0aaf4c2c0aaf53bc0aaf5b3c0aaf62cc0aaf6a5c0aaf71dc0aaf796c0aaf80fc0aaf888c0aaf901c0aaf97ac0aaf9f3c0aafa6cc0aafae5c0aafb5ec0aafbd7c0aafc50c0aafcc9c0aafd42c0aafdbcc0aafe35c0aafeaec0aaff28c0aaffa1c0ab001ac0ab0094c0ab010dc0ab0187c0ab0201c0ab027ac0ab02f4c0ab036ec0ab03e7c0ab0461c0ab04dbc0ab0555c0ab05cfc0ab0649c0ab06c3c0ab073dc0ab07b7c0ab0831c0ab08abc0ab0925c0ab099fc0ab0a1ac0ab0a94c0ab0b0ec0ab0b88c0ab0c03c0ab0c7dc0ab0cf8c0ab0d72c0ab0dedc0ab0e67c0ab0ee2c0ab0f5dc0ab0fd7c0ab1052c0ab10cdc0ab1148c0ab11c3c0ab123dc0ab12b8c0ab1333c0ab13aec0ab1429c0ab14a5c0ab1520c0ab159bc0ab1616c0ab1691c0ab170dc0ab1788c0ab1803c0ab187fc0ab18fac0ab1975c0ab19f1c0ab1a6dc0ab1ae8,
  0xc0aa361bc0aa3686c0aa36f0c0aa375bc0aa37c6c0aa3830c0aa389bc0aa3906c0aa3970c0aa39dbc0aa3a46c0aa3ab1c0aa3b1cc0aa3b86c0aa3bf1c0aa3c5cc0aa3cc7c0aa3d32c0aa3d9dc0aa3e08c0aa3e73c0aa3edec0aa3f49c0aa3fb5c0aa4020c0aa408bc0aa40f6c0aa4162c0aa41cdc0aa4238c0aa42a3c0aa430fc0aa437ac0aa43e6c0aa4451c0aa44bdc0aa4528c0aa4594c0aa45ffc0aa466bc0aa46d7c0aa4742c0aa47aec0aa481ac0aa4886c0aa48f1c0aa495dc0aa49c9c0aa4a35c0aa4aa1c0aa4b0dc0aa4b79c0aa4be5c0aa4c51c0aa4cbdc0aa4d29c0aa4d95c0aa4e01c0aa4e6dc0aa4edac0aa4f46c0aa4fb2c0aa501ec0aa508bc0aa50f7c0aa5164c0aa51d0c0aa523cc0aa52a9c0aa5315c0aa5382c0aa53efc0aa545bc0aa54c8c0aa5534c0aa55a1c0aa560ec0aa567bc0aa56e7c0aa5754c0aa57c1c0aa582ec0aa589bc0aa5908c0aa5975c0aa59e2c0aa5a4fc0aa5abcc0aa5b29c0aa5b96c0aa5c03c0aa5c70c0aa5cddc0aa5d4bc0aa5db8c0aa5e25c0aa5e93c0aa5f00c0aa5f6dc0aa5fdbc0aa6048c0aa60b6c0aa6123c0aa6191c0aa61fec0aa626cc0aa62dac0aa6347c0aa63b5c0aa6423c0aa6490c0aa64fec0aa656cc0aa65dac0aa6648c0aa66b6c0aa6723c0aa6791c0aa67ffc0aa686dc0aa68dcc0aa694ac0aa69b8c0aa6a26c0aa6a94c0aa6b02c0aa6b71c0aa6bdfc0aa6c4dc0aa6cbbc0aa6d2ac0aa6d98c0aa6e07c0aa6e75c0aa6ee4c0aa6f52c0aa6fc1c0aa702fc0aa709ec0aa710cc0aa717bc0aa71eac0aa7259c0aa72c7c0aa7336c0aa73a5c0aa7414c0aa7483c0aa74f2c0aa7561c0aa75d0c0aa763fc0aa76aec0aa771dc0aa778cc0aa77fbc0aa786ac0aa78d9c0aa7949c0aa79b8c0aa7a27c0aa7a97c0aa7b06c0aa7b75c0aa7be5c0aa7c54c0aa7cc4c0aa7d33c0aa7da3c0aa7e12c0aa7e82c0aa7ef2c0aa7f61c0aa7fd1c0aa8041c0aa80b1c0aa8120c0aa8190c0aa8200c0aa8270c0aa82e0c0aa8350c0aa83c0c0aa8430c0aa84a0c0aa8510c0aa8580c0aa85f0c0aa8661c0aa86d1c0aa8741c0aa87b1c0aa8822c0aa8892c0aa8902c0aa8973c0aa89e3c0aa8a54c0aa8ac4c0aa8b35c0aa8ba5c0aa8c16c0aa8c87c0aa8cf7c0aa8d68c0aa8dd9c0aa8e49c0aa8ebac0aa8f2bc0aa8f9cc0aa900dc0aa907ec0aa90efc0aa9160c0aa91d1c0aa9242c0aa92b3c0aa9324c0aa9395c0aa9406c0aa9478c0aa94e9c0aa955ac0aa95cbc0aa963dc0aa96aec0aa9720c0aa9791c0aa9803c0aa9874c0aa98e6c0aa9957c0aa99c9c0aa9a3ac0aa9aacc0aa9b1ec0aa9b90c0aa9c01c0aa9c73c0aa9ce5c0aa9d57c0aa9dc9c0aa9e3bc0aa9eadc0aa9f1fc0aa9f91c0aaa003c0aaa075c0aaa0e7c0aaa159c0aaa1ccc0aaa23ec0aaa2b0c0aaa322c0aaa395c0aaa407,
  0xc0a9cf1fc0a9cf83c0a9cfe7c0a9d04ac0a9d0aec0a9d112c0a9d176c0a9d1d9c0a9d23dc0a9d2a1c0a9d305c0a9d369c0a9d3cdc0a9d431c0a9d495c0a9d4f9c0a9d55dc0a9d5c1c0a9d625c0a9d689c0a9d6edc0a9d751c0a9d7b5c0a9d819c0a9d87ec0a9d8e2c0a9d946c0a9d9aac0a9da0fc0a9da73c0a9dad7c0a9db3cc0a9dba0c0a9dc05c0a9dc69c0a9dccec0a9dd32c0a9dd97c0a9ddfbc0a9de60c0a9dec5c0a9df29c0a9df8ec0a9dff3c0a9e057c0a9e0bcc0a9e121c0a9e186c0a9e1eac0a9e24fc0a9e2b4c0a9e319c0a9e37ec0a9e3e3c0a9e448c0a9e4adc0a9e512c0a9e577c0a9e5dcc0a9e641c0a9e6a6c0a9e70cc0a9e771c0a9e7d6c0a9e83bc0a9e8a1c0a9e906c0a9e96bc0a9e9d0c0a9ea36c0a9ea9bc0a9eb01c0a9eb66c0a9ebccc0a9ec31c0a9ec97c0a9ecfcc0a9ed62c0a9edc7c0a9ee2dc0a9ee93c0a9eef8c0a9ef5ec0a9efc4c0a9f02ac0a9f08fc0a9f0f5c0a9f15bc0a9f1c1c0a9f227c0a9f28dc0a9f2f3c0a9f359c0a9f3bfc0a9f425c0a9f48bc0a9f4f1c0a9f557c0a9f5bdc0a9f623c0a9f689c0a9f6f0c0a9f756c0a9f7bcc0a9f822c0a9f889c0a9f8efc0a9f955c0a9f9bcc0a9fa22c0a9fa89c0a9faefc0a9fb56c0a9fbbcc0a9fc23c0a9fc89c0a9fcf0c0a9fd57c0a9fdbdc0a9fe24c0a9fe8bc0a9fef1c0a9ff58c0a9ffbfc0aa0026c0aa008dc0aa00f4c0aa015ac0aa01c1c0aa0228c0aa028fc0aa02f6c0aa035dc0aa03c4c0aa042cc0aa0493c0aa04fac0aa0561c0aa05c8c0aa062fc0aa0697c0aa06fec0aa0765c0aa07cdc0aa0834c0aa089bc0aa0903c0aa096ac0aa09d2c0aa0a39c0aa0aa1c0aa0b08c0aa0b70c0aa0bd7c0aa0c3fc0aa0ca7c0aa0d0ec0aa0d76c0aa0ddec0aa0e46c0aa0eadc0aa0f15c0aa0f7dc0aa0fe5c0aa104dc0aa10b5c0aa111dc0aa1185c0aa11edc0aa1255c0aa12bdc0aa1325c0aa138dc0aa13f5c0aa145dc0aa14c6c0aa152ec0aa1596c0aa15fec0aa1667c0aa16cfc0aa1738c0aa17a0c0aa1808c0aa1871c0aa18d9c0aa1942c0aa19aac0aa1a13c0aa1a7cc0aa1ae4c0aa1b4dc0aa1bb5c0aa1c1ec0aa1c87c0aa1cf0c0aa1d58c0aa1dc1c0aa1e2ac0aa1e93c0aa1efcc0aa1f65c0aa1fcec0aa2037c0aa20a0c0aa2109c0aa2172c0aa21dbc0aa2244c0aa22adc0aa2316c0aa2380c0aa23e9c0aa2452c0aa24bbc0aa2525c0aa258ec0aa25f8c0aa2661c0aa26cac0aa2734c0aa279dc0aa2807c0aa2870c0aa28dac0aa2944c0aa29adc0aa2a17c0aa2a81c0aa2aeac0aa2b54c0aa2bbec0aa2c28c0aa2c91c0aa2cfbc0aa2d65c0aa2dcfc0aa2e39c0aa2ea3c0aa2f0dc0aa2f77c0aa2fe1c0aa304bc0aa30b5c0aa311fc0aa318ac0aa31f4c0aa325ec0aa32c8c0aa3333c0aa339dc0aa3407c0aa3472c0aa34dcc0aa3546c0aa35b1,
  0xc0a96e95c0a96ef2c0a96f50c0a96faec0a9700bc0a97069c0a970c7c0a97125c0a97182c0a971e0c0a9723ec0a9729cc0a972fac0a97357c0a973b5c0a97413c0a97471c0a974cfc0a9752dc0a9758bc0a975e9c0a97647c0a976a5c0a97703c0a97761c0a977c0c0a9781ec0a9787cc0a978dac0a97938c0a97997c0a979f5c0a97a53c0a97ab1c0a97b10c0a97b6ec0a97bccc0a97c2bc0a97c89c0a97ce8c0a97d46c0a97da5c0a97e03c0a97e62c0a97ec0c0a97f1fc0a97f7ec0a97fdcc0a9803bc0a98099c0a980f8c0a98157c0a981b6c0a98214c0a98273c0a982d2c0a98331c0a98390c0a983efc0a9844dc0a984acc0a9850bc0a9856ac0a985c9c0a98628c0a98687c0a986e6c0a98745c0a987a5c0a98804c0a98863c0a988c2c0a98921c0a98980c0a989e0c0a98a3fc0a98a9ec0a98afec0a98b5dc0a98bbcc0a98c1cc0a98c7bc0a98cdac0a98d3ac0a98d99c0a98df9c0a98e58c0a98eb8c0a98f18c0a98f77c0a98fd7c0a99036c0a99096c0a990f6c0a99155c0a991b5c0a99215c0a99275c0a992d4c0a99334c0a99394c0a993f4c0a99454c0a994b4c0a99514c0a99574c0a995d4c0a99634c0a99694c0a996f4c0a99754c0a997b4c0a99814c0a99874c0a998d4c0a99935c0a99995c0a999f5c0a99a55c0a99ab6c0a99b16c0a99b76c0a99bd7c0a99c37c0a99c97c0a99cf8c0a99d58c0a99db9c0a99e19c0a99e7ac0a99edac0a99f3bc0a99f9bc0a99ffcc0a9a05dc0a9a0bdc0a9a11ec0a9a17fc0a9a1dfc0a9a240c0a9a2a1c0a9a302c0a9a363c0a9a3c3c0a9a424c0a9a485c0a9a4e6c0a9a547c0a9a5a8c0a9a609c0a9a66ac0a9a6cbc0a9a72cc0a9a78dc0a9a7eec0a9a850c0a9a8b1c0a9a912c0a9a973c0a9a9d4c0a9aa36c0a9aa97c0a9aaf8c0a9ab5ac0a9abbbc0a9ac1cc0a9ac7ec0a9acdfc0a9ad41c0a9ada2c0a9ae04c0a9ae65c0a9aec7c0a9af28c0a9af8ac0a9afebc0a9b04dc0a9b0afc0a9b110c0a9b172c0a9b1d4c0a9b236c0a9b297c0a9b2f9c0a9b35bc0a9b3bdc0a9b41fc0a9b481c0a9b4e3c0a9b545c0a9b5a6c0a9b609c0a9b66bc0a9b6cdc0a9b72fc0a9b791c0a9b7f3c0a9b855c0a9b8b7c0a9b919c0a9b97cc0a9b9dec0a9ba40c0a9baa2c0a9bb05c0a9bb67c0a9bbc9c0a9bc2cc0a9bc8ec0a9bcf1c0a9bd53c0a9bdb6c0a9be18c0a9be7bc0a9beddc0a9bf40c0a9bfa3c0a9c005c0a9c068c0a9c0cbc0a9c12dc0a9c190c0a9c1f3c0a9c256c0a9c2b8c0a9c31bc0a9c37ec0a9c3e1c0a9c444c0a9c4a7c0a9c50ac0a9c56dc0a9c5d0c0a9c633c0a9c696c0a9c6f9c0a9c75cc0a9c7bfc0a9c822c0a9c885c0a9c8e9c0a9c94cc0a9c9afc0a9ca12c0a9ca76c0a9cad9c0a9cb3cc0a9cba0c0a9cc03c0a9cc67c0a9cccac0a9cd2ec0a9cd91c0a9cdf5c0a9ce58c0a9cebc] ++
  [0xc0a96e37]

/-- R420, NORM lower side level 3: entry j for j = 0 to 4,096. -/
def norm3 : List Nat :=
  [0xc0e18b39c0e18fb4c0e19433c0e198b7c0e19d3fc0e1a1ccc0e1a65dc0e1aaf3c0e1af8ec0e1b42dc0e1b8d2c0e1bd7ac0e1c228c0e1c6dbc0e1cb92c0e1d04ec0e1d50fc0e1d9d6c0e1dea1c0e1e371c0e1e847c0e1ed22c0e1f202c0e1f6e7c0e1fbd1c0e200c1c0e205b7c0e20ab1c0e20fb2c0e214b7c0e219c3c0e21ed4c0e223eac0e22907c0e22e29c0e23351c0e2387fc0e23db3c0e242edc0e2482dc0e24d73c0e252c0c0e25812c0e25d6bc0e262cac0e26830c0e26d9cc0e2730ec0e27887c0e27e07c0e2838ec0e2891bc0e28eafc0e2944bc0e299edc0e29f96c0e2a546c0e2aafec0e2b0bcc0e2b682c0e2bc50c0e2c225c0e2c802c0e2cde6c0e2d3d2c0e2d9c6c0e2dfc1c0e2e5c5c0e2ebd0c0e2f1e4c0e2f800c0e2fe25c0e30452c0e30a87c0e310c5c0e3170bc0e31d5bc0e323b3c0e32a14c0e3307ec0e336f2c0e33d6ec0e343f5c0e34a84c0e3511dc0e357c0c0e35e6dc0e36524c0e36be5c0e372b0c0e37985c0e38065c0e3874fc0e38e44c0e39544c0e39c4fc0e3a365c0e3aa86c0e3b1b2c0e3b8eac0e3c02ec0e3c77dc0e3ced9c0e3d640c0e3ddb4c0e3e534c0e3ecc1c0e3f45bc0e3fc01c0e403b5c0e40b76c0e41345c0e41b21c0e4230bc0e42b03c0e43309c0e43b1ec0e44341c0e44b74c0e453b5c0e45c06c0e46466c0e46cd6c0e47556c0e47de6c0e48687c0e48f38c0e497fac0e4a0cec0e4a9b3c0e4b2aac0e4bbb3c0e4c4cfc0e4cdfdc0e4d73ec0e4e093c0e4e9fbc0e4f377c0e4fd07c0e506acc0e51066c0e51a35c0e5241ac0e52e15c0e53827c0e5424fc0e54c8fc0e556e6c0e56156c0e56bdec0e57680c0e5813bc0e58c10c0e596ffc0e5a20ac0e5ad30c0e5b872c0e5c3d1c0e5cf4ec0e5dae8c0e5e6a1c0e5f279c0e5fe71c0e60a89c0e616c3c0e6231ec0e62f9cc0e63c3ec0e64904c0e655efc0e66300c0e67038c0e67d97c0e68b20c0e698d2c0e6a6afc0e6b4b8c0e6c2edc0e6d151c0e6dfe4c0e6eea7c0e6fd9dc0e70cc5c0e71c22c0e72bb5c0e73b80c0e74b83c0e75bc2c0e76c3dc0e77cf6c0e78defc0e79f2bc0e7b0aac0e7c270c0e7d47fc0e7e6d9c0e7f980c0e80c77c0e81fc2c0e83362c0e8475bc0e85bb0c0e87065c0e8857cc0e89afbc0e8b0e5c0e8c73ec0e8de0bc0e8f550c0e90d14c0e9255ac0e93e2ac0e95789c0e9717ec0e98c11c0e9a748c0e9c32dc0e9dfc8c0e9fd23c0ea1b47c0ea3a42c0ea5a1ec0ea7ae9c0ea9cb2c0eabf89c0eae37fc0eb08a7c0eb2f17c0eb56e7c0eb8031c0ebab12c0ebd7abc0ec0621c0ec369ec0ec6953c0ec9e76c0ecd647c0ed110ec0ed4f23c0ed90eac0edd6ddc0ee218ec0ee71afc0eec81ec0ef25f1c0ef8c8ec0effdccc0f07c27c0f10b19c0f1afb8c0f271e1c0f35eb8c0f48ec6c0f638e7c0f90afbc1074a4f,
  0xc0de6d61c0de6fa4c0de71e9c0de742ec0de7675c0de78bdc0de7b06c0de7d50c0de7f9cc0de81e8c0de8436c0de8685c0de88d5c0de8b26c0de8d78c0de8fccc0de9220c0de9476c0de96cdc0de9925c0de9b7fc0de9dd9c0dea035c0dea292c0dea4f0c0dea750c0dea9b1c0deac13c0deae76c0deb0dac0deb340c0deb5a7c0deb80fc0deba78c0debce3c0debf4fc0dec1bcc0dec42bc0dec69bc0dec90cc0decb7ec0decdf2c0ded067c0ded2ddc0ded555c0ded7cec0deda48c0dedcc4c0dedf41c0dee1bfc0dee43fc0dee6c0c0dee943c0deebc6c0deee4cc0def0d2c0def35ac0def5e4c0def86ec0defafbc0defd88c0df0017c0df02a8c0df053ac0df07cdc0df0a62c0df0cf8c0df0f90c0df1229c0df14c3c0df1760c0df19fdc0df1c9cc0df1f3dc0df21dfc0df2483c0df2728c0df29cec0df2c77c0df2f20c0df31ccc0df3479c0df3727c0df39d7c0df3c89c0df3f3cc0df41f1c0df44a7c0df475fc0df4a18c0df4cd4c0df4f90c0df524fc0df550fc0df57d1c0df5a94c0df5d59c0df6020c0df62e9c0df65b3c0df687fc0df6b4cc0df6e1bc0df70edc0df73bfc0df7694c0df796ac0df7c42c0df7f1cc0df81f7c0df84d5c0df87b4c0df8a95c0df8d77c0df905cc0df9342c0df962bc0df9915c0df9c01c0df9eefc0dfa1dec0dfa4d0c0dfa7c3c0dfaab9c0dfadb0c0dfb0a9c0dfb3a5c0dfb6a2c0dfb9a1c0dfbca2c0dfbfa5c0dfc2aac0dfc5b1c0dfc8bac0dfcbc5c0dfced2c0dfd1e1c0dfd4f2c0dfd805c0dfdb1bc0dfde32c0dfe14cc0dfe467c0dfe785c0dfeaa5c0dfedc7c0dff0ebc0dff411c0dff739c0dffa64c0dffd91c0e000c0c0e003f1c0e00725c0e00a5ac0e00d92c0e010cdc0e01409c0e01748c0e01a89c0e01dcdc0e02113c0e0245bc0e027a5c0e02af2c0e02e42c0e03193c0e034e8c0e0383ec0e03b97c0e03ef3c0e04251c0e045b1c0e04914c0e04c7ac0e04fe2c0e0534cc0e056b9c0e05a29c0e05d9bc0e06110c0e06488c0e06802c0e06b7fc0e06efec0e07281c0e07606c0e0798dc0e07d18c0e080a5c0e08435c0e087c7c0e08b5dc0e08ef5c0e09290c0e0962ec0e099cfc0e09d73c0e0a11ac0e0a4c3c0e0a870c0e0ac20c0e0afd2c0e0b388c0e0b740c0e0bafcc0e0bebbc0e0c27dc0e0c642c0e0ca0ac0e0cdd5c0e0d1a3c0e0d575c0e0d949c0e0dd21c0e0e0fdc0e0e4dbc0e0e8bdc0e0eca2c0e0f08bc0e0f477c0e0f866c0e0fc59c0e1004fc0e10448c0e10845c0e10c46c0e1104ac0e11452c0e1185dc0e11c6cc0e1207ec0e12494c0e128aec0e12cccc0e130edc0e13512c0e1393bc0e13d67c0e14198c0e145ccc0e14a05c0e14e41c0e15281c0e156c5c0e15b0dc0e15f59c0e163aac0e167fec0e16c57c0e170b3c0e17514c0e17979c0e17de3c0e18251c0e186c3,
  0xc0dc9637c0dc97bcc0dc9942c0dc9ac8c0dc9c4ec0dc9dd5c0dc9f5dc0dca0e5c0dca26dc0dca3f6c0dca580c0dca70ac0dca895c0dcaa20c0dcababc0dcad37c0dcaec4c0dcb051c0dcb1dfc0dcb36dc0dcb4fcc0dcb68bc0dcb81bc0dcb9abc0dcbb3cc0dcbccdc0dcbe5fc0dcbff2c0dcc184c0dcc318c0dcc4acc0dcc641c0dcc7d6c0dcc96bc0dccb01c0dccc98c0dcce2fc0dccfc7c0dcd160c0dcd2f9c0dcd492c0dcd62cc0dcd7c7c0dcd962c0dcdafdc0dcdc9ac0dcde36c0dcdfd4c0dce172c0dce310c0dce4afc0dce64fc0dce7efc0dce990c0dceb31c0dcecd3c0dcee75c0dcf019c0dcf1bcc0dcf360c0dcf505c0dcf6abc0dcf851c0dcf9f7c0dcfb9ec0dcfd46c0dcfeeec0dd0097c0dd0241c0dd03ebc0dd0596c0dd0741c0dd08edc0dd0a99c0dd0c46c0dd0df4c0dd0fa3c0dd1151c0dd1301c0dd14b1c0dd1662c0dd1813c0dd19c5c0dd1b78c0dd1d2bc0dd1edfc0dd2094c0dd2249c0dd23ffc0dd25b5c0dd276cc0dd2924c0dd2adcc0dd2c95c0dd2e4fc0dd3009c0dd31c4c0dd3380c0dd353cc0dd36f9c0dd38b6c0dd3a74c0dd3c33c0dd3df3c0dd3fb3c0dd4174c0dd4335c0dd44f7c0dd46bac0dd487dc0dd4a42c0dd4c06c0dd4dccc0dd4f92c0dd5159c0dd5321c0dd54e9c0dd56b2c0dd587bc0dd5a46c0dd5c11c0dd5ddcc0dd5fa9c0dd6176c0dd6343c0dd6512c0dd66e1c0dd68b1c0dd6a82c0dd6c53c0dd6e25c0dd6ff8c0dd71cbc0dd73a0c0dd7574c0dd774ac0dd7921c0dd7af8c0dd7ccfc0dd7ea8c0dd8081c0dd825bc0dd8436c0dd8612c0dd87eec0dd89cbc0dd8ba9c0dd8d88c0dd8f67c0dd9147c0dd9328c0dd9509c0dd96ecc0dd98cfc0dd9ab3c0dd9c98c0dd9e7dc0dda063c0dda24ac0dda432c0dda61bc0dda804c0dda9eec0ddabd9c0ddadc5c0ddafb2c0ddb19fc0ddb38dc0ddb57cc0ddb76cc0ddb95dc0ddbb4ec0ddbd40c0ddbf33c0ddc127c0ddc31cc0ddc511c0ddc708c0ddc8ffc0ddcaf7c0ddccf0c0ddceeac0ddd0e4c0ddd2e0c0ddd4dcc0ddd6d9c0ddd8d7c0dddad6c0dddcd6c0ddded6c0dde0d8c0dde2dac0dde4ddc0dde6e2c0dde8e7c0ddeaecc0ddecf3c0ddeefbc0ddf103c0ddf30dc0ddf517c0ddf722c0ddf92fc0ddfb3cc0ddfd4ac0ddff58c0de0168c0de0379c0de058bc0de079dc0de09b1c0de0bc5c0de0ddbc0de0ff1c0de1208c0de1420c0de163ac0de1854c0de1a6fc0de1c8bc0de1ea8c0de20c6c0de22e5c0de2505c0de2726c0de2948c0de2b6bc0de2d8fc0de2fb4c0de31dac0de3400c0de3628c0de3851c0de3a7bc0de3ca6c0de3ed2c0de40ffc0de432dc0de455cc0de478cc0de49bdc0de4bf0c0de4e23c0de5057c0de528dc0de54c3c0de56fac0de5933c0de5b6dc0de5da7c0de5fe3c0de6220c0de645ec0de669dc0de68ddc0de6b1e,
  0xc0db45c6c0db46ecc0db4811c0db4937c0db4a5dc0db4b84c0db4caac0db4dd1c0db4ef9c0db5020c0db5148c0db5270c0db5399c0db54c1c0db55eac0db5714c0db583dc0db5967c0db5a91c0db5bbcc0db5ce7c0db5e12c0db5f3dc0db6069c0db6194c0db62c1c0db63edc0db651ac0db6647c0db6775c0db68a2c0db69d0c0db6afec0db6c2dc0db6d5cc0db6e8bc0db6fbbc0db70eac0db721bc0db734bc0db747cc0db75adc0db76dec0db7810c0db7942c0db7a74c0db7ba6c0db7cd9c0db7e0cc0db7f40c0db8074c0db81a8c0db82dcc0db8411c0db8546c0db867bc0db87b1c0db88e7c0db8a1dc0db8b53c0db8c8ac0db8dc2c0db8ef9c0db9031c0db9169c0db92a2c0db93dac0db9514c0db964dc0db9787c0db98c1c0db99fbc0db9b36c0db9c71c0db9dacc0db9ee8c0dba024c0dba161c0dba29dc0dba3dac0dba518c0dba655c0dba793c0dba8d2c0dbaa10c0dbab4fc0dbac8fc0dbadcec0dbaf0fc0dbb04fc0dbb190c0dbb2d1c0dbb412c0dbb554c0dbb696c0dbb7d8c0dbb91bc0dbba5ec0dbbba1c0dbbce5c0dbbe29c0dbbf6ec0dbc0b2c0dbc1f7c0dbc33dc0dbc483c0dbc5c9c0dbc70fc0dbc856c0dbc99dc0dbcae5c0dbcc2dc0dbcd75c0dbcebec0dbd007c0dbd150c0dbd29ac0dbd3e4c0dbd52ec0dbd679c0dbd7c4c0dbd910c0dbda5cc0dbdba8c0dbdcf4c0dbde41c0dbdf8ec0dbe0dcc0dbe22ac0dbe379c0dbe4c7c0dbe616c0dbe766c0dbe8b6c0dbea06c0dbeb57c0dbeca8c0dbedf9c0dbef4bc0dbf09dc0dbf1efc0dbf342c0dbf495c0dbf5e9c0dbf73dc0dbf891c0dbf9e6c0dbfb3bc0dbfc90c0dbfde6c0dbff3dc0dc0093c0dc01eac0dc0342c0dc049ac0dc05f2c0dc074ac0dc08a3c0dc09fdc0dc0b56c0dc0cb1c0dc0e0bc0dc0f66c0dc10c1c0dc121dc0dc1379c0dc14d6c0dc1633c0dc1790c0dc18eec0dc1a4cc0dc1baac0dc1d09c0dc1e69c0dc1fc8c0dc2128c0dc2289c0dc23eac0dc254bc0dc26adc0dc280fc0dc2972c0dc2ad5c0dc2c38c0dc2d9cc0dc2f00c0dc3065c0dc31cac0dc3330c0dc3496c0dc35fcc0dc3763c0dc38cac0dc3a32c0dc3b9ac0dc3d02c0dc3e6bc0dc3fd4c0dc413ec0dc42a8c0dc4413c0dc457ec0dc46e9c0dc4855c0dc49c2c0dc4b2ec0dc4c9cc0dc4e09c0dc4f77c0dc50e6c0dc5255c0dc53c4c0dc5534c0dc56a5c0dc5815c0dc5987c0dc5af8c0dc5c6ac0dc5dddc0dc5f50c0dc60c3c0dc6237c0dc63acc0dc6520c0dc6696c0dc680bc0dc6982c0dc6af8c0dc6c6fc0dc6de7c0dc6f5fc0dc70d8c0dc7251c0dc73cac0dc7544c0dc76bec0dc7839c0dc79b5c0dc7b30c0dc7cadc0dc7e29c0dc7fa7c0dc8124c0dc82a2c0dc8421c0dc85a0c0dc8720c0dc88a0c0dc8a21c0dc8ba2c0dc8d23c0dc8ea5c0dc9028c0dc91abc0dc932fc0dc94b3,
  0xc0da3f8ac0da4075c0da4161c0da424dc0da4339c0da4426c0da4512c0da45ffc0da46ecc0da47d9c0da48c6c0da49b4c0da4aa1c0da4b8fc0da4c7dc0da4d6bc0da4e5ac0da4f48c0da5037c0da5126c0da5215c0da5304c0da53f4c0da54e3c0da55d3c0da56c3c0da57b4c0da58a4c0da5995c0da5a85c0da5b76c0da5c68c0da5d59c0da5e4bc0da5f3cc0da602ec0da6120c0da6213c0da6305c0da63f8c0da64ebc0da65dec0da66d1c0da67c5c0da68b8c0da69acc0da6aa0c0da6b94c0da6c89c0da6d7ec0da6e72c0da6f67c0da705dc0da7152c0da7248c0da733ec0da7434c0da752ac0da7620c0da7717c0da780ec0da7905c0da79fcc0da7af3c0da7bebc0da7ce3c0da7ddbc0da7ed3c0da7fcbc0da80c4c0da81bdc0da82b6c0da83afc0da84a8c0da85a2c0da869cc0da8796c0da8890c0da898ac0da8a85c0da8b80c0da8c7bc0da8d76c0da8e71c0da8f6dc0da9069c0da9165c0da9261c0da935ec0da945ac0da9557c0da9654c0da9752c0da984fc0da994dc0da9a4bc0da9b49c0da9c48c0da9d46c0da9e45c0da9f44c0daa043c0daa143c0daa242c0daa342c0daa442c0daa542c0daa643c0daa744c0daa844c0daa946c0daaa47c0daab49c0daac4ac0daad4cc0daae4fc0daaf51c0dab054c0dab156c0dab25ac0dab35dc0dab460c0dab564c0dab668c0dab76cc0dab871c0dab975c0daba7ac0dabb7fc0dabc85c0dabd8ac0dabe90c0dabf96c0dac09cc0dac1a2c0dac2a9c0dac3b0c0dac4b7c0dac5bec0dac6c6c0dac7cec0dac8d6c0dac9dec0dacae6c0dacbefc0daccf8c0dace01c0dacf0ac0dad014c0dad11ec0dad228c0dad332c0dad43dc0dad547c0dad652c0dad75ec0dad869c0dad975c0dada81c0dadb8dc0dadc99c0dadda6c0dadeb3c0dadfc0c0dae0cdc0dae1dbc0dae2e8c0dae3f6c0dae505c0dae613c0dae722c0dae831c0dae940c0daea50c0daeb5fc0daec6fc0daed80c0daee90c0daefa1c0daf0b2c0daf1c3c0daf2d4c0daf3e6c0daf4f8c0daf60ac0daf71cc0daf82fc0daf942c0dafa55c0dafb68c0dafc7cc0dafd90c0dafea4c0daffb8c0db00cdc0db01e2c0db02f7c0db040cc0db0522c0db0638c0db074ec0db0864c0db097bc0db0a92c0db0ba9c0db0cc0c0db0dd8c0db0ef0c0db1008c0db1120c0db1239c0db1352c0db146bc0db1585c0db169ec0db17b8c0db18d3c0db19edc0db1b08c0db1c23c0db1d3ec0db1e5ac0db1f75c0db2091c0db21aec0db22cac0db23e7c0db2504c0db2622c0db273fc0db285dc0db297bc0db2a9ac0db2bb9c0db2cd8c0db2df7c0db2f16c0db3036c0db3156c0db3277c0db3397c0db34b8c0db35d9c0db36fbc0db381cc0db393ec0db3a61c0db3b83c0db3ca6c0db3dc9c0db3eecc0db4010c0db4134c0db4258c0db437cc0db44a1,
  0xc0d9686dc0d96932c0d969f8c0d96abdc0d96b82c0d96c48c0d96d0ec0d96dd3c0d96e99c0d96f5fc0d97026c0d970ecc0d971b2c0d97279c0d97340c0d97406c0d974cdc0d97595c0d9765cc0d97723c0d977ebc0d978b2c0d9797ac0d97a42c0d97b0ac0d97bd2c0d97c9ac0d97d63c0d97e2bc0d97ef4c0d97fbcc0d98085c0d9814ec0d98218c0d982e1c0d983aac0d98474c0d9853ec0d98607c0d986d1c0d9879bc0d98866c0d98930c0d989fac0d98ac5c0d98b90c0d98c5bc0d98d26c0d98df1c0d98ebcc0d98f88c0d99053c0d9911fc0d991ebc0d992b7c0d99383c0d9944fc0d9951bc0d995e8c0d996b4c0d99781c0d9984ec0d9991bc0d999e8c0d99ab6c0d99b83c0d99c51c0d99d1ec0d99decc0d99ebac0d99f88c0d9a057c0d9a125c0d9a1f4c0d9a2c2c0d9a391c0d9a460c0d9a52fc0d9a5ffc0d9a6cec0d9a79dc0d9a86dc0d9a93dc0d9aa0dc0d9aaddc0d9abadc0d9ac7ec0d9ad4ec0d9ae1fc0d9aef0c0d9afc0c0d9b092c0d9b163c0d9b234c0d9b306c0d9b3d7c0d9b4a9c0d9b57bc0d9b64dc0d9b71fc0d9b7f2c0d9b8c4c0d9b997c0d9ba6ac0d9bb3cc0d9bc10c0d9bce3c0d9bdb6c0d9be8ac0d9bf5dc0d9c031c0d9c105c0d9c1d9c0d9c2adc0d9c382c0d9c456c0d9c52bc0d9c600c0d9c6d5c0d9c7aac0d9c87fc0d9c955c0d9ca2ac0d9cb00c0d9cbd6c0d9ccacc0d9cd82c0d9ce58c0d9cf2fc0d9d005c0d9d0dcc0d9d1b3c0d9d28ac0d9d361c0d9d439c0d9d510c0d9d5e8c0d9d6c0c0d9d798c0d9d870c0d9d948c0d9da20c0d9daf9c0d9dbd2c0d9dcabc0d9dd84c0d9de5dc0d9df36c0d9e010c0d9e0e9c0d9e1c3c0d9e29dc0d9e377c0d9e451c0d9e52cc0d9e606c0d9e6e1c0d9e7bcc0d9e897c0d9e972c0d9ea4dc0d9eb29c0d9ec05c0d9ece0c0d9edbcc0d9ee99c0d9ef75c0d9f051c0d9f12ec0d9f20bc0d9f2e8c0d9f3c5c0d9f4a2c0d9f57fc0d9f65dc0d9f73ac0d9f818c0d9f8f6c0d9f9d5c0d9fab3c0d9fb91c0d9fc70c0d9fd4fc0d9fe2ec0d9ff0dc0d9ffecc0da00ccc0da01acc0da028bc0da036bc0da044cc0da052cc0da060cc0da06edc0da07cec0da08afc0da0990c0da0a71c0da0b52c0da0c34c0da0d16c0da0df8c0da0edac0da0fbcc0da109fc0da1181c0da1264c0da1347c0da142ac0da150dc0da15f1c0da16d4c0da17b8c0da189cc0da1980c0da1a65c0da1b49c0da1c2ec0da1d13c0da1df7c0da1eddc0da1fc2c0da20a7c0da218dc0da2273c0da2359c0da243fc0da2525c0da260cc0da26f3c0da27d9c0da28c1c0da29a8c0da2a8fc0da2b77c0da2c5ec0da2d46c0da2e2ec0da2f17c0da2fffc0da30e8c0da31d0c0da32b9c0da33a3c0da348cc0da3575c0da365fc0da3749c0da3833c0da391dc0da3a07c0da3af2c0da3bddc0da3cc8c0da3db3c0da3e9e,
  0xc0d8b1f3c0d8b29cc0d8b346c0d8b3f0c0d8b499c0d8b543c0d8b5edc0d8b697c0d8b741c0d8b7ebc0d8b895c0d8b940c0d8b9eac0d8ba95c0d8bb3fc0d8bbeac0d8bc95c0d8bd40c0d8bdebc0d8be96c0d8bf41c0d8bfecc0d8c098c0d8c143c0d8c1efc0d8c29ac0d8c346c0d8c3f2c0d8c49ec0d8c54ac0d8c5f6c0d8c6a2c0d8c74fc0d8c7fbc0d8c8a8c0d8c954c0d8ca01c0d8caaec0d8cb5bc0d8cc08c0d8ccb5c0d8cd62c0d8ce0fc0d8cebdc0d8cf6ac0d8d018c0d8d0c6c0d8d173c0d8d221c0d8d2cfc0d8d37dc0d8d42cc0d8d4dac0d8d588c0d8d637c0d8d6e5c0d8d794c0d8d843c0d8d8f2c0d8d9a1c0d8da50c0d8daffc0d8dbaec0d8dc5dc0d8dd0dc0d8ddbcc0d8de6cc0d8df1cc0d8dfccc0d8e07cc0d8e12cc0d8e1dcc0d8e28cc0d8e33dc0d8e3edc0d8e49ec0d8e54ec0d8e5ffc0d8e6b0c0d8e761c0d8e812c0d8e8c3c0d8e974c0d8ea26c0d8ead7c0d8eb89c0d8ec3bc0d8ececc0d8ed9ec0d8ee50c0d8ef02c0d8efb4c0d8f067c0d8f119c0d8f1ccc0d8f27ec0d8f331c0d8f3e4c0d8f497c0d8f54ac0d8f5fdc0d8f6b0c0d8f763c0d8f817c0d8f8cac0d8f97ec0d8fa32c0d8fae6c0d8fb9ac0d8fc4ec0d8fd02c0d8fdb6c0d8fe6ac0d8ff1fc0d8ffd3c0d90088c0d9013dc0d901f2c0d902a7c0d9035cc0d90411c0d904c7c0d9057cc0d90632c0d906e7c0d9079dc0d90853c0d90909c0d909bfc0d90a75c0d90b2bc0d90be2c0d90c98c0d90d4fc0d90e06c0d90ebcc0d90f73c0d9102ac0d910e1c0d91199c0d91250c0d91308c0d913bfc0d91477c0d9152fc0d915e7c0d9169fc0d91757c0d9180fc0d918c7c0d91980c0d91a38c0d91af1c0d91baac0d91c63c0d91d1cc0d91dd5c0d91e8ec0d91f47c0d92001c0d920bbc0d92174c0d9222ec0d922e8c0d923a2c0d9245cc0d92516c0d925d1c0d9268bc0d92746c0d92800c0d928bbc0d92976c0d92a31c0d92aecc0d92ba8c0d92c63c0d92d1ec0d92ddac0d92e96c0d92f52c0d9300dc0d930cac0d93186c0d93242c0d932fec0d933bbc0d93478c0d93534c0d935f1c0d936aec0d9376bc0d93828c0d938e6c0d939a3c0d93a61c0d93b1ec0d93bdcc0d93c9ac0d93d58c0d93e16c0d93ed5c0d93f93c0d94051c0d94110c0d941cfc0d9428ec0d9434dc0d9440cc0d944cbc0d9458ac0d9464ac0d94709c0d947c9c0d94889c0d94948c0d94a09c0d94ac9c0d94b89c0d94c49c0d94d0ac0d94dcac0d94e8bc0d94f4cc0d9500dc0d950cec0d9518fc0d95251c0d95312c0d953d4c0d95496c0d95557c0d95619c0d956dbc0d9579ec0d95860c0d95922c0d959e5c0d95aa8c0d95b6bc0d95c2dc0d95cf1c0d95db4c0d95e77c0d95f3ac0d95ffec0d960c2c0d96185c0d96249c0d9630dc0d963d2c0d96496c0d9655ac0d9661fc0d966e4c0d967a8,
  0xc0d8136dc0d81402c0d81496c0d8152bc0d815c0c0d81655c0d816eac0d8177fc0d81814c0d818a9c0d8193ec0d819d4c0d81a69c0d81affc0d81b94c0d81c2ac0d81cc0c0d81d55c0d81debc0d81e81c0d81f17c0d81fadc0d82043c0d820dac0d82170c0d82206c0d8229dc0d82333c0d823cac0d82460c0d824f7c0d8258ec0d82625c0d826bcc0d82753c0d827eac0d82881c0d82918c0d829afc0d82a47c0d82adec0d82b76c0d82c0dc0d82ca5c0d82d3dc0d82dd5c0d82e6dc0d82f05c0d82f9dc0d83035c0d830cdc0d83165c0d831fec0d83296c0d8332fc0d833c7c0d83460c0d834f8c0d83591c0d8362ac0d836c3c0d8375cc0d837f5c0d8388ec0d83928c0d839c1c0d83a5ac0d83af4c0d83b8dc0d83c27c0d83cc1c0d83d5bc0d83df4c0d83e8ec0d83f28c0d83fc2c0d8405dc0d840f7c0d84191c0d8422cc0d842c6c0d84361c0d843fbc0d84496c0d84531c0d845ccc0d84667c0d84702c0d8479dc0d84838c0d848d3c0d8496ec0d84a0ac0d84aa5c0d84b41c0d84bdcc0d84c78c0d84d14c0d84db0c0d84e4cc0d84ee8c0d84f84c0d85020c0d850bcc0d85159c0d851f5c0d85292c0d8532ec0d853cbc0d85468c0d85504c0d855a1c0d8563ec0d856dbc0d85778c0d85816c0d858b3c0d85950c0d859eec0d85a8bc0d85b29c0d85bc7c0d85c64c0d85d02c0d85da0c0d85e3ec0d85edcc0d85f7ac0d86019c0d860b7c0d86155c0d861f4c0d86293c0d86331c0d863d0c0d8646fc0d8650ec0d865adc0d8664cc0d866ebc0d8678ac0d86829c0d868c9c0d86968c0d86a08c0d86aa7c0d86b47c0d86be7c0d86c87c0d86d27c0d86dc7c0d86e67c0d86f07c0d86fa8c0d87048c0d870e8c0d87189c0d8722ac0d872cac0d8736bc0d8740cc0d874adc0d8754ec0d875efc0d87690c0d87732c0d877d3c0d87874c0d87916c0d879b8c0d87a59c0d87afbc0d87b9dc0d87c3fc0d87ce1c0d87d83c0d87e26c0d87ec8c0d87f6ac0d8800dc0d880afc0d88152c0d881f5c0d88297c0d8833ac0d883ddc0d88480c0d88524c0d885c7c0d8866ac0d8870ec0d887b1c0d88855c0d888f8c0d8899cc0d88a40c0d88ae4c0d88b88c0d88c2cc0d88cd0c0d88d75c0d88e19c0d88ebec0d88f62c0d89007c0d890abc0d89150c0d891f5c0d8929ac0d8933fc0d893e4c0d8948ac0d8952fc0d895d4c0d8967ac0d89720c0d897c5c0d8986bc0d89911c0d899b7c0d89a5dc0d89b03c0d89ba9c0d89c50c0d89cf6c0d89d9dc0d89e43c0d89eeac0d89f91c0d8a038c0d8a0dec0d8a186c0d8a22dc0d8a2d4c0d8a37bc0d8a423c0d8a4cac0d8a572c0d8a619c0d8a6c1c0d8a769c0d8a811c0d8a8b9c0d8a961c0d8aa09c0d8aab2c0d8ab5ac0d8ac02c0d8acabc0d8ad54c0d8adfcc0d8aea5c0d8af4ec0d8aff7c0d8b0a0c0d8b14a] ++
  [0xc0d7873ec0d787c3c0d78847c0d788ccc0d78950c0d789d5c0d78a5ac0d78adec0d78b63c0d78be8c0d78c6dc0d78cf2c0d78d77c0d78dfcc0d78e81c0d78f07c0d78f8cc0d79011c0d79097c0d7911cc0d791a2c0d79227c0d792adc0d79332c0d793b8c0d7943ec0d794c4c0d7954ac0d795d0c0d79656c0d796dcc0d79762c0d797e8c0d7986ec0d798f5c0d7997bc0d79a01c0d79a88c0d79b0fc0d79b95c0d79c1cc0d79ca2c0d79d29c0d79db0c0d79e37c0d79ebec0d79f45c0d79fccc0d7a053c0d7a0dac0d7a162c0d7a1e9c0d7a270c0d7a2f8c0d7a37fc0d7a407c0d7a48ec0d7a516c0d7a59ec0d7a625c0d7a6adc0d7a735c0d7a7bdc0d7a845c0d7a8cdc0d7a955c0d7a9dec0d7aa66c0d7aaeec0d7ab77c0d7abffc0d7ac87c0d7ad10c0d7ad99c0d7ae21c0d7aeaac0d7af33c0d7afbcc0d7b045c0d7b0cec0d7b157c0d7b1e0c0d7b269c0d7b2f2c0d7b37bc0d7b405c0d7b48ec0d7b518c0d7b5a1c0d7b62bc0d7b6b4c0d7b73ec0d7b7c8c0d7b852c0d7b8dbc0d7b965c0d7b9efc0d7ba79c0d7bb04c0d7bb8ec0d7bc18c0d7bca2c0d7bd2dc0d7bdb7c0d7be42c0d7beccc0d7bf57c0d7bfe1c0d7c06cc0d7c0f7c0d7c182c0d7c20dc0d7c298c0d7c323c0d7c3aec0d7c439c0d7c4c4c0d7c550c0d7c5dbc0d7c667c0d7c6f2c0d7c77ec0d7c809c0d7c895c0d7c921c0d7c9acc0d7ca38c0d7cac4c0d7cb50c0d7cbdcc0d7cc68c0d7ccf5c0d7cd81c0d7ce0dc0d7ce99c0d7cf26c0d7cfb2c0d7d03fc0d7d0ccc0d7d158c0d7d1e5c0d7d272c0d7d2ffc0d7d38cc0d7d419c0d7d4a6c0d7d533c0d7d5c0c0d7d64dc0d7d6dbc0d7d768c0d7d7f6c0d7d883c0d7d911c0d7d99ec0d7da2cc0d7dabac0d7db48c0d7dbd6c0d7dc64c0d7dcf2c0d7dd80c0d7de0ec0d7de9cc0d7df2ac0d7dfb9c0d7e047c0d7e0d6c0d7e164c0d7e1f3c0d7e282c0d7e310c0d7e39fc0d7e42ec0d7e4bdc0d7e54cc0d7e5dbc0d7e66ac0d7e6f9c0d7e789c0d7e818c0d7e8a8c0d7e937c0d7e9c7c0d7ea56c0d7eae6c0d7eb76c0d7ec05c0d7ec95c0d7ed25c0d7edb5c0d7ee45c0d7eed6c0d7ef66c0d7eff6c0d7f086c0d7f117c0d7f1a7c0d7f238c0d7f2c8c0d7f359c0d7f3eac0d7f47bc0d7f50cc0d7f59dc0d7f62ec0d7f6bfc0d7f750c0d7f7e1c0d7f872c0d7f904c0d7f995c0d7fa27c0d7fab8c0d7fb4ac0d7fbdcc0d7fc6dc0d7fcffc0d7fd91c0d7fe23c0d7feb5c0d7ff47c0d7ffd9c0d8006cc0d800fec0d80190c0d80223c0d802b5c0d80348c0d803dbc0d8046dc0d80500c0d80593c0d80626c0d806b9c0d8074cc0d807dfc0d80872c0d80906c0d80999c0d80a2cc0d80ac0c0d80b54c0d80be7c0d80c7bc0d80d0fc0d80da3c0d80e36c0d80ecac0d80f5ec0d80ff3c0d81087c0d8111bc0d811afc0d81244c0d812d8,
  0xc0d70990c0d70a07c0d70a7fc0d70af6c0d70b6ec0d70be5c0d70c5dc0d70cd5c0d70d4dc0d70dc4c0d70e3cc0d70eb4c0d70f2cc0d70fa4c0d7101cc0d71094c0d7110cc0d71184c0d711fdc0d71275c0d712edc0d71366c0d713dec0d71456c0d714cfc0d71547c0d715c0c0d71639c0d716b1c0d7172ac0d717a3c0d7181cc0d71895c0d7190ec0d71987c0d71a00c0d71a79c0d71af2c0d71b6bc0d71be4c0d71c5dc0d71cd7c0d71d50c0d71dc9c0d71e43c0d71ebcc0d71f36c0d71fafc0d72029c0d720a3c0d7211cc0d72196c0d72210c0d7228ac0d72304c0d7237ec0d723f8c0d72472c0d724ecc0d72566c0d725e0c0d7265ac0d726d5c0d7274fc0d727c9c0d72844c0d728bec0d72939c0d729b4c0d72a2ec0d72aa9c0d72b24c0d72b9ec0d72c19c0d72c94c0d72d0fc0d72d8ac0d72e05c0d72e80c0d72efbc0d72f76c0d72ff1c0d7306dc0d730e8c0d73163c0d731dfc0d7325ac0d732d6c0d73351c0d733cdc0d73449c0d734c4c0d73540c0d735bcc0d73638c0d736b4c0d73730c0d737acc0d73828c0d738a4c0d73920c0d7399cc0d73a18c0d73a95c0d73b11c0d73b8dc0d73c0ac0d73c86c0d73d03c0d73d7fc0d73dfcc0d73e79c0d73ef5c0d73f72c0d73fefc0d7406cc0d740e9c0d74166c0d741e3c0d74260c0d742ddc0d7435ac0d743d8c0d74455c0d744d2c0d74550c0d745cdc0d7464bc0d746c8c0d74746c0d747c3c0d74841c0d748bfc0d7493dc0d749bac0d74a38c0d74ab6c0d74b34c0d74bb2c0d74c30c0d74cafc0d74d2dc0d74dabc0d74e29c0d74ea8c0d74f26c0d74fa5c0d75023c0d750a2c0d75120c0d7519fc0d7521ec0d7529cc0d7531bc0d7539ac0d75419c0d75498c0d75517c0d75596c0d75615c0d75694c0d75714c0d75793c0d75812c0d75892c0d75911c0d75991c0d75a10c0d75a90c0d75b0fc0d75b8fc0d75c0fc0d75c8fc0d75d0fc0d75d8ec0d75e0ec0d75e8ec0d75f0ec0d75f8fc0d7600fc0d7608fc0d7610fc0d76190c0d76210c0d76290c0d76311c0d76392c0d76412c0d76493c0d76513c0d76594c0d76615c0d76696c0d76717c0d76798c0d76819c0d7689ac0d7691bc0d7699cc0d76a1dc0d76a9fc0d76b20c0d76ba2c0d76c23c0d76ca4c0d76d26c0d76da8c0d76e29c0d76eabc0d76f2dc0d76fafc0d77031c0d770b2c0d77134c0d771b7c0d77239c0d772bbc0d7733dc0d773bfc0d77442c0d774c4c0d77546c0d775c9c0d7764bc0d776cec0d77751c0d777d3c0d77856c0d778d9c0d7795cc0d779dfc0d77a62c0d77ae5c0d77b68c0d77bebc0d77c6ec0d77cf1c0d77d75c0d77df8c0d77e7cc0d77effc0d77f83c0d78006c0d7808ac0d7810dc0d78191c0d78215c0d78299c0d7831dc0d783a1c0d78425c0d784a9c0d7852dc0d785b1c0d78636c0d786ba,
  0xc0d697a3c0d6980fc0d6987cc0d698e9c0d69956c0d699c3c0d69a30c0d69a9dc0d69b0ac0d69b77c0d69be4c0d69c51c0d69cbfc0d69d2cc0d69d99c0d69e06c0d69e74c0d69ee1c0d69f4fc0d69fbcc0d6a02ac0d6a097c0d6a105c0d6a172c0d6a1e0c0d6a24ec0d6a2bcc0d6a329c0d6a397c0d6a405c0d6a473c0d6a4e1c0d6a54fc0d6a5bdc0d6a62bc0d6a699c0d6a707c0d6a775c0d6a7e4c0d6a852c0d6a8c0c0d6a92ec0d6a99dc0d6aa0bc0d6aa7ac0d6aae8c0d6ab57c0d6abc5c0d6ac34c0d6aca2c0d6ad11c0d6ad80c0d6adefc0d6ae5dc0d6aeccc0d6af3bc0d6afaac0d6b019c0d6b088c0d6b0f7c0d6b166c0d6b1d5c0d6b244c0d6b2b3c0d6b323c0d6b392c0d6b401c0d6b471c0d6b4e0c0d6b54fc0d6b5bfc0d6b62ec0d6b69ec0d6b70ec0d6b77dc0d6b7edc0d6b85dc0d6b8ccc0d6b93cc0d6b9acc0d6ba1cc0d6ba8cc0d6bafcc0d6bb6cc0d6bbdcc0d6bc4cc0d6bcbcc0d6bd2cc0d6bd9cc0d6be0cc0d6be7dc0d6beedc0d6bf5dc0d6bfcec0d6c03ec0d6c0afc0d6c11fc0d6c190c0d6c200c0d6c271c0d6c2e2c0d6c352c0d6c3c3c0d6c434c0d6c4a5c0d6c516c0d6c586c0d6c5f7c0d6c668c0d6c6d9c0d6c74bc0d6c7bcc0d6c82dc0d6c89ec0d6c90fc0d6c981c0d6c9f2c0d6ca63c0d6cad5c0d6cb46c0d6cbb8c0d6cc29c0d6cc9bc0d6cd0cc0d6cd7ec0d6cdf0c0d6ce61c0d6ced3c0d6cf45c0d6cfb7c0d6d029c0d6d09bc0d6d10dc0d6d17fc0d6d1f1c0d6d263c0d6d2d5c0d6d347c0d6d3b9c0d6d42cc0d6d49ec0d6d510c0d6d583c0d6d5f5c0d6d668c0d6d6dac0d6d74dc0d6d7c0c0d6d832c0d6d8a5c0d6d918c0d6d98ac0d6d9fdc0d6da70c0d6dae3c0d6db56c0d6dbc9c0d6dc3cc0d6dcafc0d6dd22c0d6dd95c0d6de09c0d6de7cc0d6deefc0d6df62c0d6dfd6c0d6e049c0d6e0bdc0d6e130c0d6e1a4c0d6e217c0d6e28bc0d6e2ffc0d6e372c0d6e3e6c0d6e45ac0d6e4cec0d6e542c0d6e5b6c0d6e62ac0d6e69ec0d6e712c0d6e786c0d6e7fac0d6e86ec0d6e8e2c0d6e957c0d6e9cbc0d6ea3fc0d6eab4c0d6eb28c0d6eb9dc0d6ec11c0d6ec86c0d6ecfac0d6ed6fc0d6ede4c0d6ee59c0d6eecdc0d6ef42c0d6efb7c0d6f02cc0d6f0a1c0d6f116c0d6f18bc0d6f200c0d6f275c0d6f2ebc0d6f360c0d6f3d5c0d6f44ac0d6f4c0c0d6f535c0d6f5abc0d6f620c0d6f696c0d6f70bc0d6f781c0d6f7f7c0d6f86cc0d6f8e2c0d6f958c0d6f9cec0d6fa44c0d6fabac0d6fb30c0d6fba6c0d6fc1cc0d6fc92c0d6fd08c0d6fd7ec0d6fdf5c0d6fe6bc0d6fee1c0d6ff58c0d6ffcec0d70045c0d700bbc0d70132c0d701a8c0d7021fc0d70296c0d7030cc0d70383c0d703fac0d70471c0d704e8c0d7055fc0d705d6c0d7064dc0d706c4c0d7073bc0d707b2c0d7082ac0d708a1c0d70918,
  0xc0d62f6fc0d62fd3c0d63037c0d6309bc0d630ffc0d63163c0d631c7c0d6322bc0d6328fc0d632f3c0d63358c0d633bcc0d63420c0d63484c0d634e9c0d6354dc0d635b1c0d63616c0d6367ac0d636dfc0d63743c0d637a8c0d6380cc0d63871c0d638d6c0d6393ac0d6399fc0d63a04c0d63a68c0d63acdc0d63b32c0d63b97c0d63bfcc0d63c61c0d63cc6c0d63d2bc0d63d90c0d63df5c0d63e5ac0d63ebfc0d63f24c0d63f89c0d63fefc0d64054c0d640b9c0d6411fc0d64184c0d641e9c0d6424fc0d642b4c0d6431ac0d6437fc0d643e5c0d6444ac0d644b0c0d64516c0d6457bc0d645e1c0d64647c0d646adc0d64712c0d64778c0d647dec0d64844c0d648aac0d64910c0d64976c0d649dcc0d64a42c0d64aa8c0d64b0ec0d64b75c0d64bdbc0d64c41c0d64ca7c0d64d0ec0d64d74c0d64ddac0d64e41c0d64ea7c0d64f0ec0d64f74c0d64fdbc0d65041c0d650a8c0d6510fc0d65175c0d651dcc0d65243c0d652aac0d65310c0d65377c0d653dec0d65445c0d654acc0d65513c0d6557ac0d655e1c0d65648c0d656afc0d65716c0d6577ec0d657e5c0d6584cc0d658b3c0d6591bc0d65982c0d659eac0d65a51c0d65ab8c0d65b20c0d65b87c0d65befc0d65c57c0d65cbec0d65d26c0d65d8ec0d65df5c0d65e5dc0d65ec5c0d65f2dc0d65f95c0d65ffdc0d66065c0d660cdc0d66135c0d6619dc0d66205c0d6626dc0d662d5c0d6633dc0d663a5c0d6640ec0d66476c0d664dec0d66547c0d665afc0d66617c0d66680c0d666e8c0d66751c0d667bac0d66822c0d6688bc0d668f3c0d6695cc0d669c5c0d66a2ec0d66a97c0d66affc0d66b68c0d66bd1c0d66c3ac0d66ca3c0d66d0cc0d66d75c0d66ddec0d66e47c0d66eb1c0d66f1ac0d66f83c0d66fecc0d67056c0d670bfc0d67128c0d67192c0d671fbc0d67265c0d672cec0d67338c0d673a1c0d6740bc0d67475c0d674dec0d67548c0d675b2c0d6761cc0d67686c0d676efc0d67759c0d677c3c0d6782dc0d67897c0d67901c0d6796cc0d679d6c0d67a40c0d67aaac0d67b14c0d67b7fc0d67be9c0d67c53c0d67cbec0d67d28c0d67d92c0d67dfdc0d67e68c0d67ed2c0d67f3dc0d67fa7c0d68012c0d6807dc0d680e7c0d68152c0d681bdc0d68228c0d68293c0d682fec0d68369c0d683d4c0d6843fc0d684aac0d68515c0d68580c0d685ebc0d68657c0d686c2c0d6872dc0d68798c0d68804c0d6886fc0d688dbc0d68946c0d689b2c0d68a1dc0d68a89c0d68af4c0d68b60c0d68bccc0d68c38c0d68ca3c0d68d0fc0d68d7bc0d68de7c0d68e53c0d68ebfc0d68f2bc0d68f97c0d69003c0d6906fc0d690dbc0d69147c0d691b4c0d69220c0d6928cc0d692f8c0d69365c0d693d1c0d6943ec0d694aac0d69517c0d69583c0d695f0c0d6965dc0d696c9c0d69736,
  0xc0d5cf6ac0d5cfc6c0d5d022c0d5d07fc0d5d0dbc0d5d138c0d5d194c0d5d1f1c0d5d24dc0d5d2aac0d5d307c0d5d363c0d5d3c0c0d5d41dc0d5d479c0d5d4d6c0d5d533c0d5d590c0d5d5ecc0d5d649c0d5d6a6c0d5d703c0d5d760c0d5d7bdc0d5d81ac0d5d877c0d5d8d4c0d5d931c0d5d98ec0d5d9ebc0d5da49c0d5daa6c0d5db03c0d5db60c0d5dbbec0d5dc1bc0d5dc78c0d5dcd6c0d5dd33c0d5dd90c0d5ddeec0d5de4bc0d5dea9c0d5df06c0d5df64c0d5dfc1c0d5e01fc0d5e07dc0d5e0dac0d5e138c0d5e196c0d5e1f3c0d5e251c0d5e2afc0d5e30dc0d5e36bc0d5e3c9c0d5e427c0d5e484c0d5e4e2c0d5e540c0d5e59ec0d5e5fdc0d5e65bc0d5e6b9c0d5e717c0d5e775c0d5e7d3c0d5e831c0d5e890c0d5e8eec0d5e94cc0d5e9abc0d5ea09c0d5ea67c0d5eac6c0d5eb24c0d5eb83c0d5ebe1c0d5ec40c0d5ec9ec0d5ecfdc0d5ed5cc0d5edbac0d5ee19c0d5ee78c0d5eed6c0d5ef35c0d5ef94c0d5eff3c0d5f052c0d5f0b1c0d5f10fc0d5f16ec0d5f1cdc0d5f22cc0d5f28bc0d5f2eac0d5f34ac0d5f3a9c0d5f408c0d5f467c0d5f4c6c0d5f525c0d5f585c0d5f5e4c0d5f643c0d5f6a3c0d5f702c0d5f761c0d5f7c1c0d5f820c0d5f880c0d5f8dfc0d5f93fc0d5f99ec0d5f9fec0d5fa5ec0d5fabdc0d5fb1dc0d5fb7dc0d5fbdcc0d5fc3cc0d5fc9cc0d5fcfcc0d5fd5cc0d5fdbcc0d5fe1cc0d5fe7cc0d5fedcc0d5ff3cc0d5ff9cc0d5fffcc0d6005cc0d600bcc0d6011cc0d6017cc0d601dcc0d6023dc0d6029dc0d602fdc0d6035ec0d603bec0d6041ec0d6047fc0d604dfc0d60540c0d605a0c0d60601c0d60661c0d606c2c0d60723c0d60783c0d607e4c0d60845c0d608a6c0d60906c0d60967c0d609c8c0d60a29c0d60a8ac0d60aebc0d60b4cc0d60badc0d60c0ec0d60c6fc0d60cd0c0d60d31c0d60d92c0d60df3c0d60e55c0d60eb6c0d60f17c0d60f78c0d60fdac0d6103bc0d6109cc0d610fec0d6115fc0d611c1c0d61222c0d61284c0d612e5c0d61347c0d613a9c0d6140ac0d6146cc0d614cec0d6152fc0d61591c0d615f3c0d61655c0d616b7c0d61719c0d6177bc0d617ddc0d6183fc0d618a1c0d61903c0d61965c0d619c7c0d61a29c0d61a8bc0d61aedc0d61b50c0d61bb2c0d61c14c0d61c77c0d61cd9c0d61d3bc0d61d9ec0d61e00c0d61e63c0d61ec5c0d61f28c0d61f8ac0d61fedc0d62050c0d620b2c0d62115c0d62178c0d621dac0d6223dc0d622a0c0d62303c0d62366c0d623c9c0d6242cc0d6248fc0d624f2c0d62555c0d625b8c0d6261bc0d6267ec0d626e1c0d62744c0d627a8c0d6280bc0d6286ec0d628d2c0d62935c0d62998c0d629fcc0d62a5fc0d62ac3c0d62b26c0d62b8ac0d62bedc0d62c51c0d62cb5c0d62d18c0d62d7cc0d62de0c0d62e44c0d62ea7c0d62f0b,
  0xc0d5765ec0d576b4c0d5770ac0d57760c0d577b6c0d5780cc0d57862c0d578b8c0d5790ec0d57964c0d579bac0d57a11c0d57a67c0d57abdc0d57b13c0d57b69c0d57bc0c0d57c16c0d57c6cc0d57cc2c0d57d19c0d57d6fc0d57dc6c0d57e1cc0d57e72c0d57ec9c0d57f1fc0d57f76c0d57fccc0d58023c0d5807ac0d580d0c0d58127c0d5817ec0d581d4c0d5822bc0d58282c0d582d8c0d5832fc0d58386c0d583ddc0d58434c0d5848bc0d584e1c0d58538c0d5858fc0d585e6c0d5863dc0d58694c0d586ebc0d58742c0d5879ac0d587f1c0d58848c0d5889fc0d588f6c0d5894dc0d589a5c0d589fcc0d58a53c0d58aaac0d58b02c0d58b59c0d58bb1c0d58c08c0d58c5fc0d58cb7c0d58d0ec0d58d66c0d58dbdc0d58e15c0d58e6cc0d58ec4c0d58f1cc0d58f73c0d58fcbc0d59023c0d5907ac0d590d2c0d5912ac0d59182c0d591dac0d59231c0d59289c0d592e1c0d59339c0d59391c0d593e9c0d59441c0d59499c0d594f1c0d59549c0d595a1c0d595f9c0d59652c0d596aac0d59702c0d5975ac0d597b2c0d5980bc0d59863c0d598bbc0d59914c0d5996cc0d599c4c0d59a1dc0d59a75c0d59acec0d59b26c0d59b7fc0d59bd7c0d59c30c0d59c88c0d59ce1c0d59d3ac0d59d92c0d59debc0d59e44c0d59e9cc0d59ef5c0d59f4ec0d59fa7c0d5a000c0d5a059c0d5a0b1c0d5a10ac0d5a163c0d5a1bcc0d5a215c0d5a26ec0d5a2c7c0d5a320c0d5a379c0d5a3d3c0d5a42cc0d5a485c0d5a4dec0d5a537c0d5a591c0d5a5eac0d5a643c0d5a69cc0d5a6f6c0d5a74fc0d5a7a9c0d5a802c0d5a85bc0d5a8b5c0d5a90ec0d5a968c0d5a9c1c0d5aa1bc0d5aa75c0d5aacec0d5ab28c0d5ab82c0d5abdbc0d5ac35c0d5ac8fc0d5ace9c0d5ad42c0d5ad9cc0d5adf6c0d5ae50c0d5aeaac0d5af04c0d5af5ec0d5afb8c0d5b012c0d5b06cc0d5b0c6c0d5b120c0d5b17ac0d5b1d4c0d5b22ec0d5b289c0d5b2e3c0d5b33dc0d5b397c0d5b3f2c0d5b44cc0d5b4a6c0d5b501c0d5b55bc0d5b5b5c0d5b610c0d5b66ac0d5b6c5c0d5b71fc0d5b77ac0d5b7d5c0d5b82fc0d5b88ac0d5b8e4c0d5b93fc0d5b99ac0d5b9f5c0d5ba4fc0d5baaac0d5bb05c0d5bb60c0d5bbbbc0d5bc16c0d5bc71c0d5bccbc0d5bd26c0d5bd81c0d5bddcc0d5be38c0d5be93c0d5beeec0d5bf49c0d5bfa4c0d5bfffc0d5c05ac0d5c0b6c0d5c111c0d5c16cc0d5c1c8c0d5c223c0d5c27ec0d5c2dac0d5c335c0d5c391c0d5c3ecc0d5c448c0d5c4a3c0d5c4ffc0d5c55ac0d5c5b6c0d5c611c0d5c66dc0d5c6c9c0d5c725c0d5c780c0d5c7dcc0d5c838c0d5c894c0d5c8f0c0d5c94bc0d5c9a7c0d5ca03c0d5ca5fc0d5cabbc0d5cb17c0d5cb73c0d5cbcfc0d5cc2cc0d5cc88c0d5cce4c0d5cd40c0d5cd9cc0d5cdf8c0d5ce55c0d5ceb1c0d5cf0d,
  0xc0d52359c0d523a9c0d523f9c0d5244ac0d5249ac0d524eac0d5253bc0d5258bc0d525dcc0d5262cc0d5267dc0d526cdc0d5271ec0d5276ec0d527bfc0d5280fc0d52860c0d528b0c0d52901c0d52952c0d529a2c0d529f3c0d52a44c0d52a95c0d52ae5c0d52b36c0d52b87c0d52bd8c0d52c29c0d52c79c0d52ccac0d52d1bc0d52d6cc0d52dbdc0d52e0ec0d52e5fc0d52eb0c0d52f01c0d52f52c0d52fa3c0d52ff4c0d53046c0d53097c0d530e8c0d53139c0d5318ac0d531dbc0d5322dc0d5327ec0d532cfc0d53321c0d53372c0d533c3c0d53415c0d53466c0d534b7c0d53509c0d5355ac0d535acc0d535fdc0d5364fc0d536a0c0d536f2c0d53743c0d53795c0d537e7c0d53838c0d5388ac0d538dcc0d5392dc0d5397fc0d539d1c0d53a23c0d53a74c0d53ac6c0d53b18c0d53b6ac0d53bbcc0d53c0ec0d53c60c0d53cb2c0d53d04c0d53d55c0d53da7c0d53dfac0d53e4cc0d53e9ec0d53ef0c0d53f42c0d53f94c0d53fe6c0d54038c0d5408bc0d540ddc0d5412fc0d54181c0d541d4c0d54226c0d54278c0d542cbc0d5431dc0d5436fc0d543c2c0d54414c0d54467c0d544b9c0d5450cc0d5455ec0d545b1c0d54603c0d54656c0d546a8c0d546fbc0d5474ec0d547a0c0d547f3c0d54846c0d54898c0d548ebc0d5493ec0d54991c0d549e4c0d54a37c0d54a89c0d54adcc0d54b2fc0d54b82c0d54bd5c0d54c28c0d54c7bc0d54ccec0d54d21c0d54d74c0d54dc7c0d54e1ac0d54e6ec0d54ec1c0d54f14c0d54f67c0d54fbac0d5500ec0d55061c0d550b4c0d55107c0d5515bc0d551aec0d55201c0d55255c0d552a8c0d552fcc0d5534fc0d553a3c0d553f6c0d5544ac0d5549dc0d554f1c0d55544c0d55598c0d555ecc0d5563fc0d55693c0d556e7c0d5573ac0d5578ec0d557e2c0d55836c0d5588ac0d558ddc0d55931c0d55985c0d559d9c0d55a2dc0d55a81c0d55ad5c0d55b29c0d55b7dc0d55bd1c0d55c25c0d55c79c0d55ccdc0d55d21c0d55d76c0d55dcac0d55e1ec0d55e72c0d55ec6c0d55f1bc0d55f6fc0d55fc3c0d56018c0d5606cc0d560c0c0d56115c0d56169c0d561bec0d56212c0d56267c0d562bbc0d56310c0d56364c0d563b9c0d5640dc0d56462c0d564b7c0d5650bc0d56560c0d565b5c0d5660ac0d5665ec0d566b3c0d56708c0d5675dc0d567b2c0d56806c0d5685bc0d568b0c0d56905c0d5695ac0d569afc0d56a04c0d56a59c0d56aaec0d56b03c0d56b59c0d56baec0d56c03c0d56c58c0d56cadc0d56d02c0d56d58c0d56dadc0d56e02c0d56e58c0d56eadc0d56f02c0d56f58c0d56fadc0d57003c0d57058c0d570aec0d57103c0d57159c0d571aec0d57204c0d57259c0d572afc0d57305c0d5735ac0d573b0c0d57406c0d5745bc0d574b1c0d57507c0d5755dc0d575b3c0d57608,
  0xc0d4d594c0d4d5dfc0d4d62ac0d4d676c0d4d6c1c0d4d70dc0d4d758c0d4d7a3c0d4d7efc0d4d83bc0d4d886c0d4d8d2c0d4d91dc0d4d969c0d4d9b4c0d4da00c0d4da4cc0d4da97c0d4dae3c0d4db2fc0d4db7ac0d4dbc6c0d4dc12c0d4dc5ec0d4dca9c0d4dcf5c0d4dd41c0d4dd8dc0d4ddd9c0d4de25c0d4de71c0d4debdc0d4df08c0d4df54c0d4dfa0c0d4dfecc0d4e038c0d4e084c0d4e0d0c0d4e11dc0d4e169c0d4e1b5c0d4e201c0d4e24dc0d4e299c0d4e2e5c0d4e331c0d4e37ec0d4e3cac0d4e416c0d4e462c0d4e4afc0d4e4fbc0d4e547c0d4e594c0d4e5e0c0d4e62cc0d4e679c0d4e6c5c0d4e712c0d4e75ec0d4e7abc0d4e7f7c0d4e844c0d4e890c0d4e8ddc0d4e929c0d4e976c0d4e9c2c0d4ea0fc0d4ea5cc0d4eaa8c0d4eaf5c0d4eb42c0d4eb8ec0d4ebdbc0d4ec28c0d4ec75c0d4ecc1c0d4ed0ec0d4ed5bc0d4eda8c0d4edf5c0d4ee42c0d4ee8fc0d4eedbc0d4ef28c0d4ef75c0d4efc2c0d4f00fc0d4f05cc0d4f0a9c0d4f0f6c0d4f144c0d4f191c0d4f1dec0d4f22bc0d4f278c0d4f2c5c0d4f312c0d4f360c0d4f3adc0d4f3fac0d4f447c0d4f495c0d4f4e2c0d4f52fc0d4f57cc0d4f5cac0d4f617c0d4f665c0d4f6b2c0d4f6ffc0d4f74dc0d4f79ac0d4f7e8c0d4f835c0d4f883c0d4f8d0c0d4f91ec0d4f96cc0d4f9b9c0d4fa07c0d4fa54c0d4faa2c0d4faf0c0d4fb3dc0d4fb8bc0d4fbd9c0d4fc27c0d4fc74c0d4fcc2c0d4fd10c0d4fd5ec0d4fdacc0d4fdfac0d4fe47c0d4fe95c0d4fee3c0d4ff31c0d4ff7fc0d4ffcdc0d5001bc0d50069c0d500b7c0d50105c0d50153c0d501a1c0d501f0c0d5023ec0d5028cc0d502dac0d50328c0d50376c0d503c5c0d50413c0d50461c0d504b0c0d504fec0d5054cc0d5059bc0d505e9c0d50637c0d50686c0d506d4c0d50723c0d50771c0d507c0c0d5080ec0d5085dc0d508abc0d508fac0d50948c0d50997c0d509e6c0d50a34c0d50a83c0d50ad2c0d50b20c0d50b6fc0d50bbec0d50c0cc0d50c5bc0d50caac0d50cf9c0d50d48c0d50d97c0d50de5c0d50e34c0d50e83c0d50ed2c0d50f21c0d50f70c0d50fbfc0d5100ec0d5105dc0d510acc0d510fbc0d5114bc0d5119ac0d511e9c0d51238c0d51287c0d512d6c0d51326c0d51375c0d513c4c0d51413c0d51463c0d514b2c0d51501c0d51551c0d515a0c0d515efc0d5163fc0d5168ec0d516dec0d5172dc0d5177dc0d517ccc0d5181cc0d5186bc0d518bbc0d5190bc0d5195ac0d519aac0d519f9c0d51a49c0d51a99c0d51ae9c0d51b38c0d51b88c0d51bd8c0d51c28c0d51c77c0d51cc7c0d51d17c0d51d67c0d51db7c0d51e07c0d51e57c0d51ea7c0d51ef7c0d51f47c0d51f97c0d51fe7c0d52037c0d52087c0d520d7c0d52127c0d52177c0d521c8c0d52218c0d52268c0d522b8c0d52308] ++
  [0xc0d4d548]

/-- R420, GUMB level 0. -/
def gumbP : List Nat :=
  [0xbf82b66cbf82e4c3bf831338bf8341cbbf83707dbf839f4dbf83ce3cbf83fd4abf842c78bf845bc5bf848b31bf84babebf84ea6bbf851a38bf854a26bf857a35bf85aa66bf85dab8bf860b2bbf863bc1bf866c79bf869d53bf86ce50bf86ff71bf8730b5bf87621cbf8793a7bf87c557bf87f72bbf882924bf885b42bf888d86bf88bfefbf88f27ebf892534bf895810bf898b13bf89be3ebf89f190bf8a250abf8a58adbf8a8c78bf8ac06dbf8af48bbf8b28d2bf8b5d44bf8b91e0bf8bc6a7bf8bfb99bf8c30b6bf8c6600bf8c9b76bf8cd119bf8d06eabf8d3ce7bf8d7313bf8da96dbf8ddff6bf8e16afbf8e4d97bf8e84b0bf8ebbf9bf8ef373bf8f2b1fbf8f62fcbf8f9b0dbf8fd350bf900bc7bf904472bf907d52bf90b666bf90efb0bf912931bf9162e8bf919cd6bf91d6fcbf92115abf924bf1bf9286c2bf92c1cdbf92fd12bf933893bf937450bf93b049bf93ec80bf9428f4bf9465a7bf94a299bf94dfcbbf951d3ebf955af2bf9598e9bf95d722bf96159ebf96545fbf969365bf96d2b1bf971243bf97521dbf979240bf97d2acbf981361bf985462bf9895aebf98d748bf99192fbf995b64bf999deabf99e0bfbf9a23e7bf9a6761bf9aab2fbf9aef51bf9b33cabf9b7899bf9bbdc0bf9c0341bf9c491cbf9c8f52bf9cd5e6bf9d1cd7bf9d6428bf9dabd9bf9df3edbf9e3c64bf9e853fbf9ece81bf9f182bbf9f623dbf9facbabf9ff7a3bfa042fbbfa08ec1bfa0daf8bfa127a3bfa174c2bfa1c257bfa21064bfa25eebbfa2adeebfa2fd6fbfa34d6fbfa39df2bfa3eef8bfa44085bfa4929abfa4e53abfa53867bfa58c23bfa5e071bfa63554bfa68acebfa6e0e1bfa73790bfa78edfbfa7e6d0bfa83f66bfa898a4bfa8f28ebfa94d26bfa9a870bfaa046fbfaa6128bfaabe9cbfab1cd1bfab7bcbbfabdb8cbfac3c1abfac9d79bfacffacbfad62b9bfadc6a5bfae2b73bfae912abfaef7cfbfaf5f66bfafc7f5bfb03183bfb09c15bfb107b2bfb1745fbfb1e224bfb25108bfb2c111bfb33248bfb3a4b4bfb4185dbfb48d4dbfb5038bbfb57b20bfb5f418bfb66e7bbfb6ea54bfb767aebfb7e694bfb86713bfb8e938bfb96d0ebfb9f2a5bfba7a0abfbb034ebfbb8e80bfbc1bb1bfbcaaf3bfbd3c58bfbdcff6bfbe65e0bfbefe2ebfbf98f6bfc03652bfc0d65dbfc17933bfc21ef1bfc2c7b9bfc373adbfc422f2bfc4d5aebfc58c0ebfc6463dbfc7046ebfc7c6d6bfc88dafbfc95936bfca29b0bfcaff67bfcbdaacbfccbbd8bfcda34dbfce9177bfcf86ccbfd083d3bfd1891fbfd29757bfd3af37bfd4d193bfd5ff5dbfd739aabfd881bcbfd9d906bfdb413fbfdcbc6bbfde4cf8bfdff5d4bfe1ba9cbfe39fd0bfe5ab2ebfe7e42bbfea54c2bfed0ac2bff01a0fbff3a0f7bff7d137bffd05bec002022bc00793c300000000,
  0xbf3ba873bf3be619bf3c23d0bf3c6196bf3c9f6dbf3cdd53bf3d1b4bbf3d5952bf3d976bbf3dd593bf3e13ccbf3e5216bf3e9071bf3eceddbf3f0d59bf3f4be6bf3f8a85bf3fc934bf4007f4bf4046c6bf4085a9bf40c49dbf4103a3bf4142babf4181e3bf41c11dbf42006abf423fc7bf427f37bf42beb9bf42fe4cbf433df2bf437da9bf43bd73bf43fd50bf443d3ebf447d3fbf44bd52bf44fd78bf453db1bf457dfcbf45be5bbf45feccbf463f50bf467fe7bf46c091bf47014ebf47421fbf478303bf47c3fabf480505bf484624bf488756bf48c89cbf4909f6bf494b63bf498ce5bf49ce7bbf4a1025bf4a51e3bf4a93b6bf4ad59dbf4b1798bf4b59a9bf4b9bcebf4bde07bf4c2056bf4c62b9bf4ca532bf4ce7c0bf4d2a63bf4d6d1bbf4dafe9bf4df2ccbf4e35c5bf4e78d4bf4ebbf8bf4eff33bf4f4283bf4f85eabf4fc966bf500cf9bf5050a3bf509463bf50d839bf511c26bf51602abf51a445bf51e877bf522cc0bf527120bf52b598bf52fa27bf533ecdbf53838bbf53c861bf540d4fbf545254bf549772bf54dca8bf5521f6bf55675dbf55acdcbf55f274bf563824bf567deebf56c3d0bf5709ccbf574fe1bf57960fbf57dc56bf5822b7bf586932bf58afc7bf58f675bf593d3ebf598421bf59cb1ebf5a1235bf5a5967bf5aa0b4bf5ae81cbf5b2f9fbf5b773cbf5bbef5bf5c06cabf5c4eb9bf5c96c5bf5cdeecbf5d272fbf5d6f8ebf5db80abf5e00a1bf5e4955bf5e9226bf5edb13bf5f241ebf5f6d45bf5fb689bf5fffebbf60496abf609307bf60dcc2bf61269bbf617091bf61baa6bf6204d9bf624f2bbf62999cbf62e42bbf632edabf6379a7bf63c494bf640fa1bf645acdbf64a619bf64f185bf653d11bf6588bdbf65d48abf662078bf666c87bf66b8b6bf670507bf675179bf679e0dbf67eac3bf68379abf688494bf68d1b0bf691eeebf696c4fbf69b9d3bf6a077abf6a5545bf6aa333bf6af144bf6b3f7abf6b8dd3bf6bdc51bf6c2af3bf6c79babf6cc8a5bf6d17b6bf6d66ecbf6db648bf6e05c9bf6e5571bf6ea53ebf6ef532bf6f454cbf6f958ebf6fe5f6bf703686bf70873dbf70d81cbf712923bf717a52bf71cba9bf721d2abf726ed3bf72c0a5bf7312a1bf7364c6bf73b716bf740990bf745c34bf74af02bf7501fcbf755521bf75a872bf75fbeebf764f96bf76a36bbf76f76cbf774b9abf779ff5bf77f47dbf784934bf789e18bf78f32bbf79486cbf799ddcbf79f37bbf7a494abf7a9f48bf7af577bf7b4bd6bf7ba266bf7bf927bf7c5019bf7ca73dbf7cfe93bf7d561bbf7dadd6bf7e05c4bf7e5de6bf7eb63bbf7f0ec4bf7f6782bf7fc074bf800ccebf80397cbf806646bf80932bbf80c02abf80ed46bf811a7dbf8147d0bf81753fbf81a2cbbf81d072bf81fe37bf822c18bf825a17bf828833,
  0xbf041743bf044a47bf047d52bf04b064bf04e37dbf05169dbf0549c4bf057cf2bf05b027bf05e363bf0616a6bf0649f0bf067d41bf06b099bf06e3f8bf07175fbf074accbf077e41bf07b1bdbf07e541bf0818cbbf084c5dbf087ff6bf08b397bf08e73fbf091aeebf094ea5bf098263bf09b628bf09e9f5bf0a1dcabf0a51a6bf0a8589bf0ab974bf0aed67bf0b2161bf0b5563bf0b896cbf0bbd7ebf0bf196bf0c25b7bf0c59dfbf0c8e0fbf0cc247bf0cf687bf0d2acfbf0d5f1ebf0d9375bf0dc7d4bf0dfc3bbf0e30aabf0e6522bf0e99a1bf0ece28bf0f02b7bf0f374ebf0f6bedbf0fa095bf0fd544bf1009fcbf103ebcbf107384bf10a855bf10dd2ebf11120fbf1146f8bf117beabf11b0e4bf11e5e6bf121af1bf125005bf128521bf12ba45bf12ef72bf1324a8bf1359e6bf138f2dbf13c47cbf13f9d4bf142f35bf14649fbf149a11bf14cf8cbf150510bf153a9dbf157032bf15a5d1bf15db78bf161129bf1646e2bf167ca4bf16b270bf16e844bf171e22bf175408bf1789f8bf17bff1bf17f5f4bf182bffbf186214bf189832bf18ce59bf19048abf193ac4bf197108bf19a755bf19ddabbf1a140bbf1a4a75bf1a80e8bf1ab765bf1aedebbf1b247bbf1b5b15bf1b91b8bf1bc865bf1bff1cbf1c35ddbf1c6ca8bf1ca37cbf1cda5bbf1d1143bf1d4836bf1d7f32bf1db638bf1ded49bf1e2464bf1e5b88bf1e92b7bf1ec9f0bf1f0134bf1f3882bf1f6fdabf1fa73cbf1fdea9bf201620bf204da1bf20852ebf20bcc4bf20f465bf212c11bf2163c7bf219b89bf21d354bf220b2bbf22430cbf227af8bf22b2efbf22eaf1bf2322fdbf235b15bf239337bf23cb65bf24039ebf243be1bf247430bf24ac8abf24e4efbf251d60bf2555dcbf258e63bf25c6f5bf25ff93bf26383cbf2670f1bf26a9b1bf26e27dbf271b55bf275438bf278d26bf27c621bf27ff27bf283839bf287157bf28aa80bf28e3b6bf291cf7bf295645bf298f9ebf29c904bf2a0276bf2a3bf4bf2a757ebf2aaf14bf2ae8b7bf2b2266bf2b5c21bf2b95e9bf2bcfbdbf2c099ebf2c438bbf2c7d85bf2cb78cbf2cf19fbf2d2bbfbf2d65ecbf2da025bf2dda6cbf2e14bfbf2e4f1fbf2e898cbf2ec407bf2efe8ebf2f3923bf2f73c4bf2fae73bf2fe92fbf3023f9bf305ed0bf3099b4bf30d4a6bf310fa5bf314ab2bf3185cdbf31c0f5bf31fc2bbf32376fbf3272c0bf32ae1fbf32e98dbf332508bf336091bf339c28bf33d7cebf341381bf344f43bf348b13bf34c6f2bf3502dfbf353edabf357ae4bf35b6fcbf35f323bf362f58bf366b9cbf36a7efbf36e451bf3720c2bf375d41bf3799d0bf37d66ebf38131abf384fd6bf388ca1bf38c97cbf390665bf39435ebf398067bf39bd7fbf39faa6bf3a37ddbf3a7524bf3ab27bbf3aefe1bf3b2d57bf3b6add,
  0xbea798f3bea7f552bea851b7bea8ae23bea90a95bea9670ebea9c38ebeaa2014beaa7ca0beaad933beab35cdbeab926dbeabef14beac4bc2beaca877bead0532bead61f4beadbebdbeae1b8cbeae7862beaed540beaf3224beaf8f0fbeafec00beb048f9beb0a5f9beb10300beb1600dbeb1bd22beb21a3dbeb27760beb2d48abeb331bbbeb38ef3beb3ec32beb44978beb4a6c6beb5041abeb56176beb5bed9beb61c44beb679b5beb6d72ebeb734aebeb79236beb7efc5beb84d5bbeb8aaf9beb9089ebeb9664bbeb9c3ffbeba21bbbeba7f7ebebadd49bebb3b1bbebb98f5bebbf6d7bebc54c0bebcb2b0bebd10a9bebd6ea9bebdccb1bebe2ac1bebe88d8bebee6f8bebf451fbebfa34ebec00184bec05fc3bec0be0abec11c58bec17aafbec1d90dbec23774bec295e2bec2f459bec352d7bec3b15ebec40fedbec46e84bec4cd23bec52bcbbec58a7abec5e932bec647f2bec6a6bbbec7058cbec76465bec7c346bec82230bec88122bec8e01dbec93f20bec99e2cbec9fd40beca5c5dbecabb82becb1ab0becb79e7becbd926becc386ebecc97bebeccf718becd567abecdb5e4bece1558bece74d4beced45abecf33e8becf937fbecff31fbed052c7bed0b279bed11234bed171f8bed1d1c5bed2319bbed2917abed2f163bed35154bed3b14fbed41153bed47160bed4d176bed53196bed591bfbed5f1f1bed6522dbed6b272bed712c0bed77318bed7d37abed833e5bed8945abed8f4d8bed9555fbed9b5f1beda168cbeda7730bedad7dfbedb3897bedb9959bedbfa25bedc5afabedcbbdabedd1cc3bedd7db6bedddeb3bede3fbabedea0ccbedf01e7bedf630cbedfc43bbee02575bee086b8bee0e806bee1495ebee1aac0bee20c2cbee26da3bee2cf24bee330afbee39245bee3f3e5bee45590bee4b745bee51905bee57acfbee5dca3bee63e83bee6a06dbee70261bee76461bee7c66bbee8287fbee88a9fbee8ecc9bee94efebee9b13ebeea1389beea75dfbeead840beeb3aacbeeb9d23beebffa5beec6232beecc4cbbeed276ebeed8a1dbeedecd6beee4f9cbeeeb26cbeef1548beef782fbeefdb21bef03e1fbef0a129bef1043ebef1675ebef1ca8abef22dc2bef29105bef2f454bef357afbef3bb15bef41e87bef48205bef4e58fbef54924bef5acc6bef61073bef6742dbef6d7f2bef73bc4bef79fa2bef8038bbef86781bef8cb83bef92f92bef993acbef9f7d3befa5c06befac046befb2492befb88eabefbed4fbefc51c1befcb63fbefd1ac9befd7f61befde405befe48b5befead73beff123dbeff7714beffdbf7bf002074bf0052f3bf008578bf00b804bf00ea96bf011d2fbf014fcfbf018275bf01b521bf01e7d5bf021a8ebf024d4fbf028016bf02b2e4bf02e5b9bf031894bf034b76bf037e5fbf03b14fbf03e445,
  0xbe1b7292be1c22acbe1cd2ccbe1d82f0be1e3319be1ee348be1f937bbe2043b4be20f3f1be21a434be22547cbe2304c9be23b51cbe246574be2515d1be25c633be26769bbe272708be27d77abe2887f2be293870be29e8f2be2a997bbe2b4a08be2bfa9cbe2cab35be2d5bd3be2e0c77be2ebd21be2f6dd0be301e86be30cf40be318001be3230c7be32e194be339266be34433dbe34f41bbe35a4ffbe3655e8be3706d8be37b7cebe3868c9be3919cbbe39cad2be3a7be0be3b2cf4be3bde0ebe3c8f2ebe3d4054be3df181be3ea2b4be3f53edbe40052cbe40b672be4167bebe421910be42ca69be437bc9be442d2ebe44de9bbe45900dbe464187be46f307be47a48dbe48561abe4907aebe49b948be4a6aeabe4b1c91be4bce40be4c7ff6be4d31b2be4de375be4e953fbe4f4710be4ff8e8be50aac6be515cacbe520e99be52c08dbe537288be54248abe54d693be5588a3be563ababe56ecd9be579effbe58512cbe590360be59b59cbe5a67dfbe5b1a2abe5bcc7cbe5c7ed5be5d3136be5de39ebe5e960ebe5f4885be5ffb04be60ad8bbe616019be6212afbe62c54cbe6377f2be642a9fbe64dd53be659010be6642d5be66f5a1be67a875be685b51be690e35be69c122be6a7416be6b2712be6bda16be6c8d22be6d4037be6df354be6ea678be6f59a6be700cdbbe70c019be71735ebe7226adbe72da03be738d63be7440cabe74f43abe75a7b3be765b34be770ebdbe77c24fbe7875eabe79298ebe79dd3abe7a90efbe7b44acbe7bf872be7cac42be7d601abe7e13fbbe7ec7e4be7f7bd7be8017e9be8071ecbe80cbf3be8125febe81800ebe81da22be82343bbe828e59be82e87bbe8342a2be839ccebe83f6febe845133be84ab6cbe8505aabe855fedbe85ba35be861481be866ed3be86c929be872383be877de3be87d848be8832b1be888d1fbe88e792be89420abe899c87be89f709be8a518fbe8aac1bbe8b06acbe8b6142be8bbbdcbe8c167cbe8c7121be8ccbcbbe8d267abe8d812ebe8ddbe7be8e36a5be8e9168be8eec31be8f46ffbe8fa1d2be8ffcaabe905787be90b26abe910d52be91683fbe91c332be921e2abe927927be92d42abe932f32be938a3fbe93e552be94406abe949b87be94f6abbe9551d3be95ad01be960835be96636ebe96beadbe9719f1be97753bbe97d08abe982bdfbe98873abe98e29abe993e00be99996cbe99f4ddbe9a5054be9aabd1be9b0754be9b62dcbe9bbe6bbe9c19ffbe9c7599be9cd138be9d2cdebe9d888abe9de43bbe9e3ff2be9e9bb0be9ef773be9f533cbe9faf0cbea00ae1bea066bdbea0c29ebea11e86bea17a73bea1d667bea23261bea28e61bea2ea67bea34674bea3a286bea3fe9fbea45abebea4b6e4bea5130fbea56f41bea5cb7abea627b9bea683febea6e049bea73c9b,
  0x3c9922543c93b2553c8e425b3c88d2653c8362733c7be5093c7105343c6625653c5b459d3c5065dc3c4586203c3aa66a3c2fc6b93c24e70d3c1a07673c0f27c43c0448263bf2d1163bdd11e83bc752c03bb1939e3b9bd4813b8615683b60aca83b352e853b09b0673abc649b3a4ad0db38e6c42eba111fcfba9f8c14baf68845bb26c23fbb524060bb7dbe87bb949e5bbbaa5d76bbc01c96bbd5dbbcbbeb9ae9bc00ad0ebc0b8cabbc166c4cbc214bf2bc2c2b9cbc370b4cbc41eb00bc4ccababc57aa7bbc628a41bc6d6a0ebc7849e2bc8194dfbc8704d0bc8c74c5bc91e4bfbc9754bcbc9cc4bebca234c5bca7a4d0bcad14e1bcb284f6bcb7f510bcbd6530bcc2d556bcc84581bccdb5b2bcd325e9bcd89626bcde0669bce376b3bce8e704bcee575bbcf3c7babcf9381fbcfea88cbd020c80bd04c4bebd077d00bd0a3546bd0ced90bd0fa5debd125e31bd151687bd17cee2bd1a8742bd1d3fa6bd1ff80ebd22b07cbd2568eebd282165bd2ad9e1bd2d9262bd304ae8bd330374bd35bc04bd38749bbd3b2d36bd3de5d7bd409e7ebd43572abd460fdcbd48c894bd4b8153bd4e3a17bd50f2e1bd53abb1bd566488bd591d65bd5bd648bd5e8f32bd614823bd64011abd66ba18bd69731dbd6c2c29bd6ee53cbd719e57bd745778bd7710a1bd79c9d1bd7c8308bd7f3c47bd80fac7bd82576ebd83b419bd8510c8bd866d7bbd87ca32bd8926edbd8a83adbd8be070bd8d3d38bd8e9a03bd8ff6d4bd9153a8bd92b081bd940d5ebd956a40bd96c726bd982411bd998100bd9addf4bd9c3aecbd9d97eabd9ef4ecbda051f3bda1aefebda30c0fbda46924bda5c63fbda7235ebda88083bda9ddadbdab3adcbdac9810bdadf549bdaf5287bdb0afcbbdb20d14bdb36a63bdb4c7b7bdb62511bdb78270bdb8dfd5bdba3d3fbdbb9aafbdbcf825bdbe55a0bdbfb322bdc110a9bdc26e36bdc3cbc9bdc52962bdc68701bdc7e4a6bdc94251bdcaa003bdcbfdbabdcd5b78bdceb93cbdd01707bdd174d8bdd2d2afbdd4308dbdd58e71bdd6ec5cbdd84a4ebdd9a846bddb0645bddc644abdddc257bddf206abde07e84bde1dca5bde33acdbde498fdbde5f733bde75570bde8b3b4bdea1200bdeb7053bdecceadbdee2d0fbdef8b78bdf0e9e8bdf24860bdf3a6e0bdf50567bdf663f5bdf7c28cbdf9212abdfa7fcfbdfbde7dbdfd3d32bdfe9bf0bdfffab5be00acc1be015c2cbe020b9bbe02bb0dbe036a84be0419ffbe04c97ebe057902be062889be06d815be0787a5be083739be08e6d2be09966ebe0a4610be0af5b5be0ba55fbe0c550dbe0d04c0be0db477be0e6433be0f13f3be0fc3b7be107381be11234ebe11d321be1282f8be1332d3be13e2b4be149299be154282be15f271be16a264be17525cbe180259be18b25bbe196261be1a126dbe1ac27d,
  0x3e42375e3e4186713e40d5893e4024a73e3f73ca3e3ec2f23e3e12203e3d61523e3cb08a3e3bffc73e3b4f083e3a9e4f3e39ed9c3e393ced3e388c433e37db9e3e372afe3e367a643e35c9ce3e35193d3e3468b13e33b82a3e3307a83e32572b3e31a6b23e30f63f3e3045d03e2f95663e2ee5013e2e34a13e2d84453e2cd3ee3e2c239c3e2b734f3e2ac3063e2a12c23e2962823e28b2483e2802113e2751e03e26a1b33e25f18a3e2541663e2491473e23e12c3e2331153e2281033e21d0f63e2120ed3e2070e83e1fc0e73e1f10eb3e1e60f43e1db1003e1d01113e1c51273e1ba1403e1af15e3e1a41803e1991a73e18e1d13e1832003e1782333e16d26a3e1622a53e1572e43e14c3273e14136f3e1363ba3e12b40a3e12045d3e1154b53e10a5103e0ff5703e0f45d33e0e963b3e0de6a63e0d37153e0c87883e0bd7ff3e0b287a3e0a78f93e09c97b3e091a013e086a8b3e07bb193e070baa3e065c403e05acd83e04fd753e044e153e039eb93e02ef603e02400c3e0190ba3e00e16c3e0032223dff05b73dfda7303dfc48b13dfaea393df98bc73df82d5c3df6cef83df5709b3df412453df2b3f63df155ad3deff76b3dee992f3ded3afa3debdccc3dea7ea43de920823de7c2673de664533de506453de3a83d3de24a3b3de0ec403ddf8e4b3dde305c3ddcd2733ddb74903dda16b43dd8b8dd3dd75b0d3dd5fd423dd49f7d3dd341bf3dd1e4063dd086533dcf28a53dcdcafe3dcc6d5c3dcb0fc03dc9b2293dc854983dc6f70d3dc599873dc43c063dc2de8b3dc181163dc023a63dbec63b3dbd68d53dbc0b753dbaae1a3db950c43db7f3743db696283db538e13db3dba03db27e643db1212c3dafc3fa3dae66cc3dad09a33dabac7f3daa4f603da8f2463da795303da6381f3da4db123da37e0b3da221073da0c4093d9f670f3d9e0a193d9cad273d9b503a3d99f3523d98966d3d97398d3d95dcb23d947fda3d9323063d91c6373d90696c3d8f0ca53d8dafe13d8c53223d8af6673d8999af3d883cfc3d86e04c3d8583a03d8426f83d82ca533d816db33d8011153d7d68f73d7aafcb3d77f6a63d753d883d7284713d6fcb613d6d12573d6a59543d67a0583d64e7623d622e723d5f75893d5cbca73d5a03ca3d574af43d5492243d51d9593d4f20953d4c67d63d49af1e3d46f66b3d443dbd3d4185153d3ecc733d3c13d63d395b3e3d36a2ac3d33ea1e3d3131963d2e79133d2bc0943d29081b3d264fa63d2397373d20decb3d1e26653d1b6e023d18b5a43d15fd4b3d1344f63d108ca53d0dd4583d0b1c0f3d0863ca3d05ab893d02f34b3d003b123cfb05b83cf595533cf024f63ceab49f3ce5444e3cdfd4053cda63c13cd4f3843ccf834d3cca131c3cc4a2f13cbf32cb3cb9c2ab3cb452903caee27a3ca9726a3ca4025e3c9e9256,
  0x3ebb4b423ebaeef53eba92ac3eba36693eb9da2b3eb97df23eb921be3eb8c58f3eb869653eb80d3f3eb7b11f3eb755043eb6f8ee3eb69cdd3eb640d13eb5e4ca3eb588c83eb52cca3eb4d0d23eb474df3eb418f03eb3bd073eb361223eb305423eb2a9673eb24d913eb1f1bf3eb195f33eb13a2b3eb0de683eb082aa3eb026f13eafcb3d3eaf6f8d3eaf13e23eaeb83c3eae5c9a3eae00fe3eada5663ead49d23eacee443eac92ba3eac37353eabdbb43eab80383eab24c13eaac94e3eaa6de03eaa12773ea9b7123ea95bb23ea900573ea8a5003ea849ae3ea7ee603ea793163ea737d23ea6dc923ea681563ea6261f3ea5caec3ea56fbe3ea514943ea4b96f3ea45e4e3ea403323ea3a81a3ea34d073ea2f1f83ea296ed3ea23be73ea1e0e53ea185e83ea12aef3ea0cffa3ea0750a3ea01a1e3e9fbf373e9f64533e9f09743e9eae9a3e9e53c33e9df8f13e9d9e233e9d435a3e9ce8953e9c8dd43e9c33173e9bd85e3e9b7daa3e9b22fa3e9ac84e3e9a6da63e9a13023e99b8633e995dc83e9903313e98a89e3e984e0f3e97f3843e9798fd3e973e7b3e96e3fd3e9689823e962f0c3e95d49a3e957a2c3e951fc23e94c55c3e946af93e94109b3e93b6413e935beb3e9301993e92a74b3e924d013e91f2bb3e9198793e913e3b3e90e4003e9089ca3e902f973e8fd5693e8f7b3e3e8f21173e8ec6f43e8e6cd53e8e12ba3e8db8a33e8d5e8f3e8d047f3e8caa733e8c506b3e8bf6673e8b9c663e8b42693e8ae8703e8a8e7b3e8a348a3e89da9c3e8980b23e8926cc3e88cce93e88730a3e88192f3e87bf573e8765833e870bb33e86b1e73e86581e3e85fe583e85a4973e854ad93e84f11e3e8497673e843db43e83e4043e838a583e8330b03e82d70b3e827d693e8223cb3e81ca313e81709a3e8117073e80bd773e8063ea3e800a613e7f61b73e7eaeb33e7dfbb63e7d48c03e7c95d03e7be2e83e7b30063e7a7d2b3e79ca573e7917893e7864c23e77b2023e76ff493e764c963e7599ea3e74e7453e7434a63e73820e3e72cf7d3e721cf23e716a6d3e70b7f03e7005783e6f53073e6ea09d3e6dee393e6d3bdc3e6c89853e6bd7343e6b24ea3e6a72a63e69c0683e690e313e685c003e67a9d63e66f7b23e6645943e65937c3e64e16a3e642f5f3e637d5a3e62cb5b3e6219623e61676f3e60b5823e60039c3e5f51bb3e5e9fe13e5dee0c3e5d3c3e3e5c8a763e5bd8b33e5b26f73e5a75403e59c3903e5911e53e5860403e57aea13e56fd083e564b753e5599e83e54e8603e5436de3e5385623e52d3ec3e52227b3e5171103e50bfab3e500e4b3e4f5cf13e4eab9d3e4dfa4f3e4d49053e4c97c23e4be6843e4b354c3e4a84193e49d2eb3e4921c33e4870a13e47bf843e470e6c3e465d5a3e45ac4d3e44fb463e444a443e4399473e42e850] ++
  [0x3f0d4fbc3f0d1e523f0cecec3f0cbb8b3f0c8a2d3f0c58d33f0c277d3f0bf62c3f0bc4de3f0b93943f0b624e3f0b310d3f0affcf3f0ace953f0a9d5f3f0a6c2d3f0a3aff3f0a09d53f09d8af3f09a78d3f09766f3f0945543f09143e3f08e32c3f08b21d3f0881123f08500b3f081f083f07ee093f07bd0e3f078c173f075b233f072a333f06f9473f06c85f3f06977b3f06669b3f0635be3f0604e53f05d4103f05a33f3f0572723f0541a83f0510e23f04e0203f04af623f047ea73f044df13f041d3d3f03ec8e3f03bbe23f038b3b3f035a963f0329f63f02f9593f02c8c03f02982b3f0267993f02370b3f0206803f01d5fa3f01a5773f0174f73f01447c3f0114033f00e38f3f00b31e3f0082b13f0052473f0021e13effe2fe3eff82403eff218a3efec0da3efe60323efdff913efd9ef73efd3e653efcddd93efc7d543efc1cd73efbbc613efb5bf13efafb893efa9b283efa3acd3ef9da7a3ef97a2e3ef919e93ef8b9aa3ef859733ef7f9433ef799193ef738f73ef6d8db3ef678c73ef618b93ef5b8b23ef558b23ef4f8b93ef498c63ef438db3ef3d8f63ef379183ef319413ef2b9703ef259a73ef1f9e43ef19a283ef13a733ef0dac43ef07b1c3ef01b7b3eefbbe03eef5c4c3eeefcbf3eee9d383eee3db93eedde3f3eed7ecd3eed1f603eecbffb3eec609c3eec01443eeba1f23eeb42a73eeae3623eea84243eea24ec3ee9c5bb3ee966903ee9076c3ee8a84e3ee849373ee7ea263ee78b1b3ee72c173ee6cd1a3ee66e223ee60f323ee5b0473ee551633ee4f2853ee493ae3ee434dd3ee3d6123ee3774d3ee3188f3ee2b9d73ee25b253ee1fc7a3ee19dd53ee13f363ee0e09d3ee0820b3ee0237e3edfc4f83edf66783edf07ff3edea98b3ede4b1d3eddecb63edd8e553edd2ffa3edcd1a53edc73563edc150d3edbb6ca3edb588d3edafa573eda9c263eda3dfb3ed9dfd73ed981b83ed923a03ed8c58d3ed867803ed809793ed7ab793ed74d7e3ed6ef893ed6919a3ed633b13ed5d5cd3ed577f03ed51a183ed4bc473ed45e7b3ed400b53ed3a2f53ed3453a3ed2e7863ed289d73ed22c2e3ed1ce8b3ed170ed3ed113563ed0b5c43ed058373ecffab13ecf9d303ecf3fb53ecee23f3ece84d03ece27653ecdca013ecd6ca23ecd0f493eccb1f53ecc54a73ecbf75f3ecb9a1c3ecb3cdf3ecadfa73eca82753eca25483ec9c8213ec96b003ec90de33ec8b0cd3ec853bc3ec7f6b03ec799aa3ec73ca93ec6dfae3ec682b83ec625c83ec5c8dd3ec56bf73ec50f173ec4b23d3ec455673ec3f8973ec39bcc3ec33f073ec2e2473ec2858c3ec228d73ec1cc273ec16f7c3ec112d63ec0b6363ec0599b3ebffd053ebfa0753ebf43e93ebee7633ebe8ae23ebe2e663ebdd1f03ebd757f3ebd19123ebcbcab3ebc60493ebc03ed3ebba795,
  0x3f4112333f40dbc43f40a55c3f406efa3f40389d3f4002473f3fcbf73f3f95ad3f3f5f693f3f292c3f3ef2f43f3ebcc23f3e86963f3e50713f3e1a513f3de4373f3dae243f3d78163f3d420e3f3d0c0c3f3cd6103f3ca01a3f3c6a2a3f3c34403f3bfe5c3f3bc87e3f3b92a53f3b5cd33f3b27063f3af1403f3abb7f3f3a85c43f3a500e3f3a1a5f3f39e4b53f39af113f3979733f3943db3f390e493f38d8bc3f38a3353f386db43f3838383f3802c33f37cd533f3797e83f3762843f372d253f36f7cc3f36c2783f368d2a3f3657e23f3622a03f35ed633f35b82b3f3582fa3f354dce3f3518a73f34e3863f34ae6b3f3479553f3444453f340f3b3f33da363f33a5363f33703c3f333b483f3306593f32d16f3f329c8b3f3267ad3f3232d43f31fe003f31c9323f31946a3f315fa73f312ae93f30f6313f30c17e3f308cd03f3058283f3023863f2feee83f2fba503f2f85be3f2f51313f2f1ca93f2ee8263f2eb3a93f2e7f313f2e4abf3f2e16513f2de1ea3f2dad873f2d79293f2d44d13f2d107f3f2cdc313f2ca7e93f2c73a53f2c3f683f2c0b2f3f2bd6fb3f2ba2cd3f2b6ea43f2b3a803f2b06613f2ad2483f2a9e343f2a6a243f2a361a3f2a02153f29ce153f299a1b3f2966253f2932353f28fe493f28ca633f2896823f2862a63f282ecf3f27fafc3f27c72f3f2793683f275fa53f272be73f26f82e3f26c47a3f2690cb3f265d213f26297c3f25f5dc3f25c2413f258eab3f255b1a3f25278e3f24f4073f24c0843f248d073f24598f3f24261b3f23f2ac3f23bf433f238bde3f23587e3f2325233f22f1cc3f22be7b3f228b2e3f2257e63f2224a33f21f1653f21be2c3f218af73f2157c73f21249c3f20f1763f20be553f208b383f2058203f20250d3f1ff1ff3f1fbef53f1f8bf03f1f58f03f1f25f43f1ef2fd3f1ec00b3f1e8d1d3f1e5a353f1e27503f1df4713f1dc1963f1d8ec03f1d5bee3f1d29213f1cf6593f1cc3953f1c90d63f1c5e1c3f1c2b663f1bf8b53f1bc6083f1b93603f1b60bc3f1b2e1d3f1afb833f1ac8ed3f1a965b3f1a63ce3f1a31463f19fec23f19cc433f1999c83f1967523f1934e03f1902723f18d0093f189da53f186b453f1838e93f1806923f17d43f3f17a1f13f176fa73f173d623f170b213f16d8e43f16a6ac3f1674783f1642483f16101d3f15ddf63f15abd43f1579b63f15479c3f1515873f14e3753f14b1693f147f603f144d5c3f141b5c3f13e9613f13b7693f1385763f1353873f13219d3f12efb73f12bdd53f128bf73f125a1d3f1228483f11f6773f11c4aa3f1192e13f11611d3f112f5d3f10fda03f10cbe93f109a353f1068853f1036da3f1005323f0fd38f3f0fa1f03f0f70553f0f3ebf3f0f0d2c3f0edb9d3f0eaa133f0e788d3f0e470a3f0e158c3f0de4123f0db29c3f0d812a,
  0x3f7b0f213f7ad1123f7a930d3f7a55123f7a17203f79d9373f799b573f795d813f791fb43f78e1f03f78a4353f7866843f7828dc3f77eb3d3f77ada83f77701b3f7732983f76f51e3f76b7ad3f767a453f763ce73f75ff913f75c2443f7585013f7547c63f750a953f74cd6c3f74904d3f7453363f7416293f73d9243f739c283f735f353f73224c3f72e56b3f72a8923f726bc33f722efd3f71f23f3f71b58a3f7178de3f713c3b3f70ffa13f70c30f3f7086863f704a053f700d8e3f6fd11f3f6f94b93f6f585b3f6f1c063f6edfba3f6ea3763f6e673b3f6e2b083f6deedf3f6db2bd3f6d76a43f6d3a943f6cfe8c3f6cc28d3f6c86963f6c4aa73f6c0ec13f6bd2e43f6b970f3f6b5b423f6b1f7e3f6ae3c23f6aa80e3f6a6c633f6a30c03f69f5263f69b9943f697e0a3f6942883f69070f3f68cb9e3f6890353f6854d43f68197c3f67de2b3f67a2e33f6767a33f672c6c3f66f13c3f66b6143f667af53f663fde3f6604cf3f65c9c73f658ec83f6553d13f6518e23f64ddfb3f64a31d3f6468463f642d773f63f2b03f63b7f13f637d393f63428a3f6307e33f62cd443f6292ac3f62581c3f621d953f61e3153f61a89d3f616e2c3f6133c43f60f9633f60bf0a3f6084b93f604a703f60102e3f5fd5f43f5f9bc23f5f61973f5f27753f5eed5a3f5eb3463f5e793a3f5e3f363f5e053a3f5dcb453f5d91573f5d57723f5d1d933f5ce3bd3f5ca9ee3f5c70263f5c36663f5bfcae3f5bc2fd3f5b89533f5b4fb13f5b16173f5adc833f5aa2f83f5a69743f5a2ff73f59f6813f59bd133f5983ad3f594a4d3f5910f53f58d7a53f589e5b3f5865193f582bdf3f57f2ab3f57b97f3f57805a3f57473d3f570e273f56d5173f569c103f56630f3f562a153f55f1233f55b8383f557f543f5546773f550da13f54d4d33f549c0b3f54634b3f542a923f53f1e03f53b9353f5380913f5347f43f530f5e3f52d6cf3f529e473f5265c63f522d4c3f51f4d93f51bc6d3f5184083f514ba93f5113523f50db023f50a2b93f506a763f50323a3f4ffa063f4fc1d83f4f89b13f4f51913f4f19773f4ee1653f4ea9593f4e71543f4e39563f4e015e3f4dc96e3f4d91843f4d59a13f4d21c43f4ce9ef3f4cb2203f4c7a573f4c42963f4c0adb3f4bd3263f4b9b793f4b63d23f4b2c313f4af4983f4abd053f4a85783f4a4df23f4a16733f49defa3f49a7883f49701c3f4938b73f4901583f48ca003f4892ae3f485b633f48241e3f47ece03f47b5a83f477e773f47474c3f4710283f46d90a3f46a1f23f466ae13f4633d63f45fcd13f45c5d33f458edc3f4557ea3f4520ff3f44ea1a3f44b33c3f447c643f4445923f440ec63f43d8013f43a1423f436a893f4333d73f42fd2b3f42c6853f428fe53f42594b3f4222b83f41ec2a3f41b5a33f417f223f4148a7,
  0x3f9f54913f9f2f883f9f0a883f9ee58e3f9ec09d3f9e9bb23f9e76d03f9e51f53f9e2d213f9e08553f9de3913f9dbed43f9d9a1e3f9d75703f9d50ca3f9d2c2a3f9d07923f9ce3023f9cbe793f9c99f73f9c757d3f9c510a3f9c2c9e3f9c083a3f9be3dc3f9bbf863f9b9b383f9b76f03f9b52b03f9b2e773f9b0a463f9ae61b3f9ac1f83f9a9ddb3f9a79c63f9a55b83f9a31b13f9a0db13f99e9b93f99c5c73f99a1dc3f997df93f995a1c3f9936473f9912783f98eeb13f98caf03f98a7363f9883843f985fd83f983c333f9818953f97f4fe3f97d16e3f97ade53f978a623f9766e63f9743723f9720033f96fc9c3f96d93c3f96b5e23f96928f3f966f433f964bfd3f9628bf3f9605863f95e2553f95bf2a3f959c063f9578e93f9555d23f9532c23f950fb83f94ecb53f94c9b93f94a6c33f9483d43f9460eb3f943e093f941b2d3f93f8583f93d5893f93b2c13f938fff3f936d443f934a8f3f9327e03f9305383f92e2973f92bffc3f929d673f927ad83f9258503f9235ce3f9213533f91f0de3f91ce6f3f91ac063f9189a43f9167483f9144f23f9122a33f91005a3f90de173f90bbda3f9099a33f9077733f9055483f9033243f9011063f8feeee3f8fccdd3f8faad13f8f88cc3f8f66cc3f8f44d33f8f22e03f8f00f33f8edf0b3f8ebd2a3f8e9b4f3f8e797a3f8e57ab3f8e35e23f8e141f3f8df2623f8dd0ab3f8daef93f8d8d4e3f8d6ba93f8d4a093f8d28703f8d06dc3f8ce54e3f8cc3c63f8ca2443f8c80c83f8c5f523f8c3de13f8c1c763f8bfb113f8bd9b23f8bb8593f8b97053f8b75b73f8b546f3f8b332d3f8b11f03f8af0b93f8acf883f8aae5c3f8a8d363f8a6c163f8a4afc3f8a29e73f8a08d83f89e7ce3f89c6ca3f89a5cc3f8984d33f8963e03f8942f23f89220a3f8901273f88e04b3f88bf733f889ea13f887dd53f885d0e3f883c4d3f881b913f87fada3f87da2a3f87b97e3f8798d83f8778373f87579c3f8737073f8716763f86f5eb3f86d5663f86b4e63f86946b3f8673f53f8653853f86331a3f8612b53f85f2553f85d1fa3f85b1a53f8591543f85710a3f8550c43f8530833f8510483f84f0123f84cfe23f84afb63f848f903f846f6f3f844f533f842f3d3f840f2b3f83ef1f3f83cf183f83af163f838f193f836f213f834f2f3f832f413f830f593f82ef753f82cf973f82afbe3f828fea3f82701b3f8250513f82308c3f8210cc3f81f1113f81d15c3f81b1ab3f8191ff3f8172583f8152b63f8133193f8113813f80f3ee3f80d4603f80b4d73f8095533f8075d33f8056593f8036e43f8017733f7ff00e3f7fb1413f7f727d3f7f33c23f7ef5123f7eb66b3f7e77ce3f7e393a3f7dfab03f7dbc303f7d7db93f7d3f4c3f7d00e83f7cc28e3f7c843d3f7c45f63f7c07b93f7bc9853f7b8b5a3f7b4d39,
  0x3fc906593fc8d7033fc8a7ba3fc8787f3fc849523fc81a323fc7eb213fc7bc1d3fc78d263fc75e3d3fc72f623fc700943fc6d1d43fc6a3213fc6747c3fc645e43fc617593fc5e8dc3fc5ba6c3fc58c093fc55db33fc52f6b3fc501303fc4d3013fc4a4e03fc476cc3fc448c53fc41acb3fc3ecdd3fc3befd3fc391293fc363633fc335a93fc307fc3fc2da5c3fc2acc83fc27f413fc251c73fc224593fc1f6f83fc1c9a33fc19c5b3fc16f1f3fc141f03fc114cd3fc0e7b73fc0baad3fc08daf3fc060bd3fc033d83fc006ff3fbfda333fbfad723fbf80bd3fbf54153fbf27793fbefae83fbece643fbea1ec3fbe75803fbe491f3fbe1ccb3fbdf0823fbdc4453fbd98143fbd6bef3fbd3fd63fbd13c83fbce7c63fbcbbcf3fbc8fe53fbc64053fbc38323fbc0c6a3fbbe0ad3fbbb4fc3fbb89573fbb5dbc3fbb322e3fbb06aa3fbadb323fbaafc63fba84643fba590e3fba2dc33fba02833fb9d74f3fb9ac263fb981073fb955f43fb92aec3fb8ffef3fb8d4fd3fb8aa163fb87f3a3fb854693fb829a33fb7fee83fb7d4383fb7a9923fb77ef73fb754673fb729e23fb6ff683fb6d4f83fb6aa933fb680393fb655e93fb62ba43fb601693fb5d7393fb5ad143fb582f93fb558e83fb52ee23fb504e73fb4daf63fb4b10f3fb487333fb45d613fb433993fb409db3fb3e0283fb3b67f3fb38ce13fb3634c3fb339c23fb310413fb2e6cb3fb2bd5f3fb293fe3fb26aa63fb241583fb218143fb1eeda3fb1c5aa3fb19c843fb173683fb14a563fb1214e3fb0f8503fb0cf5b3fb0a6703fb07d8f3fb054b83fb02beb3fb003273fafda6d3fafb1bc3faf89163faf60793faf37e53faf0f5b3faee6db3faebe643fae95f63fae6d933fae45383fae1ce73fadf4a03fadcc623fada42d3fad7c023fad53e03fad2bc73fad03b83facdbb23facb3b53fac8bc13fac63d73fac3bf63fac141e3fabec4f3fabc4893fab9ccd3fab751a3fab4d6f3fab25ce3faafe363faad6a63faaaf203faa87a33faa602f3faa38c33faa11613fa9ea073fa9c2b73fa99b6f3fa974303fa94cfa3fa925cd3fa8fea83fa8d78c3fa8b0793fa8896f3fa8626d3fa83b753fa814843fa7ed9d3fa7c6be3fa79fe73fa7791a3fa752553fa72b983fa704e43fa6de383fa6b7953fa690fb3fa66a693fa643df3fa61d5e3fa5f6e53fa5d0753fa5aa0d3fa583ad3fa55d563fa537073fa510c03fa4ea823fa4c44c3fa49e1e3fa477f83fa451db3fa42bc53fa405b83fa3dfb33fa3b9b73fa393c23fa36dd63fa347f13fa322153fa2fc413fa2d6743fa2b0b03fa28af43fa265403fa23f943fa219ef3fa1f4533fa1cebf3fa1a9323fa183ae3fa15e313fa138bc3fa1134f3fa0edea3fa0c88c3fa0a3373fa07de93fa058a33fa033653fa00e2e3f9fe8ff3f9fc3d83f9f9eb93f9f79a1,
  0x4000b9a6400097814000756d400053684000317240000f8d3fffdb6d3fff97df3fff54703fff11203ffecdee3ffe8adb3ffe47e53ffe050f3ffdc2563ffd7fbb3ffd3d3e3ffcfade3ffcb89c3ffc76783ffc34713ffbf2873ffbb0bb3ffb6f0b3ffb2d793ffaec033ffaaaaa3ffa696d3ffa284d3ff9e74a3ff9a6633ff965983ff924e93ff8e4553ff8a3de3ff863833ff823433ff7e31f3ff7a3163ff763293ff723573ff6e3a03ff6a4043ff664833ff6251d3ff5e5d23ff5a6a13ff5678b3ff528903ff4e9ae3ff4aae83ff46c3b3ff42da83ff3ef303ff3b0d13ff3728c3ff334613ff2f6503ff2b8583ff27a793ff23cb43ff1ff083ff1c1763ff183fc3ff1469b3ff109543ff0cc253ff08f0f3ff052123ff0152d3fefd8613fef9bad3fef5f113fef228e3feee6233feea9cf3fee6d943fee31713fedf5663fedb9723fed7d963fed41d23fed06253fecca8f3fec8f113fec53aa3fec185a3febdd223feba2003feb66f53feb2c023feaf1253feab65e3fea7baf3fea41163fea06933fe9cc273fe991d13fe957923fe91d683fe8e3553fe8a9583fe86f713fe8359f3fe7fbe43fe7c23e3fe788ae3fe74f333fe715cf3fe6dc7f3fe6a3453fe66a203fe631113fe5f8173fe5bf323fe586623fe54da63fe515003fe4dc6f3fe4a3f33fe46b8b3fe433383fe3faf93fe3c2cf3fe38ab93fe352b83fe31acb3fe2e2f33fe2ab2e3fe2737e3fe23be23fe2045a3fe1cce63fe195853fe15e393fe127003fe0efdb3fe0b8c93fe081cb3fe04ae13fe0140a3fdfdd473fdfa6963fdf6ff93fdf39703fdf02f93fdecc963fde96453fde60083fde29dd3fddf3c53fddbdc03fdd87ce3fdd51ef3fdd1c223fdce6673fdcb0c03fdc7b2a3fdc45a73fdc10373fdbdad83fdba58c3fdb70523fdb3b2b3fdb06153fdad1113fda9c1f3fda67403fda32723fd9fdb53fd9c90b3fd994723fd95feb3fd92b763fd8f7123fd8c2bf3fd88e7e3fd85a4e3fd826303fd7f2233fd7be273fd78a3c3fd756633fd7229a3fd6eee33fd6bb3d3fd687a73fd654223fd620af3fd5ed4b3fd5b9f93fd586b73fd553863fd520663fd4ed563fd4ba573fd487683fd454893fd421bb3fd3eefd3fd3bc4f3fd389b23fd357253fd324a83fd2f23a3fd2bfdd3fd28d903fd25b533fd229263fd1f7083fd1c4fb3fd192fd3fd1610f3fd12f303fd0fd613fd0cba23fd099f23fd068523fd036c13fd0053f3fcfd3cd3fcfa26a3fcf71173fcf3fd33fcf0e9d3fcedd783fceac613fce7b593fce4a603fce19763fcde89b3fcdb7d03fcd87123fcd56643fcd25c53fccf5343fccc4b23fcc943e3fcc63da3fcc33833fcc033c3fcbd3023fcba2d83fcb72bb3fcb42ad3fcb12ae3fcae2bc3fcab2d93fca83043fca533e3fca23853fc9f3db3fc9c43f3fc994b03fc965303fc935be,
  0x402f2240402ee083402e9f05402e5dc6402e1cc4402ddbff402d9b78402d5b2d402d1b1f402cdb4b402c9bb3402c5c56402c1d33402bde4a402b9f9a402b6124402b22e5402ae4df402aa711402a697a402a2c1a4029eef14029b1fe40297540402938b84028fc654028c0464028845c402848a640280d234027d1d3402796b640275bcc402721144026e68d4026ac3840267214402638214025fe5e4025c4cb40258b68402552344025192f4024e05a4024a7b240246f39402436ee4023fed04023c6e040238f1c402357864023201b4022e8dd4022b1cb40227ae44022442840220d974021d7314021a0f540216ae4402134fc4020ff3e4020c9aa4020943e40205efc402029e1401ff4f0401fc026401f8b84401f570a401f22b7401eee8b401eba86401e86a8401e52f0401e1f5e401debf2401db8ac401d858c401d5290401d1fba401ced08401cba7b401c8813401c55ce401c23ae401bf1b1401bbfd8401b8e22401b5c8f401b2b1f401af9d2401ac8a8401a979f401a66b9401a35f5401a05524019d4d14019a4724019743340194416401914194018e43d4018b481401884e54018556a4018260e4017f6d34017c7b6401798b9401769dc40173b1d40170c7d4016ddfc4016af99401681554016532f401625264015f73c4015c97040159bc140156e2f401540bb401513634014e6294014b90b40148c0a40145f264014325d401405b14013d9214013acad4013805540135418401327f74012fbf14012d0064012a4364012788140124ce7401221674011f6024011cab740119f87401174704011497440111e914010f3c84010c91940109e8340107406401049a340101f59400ff527400fcb0f400fa10f400f7727400f4d59400f23a2400efa04400ed07e400ea710400e7db9400e547b400e2b54400e0245400dd94d400db06c400d87a3400d5ef1400d3655400d0dd1400ce563400cbd0c400c94cc400c6ca2400c448e400c1c91400bf4aa400bccd8400ba51d400b7d78400b55e8400b2e6e400b070a400adfba400ab881400a915c400a6a4d400a4353400a1c6d4009f59d4009cee14009a83a400981a840095b2a400934c040090e6b4008e82a4008c1fd40089be4400875df40084fee40082a11400804484007de924007b8ef4007936040076de54007487c400723274006fde54006d8b64006b39a40068e914006699a400644b640061fe54005fb274005d67a4005b1e140058d59400568e440054481400520304004fbf14004d7c44004b3a840048f9f40046ba7400447c1400423ec400400294003dc774003b8d740039548400371ca40034e5d40032b02400307b74002e47d4002c15440029e3c40027b344002583d40023557400212814001efbc4001cd074001aa63400187ce4001654a400142d6400120724000fe1e4000dbda,
  0x4105151240f3fae140e7004f40ddca9e40d6a59f40d0cf0b40cbdf3d40c7985940c3d27840c0725a40bd649240ba9ac540b80a0f40b5a9f640b373c540b1621140af706d40ad9b2f40abdf4240aa3a1040a8a95e40a72b4540a5be1e40a4607740a3110c40a1cebf40a09892409f6da4409e4d2b409d3671409c28d2409b23ba409a26a4409931144098429b40975ad24096795c40959de34094c8164093f7ad40932c63409265f84091a4334090e6dc40902dc1408f78b2408ec781408e1a07408d701a408cc997408c265c408b8646408ae939408a4f164089b7c24089232340889122408801a5408774994086e9e64086617b4085db434085572c4084d526408455204083d70b40835ad64082e075408267da4081f0f740817bc04081082940809626408025ad407f6d66407e925c407dba27407ce4b6407c11f6407b41d7407a74464079a9354078e09440781a5340775665407694bb4075d5484075180040745cd44073a3bb4072eca74072378d407184634070d31e407023b3406f7619406eca46406e2031406d77d0406cd11c406c2c0a406b8894406ae6b1406a46594069a78440690a2c40686e494067d3d540673ac84066a31c40660cca406577cd4064e41e406451b74063c093406330ad4062a1fd40621480406188304060fd0940607304405fea1e405f6251405edb9a405e55f3405dd159405d4dc7405ccb38405c49aa405bc917405b497d405acad7405a4d214059d0594059547a4058d98140585f6b4057e63440576dd94056f65740567fab405609d2405594c94055208d4054ad1b40543a704053c88a405357664052e7024052775a4052086d40519a3740512cb74050bfea405053cd404fe85f404f7d9e404f1386404eaa16404e414d404dd926404d71a2404d0abd404ca476404c3ecb404bd9ba404b7541404b115e404aae10404a4b544049e92a4049878e404926814048c5ff404866084048069a4047a7b3404749524046eb7540468e1b404631424045d4e94045790f40451db24044c2d04044686940440e7b4043b50540435c064043037c4042ab65404253c24041fc914041a5d040414f7e4040f99a4040a42440404f19403ffa7a403fa644403f5277403eff11403eac12403e5979403e0745403db574403d6406403d12fa403cc24f403c7203403c2217403bd288403b8357403b3482403ae609403a97ea403a4a254039fcb94039afa6403962e9403916834038ca7340387eb8403833514037e83d40379d7c4037530e403708f04036bf23403675a640362c784035e39940359b07403552c340350acb4034c31f40347bbe403434a84033eddb4033a7584033611e40331b2b4032d5814032901d40324aff403206274031c19540317d474031393d4030f5774030b1f340306eb240302bb3402fe8f6402fa679402f643d]

/-- R420, GUMB lower side level 1: entry j for j = 0 to 4,096. -/
def gumbL1 : List Nat :=
  [0xc01a02edc01a08bbc01a0e8dc01a1465c01a1a42c01a2025c01a260ec01a2bfbc01a31efc01a37e8c01a3de7c01a43ebc01a49f5c01a5005c01a561bc01a5c37c01a6258c01a6880c01a6eaec01a74e2c01a7b1bc01a815cc01a87a2c01a8defc01a9442c01a9a9bc01aa0fbc01aa761c01aadcec01ab441c01ababcc01ac13dc01ac7c4c01ace53c01ad4e8c01adb85c01ae228c01ae8d2c01aef84c01af63dc01afcfdc01b03c5c01b0a93c01b116ac01b1848c01b1f2dc01b261ac01b2d0fc01b340cc01b3b11c01b421dc01b4932c01b504fc01b5774c01b5ea1c01b65d6c01b6d14c01b745bc01b7baac01b8302c01b8a63c01b91ccc01b993ec01ba0bac01ba83ec01bafccc01bb763c01bbf04c01bc6adc01bce61c01bd61ec01bdde5c01be5b6c01bed91c01bf576c01bfd65c01c055fc01c0d63c01c1572c01c1d8bc01c25afc01c2ddec01c3618c01c3e5dc01c46adc01c4f09c01c5770c01c5fe3c01c6862c01c70ecc01c7983c01c8226c01c8ad5c01c9391c01c9c59c01ca52ec01cae11c01cb700c01cbffcc01cc906c01cd21ec01cdb43c01ce476c01cedb7c01cf707c01d0065c01d09d2c01d134dc01d1cd8c01d2672c01d301bc01d39d4c01d439dc01d4d76c01d575fc01d6158c01d6b63c01d757ec01d7fabc01d89e9c01d9438c01d9e9ac01da90ec01db394c01dbe2dc01dc8d9c01dd399c01dde6bc01de952c01df44dc01dff5dc01e0a81c01e15bbc01e2109c01e2c6ec01e37e9c01e437ac01e4f23c01e5ae2c01e66b9c01e72a9c01e7eb0c01e8ad1c01e970ac01ea35ec01eafcbc01ebc53c01ec8f7c01ed5b6c01ee290c01eef88c01efc9cc01f09cfc01f171fc01f248ec01f321dc01f3fcbc01f4d9ac01f5b8bc01f699dc01f77d2c01f862ac01f94a6c01fa347c01fb20dc01fc0fac01fd00ec01fdf4ac01feeafc01ffe3dc0200df7c0201ddcc0202dedc0203e2dc0204e9bc0205f3ac0207009c020810bc0209240c020a3aac020b54bc020c723c020d934c020eb80c020fe08c02110cdc02123d3c0213719c0214aa3c0215e72c0217288c02186e7c0219b92c021b08bc021c5d4c021db6fc021f161c02207aac0221e4fc0223552c0224cb7c0226481c0227cb4c0229553c022ae63c022c7e8c022e1e7c022fc64c0231764c02332edc0234f05c0236bb2c02388fbc023a6e6c023c57bc023e4c2c02404c4c024258bc024471fc024698dc0248ce0c024b125c024d66ac024fcbec0252431c0254cd6c02576c0c025a206c025cec1c025fd0ac0262d02c0265ec8c0269284c026c860c027008dc0273b43c02778c2c027b955c027fd53c0284521c028913ac028e231c02938b6c02995a6c029fa16c02a6766c02adf65c02b6482c02bfa1fc02ca528c02d6d2cc02e5eb1c02f90e7c03136fdc033f04900000000,
  0xc015ded4c015e1eac015e501c015e81ac015eb34c015ee50c015f16dc015f48bc015f7abc015facdc015fdefc0160114c0160439c0160761c0160a89c0160db3c01610dfc016140cc016173bc0161a6bc0161d9cc01620cfc0162404c016273ac0162a71c0162dabc01630e5c0163422c016375fc0163a9fc0163de0c0164122c0164466c01647acc0164af3c0164e3cc0165186c01654d2c0165820c0165b6fc0165ec0c0166212c0166566c01668bcc0166c14c0166f6dc01672c7c0167624c0167982c0167ce2c0168043c01683a6c016870bc0168a72c0168ddac0169144c01694b0c016981dc0169b8dc0169efec016a271c016a5e5c016a95cc016acd4c016b04ec016b3c9c016b747c016bac6c016be48c016c1cbc016c54fc016c8d6c016cc5fc016cfe9c016d376c016d704c016da94c016de26c016e1bac016e550c016e8e7c016ec81c016f01dc016f3bac016f75ac016fafbc016fe9fc0170244c01705ecc0170995c0170d41c01710eec017149ec0171850c0171c03c0171fb9c0172371c017272bc0172ae6c0172ea5c0173265c0173627c01739ebc0173db2c017417bc0174545c0174912c0174ce2c01750b3c0175487c017585cc0175c34c017600fc01763ebc01767cac0176babc0176f8ec0177374c017775cc0177b46c0177f32c0178321c0178712c0178b06c0178efcc01792f4c01796efc0179aecc0179eebc017a2edc017a6f1c017aaf8c017af01c017b30dc017b71bc017bb2cc017bf3fc017c355c017c76dc017cb88c017cfa5c017d3c5c017d7e8c017dc0dc017e035c017e45fc017e88cc017ecbcc017f0eec017f523c017f95bc017fd96c01801d3c0180613c0180a56c0180e9bc01812e3c018172ec0181b7cc0181fcdc0182421c0182877c0182cd1c018312dc018358cc01839eec0183e53c01842bbc0184726c0184b94c0185005c0185479c01858f0c0185d6ac01861e8c0186668c0186aebc0186f72c01873fcc0187888c0187d19c01881acc0188642c0188adcc0188f79c0189419c01898bdc0189d64c018a20ec018a6bcc018ab6dc018b021c018b4d9c018b994c018be53c018c315c018c7dbc018cca4c018d171c018d642c018db16c018dfedc018e4c8c018e9a7c018ee8ac018f370c018f85ac018fd48c0190239c019072fc0190c28c0191125c0191626c0191b2bc0192033c0192540c0192a50c0192f65c019347ec019399ac0193ebbc01943e0c0194909c0194e36c0195368c019589dc0195dd7c0196315c0196858c0196d9ec01972e9c0197839c0197d8dc01982e5c0198842c0198da3c0199309c0199874c0199de3c019a357c019a8cfc019ae4cc019b3cec019b955c019bee0c019c470c019ca05c019cfa0c019d53fc019dae3c019e08cc019e63ac019ebedc019f1a5c019f763c019fd25,
  0xc0135228c013544bc0135670c0135895c0135abac0135ce0c0135f07c013612ec0136356c013657fc01367a9c01369d3c0136bfdc0136e29c0137055c0137281c01374afc01376ddc013790cc0137b3bc0137d6bc0137f9cc01381cdc01383ffc0138632c0138865c0138a9ac0138ccec0138f04c013913ac0139371c01395a9c01397e1c0139a1ac0139c54c0139e8ec013a0c9c013a305c013a541c013a77ec013a9bcc013abfbc013ae3ac013b07ac013b2bbc013b4fdc013b73fc013b982c013bbc5c013be0ac013c04fc013c295c013c4dbc013c723c013c96bc013cbb3c013cdfdc013d047c013d292c013d4dec013d72ac013d978c013dbc6c013de14c013e064c013e2b4c013e505c013e757c013e9a9c013ebfdc013ee51c013f0a6c013f2fbc013f552c013f7a9c013fa01c013fc5ac013feb3c014010dc0140369c01405c4c0140821c0140a7fc0140cddc0140f3cc014119cc01413fdc014165ec01418c0c0141b23c0141d87c0141fecc0142252c01424b8c014271fc0142987c0142bf0c0142e5ac01430c4c0143330c014359cc0143809c0143a77c0143ce5c0143f55c01441c5c0144436c01446a9c014491cc0144b8fc0144e04c014507ac01452f0c0145567c01457dfc0145a58c0145cd2c0145f4dc01461c9c0146445c01466c3c0146941c0146bc0c0146e40c01470c1c0147343c01475c6c014784ac0147acec0147d54c0147fdac0148261c01484eac0148773c01489fdc0148c88c0148f14c01491a1c014942fc01496bdc014994dc0149bdec0149e6fc014a102c014a395c014a62ac014a8bfc014ab56c014adedc014b085c014b31fc014b5b9c014b854c014baf0c014bd8ec014c02cc014c2cbc014c56bc014c80cc014caaec014cd51c014cff6c014d29bc014d541c014d7e8c014da90c014dd3ac014dfe4c014e28fc014e53bc014e7e9c014ea97c014ed47c014eff7c014f2a8c014f55bc014f80fc014fac3c014fd79c0150030c01502e8c01505a1c015085bc0150b16c0150dd2c015108fc015134dc015160dc01518cdc0151b8fc0151e52c0152116c01523dac01526a1c0152968c0152c30c0152ef9c01531c4c0153490c015375cc0153a2ac0153cf9c0153fcac015429bc015456ec0154841c0154b16c0154decc01550c4c015539cc0155676c0155950c0155c2cc0155f09c01561e8c01564c7c01567a8c0156a8ac0156d6dc0157051c0157337c015761ec0157906c0157befc0157edac01581c6c01584b3c01587a1c0158a90c0158d81c0159073c0159366c015965bc0159951c0159c48c0159f41c015a23ac015a535c015a832c015ab2fc015ae2ec015b12fc015b430c015b733c015ba37c015bd3dc015c044c015c34cc015c656c015c961c015cc6dc015cf7bc015d28ac015d59ac015d8acc015dbbf,
  0xc0117304c01174abc0117652c01177f9c01179a1c0117b49c0117cf2c0117e9bc0118044c01181eec0118398c0118542c01186edc0118898c0118a43c0118befc0118d9cc0118f48c01190f5c01192a3c0119451c01195ffc01197adc011995cc0119b0cc0119cbcc0119e6cc011a01cc011a1cdc011a37ec011a530c011a6e2c011a895c011aa48c011abfbc011adaec011af63c011b117c011b2ccc011b481c011b637c011b7edc011b9a3c011bb5ac011bd11c011bec9c011c081c011c23ac011c3f2c011c5acc011c765c011c91fc011cadac011cc95c011ce50c011d00cc011d1c8c011d385c011d542c011d6ffc011d8bdc011da7bc011dc3ac011ddf9c011dfb8c011e178c011e338c011e4f9c011e6bac011e87cc011ea3ec011ec00c011edc3c011ef86c011f14ac011f30ec011f4d3c011f698c011f85dc011fa23c011fbe9c011fdb0c011ff77c012013fc0120307c01204cfc0120698c0120861c0120a2bc0120bf5c0120dc0c0120f8bc0121156c0121322c01214efc01216bcc0121889c0121a57c0121c25c0121df4c0121fc3c0122192c0122362c0122533c0122704c01228d5c0122aa7c0122c79c0122e4cc012301fc01231f3c01233c7c012359bc0123770c0123946c0123b1cc0123cf2c0123ec9c01240a0c0124278c0124450c0124629c0124802c01249dcc0124bb6c0124d91c0124f6cc0125148c0125324c0125500c01256ddc01258bbc0125a99c0125c77c0125e56c0126036c0126216c01263f6c01265d7c01267b9c012699ac0126b7dc0126d60c0126f43c0127127c012730bc01274f0c01276d5c01278bbc0127aa2c0127c88c0127e70c0128058c0128240c0128429c0128612c01287fcc01289e6c0128bd1c0128dbdc0128fa9c0129195c0129382c012956fc012975dc012994cc0129b3bc0129d2ac0129f1ac012a10bc012a2fcc012a4eec012a6e0c012a8d2c012aac6c012acb9c012aeaec012b0a2c012b298c012b48dc012b684c012b87bc012ba72c012bc6ac012be63c012c05cc012c255c012c450c012c64ac012c846c012ca41c012cc3ec012ce3bc012d038c012d236c012d435c012d634c012d833c012da33c012dc34c012de36c012e037c012e23ac012e43dc012e641c012e845c012ea49c012ec4fc012ee55c012f05bc012f262c012f46ac012f672c012f87ac012fa84c012fc8ec012fe98c01300a3c01302afc01304bbc01306c8c01308d5c0130ae3c0130cf2c0130f01c0131111c0131321c0131532c0131744c0131956c0131b69c0131d7cc0131f90c01321a4c01323bac01325cfc01327e6c01329fdc0132c14c0132e2dc0133045c013325fc0133479c0133694c01338afc0133acbc0133ce8c0133f05c0134123c0134341c0134560c0134780c01349a0c0134bc1c0134de3c0135005,
  0xc00ff592c00ff6ecc00ff846c00ff9a1c00ffafcc00ffc57c00ffdb2c00fff0dc0100069c01001c5c0100321c010047dc01005dac0100737c0100894c01009f2c0100b4fc0100cadc0100e0bc0100f6ac01010c8c0101227c0101386c01014e6c0101645c01017a5c0101905c0101a66c0101bc7c0101d27c0101e89c0101feac010214cc01022aec0102410c0102572c01026d5c0102838c010299bc0102afec0102c62c0102dc6c0102f2ac010308fc01031f4c0103359c01034bec0103623c0103789c01038efc0103a55c0103bbcc0103d23c0103e8ac0103ff1c0104159c01042c1c0104429c0104591c01046fac0104863c01049ccc0104b35c0104c9fc0104e09c0104f73c01050dec0105249c01053b4c010551fc010568bc01057f7c0105963c0105acfc0105c3cc0105da9c0105f16c0106083c01061f1c010635fc01064cec010663cc01067abc010691ac0106a89c0106bf9c0106d69c0106ed9c010704ac01071bbc010732cc010749dc010760fc0107781c01078f3c0107a65c0107bd8c0107d4bc0107ebec0108032c01081a6c010831ac010848ec0108603c0108778c01088edc0108a63c0108bd9c0108d4fc0108ec5c010903cc01091b3c010932ac01094a2c010961ac0109792c010990ac0109a83c0109bfcc0109d75c0109eefc010a069c010a1e3c010a35dc010a4d8c010a653c010a7cfc010a94ac010aac6c010ac42c010adbfc010af3cc010b0b9c010b236c010b3b4c010b532c010b6b1c010b82fc010b9aec010bb2dc010bcadc010be2dc010bfadc010c12dc010c2aec010c42fc010c5b0c010c732c010c8b4c010ca36c010cbb9c010cd3cc010cebfc010d042c010d1c6c010d34ac010d4cfc010d653c010d7d9c010d95ec010dae4c010dc69c010ddf0c010df76c010e0fdc010e285c010e40cc010e594c010e71cc010e8a5c010ea2dc010ebb7c010ed40c010eecac010f054c010f1dec010f369c010f4f4c010f67fc010f80bc010f997c010fb23c010fcb0c010fe3dc010ffcac0110158c01102e6c0110474c0110603c0110792c0110921c0110ab1c0110c41c0110dd1c0110f61c01110f2c0111284c0111415c01115a7c0111739c01118ccc0111a5fc0111bf2c0111d86c0111f1ac01120aec0112242c01123d7c011256dc0112702c0112898c0112a2ec0112bc5c0112d5cc0112ef3c011308bc0113223c01133bbc0113554c01136edc0113887c0113a20c0113bbac0113d55c0113ef0c011408bc0114226c01143c2c011455ec01146fbc0114898c0114a35c0114bd2c0114d70c0114f0fc01150adc011524cc01153ecc011558bc011572cc01158ccc0115a6dc0115c0ec0115dafc0115f51c01160f4c0116296c0116439c01165dcc0116780c0116924c0116ac9c0116c6dc0116e13c0116fb8c011715e,
  0xc00eb73bc00eb860c00eb987c00ebaadc00ebbd3c00ebcfac00ebe21c00ebf48c00ec06fc00ec196c00ec2bdc00ec3e5c00ec50dc00ec635c00ec75dc00ec885c00ec9aec00ecad7c00ecbffc00ecd29c00ece52c00ecf7bc00ed0a5c00ed1cec00ed2f8c00ed422c00ed54dc00ed677c00ed7a2c00ed8ccc00ed9f7c00edb23c00edc4ec00edd79c00edea5c00edfd1c00ee0fdc00ee229c00ee356c00ee482c00ee5afc00ee6dcc00ee809c00ee936c00eea64c00eeb91c00eecbfc00eededc00eef1bc00ef04ac00ef178c00ef2a7c00ef3d6c00ef505c00ef634c00ef764c00ef894c00ef9c3c00efaf3c00efc24c00efd54c00efe85c00effb5c00f00e6c00f0217c00f0349c00f047ac00f05acc00f06dec00f0810c00f0942c00f0a75c00f0ba7c00f0cdac00f0e0dc00f0f40c00f1074c00f11a7c00f12dbc00f140fc00f1543c00f1677c00f17acc00f18e0c00f1a15c00f1b4ac00f1c80c00f1db5c00f1eebc00f2021c00f2157c00f228dc00f23c3c00f24fac00f2631c00f2768c00f289fc00f29d6c00f2b0ec00f2c45c00f2d7dc00f2eb6c00f2feec00f3126c00f325fc00f3398c00f34d1c00f360bc00f3744c00f387ec00f39b8c00f3af2c00f3c2cc00f3d67c00f3ea1c00f3fdcc00f4117c00f4253c00f438ec00f44cac00f4606c00f4742c00f487ec00f49bac00f4af7c00f4c34c00f4d71c00f4eaec00f4fecc00f512ac00f5267c00f53a6c00f54e4c00f5622c00f5761c00f58a0c00f59dfc00f5b1ec00f5c5ec00f5d9ec00f5edec00f601ec00f615ec00f629fc00f63dfc00f6520c00f6662c00f67a3c00f68e4c00f6a26c00f6b68c00f6caac00f6dedc00f6f2fc00f7072c00f71b5c00f72f9c00f743cc00f7580c00f76c4c00f7808c00f794cc00f7a90c00f7bd5c00f7d1ac00f7e5fc00f7fa5c00f80eac00f8230c00f8376c00f84bcc00f8603c00f8749c00f8890c00f89d7c00f8b1ec00f8c66c00f8daec00f8ef5c00f903ec00f9186c00f92cfc00f9417c00f9560c00f96aac00f97f3c00f993dc00f9a87c00f9bd1c00f9d1bc00f9e65c00f9fb0c00fa0fbc00fa246c00fa392c00fa4ddc00fa629c00fa775c00fa8c2c00faa0ec00fab5bc00faca8c00fadf5c00faf43c00fb090c00fb1dec00fb32cc00fb47ac00fb5c9c00fb718c00fb867c00fb9b6c00fbb05c00fbc55c00fbda5c00fbef5c00fc045c00fc196c00fc2e7c00fc438c00fc589c00fc6dbc00fc82cc00fc97ec00fcad1c00fcc23c00fcd76c00fcec8c00fd01cc00fd16fc00fd2c3c00fd416c00fd56ac00fd6bfc00fd813c00fd968c00fdabdc00fdc12c00fdd68c00fdebdc00fe013c00fe169c00fe2c0c00fe416c00fe56dc00fe6c4c00fe81cc00fe973c00feacbc00fec23c00fed7bc00feed4c00ff02dc00ff186c00ff2dfc00ff438,
  0xc00da531c00da632c00da732c00da832c00da933c00daa34c00dab34c00dac35c00dad36c00dae37c00daf39c00db03ac00db13cc00db23dc00db33fc00db441c00db543c00db645c00db748c00db84ac00db94dc00dba50c00dbb52c00dbc55c00dbd58c00dbe5cc00dbf5fc00dc063c00dc166c00dc26ac00dc36ec00dc472c00dc576c00dc67ac00dc77fc00dc883c00dc988c00dca8dc00dcb92c00dcc97c00dcd9cc00dcea2c00dcfa7c00dd0adc00dd1b2c00dd2b8c00dd3bec00dd4c4c00dd5cbc00dd6d1c00dd7d8c00dd8dec00dd9e5c00ddaecc00ddbf3c00ddcfbc00dde02c00ddf09c00de011c00de119c00de221c00de329c00de431c00de539c00de642c00de74ac00de853c00de95cc00dea65c00deb6ec00dec77c00ded81c00dee8ac00def94c00df09ec00df1a8c00df2b2c00df3bcc00df4c6c00df5d1c00df6dcc00df7e6c00df8f1c00df9fcc00dfb08c00dfc13c00dfd1ec00dfe2ac00dff36c00e0042c00e014ec00e025ac00e0366c00e0473c00e057fc00e068cc00e0799c00e08a6c00e09b3c00e0ac1c00e0bcec00e0cdcc00e0de9c00e0ef7c00e1005c00e1113c00e1222c00e1330c00e143fc00e154ec00e165dc00e176cc00e187bc00e198ac00e1a9ac00e1ba9c00e1cb9c00e1dc9c00e1ed9c00e1fe9c00e20f9c00e220ac00e231ac00e242bc00e253cc00e264dc00e275ec00e2870c00e2981c00e2a93c00e2ba5c00e2cb7c00e2dc9c00e2edbc00e2fedc00e3100c00e3213c00e3325c00e3438c00e354cc00e365fc00e3772c00e3886c00e3999c00e3aadc00e3bc1c00e3cd6c00e3deac00e3efec00e4013c00e4128c00e423dc00e4352c00e4467c00e457cc00e4692c00e47a7c00e48bdc00e49d3c00e4ae9c00e4c00c00e4d16c00e4e2dc00e4f43c00e505ac00e5171c00e5289c00e53a0c00e54b7c00e55cfc00e56e7c00e57ffc00e5917c00e5a2fc00e5b48c00e5c60c00e5d79c00e5e92c00e5fabc00e60c4c00e61ddc00e62f7c00e6411c00e652ac00e6644c00e675fc00e6879c00e6993c00e6aaec00e6bc9c00e6ce4c00e6dffc00e6f1ac00e7035c00e7151c00e726dc00e7389c00e74a5c00e75c1c00e76ddc00e77fac00e7916c00e7a33c00e7b50c00e7c6dc00e7d8bc00e7ea8c00e7fc6c00e80e3c00e8201c00e8320c00e843ec00e855cc00e867bc00e879ac00e88b9c00e89d8c00e8af7c00e8c16c00e8d36c00e8e56c00e8f75c00e9096c00e91b6c00e92d6c00e93f7c00e9517c00e9638c00e9759c00e987bc00e999cc00e9abec00e9bdfc00e9d01c00e9e23c00e9f45c00ea068c00ea18ac00ea2adc00ea3d0c00ea4f3c00ea616c00ea73ac00ea85dc00ea981c00eaaa5c00eabc9c00eacedc00eae11c00eaf36c00eb05bc00eb180c00eb2a5c00eb3cac00eb4efc00eb615,
  0xc00cb412c00cb4f5c00cb5d9c00cb6bdc00cb7a0c00cb884c00cb968c00cba4cc00cbb30c00cbc14c00cbcf9c00cbdddc00cbec2c00cbfa6c00cc08bc00cc170c00cc255c00cc33ac00cc41fc00cc504c00cc5eac00cc6cfc00cc7b4c00cc89ac00cc980c00cca66c00ccb4cc00ccc32c00ccd18c00ccdfec00ccee4c00ccfcbc00cd0b1c00cd198c00cd27fc00cd365c00cd44cc00cd533c00cd61bc00cd702c00cd7e9c00cd8d1c00cd9b8c00cdaa0c00cdb88c00cdc70c00cdd57c00cde40c00cdf28c00ce010c00ce0f8c00ce1e1c00ce2c9c00ce3b2c00ce49bc00ce584c00ce66dc00ce756c00ce83fc00ce928c00cea12c00ceafbc00cebe5c00ceccfc00cedb9c00ceea3c00cef8dc00cf077c00cf161c00cf24bc00cf336c00cf420c00cf50bc00cf5f6c00cf6e1c00cf7ccc00cf8b7c00cf9a2c00cfa8dc00cfb79c00cfc64c00cfd50c00cfe3cc00cff28c00d0014c00d0100c00d01ecc00d02d8c00d03c5c00d04b1c00d059ec00d068ac00d0777c00d0864c00d0951c00d0a3ec00d0b2bc00d0c19c00d0d06c00d0df4c00d0ee2c00d0fcfc00d10bdc00d11abc00d1299c00d1388c00d1476c00d1564c00d1653c00d1742c00d1830c00d191fc00d1a0ec00d1afdc00d1bedc00d1cdcc00d1dcbc00d1ebbc00d1fabc00d209ac00d218ac00d227ac00d236ac00d245ac00d254bc00d263bc00d272cc00d281cc00d290dc00d29fec00d2aefc00d2be0c00d2cd1c00d2dc3c00d2eb4c00d2fa6c00d3097c00d3189c00d327bc00d336dc00d345fc00d3551c00d3644c00d3736c00d3829c00d391bc00d3a0ec00d3b01c00d3bf4c00d3ce7c00d3ddac00d3ecec00d3fc1c00d40b5c00d41a9c00d429cc00d4390c00d4484c00d4578c00d466dc00d4761c00d4856c00d494ac00d4a3fc00d4b34c00d4c29c00d4d1ec00d4e13c00d4f08c00d4ffec00d50f3c00d51e9c00d52dfc00d53d5c00d54cbc00d55c1c00d56b7c00d57aec00d58a4c00d599bc00d5a91c00d5b88c00d5c7fc00d5d76c00d5e6dc00d5f65c00d605cc00d6154c00d624bc00d6343c00d643bc00d6533c00d662bc00d6724c00d681cc00d6914c00d6a0dc00d6b06c00d6bffc00d6cf8c00d6df1c00d6eeac00d6fe3c00d70ddc00d71d6c00d72d0c00d73cac00d74c4c00d75bec00d76b8c00d77b2c00d78adc00d79a7c00d7aa2c00d7b9dc00d7c98c00d7d93c00d7e8ec00d7f89c00d8084c00d8180c00d827cc00d8377c00d8473c00d856fc00d866bc00d8768c00d8864c00d8961c00d8a5dc00d8b5ac00d8c57c00d8d54c00d8e51c00d8f4ec00d904cc00d9149c00d9247c00d9345c00d9442c00d9540c00d963fc00d973dc00d983bc00d993ac00d9a38c00d9b37c00d9c36c00d9d35c00d9e34c00d9f33c00da033c00da132c00da232c00da332c00da431] ++
  [0xc00bdc6ac00bdd36c00bde03c00bded0c00bdf9dc00be06bc00be138c00be205c00be2d2c00be3a0c00be46dc00be53bc00be609c00be6d6c00be7a4c00be872c00be940c00bea0ec00beaddc00bebabc00bec79c00bed48c00bee16c00beee5c00befb3c00bf082c00bf151c00bf220c00bf2efc00bf3bec00bf48dc00bf55cc00bf62bc00bf6fbc00bf7cac00bf89ac00bf969c00bfa39c00bfb09c00bfbd9c00bfca9c00bfd79c00bfe49c00bff19c00bffe9c00c00bac00c018ac00c025bc00c032bc00c03fcc00c04cdc00c059ec00c066fc00c0740c00c0811c00c08e2c00c09b3c00c0a84c00c0b56c00c0c27c00c0cf9c00c0dcbc00c0e9cc00c0f6ec00c1040c00c1112c00c11e4c00c12b6c00c1389c00c145bc00c152dc00c1600c00c16d3c00c17a5c00c1878c00c194bc00c1a1ec00c1af1c00c1bc4c00c1c97c00c1d6ac00c1e3ec00c1f11c00c1fe5c00c20b8c00c218cc00c2260c00c2334c00c2408c00c24dcc00c25b0c00c2684c00c2758c00c282dc00c2901c00c29d6c00c2aaac00c2b7fc00c2c54c00c2d29c00c2dfec00c2ed3c00c2fa8c00c307dc00c3152c00c3228c00c32fdc00c33d3c00c34a8c00c357ec00c3654c00c372ac00c3800c00c38d6c00c39acc00c3a82c00c3b59c00c3c2fc00c3d06c00c3ddcc00c3eb3c00c3f8ac00c4061c00c4138c00c420fc00c42e6c00c43bdc00c4494c00c456cc00c4643c00c471bc00c47f3c00c48cac00c49a2c00c4a7ac00c4b52c00c4c2ac00c4d02c00c4ddbc00c4eb3c00c4f8cc00c5064c00c513dc00c5216c00c52eec00c53c7c00c54a0c00c5579c00c5653c00c572cc00c5805c00c58dfc00c59b8c00c5a92c00c5b6bc00c5c45c00c5d1fc00c5df9c00c5ed3c00c5fadc00c6088c00c6162c00c623cc00c6317c00c63f2c00c64ccc00c65a7c00c6682c00c675dc00c6838c00c6913c00c69efc00c6acac00c6ba5c00c6c81c00c6d5cc00c6e38c00c6f14c00c6ff0c00c70ccc00c71a8c00c7284c00c7360c00c743dc00c7519c00c75f6c00c76d2c00c77afc00c788cc00c7969c00c7a46c00c7b23c00c7c00c00c7cddc00c7dbbc00c7e98c00c7f76c00c8054c00c8131c00c820fc00c82edc00c83cbc00c84a9c00c8587c00c8666c00c8744c00c8823c00c8901c00c89e0c00c8abfc00c8b9ec00c8c7dc00c8d5cc00c8e3bc00c8f1ac00c8ffac00c90d9c00c91b9c00c9298c00c9378c00c9458c00c9538c00c9618c00c96f8c00c97d8c00c98b8c00c9999c00c9a79c00c9b5ac00c9c3bc00c9d1bc00c9dfcc00c9eddc00c9fbec00ca09fc00ca181c00ca262c00ca344c00ca425c00ca507c00ca5e9c00ca6cac00ca7acc00ca88ec00ca971c00caa53c00cab35c00cac18c00cacfac00cadddc00caec0c00cafa2c00cb085c00cb168c00cb24cc00cb32f,
  0xc00b1913c00b19cec00b1a88c00b1b43c00b1bfec00b1cb8c00b1d73c00b1e2ec00b1ee9c00b1fa4c00b205fc00b211bc00b21d6c00b2291c00b234cc00b2408c00b24c3c00b257fc00b263bc00b26f6c00b27b2c00b286ec00b292ac00b29e6c00b2aa2c00b2b5ec00b2c1ac00b2cd6c00b2d93c00b2e4fc00b2f0bc00b2fc8c00b3085c00b3141c00b31fec00b32bbc00b3377c00b3434c00b34f1c00b35aec00b366bc00b3729c00b37e6c00b38a3c00b3960c00b3a1ec00b3adbc00b3b99c00b3c57c00b3d14c00b3dd2c00b3e90c00b3f4ec00b400cc00b40cac00b4188c00b4246c00b4304c00b43c3c00b4481c00b453fc00b45fec00b46bcc00b477bc00b483ac00b48f9c00b49b7c00b4a76c00b4b35c00b4bf4c00b4cb3c00b4d73c00b4e32c00b4ef1c00b4fb1c00b5070c00b5130c00b51efc00b52afc00b536fc00b542ec00b54eec00b55aec00b566ec00b572ec00b57eec00b58afc00b596fc00b5a2fc00b5af0c00b5bb0c00b5c71c00b5d31c00b5df2c00b5eb3c00b5f74c00b6034c00b60f5c00b61b6c00b6278c00b6339c00b63fac00b64bbc00b657dc00b663ec00b6700c00b67c1c00b6883c00b6945c00b6a07c00b6ac8c00b6b8ac00b6c4cc00b6d0ec00b6dd1c00b6e93c00b6f55c00b7018c00b70dac00b719cc00b725fc00b7322c00b73e4c00b74a7c00b756ac00b762dc00b76f0c00b77b3c00b7876c00b7939c00b79fdc00b7ac0c00b7b84c00b7c47c00b7d0bc00b7dcec00b7e92c00b7f56c00b801ac00b80dec00b81a2c00b8266c00b832ac00b83eec00b84b2c00b8577c00b863bc00b8700c00b87c4c00b8889c00b894ec00b8a12c00b8ad7c00b8b9cc00b8c61c00b8d26c00b8decc00b8eb1c00b8f76c00b903cc00b9101c00b91c7c00b928cc00b9352c00b9418c00b94ddc00b95a3c00b9669c00b972fc00b97f5c00b98bcc00b9982c00b9a48c00b9b0fc00b9bd5c00b9c9cc00b9d62c00b9e29c00b9ef0c00b9fb7c00ba07ec00ba145c00ba20cc00ba2d3c00ba39ac00ba461c00ba529c00ba5f0c00ba6b8c00ba77fc00ba847c00ba90fc00ba9d6c00baa9ec00bab66c00bac2ec00bacf7c00badbfc00bae87c00baf4fc00bb018c00bb0e0c00bb1a9c00bb271c00bb33ac00bb403c00bb4ccc00bb595c00bb65ec00bb727c00bb7f0c00bb8b9c00bb983c00bba4cc00bbb16c00bbbdfc00bbca9c00bbd73c00bbe3cc00bbf06c00bbfd0c00bc09ac00bc164c00bc22ec00bc2f9c00bc3c3c00bc48dc00bc558c00bc622c00bc6edc00bc7b8c00bc883c00bc94dc00bca18c00bcae3c00bcbafc00bcc7ac00bcd45c00bce10c00bcedcc00bcfa7c00bd073c00bd13ec00bd20ac00bd2d6c00bd3a2c00bd46ec00bd53ac00bd606c00bd6d2c00bd79ec00bd86bc00bd937c00bda04c00bdad0c00bdb9d,
  0xc00a6659c00a6704c00a67b0c00a685bc00a6907c00a69b3c00a6a5ec00a6b0ac00a6bb6c00a6c62c00a6d0ec00a6dbac00a6e66c00a6f12c00a6fbec00a706ac00a7116c00a71c3c00a726fc00a731bc00a73c8c00a7474c00a7521c00a75cec00a767ac00a7727c00a77d4c00a7881c00a792ec00a79dac00a7a88c00a7b35c00a7be2c00a7c8fc00a7d3cc00a7de9c00a7e97c00a7f44c00a7ff2c00a809fc00a814dc00a81fac00a82a8c00a8356c00a8403c00a84b1c00a855fc00a860dc00a86bbc00a8769c00a8817c00a88c5c00a8974c00a8a22c00a8ad0c00a8b7fc00a8c2dc00a8cdcc00a8d8ac00a8e39c00a8ee8c00a8f96c00a9045c00a90f4c00a91a3c00a9252c00a9301c00a93b0c00a945fc00a950ec00a95bdc00a966dc00a971cc00a97cbc00a987bc00a992ac00a99dac00a9a8ac00a9b39c00a9be9c00a9c99c00a9d49c00a9df9c00a9ea9c00a9f59c00aa009c00aa0b9c00aa169c00aa219c00aa2cac00aa37ac00aa42bc00aa4dbc00aa58cc00aa63cc00aa6edc00aa79ec00aa84ec00aa8ffc00aa9b0c00aaa61c00aab12c00aabc3c00aac74c00aad25c00aadd7c00aae88c00aaf39c00aafebc00ab09cc00ab14ec00ab1ffc00ab2b1c00ab363c00ab414c00ab4c6c00ab578c00ab62ac00ab6dcc00ab78ec00ab840c00ab8f2c00ab9a5c00aba57c00abb09c00abbbcc00abc6ec00abd21c00abdd3c00abe86c00abf39c00abfebc00ac09ec00ac151c00ac204c00ac2b7c00ac36ac00ac41dc00ac4d0c00ac584c00ac637c00ac6eac00ac79ec00ac851c00ac905c00ac9b8c00aca6cc00acb20c00acbd3c00acc87c00acd3bc00acdefc00acea3c00acf57c00ad00bc00ad0bfc00ad174c00ad228c00ad2dcc00ad391c00ad445c00ad4fac00ad5aec00ad663c00ad718c00ad7cdc00ad881c00ad936c00ad9ebc00adaa0c00adb55c00adc0bc00adcc0c00add75c00ade2ac00adee0c00adf95c00ae04bc00ae100c00ae1b6c00ae26cc00ae321c00ae3d7c00ae48dc00ae543c00ae5f9c00ae6afc00ae765c00ae81cc00ae8d2c00ae988c00aea3ec00aeaf5c00aebabc00aec62c00aed19c00aedcfc00aee86c00aef3dc00aeff4c00af0abc00af162c00af219c00af2d0c00af387c00af43ec00af4f6c00af5adc00af664c00af71cc00af7d3c00af88bc00af943c00af9fac00afab2c00afb6ac00afc22c00afcdac00afd92c00afe4ac00aff02c00affbbc00b0073c00b012bc00b01e4c00b029cc00b0355c00b040dc00b04c6c00b057fc00b0638c00b06f0c00b07a9c00b0862c00b091bc00b09d5c00b0a8ec00b0b47c00b0c00c00b0cbac00b0d73c00b0e2dc00b0ee6c00b0fa0c00b105ac00b1113c00b11cdc00b1287c00b1341c00b13fbc00b14b5c00b156fc00b162ac00b16e4c00b179ec00b1859,
  0xc009c178c009c217c009c2b5c009c354c009c3f3c009c492c009c531c009c5d0c009c66fc009c70ec009c7adc009c84cc009c8ecc009c98bc009ca2ac009cacac009cb69c009cc08c009cca8c009cd47c009cde7c009ce87c009cf26c009cfc6c009d066c009d106c009d1a6c009d246c009d2e6c009d386c009d426c009d4c6c009d566c009d606c009d6a6c009d747c009d7e7c009d887c009d928c009d9c8c009da69c009db09c009dbaac009dc4bc009dcebc009dd8cc009de2dc009decec009df6fc009e010c009e0b1c009e152c009e1f3c009e294c009e335c009e3d6c009e478c009e519c009e5bac009e65cc009e6fdc009e79fc009e840c009e8e2c009e984c009ea25c009eac7c009eb69c009ec0bc009ecadc009ed4fc009edf1c009ee93c009ef35c009efd7c009f079c009f11bc009f1bec009f260c009f302c009f3a5c009f447c009f4eac009f58cc009f62fc009f6d2c009f774c009f817c009f8bac009f95dc009fa00c009faa3c009fb46c009fbe9c009fc8cc009fd2fc009fdd2c009fe75c009ff19c009ffbcc00a005fc00a0103c00a01a6c00a024ac00a02eec00a0391c00a0435c00a04d9c00a057cc00a0620c00a06c4c00a0768c00a080cc00a08b0c00a0954c00a09f8c00a0a9cc00a0b41c00a0be5c00a0c89c00a0d2ec00a0dd2c00a0e77c00a0f1bc00a0fc0c00a1064c00a1109c00a11aec00a1252c00a12f7c00a139cc00a1441c00a14e6c00a158bc00a1630c00a16d5c00a177ac00a1820c00a18c5c00a196ac00a1a0fc00a1ab5c00a1b5ac00a1c00c00a1ca5c00a1d4bc00a1df1c00a1e96c00a1f3cc00a1fe2c00a2088c00a212ec00a21d4c00a227ac00a2320c00a23c6c00a246cc00a2512c00a25b9c00a265fc00a2705c00a27acc00a2852c00a28f9c00a299fc00a2a46c00a2aedc00a2b93c00a2c3ac00a2ce1c00a2d88c00a2e2fc00a2ed6c00a2f7dc00a3024c00a30cbc00a3172c00a3219c00a32c1c00a3368c00a340fc00a34b7c00a355ec00a3606c00a36adc00a3755c00a37fdc00a38a4c00a394cc00a39f4c00a3a9cc00a3b44c00a3becc00a3c94c00a3d3cc00a3de4c00a3e8cc00a3f35c00a3fddc00a4085c00a412ec00a41d6c00a427fc00a4327c00a43d0c00a4479c00a4521c00a45cac00a4673c00a471cc00a47c5c00a486ec00a4917c00a49c0c00a4a69c00a4b12c00a4bbcc00a4c65c00a4d0ec00a4db8c00a4e61c00a4f0bc00a4fb4c00a505ec00a5107c00a51b1c00a525bc00a5305c00a53afc00a5459c00a5503c00a55adc00a5657c00a5701c00a57abc00a5855c00a5900c00a59aac00a5a54c00a5affc00a5ba9c00a5c54c00a5cffc00a5da9c00a5e54c00a5effc00a5faac00a6055c00a60ffc00a61aac00a6256c00a6301c00a63acc00a6457c00a6502c00a65ae,
  0xc0092852c00928e5c0092979c0092a0dc0092aa1c0092b35c0092bc9c0092c5ec0092cf2c0092d86c0092e1ac0092eaec0092f43c0092fd7c009306cc0093100c0093194c0093229c00932bec0093352c00933e7c009347bc0093510c00935a5c009363ac00936cfc0093763c00937f8c009388dc0093922c00939b7c0093a4cc0093ae2c0093b77c0093c0cc0093ca1c0093d36c0093dccc0093e61c0093ef6c0093f8cc0094021c00940b7c009414cc00941e2c0094278c009430dc00943a3c0094439c00944cfc0094564c00945fac0094690c0094726c00947bcc0094852c00948e8c009497ec0094a15c0094aabc0094b41c0094bd7c0094c6ec0094d04c0094d9ac0094e31c0094ec7c0094f5ec0094ff4c009508bc0095122c00951b8c009524fc00952e6c009537dc0095414c00954abc0095541c00955d8c009566fc0095707c009579ec0095835c00958ccc0095963c00959fac0095a92c0095b29c0095bc0c0095c58c0095cefc0095d87c0095e1ec0095eb6c0095f4ec0095fe5c009607dc0096115c00961adc0096244c00962dcc0096374c009640cc00964a4c009653cc00965d4c009666dc0096705c009679dc0096835c00968cec0096966c00969fec0096a97c0096b2fc0096bc8c0096c60c0096cf9c0096d91c0096e2ac0096ec3c0096f5cc0096ff4c009708dc0097126c00971bfc0097258c00972f1c009738ac0097423c00974bcc0097556c00975efc0097688c0097721c00977bbc0097854c00978eec0097987c0097a21c0097abac0097b54c0097bedc0097c87c0097d21c0097dbbc0097e55c0097eeec0097f88c0098022c00980bcc0098156c00981f0c009828ac0098325c00983bfc0098459c00984f3c009858ec0098628c00986c3c009875dc00987f8c0098892c009892dc00989c7c0098a62c0098afdc0098b97c0098c32c0098ccdc0098d68c0098e03c0098e9ec0098f39c0098fd4c009906fc009910ac00991a6c0099241c00992dcc0099377c0099413c00994aec009954ac00995e5c0099681c009971cc00997b8c0099854c00998efc009998bc0099a27c0099ac3c0099b5fc0099bfbc0099c97c0099d33c0099dcfc0099e6bc0099f07c0099fa3c009a040c009a0dcc009a178c009a215c009a2b1c009a34ec009a3eac009a487c009a523c009a5c0c009a65dc009a6f9c009a796c009a833c009a8d0c009a96dc009aa0ac009aaa7c009ab44c009abe1c009ac7ec009ad1bc009adb8c009ae56c009aef3c009af90c009b02ec009b0cbc009b169c009b206c009b2a4c009b342c009b3dfc009b47dc009b51bc009b5b9c009b657c009b6f4c009b792c009b830c009b8cec009b96dc009ba0bc009baa9c009bb47c009bbe5c009bc84c009bd22c009bdc0c009be5fc009befdc009bf9cc009c03ac009c0d9,
  0xc008993dc00899c8c0089a52c0089addc0089b68c0089bf2c0089c7dc0089d08c0089d93c0089e1dc0089ea8c0089f33c0089fbec008a049c008a0d4c008a15fc008a1eac008a275c008a300c008a38bc008a416c008a4a2c008a52dc008a5b8c008a643c008a6cfc008a75ac008a7e6c008a871c008a8fcc008a988c008aa14c008aa9fc008ab2bc008abb6c008ac42c008accec008ad5ac008ade5c008ae71c008aefdc008af89c008b015c008b0a1c008b12dc008b1b9c008b245c008b2d1c008b35dc008b3eac008b476c008b502c008b58ec008b61bc008b6a7c008b733c008b7c0c008b84cc008b8d9c008b965c008b9f2c008ba7ec008bb0bc008bb98c008bc24c008bcb1c008bd3ec008bdcbc008be58c008bee5c008bf71c008bffec008c08bc008c118c008c1a6c008c233c008c2c0c008c34dc008c3dac008c467c008c4f5c008c582c008c60fc008c69dc008c72ac008c7b8c008c845c008c8d3c008c960c008c9eec008ca7bc008cb09c008cb97c008cc24c008ccb2c008cd40c008cdcec008ce5cc008ceeac008cf78c008d006c008d094c008d122c008d1b0c008d23ec008d2ccc008d35ac008d3e9c008d477c008d505c008d594c008d622c008d6b0c008d73fc008d7cdc008d85cc008d8eac008d979c008da08c008da96c008db25c008dbb4c008dc43c008dcd1c008dd60c008ddefc008de7ec008df0dc008df9cc008e02bc008e0bac008e149c008e1d8c008e268c008e2f7c008e386c008e415c008e4a5c008e534c008e5c4c008e653c008e6e2c008e772c008e802c008e891c008e921c008e9b0c008ea40c008ead0c008eb60c008ebefc008ec7fc008ed0fc008ed9fc008ee2fc008eebfc008ef4fc008efdfc008f06fc008f0ffc008f190c008f220c008f2b0c008f340c008f3d1c008f461c008f4f2c008f582c008f612c008f6a3c008f734c008f7c4c008f855c008f8e5c008f976c008fa07c008fa98c008fb28c008fbb9c008fc4ac008fcdbc008fd6cc008fdfdc008fe8ec008ff1fc008ffb0c0090042c00900d3c0090164c00901f5c0090287c0090318c00903a9c009043bc00904ccc009055ec00905efc0090681c0090712c00907a4c0090836c00908c7c0090959c00909ebc0090a7dc0090b0fc0090ba1c0090c33c0090cc5c0090d57c0090de9c0090e7bc0090f0dc0090f9fc0091031c00910c4c0091156c00911e8c009127bc009130dc009139fc0091432c00914c5c0091557c00915eac009167cc009170fc00917a2c0091834c00918c7c009195ac00919edc0091a80c0091b13c0091ba6c0091c39c0091cccc0091d5fc0091df2c0091e85c0091f19c0091facc009203fc00920d3c0092166c00921f9c009228dc0092320c00923b4c0092447c00924dbc009256fc0092602c0092696c009272ac00927be,
  0xc00812e8c008136ac00813edc008146fc00814f2c0081574c00815f7c0081679c00816fcc008177ec0081801c0081884c0081906c0081989c0081a0cc0081a8fc0081b11c0081b94c0081c17c0081c9ac0081d1dc0081da0c0081e23c0081ea6c0081f29c0081facc008202fc00820b2c0082135c00821b8c008223cc00822bfc0082342c00823c6c0082449c00824ccc0082550c00825d3c0082657c00826dac008275ec00827e1c0082865c00828e8c008296cc00829f0c0082a73c0082af7c0082b7bc0082bffc0082c83c0082d06c0082d8ac0082e0ec0082e92c0082f16c0082f9ac008301ec00830a2c0083126c00831abc008322fc00832b3c0083337c00833bcc0083440c00834c4c0083548c00835cdc0083651c00836d6c008375ac00837dfc0083863c00838e8c008396cc00839f1c0083a76c0083afac0083b7fc0083c04c0083c89c0083d0ec0083d92c0083e17c0083e9cc0083f21c0083fa6c008402bc00840b0c0084135c00841bac0084240c00842c5c008434ac00843cfc0084454c00844dac008455fc00845e4c008466ac00846efc0084775c00847fac0084880c0084905c008498bc0084a10c0084a96c0084b1cc0084ba1c0084c27c0084cadc0084d33c0084db8c0084e3ec0084ec4c0084f4ac0084fd0c0085056c00850dcc0085162c00851e8c008526ec00852f4c008537bc0085401c0085487c008550dc0085594c008561ac00856a0c0085727c00857adc0085834c00858bac0085941c00859c7c0085a4ec0085ad4c0085b5bc0085be2c0085c69c0085cefc0085d76c0085dfdc0085e84c0085f0bc0085f92c0086018c008609fc0086126c00861aec0086235c00862bcc0086343c00863cac0086451c00864d8c0086560c00865e7c008666ec00866f6c008677dc0086805c008688cc0086913c008699bc0086a23c0086aaac0086b32c0086bb9c0086c41c0086cc9c0086d51c0086dd8c0086e60c0086ee8c0086f70c0086ff8c0087080c0087108c0087190c0087218c00872a0c0087328c00873b0c0087438c00874c1c0087549c00875d1c008765ac00876e2c008776ac00877f3c008787bc0087904c008798cc0087a15c0087a9dc0087b26c0087baec0087c37c0087cc0c0087d49c0087dd1c0087e5ac0087ee3c0087f6cc0087ff5c008807ec0088107c0088190c0088219c00882a2c008832bc00883b4c008843dc00884c6c0088550c00885d9c0088662c00886ecc0088775c00887fec0088888c0088911c008899bc0088a24c0088aaec0088b38c0088bc1c0088c4bc0088cd5c0088d5ec0088de8c0088e72c0088efcc0088f86c0089010c008909ac0089124c00891aec0089238c00892c2c008934cc00893d6c0089460c00894eac0089575c00895ffc0089689c0089714c008979ec0089828c00898b3,
  0xc007943ec00794bac0079535c00795b0c007962bc00796a6c0079722c007979dc0079818c0079894c007990fc007998bc0079a06c0079a81c0079afdc0079b78c0079bf4c0079c70c0079cebc0079d67c0079de2c0079e5ec0079edac0079f56c0079fd1c007a04dc007a0c9c007a145c007a1c1c007a23dc007a2b8c007a334c007a3b0c007a42cc007a4a8c007a524c007a5a1c007a61dc007a699c007a715c007a791c007a80dc007a88ac007a906c007a982c007a9ffc007aa7bc007aaf7c007ab74c007abf0c007ac6dc007ace9c007ad66c007ade2c007ae5fc007aedbc007af58c007afd5c007b051c007b0cec007b14bc007b1c7c007b244c007b2c1c007b33ec007b3bbc007b438c007b4b5c007b532c007b5aec007b62bc007b6a9c007b726c007b7a3c007b820c007b89dc007b91ac007b997c007ba15c007ba92c007bb0fc007bb8cc007bc0ac007bc87c007bd04c007bd82c007bdffc007be7dc007befac007bf78c007bff5c007c073c007c0f1c007c16ec007c1ecc007c26ac007c2e7c007c365c007c3e3c007c461c007c4dec007c55cc007c5dac007c658c007c6d6c007c754c007c7d2c007c850c007c8cec007c94cc007c9cac007ca48c007cac7c007cb45c007cbc3c007cc41c007ccbfc007cd3ec007cdbcc007ce3ac007ceb9c007cf37c007cfb6c007d034c007d0b3c007d131c007d1b0c007d22ec007d2adc007d32cc007d3aac007d429c007d4a8c007d526c007d5a5c007d624c007d6a3c007d722c007d7a1c007d820c007d89fc007d91dc007d99dc007da1cc007da9bc007db1ac007db99c007dc18c007dc97c007dd16c007dd96c007de15c007de94c007df13c007df93c007e012c007e092c007e111c007e190c007e210c007e28fc007e30fc007e38fc007e40ec007e48ec007e50dc007e58dc007e60dc007e68dc007e70cc007e78cc007e80cc007e88cc007e90cc007e98cc007ea0cc007ea8cc007eb0cc007eb8cc007ec0cc007ec8cc007ed0cc007ed8cc007ee0cc007ee8cc007ef0dc007ef8dc007f00dc007f08ec007f10ec007f18ec007f20fc007f28fc007f310c007f390c007f411c007f491c007f512c007f592c007f613c007f694c007f714c007f795c007f816c007f897c007f918c007f998c007fa19c007fa9ac007fb1bc007fb9cc007fc1dc007fc9ec007fd1fc007fda0c007fe21c007fea2c007ff24c007ffa5c0080026c00800a7c0080129c00801aac008022bc00802adc008032ec00803afc0080431c00804b2c0080534c00805b5c0080637c00806b9c008073ac00807bcc008083ec00808bfc0080941c00809c3c0080a45c0080ac7c0080b48c0080bcac0080c4cc0080ccec0080d50c0080dd2c0080e54c0080ed6c0080f58c0080fdbc008105dc00810dfc0081161c00811e3c0081266] ++
  [0xc00793c3]

/-- R420, GUMB upper side level 1: entry j for j = 0 to 4,096. -/
def gumbU1 : List Nat :=
  [0x41318218413192304131a2594131b2914131c2db4131d3354131e39f4131f41b413204a841321546413225f5413236b6413247884132586c4132696241327a6a41328b8441329cb14132adf04132bf424132d0a64132e21e4132f3a941330547413316f8413328bd41333a9641334c8341335e844133709a413382c4413395034133a7564133b9bf4133cc3d4133ded14133f17a413404394134170e413429f941343cfb41345014413463434134768a413489e741349d5d4134b0ea4134c48f4134d84d4134ec2241350011413514194135283941353c74413550c741356535413579bd41358e604135a31d4135b7f54135cce94135e1f84135f72341360c6a413621ce4136374f41364cec413662a74136787f41368e764136a48a4136babe4136d1104136e7824136fe13413714c441372b96413742894137599c413770d14137882841379fa14137b73d4137cefb4137e6de4137fee44138170e41382f5d413847d14138606b4138792b413892114138ab1f4138c4534138ddb04138f735413910e441392abb413944bd41395ee941397941413993c44139ae734139c94f4139e4584139ff8f413a1af5413a368a413a5250413a6e45413a8a6c413aa6c5413ac350413ae00e413afd01413b1a28413b3785413b5518413b72e2413b90e4413baf1e413bcd92413bec41413c0b2b413c2a51413c49b4413c6955413c8935413ca956413cc9b7413cea5a413d0b41413d2c6b413d4ddb413d6f91413d918f413db3d6413dd667413df943413e1c6c413e3fe2413e63a8413e87bf413eac28413ed0e4413ef5f6413f1b5e413f411e413f6738413f8dae413fb482413fdbb44140034741402b3d4140539841407c5a4140a5844140cf1a4140f91d4141238f41414e73414179cb4141a59a4141d1e24141fea641422be9414259ad414287f54142b6c54142e62041431608414346814143778f4143a9354143db7841440e59414441df4144760d4144aae74144e073414516b341454dae414585694145bde84145f7324146314c41466c3b4146a8074146e4b64147224e414760d84147a0594147e0da41482264414864fe4148a8b34148ed8a4149338f41497acc4149c34b414a0d19414a5841414aa4d1414af2d7414b4260414b937d414be63d414c3ab2414c90ee414ce905414d430c414d9f18414dfd42414e5da4414ec058414f257c414f8d30414ff795415064d14150d50b4151486e4151bf2a415239714152b77b415339864153bfd541544ab14154da6d41556f64415609f94156aa9f415751d4415800274158b63a415974c6415a3c9e415b0eb7415bec2d415cd64c415dce9d415ed6f7415ff18f4161211b416268f64163cd5c416553c04167034f4168e5bf416b08b1416d801841706ae24173fce141789739417f14024185159200000000,
  0x412662e941266aef412672f941267b074126831941268b2f4126934a41269b684126a38b4126abb14126b3dc4126bc0b4126c43f4126cc764126d4b24126dcf24126e5364126ed7f4126f5cb4126fe1d4127067241270ecc4127172a41271f8d412727f34127305f412738cf41274143412749bc4127523941275abb4127634141276bcc4127745b41277cef4127858841278e25412796c741279f6e4127a8194127b0c94127b97d4127c2374127caf54127d3b84127dc804127e54c4127ee1e4127f6f44127ffcf412808b04128119541281a7f4128236e41282c624128355b41283e594128475c41285064412859714128628441286b9b412874b841287dda412887024128902e412899604128a2974128abd34128b5154128be5c4128c7a84128d0fa4128da514128e3ae4128ed114128f6784128ffe641290959412912d141291c4f412925d341292f5c412938eb4129428041294c1b412955bb41295f614129690d412972bf41297c774129863541298ff8412999c24129a3924129ad674129b7434129c1254129cb0c4129d4fa4129deef4129e8e94129f2ea4129fcf1412a06fe412a1111412a1b2b412a254c412a2f72412a39a0412a43d3412a4e0e412a584e412a6296412a6ce4412a7738412a8193412a8bf6412a965e412aa0ce412aab44412ab5c1412ac046412acad1412ad563412adffc412aea9c412af543412afff1412b0aa7412b1563412b2027412b2af2412b35c5412b409e412b4b7f412b5668412b6158412b6c4f412b774e412b8255412b8d63412b9879412ba396412baebc412bb9e9412bc51e412bd05b412bdb9f412be6ec412bf241412bfd9d412c0902412c146f412c1fe4412c2b61412c36e7412c4275412c4e0b412c59aa412c6551412c7101412c7cb9412c887a412c9444412ca016412cabf1412cb7d5412cc3c1412ccfb7412cdbb5412ce7bd412cf3cd412cffe7412d0c0a412d1836412d246c412d30ab412d3cf3412d4944412d55a0412d6204412d6e73412d7aeb412d876c412d93f8412da08e412dad2d412db9d6412dc68a412dd347412de00f412dece1412df9bd412e06a4412e1395412e2091412e2d97412e3aa7412e47c3412e54e9412e621a412e6f56412e7c9d412e89ef412e974c412ea4b5412eb228412ebfa7412ecd32412edac8412ee869412ef616412f03cf412f1194412f1f64412f2d41412f3b29412f491e412f571f412f652c412f7346412f816c412f8f9f412f9dde412fac2a412fba83412fc8e8412fd75b412fe5db412ff46841300302413011aa4130205f41302f2241303df241304cd041305bbc41306ab6413079be413088d4413097f94130a72b4130b66d4130c5bd4130d51b4130e4894130f405413103914131132b413122d54131328f41314257413152304131621841317210,
  0x411fe36c411fe8c4411fee1e411ff379411ff8d7411ffe3641200397412008fa41200e5e412013c54120192d41201e97412024034120297141202ee141203452412039c541203f3b412044b241204a2b41204fa54120552241205aa141206021412065a441206b28412070ae4120763641207bc04120814c412086da41208c69412091fb4120978f41209d244120a2bc4120a8554120adf14120b38e4120b92e4120becf4120c4724120ca184120cfbf4120d5684120db144120e0c14120e6714120ec224120f1d54120f78b4120fd42412102fc412108b741210e7541211435412119f741211fba4121258041212b4841213113412136df41213cad4121427e4121485041214e25412153fc412159d441215fb04121658d41216b6c4121714e4121773141217d17412182ff412188e941218ed6412194c441219ab54121a0a84121a69e4121ac954121b28f4121b88b4121be894121c4894121ca8c4121d0914121d6984121dca14121e2ad4121e8bb4121eecb4121f4de4121faf34122010a4122072441220d404122135e4122197f41221fa2412225c741222bee412232184122384541223e74412244a541224ad84122510e4122574741225d82412263bf412269ff412270414122768541227ccc412283164122896241228fb04122960141229c554122a2ab4122a9034122af5e4122b5bc4122bc1c4122c27e4122c8e34122cf4b4122d5b54122dc224122e2924122e9044122ef784122f5f04122fc6a412302e64123096541230fe74123166b41231cf24123237c41232a09412330984123372941233dbe4123445541234aef4123518c4123582b41235ecd4123657241236c1a412372c44123797141238021412386d441238d8a4123944241239afd4123a1bb4123a87c4123af404123b6074123bcd04123c39d4123ca6c4123d13e4123d8134123deeb4123e5c64123eca44123f3854123fa69412401504124083a41240f264124161641241d09412423ff41242af8412431f3412438f241243ff4412446f941244e024124550d41245c1b4124632d41246a41412471594124787441247f92412486b341248dd8412494ff41249c2a4124a3584124aa894124b1be4124b8f64124c0314124c76f4124ceb04124d5f54124dd3e4124e4894124ebd84124f32a4124fa7f412501d84125093541251094412517f741251f5e412526c841252e35412535a641253d1a4125449241254c0d4125538c41255b0e4125629441256a1d412571aa4125793b412580cf4125886641259002412597a041259f434125a6e94125ae934125b6404125bdf24125c5a64125cd5f4125d51b4125dcdc4125e49f4125ec674125f4324125fc02412603d541260bac4126138641261b654126234741262b2e4126331841263b06412642f841264aee412652e841265ae6,
  0x411b47b6411b4bb7411b4fba411b53bd411b57c2411b5bc7411b5fce411b63d5411b67de411b6be8411b6ff2411b73fe411b780b411b7c18411b8027411b8437411b8848411b8c59411b906c411b9480411b9895411b9cab411ba0c2411ba4da411ba8f3411bad0e411bb129411bb545411bb962411bbd81411bc1a0411bc5c1411bc9e2411bce05411bd229411bd64e411bda74411bde9b411be2c3411be6ec411beb16411bef41411bf36e411bf79b411bfbca411bfff9411c042a411c085c411c0c8f411c10c3411c14f8411c192e411c1d66411c219e411c25d8411c2a12411c2e4e411c328b411c36c9411c3b08411c3f49411c438a411c47cd411c4c11411c5055411c549b411c58e3411c5d2b411c6174411c65bf411c6a0b411c6e58411c72a6411c76f5411c7b45411c7f97411c83e9411c883d411c8c92411c90e9411c9540411c9999411c9df2411ca24d411ca6a9411cab07411caf65411cb3c5411cb826411cbc88411cc0eb411cc550411cc9b5411cce1c411cd285411cd6ee411cdb58411cdfc4411ce431411ce89f411ced0f411cf180411cf5f2411cfa65411cfed9411d034f411d07c6411d0c3e411d10b7411d1532411d19ae411d1e2b411d22a9411d2729411d2baa411d302c411d34b0411d3934411d3dba411d4242411d46ca411d4b54411d4fdf411d546c411d58fa411d5d89411d6219411d66ab411d6b3e411d6fd2411d7468411d78ff411d7d97411d8230411d86cb411d8b67411d9005411d94a4411d9944411d9de5411da288411da72d411dabd2411db079411db521411db9cb411dbe76411dc322411dc7d0411dcc7f411dd130411dd5e1411dda95411ddf49411de3ff411de8b7411ded6f411df22a411df6e5411dfba2411e0060411e0520411e09e1411e0ea4411e1368411e182d411e1cf4411e21bd411e2686411e2b51411e301e411e34ec411e39bc411e3e8c411e435f411e4833411e4d08411e51df411e56b7411e5b91411e606c411e6548411e6a26411e6f06411e73e7411e78ca411e7dae411e8293411e877a411e8c63411e914d411e9639411e9b26411ea014411ea504411ea9f6411eaee9411eb3de411eb8d4411ebdcc411ec2c5411ec7c0411eccbd411ed1bb411ed6ba411edbbc411ee0be411ee5c2411eeac8411eefd0411ef4d9411ef9e3411efeef411f03fd411f090d411f0e1e411f1330411f1844411f1d5a411f2272411f278b411f2ca5411f31c2411f36e0411f3bff411f4120411f4643411f4b68411f508e411f55b6411f5adf411f600a411f6537411f6a66411f6f96411f74c8411f79fb411f7f31411f8467411f89a0411f8eda411f9417411f9954411f9e94411fa3d5411fa918411fae5d411fb3a3411fb8eb411fbe35411fc381411fc8ce411fce1d411fd36e411fd8c1411fde15,
  0x4117b4e24117b8164117bb4b4117be804117c1b64117c4ed4117c8244117cb5c4117ce954117d1ce4117d5084117d8434117db7e4117deba4117e1f74117e5344117e8724117ebb14117eef04117f2304117f5714117f8b24117fbf44117ff3641180279411805bd4118090241180c4741180f8d411812d44118161b4118196341181cab41181ff44118233e41182689411829d441182d204118306d411833ba4118370841183a5741183da6411840f6411844474118479841184aeb41184e3d41185191411854e54118583a41185b8f41185ee64118623d41186594411868ed41186c4641186fa0411872fa41187655411879b141187d0e4118806b411883c94118872841188a8741188de741189148411894aa4118980c41189b6f41189ed24118a2374118a59c4118a9024118ac684118afd04118b3384118b6a14118ba0a4118bd744118c0df4118c44b4118c7b74118cb244118ce924118d2014118d5704118d8e04118dc514118dfc34118e3354118e6a84118ea1c4118ed904118f1064118f47c4118f7f24118fb6a4118fee24119025b411905d54119095041190ccb41191047411913c44119174141191ac041191e3f411921bf4119253f411928c141192c4341192fc641193349411936ce41193a5341193dd941194160411944e84119487041194bf941194f834119530e4119569941195a2641195db341196141411964cf4119685f41196bef41196f8041197312411976a441197a3841197dcc41198161411984f74119888d41198c2541198fbd41199356411996f041199a8b41199e264119a1c24119a5604119a8fd4119ac9c4119b03c4119b3dc4119b77d4119bb1f4119bec24119c2664119c60a4119c9b04119cd564119d0fd4119d4a54119d84d4119dbf74119dfa14119e34d4119e6f94119eaa54119ee534119f2024119f5b14119f9614119fd13411a00c5411a0477411a082b411a0be0411a0f95411a134b411a1702411a1aba411a1e73411a222d411a25e8411a29a3411a2d5f411a311c411a34db411a389a411a3c59411a401a411a43dc411a479e411a4b61411a4f26411a52eb411a56b1411a5a78411a5e40411a6208411a65d2411a699c411a6d68411a7134411a7501411a78cf411a7c9e411a806e411a843f411a8811411a8be3411a8fb7411a938b411a9761411a9b37411a9f0e411aa2e6411aa6bf411aaa99411aae74411ab250411ab62d411aba0b411abde9411ac1c9411ac5aa411ac98b411acd6d411ad151411ad535411ad91a411add01411ae0e8411ae4d0411ae8b9411aeca3411af08e411af47a411af867411afc55411b0043411b0433411b0824411b0c16411b1008411b13fc411b17f1411b1be6411b1fdd411b23d5411b27cd411b2bc7411b2fc1411b33bd411b37b9411b3bb7411b3fb5411b43b5,
  0x4114c9874114cc324114cede4114d18a4114d4374114d6e44114d9924114dc404114deee4114e19d4114e44d4114e6fd4114e9ad4114ec5e4114ef0f4114f1c04114f4734114f7254114f9d84114fc8c4114ff40411501f4411504a94115075e41150a1441150cca41150f8141151238411514f0411517a841151a6041151d1941151fd34115228c411525474115280241152abd41152d7941153035411532f2411535af4115386d41153b2b41153de9411540a84115436841154628411548e841154ba941154e6b4115512d411553ef411556b24115597541155c3941155efd411561c2411564874115674d41156a1341156cda41156fa14115726941157531411577fa41157ac341157d8c4115805641158321411585ec411588b841158b8441158e504115911d411593eb411596b94115998741159c5641159f254115a1f54115a4c64115a7974115aa684115ad3a4115b00d4115b2e04115b5b34115b8874115bb5b4115be304115c1064115c3dc4115c6b24115c9894115cc614115cf394115d2114115d4ea4115d7c34115da9d4115dd784115e0534115e32e4115e60a4115e8e74115ebc44115eea24115f1804115f45e4115f73d4115fa1d4115fcfd4115ffde411602bf411605a14116088341160b6641160e494116112d41161411411616f6411619db41161cc141161fa74116228e411625764116285e41162b4641162e2f4116311941163403411636ed411639d841163cc441163fb04116429d4116458a4116487841164b6741164e5541165145411654354116572541165a1641165d0841165ffa411662ed411665e0411668d441166bc841166ebd411671b2411674a84116779f41167a9641167d8d411680864116837e411686774116897141168c6c41168f67411692624116955e4116985b41169b5841169e554116a1544116a4534116a7524116aa524116ad524116b0534116b3554116b6574116b95a4116bc5d4116bf614116c2664116c56b4116c8704116cb764116ce7d4116d1854116d48c4116d7954116da9e4116dda84116e0b24116e3bd4116e6c84116e9d44116ece04116efed4116f2fb4116f6094116f9184116fc284116ff3841170248411705594117086b41170b7e41170e91411711a4411714b8411717cd41171ae241171df84117210f411724264117273e41172a5641172d6f41173088411733a2411736bd411739d841173cf4411740114117432e4117464c4117496a41174c8941174fa8411752c9411755e94117590b41175c2d41175f4f4117627341176596411768bb41176be041176f064117722c411775534117787b41177ba341177ecc411781f54117851f4117884a41178b7541178ea1411791ce411794fb4117982941179b5741179e864117a1b64117a4e64117a8174117ab494117ae7b4117b1ae,
  0x411251b7411254004112564a4112589541125adf41125d2a41125f76411261c14112640d41126659411268a641126af341126d4041126f8e411271dc4112742a41127679411278c841127b1741127d6741127fb74112820741128457411286a8411288fa41128b4b41128d9d41128ff04112924241129495411296e84112993c41129b9041129de44112a0394112a28e4112a4e34112a7394112a98f4112abe54112ae3c4112b0934112b2eb4112b5424112b79a4112b9f34112bc4c4112bea54112c0fe4112c3584112c5b24112c80d4112ca674112ccc34112cf1e4112d17a4112d3d64112d6334112d8904112daed4112dd4b4112dfa94112e2074112e4664112e6c54112e9244112eb844112ede44112f0444112f2a54112f5064112f7684112f9c94112fc2c4112fe8e411300f141130354411305b84113081c41130a8041130ce541130f4a411311af411314154113167b411318e241131b4941131db0411320174113227f411324e841132750411329b941132c2341132e8d411330f741133361411335cc4113383741133aa341133d0f41133f7b411341e841134455411346c24113493041134b9e41134e0d4113507b411352eb4113555a411357ca41135a3b41135cab41135f1d4113618e4113640041136672411368e541136b5841136dcb4113703f411372b3411375274113779c41137a1241137c8741137efd41138174411383ea41138661411388d941138b5141138dc941139042411392bb41139534411397ae41139a2841139ca341139f1e4113a1994113a4154113a6914113a90d4113ab8a4113ae084113b0854113b3034113b5824113b8004113ba804113bcff4113bf7f4113c2004113c4804113c7024113c9834113cc054113ce874113d10a4113d38d4113d6114113d8954113db194113dd9e4113e0234113e2a84113e52e4113e7b54113ea3b4113ecc24113ef4a4113f1d24113f45a4113f6e34113f96c4113fbf54113fe7f4114010a4114039441140620411408ab41140b3741140dc341141050411412dd4114156b411417f941141a8741141d1641141fa541142235411424c541142755411429e641142c7741142f094114319b4114342d411436c04114395441143be741143e7b41144110411443a54114463a411448d041144b6641144dfd411450944114532b411455c34114585c41145af441145d8e41146027411462c14114655c411467f641146a9241146d2d41146fca4114726641147503411477a041147a3e41147cdd41147f7b4114821a411484ba4114875a411489fa41148c9b41148f3c411491de4114948041149723411499c641149c6941149f0d4114a1b24114a4564114a6fb4114a9a14114ac474114aeee4114b1954114b43c4114b6e44114b98c4114bc354114bede4114c1874114c4324114c6dc,
  0x41102e74411030744110327541103476411036774110387841103a7a41103c7c41103e7e411040804110428341104486411046894110488d41104a9041104c9441104e984110509d411052a1411054a6411056ac411058b141105ab741105cbd41105ec3411060ca411062d0411064d7411066df411068e641106aee41106cf641106efe411071074110730f41107519411077224110792b41107b3541107d3f41107f4a411081544110835f4110856a411087764110898141108b8d41108d9a41108fa6411091b3411093c0411095cd411097da411099e841109bf641109e054110a0134110a2224110a4314110a6404110a8504110aa604110ac704110ae804110b0914110b2a24110b4b34110b6c54110b8d64110bae84110bcfb4110bf0d4110c1204110c3334110c5474110c75a4110c96e4110cb824110cd974110cfab4110d1c04110d3d64110d5eb4110d8014110da174110dc2d4110de444110e05b4110e2724110e4894110e6a14110e8b94110ead14110ecea4110ef034110f11c4110f3354110f54f4110f7694110f9834110fb9d4110fdb84110ffd3411101ee4111040a411106264111084241110a5e41110c7b41110e98411110b5411112d3411114f04111170e4111192d41111b4b41111d6a41111f8a411121a9411123c9411125e94111280941112a2a41112c4b41112e6c4111308d411132af411134d1411136f34111391641113b3941113d5c41113f7f411141a3411143c7411145eb4111481041114a3541114c5a41114e80411150a5411152cb411154f2411157184111593f41115b6641115d8e41115fb6411161de411164064111662f4111685841116a8141116caa41116ed4411170fe41117329411175534111777e411179aa41117bd541117e014111802d4111825a41118486411186b3411188e141118b0e41118d3c41118f6b41119199411193c8411195f74111982641119a5641119c8641119eb64111a0e74111a3184111a5494111a77b4111a9ad4111abdf4111ae114111b0444111b2774111b4aa4111b6de4111b9124111bb464111bd7b4111bfaf4111c1e54111c41a4111c6504111c8864111cabc4111ccf34111cf2a4111d1614111d3994111d5d14111d8094111da414111dc7a4111deb34111e0ed4111e3274111e5614111e79b4111e9d64111ec114111ee4c4111f0884111f2c34111f5004111f73c4111f9794111fbb64111fdf44112003241120270411204ae411206ed4112092c41120b6b41120dab41120feb4112122b4112146c411216ad411218ee41121b3041121d7241121fb4411221f74112243a4112267d411228c041122b0441122d4841122f8d411231d1411234174112365c411238a241123ae841123d2e41123f75411241bc411244034112464b4112489341124adc41124d2441124f6d] ++
  [0x410e4bc2410e4d8a410e4f51410e5119410e52e1410e54a9410e5672410e583a410e5a03410e5bcc410e5d96410e5f5f410e6129410e62f2410e64bc410e6687410e6851410e6a1c410e6be7410e6db2410e6f7d410e7148410e7314410e74e0410e76ac410e7878410e7a44410e7c11410e7dde410e7fab410e8178410e8346410e8513410e86e1410e88af410e8a7d410e8c4c410e8e1b410e8fe9410e91b9410e9388410e9557410e9727410e98f7410e9ac7410e9c97410e9e68410ea039410ea20a410ea3db410ea5ac410ea77e410ea94f410eab21410eacf3410eaec6410eb098410eb26b410eb43e410eb611410eb7e5410eb9b8410ebb8c410ebd60410ebf35410ec109410ec2de410ec4b3410ec688410ec85d410eca32410ecc08410ecdde410ecfb4410ed18b410ed361410ed538410ed70f410ed8e6410edabe410edc95410ede6d410ee045410ee21d410ee3f6410ee5ce410ee7a7410ee980410eeb5a410eed33410eef0d410ef0e7410ef2c1410ef49c410ef676410ef851410efa2c410efc07410efde3410effbe410f019a410f0376410f0553410f072f410f090c410f0ae9410f0cc6410f0ea4410f1081410f125f410f143d410f161c410f17fa410f19d9410f1bb8410f1d97410f1f76410f2156410f2336410f2516410f26f6410f28d6410f2ab7410f2c98410f2e79410f305b410f323c410f341e410f3600410f37e2410f39c5410f3ba7410f3d8a410f3f6d410f4151410f4334410f4518410f46fc410f48e0410f4ac5410f4caa410f4e8f410f5074410f5259410f543f410f5624410f580b410f59f1410f5bd7410f5dbe410f5fa5410f618c410f6374410f655b410f6743410f692b410f6b13410f6cfc410f6ee5410f70ce410f72b7410f74a0410f768a410f7874410f7a5e410f7c48410f7e33410f801e410f8209410f83f4410f85e0410f87cb410f89b7410f8ba4410f8d90410f8f7d410f916a410f9357410f9544410f9732410f9920410f9b0e410f9cfc410f9eea410fa0d9410fa2c8410fa4b7410fa6a7410fa897410faa86410fac77410fae67410fb058410fb249410fb43a410fb62b410fb81d410fba0e410fbc00410fbdf3410fbfe5410fc1d8410fc3cb410fc5be410fc7b2410fc9a5410fcb99410fcd8e410fcf82410fd177410fd36c410fd561410fd756410fd94c410fdb42410fdd38410fdf2e410fe125410fe31b410fe512410fe70a410fe901410feaf9410fecf1410feee9410ff0e2410ff2db410ff4d4410ff6cd410ff8c6410ffac0410ffcba410ffeb4411000af411002aa411004a5411006a04110089b41100a9741100c9341100e8f4110108b4110128841101485411016824110188041101a7d41101c7b41101e79411020784110227641102475411026754110287441102a7441102c73,
  0x410c9bfe410c9d98410c9f32410ca0cc410ca267410ca401410ca59c410ca737410ca8d2410caa6d410cac08410cada4410caf3f410cb0db410cb277410cb413410cb5af410cb74c410cb8e9410cba85410cbc22410cbdbf410cbf5d410cc0fa410cc298410cc435410cc5d3410cc771410cc910410ccaae410ccc4d410ccdeb410ccf8a410cd129410cd2c8410cd468410cd607410cd7a7410cd947410cdae7410cdc87410cde28410cdfc8410ce169410ce30a410ce4ab410ce64c410ce7ed410ce98f410ceb31410cecd3410cee75410cf017410cf1b9410cf35c410cf4fe410cf6a1410cf844410cf9e8410cfb8b410cfd2e410cfed2410d0076410d021a410d03be410d0563410d0707410d08ac410d0a51410d0bf6410d0d9b410d0f41410d10e6410d128c410d1432410d15d8410d177e410d1925410d1acb410d1c72410d1e19410d1fc0410d2167410d230f410d24b6410d265e410d2806410d29ae410d2b56410d2cff410d2ea8410d3050410d31f9410d33a3410d354c410d36f5410d389f410d3a49410d3bf3410d3d9d410d3f47410d40f2410d429d410d4448410d45f3410d479e410d4949410d4af5410d4ca1410d4e4d410d4ff9410d51a5410d5351410d54fe410d56ab410d5858410d5a05410d5bb2410d5d60410d5f0e410d60bb410d6269410d6418410d65c6410d6775410d6923410d6ad2410d6c81410d6e31410d6fe0410d7190410d7340410d74f0410d76a0410d7850410d7a01410d7bb1410d7d62410d7f13410d80c4410d8276410d8428410d85d9410d878b410d893d410d8af0410d8ca2410d8e55410d9008410d91bb410d936e410d9521410d96d5410d9889410d9a3d410d9bf1410d9da5410d9f5a410da10e410da2c3410da478410da62d410da7e3410da998410dab4e410dad04410daeba410db070410db227410db3de410db594410db74b410db903410dbaba410dbc72410dbe29410dbfe1410dc19a410dc352410dc50a410dc6c3410dc87c410dca35410dcbee410dcda8410dcf61410dd11b410dd2d5410dd48f410dd64a410dd804410dd9bf410ddb7a410ddd35410ddef0410de0ac410de268410de424410de5e0410de79c410de958410deb15410decd2410dee8f410df04c410df209410df3c7410df585410df743410df901410dfabf410dfc7e410dfe3c410dfffb410e01ba410e037a410e0539410e06f9410e08b9410e0a79410e0c39410e0df9410e0fba410e117b410e133c410e14fd410e16be410e1880410e1a42410e1c04410e1dc6410e1f88410e214b410e230d410e24d0410e2693410e2857410e2a1a410e2bde410e2da2410e2f66410e312a410e32ef410e34b3410e3678410e383d410e3a03410e3bc8410e3d8e410e3f54410e411a410e42e0410e44a6410e466d410e4834410e49fb,
  0x410b156d410b16e2410b1856410b19cb410b1b40410b1cb5410b1e2b410b1fa0410b2115410b228b410b2401410b2577410b26ed410b2863410b29d9410b2b50410b2cc6410b2e3d410b2fb4410b312b410b32a2410b3419410b3591410b3708410b3880410b39f8410b3b70410b3ce8410b3e60410b3fd8410b4151410b42c9410b4442410b45bb410b4734410b48ad410b4a26410b4ba0410b4d19410b4e93410b500d410b5187410b5301410b547b410b55f6410b5770410b58eb410b5a66410b5be0410b5d5c410b5ed7410b6052410b61ce410b6349410b64c5410b6641410b67bd410b6939410b6ab5410b6c32410b6dae410b6f2b410b70a8410b7225410b73a2410b751f410b769d410b781a410b7998410b7b16410b7c94410b7e12410b7f90410b810e410b828d410b840b410b858a410b8709410b8888410b8a07410b8b87410b8d06410b8e86410b9006410b9186410b9306410b9486410b9606410b9787410b9907410b9a88410b9c09410b9d8a410b9f0b410ba08d410ba20e410ba390410ba511410ba693410ba815410ba997410bab1a410bac9c410bae1f410bafa2410bb124410bb2a7410bb42b410bb5ae410bb731410bb8b5410bba39410bbbbd410bbd41410bbec5410bc049410bc1ce410bc352410bc4d7410bc65c410bc7e1410bc966410bcaeb410bcc71410bcdf7410bcf7c410bd102410bd288410bd40e410bd595410bd71b410bd8a2410bda29410bdbb0410bdd37410bdebe410be045410be1cd410be354410be4dc410be664410be7ec410be975410beafd410bec86410bee0e410bef97410bf120410bf2a9410bf432410bf5bc410bf745410bf8cf410bfa59410bfbe3410bfd6d410bfef7410c0082410c020c410c0397410c0522410c06ad410c0838410c09c4410c0b4f410c0cdb410c0e67410c0ff3410c117f410c130b410c1497410c1624410c17b1410c193d410c1aca410c1c58410c1de5410c1f72410c2100410c228e410c241c410c25aa410c2738410c28c6410c2a55410c2be3410c2d72410c2f01410c3090410c321f410c33af410c353e410c36ce410c385e410c39ee410c3b7e410c3d0f410c3e9f410c4030410c41c0410c4351410c44e2410c4674410c4805410c4997410c4b28410c4cba410c4e4c410c4fde410c5171410c5303410c5496410c5629410c57bc410c594f410c5ae2410c5c75410c5e09410c5f9d410c6130410c62c5410c6459410c65ed410c6782410c6916410c6aab410c6c40410c6dd5410c6f6a410c7100410c7295410c742b410c75c1410c7757410c78ed410c7a84410c7c1a410c7db1410c7f48410c80df410c8276410c840d410c85a5410c873c410c88d4410c8a6c410c8c04410c8d9d410c8f35410c90ce410c9266410c93ff410c9598410c9732410c98cb410c9a64,
  0x4109b0e04109b2354109b38b4109b4e14109b6374109b78d4109b8e34109ba394109bb8f4109bce64109be3c4109bf934109c0ea4109c2414109c3974109c4ef4109c6464109c79d4109c8f54109ca4c4109cba44109ccfc4109ce534109cfab4109d1044109d25c4109d3b44109d50d4109d6654109d7be4109d9174109da6f4109dbc84109dd224109de7b4109dfd44109e12e4109e2874109e3e14109e53b4109e6954109e7ef4109e9494109eaa34109ebfe4109ed584109eeb34109f00d4109f1684109f2c34109f41e4109f5794109f6d54109f8304109f98c4109fae74109fc434109fd9f4109fefb410a0057410a01b3410a0310410a046c410a05c9410a0725410a0882410a09df410a0b3c410a0c99410a0df6410a0f54410a10b1410a120f410a136d410a14cb410a1628410a1787410a18e5410a1a43410a1ba2410a1d00410a1e5f410a1fbe410a211c410a227b410a23db410a253a410a2699410a27f9410a2958410a2ab8410a2c18410a2d78410a2ed8410a3038410a3198410a32f9410a3459410a35ba410a371b410a387c410a39dd410a3b3e410a3c9f410a3e01410a3f62410a40c4410a4225410a4387410a44e9410a464b410a47ae410a4910410a4a72410a4bd5410a4d38410a4e9b410a4ffd410a5161410a52c4410a5427410a558a410a56ee410a5852410a59b5410a5b19410a5c7d410a5de1410a5f46410a60aa410a620f410a6373410a64d8410a663d410a67a2410a6907410a6a6c410a6bd2410a6d37410a6e9d410a7002410a7168410a72ce410a7434410a759b410a7701410a7867410a79ce410a7b35410a7c9b410a7e02410a7f69410a80d1410a8238410a839f410a8507410a866f410a87d6410a893e410a8aa6410a8c0f410a8d77410a8edf410a9048410a91b1410a9319410a9482410a95eb410a9755410a98be410a9a27410a9b91410a9cfa410a9e64410a9fce410aa138410aa2a2410aa40d410aa577410aa6e2410aa84c410aa9b7410aab22410aac8d410aadf8410aaf64410ab0cf410ab23b410ab3a6410ab512410ab67e410ab7ea410ab956410abac3410abc2f410abd9c410abf08410ac075410ac1e2410ac34f410ac4bc410ac62a410ac797410ac905410aca72410acbe0410acd4e410acebc410ad02a410ad199410ad307410ad476410ad5e5410ad753410ad8c2410ada32410adba1410add10410ade80410adfef410ae15f410ae2cf410ae43f410ae5af410ae71f410ae890410aea00410aeb71410aece2410aee53410aefc4410af135410af2a6410af418410af589410af6fb410af86d410af9df410afb51410afcc3410afe35410affa8410b011b410b028d410b0400410b0573410b06e6410b085a410b09cd410b0b41410b0cb4410b0e28410b0f9c410b1110410b1284410b13f9,
  0x410868e341086a1e41086b5941086c9541086dd041086f0c4108704841087184410872bf410873fb4108753841087674410877b0410878ec41087a2941087b6641087ca241087ddf41087f1c4108805941088196410882d3410884104108854e4108868b410887c94108890641088a4441088b8241088cc041088dfe41088f3c4108907a410891b8410892f74108943541089574410896b3410897f14108993041089a6f41089bae41089cee41089e2d41089f6c4108a0ac4108a1eb4108a32b4108a46b4108a5ab4108a6eb4108a82b4108a96b4108aaab4108abeb4108ad2c4108ae6c4108afad4108b0ee4108b22f4108b3704108b4b14108b5f24108b7334108b8744108b9b64108baf74108bc394108bd7b4108bebc4108bffe4108c1404108c2834108c3c54108c5074108c6494108c78c4108c8cf4108ca114108cb544108cc974108cdda4108cf1d4108d0604108d1a44108d2e74108d42b4108d56e4108d6b24108d7f64108d93a4108da7e4108dbc24108dd064108de4a4108df8f4108e0d34108e2184108e35d4108e4a24108e5e64108e72b4108e8714108e9b64108eafb4108ec414108ed864108eecc4108f0114108f1574108f29d4108f3e34108f5294108f6704108f7b64108f8fc4108fa434108fb8a4108fcd04108fe174108ff5e410900a5410901ec410903334109047b410905c24109070a410908524109099941090ae141090c2941090d7141090eb9410910024109114a41091292410913db410915244109166d410917b5410918fe41091a4841091b9141091cda41091e2341091f6d410920b7410922004109234a41092494410925de4109272841092872410929bd41092b0741092c5241092d9c41092ee7410930324109317d410932c8410934134109355f410936aa410937f54109394141093a8d41093bd941093d2441093e7141093fbd4109410941094255410943a2410944ee4109463b41094788410948d441094a2141094b6e41094cbc41094e0941094f56410950a4410951f14109533f4109548d410955db4109572941095877410959c541095b1441095c6241095db141095eff4109604e4109619d410962ec4109643b4109658a410966da410968294109697841096ac841096c1841096d6841096eb84109700841097158410972a8410973f8410975494109769a410977ea4109793b41097a8c41097bdd41097d2e41097e7f41097fd14109812241098274410983c64109851741098669410987bb4109890d41098a6041098bb241098d0441098e5741098faa410990fc4109924f410993a2410994f5410996494109979c410998ef41099a4341099b9641099cea41099e3e41099f924109a0e64109a23a4109a38f4109a4e34109a6384109a78c4109a8e14109aa364109ab8b4109ace04109ae354109af8a,
  0x4107393841073a5d41073b8241073ca741073dcc41073ef1410740164107413b4107426141074386410744ab410745d1410746f74107481c4107494241074a6841074b8e41074cb441074dda41074f00410750274107514d410752734107539a410754c0410755e74107570e410758354107595c41075a8341075baa41075cd141075df841075f20410760474107616f41076296410763be410764e64107660e410767364107685e4107698641076aae41076bd641076cff41076e2741076f5041077078410771a1410772ca410773f34107751c410776454107776e41077897410779c041077aea41077c1341077d3d41077e6641077f90410780ba410781e44107830e41078438410785624107868c410787b6410788e141078a0b41078b3641078c6041078d8b41078eb641078fe14107910c41079237410793624107948d410795b8410796e44107980f4107993b41079a6741079b9241079cbe41079dea41079f164107a0424107a16e4107a29b4107a3c74107a4f44107a6204107a74d4107a8794107a9a64107aad34107ac004107ad2d4107ae5a4107af874107b0b54107b1e24107b3104107b43d4107b56b4107b6984107b7c64107b8f44107ba224107bb504107bc7e4107bdad4107bedb4107c0094107c1384107c2674107c3954107c4c44107c5f34107c7224107c8514107c9804107caaf4107cbdf4107cd0e4107ce3e4107cf6d4107d09d4107d1cc4107d2fc4107d42c4107d55c4107d68c4107d7bd4107d8ed4107da1d4107db4e4107dc7e4107ddaf4107dee04107e0104107e1414107e2724107e3a34107e4d44107e6064107e7374107e8684107e99a4107eacc4107ebfd4107ed2f4107ee614107ef934107f0c54107f1f74107f3294107f45c4107f58e4107f6c14107f7f34107f9264107fa594107fb8b4107fcbe4107fdf14107ff25410800584108018b410802be410803f241080525410806594108078d410808c1410809f541080b2941080c5d41080d9141080ec541080ffa4108112e4108126341081397410814cc41081601410817364108186b410819a041081ad541081c0b41081d4041081e7641081fab410820e1410822174108234c41082482410825b8410826ee410828254108295b41082a9141082bc841082cfe41082e3541082f6c410830a3410831da41083311410834484108357f410836b6410837ee4108392541083a5d41083b9541083ccc41083e0441083f3c41084074410841ac410842e54108441d410845554108468e410847c7410848ff41084a3841084b7141084caa41084de341084f1c410850564108518f410852c8410854024108553c41085675410857af410858e941085a2341085b5d41085c9741085dd241085f0c4108604741086181410862bc410863f7410865324108666d410867a8,
  0x41061e8541061f96410620a7410621b8410622ca410623db410624ed410625ff41062710410628224106293441062a4641062b5841062c6a41062d7c41062e8e41062fa0410630b3410631c5410632d8410633ea410634fd4106361041063722410638354106394841063a5b41063b6e41063c8141063d9541063ea841063fbb410640cf410641e2410642f6410644094106451d4106463141064745410648594106496d41064a8141064b9541064ca941064dbd41064ed241064fe6410650fb4106520f41065324410654394106554e41065663410657774106588c410659a241065ab741065bcc41065ce141065df741065f0c41066022410661374106624d41066363410664794106658f410666a5410667bb410668d1410669e741066afd41066c1441066d2a41066e4041066f574106706e410671844106729b410673b2410674c9410675e0410676f74106780e4106792641067a3d41067b5441067c6c41067d8341067e9b41067fb3410680ca410681e2410682fa410684124106852a410686424106875b410688734106898b41068aa441068bbc41068cd541068ded41068f064106901f41069138410692514106936a410694834106959c410696b5410697cf410698e841069a0241069b1b41069c3541069d4f41069e6841069f824106a09c4106a1b64106a2d04106a3ea4106a5054106a61f4106a7394106a8544106a96e4106aa894106aba44106acbf4106add94106aef44106b00f4106b12a4106b2464106b3614106b47c4106b5984106b6b34106b7cf4106b8ea4106ba064106bb224106bc3d4106bd594106be754106bf924106c0ae4106c1ca4106c2e64106c4034106c51f4106c63c4106c7584106c8754106c9924106caaf4106cbcc4106cce94106ce064106cf234106d0404106d15d4106d27b4106d3984106d4b64106d5d34106d6f14106d80f4106d92d4106da4b4106db694106dc874106dda54106dec34106dfe24106e1004106e21e4106e33d4106e45c4106e57a4106e6994106e7b84106e8d74106e9f64106eb154106ec344106ed544106ee734106ef924106f0b24106f1d24106f2f14106f4114106f5314106f6514106f7714106f8914106f9b14106fad14106fbf14106fd124106fe324106ff534107007341070194410702b5410703d6410704f741070618410707394107085a4107097b41070a9c41070bbe41070cdf41070e0141070f23410710444107116641071288410713aa410714cc410715ee41071710410718334107195541071a7841071b9a41071cbd41071ddf41071f0241072025410721484107226b4107238e410724b1410725d5410726f84107281b4107293f41072a6241072b8641072caa41072dce41072ef2410730164107313a4107325e41073382410734a6410735cb410736ef41073814,
  0x4105161241051712410518124105191341051a1341051b1341051c1441051d1441051e1541051f1541052016410521174105221841052319410524194105251a4105261c4105271d4105281e4105291f41052a2041052b2241052c2341052d2541052e2641052f284105302a4105312b4105322d4105332f410534314105353341053635410537374105383a4105393c41053a3e41053b4141053c4341053d4641053e4841053f4b4105404d410541504105425341054356410544594105455c4105465f41054762410548664105496941054a6c41054b7041054c7341054d7741054e7a41054f7e4105508241055185410552894105538d4105549141055595410556994105579e410558a2410559a641055aab41055baf41055cb441055db841055ebd41055fc1410560c6410561cb410562d0410563d5410564da410565df410566e4410567e9410568ef410569f441056afa41056bff41056d0541056e0a41056f10410570164105711b41057221410573274105742d410575334105763a41057740410578464105794c41057a5341057b5941057c6041057d6641057e6d41057f744105807b41058181410582884105838f410584964105859e410586a5410587ac410588b3410589bb41058ac241058bca41058cd141058dd941058ee141058fe8410590f0410591f84105930041059408410595104105961941059721410598294105993241059a3a41059b4341059c4b41059d5441059e5d41059f654105a06e4105a1774105a2804105a3894105a4924105a59b4105a6a54105a7ae4105a8b74105a9c14105aaca4105abd44105acde4105ade74105aef14105affb4105b1054105b20f4105b3194105b4234105b52d4105b6384105b7424105b84c4105b9574105ba614105bb6c4105bc774105bd814105be8c4105bf974105c0a24105c1ad4105c2b84105c3c34105c4cf4105c5da4105c6e54105c7f14105c8fc4105ca084105cb134105cc1f4105cd2b4105ce374105cf424105d04e4105d15b4105d2674105d3734105d47f4105d58b4105d6984105d7a44105d8b14105d9bd4105daca4105dbd74105dce34105ddf04105defd4105e00a4105e1174105e2244105e3324105e43f4105e54c4105e65a4105e7674105e8754105e9824105ea904105eb9e4105ecac4105edba4105eec84105efd64105f0e44105f1f24105f3004105f40e4105f51d4105f62b4105f73a4105f8484105f9574105fa664105fb754105fc834105fd924105fea14105ffb1410600c0410601cf410602de410603ee410604fd4106060c4106071c4106082c4106093b41060a4b41060b5b41060c6b41060d7b41060e8b41060f9b410610ab410611bc410612cc410613dd410614ed410615fe4106170e4106181f4106193041061a4141061b5141061c6241061d74] ++
  [0x41051512]

/-- R420, GUMB lower side level 2: entry j for j = 0 to 4,096. -/
def gumbL2 : List Nat :=
  [0xc03dd132c03dd483c03dd7d7c03ddb2ec03dde89c03de1e6c03de547c03de8acc03dec13c03def7ec03df2edc03df65fc03df9d4c03dfd4dc03e00c9c03e0448c03e07ccc03e0b53c03e0eddc03e126bc03e15fdc03e1992c03e1d2bc03e20c8c03e2469c03e280ec03e2bb6c03e2f62c03e3312c03e36c7c03e3a7fc03e3e3bc03e41fbc03e45bfc03e4988c03e4d54c03e5125c03e54fac03e58d4c03e5cb1c03e6093c03e647ac03e6865c03e6c54c03e7048c03e7440c03e783dc03e7c3fc03e8045c03e8450c03e8860c03e8c75c03e908ec03e94adc03e98d0c03e9cf9c03ea126c03ea559c03ea991c03eadcec03eb210c03eb658c03ebaa5c03ebef7c03ec34fc03ec7acc03ecc0fc03ed078c03ed4e6c03ed95bc03eddd5c03ee254c03ee6dac03eeb66c03eeff8c03ef490c03ef92fc03efdd3c03f027ec03f0730c03f0be8c03f10a6c03f156bc03f1a37c03f1f0ac03f23e3c03f28c4c03f2dabc03f329ac03f3790c03f3c8dc03f4191c03f469dc03f4bb1c03f50ccc03f55efc03f5b19c03f604cc03f6586c03f6ac9c03f7014c03f7568c03f7ac3c03f8028c03f8594c03f8b0ac03f9089c03f9610c03f9ba1c03fa13bc03fa6dec03fac8bc03fb241c03fb802c03fbdccc03fc3a0c03fc97ec03fcf66c03fd559c03fdb57c03fe15fc03fe772c03fed91c03ff3bac03ff9efc040002fc040067cc0400cd4c0401338c04019a9c0402026c04026afc0402d46c04033e9c0403a9ac0404159c0404825c0404effc04055e7c0405cdec04063e3c0406af8c040721bc040794ec0408091c04087e3c0408f46c04096bac0409e3ec040a5d3c040ad7ac040b533c040bcfec040c4dcc040ccccc040d4d0c040dce7c040e512c040ed51c040f5a6c040fe0fc041068ec0410f24c04117d0c0412093c041296dc0413260c0413b6bc041448fc0414dcec0415726c0416099c0416a28c04173d3c0417d9cc0418781c0419185c0419ba8c041a5ebc041b04ec041bad3c041c57bc041d045c041db34c041e649c041f183c041fce5c042086fc0421423c0422002c0422c0dc0423845c04244acc0425144c0425e0ec0426b0bc042783dc04285a6c0429348c042a125c042af3ec042bd97c042cc31c042db0fc042ea33c042f9a0c043095ac0431962c04329bcc0433a6dc0434b76c0435cddc0436ea6c04380d4c043936ec043a677c043b9f6c043cdf0c043e26cc043f772c0440d07c0442335c0443a05c0445180c04469b0c04482a2c0449c63c044b700c044d289c044ef10c0450ca7c0452b66c0454b63c0456cbcc0458f90c045b402c045da3cc0460270c0462cd4c04659abc0468946c046bc02c046f255c0472ccdc0476c21c047b137c047fd40c04851d5c048b133c0491e9bc0499f13c04a3af1c04b01bbc04c15e0c04de36d00000000,
  0xc03b7bc1c03b7d78c03b7f30c03b80e9c03b82a2c03b845cc03b8617c03b87d3c03b8990c03b8b4dc03b8d0cc03b8ecbc03b908bc03b924cc03b940ec03b95d0c03b9794c03b9958c03b9b1ec03b9ce4c03b9eabc03ba073c03ba23bc03ba405c03ba5cfc03ba79bc03ba967c03bab34c03bad03c03baed2c03bb0a1c03bb272c03bb444c03bb617c03bb7eac03bb9bfc03bbb94c03bbd6bc03bbf42c03bc11ac03bc2f4c03bc4cec03bc6a9c03bc885c03bca62c03bcc40c03bce1fc03bcfffc03bd1e0c03bd3c2c03bd5a5c03bd789c03bd96ec03bdb54c03bdd3bc03bdf23c03be10cc03be2f6c03be4e1c03be6cdc03be8bac03beaa8c03bec97c03bee87c03bf078c03bf26bc03bf45ec03bf653c03bf848c03bfa3fc03bfc36c03bfe2fc03c0029c03c0224c03c0420c03c061dc03c081bc03c0a1ac03c0c1bc03c0e1cc03c101fc03c1223c03c1428c03c162ec03c1835c03c1a3dc03c1c47c03c1e52c03c205ec03c226bc03c2479c03c2688c03c2899c03c2aabc03c2cbec03c2ed2c03c30e7c03c32fec03c3516c03c372fc03c3949c03c3b65c03c3d82c03c3fa0c03c41bfc03c43e0c03c4602c03c4825c03c4a49c03c4c6fc03c4e96c03c50bec03c52e8c03c5513c03c573fc03c596dc03c5b9cc03c5dccc03c5ffec03c6231c03c6465c03c669bc03c68d2c03c6b0bc03c6d44c03c6f80c03c71bcc03c73fac03c763ac03c787bc03c7abdc03c7d01c03c7f46c03c818dc03c83d5c03c861fc03c886ac03c8ab7c03c8d05c03c8f54c03c91a5c03c93f8c03c964cc03c98a2c03c9af9c03c9d52c03c9facc03ca208c03ca465c03ca6c5c03ca925c03cab87c03cadebc03cb051c03cb2b8c03cb521c03cb78bc03cb9f7c03cbc65c03cbed4c03cc145c03cc3b8c03cc62cc03cc8a2c03ccb1ac03ccd94c03cd00fc03cd28cc03cd50bc03cd78bc03cda0ec03cdc92c03cdf18c03ce1a0c03ce429c03ce6b5c03ce942c03cebd1c03cee62c03cf0f5c03cf38ac03cf620c03cf8b9c03cfb53c03cfdefc03d008ec03d032ec03d05d0c03d0874c03d0b1bc03d0dc3c03d106dc03d1319c03d15c7c03d1878c03d1b2ac03d1ddfc03d2095c03d234ec03d2608c03d28c5c03d2b84c03d2e45c03d3109c03d33cec03d3696c03d3960c03d3c2cc03d3efac03d41cbc03d449ec03d4773c03d4a4ac03d4d24c03d5000c03d52dfc03d55c0c03d58a3c03d5b88c03d5e70c03d615bc03d6447c03d6737c03d6a28c03d6d1dc03d7013c03d730dc03d7608c03d7907c03d7c08c03d7f0bc03d8211c03d851ac03d8825c03d8b33c03d8e44c03d9157c03d946dc03d9786c03d9aa2c03d9dc0c03da0e2c03da406c03da72cc03daa56c03dad83c03db0b2c03db3e5c03db71ac03dba52c03dbd8ec03dc0ccc03dc40ec03dc752c03dca99c03dcde4,
  0xc03a1458c03a1583c03a16aec03a17dac03a1906c03a1a32c03a1b5fc03a1c8cc03a1db9c03a1ee7c03a2015c03a2144c03a2273c03a23a2c03a24d2c03a2602c03a2732c03a2863c03a2994c03a2ac6c03a2bf8c03a2d2ac03a2e5dc03a2f90c03a30c4c03a31f8c03a332cc03a3461c03a3596c03a36cbc03a3801c03a3938c03a3a6ec03a3ba6c03a3cddc03a3e15c03a3f4dc03a4086c03a41bfc03a42f9c03a4433c03a456dc03a46a8c03a47e3c03a491fc03a4a5bc03a4b97c03a4cd4c03a4e11c03a4f4fc03a508dc03a51cbc03a530ac03a544ac03a558ac03a56cac03a580ac03a594bc03a5a8dc03a5bcfc03a5d11c03a5e54c03a5f97c03a60dbc03a621fc03a6363c03a64a8c03a65eec03a6733c03a687ac03a69c0c03a6b08c03a6c4fc03a6d97c03a6ee0c03a7029c03a7172c03a72bcc03a7406c03a7551c03a769cc03a77e8c03a7934c03a7a80c03a7bcec03a7d1bc03a7e69c03a7fb7c03a8106c03a8256c03a83a5c03a84f6c03a8647c03a8798c03a88e9c03a8a3cc03a8b8ec03a8ce1c03a8e35c03a8f89c03a90dec03a9233c03a9388c03a94dec03a9635c03a978cc03a98e3c03a9a3bc03a9b94c03a9cedc03a9e46c03a9fa0c03aa0fbc03aa256c03aa3b1c03aa50dc03aa66ac03aa7c7c03aa924c03aaa82c03aabe1c03aad40c03aae9fc03aafffc03ab160c03ab2c1c03ab423c03ab585c03ab6e7c03ab84bc03ab9aec03abb13c03abc77c03abdddc03abf43c03ac0a9c03ac210c03ac377c03ac4dfc03ac648c03ac7b1c03ac91bc03aca85c03acbefc03acd5bc03acec7c03ad033c03ad1a0c03ad30dc03ad47bc03ad5eac03ad759c03ad8c9c03ada39c03adbaac03add1cc03ade8ec03ae000c03ae173c03ae2e7c03ae45bc03ae5d0c03ae746c03ae8bcc03aea32c03aebaac03aed21c03aee9ac03af013c03af18dc03af307c03af482c03af5fdc03af779c03af8f6c03afa73c03afbf1c03afd6fc03afeeec03b006ec03b01eec03b036fc03b04f1c03b0673c03b07f6c03b0979c03b0afdc03b0c82c03b0e07c03b0f8dc03b1114c03b129bc03b1423c03b15abc03b1734c03b18bec03b1a49c03b1bd4c03b1d60c03b1eecc03b2079c03b2207c03b2395c03b2524c03b26b4c03b2845c03b29d6c03b2b67c03b2cfac03b2e8dc03b3021c03b31b5c03b334bc03b34e1c03b3677c03b380ec03b39a6c03b3b3fc03b3cd9c03b3e73c03b400dc03b41a9c03b4345c03b44e2c03b4680c03b481ec03b49bdc03b4b5dc03b4cfec03b4e9fc03b5041c03b51e4c03b5387c03b552cc03b56d1c03b5877c03b5a1dc03b5bc4c03b5d6cc03b5f15c03b60bfc03b6269c03b6414c03b65c0c03b676cc03b691ac03b6ac8c03b6c77c03b6e27c03b6fd7c03b7189c03b733bc03b74eec03b76a1c03b7856c03b7a0b,
  0xc0391098c039117cc0391260c0391344c0391428c039150cc03915f1c03916d6c03917bbc03918a0c0391986c0391a6bc0391b51c0391c37c0391d1ec0391e04c0391eebc0391fd2c03920b9c03921a1c0392288c0392370c0392458c0392541c0392629c0392712c03927fbc03928e4c03929cec0392ab7c0392ba1c0392c8bc0392d76c0392e60c0392f4bc0393036c0393121c039320cc03932f8c03933e4c03934d0c03935bcc03936a9c0393796c0393883c0393970c0393a5ec0393b4bc0393c39c0393d27c0393e16c0393f04c0393ff3c03940e2c03941d2c03942c1c03943b1c03944a1c0394591c0394682c0394773c0394864c0394955c0394a46c0394b38c0394c2ac0394d1cc0394e0ec0394f01c0394ff4c03950e7c03951dac03952cec03953c2c03954b6c03955aac039569fc0395794c0395889c039597ec0395a74c0395b69c0395c5fc0395d56c0395e4cc0395f43c039603ac0396131c0396229c0396321c0396419c0396511c039660ac0396702c03967fcc03968f5c03969eec0396ae8c0396be2c0396cddc0396dd7c0396ed2c0396fcdc03970c8c03971c4c03972c0c03973bcc03974b8c03975b5c03976b2c03977afc03978adc03979aac0397aa8c0397ba6c0397ca5c0397da4c0397ea3c0397fa2c03980a1c03981a1c03982a1c03983a2c03984a2c03985a3c03986a4c03987a6c03988a8c03989aac0398aacc0398baec0398cb1c0398db4c0398eb7c0398fbbc03990bfc03991c3c03992c8c03993ccc03994d1c03995d7c03996dcc03997e2c03998e8c03999efc0399af5c0399bfcc0399d03c0399e0bc0399f13c039a01bc039a123c039a22cc039a335c039a43ec039a548c039a652c039a75cc039a866c039a971c039aa7cc039ab87c039ac93c039ad9fc039aeabc039afb7c039b0c4c039b1d1c039b2dec039b3ecc039b4fac039b608c039b717c039b826c039b935c039ba44c039bb54c039bc64c039bd75c039be85c039bf96c039c0a8c039c1b9c039c2cbc039c3ddc039c4f0c039c603c039c716c039c829c039c93dc039ca51c039cb65c039cc7ac039cd8fc039cea4c039cfbac039d0d0c039d1e6c039d2fdc039d414c039d52bc039d643c039d75ac039d873c039d98bc039daa4c039dbbdc039dcd7c039ddf1c039df0bc039e025c039e140c039e25bc039e377c039e492c039e5afc039e6cbc039e7e8c039e905c039ea22c039eb40c039ec5ec039ed7dc039ee9cc039efbbc039f0dac039f1fac039f31ac039f43bc039f55cc039f67dc039f79fc039f8c0c039f9e3c039fb05c039fc28c039fd4bc039fe6fc039ff93c03a00b7c03a01dcc03a0301c03a0427c03a054cc03a0673c03a0799c03a08c0c03a09e7c03a0b0fc03a0c36c03a0d5fc03a0e87c03a0fb0c03a10dac03a1203c03a132e,
  0xc038444bc0384504c03845bcc0384675c038472ec03847e6c038489fc0384958c0384a12c0384acbc0384b85c0384c3ec0384cf8c0384db2c0384e6cc0384f26c0384fe1c038509bc0385156c0385211c03852ccc0385387c0385442c03854fdc03855b9c0385674c0385730c03857ecc03858a8c0385964c0385a21c0385addc0385b9ac0385c57c0385d14c0385dd1c0385e8ec0385f4bc0386009c03860c6c0386184c0386242c0386300c03863bec038647dc038653bc03865fac03866b9c0386778c0386837c03868f6c03869b5c0386a75c0386b34c0386bf4c0386cb4c0386d74c0386e35c0386ef5c0386fb6c0387076c0387137c03871f8c03872b9c038737bc038743cc03874fec03875bfc0387681c0387743c0387806c03878c8c038798bc0387a4dc0387b10c0387bd3c0387c96c0387d59c0387e1dc0387ee0c0387fa4c0388068c038812cc03881f0c03882b5c0388379c038843ec0388503c03885c8c038868dc0388752c0388818c03888ddc03889a3c0388a69c0388b2fc0388bf5c0388cbcc0388d82c0388e49c0388f10c0388fd7c038909ec0389165c038922dc03892f5c03893bcc0389484c038954dc0389615c03896ddc03897a6c038986fc0389938c0389a01c0389acac0389b94c0389c5dc0389d27c0389df1c0389ebbc0389f85c038a050c038a11ac038a1e5c038a2b0c038a37bc038a447c038a512c038a5dec038a6a9c038a775c038a841c038a90ec038a9dac038aaa7c038ab74c038ac41c038ad0ec038addbc038aea8c038af76c038b044c038b112c038b1e0c038b2aec038b37dc038b44bc038b51ac038b5e9c038b6b8c038b788c038b857c038b927c038b9f7c038bac7c038bb97c038bc68c038bd38c038be09c038bedac038bfabc038c07cc038c14ec038c21fc038c2f1c038c3c3c038c495c038c568c038c63ac038c70dc038c7e0c038c8b3c038c986c038ca59c038cb2dc038cc01c038ccd5c038cda9c038ce7dc038cf52c038d026c038d0fbc038d1d0c038d2a6c038d37bc038d451c038d526c038d5fcc038d6d3c038d7a9c038d87fc038d956c038da2dc038db04c038dbdcc038dcb3c038dd8bc038de63c038df3bc038e013c038e0ebc038e1c4c038e29dc038e376c038e44fc038e528c038e602c038e6dbc038e7b5c038e890c038e96ac038ea44c038eb1fc038ebfac038ecd5c038edb0c038ee8cc038ef68c038f043c038f120c038f1fcc038f2d8c038f3b5c038f492c038f56fc038f64cc038f72ac038f807c038f8e5c038f9c3c038faa1c038fb80c038fc5fc038fd3dc038fe1dc038fefcc038ffdbc03900bbc039019bc039027bc039035bc039043cc039051cc03905fdc03906dec03907c0c03908a1c0390983c0390a65c0390b47c0390c29c0390d0cc0390defc0390ed2c0390fb5,
  0xc0379b7cc0379c17c0379cb3c0379d4ec0379de9c0379e85c0379f21c0379fbcc037a058c037a0f4c037a190c037a22cc037a2c8c037a365c037a401c037a49ec037a53ac037a5d7c037a674c037a711c037a7aec037a84bc037a8e8c037a985c037aa22c037aac0c037ab5dc037abfbc037ac99c037ad37c037add5c037ae73c037af11c037afafc037b04ec037b0ecc037b18bc037b229c037b2c8c037b367c037b406c037b4a5c037b544c037b5e3c037b683c037b722c037b7c2c037b861c037b901c037b9a1c037ba41c037bae1c037bb81c037bc22c037bcc2c037bd62c037be03c037bea4c037bf45c037bfe5c037c086c037c128c037c1c9c037c26ac037c30bc037c3adc037c44fc037c4f0c037c592c037c634c037c6d6c037c778c037c81ac037c8bdc037c95fc037ca02c037caa4c037cb47c037cbeac037cc8dc037cd30c037cdd3c037ce77c037cf1ac037cfbec037d061c037d105c037d1a9c037d24dc037d2f1c037d395c037d439c037d4ddc037d582c037d627c037d6cbc037d770c037d815c037d8bac037d95fc037da04c037daaac037db4fc037dbf5c037dc9ac037dd40c037dde6c037de8cc037df32c037dfd8c037e07ec037e125c037e1cbc037e272c037e319c037e3c0c037e467c037e50ec037e5b5c037e65cc037e704c037e7abc037e853c037e8fbc037e9a3c037ea4bc037eaf3c037eb9bc037ec43c037ececc037ed94c037ee3dc037eee6c037ef8fc037f038c037f0e1c037f18ac037f233c037f2ddc037f386c037f430c037f4dac037f584c037f62ec037f6d8c037f782c037f82cc037f8d7c037f982c037fa2cc037fad7c037fb82c037fc2dc037fcd8c037fd84c037fe2fc037fedbc037ff86c0380032c03800dec038018ac0380236c03802e2c038038fc038043bc03804e8c0380595c0380641c03806eec038079cc0380849c03808f6c03809a4c0380a51c0380affc0380badc0380c5ac0380d09c0380db7c0380e65c0380f13c0380fc2c0381071c038111fc03811cec038127dc038132cc03813dcc038148bc038153bc03815eac038169ac038174ac03817fac03818aac038195ac0381a0bc0381abbc0381b6cc0381c1dc0381ccdc0381d7ec0381e2fc0381ee1c0381f92c0382044c03820f5c03821a7c0382259c038230bc03823bdc038246fc0382522c03825d4c0382687c038273ac03827edc03828a0c0382953c0382a06c0382ab9c0382b6dc0382c21c0382cd4c0382d88c0382e3cc0382ef1c0382fa5c0383059c038310ec03831c3c0383277c038332cc03833e2c0383497c038354cc0383602c03836b7c038376dc0383823c03838d9c038398fc0383a45c0383afcc0383bb2c0383c69c0383d20c0383dd7c0383e8ec0383f45c0383ffcc03840b4c038416cc0384223c03842dbc0384393,
  0xc0370b68c0370beec0370c74c0370cfac0370d81c0370e07c0370e8ec0370f14c0370f9bc0371022c03710a8c037112fc03711b6c037123dc03712c4c037134bc03713d3c037145ac03714e1c0371569c03715f0c0371678c03716ffc0371787c037180fc0371897c037191fc03719a7c0371a2fc0371ab7c0371b3fc0371bc7c0371c50c0371cd8c0371d61c0371de9c0371e72c0371efbc0371f84c037200cc0372095c037211ec03721a8c0372231c03722bac0372343c03723cdc0372456c03724e0c0372569c03725f3c037267dc0372707c0372791c037281bc03728a5c037292fc03729b9c0372a43c0372acec0372b58c0372be3c0372c6dc0372cf8c0372d83c0372e0dc0372e98c0372f23c0372faec037303ac03730c5c0373150c03731dbc0373267c03732f2c037337ec037340ac0373495c0373521c03735adc0373639c03736c5c0373751c03737ddc037386ac03738f6c0373982c0373a0fc0373a9cc0373b28c0373bb5c0373c42c0373ccfc0373d5cc0373de9c0373e76c0373f03c0373f90c037401ec03740abc0374139c03741c6c0374254c03742e2c0374370c03743fec037448cc037451ac03745a8c0374636c03746c4c0374753c03747e1c0374870c03748ffc037498dc0374a1cc0374aabc0374b3ac0374bc9c0374c58c0374ce7c0374d77c0374e06c0374e95c0374f25c0374fb5c0375044c03750d4c0375164c03751f4c0375284c0375314c03753a4c0375434c03754c5c0375555c03755e6c0375676c0375707c0375798c0375829c03758bac037594bc03759dcc0375a6dc0375afec0375b8fc0375c21c0375cb2c0375d44c0375dd6c0375e67c0375ef9c0375f8bc037601dc03760afc0376141c03761d4c0376266c03762f9c037638bc037641ec03764b0c0376543c03765d6c0376669c03766fcc037678fc0376822c03768b6c0376949c03769dcc0376a70c0376b04c0376b97c0376c2bc0376cbfc0376d53c0376de7c0376e7bc0376f0fc0376fa4c0377038c03770cdc0377161c03771f6c037728bc037731fc03773b4c0377449c03774dfc0377574c0377609c037769ec0377734c03777c9c037785fc03778f5c037798bc0377a21c0377ab6c0377b4dc0377be3c0377c79c0377d0fc0377da6c0377e3cc0377ed3c0377f6ac0378000c0378097c037812ec03781c5c037825dc03782f4c037838bc0378423c03784bac0378552c03785e9c0378681c0378719c03787b1c0378849c03788e1c037897ac0378a12c0378aaac0378b43c0378bdbc0378c74c0378d0dc0378da6c0378e3fc0378ed8c0378f71c037900ac03790a4c037913dc03791d7c0379270c037930ac03793a4c037943ec03794d8c0379572c037960cc03796a6c0379741c03797dbc0379876c0379911c03799abc0379a46c0379ae1,
  0xc0368d93c0368e0ac0368e80c0368ef6c0368f6dc0368fe3c036905ac03690d0c0369147c03691bec0369234c03692abc0369322c0369399c0369410c0369487c03694fec0369575c03695edc0369664c03696dbc0369752c03697cac0369841c03698b9c0369930c03699a8c0369a20c0369a98c0369b0fc0369b87c0369bffc0369c77c0369cefc0369d67c0369ddfc0369e58c0369ed0c0369f48c0369fc1c036a039c036a0b2c036a12ac036a1a3c036a21bc036a294c036a30dc036a386c036a3ffc036a477c036a4f0c036a56ac036a5e3c036a65cc036a6d5c036a74ec036a7c8c036a841c036a8bbc036a934c036a9aec036aa27c036aaa1c036ab1bc036ab94c036ac0ec036ac88c036ad02c036ad7cc036adf6c036ae71c036aeebc036af65c036afdfc036b05ac036b0d4c036b14fc036b1c9c036b244c036b2bfc036b339c036b3b4c036b42fc036b4aac036b525c036b5a0c036b61bc036b696c036b711c036b78dc036b808c036b883c036b8ffc036b97ac036b9f6c036ba71c036baedc036bb69c036bbe5c036bc61c036bcdcc036bd58c036bdd4c036be51c036becdc036bf49c036bfc5c036c042c036c0bec036c13ac036c1b7c036c234c036c2b0c036c32dc036c3aac036c427c036c4a3c036c520c036c59dc036c61ac036c698c036c715c036c792c036c80fc036c88dc036c90ac036c988c036ca05c036ca83c036cb01c036cb7ec036cbfcc036cc7ac036ccf8c036cd76c036cdf4c036ce72c036cef0c036cf6fc036cfedc036d06bc036d0eac036d168c036d1e7c036d265c036d2e4c036d363c036d3e2c036d461c036d4dfc036d55ec036d5dec036d65dc036d6dcc036d75bc036d7dac036d85ac036d8d9c036d959c036d9d8c036da58c036dad8c036db57c036dbd7c036dc57c036dcd7c036dd57c036ddd7c036de57c036ded8c036df58c036dfd8c036e059c036e0d9c036e15ac036e1dac036e25bc036e2dcc036e35cc036e3ddc036e45ec036e4dfc036e560c036e5e1c036e662c036e6e4c036e765c036e7e6c036e868c036e8e9c036e96bc036e9edc036ea6ec036eaf0c036eb72c036ebf4c036ec76c036ecf8c036ed7ac036edfcc036ee7ec036ef01c036ef83c036f005c036f088c036f10ac036f18dc036f210c036f293c036f315c036f398c036f41bc036f49ec036f521c036f5a5c036f628c036f6abc036f72fc036f7b2c036f836c036f8b9c036f93dc036f9c0c036fa44c036fac8c036fb4cc036fbd0c036fc54c036fcd8c036fd5cc036fde1c036fe65c036fee9c036ff6ec036fff2c0370077c03700fcc0370180c0370205c037028ac037030fc0370394c0370419c037049ec0370524c03705a9c037062ec03706b4c0370739c03707bfc0370844c03708cac0370950c03709d6c0370a5cc0370ae2] ++
  [0xc0361dc9c0361e33c0361e9dc0361f07c0361f71c0361fdbc0362045c03620afc0362119c0362183c03621edc0362258c03622c2c036232cc0362397c0362401c036246cc03624d6c0362541c03625abc0362616c0362681c03626ebc0362756c03627c1c036282cc0362897c0362902c036296dc03629d8c0362a43c0362aaec0362b19c0362b85c0362bf0c0362c5bc0362cc7c0362d32c0362d9ec0362e09c0362e75c0362ee0c0362f4cc0362fb8c0363023c036308fc03630fbc0363167c03631d3c036323fc03632abc0363317c0363383c03633efc036345bc03634c7c0363534c03635a0c036360cc0363679c03636e5c0363752c03637bec036382bc0363897c0363904c0363971c03639dec0363a4ac0363ab7c0363b24c0363b91c0363bfec0363c6bc0363cd8c0363d45c0363db3c0363e20c0363e8dc0363efbc0363f68c0363fd5c0364043c03640b0c036411ec036418bc03641f9c0364267c03642d5c0364342c03643b0c036441ec036448cc03644fac0364568c03645d6c0364644c03646b2c0364721c036478fc03647fdc036486cc03648dac0364948c03649b7c0364a25c0364a94c0364b03c0364b71c0364be0c0364c4fc0364cbec0364d2dc0364d9cc0364e0bc0364e7ac0364ee9c0364f58c0364fc7c0365036c03650a5c0365115c0365184c03651f3c0365263c03652d2c0365342c03653b2c0365421c0365491c0365501c0365570c03655e0c0365650c03656c0c0365730c03657a0c0365810c0365880c03658f1c0365961c03659d1c0365a41c0365ab2c0365b22c0365b93c0365c03c0365c74c0365ce4c0365d55c0365dc6c0365e37c0365ea7c0365f18c0365f89c0365ffac036606bc03660dcc036614dc03661bfc0366230c03662a1c0366312c0366384c03663f5c0366467c03664d8c036654ac03665bbc036662dc036669fc0366710c0366782c03667f4c0366866c03668d8c036694ac03669bcc0366a2ec0366aa0c0366b13c0366b85c0366bf7c0366c6ac0366cdcc0366d4ec0366dc1c0366e34c0366ea6c0366f19c0366f8cc0366ffec0367071c03670e4c0367157c03671cac036723dc03672b0c0367323c0367397c036740ac036747dc03674f0c0367564c03675d7c036764bc03676bec0367732c03677a6c0367819c036788dc0367901c0367975c03679e9c0367a5dc0367ad1c0367b45c0367bb9c0367c2dc0367ca1c0367d16c0367d8ac0367dfec0367e73c0367ee7c0367f5cc0367fd0c0368045c03680bac036812fc03681a3c0368218c036828dc0368302c0368377c03683ecc0368461c03684d7c036854cc03685c1c0368636c03686acc0368721c0368797c036880cc0368882c03688f8c036896dc03689e3c0368a59c0368acfc0368b45c0368bbbc0368c31c0368ca7c0368d1d,
  0xc035b924c035b983c035b9e3c035ba43c035baa3c035bb03c035bb63c035bbc3c035bc23c035bc83c035bce4c035bd44c035bda4c035be04c035be65c035bec5c035bf25c035bf86c035bfe6c035c047c035c0a7c035c108c035c168c035c1c9c035c229c035c28ac035c2ebc035c34cc035c3acc035c40dc035c46ec035c4cfc035c530c035c591c035c5f2c035c653c035c6b4c035c715c035c776c035c7d8c035c839c035c89ac035c8fbc035c95dc035c9bec035ca1fc035ca81c035cae2c035cb44c035cba5c035cc07c035cc69c035cccac035cd2cc035cd8ec035cdf0c035ce51c035ceb3c035cf15c035cf77c035cfd9c035d03bc035d09dc035d0ffc035d161c035d1c3c035d226c035d288c035d2eac035d34cc035d3afc035d411c035d474c035d4d6c035d538c035d59bc035d5fec035d660c035d6c3c035d725c035d788c035d7ebc035d84ec035d8b0c035d913c035d976c035d9d9c035da3cc035da9fc035db02c035db65c035dbc8c035dc2cc035dc8fc035dcf2c035dd55c035ddb9c035de1cc035de7fc035dee3c035df46c035dfaac035e00dc035e071c035e0d4c035e138c035e19cc035e1ffc035e263c035e2c7c035e32bc035e38fc035e3f3c035e457c035e4bbc035e51fc035e583c035e5e7c035e64bc035e6afc035e713c035e778c035e7dcc035e840c035e8a5c035e909c035e96ec035e9d2c035ea37c035ea9bc035eb00c035eb65c035ebc9c035ec2ec035ec93c035ecf8c035ed5cc035edc1c035ee26c035ee8bc035eef0c035ef55c035efbac035f020c035f085c035f0eac035f14fc035f1b4c035f21ac035f27fc035f2e5c035f34ac035f3afc035f415c035f47bc035f4e0c035f546c035f5abc035f611c035f677c035f6ddc035f743c035f7a8c035f80ec035f874c035f8dac035f940c035f9a7c035fa0dc035fa73c035fad9c035fb3fc035fba6c035fc0cc035fc72c035fcd9c035fd3fc035fda6c035fe0cc035fe73c035fed9c035ff40c035ffa7c036000dc0360074c03600dbc0360142c03601a9c0360210c0360277c03602dec0360345c03603acc0360413c036047ac03604e1c0360549c03605b0c0360617c036067fc03606e6c036074dc03607b5c036081dc0360884c03608ecc0360953c03609bbc0360a23c0360a8bc0360af3c0360b5ac0360bc2c0360c2ac0360c92c0360cfac0360d63c0360dcbc0360e33c0360e9bc0360f03c0360f6cc0360fd4c036103cc03610a5c036110dc0361176c03611dec0361247c03612b0c0361318c0361381c03613eac0361453c03614bbc0361524c036158dc03615f6c036165fc03616c8c0361731c036179bc0361804c036186dc03618d6c0361940c03619a9c0361a12c0361a7cc0361ae5c0361b4fc0361bb8c0361c22c0361c8cc0361cf5c0361d5f,
  0xc0355d90c0355de7c0355e3fc0355e97c0355eeec0355f46c0355f9ec0355ff6c035604dc03560a5c03560fdc0356155c03561adc0356205c035625dc03562b5c035630dc0356365c03563bdc0356415c035646ec03564c6c035651ec0356576c03565cfc0356627c035667fc03566d8c0356730c0356788c03567e1c0356839c0356892c03568eac0356943c035699cc03569f4c0356a4dc0356aa6c0356afec0356b57c0356bb0c0356c09c0356c62c0356cbac0356d13c0356d6cc0356dc5c0356e1ec0356e77c0356ed0c0356f2ac0356f83c0356fdcc0357035c035708ec03570e7c0357141c035719ac03571f3c035724dc03572a6c0357300c0357359c03573b3c035740cc0357466c03574bfc0357519c0357572c03575ccc0357626c0357680c03576d9c0357733c035778dc03577e7c0357841c035789bc03578f5c035794fc03579a9c0357a03c0357a5dc0357ab7c0357b11c0357b6bc0357bc5c0357c20c0357c7ac0357cd4c0357d2fc0357d89c0357de3c0357e3ec0357e98c0357ef3c0357f4dc0357fa8c0358002c035805dc03580b8c0358112c035816dc03581c8c0358222c035827dc03582d8c0358333c035838ec03583e9c0358444c035849fc03584fac0358555c03585b0c035860bc0358666c03586c1c035871cc0358778c03587d3c035882ec035888ac03588e5c0358940c035899cc03589f7c0358a53c0358aaec0358b0ac0358b65c0358bc1c0358c1dc0358c78c0358cd4c0358d30c0358d8cc0358de8c0358e43c0358e9fc0358efbc0358f57c0358fb3c035900fc035906bc03590c7c0359123c0359180c03591dcc0359238c0359294c03592f0c035934dc03593a9c0359405c0359462c03594bec035951bc0359577c03595d4c0359630c035968dc03596eac0359746c03597a3c0359800c035985cc03598b9c0359916c0359973c03599d0c0359a2dc0359a8ac0359ae7c0359b44c0359ba1c0359bfec0359c5bc0359cb8c0359d15c0359d73c0359dd0c0359e2dc0359e8bc0359ee8c0359f45c0359fa3c035a000c035a05ec035a0bbc035a119c035a176c035a1d4c035a232c035a28fc035a2edc035a34bc035a3a9c035a406c035a464c035a4c2c035a520c035a57ec035a5dcc035a63ac035a698c035a6f6c035a755c035a7b3c035a811c035a86fc035a8cdc035a92cc035a98ac035a9e8c035aa47c035aaa5c035ab04c035ab62c035abc1c035ac1fc035ac7ec035acddc035ad3bc035ad9ac035adf9c035ae58c035aeb6c035af15c035af74c035afd3c035b032c035b091c035b0f0c035b14fc035b1aec035b20dc035b26dc035b2ccc035b32bc035b38ac035b3eac035b449c035b4a8c035b508c035b567c035b5c7c035b626c035b686c035b6e5c035b745c035b7a5c035b804c035b864c035b8c4,
  0xc0350983c03509d4c0350a24c0350a75c0350ac6c0350b17c0350b68c0350bb9c0350c09c0350c5ac0350cabc0350cfcc0350d4dc0350d9ec0350defc0350e40c0350e91c0350ee3c0350f34c0350f85c0350fd6c0351027c0351078c03510cac035111bc035116cc03511bec035120fc0351260c03512b2c0351303c0351355c03513a6c03513f8c0351449c035149bc03514ecc035153ec0351590c03515e1c0351633c0351685c03516d7c0351728c035177ac03517ccc035181ec0351870c03518c2c0351913c0351965c03519b7c0351a09c0351a5bc0351aadc0351b00c0351b52c0351ba4c0351bf6c0351c48c0351c9ac0351cecc0351d3fc0351d91c0351de3c0351e36c0351e88c0351edac0351f2dc0351f7fc0351fd2c0352024c0352077c03520c9c035211cc035216ec03521c1c0352214c0352266c03522b9c035230cc035235ec03523b1c0352404c0352457c03524aac03524fdc035254fc03525a2c03525f5c0352648c035269bc03526eec0352741c0352795c03527e8c035283bc035288ec03528e1c0352934c0352988c03529dbc0352a2ec0352a81c0352ad5c0352b28c0352b7cc0352bcfc0352c22c0352c76c0352cc9c0352d1dc0352d71c0352dc4c0352e18c0352e6bc0352ebfc0352f13c0352f67c0352fbac035300ec0353062c03530b6c035310ac035315dc03531b1c0353205c0353259c03532adc0353301c0353355c03533a9c03533fdc0353452c03534a6c03534fac035354ec03535a2c03535f7c035364bc035369fc03536f3c0353748c035379cc03537f1c0353845c035389ac03538eec0353943c0353997c03539ecc0353a40c0353a95c0353aeac0353b3ec0353b93c0353be8c0353c3dc0353c91c0353ce6c0353d3bc0353d90c0353de5c0353e3ac0353e8fc0353ee4c0353f39c0353f8ec0353fe3c0354038c035408dc03540e2c0354137c035418dc03541e2c0354237c035428dc03542e2c0354337c035438dc03543e2c0354437c035448dc03544e2c0354538c035458dc03545e3c0354639c035468ec03546e4c035473ac035478fc03547e5c035483bc0354891c03548e6c035493cc0354992c03549e8c0354a3ec0354a94c0354aeac0354b40c0354b96c0354becc0354c42c0354c98c0354cefc0354d45c0354d9bc0354df1c0354e48c0354e9ec0354ef4c0354f4bc0354fa1c0354ff7c035504ec03550a4c03550fbc0355151c03551a8c03551ffc0355255c03552acc0355302c0355359c03553b0c0355407c035545dc03554b4c035550bc0355562c03555b9c0355610c0355667c03556bec0355715c035576cc03557c3c035581ac0355871c03558c8c0355920c0355977c03559cec0355a25c0355a7dc0355ad4c0355b2bc0355b83c0355bdac0355c32c0355c89c0355ce1c0355d38,
  0xc034bbd0c034bc1bc034bc66c034bcb1c034bcfcc034bd47c034bd92c034bddcc034be28c034be73c034bebec034bf09c034bf54c034bf9fc034bfeac034c035c034c080c034c0ccc034c117c034c162c034c1adc034c1f9c034c244c034c28fc034c2dbc034c326c034c371c034c3bdc034c408c034c454c034c49fc034c4ebc034c536c034c582c034c5cdc034c619c034c664c034c6b0c034c6fcc034c747c034c793c034c7dfc034c82ac034c876c034c8c2c034c90ec034c95ac034c9a5c034c9f1c034ca3dc034ca89c034cad5c034cb21c034cb6dc034cbb9c034cc05c034cc51c034cc9dc034cce9c034cd35c034cd81c034cdcec034ce1ac034ce66c034ceb2c034cefec034cf4bc034cf97c034cfe3c034d030c034d07cc034d0c8c034d115c034d161c034d1aec034d1fac034d246c034d293c034d2dfc034d32cc034d379c034d3c5c034d412c034d45ec034d4abc034d4f8c034d544c034d591c034d5dec034d62bc034d678c034d6c4c034d711c034d75ec034d7abc034d7f8c034d845c034d892c034d8dfc034d92cc034d979c034d9c6c034da13c034da60c034daadc034dafac034db47c034db94c034dbe2c034dc2fc034dc7cc034dcc9c034dd17c034dd64c034ddb1c034ddffc034de4cc034de99c034dee7c034df34c034df82c034dfcfc034e01dc034e06ac034e0b8c034e105c034e153c034e1a1c034e1eec034e23cc034e28ac034e2d7c034e325c034e373c034e3c1c034e40ec034e45cc034e4aac034e4f8c034e546c034e594c034e5e2c034e630c034e67ec034e6ccc034e71ac034e768c034e7b6c034e804c034e852c034e8a0c034e8efc034e93dc034e98bc034e9d9c034ea28c034ea76c034eac4c034eb12c034eb61c034ebafc034ebfec034ec4cc034ec9bc034ece9c034ed38c034ed86c034edd5c034ee23c034ee72c034eec0c034ef0fc034ef5ec034efacc034effbc034f04ac034f099c034f0e7c034f136c034f185c034f1d4c034f223c034f272c034f2c1c034f310c034f35fc034f3aec034f3fdc034f44cc034f49bc034f4eac034f539c034f588c034f5d7c034f626c034f676c034f6c5c034f714c034f763c034f7b3c034f802c034f851c034f8a1c034f8f0c034f940c034f98fc034f9dec034fa2ec034fa7dc034facdc034fb1dc034fb6cc034fbbcc034fc0bc034fc5bc034fcabc034fcfbc034fd4ac034fd9ac034fdeac034fe3ac034fe89c034fed9c034ff29c034ff79c034ffc9c0350019c0350069c03500b9c0350109c0350159c03501a9c03501f9c0350249c035029ac03502eac035033ac035038ac03503dac035042bc035047bc03504cbc035051cc035056cc03505bcc035060dc035065dc03506aec03506fec035074fc035079fc03507f0c0350840c0350891c03508e2c0350932,
  0xc034738cc03473d2c0347417c034745dc03474a3c03474e9c034752fc0347575c03475bbc0347601c0347647c034768dc03476d3c0347719c034775fc03477a5c03477ebc0347831c0347877c03478bdc0347904c034794ac0347990c03479d6c0347a1dc0347a63c0347aa9c0347aefc0347b36c0347b7cc0347bc2c0347c09c0347c4fc0347c96c0347cdcc0347d22c0347d69c0347dafc0347df6c0347e3cc0347e83c0347ec9c0347f10c0347f57c0347f9dc0347fe4c034802bc0348071c03480b8c03480ffc0348145c034818cc03481d3c034821ac0348260c03482a7c03482eec0348335c034837cc03483c3c034840ac0348451c0348497c03484dec0348525c034856cc03485b3c03485fbc0348642c0348689c03486d0c0348717c034875ec03487a5c03487ecc0348834c034887bc03488c2c0348909c0348951c0348998c03489dfc0348a27c0348a6ec0348ab5c0348afdc0348b44c0348b8bc0348bd3c0348c1ac0348c62c0348ca9c0348cf1c0348d38c0348d80c0348dc8c0348e0fc0348e57c0348e9ec0348ee6c0348f2ec0348f76c0348fbdc0349005c034904dc0349095c03490dcc0349124c034916cc03491b4c03491fcc0349244c034928bc03492d3c034931bc0349363c03493abc03493f3c034943bc0349483c03494cbc0349514c034955cc03495a4c03495ecc0349634c034967cc03496c5c034970dc0349755c034979dc03497e6c034982ec0349876c03498bfc0349907c034994fc0349998c03499e0c0349a29c0349a71c0349ab9c0349b02c0349b4bc0349b93c0349bdcc0349c24c0349c6dc0349cb5c0349cfec0349d47c0349d8fc0349dd8c0349e21c0349e6ac0349eb2c0349efbc0349f44c0349f8dc0349fd6c034a01ec034a067c034a0b0c034a0f9c034a142c034a18bc034a1d4c034a21dc034a266c034a2afc034a2f8c034a341c034a38ac034a3d3c034a41dc034a466c034a4afc034a4f8c034a541c034a58bc034a5d4c034a61dc034a666c034a6b0c034a6f9c034a743c034a78cc034a7d5c034a81fc034a868c034a8b2c034a8fbc034a945c034a98ec034a9d8c034aa21c034aa6bc034aab4c034aafec034ab48c034ab91c034abdbc034ac25c034ac6fc034acb8c034ad02c034ad4cc034ad96c034ade0c034ae29c034ae73c034aebdc034af07c034af51c034af9bc034afe5c034b02fc034b079c034b0c3c034b10dc034b157c034b1a1c034b1ebc034b236c034b280c034b2cac034b314c034b35ec034b3a9c034b3f3c034b43dc034b487c034b4d2c034b51cc034b567c034b5b1c034b5fbc034b646c034b690c034b6dbc034b725c034b770c034b7bac034b805c034b84fc034b89ac034b8e5c034b92fc034b97ac034b9c5c034ba0fc034ba5ac034baa5c034baf0c034bb3ac034bb85,
  0xc0342ffbc034303dc034307ec03430c0c0343101c0343143c0343184c03431c6c0343207c0343249c034328ac03432ccc034330dc034334fc0343391c03433d2c0343414c0343456c0343497c03434d9c034351bc034355dc034359ec03435e0c0343622c0343664c03436a6c03436e7c0343729c034376bc03437adc03437efc0343831c0343873c03438b5c03438f7c0343939c034397bc03439bdc03439ffc0343a41c0343a83c0343ac5c0343b07c0343b49c0343b8cc0343bcec0343c10c0343c52c0343c94c0343cd7c0343d19c0343d5bc0343d9dc0343de0c0343e22c0343e64c0343ea7c0343ee9c0343f2bc0343f6ec0343fb0c0343ff2c0344035c0344077c03440bac03440fcc034413fc0344181c03441c4c0344206c0344249c034428cc03442cec0344311c0344353c0344396c03443d9c034441bc034445ec03444a1c03444e4c0344526c0344569c03445acc03445efc0344632c0344674c03446b7c03446fac034473dc0344780c03447c3c0344806c0344849c034488cc03448cfc0344912c0344955c0344998c03449dbc0344a1ec0344a61c0344aa4c0344ae7c0344b2ac0344b6ec0344bb1c0344bf4c0344c37c0344c7ac0344cbec0344d01c0344d44c0344d87c0344dcbc0344e0ec0344e51c0344e95c0344ed8c0344f1cc0344f5fc0344fa2c0344fe6c0345029c034506dc03450b0c03450f4c0345137c034517bc03451bec0345202c0345246c0345289c03452cdc0345310c0345354c0345398c03453dcc034541fc0345463c03454a7c03454ebc034552ec0345572c03455b6c03455fac034563ec0345682c03456c5c0345709c034574dc0345791c03457d5c0345819c034585dc03458a1c03458e5c0345929c034596dc03459b1c03459f5c0345a3ac0345a7ec0345ac2c0345b06c0345b4ac0345b8ec0345bd3c0345c17c0345c5bc0345c9fc0345ce4c0345d28c0345d6cc0345db1c0345df5c0345e39c0345e7ec0345ec2c0345f07c0345f4bc0345f90c0345fd4c0346019c034605dc03460a2c03460e6c034612bc034616fc03461b4c03461f9c034623dc0346282c03462c7c034630bc0346350c0346395c03463dac034641ec0346463c03464a8c03464edc0346532c0346576c03465bbc0346600c0346645c034668ac03466cfc0346714c0346759c034679ec03467e3c0346828c034686dc03468b2c03468f7c034693cc0346981c03469c7c0346a0cc0346a51c0346a96c0346adbc0346b21c0346b66c0346babc0346bf0c0346c36c0346c7bc0346cc0c0346d06c0346d4bc0346d91c0346dd6c0346e1bc0346e61c0346ea6c0346eecc0346f31c0346f77c0346fbcc0347002c0347047c034708dc03470d3c0347118c034715ec03471a4c03471e9c034722fc0347275c03472bbc0347300c0347346,
  0xc033f087c033f0c4c033f102c033f140c033f17dc033f1bbc033f1f9c033f236c033f274c033f2b2c033f2efc033f32dc033f36bc033f3a8c033f3e6c033f424c033f462c033f4a0c033f4ddc033f51bc033f559c033f597c033f5d5c033f613c033f651c033f68fc033f6ccc033f70ac033f748c033f786c033f7c4c033f802c033f840c033f87ec033f8bcc033f8fac033f939c033f977c033f9b5c033f9f3c033fa31c033fa6fc033faadc033faebc033fb2ac033fb68c033fba6c033fbe4c033fc23c033fc61c033fc9fc033fcddc033fd1cc033fd5ac033fd98c033fdd7c033fe15c033fe53c033fe92c033fed0c033ff0fc033ff4dc033ff8cc033ffcac0340009c0340047c0340086c03400c4c0340103c0340141c0340180c03401bec03401fdc034023bc034027ac03402b9c03402f7c0340336c0340375c03403b3c03403f2c0340431c0340470c03404aec03404edc034052cc034056bc03405aac03405e8c0340627c0340666c03406a5c03406e4c0340723c0340762c03407a1c03407e0c034081fc034085ec034089dc03408dcc034091bc034095ac0340999c03409d8c0340a17c0340a56c0340a95c0340ad4c0340b13c0340b52c0340b92c0340bd1c0340c10c0340c4fc0340c8ec0340ccec0340d0dc0340d4cc0340d8cc0340dcbc0340e0ac0340e4ac0340e89c0340ec8c0340f08c0340f47c0340f86c0340fc6c0341005c0341045c0341084c03410c4c0341103c0341143c0341182c03411c2c0341201c0341241c0341281c03412c0c0341300c034133fc034137fc03413bfc03413fec034143ec034147ec03414bec03414fdc034153dc034157dc03415bdc03415fcc034163cc034167cc03416bcc03416fcc034173cc034177cc03417bcc03417fbc034183bc034187bc03418bbc03418fbc034193bc034197bc03419bbc03419fbc0341a3bc0341a7cc0341abcc0341afcc0341b3cc0341b7cc0341bbcc0341bfcc0341c3dc0341c7dc0341cbdc0341cfdc0341d3dc0341d7ec0341dbec0341dfec0341e3fc0341e7fc0341ebfc0341f00c0341f40c0341f80c0341fc1c0342001c0342042c0342082c03420c3c0342103c0342144c0342184c03421c5c0342205c0342246c0342286c03422c7c0342307c0342348c0342389c03423c9c034240ac034244bc034248bc03424ccc034250dc034254ec034258ec03425cfc0342610c0342651c0342692c03426d2c0342713c0342754c0342795c03427d6c0342817c0342858c0342899c03428dac034291bc034295cc034299dc03429dec0342a1fc0342a60c0342aa1c0342ae2c0342b23c0342b64c0342ba5c0342be7c0342c28c0342c69c0342caac0342cebc0342d2dc0342d6ec0342dafc0342df0c0342e32c0342e73c0342eb4c0342ef6c0342f37c0342f78c0342fba] ++
  [0xc033f049]

/-- R420, GUMB upper side level 2: entry j for j = 0 to 4,096. -/
def gumbU2 : List Nat :=
  [0x419b4bd9419b53e5419b5bf9419b6416419b6c3a419b7467419b7c9d419b84da419b8d21419b9570419b9dc7419ba628419bae91419bb703419bbf7e419bc802419bd08f419bd925419be1c5419bea6e419bf320419bfbdc419c04a1419c0d70419c1649419c1f2b419c2818419c310e419c3a0f419c431a419c4c2f419c554e419c5e78419c67ac419c70eb419c7a35419c8389419c8ce9419c9653419c9fc9419ca94a419cb2d6419cbc6e419cc611419ccfc0419cd97b419ce341419ced14419cf6f2419d00dd419d0ad5419d14d8419d1ee9419d2906419d3330419d3d67419d47ab419d51fc419d5c5b419d66c7419d7141419d7bc8419d865e419d9101419d9bb3419da673419db142419dbc1f419dc70b419dd207419ddd11419de82b419df354419dfe8d419e09d5419e152e419e2097419e2c10419e379a419e4334419e4ee0419e5a9c419e666a419e7249419e7e3a419e8a3d419e9653419ea27a419eaeb4419ebb01419ec761419ed3d4419ee05b419eecf5419ef9a4419f0666419f133d419f2029419f2d2a419f3a40419f476c419f54ad419f6205419f6f73419f7cf7419f8a93419f9846419fa611419fb3f3419fc1ee419fd001419fde2d419fec73419ffad241a0094c41a017df41a0268d41a0355741a0443c41a0533d41a0625a41a0719441a080ec41a0906141a09ff441a0afa541a0bf7641a0cf6641a0df7641a0efa641a0fff841a1106b41a1210041a131b841a1429441a1539241a164b641a175fe41a1876c41a1990141a1aabc41a1bc9f41a1ceaa41a1e0df41a1f33d41a205c641a2187a41a22b5a41a23e6741a251a241a2650b41a278a541a28c6e41a2a06941a2b49741a2c8f741a2dd8d41a2f25841a3075941a31c9241a3320441a347b041a35d9741a373bb41a38a1d41a3a0bf41a3b7a141a3cec541a3e62d41a3fdda41a415ce41a42e0b41a4469241a45f6541a4788641a491f741a4abba41a4c5d141a4e03e41a4fb0341a5162441a531a141a54d7f41a569be41a5866341a5a37041a5c0e841a5dece41a5fd2541a61bf141a63b3641a65af641a67b3741a69bfc41a6bd4941a6df2341a7018f41a7249141a7483041a76c6f41a7915641a7b6ea41a7dd3341a8043541a82bfa41a8548841a87de841a8a82341a8d34141a8ff4c41a92c5041a95a5641a9896b41a9b99c41a9eaf641aa1d8841aa516241aa869441aabd3241aaf54f41ab2f0141ab6a5e41aba78241abe68741ac278d41ac6ab441acb02241acf80041ad427b41ad8fc641ade01941ae33b341ae8add41aee5e641af452c41afa91841b0122541b080e041b0f5ef41b1721841b1f64541b2839141b31b5741b3bf4441b4717741b534a941b60c7041b6fda941b80f2241b94ad541bac03a41bc893941bed66641c214ca41c7a05b00000000,
  0x4195bc454195c0484195c44d4195c8544195cc5d4195d0694195d4764195d8854195dc964195e0aa4195e4bf4195e8d74195ecf04195f10c4195f52a4195f94a4195fd6c41960190419605b6419609df41960e0a419612374196166641961a9741961eca419623004196273841962b7241962fae419633ed4196382e41963c71419640b6419644fe4196494841964d94419651e34196563441965a8741965edd419663354196678f41966bec4196704b419674ac4196791041967d76419681df4196864a41968ab841968f284196939a4196980f41969c874196a1014196a57d4196a9fc4196ae7e4196b3024196b7894196bc124196c09e4196c52c4196c9bd4196ce514196d2e74196d7804196dc1b4196e0b94196e55a4196e9fe4196eea44196f34d4196f7f94196fca7419701584197060c41970ac341970f7c41971438419718f741971db94197227e4197274541972c10419730dd419735ad41973a8041973f564197442f4197490b41974dea419752cc419757b041975c98419761834197667141976b62419770564197754d41977a4741977f44419784444197894841978e4e419793584197986541979d754197a2894197a79f4197acb94197b1d64197b6f64197bc1a4197c1414197c66b4197cb994197d0ca4197d5fe4197db364197e0714197e5b04197eaf24197f0374197f5804197facd4198001d4198057041980ac8419810224198158141981ae241982048419825b141982b1e4198308f4198360341983b7b419840f64198467641984bf9419851804198570b41985c9a4198622d419867c341986d5e419872fc4198789e41987e45419883ef4198899d41988f504198950641989ac14198a07f4198a6424198ac094198b1d44198b7a44198bd774198c34f4198c92b4198cf0b4198d4f04198dad94198e0c74198e6b94198ecaf4198f2aa4198f8a94198fead419904b541990ac2419910d3419916e941991d04419923234199294841992f704199359e41993bd0419942074199484341994e84419954ca41995b1541996165419967b941996e134199747241997ad54199813e419987ad41998e204199949841999b164199a1994199a8224199aeaf4199b5424199bbdb4199c2794199c91c4199cfc54199d6744199dd284199e3e24199eaa14199f1674199f8324199ff02419a05d9419a0cb5419a1398419a1a80419a216e419a2862419a2f5d419a365d419a3d64419a4470419a4b83419a529d419a59bc419a60e2419a680f419a6f42419a767b419a7dbb419a8501419a8c4e419a93a2419a9afd419aa25e419aa9c6419ab135419ab8ab419ac028419ac7ac419acf37419ad6ca419ade63419ae604419aedac419af55b419afd12419b04d0419b0c95419b1463419b1c38419b2414419b2bf9419b33e5419b3bd9419b43d5,
  0x41927c8b41927f37419281e44192849241928740419289f041928ca041928f5241929204419294b74192976b41929a2041929cd641929f8d4192a2454192a4fe4192a7b74192aa724192ad2e4192afea4192b2a74192b5664192b8254192bae54192bda64192c0684192c32c4192c5f04192c8b54192cb7a4192ce414192d1094192d3d24192d69c4192d9674192dc324192deff4192e1cd4192e49c4192e76b4192ea3c4192ed0e4192efe04192f2b44192f5894192f85e4192fb354192fe0d419300e5419303bf4193069a4193097541930c5241930f304193120f419314ef419317cf41931ab141931d94419320784193235d419326434193292b41932c1341932efc419331e6419334d2419337be41933aac41933d9a4193408a4193437b4193466d4193495f41934c5341934f494193523f419355364193582e41935b2841935e224193611e4193641b4193671941936a1841936d184193701a4193731c419376204193792441937c2a41937f3141938239419385434193884d41938b5941938e6541939173419394824193979341939aa441939db74193a0cb4193a3e04193a6f64193aa0d4193ad264193b0404193b35b4193b6774193b9944193bcb34193bfd34193c2f44193c6164193c9394193cc5e4193cf844193d2ab4193d5d44193d8fd4193dc284193df554193e2824193e5b14193e8e14193ec124193ef454193f2794193f5ae4193f8e44193fc1c4193ff554194028f419405cb4194090841940c4641940f85419412c6419416084194194c41941c9141941fd74194231f41942667419429b241942cfd4194304a41943399419436e841943a3941943d8c419440df419444354194478b41944ae341944e3d41945197419454f44194585141945bb041945f1141946273419465d64194693b41946ca14194700841947372419476dc41947a4841947db641948124419484954194880741948b7a41948eef41949265419495dd4194995741949cd24194a04e4194a3cc4194a74b4194aacc4194ae4f4194b1d34194b5594194b8e04194bc684194bff34194c37f4194c70c4194ca9b4194ce2c4194d1be4194d5524194d8e74194dc7e4194e0174194e3b14194e74d4194eaea4194ee894194f22a4194f5cc4194f9714194fd16419500be419504674195081141950bbe41950f6c4195131c419516cd41951a8141951e35419521ec419525a54195295f41952d1b419530d8419534974195385941953c1b41953fe0419543a74195476f41954b3941954f05419552d2419556a241955a7341955e464195621b419565f2419569ca41956da5419571814195755f4195793f41957d2141958105419584ea419588d241958cbc419590a7419594944195988441959c754195a0684195a45d4195a8544195ac4d4195b0484195b4454195b844,
  0x41902eb4419030b4419032b6419034b7419036ba419038bd41903ac041903cc441903ec8419040cd419042d2419044d8419046de419048e541904aec41904cf441904efd419051054190530f41905519419057234190592e41905b3a41905d4641905f524190615f4190636d4190657b4190678a4190699941906ba941906db941906fca419071db419073ed419075ff4190781241907a2641907c3a41907e4e41908063419082794190848f419086a6419088bd41908ad541908ced41908f06419091204190933a419095544190976f4190998b41909ba741909dc441909fe14190a1ff4190a41e4190a63d4190a85c4190aa7c4190ac9d4190aebe4190b0e04190b3034190b5264190b7494190b96d4190bb924190bdb74190bfdd4190c2044190c42b4190c6524190c87a4190caa34190cccc4190cef64190d1214190d34c4190d5784190d7a44190d9d14190dbfe4190de2c4190e05b4190e28a4190e4ba4190e6eb4190e91c4190eb4d4190ed7f4190efb24190f1e64190f41a4190f64e4190f8844190faba4190fcf04190ff274191015f41910397419105d04191080a41910a4441910c7f41910eba419110f64191133341911570419117ae419119ed41911c2c41911e6c419120ac419122ed4191252f41912771419129b441912bf841912e3c41913081419132c74191350d419137544191399b41913be441913e2c41914076419142c04191450b41914756419149a241914bef41914e3c4191508b419152d94191552941915779419159ca41915c1b41915e6d419160c04191631341916567419167bc41916a1241916c6841916ebf419171164191736e419175c74191782141917a7b41917cd641917f324191818e419183eb41918649419188a741918b0741918d6741918fc7419192284191948a419196ed4191995141919bb541919e194191a07f4191a2e54191a54c4191a7b44191aa1c4191ac864191aef04191b15a4191b3c64191b6324191b89e4191bb0c4191bd7a4191bfe94191c2594191c4ca4191c73b4191c9ad4191cc204191ce934191d1084191d37d4191d5f24191d8694191dae04191dd584191dfd14191e24b4191e4c54191e7404191e9bc4191ec394191eeb64191f1344191f3b34191f6334191f8b44191fb354191fdb74192003a419202be41920542419207c741920a4d41920cd441920f5c419211e44192146e419216f84192198341921c0e41921e9b41922128419223b641922645419228d541922b6641922df7419230894192331c419235b04192384541923adb41923d7141924008419242a041924539419247d341924a6e41924d0941924fa541925242419254e04192577f41925a1f41925cc041925f6141926203419264a74192674b419269f041926c9541926f3c419271e44192748c41927736419279e0,
  0x418e654e418e66e8418e6882418e6a1d418e6bb8418e6d53418e6eef418e708b418e7227418e73c4418e7561418e76fe418e789c418e7a3a418e7bd8418e7d77418e7f16418e80b5418e8255418e83f5418e8595418e8736418e88d6418e8a78418e8c19418e8dbb418e8f5d418e9100418e92a3418e9446418e95ea418e978e418e9932418e9ad7418e9c7c418e9e21418e9fc7418ea16d418ea313418ea4b9418ea660418ea808418ea9af418eab57418ead00418eaea8418eb052418eb1fb418eb3a5418eb54f418eb6f9418eb8a4418eba4f418ebbfa418ebda6418ebf52418ec0ff418ec2ac418ec459418ec607418ec7b5418ec963418ecb11418eccc0418ece70418ed01f418ed1d0418ed380418ed531418ed6e2418ed893418eda45418edbf7418eddaa418edf5d418ee110418ee2c4418ee478418ee62c418ee7e1418ee996418eeb4b418eed01418eeeb7418ef06e418ef225418ef3dc418ef594418ef74c418ef904418efabd418efc76418efe30418effe9418f01a4418f035e418f0519418f06d5418f0890418f0a4d418f0c09418f0dc6418f0f83418f1141418f12ff418f14bd418f167c418f183b418f19fb418f1bbb418f1d7b418f1f3c418f20fd418f22be418f2480418f2642418f2805418f29c8418f2b8b418f2d4f418f2f13418f30d8418f329d418f3462418f3628418f37ee418f39b4418f3b7b418f3d43418f3f0a418f40d2418f429b418f4464418f462d418f47f7418f49c1418f4b8b418f4d56418f4f22418f50ed418f52b9418f5486418f5653418f5820418f59ee418f5bbc418f5d8a418f5f59418f6129418f62f9418f64c9418f6699418f686a418f6a3c418f6c0e418f6de0418f6fb2418f7185418f7359418f752d418f7701418f78d6418f7aab418f7c81418f7e57418f802d418f8204418f83db418f85b3418f878b418f8964418f8b3d418f8d16418f8ef0418f90ca418f92a5418f9480418f965b418f9837418f9a14418f9bf1418f9dce418f9fac418fa18a418fa368418fa547418fa727418fa907418faae7418facc8418faea9418fb08b418fb26d418fb44f418fb632418fb816418fb9fa418fbbde418fbdc3418fbfa8418fc18e418fc374418fc55a418fc741418fc929418fcb11418fccf9418fcee2418fd0cb418fd2b5418fd49f418fd68a418fd875418fda61418fdc4d418fde39418fe026418fe214418fe402418fe5f0418fe7df418fe9ce418febbe418fedae418fef9f418ff190418ff382418ff574418ff767418ff95a418ffb4d418ffd41418fff364190012b41900320419005164190070d4190090441900afb41900cf341900eeb419010e4419012dd419014d7419016d2419018cc41901ac841901cc341901ec0419020bc419022ba419024b7419026b6419028b441902ab441902cb3,
  0x418cefa4418cf0fa418cf250418cf3a6418cf4fc418cf653418cf7aa418cf901418cfa58418cfbaf418cfd07418cfe5f418cffb7418d0110418d0268418d03c1418d051a418d0673418d07cd418d0926418d0a80418d0bdb418d0d35418d0e90418d0feb418d1146418d12a1418d13fc418d1558418d16b4418d1811418d196d418d1aca418d1c27418d1d84418d1ee1418d203f418d219d418d22fb418d2459418d25b8418d2717418d2876418d29d5418d2b34418d2c94418d2df4418d2f54418d30b5418d3216418d3377418d34d8418d3639418d379b418d38fd418d3a5f418d3bc1418d3d24418d3e87418d3fea418d414d418d42b1418d4414418d4578418d46dd418d4841418d49a6418d4b0b418d4c70418d4dd6418d4f3c418d50a2418d5208418d536e418d54d5418d563c418d57a3418d590b418d5a72418d5bda418d5d43418d5eab418d6014418d617d418d62e6418d644f418d65b9418d6723418d688d418d69f8418d6b62418d6ccd418d6e39418d6fa4418d7110418d727c418d73e8418d7554418d76c1418d782e418d799b418d7b09418d7c77418d7de5418d7f53418d80c1418d8230418d839f418d850e418d867e418d87ee418d895e418d8ace418d8c3f418d8daf418d8f21418d9092418d9204418d9375418d94e8418d965a418d97cd418d993f418d9ab3418d9c26418d9d9a418d9f0e418da082418da1f6418da36b418da4e0418da656418da7cb418da941418daab7418dac2d418dada4418daf1b418db092418db20a418db381418db4f9418db671418db7ea418db963418dbadc418dbc55418dbdcf418dbf49418dc0c3418dc23d418dc3b8418dc533418dc6ae418dc829418dc9a5418dcb21418dcc9e418dce1a418dcf97418dd114418dd292418dd40f418dd58d418dd70c418dd88a418dda09418ddb88418ddd08418dde87418de007418de187418de308418de489418de60a418de78b418de90d418dea8f418dec11418ded94418def16418df099418df21d418df3a0418df524418df6a9418df82d418df9b2418dfb37418dfcbc418dfe42418dffc8418e014e418e02d5418e045b418e05e3418e076a418e08f2418e0a7a418e0c02418e0d8b418e0f13418e109d418e1226418e13b0418e153a418e16c4418e184f418e19da418e1b65418e1cf1418e1e7c418e2009418e2195418e2322418e24af418e263c418e27ca418e2958418e2ae6418e2c74418e2e03418e2f92418e3122418e32b2418e3442418e35d2418e3763418e38f4418e3a85418e3c17418e3da9418e3f3b418e40cd418e4260418e43f3418e4587418e471b418e48af418e4a43418e4bd8418e4d6d418e4f02418e5098418e522e418e53c4418e555a418e56f1418e5889418e5a20418e5bb8418e5d50418e5ee9418e6081418e621b418e63b4,
  0x418bb3c0418bb4e5418bb60a418bb72f418bb855418bb97a418bbaa0418bbbc5418bbceb418bbe12418bbf38418bc05e418bc185418bc2ac418bc3d3418bc4fa418bc621418bc749418bc870418bc998418bcac0418bcbe8418bcd10418bce39418bcf61418bd08a418bd1b3418bd2dc418bd406418bd52f418bd659418bd783418bd8ac418bd9d7418bdb01418bdc2b418bdd56418bde81418bdfac418be0d7418be202418be32e418be45a418be585418be6b1418be7de418be90a418bea37418beb63418bec90418bedbd418beeea418bf018418bf145418bf273418bf3a1418bf4cf418bf5fd418bf72c418bf85b418bf989418bfab8418bfbe7418bfd17418bfe46418bff76418c00a6418c01d6418c0306418c0436418c0567418c0698418c07c9418c08fa418c0a2b418c0b5c418c0c8e418c0dc0418c0ef2418c1024418c1156418c1289418c13bb418c14ee418c1621418c1755418c1888418c19bc418c1aef418c1c23418c1d57418c1e8c418c1fc0418c20f5418c222a418c235f418c2494418c25c9418c26ff418c2835418c296b418c2aa1418c2bd7418c2d0e418c2e44418c2f7b418c30b2418c31ea418c3321418c3459418c3590418c36c8418c3801418c3939418c3a71418c3baa418c3ce3418c3e1c418c3f55418c408f418c41c9418c4302418c443d418c4577418c46b1418c47ec418c4927418c4a62418c4b9d418c4cd8418c4e14418c4f4f418c508b418c51c7418c5304418c5440418c557d418c56ba418c57f7418c5934418c5a72418c5baf418c5ced418c5e2b418c5f69418c60a8418c61e6418c6325418c6464418c65a3418c66e3418c6822418c6962418c6aa2418c6be2418c6d23418c6e63418c6fa4418c70e5418c7226418c7368418c74a9418c75eb418c772d418c786f418c79b1418c7af4418c7c37418c7d7a418c7ebd418c8000418c8144418c8287418c83cb418c850f418c8654418c8798418c88dd418c8a22418c8b67418c8cac418c8df2418c8f38418c907e418c91c4418c930a418c9451418c9597418c96de418c9826418c996d418c9ab4418c9bfc418c9d44418c9e8c418c9fd5418ca11d418ca266418ca3af418ca4f9418ca642418ca78c418ca8d5418caa1f418cab6a418cacb4418cadff418caf4a418cb095418cb1e0418cb32c418cb477418cb5c3418cb70f418cb85c418cb9a8418cbaf5418cbc42418cbd8f418cbedd418cc02a418cc178418cc2c6418cc415418cc563418cc6b2418cc801418cc950418cca9f418ccbef418ccd3e418cce8e418ccfdf418cd12f418cd280418cd3d0418cd521418cd673418cd7c4418cd916418cda68418cdbba418cdd0c418cde5f418cdfb2418ce105418ce258418ce3ab418ce4ff418ce653418ce7a7418ce8fb418cea50418ceba5418cecfa418cee4f,
  0x418aa223418aa323418aa423418aa524418aa624418aa725418aa826418aa927418aaa28418aab29418aac2a418aad2c418aae2d418aaf2f418ab031418ab133418ab235418ab337418ab439418ab53c418ab63e418ab741418ab844418ab947418aba4a418abb4d418abc51418abd54418abe58418abf5c418ac05f418ac163418ac268418ac36c418ac470418ac575418ac679418ac77e418ac883418ac988418aca8d418acb92418acc98418acd9d418acea3418acfa9418ad0af418ad1b5418ad2bb418ad3c2418ad4c8418ad5cf418ad6d5418ad7dc418ad8e3418ad9ea418adaf2418adbf9418add01418ade08418adf10418ae018418ae120418ae228418ae331418ae439418ae542418ae64a418ae753418ae85c418ae965418aea6f418aeb78418aec81418aed8b418aee95418aef9f418af0a9418af1b3418af2bd418af3c8418af4d3418af5dd418af6e8418af7f3418af8fe418afa0a418afb15418afc21418afd2c418afe38418aff44418b0050418b015c418b0269418b0375418b0482418b058f418b069c418b07a9418b08b6418b09c3418b0ad1418b0bdf418b0cec418b0dfa418b0f08418b1016418b1125418b1233418b1342418b1451418b155f418b166e418b177e418b188d418b199c418b1aac418b1bbc418b1ccb418b1ddb418b1eec418b1ffc418b210c418b221d418b232e418b243e418b254f418b2661418b2772418b2883418b2995418b2aa7418b2bb8418b2cca418b2ddd418b2eef418b3001418b3114418b3227418b3339418b344c418b3560418b3673418b3786418b389a418b39ae418b3ac1418b3bd5418b3cea418b3dfe418b3f12418b4027418b413c418b4251418b4366418b447b418b4590418b46a6418b47bb418b48d1418b49e7418b4afd418b4c13418b4d2a418b4e40418b4f57418b506e418b5184418b529c418b53b3418b54ca418b55e2418b56f9418b5811418b5929418b5a41418b5b5a418b5c72418b5d8b418b5ea4418b5fbc418b60d5418b61ef418b6308418b6422418b653b418b6655418b676f418b6889418b69a3418b6abe418b6bd8418b6cf3418b6e0e418b6f29418b7044418b715f418b727b418b7396418b74b2418b75ce418b76ea418b7806418b7923418b7a3f418b7b5c418b7c79418b7d96418b7eb3418b7fd1418b80ee418b820c418b8329418b8447418b8565418b8684418b87a2418b88c1418b89df418b8afe418b8c1d418b8d3d418b8e5c418b8f7b418b909b418b91bb418b92db418b93fb418b951b418b963c418b975d418b987d418b999e418b9abf418b9be1418b9d02418b9e24418b9f45418ba067418ba189418ba2ac418ba3ce418ba4f0418ba613418ba736418ba859418ba97c418baaa0418babc3418bace7418bae0b418baf2f418bb053418bb177418bb29c] ++
  [0x4189b0ce4189b1b24189b2964189b3794189b45d4189b5424189b6264189b70a4189b7ee4189b8d34189b9b84189ba9c4189bb814189bc664189bd4b4189be304189bf154189bffb4189c0e04189c1c54189c2ab4189c3914189c4774189c55c4189c6424189c7294189c80f4189c8f54189c9db4189cac24189cba94189cc8f4189cd764189ce5d4189cf444189d02b4189d1124189d1fa4189d2e14189d3c94189d4b04189d5984189d6804189d7684189d8504189d9384189da204189db094189dbf14189dcda4189ddc24189deab4189df944189e07d4189e1664189e24f4189e3384189e4224189e50b4189e5f54189e6de4189e7c84189e8b24189e99c4189ea864189eb704189ec5b4189ed454189ee304189ef1a4189f0054189f0f04189f1db4189f2c64189f3b14189f49c4189f5884189f6734189f75f4189f84a4189f9364189fa224189fb0e4189fbfa4189fce74189fdd34189febf4189ffac418a0098418a0185418a0272418a035f418a044c418a0539418a0627418a0714418a0801418a08ef418a09dd418a0acb418a0bb9418a0ca7418a0d95418a0e83418a0f71418a1060418a114e418a123d418a132c418a141b418a150a418a15f9418a16e8418a17d8418a18c7418a19b7418a1aa6418a1b96418a1c86418a1d76418a1e66418a1f56418a2047418a2137418a2228418a2318418a2409418a24fa418a25eb418a26dc418a27cd418a28bf418a29b0418a2aa2418a2b93418a2c85418a2d77418a2e69418a2f5b418a304d418a3140418a3232418a3325418a3417418a350a418a35fd418a36f0418a37e3418a38d6418a39ca418a3abd418a3bb1418a3ca4418a3d98418a3e8c418a3f80418a4074418a4168418a425d418a4351418a4446418a453b418a462f418a4724418a4819418a490f418a4a04418a4af9418a4bef418a4ce4418a4dda418a4ed0418a4fc6418a50bc418a51b2418a52a9418a539f418a5496418a558c418a5683418a577a418a5871418a5968418a5a5f418a5b57418a5c4e418a5d46418a5e3d418a5f35418a602d418a6125418a621e418a6316418a640e418a6507418a65ff418a66f8418a67f1418a68ea418a69e3418a6adc418a6bd6418a6ccf418a6dc9418a6ec3418a6fbc418a70b6418a71b1418a72ab418a73a5418a749f418a759a418a7695418a778f418a788a418a7985418a7a81418a7b7c418a7c77418a7d73418a7e6e418a7f6a418a8066418a8162418a825e418a835a418a8457418a8553418a8650418a874d418a8849418a8946418a8a44418a8b41418a8c3e418a8d3c418a8e39418a8f37418a9035418a9133418a9231418a932f418a942d418a952c418a962a418a9729418a9828418a9927418a9a26418a9b25418a9c24418a9d24418a9e23418a9f23418aa023418aa123,
  0x4188d8f04188d9bd4188da8a4188db574188dc244188dcf14188ddbf4188de8c4188df5a4188e0274188e0f54188e1c34188e2904188e35e4188e42c4188e4fa4188e5c84188e6974188e7654188e8334188e9024188e9d04188ea9f4188eb6e4188ec3c4188ed0b4188edda4188eea94188ef784188f0484188f1174188f1e64188f2b64188f3854188f4554188f5244188f5f44188f6c44188f7944188f8644188f9344188fa044188fad44188fba54188fc754188fd464188fe164188fee74188ffb841890089418901594189022a418902fc418903cd4189049e4189056f4189064141890712418907e4418908b64189098741890a5941890b2b41890bfd41890ccf41890da141890e7441890f4641891018418910eb418911bd41891290418913634189143641891509418915dc418916af418917824189185541891929418919fc41891ad041891ba341891c7741891d4b41891e1f41891ef341891fc74189209b4189216f4189224341892318418923ec418924c1418925954189266a4189273f41892814418928e9418929be41892a9341892b6841892c3e41892d1341892de941892ebe41892f944189306a4189314041893216418932ec418933c2418934984189356e418936454189371b418937f2418938c84189399f41893a7641893b4d41893c2441893cfb41893dd241893ea941893f81418940584189413041894207418942df418943b74189448f418945674189463f41894717418947ef418948c7418949a041894a7841894b5141894c2a41894d0341894ddb41894eb441894f8d418950674189514041895219418952f3418953cc418954a64189557f41895659418957334189580d418958e7418959c141895a9b41895b7641895c5041895d2b41895e0541895ee041895fbb41896095418961704189624b4189632741896402418964dd418965b941896694418967704189684b4189692741896a0341896adf41896bbb41896c9741896d7341896e5041896f2c41897009418970e5418971c24189729f4189737c418974594189753641897613418976f0418977ce418978ab4189798941897a6641897b4441897c2241897d0041897dde41897ebc41897f9a41898078418981574189823541898314418983f2418984d1418985b04189868f4189876e4189884d4189892c41898a0c41898aeb41898bcb41898caa41898d8a41898e6a41898f4a4189902a4189910a418991ea418992ca418993ab4189948b4189956c4189964d4189972d4189980e418998ef418999d041899ab141899b9341899c7441899d5541899e3741899f1941899ffa4189a0dc4189a1be4189a2a04189a3824189a4654189a5474189a6294189a70c4189a7ee4189a8d14189a9b44189aa974189ab7a4189ac5d4189ad404189ae244189af074189afea,
  0x418815ab4188166641881720418817db418818954188195041881a0a41881ac541881b8041881c3a41881cf541881db041881e6b41881f2641881fe14188209d4188215841882213418822cf4188238a4188244641882501418825bd4188267941882735418827f0418828ac4188296841882a2541882ae141882b9d41882c5941882d1641882dd241882e8e41882f4b41883008418830c4418831814188323e418832fb418833b84188347541883532418835ef418836ac4188376a41883827418838e4418839a241883a6041883b1d41883bdb41883c9941883d5741883e1441883ed241883f914188404f4188410d418841cb418842894188434841884406418844c5418845844188464241884701418847c04188487f4188493e418849fd41884abc41884b7b41884c3a41884cfa41884db941884e7841884f3841884ff7418850b74188517741885237418852f7418853b64188547641885537418855f7418856b74188577741885838418858f8418859b941885a7941885b3a41885bfa41885cbb41885d7c41885e3d41885efe41885fbf418860804188614141886203418862c4418863864188644741886509418865ca4188668c4188674e41886810418868d24188699441886a5641886b1841886bda41886c9c41886d5f41886e2141886ee441886fa6418870694188712c418871ee418872b14188737441887437418874fa418875bd418876814188774441887807418878cb4188798e41887a5241887b1641887bd941887c9d41887d6141887e2541887ee941887fad4188807141888135418881fa418882be41888383418884474188850c418885d1418886954188875a4188881f418888e4418889a941888a6e41888b3341888bf941888cbe41888d8441888e4941888f0f41888fd44188909a4188916041889226418892ec418893b2418894784188953e41889604418896cb41889791418898574188991e418899e541889aab41889b7241889c3941889d0041889dc741889e8e41889f554188a01c4188a0e44188a1ab4188a2734188a33a4188a4024188a4c94188a5914188a6594188a7214188a7e94188a8b14188a9794188aa414188ab0a4188abd24188ac9b4188ad634188ae2c4188aef44188afbd4188b0864188b14f4188b2184188b2e14188b3aa4188b4734188b53d4188b6064188b6cf4188b7994188b8634188b92c4188b9f64188bac04188bb8a4188bc544188bd1e4188bde84188beb24188bf7d4188c0474188c1114188c1dc4188c2a74188c3714188c43c4188c5074188c5d24188c69d4188c7684188c8334188c8fe4188c9ca4188ca954188cb614188cc2c4188ccf84188cdc44188ce8f4188cf5b4188d0274188d0f34188d1bf4188d28c4188d3584188d4244188d4f14188d5bd4188d68a4188d7564188d823,
  0x4187636941876414418764be4187656941876614418766bf4187676a41876815418768c04187696c41876a1741876ac241876b6e41876c1941876cc441876d7041876e1c41876ec741876f734187701f418770cb4187717641877222418772ce4187737a41877426418774d34187757f4187762b418776d74187778441877830418778dd4187798941877a3641877ae341877b8f41877c3c41877ce941877d9641877e4341877ef041877f9d4187804a418780f7418781a441878252418782ff418783ac4187845a41878507418785b54187866241878710418787be4187886c4187891a418789c841878a7641878b2441878bd241878c8041878d2e41878ddc41878e8b41878f3941878fe74187909641879144418791f3418792a241879351418793ff418794ae4187955d4187960c418796bb4187976a41879819418798c84187997841879a2741879ad641879b8641879c3541879ce541879d9541879e4441879ef441879fa44187a0544187a1034187a1b34187a2634187a3144187a3c44187a4744187a5244187a5d44187a6854187a7354187a7e64187a8964187a9474187a9f84187aaa84187ab594187ac0a4187acbb4187ad6c4187ae1d4187aece4187af7f4187b0304187b0e24187b1934187b2444187b2f64187b3a74187b4594187b50b4187b5bc4187b66e4187b7204187b7d24187b8844187b9364187b9e84187ba9a4187bb4c4187bbfe4187bcb14187bd634187be154187bec84187bf7a4187c02d4187c0e04187c1924187c2454187c2f84187c3ab4187c45e4187c5114187c5c44187c6774187c72a4187c7de4187c8914187c9444187c9f84187caab4187cb5f4187cc134187ccc64187cd7a4187ce2e4187cee24187cf964187d04a4187d0fe4187d1b24187d2664187d31a4187d3cf4187d4834187d5384187d5ec4187d6a14187d7554187d80a4187d8bf4187d9744187da284187dadd4187db924187dc474187dcfd4187ddb24187de674187df1c4187dfd24187e0874187e13d4187e1f24187e2a84187e35e4187e4134187e4c94187e57f4187e6354187e6eb4187e7a14187e8574187e90d4187e9c44187ea7a4187eb304187ebe74187ec9d4187ed544187ee0b4187eec14187ef784187f02f4187f0e64187f19d4187f2544187f30b4187f3c24187f4794187f5314187f5e84187f69f4187f7574187f80e4187f8c64187f97e4187fa354187faed4187fba54187fc5d4187fd154187fdcd4187fe854187ff3d4187fff6418800ae418801664188021f418802d7418803904188044841880501418805ba418806734188072c418807e54188089e4188095741880a1041880ac941880b8241880c3c41880cf541880daf41880e6841880f2241880fdc418810954188114f41881209418812c34188137d41881437418814f1,
  0x4186bf6e4186c00c4186c0aa4186c1474186c1e54186c2834186c3214186c3bf4186c45d4186c4fb4186c5994186c6374186c6d54186c7734186c8114186c8af4186c94e4186c9ec4186ca8b4186cb294186cbc84186cc664186cd054186cda34186ce424186cee14186cf804186d01f4186d0bd4186d15c4186d1fb4186d29a4186d33a4186d3d94186d4784186d5174186d5b64186d6564186d6f54186d7954186d8344186d8d44186d9734186da134186dab24186db524186dbf24186dc924186dd324186ddd14186de714186df114186dfb24186e0524186e0f24186e1924186e2324186e2d34186e3734186e4134186e4b44186e5544186e5f54186e6954186e7364186e7d74186e8784186e9184186e9b94186ea5a4186eafb4186eb9c4186ec3d4186ecde4186ed7f4186ee214186eec24186ef634186f0044186f0a64186f1474186f1e94186f28a4186f32c4186f3ce4186f46f4186f5114186f5b34186f6554186f6f64186f7984186f83a4186f8dc4186f97f4186fa214186fac34186fb654186fc074186fcaa4186fd4c4186fdef4186fe914186ff344186ffd6418700794187011c418701be4187026141870304418703a74187044a418704ed4187059041870633418706d6418707794187081d418708c04187096341870a0741870aaa41870b4e41870bf141870c9541870d3841870ddc41870e8041870f2441870fc84187106c4187110f418711b441871258418712fc418713a041871444418714e84187158d41871631418716d64187177a4187181f418718c34187196841871a0c41871ab141871b5641871bfb41871ca041871d4541871dea41871e8f41871f3441871fd94187207e41872123418721c94187226e41872314418723b94187245f41872504418725aa4187264f418726f54187279b41872841418728e74187298d41872a3341872ad941872b7f41872c2541872ccb41872d7141872e1841872ebe41872f644187300b418730b141873158418731ff418732a54187334c418733f34187349a41873541418735e74187368e41873736418737dd418738844187392b418739d241873a7a41873b2141873bc841873c7041873d1741873dbf41873e6741873f0e41873fb64187405e41874106418741ae41874256418742fe418743a64187444e418744f64187459e41874646418746ef4187479741874840418748e84187499141874a3941874ae241874b8b41874c3341874cdc41874d8541874e2e41874ed741874f8041875029418750d24187517c41875225418752ce4187537841875421418754ca418755744187561e418756c7418757714187581b418758c44187596e41875a1841875ac241875b6c41875c1641875cc041875d6b41875e1541875ebf41875f6a41876014418760be4187616941876214418762be,
  0x4186279d41862830418628c241862954418629e741862a7941862b0c41862b9e41862c3141862cc441862d5641862de941862e7c41862f0f41862fa241863035418630c84186315b418631ee4186328141863314418633a74186343a418634ce41863561418635f4418636884186371b418637ae41863842418638d541863969418639fd41863a9041863b2441863bb841863c4c41863cdf41863d7341863e0741863e9b41863f2f41863fc341864057418640eb4186418041864214418642a84186433c418643d141864465418644f94186458e41864622418646b74186474c418647e0418648754186490a4186499e41864a3341864ac841864b5d41864bf241864c8741864d1c41864db141864e4641864edb41864f70418650054186509b41865130418651c54186525b418652f0418653864186541b418654b141865546418655dc41865672418657074186579d41865833418658c94186595f418659f541865a8b41865b2141865bb741865c4d41865ce341865d7941865e1041865ea641865f3c41865fd341866069418660ff418661964186622c418662c34186635a418663f0418664874186651e418665b54186664c418666e24186677941866810418668a74186693e418669d641866a6d41866b0441866b9b41866c3241866cca41866d6141866df941866e9041866f2841866fbf41867057418670ee418671864186721e418672b54186734d418673e54186747d41867515418675ad41867645418676dd418677754186780d418678a64186793e418679d641867a6e41867b0741867b9f41867c3841867cd041867d6941867e0141867e9a41867f3341867fcc41868064418680fd418681964186822f418682c841868361418683fa418684934186852c418685c54186865f418686f8418687914186882b418688c44186895e418689f741868a9141868b2a41868bc441868c5d41868cf741868d9141868e2b41868ec541868f5f41868ff9418690934186912d418691c741869261418692fb418693954186942f418694ca41869564418695ff4186969941869734418697ce41869869418699034186999e41869a3941869ad341869b6e41869c0941869ca441869d3f41869dda41869e7541869f1041869fab4186a0464186a0e24186a17d4186a2184186a2b44186a34f4186a3eb4186a4864186a5224186a5bd4186a6594186a6f54186a7904186a82c4186a8c84186a9644186aa004186aa9c4186ab384186abd44186ac704186ad0c4186ada84186ae444186aee14186af7d4186b0194186b0b64186b1524186b1ef4186b28b4186b3284186b3c54186b4614186b4fe4186b59b4186b6384186b6d54186b7724186b80f4186b8ac4186b9494186b9e64186ba834186bb204186bbbe4186bc5b4186bcf84186bd964186be334186bed1,
  0x41859a4741859ad041859b5841859be141859c6a41859cf341859d7b41859e0441859e8d41859f1641859f9f4185a0284185a0b14185a13a4185a1c34185a24c4185a2d54185a35e4185a3e74185a4714185a4fa4185a5834185a60c4185a6964185a71f4185a7a94185a8324185a8bc4185a9454185a9cf4185aa584185aae24185ab6c4185abf64185ac7f4185ad094185ad934185ae1d4185aea74185af314185afbb4185b0454185b0cf4185b1594185b1e34185b26d4185b2f74185b3824185b40c4185b4964185b5214185b5ab4185b6354185b6c04185b74a4185b7d54185b85f4185b8ea4185b9754185b9ff4185ba8a4185bb154185bba04185bc2b4185bcb54185bd404185bdcb4185be564185bee14185bf6c4185bff74185c0824185c10e4185c1994185c2244185c2af4185c33b4185c3c64185c4514185c4dd4185c5684185c5f44185c67f4185c70b4185c7964185c8224185c8ae4185c9394185c9c54185ca514185cadd4185cb694185cbf54185cc814185cd0d4185cd994185ce254185ceb14185cf3d4185cfc94185d0554185d0e14185d16e4185d1fa4185d2864185d3134185d39f4185d42c4185d4b84185d5454185d5d14185d65e4185d6eb4185d7774185d8044185d8914185d91e4185d9aa4185da374185dac44185db514185dbde4185dc6b4185dcf84185dd854185de134185dea04185df2d4185dfba4185e0474185e0d54185e1624185e1f04185e27d4185e30b4185e3984185e4264185e4b34185e5414185e5cf4185e65c4185e6ea4185e7784185e8064185e8944185e9214185e9af4185ea3d4185eacb4185eb594185ebe84185ec764185ed044185ed924185ee204185eeaf4185ef3d4185efcb4185f05a4185f0e84185f1774185f2054185f2944185f3224185f3b14185f4404185f4ce4185f55d4185f5ec4185f67b4185f70a4185f7994185f8284185f8b74185f9464185f9d54185fa644185faf34185fb824185fc114185fca14185fd304185fdbf4185fe4f4185fede4185ff6e4185fffd4186008d4186011c418601ac4186023b418602cb4186035b418603eb4186047b4186050a4186059a4186062a418606ba4186074a418607da4186086a418608fa4186098b41860a1b41860aab41860b3b41860bcc41860c5c41860ced41860d7d41860e0d41860e9e41860f2f41860fbf41861050418610e141861171418612024186129341861324418613b541861446418614d741861568418615f94186168a4186171b418617ac4186183d418618ce41861960418619f141861a8241861b1441861ba541861c3741861cc841861d5a41861dec41861e7d41861f0f41861fa141862032418620c441862156418621e84186227a4186230c4186239e41862430418624c241862554418625e6418626794186270b,
  0x418516124185169241851712418517924185181241851893418519134185199341851a1341851a9441851b1441851b9441851c1541851c9541851d1541851d9641851e1641851e9741851f1841851f98418520194185209a4185211a4185219b4185221c4185229d4185231d4185239e4185241f418524a041852521418525a241852623418526a441852725418527a641852827418528a94185292a418529ab41852a2c41852aae41852b2f41852bb041852c3241852cb341852d3541852db641852e3841852eb941852f3b41852fbd4185303e418530c041853142418531c341853245418532c741853349418533cb4185344d418534cf41853551418535d341853655418536d741853759418537db4185385d418538df41853962418539e441853a6641853ae941853b6b41853bed41853c7041853cf241853d7541853df741853e7a41853efc41853f7f4185400241854084418541074185418a4185420d418542904185431241854395418544184185449b4185451e418545a141854624418546a74185472a418547ae41854831418548b441854937418549bb41854a3e41854ac141854b4541854bc841854c4b41854ccf41854d5241854dd641854e5a41854edd41854f6141854fe541855068418550ec41855170418551f441855277418552fb4185537f41855403418554874185550b4185558f41855613418556974185571c418557a041855824418558a84185592c418559b141855a3541855aba41855b3e41855bc241855c4741855ccb41855d5041855dd441855e5941855ede41855f6241855fe74185606c418560f141856176418561fa4185627f41856304418563894185640e41856493418565184185659d41856622418566a84185672d418567b241856837418568bc41856942418569c741856a4d41856ad241856b5741856bdd41856c6241856ce841856d6e41856df341856e7941856eff41856f844185700a41857090418571164185719c41857221418572a74185732d418573b341857439418574bf41857546418575cc41857652418576d84185775e418577e54185786b418578f141857978418579fe41857a8541857b0b41857b9241857c1841857c9f41857d2541857dac41857e3341857eb941857f4041857fc74185804e418580d54185815c418581e241858269418582f041858377418583ff418584864185850d418585944185861b418586a24185872a418587b141858838418588c041858947418589cf41858a5641858ade41858b6541858bed41858c7441858cfc41858d8441858e0c41858e9341858f1b41858fa34185902b418590b34185913b418591c34185924b418592d34185935b418593e34185946b418594f34185957c418596044185968c418597154185979d41859825418598ae41859936418599bf] ++
  [0x41851592]

/-- R420, GUMB lower side level 3: entry j for j = 0 to 4,096. -/
def gumbL3 : List Nat :=
  [0xc054a3f7c054a64ac054a89ec054aaf5c054ad4ec054afa9c054b207c054b467c054b6cac054b92fc054bb96c054be00c054c06cc054c2dac054c54cc054c7bfc054ca35c054ccaec054cf29c054d1a7c054d427c054d6abc054d930c054dbb9c054de44c054e0d2c054e362c054e5f5c054e88cc054eb25c054edc0c054f05fc054f301c054f5a5c054f84dc054faf7c054fda4c0550055c0550308c05505bfc0550878c0550b35c0550df5c05510b8c055137fc0551648c0551915c0551be5c0551eb9c0552190c055246ac0552748c0552a29c0552d0ec0552ff6c05532e2c05535d2c05538c5c0553bbcc0553eb7c05541b5c05544b7c05547bdc0554ac7c0554dd5c05550e6c05553fcc0555716c0555a34c0555d56c055607cc05563a6c05566d5c0556a08c0556d3fc055707bc05573bbc05576ffc0557a49c0557d96c05580e9c0558440c055879cc0558afcc0558e62c05591ccc055953cc05598b0c0559c2ac0559fa8c055a32cc055a6b6c055aa44c055add8c055b171c055b510c055b8b5c055bc5fc055c00fc055c3c5c055c780c055cb42c055cf0ac055d2d8c055d6acc055da86c055de66c055e24ec055e63bc055ea2fc055ee2ac055f22cc055f635c055fa44c055fe5bc0560279c056069ec0560acbc0560effc056133bc056177ec0561bc9c056201cc0562478c05628dbc0562d47c05631bbc0563638c0563abdc0563f4bc05643e2c0564883c0564d2cc05651dfc056569cc0565b62c0566032c056650cc05669f0c0566edfc05673d8c05678dcc0567debc0568305c056882ac0568d5bc0569298c05697e0c0569d34c056a295c056a803c056ad7dc056b305c056b899c056be3cc056c3ecc056c9aac056cf77c056d552c056db3cc056e136c056e73fc056ed59c056f382c056f9bcc0570008c0570664c0570cd2c0571353c05719e6c057208cc0572745c0572e13c05734f4c0573bebc05742f7c0574a19c0575151c05758a1c0576008c0576787c0576f1fc05776d0c0577e9cc0578683c0578e85c05796a4c0579ee0c057a73bc057afb4c057b84ec057c108c057c9e4c057d2e4c057dc07c057e550c057eebfc057f857c0580217c0580c02c058161ac058205fc0582ad3c0583579c0584052c0584b60c05856a5c0586224c0586ddfc05879d7c0588611c058928fc0589f54c058ac63c058b9c0c058c76ec058d573c058e3d1c058f28ec05901aec0591139c0592132c05931a2c059428ec05953ffc05965fec0597894c0598bcbc0599fafc059b44cc059c9b2c059dff0c059f717c05a0f3dc05a287ac05a42e6c05a5ea3c05a7bd2c05a9a9dc05abb37c05addd9c05b02cbc05b2a62c05b5509c05b8347c05bb5c7c05bed6dc05c2b69c05c7167c05cc1d4c05d2073c05d9383c05e26adc05ef3dfc0604ccfc06a2a6a,
  0xc0530408c0530538c0530668c0530799c05308cbc05309fdc0530b30c0530c63c0530d97c0530eccc0531001c0531137c053126dc05313a4c05314dcc0531614c053174dc0531886c05319c0c0531afac0531c36c0531d71c0531eaec0531febc0532129c0532267c05323a6c05324e6c0532626c0532767c05328a8c05329eac0532b2dc0532c71c0532db5c0532ef9c053303fc0533185c05332ccc0533413c053355bc05336a4c05337edc0533937c0533a82c0533bcec0533d1ac0533e67c0533fb4c0534102c0534251c05343a1c05344f1c0534642c0534794c05348e6c0534a39c0534b8dc0534ce2c0534e37c0534f8dc05350e4c053523cc0535394c05354edc0535647c05357a1c05358fcc0535a58c0535bb5c0535d13c0535e71c0535fd0c0536130c0536290c05363f2c0536554c05366b7c053681bc053697fc0536ae4c0536c4bc0536db1c0536f19c0537082c05371ebc0537355c05374c0c053762cc0537799c0537906c0537a74c0537be4c0537d54c0537ec4c0538036c05381a9c053831cc0538490c0538606c053877cc05388f2c0538a6ac0538be3c0538d5dc0538ed7c0539052c05391cfc053934cc05394cac0539649c05397c9c053994ac0539acbc0539c4ec0539dd2c0539f56c053a0dcc053a262c053a3eac053a572c053a6fcc053a886c053aa11c053ab9ec053ad2bc053aeb9c053b049c053b1d9c053b36ac053b4fcc053b690c053b824c053b9bac053bb50c053bce7c053be80c053c01ac053c1b4c053c350c053c4edc053c68ac053c829c053c9c9c053cb6ac053cd0dc053ceb0c053d054c053d1fac053d3a0c053d548c053d6f1c053d89bc053da46c053dbf2c053dda0c053df4fc053e0fec053e2afc053e462c053e615c053e7c9c053e97fc053eb36c053eceec053eea8c053f062c053f21ec053f3dbc053f59ac053f759c053f91ac053fadcc053fca0c053fe65c054002bc05401f2c05403bbc0540585c0540750c054091dc0540aebc0540cbac0540e8bc054105dc0541230c0541405c05415dbc05417b3c054198cc0541b66c0541d42c0541f1fc05420fec05422dec05424c0c05426a3c0542888c0542a6ec0542c55c0542e3ec0543029c0543215c0543403c05435f2c05437e3c05439d5c0543bc9c0543dbfc0543fb6c05441afc05443a9c05445a5c05447a3c05449a2c0544ba3c0544da5c0544faac05451b0c05453b7c05455c1c05457ccc05459d9c0545be7c0545df8c054600ac054621ec0546434c054664bc0546865c0546a80c0546c9dc0546ebcc05470ddc0547300c0547524c054774bc0547973c0547b9ec0547dcac0547ff8c0548229c054845bc0548690c05488c6c0548afec0548d39c0548f76c05491b4c05493f5c0549638c054987dc0549ac4c0549d0ec0549f59c054a1a7,
  0xc0520c0bc0520cd8c0520da6c0520e74c0520f42c0521011c05210e0c05211afc052127ec052134ec052141dc05214edc05215bec052168ec052175fc0521831c0521902c05219d4c0521aa6c0521b78c0521c4ac0521d1dc0521df0c0521ec4c0521f97c052206bc052213fc0522214c05222e8c05223bdc0522493c0522568c052263ec0522714c05227eac05228c1c0522998c0522a6fc0522b47c0522c1fc0522cf7c0522dcfc0522ea8c0522f81c052305ac0523133c052320dc05232e7c05233c2c052349cc0523577c0523653c052372ec052380ac05238e6c05239c3c0523a9fc0523b7dc0523c5ac0523d38c0523e15c0523ef4c0523fd2c05240b1c0524190c0524270c0524350c0524430c0524510c05245f1c05246d2c05247b3c0524895c0524977c0524a59c0524b3cc0524c1fc0524d02c0524de5c0524ec9c0524fadc0525092c0525177c052525cc0525341c0525427c052550dc05255f3c05256dac05257c1c05258a9c0525990c0525a79c0525b61c0525c4ac0525d33c0525e1cc0525f06c0525ff0c05260dac05261c5c05262b0c052639cc0526487c0526573c0526660c052674dc052683ac0526927c0526a15c0526b03c0526bf2c0526ce1c0526dd0c0526ec0c0526fb0c05270a0c0527191c0527282c0527373c0527465c0527557c0527649c052773cc052782fc0527923c0527a17c0527b0bc0527bffc0527cf4c0527deac0527ee0c0527fd6c05280ccc05281c3c05282bac05283b2c05284aac05285a2c052869bc0528794c052888ec0528988c0528a82c0528b7dc0528c78c0528d73c0528e6fc0528f6bc0529068c0529165c0529262c0529360c052945ec052955dc052965cc052975bc052985bc052995bc0529a5cc0529b5dc0529c5ec0529d60c0529e62c0529f65c052a068c052a16cc052a270c052a374c052a479c052a57ec052a683c052a789c052a890c052a997c052aa9ec052aba6c052acaec052adb6c052aebfc052afc9c052b0d3c052b1ddc052b2e8c052b3f3c052b4ffc052b60bc052b717c052b824c052b932c052ba40c052bb4ec052bc5dc052bd6cc052be7cc052bf8cc052c09cc052c1adc052c2bfc052c3d1c052c4e3c052c5f6c052c70ac052c81ec052c932c052ca47c052cb5cc052cc72c052cd88c052ce9fc052cfb6c052d0cdc052d1e6c052d2fec052d417c052d531c052d64bc052d766c052d881c052d99cc052dab8c052dbd5c052dcf2c052de10c052df2ec052e04dc052e16cc052e28bc052e3abc052e4ccc052e5edc052e70fc052e831c052e954c052ea77c052eb9bc052ecbfc052ede4c052ef0ac052f030c052f156c052f27dc052f3a5c052f4cdc052f5f5c052f71ec052f848c052f972c052fa9dc052fbc9c052fcf5c052fe21c052ff4ec053007cc05301aac05302d9,
  0xc05159dfc0515a7bc0515b17c0515bb3c0515c4fc0515cebc0515d88c0515e24c0515ec1c0515f5ec0515ffbc0516098c0516136c05161d3c0516271c051630fc05163adc051644bc05164e9c0516587c0516626c05166c5c0516763c0516802c05168a2c0516941c05169e0c0516a80c0516b20c0516bc0c0516c60c0516d00c0516da1c0516e41c0516ee2c0516f83c0517024c05170c5c0517166c0517208c05172a9c051734bc05173edc051748fc0517532c05175d4c0517677c051771ac05177bdc0517860c0517903c05179a6c0517a4ac0517aeec0517b92c0517c36c0517cdac0517d7ec0517e23c0517ec8c0517f6cc0518011c05180b7c051815cc0518202c05182a7c051834dc05183f3c051849ac0518540c05185e6c051868dc0518734c05187dbc0518882c051892ac05189d1c0518a79c0518b21c0518bc9c0518c71c0518d1ac0518dc2c0518e6bc0518f14c0518fbdc0519066c0519110c05191bac0519263c051930dc05193b7c0519462c051950cc05195b7c0519662c051970dc05197b8c0519864c051990fc05199bbc0519a67c0519b13c0519bbfc0519c6cc0519d18c0519dc5c0519e72c0519f1fc0519fcdc051a07ac051a128c051a1d6c051a284c051a332c051a3e1c051a490c051a53ec051a5eec051a69dc051a74cc051a7fcc051a8acc051a95cc051aa0cc051aabcc051ab6dc051ac1dc051accec051ad7fc051ae31c051aee2c051af94c051b046c051b0f8c051b1aac051b25dc051b30fc051b3c2c051b475c051b528c051b5dcc051b68fc051b743c051b7f7c051b8abc051b960c051ba14c051bac9c051bb7ec051bc33c051bce9c051bd9ec051be54c051bf0ac051bfc0c051c077c051c12dc051c1e4c051c29bc051c353c051c40ac051c4c2c051c579c051c632c051c6eac051c7a2c051c85bc051c914c051c9cdc051ca86c051cb40c051cbf9c051ccb3c051cd6dc051ce28c051cee2c051cf9dc051d058c051d113c051d1cfc051d28ac051d346c051d402c051d4bec051d57bc051d638c051d6f4c051d7b2c051d86fc051d92dc051d9eac051daa8c051db67c051dc25c051dce4c051dda3c051de62c051df21c051dfe1c051e0a0c051e160c051e221c051e2e1c051e3a2c051e463c051e524c051e5e5c051e6a7c051e769c051e82bc051e8edc051e9afc051ea72c051eb35c051ebf8c051ecbcc051ed7fc051ee43c051ef07c051efccc051f090c051f155c051f21ac051f2e0c051f3a5c051f46bc051f531c051f5f7c051f6bec051f785c051f84cc051f913c051f9dac051faa2c051fb6ac051fc32c051fcfbc051fdc3c051fe8cc051ff56c052001fc05200e9c05201b3c052027dc0520347c0520412c05204ddc05205a8c0520674c052073fc052080bc05208d7c05209a4c0520a71c0520b3e,
  0xc050ce5cc050cedac050cf58c050cfd6c050d053c050d0d1c050d150c050d1cec050d24cc050d2cac050d349c050d3c7c050d446c050d4c5c050d544c050d5c3c050d642c050d6c1c050d740c050d7bfc050d83fc050d8bec050d93ec050d9bec050da3dc050dabdc050db3dc050dbbec050dc3ec050dcbec050dd3ec050ddbfc050de40c050dec0c050df41c050dfc2c050e043c050e0c4c050e145c050e1c7c050e248c050e2cac050e34bc050e3cdc050e44fc050e4d1c050e553c050e5d5c050e657c050e6d9c050e75cc050e7dec050e861c050e8e4c050e966c050e9e9c050ea6cc050eaf0c050eb73c050ebf6c050ec7ac050ecfdc050ed81c050ee05c050ee88c050ef0cc050ef90c050f015c050f099c050f11dc050f1a2c050f226c050f2abc050f330c050f3b5c050f43ac050f4bfc050f544c050f5cac050f64fc050f6d5c050f75ac050f7e0c050f866c050f8ecc050f972c050f9f8c050fa7fc050fb05c050fb8bc050fc12c050fc99c050fd20c050fda7c050fe2ec050feb5c050ff3cc050ffc4c051004bc05100d3c051015ac05101e2c051026ac05102f2c051037bc0510403c051048bc0510514c051059cc0510625c05106aec0510737c05107c0c0510849c05108d2c051095cc05109e5c0510a6fc0510af9c0510b83c0510c0dc0510c97c0510d21c0510dabc0510e36c0510ec0c0510f4bc0510fd6c0511061c05110ecc0511177c0511202c051128dc0511319c05113a5c0511430c05114bcc0511548c05115d4c0511660c05116edc0511779c0511806c0511892c051191fc05119acc0511a39c0511ac6c0511b54c0511be1c0511c6ec0511cfcc0511d8ac0511e18c0511ea6c0511f34c0511fc2c0512050c05120dfc051216dc05121fcc051228bc051231ac05123a9c0512438c05124c8c0512557c05125e7c0512676c0512706c0512796c0512826c05128b7c0512947c05129d7c0512a68c0512af9c0512b89c0512c1ac0512cacc0512d3dc0512dcec0512e60c0512ef1c0512f83c0513015c05130a7c0513139c05131cbc051325dc05132f0c0513383c0513415c05134a8c051353bc05135cec0513662c05136f5c0513789c051381cc05138b0c0513944c05139d8c0513a6cc0513b01c0513b95c0513c2ac0513cbfc0513d53c0513de8c0513e7ec0513f13c0513fa8c051403ec05140d3c0514169c05141ffc0514295c051432bc05143c2c0514458c05144efc0514586c051461dc05146b4c051474bc05147e2c051487ac0514911c05149a9c0514a41c0514ad9c0514b71c0514c09c0514ca2c0514d3ac0514dd3c0514e6cc0514f05c0514f9ec0515037c05150d1c051516ac0515204c051529ec0515338c05153d2c051546cc0515507c05155a1c051563cc05156d7c0515772c051580dc05158a8c0515944,
  0xc0505b81c0505beac0505c54c0505cbdc0505d27c0505d90c0505dfac0505e64c0505ecec0505f38c0505fa2c050600cc0506076c05060e0c050614ac05061b5c050621fc0506289c05062f4c050635fc05063c9c0506434c050649fc050650ac0506575c05065e0c050664bc05066b6c0506721c050678cc05067f8c0506863c05068cec050693ac05069a6c0506a11c0506a7dc0506ae9c0506b55c0506bc1c0506c2dc0506c99c0506d05c0506d71c0506ddec0506e4ac0506eb6c0506f23c0506f90c0506ffcc0507069c05070d6c0507143c05071b0c050721dc050728ac05072f7c0507364c05073d1c050743fc05074acc050751ac0507587c05075f5c0507663c05076d0c050773ec05077acc050781ac0507888c05078f6c0507965c05079d3c0507a41c0507ab0c0507b1ec0507b8dc0507bfcc0507c6ac0507cd9c0507d48c0507db7c0507e26c0507e95c0507f04c0507f74c0507fe3c0508052c05080c2c0508131c05081a1c0508211c0508280c05082f0c0508360c05083d0c0508440c05084b0c0508521c0508591c0508601c0508672c05086e2c0508753c05087c4c0508834c05088a5c0508916c0508987c05089f8c0508a69c0508adac0508b4cc0508bbdc0508c2ec0508ca0c0508d12c0508d83c0508df5c0508e67c0508ed9c0508f4bc0508fbdc050902fc05090a1c0509113c0509186c05091f8c050926bc05092ddc0509350c05093c3c0509435c05094a8c050951bc050958ec0509602c0509675c05096e8c050975cc05097cfc0509843c05098b6c050992ac050999ec0509a12c0509a85c0509af9c0509b6ec0509be2c0509c56c0509ccac0509d3fc0509db3c0509e28c0509e9dc0509f11c0509f86c0509ffbc050a070c050a0e5c050a15ac050a1d0c050a245c050a2bac050a330c050a3a5c050a41bc050a491c050a507c050a57dc050a5f3c050a669c050a6dfc050a755c050a7cbc050a842c050a8b8c050a92fc050a9a5c050aa1cc050aa93c050ab0ac050ab81c050abf8c050ac6fc050ace6c050ad5ec050add5c050ae4dc050aec4c050af3cc050afb4c050b02cc050b0a3c050b11bc050b194c050b20cc050b284c050b2fcc050b375c050b3edc050b466c050b4dfc050b558c050b5d0c050b649c050b6c2c050b73cc050b7b5c050b82ec050b8a8c050b921c050b99bc050ba14c050ba8ec050bb08c050bb82c050bbfcc050bc76c050bcf0c050bd6bc050bde5c050be5fc050bedac050bf55c050bfcfc050c04ac050c0c5c050c140c050c1bbc050c236c050c2b2c050c32dc050c3a9c050c424c050c4a0c050c51cc050c597c050c613c050c68fc050c70cc050c788c050c804c050c880c050c8fdc050c97ac050c9f6c050ca73c050caf0c050cb6dc050cbeac050cc67c050cce4c050cd62c050cddf,
  0xc04ff9c5c04ffa20c04ffa7bc04ffad6c04ffb31c04ffb8cc04ffbe7c04ffc42c04ffc9dc04ffcf9c04ffd54c04ffdafc04ffe0bc04ffe66c04ffec2c04fff1dc04fff79c04fffd5c0500030c050008cc05000e8c0500144c05001a0c05001fbc0500257c05002b4c0500310c050036cc05003c8c0500424c0500481c05004ddc0500539c0500596c05005f2c050064fc05006abc0500708c0500765c05007c1c050081ec050087bc05008d8c0500935c0500992c05009efc0500a4cc0500aa9c0500b07c0500b64c0500bc1c0500c1fc0500c7cc0500cd9c0500d37c0500d95c0500df2c0500e50c0500eaec0500f0bc0500f69c0500fc7c0501025c0501083c05010e1c050113fc050119dc05011fcc050125ac05012b8c0501316c0501375c05013d3c0501432c0501490c05014efc050154ec05015acc050160bc050166ac05016c9c0501728c0501787c05017e6c0501845c05018a4c0501903c0501963c05019c2c0501a21c0501a81c0501ae0c0501b40c0501b9fc0501bffc0501c5fc0501cbfc0501d1ec0501d7ec0501ddec0501e3ec0501e9ec0501efec0501f5ec0501fbfc050201fc050207fc05020dfc0502140c05021a0c0502201c0502261c05022c2c0502323c0502383c05023e4c0502445c05024a6c0502507c0502568c05025c9c050262ac050268bc05026edc050274ec05027afc0502811c0502872c05028d4c0502935c0502997c05029f9c0502a5ac0502abcc0502b1ec0502b80c0502be2c0502c44c0502ca6c0502d08c0502d6ac0502dcdc0502e2fc0502e91c0502ef4c0502f56c0502fb9c050301bc050307ec05030e1c0503144c05031a6c0503209c050326cc05032cfc0503332c0503395c05033f9c050345cc05034bfc0503523c0503586c05035e9c050364dc05036b1c0503714c0503778c05037dcc050383fc05038a3c0503907c050396bc05039cfc0503a34c0503a98c0503afcc0503b60c0503bc5c0503c29c0503c8ec0503cf2c0503d57c0503dbbc0503e20c0503e85c0503eeac0503f4fc0503fb4c0504019c050407ec05040e3c0504148c05041adc0504213c0504278c05042dec0504343c05043a9c050440ec0504474c05044dac0504540c05045a5c050460bc0504671c05046d7c050473ec05047a4c050480ac0504870c05048d7c050493dc05049a4c0504a0ac0504a71c0504ad8c0504b3ec0504ba5c0504c0cc0504c73c0504cdac0504d41c0504da8c0504e0fc0504e77c0504edec0504f45c0504fadc0505014c050507cc05050e3c050514bc05051b3c050521bc0505283c05052ebc0505353c05053bbc0505423c050548bc05054f3c050555cc05055c4c050562dc0505695c05056fec0505766c05057cfc0505838c05058a1c050590ac0505973c05059dcc0505a45c0505aaec0505b17,
  0xc04fa4a5c04fa4f5c04fa545c04fa595c04fa5e5c04fa635c04fa685c04fa6d5c04fa725c04fa775c04fa7c6c04fa816c04fa866c04fa8b6c04fa907c04fa957c04fa9a8c04fa9f8c04faa49c04faa99c04faaeac04fab3bc04fab8bc04fabdcc04fac2dc04fac7ec04faccfc04fad20c04fad71c04fadc2c04fae13c04fae64c04faeb5c04faf06c04faf57c04fafa8c04faff9c04fb04bc04fb09cc04fb0edc04fb13fc04fb190c04fb1e2c04fb233c04fb285c04fb2d6c04fb328c04fb37ac04fb3cbc04fb41dc04fb46fc04fb4c1c04fb513c04fb565c04fb5b7c04fb609c04fb65bc04fb6adc04fb6ffc04fb751c04fb7a3c04fb7f5c04fb848c04fb89ac04fb8ecc04fb93fc04fb991c04fb9e4c04fba36c04fba89c04fbadbc04fbb2ec04fbb80c04fbbd3c04fbc26c04fbc79c04fbcccc04fbd1ec04fbd71c04fbdc4c04fbe17c04fbe6ac04fbebdc04fbf11c04fbf64c04fbfb7c04fc00ac04fc05dc04fc0b1c04fc104c04fc157c04fc1abc04fc1fec04fc252c04fc2a5c04fc2f9c04fc34dc04fc3a0c04fc3f4c04fc448c04fc49cc04fc4f0c04fc543c04fc597c04fc5ebc04fc63fc04fc693c04fc6e8c04fc73cc04fc790c04fc7e4c04fc838c04fc88dc04fc8e1c04fc935c04fc98ac04fc9dec04fca33c04fca87c04fcadcc04fcb31c04fcb85c04fcbdac04fcc2fc04fcc84c04fccd9c04fcd2dc04fcd82c04fcdd7c04fce2cc04fce82c04fced7c04fcf2cc04fcf81c04fcfd6c04fd02cc04fd081c04fd0d6c04fd12cc04fd181c04fd1d7c04fd22cc04fd282c04fd2d7c04fd32dc04fd383c04fd3d8c04fd42ec04fd484c04fd4dac04fd530c04fd586c04fd5dcc04fd632c04fd688c04fd6dec04fd734c04fd78bc04fd7e1c04fd837c04fd88ec04fd8e4c04fd93bc04fd991c04fd9e8c04fda3ec04fda95c04fdaecc04fdb42c04fdb99c04fdbf0c04fdc47c04fdc9ec04fdcf5c04fdd4cc04fdda3c04fddfac04fde51c04fdea8c04fdeffc04fdf56c04fdfaec04fe005c04fe05cc04fe0b4c04fe10bc04fe163c04fe1bac04fe212c04fe26ac04fe2c1c04fe319c04fe371c04fe3c9c04fe421c04fe479c04fe4d1c04fe529c04fe581c04fe5d9c04fe631c04fe689c04fe6e2c04fe73ac04fe792c04fe7ebc04fe843c04fe89cc04fe8f4c04fe94dc04fe9a5c04fe9fec04fea57c04feaafc04feb08c04feb61c04febbac04fec13c04fec6cc04fecc5c04fed1ec04fed77c04fedd0c04fee2ac04fee83c04feedcc04fef36c04fef8fc04fefe9c04ff042c04ff09cc04ff0f5c04ff14fc04ff1a9c04ff202c04ff25cc04ff2b6c04ff310c04ff36ac04ff3c4c04ff41ec04ff478c04ff4d2c04ff52cc04ff587c04ff5e1c04ff63bc04ff696c04ff6f0c04ff74ac04ff7a5c04ff800c04ff85ac04ff8b5c04ff910c04ff96a] ++
  [0xc04f5931c04f5979c04f59c0c04f5a07c04f5a4fc04f5a96c04f5adec04f5b25c04f5b6dc04f5bb4c04f5bfcc04f5c44c04f5c8bc04f5cd3c04f5d1bc04f5d63c04f5daac04f5df2c04f5e3ac04f5e82c04f5ecac04f5f12c04f5f5ac04f5fa2c04f5feac04f6032c04f607ac04f60c2c04f610ac04f6153c04f619bc04f61e3c04f622bc04f6274c04f62bcc04f6304c04f634dc04f6395c04f63dec04f6426c04f646fc04f64b7c04f6500c04f6549c04f6591c04f65dac04f6623c04f666bc04f66b4c04f66fdc04f6746c04f678fc04f67d8c04f6821c04f686ac04f68b3c04f68fcc04f6945c04f698ec04f69d7c04f6a20c04f6a69c04f6ab2c04f6afcc04f6b45c04f6b8ec04f6bd8c04f6c21c04f6c6ac04f6cb4c04f6cfdc04f6d47c04f6d90c04f6ddac04f6e24c04f6e6dc04f6eb7c04f6f01c04f6f4ac04f6f94c04f6fdec04f7028c04f7071c04f70bbc04f7105c04f714fc04f7199c04f71e3c04f722dc04f7277c04f72c1c04f730cc04f7356c04f73a0c04f73eac04f7434c04f747fc04f74c9c04f7513c04f755ec04f75a8c04f75f3c04f763dc04f7688c04f76d2c04f771dc04f7768c04f77b2c04f77fdc04f7848c04f7892c04f78ddc04f7928c04f7973c04f79bec04f7a09c04f7a54c04f7a9fc04f7aeac04f7b35c04f7b80c04f7bcbc04f7c16c04f7c61c04f7cacc04f7cf8c04f7d43c04f7d8ec04f7ddac04f7e25c04f7e71c04f7ebcc04f7f07c04f7f53c04f7f9fc04f7feac04f8036c04f8081c04f80cdc04f8119c04f8165c04f81b0c04f81fcc04f8248c04f8294c04f82e0c04f832cc04f8378c04f83c4c04f8410c04f845cc04f84a8c04f84f4c04f8540c04f858dc04f85d9c04f8625c04f8672c04f86bec04f870ac04f8757c04f87a3c04f87f0c04f883cc04f8889c04f88d5c04f8922c04f896fc04f89bbc04f8a08c04f8a55c04f8aa2c04f8aefc04f8b3bc04f8b88c04f8bd5c04f8c22c04f8c6fc04f8cbcc04f8d0ac04f8d57c04f8da4c04f8df1c04f8e3ec04f8e8bc04f8ed9c04f8f26c04f8f73c04f8fc1c04f900ec04f905cc04f90a9c04f90f7c04f9144c04f9192c04f91e0c04f922dc04f927bc04f92c9c04f9317c04f9365c04f93b2c04f9400c04f944ec04f949cc04f94eac04f9538c04f9586c04f95d4c04f9623c04f9671c04f96bfc04f970dc04f975cc04f97aac04f97f8c04f9847c04f9895c04f98e4c04f9932c04f9981c04f99cfc04f9a1ec04f9a6cc04f9abbc04f9b0ac04f9b59c04f9ba7c04f9bf6c04f9c45c04f9c94c04f9ce3c04f9d32c04f9d81c04f9dd0c04f9e1fc04f9e6ec04f9ebdc04f9f0dc04f9f5cc04f9fabc04f9ffbc04fa04ac04fa099c04fa0e9c04fa138c04fa188c04fa1d7c04fa227c04fa276c04fa2c6c04fa316c04fa365c04fa3b5c04fa405c04fa455,
  0xc04f1568c04f15a8c04f15e9c04f1629c04f166ac04f16abc04f16ebc04f172cc04f176dc04f17adc04f17eec04f182fc04f186fc04f18b0c04f18f1c04f1932c04f1973c04f19b3c04f19f4c04f1a35c04f1a76c04f1ab7c04f1af8c04f1b39c04f1b7ac04f1bbbc04f1bfcc04f1c3ec04f1c7fc04f1cc0c04f1d01c04f1d42c04f1d83c04f1dc5c04f1e06c04f1e47c04f1e89c04f1ecac04f1f0bc04f1f4dc04f1f8ec04f1fd0c04f2011c04f2053c04f2094c04f20d6c04f2117c04f2159c04f219bc04f21dcc04f221ec04f2260c04f22a2c04f22e3c04f2325c04f2367c04f23a9c04f23ebc04f242cc04f246ec04f24b0c04f24f2c04f2534c04f2576c04f25b8c04f25fac04f263dc04f267fc04f26c1c04f2703c04f2745c04f2787c04f27cac04f280cc04f284ec04f2891c04f28d3c04f2915c04f2958c04f299ac04f29ddc04f2a1fc04f2a62c04f2aa4c04f2ae7c04f2b29c04f2b6cc04f2baec04f2bf1c04f2c34c04f2c77c04f2cb9c04f2cfcc04f2d3fc04f2d82c04f2dc4c04f2e07c04f2e4ac04f2e8dc04f2ed0c04f2f13c04f2f56c04f2f99c04f2fdcc04f301fc04f3062c04f30a5c04f30e9c04f312cc04f316fc04f31b2c04f31f6c04f3239c04f327cc04f32bfc04f3303c04f3346c04f338ac04f33cdc04f3411c04f3454c04f3498c04f34dbc04f351fc04f3562c04f35a6c04f35eac04f362dc04f3671c04f36b5c04f36f9c04f373cc04f3780c04f37c4c04f3808c04f384cc04f3890c04f38d4c04f3918c04f395cc04f39a0c04f39e4c04f3a28c04f3a6cc04f3ab0c04f3af4c04f3b38c04f3b7dc04f3bc1c04f3c05c04f3c4ac04f3c8ec04f3cd2c04f3d17c04f3d5bc04f3d9fc04f3de4c04f3e28c04f3e6dc04f3eb2c04f3ef6c04f3f3bc04f3f7fc04f3fc4c04f4009c04f404dc04f4092c04f40d7c04f411cc04f4161c04f41a5c04f41eac04f422fc04f4274c04f42b9c04f42fec04f4343c04f4388c04f43cdc04f4412c04f4458c04f449dc04f44e2c04f4527c04f456cc04f45b2c04f45f7c04f463cc04f4682c04f46c7c04f470cc04f4752c04f4797c04f47ddc04f4822c04f4868c04f48adc04f48f3c04f4939c04f497ec04f49c4c04f4a0ac04f4a50c04f4a95c04f4adbc04f4b21c04f4b67c04f4badc04f4bf3c04f4c39c04f4c7fc04f4cc5c04f4d0bc04f4d51c04f4d97c04f4dddc04f4e23c04f4e69c04f4eb0c04f4ef6c04f4f3cc04f4f82c04f4fc9c04f500fc04f5055c04f509cc04f50e2c04f5129c04f516fc04f51b6c04f51fcc04f5243c04f528ac04f52d0c04f5317c04f535ec04f53a4c04f53ebc04f5432c04f5479c04f54c0c04f5506c04f554dc04f5594c04f55dbc04f5622c04f5669c04f56b0c04f56f7c04f573fc04f5786c04f57cdc04f5814c04f585bc04f58a3c04f58ea,
  0xc04ed7d9c04ed813c04ed84ec04ed889c04ed8c4c04ed8ffc04ed93ac04ed975c04ed9b0c04ed9ebc04eda26c04eda61c04eda9cc04edad7c04edb12c04edb4dc04edb88c04edbc4c04edbffc04edc3ac04edc75c04edcb0c04edcecc04edd27c04edd62c04edd9ec04eddd9c04ede14c04ede50c04ede8bc04edec7c04edf02c04edf3dc04edf79c04edfb4c04edff0c04ee02cc04ee067c04ee0a3c04ee0dec04ee11ac04ee156c04ee191c04ee1cdc04ee209c04ee244c04ee280c04ee2bcc04ee2f8c04ee334c04ee36fc04ee3abc04ee3e7c04ee423c04ee45fc04ee49bc04ee4d7c04ee513c04ee54fc04ee58bc04ee5c7c04ee603c04ee63fc04ee67bc04ee6b7c04ee6f3c04ee730c04ee76cc04ee7a8c04ee7e4c04ee820c04ee85dc04ee899c04ee8d5c04ee912c04ee94ec04ee98ac04ee9c7c04eea03c04eea40c04eea7cc04eeab9c04eeaf5c04eeb32c04eeb6ec04eebabc04eebe7c04eec24c04eec61c04eec9dc04eecdac04eed17c04eed54c04eed90c04eedcdc04eee0ac04eee47c04eee83c04eeec0c04eeefdc04eef3ac04eef77c04eefb4c04eeff1c04ef02ec04ef06bc04ef0a8c04ef0e5c04ef122c04ef15fc04ef19cc04ef1d9c04ef216c04ef254c04ef291c04ef2cec04ef30bc04ef349c04ef386c04ef3c3c04ef401c04ef43ec04ef47bc04ef4b9c04ef4f6c04ef534c04ef571c04ef5aec04ef5ecc04ef629c04ef667c04ef6a5c04ef6e2c04ef720c04ef75dc04ef79bc04ef7d9c04ef816c04ef854c04ef892c04ef8d0c04ef90ec04ef94bc04ef989c04ef9c7c04efa05c04efa43c04efa81c04efabfc04efafdc04efb3bc04efb79c04efbb7c04efbf5c04efc33c04efc71c04efcafc04efcedc04efd2bc04efd6ac04efda8c04efde6c04efe24c04efe63c04efea1c04efedfc04eff1ec04eff5cc04eff9ac04effd9c04f0017c04f0056c04f0094c04f00d3c04f0111c04f0150c04f018ec04f01cdc04f020cc04f024ac04f0289c04f02c8c04f0306c04f0345c04f0384c04f03c3c04f0401c04f0440c04f047fc04f04bec04f04fdc04f053cc04f057bc04f05bac04f05f9c04f0638c04f0677c04f06b6c04f06f5c04f0734c04f0773c04f07b2c04f07f1c04f0831c04f0870c04f08afc04f08eec04f092ec04f096dc04f09acc04f09ecc04f0a2bc04f0a6bc04f0aaac04f0ae9c04f0b29c04f0b68c04f0ba8c04f0be7c04f0c27c04f0c67c04f0ca6c04f0ce6c04f0d26c04f0d65c04f0da5c04f0de5c04f0e24c04f0e64c04f0ea4c04f0ee4c04f0f24c04f0f64c04f0fa4c04f0fe3c04f1023c04f1063c04f10a3c04f10e3c04f1123c04f1164c04f11a4c04f11e4c04f1224c04f1264c04f12a4c04f12e4c04f1325c04f1365c04f13a5c04f13e6c04f1426c04f1466c04f14a7c04f14e7c04f1528,
  0xc04e9f72c04e9fa8c04e9fdec04ea014c04ea04bc04ea081c04ea0b7c04ea0edc04ea123c04ea15ac04ea190c04ea1c6c04ea1fdc04ea233c04ea269c04ea2a0c04ea2d6c04ea30cc04ea343c04ea379c04ea3b0c04ea3e6c04ea41dc04ea453c04ea48ac04ea4c0c04ea4f7c04ea52dc04ea564c04ea59ac04ea5d1c04ea608c04ea63ec04ea675c04ea6acc04ea6e2c04ea719c04ea750c04ea787c04ea7bdc04ea7f4c04ea82bc04ea862c04ea899c04ea8cfc04ea906c04ea93dc04ea974c04ea9abc04ea9e2c04eaa19c04eaa50c04eaa87c04eaabec04eaaf5c04eab2cc04eab63c04eab9ac04eabd1c04eac08c04eac3fc04eac77c04eacaec04eace5c04ead1cc04ead53c04ead8bc04eadc2c04eadf9c04eae30c04eae68c04eae9fc04eaed6c04eaf0ec04eaf45c04eaf7dc04eafb4c04eafebc04eb023c04eb05ac04eb092c04eb0c9c04eb101c04eb138c04eb170c04eb1a8c04eb1dfc04eb217c04eb24ec04eb286c04eb2bec04eb2f5c04eb32dc04eb365c04eb39dc04eb3d4c04eb40cc04eb444c04eb47cc04eb4b4c04eb4ebc04eb523c04eb55bc04eb593c04eb5cbc04eb603c04eb63bc04eb673c04eb6abc04eb6e3c04eb71bc04eb753c04eb78bc04eb7c3c04eb7fbc04eb833c04eb86bc04eb8a4c04eb8dcc04eb914c04eb94cc04eb984c04eb9bdc04eb9f5c04eba2dc04eba65c04eba9ec04ebad6c04ebb0fc04ebb47c04ebb7fc04ebbb8c04ebbf0c04ebc29c04ebc61c04ebc9ac04ebcd2c04ebd0bc04ebd43c04ebd7cc04ebdb4c04ebdedc04ebe25c04ebe5ec04ebe97c04ebecfc04ebf08c04ebf41c04ebf7ac04ebfb2c04ebfebc04ec024c04ec05dc04ec095c04ec0cec04ec107c04ec140c04ec179c04ec1b2c04ec1ebc04ec224c04ec25dc04ec296c04ec2cfc04ec308c04ec341c04ec37ac04ec3b3c04ec3ecc04ec425c04ec45ec04ec497c04ec4d1c04ec50ac04ec543c04ec57cc04ec5b6c04ec5efc04ec628c04ec661c04ec69bc04ec6d4c04ec70dc04ec747c04ec780c04ec7bac04ec7f3c04ec82dc04ec866c04ec8a0c04ec8d9c04ec913c04ec94cc04ec986c04ec9bfc04ec9f9c04eca33c04eca6cc04ecaa6c04ecae0c04ecb19c04ecb53c04ecb8dc04ecbc7c04ecc00c04ecc3ac04ecc74c04eccaec04ecce8c04ecd22c04ecd5cc04ecd96c04ecdcfc04ece09c04ece43c04ece7dc04eceb7c04ecef2c04ecf2cc04ecf66c04ecfa0c04ecfdac04ed014c04ed04ec04ed088c04ed0c3c04ed0fdc04ed137c04ed171c04ed1acc04ed1e6c04ed220c04ed25bc04ed295c04ed2cfc04ed30ac04ed344c04ed37fc04ed3b9c04ed3f3c04ed42ec04ed468c04ed4a3c04ed4dec04ed518c04ed553c04ed58dc04ed5c8c04ed603c04ed63dc04ed678c04ed6b3c04ed6edc04ed728c04ed763c04ed79e,
  0xc04e6b64c04e6b96c04e6bc8c04e6bfbc04e6c2dc04e6c5fc04e6c91c04e6cc3c04e6cf5c04e6d28c04e6d5ac04e6d8cc04e6dbec04e6df1c04e6e23c04e6e55c04e6e88c04e6ebac04e6eecc04e6f1fc04e6f51c04e6f84c04e6fb6c04e6fe8c04e701bc04e704dc04e7080c04e70b2c04e70e5c04e7117c04e714ac04e717cc04e71afc04e71e2c04e7214c04e7247c04e7279c04e72acc04e72dfc04e7311c04e7344c04e7377c04e73a9c04e73dcc04e740fc04e7442c04e7474c04e74a7c04e74dac04e750dc04e7540c04e7573c04e75a5c04e75d8c04e760bc04e763ec04e7671c04e76a4c04e76d7c04e770ac04e773dc04e7770c04e77a3c04e77d6c04e7809c04e783cc04e786fc04e78a2c04e78d5c04e7908c04e793bc04e796fc04e79a2c04e79d5c04e7a08c04e7a3bc04e7a6fc04e7aa2c04e7ad5c04e7b08c04e7b3cc04e7b6fc04e7ba2c04e7bd5c04e7c09c04e7c3cc04e7c70c04e7ca3c04e7cd6c04e7d0ac04e7d3dc04e7d71c04e7da4c04e7dd8c04e7e0bc04e7e3fc04e7e72c04e7ea6c04e7ed9c04e7f0dc04e7f40c04e7f74c04e7fa8c04e7fdbc04e800fc04e8043c04e8076c04e80aac04e80dec04e8111c04e8145c04e8179c04e81adc04e81e0c04e8214c04e8248c04e827cc04e82b0c04e82e4c04e8317c04e834bc04e837fc04e83b3c04e83e7c04e841bc04e844fc04e8483c04e84b7c04e84ebc04e851fc04e8553c04e8587c04e85bbc04e85efc04e8624c04e8658c04e868cc04e86c0c04e86f4c04e8728c04e875dc04e8791c04e87c5c04e87f9c04e882ec04e8862c04e8896c04e88cac04e88ffc04e8933c04e8967c04e899cc04e89d0c04e8a05c04e8a39c04e8a6ec04e8aa2c04e8ad7c04e8b0bc04e8b40c04e8b74c04e8ba9c04e8bddc04e8c12c04e8c46c04e8c7bc04e8cb0c04e8ce4c04e8d19c04e8d4dc04e8d82c04e8db7c04e8decc04e8e20c04e8e55c04e8e8ac04e8ebfc04e8ef3c04e8f28c04e8f5dc04e8f92c04e8fc7c04e8ffcc04e9031c04e9065c04e909ac04e90cfc04e9104c04e9139c04e916ec04e91a3c04e91d8c04e920dc04e9242c04e9277c04e92adc04e92e2c04e9317c04e934cc04e9381c04e93b6c04e93ebc04e9421c04e9456c04e948bc04e94c0c04e94f6c04e952bc04e9560c04e9595c04e95cbc04e9600c04e9636c04e966bc04e96a0c04e96d6c04e970bc04e9741c04e9776c04e97acc04e97e1c04e9817c04e984cc04e9882c04e98b7c04e98edc04e9922c04e9958c04e998ec04e99c3c04e99f9c04e9a2fc04e9a64c04e9a9ac04e9ad0c04e9b05c04e9b3bc04e9b71c04e9ba7c04e9bddc04e9c12c04e9c48c04e9c7ec04e9cb4c04e9ceac04e9d20c04e9d56c04e9d8cc04e9dc2c04e9df8c04e9e2ec04e9e64c04e9e9ac04e9ed0c04e9f06c04e9f3c,
  0xc04e3b0dc04e3b3bc04e3b6ac04e3b99c04e3bc8c04e3bf6c04e3c25c04e3c54c04e3c82c04e3cb1c04e3ce0c04e3d0fc04e3d3ec04e3d6cc04e3d9bc04e3dcac04e3df9c04e3e28c04e3e57c04e3e86c04e3eb5c04e3ee3c04e3f12c04e3f41c04e3f70c04e3f9fc04e3fcec04e3ffdc04e402cc04e405bc04e408ac04e40b9c04e40e8c04e4117c04e4147c04e4176c04e41a5c04e41d4c04e4203c04e4232c04e4261c04e4291c04e42c0c04e42efc04e431ec04e434dc04e437dc04e43acc04e43dbc04e440ac04e443ac04e4469c04e4498c04e44c8c04e44f7c04e4526c04e4556c04e4585c04e45b4c04e45e4c04e4613c04e4643c04e4672c04e46a2c04e46d1c04e4701c04e4730c04e4760c04e478fc04e47bfc04e47eec04e481ec04e484dc04e487dc04e48acc04e48dcc04e490cc04e493bc04e496bc04e499bc04e49cac04e49fac04e4a2ac04e4a59c04e4a89c04e4ab9c04e4ae9c04e4b18c04e4b48c04e4b78c04e4ba8c04e4bd8c04e4c08c04e4c37c04e4c67c04e4c97c04e4cc7c04e4cf7c04e4d27c04e4d57c04e4d87c04e4db7c04e4de7c04e4e17c04e4e47c04e4e77c04e4ea7c04e4ed7c04e4f07c04e4f37c04e4f67c04e4f97c04e4fc7c04e4ff7c04e5027c04e5057c04e5088c04e50b8c04e50e8c04e5118c04e5148c04e5179c04e51a9c04e51d9c04e5209c04e523ac04e526ac04e529ac04e52cac04e52fbc04e532bc04e535bc04e538cc04e53bcc04e53edc04e541dc04e544dc04e547ec04e54aec04e54dfc04e550fc04e5540c04e5570c04e55a1c04e55d1c04e5602c04e5632c04e5663c04e5694c04e56c4c04e56f5c04e5725c04e5756c04e5787c04e57b7c04e57e8c04e5819c04e5849c04e587ac04e58abc04e58dcc04e590cc04e593dc04e596ec04e599fc04e59d0c04e5a00c04e5a31c04e5a62c04e5a93c04e5ac4c04e5af5c04e5b26c04e5b57c04e5b87c04e5bb8c04e5be9c04e5c1ac04e5c4bc04e5c7cc04e5cadc04e5cdec04e5d10c04e5d41c04e5d72c04e5da3c04e5dd4c04e5e05c04e5e36c04e5e67c04e5e98c04e5ecac04e5efbc04e5f2cc04e5f5dc04e5f8ec04e5fc0c04e5ff1c04e6022c04e6053c04e6085c04e60b6c04e60e7c04e6119c04e614ac04e617cc04e61adc04e61dec04e6210c04e6241c04e6273c04e62a4c04e62d5c04e6307c04e6338c04e636ac04e639cc04e63cdc04e63ffc04e6430c04e6462c04e6493c04e64c5c04e64f7c04e6528c04e655ac04e658cc04e65bdc04e65efc04e6621c04e6652c04e6684c04e66b6c04e66e8c04e6719c04e674bc04e677dc04e67afc04e67e1c04e6813c04e6844c04e6876c04e68a8c04e68dac04e690cc04e693ec04e6970c04e69a2c04e69d4c04e6a06c04e6a38c04e6a6ac04e6a9cc04e6acec04e6b00c04e6b32,
  0xc04e0debc04e0e17c04e0e42c04e0e6ec04e0e9ac04e0ec5c04e0ef1c04e0f1dc04e0f49c04e0f74c04e0fa0c04e0fccc04e0ff8c04e1024c04e104fc04e107bc04e10a7c04e10d3c04e10ffc04e112bc04e1157c04e1182c04e11aec04e11dac04e1206c04e1232c04e125ec04e128ac04e12b6c04e12e2c04e130ec04e133ac04e1366c04e1392c04e13bec04e13eac04e1416c04e1442c04e146ec04e149ac04e14c7c04e14f3c04e151fc04e154bc04e1577c04e15a3c04e15cfc04e15fcc04e1628c04e1654c04e1680c04e16acc04e16d9c04e1705c04e1731c04e175dc04e178ac04e17b6c04e17e2c04e180fc04e183bc04e1867c04e1894c04e18c0c04e18ecc04e1919c04e1945c04e1972c04e199ec04e19cac04e19f7c04e1a23c04e1a50c04e1a7cc04e1aa9c04e1ad5c04e1b02c04e1b2ec04e1b5bc04e1b87c04e1bb4c04e1be1c04e1c0dc04e1c3ac04e1c66c04e1c93c04e1cc0c04e1cecc04e1d19c04e1d45c04e1d72c04e1d9fc04e1dccc04e1df8c04e1e25c04e1e52c04e1e7ec04e1eabc04e1ed8c04e1f05c04e1f31c04e1f5ec04e1f8bc04e1fb8c04e1fe5c04e2012c04e203ec04e206bc04e2098c04e20c5c04e20f2c04e211fc04e214cc04e2179c04e21a6c04e21d3c04e2200c04e222dc04e225ac04e2287c04e22b4c04e22e1c04e230ec04e233bc04e2368c04e2395c04e23c2c04e23efc04e241cc04e2449c04e2476c04e24a4c04e24d1c04e24fec04e252bc04e2558c04e2585c04e25b3c04e25e0c04e260dc04e263ac04e2668c04e2695c04e26c2c04e26f0c04e271dc04e274ac04e2777c04e27a5c04e27d2c04e2800c04e282dc04e285ac04e2888c04e28b5c04e28e3c04e2910c04e293dc04e296bc04e2998c04e29c6c04e29f3c04e2a21c04e2a4ec04e2a7cc04e2aa9c04e2ad7c04e2b05c04e2b32c04e2b60c04e2b8dc04e2bbbc04e2be9c04e2c16c04e2c44c04e2c72c04e2c9fc04e2ccdc04e2cfbc04e2d28c04e2d56c04e2d84c04e2db2c04e2ddfc04e2e0dc04e2e3bc04e2e69c04e2e97c04e2ec4c04e2ef2c04e2f20c04e2f4ec04e2f7cc04e2faac04e2fd8c04e3005c04e3033c04e3061c04e308fc04e30bdc04e30ebc04e3119c04e3147c04e3175c04e31a3c04e31d1c04e31ffc04e322dc04e325bc04e3289c04e32b7c04e32e6c04e3314c04e3342c04e3370c04e339ec04e33ccc04e33fac04e3429c04e3457c04e3485c04e34b3c04e34e1c04e3510c04e353ec04e356cc04e359bc04e35c9c04e35f7c04e3625c04e3654c04e3682c04e36b1c04e36dfc04e370dc04e373cc04e376ac04e3798c04e37c7c04e37f5c04e3824c04e3852c04e3881c04e38afc04e38dec04e390cc04e393bc04e3969c04e3998c04e39c6c04e39f5c04e3a24c04e3a52c04e3a81c04e3ab0c04e3ade,
  0xc04de396c04de3bfc04de3e8c04de411c04de43bc04de464c04de48dc04de4b6c04de4dfc04de508c04de531c04de55ac04de583c04de5adc04de5d6c04de5ffc04de628c04de651c04de67bc04de6a4c04de6cdc04de6f6c04de720c04de749c04de772c04de79bc04de7c5c04de7eec04de817c04de841c04de86ac04de893c04de8bdc04de8e6c04de90fc04de939c04de962c04de98cc04de9b5c04de9dec04dea08c04dea31c04dea5bc04dea84c04deaaec04dead7c04deb01c04deb2ac04deb54c04deb7dc04deba7c04debd0c04debfac04dec23c04dec4dc04dec76c04deca0c04deccac04decf3c04ded1dc04ded47c04ded70c04ded9ac04dedc3c04dededc04dee17c04dee40c04dee6ac04dee94c04deebec04deee7c04def11c04def3bc04def65c04def8ec04defb8c04defe2c04df00cc04df035c04df05fc04df089c04df0b3c04df0ddc04df107c04df131c04df15ac04df184c04df1aec04df1d8c04df202c04df22cc04df256c04df280c04df2aac04df2d4c04df2fec04df328c04df352c04df37cc04df3a6c04df3d0c04df3fac04df424c04df44ec04df478c04df4a2c04df4ccc04df4f6c04df520c04df54ac04df575c04df59fc04df5c9c04df5f3c04df61dc04df647c04df672c04df69cc04df6c6c04df6f0c04df71ac04df745c04df76fc04df799c04df7c3c04df7eec04df818c04df842c04df86dc04df897c04df8c1c04df8ecc04df916c04df940c04df96bc04df995c04df9c0c04df9eac04dfa14c04dfa3fc04dfa69c04dfa94c04dfabec04dfae9c04dfb13c04dfb3ec04dfb68c04dfb93c04dfbbdc04dfbe8c04dfc12c04dfc3dc04dfc67c04dfc92c04dfcbcc04dfce7c04dfd12c04dfd3cc04dfd67c04dfd91c04dfdbcc04dfde7c04dfe11c04dfe3cc04dfe67c04dfe91c04dfebcc04dfee7c04dff12c04dff3cc04dff67c04dff92c04dffbdc04dffe7c04e0012c04e003dc04e0068c04e0093c04e00bdc04e00e8c04e0113c04e013ec04e0169c04e0194c04e01bfc04e01e9c04e0214c04e023fc04e026ac04e0295c04e02c0c04e02ebc04e0316c04e0341c04e036cc04e0397c04e03c2c04e03edc04e0418c04e0443c04e046ec04e0499c04e04c4c04e04f0c04e051bc04e0546c04e0571c04e059cc04e05c7c04e05f2c04e061ec04e0649c04e0674c04e069fc04e06cac04e06f6c04e0721c04e074cc04e0777c04e07a3c04e07cec04e07f9c04e0824c04e0850c04e087bc04e08a6c04e08d2c04e08fdc04e0928c04e0954c04e097fc04e09abc04e09d6c04e0a01c04e0a2dc04e0a58c04e0a84c04e0aafc04e0adbc04e0b06c04e0b32c04e0b5dc04e0b89c04e0bb4c04e0be0c04e0c0bc04e0c37c04e0c62c04e0c8ec04e0cb9c04e0ce5c04e0d11c04e0d3cc04e0d68c04e0d94c04e0dbf] ++
  [0xc04de36d]

/-- R420, GUMB upper side level 3: entry j for j = 0 to 4,096. -/
def gumbU3 : List Nat :=
  [0x41ddd6a241dddeae41dde6c241ddeedf41ddf70341ddff3041de076641de0fa341de17ea41de203941de289041de30f141de395a41de41cc41de4a4741de52cb41de5b5841de63ee41de6c8e41de753741de7de941de86a541de8f6a41de983941dea11241dea9f441deb2e141debbd741dec4d841decde241ded6f841dee01741dee94141def27541defbb441df04fe41df0e5241df17b241df211c41df2a9241df341341df3d9f41df473741df50da41df5a8941df644441df6e0a41df77dd41df81bb41df8ba641df959e41df9fa141dfa9b241dfb3cf41dfbdf941dfc83041dfd27441dfdcc541dfe72441dff19041dffc0a41e0069141e0112741e01bca41e0267c41e0313c41e03c0b41e046e841e051d441e05cd041e067da41e072f441e07e1d41e0895641e0949e41e09ff741e0ab6041e0b6d941e0c26341e0cdfd41e0d9a941e0e56541e0f13341e0fd1241e1090341e1150641e1211c41e12d4341e1397d41e145ca41e1522a41e15e9d41e16b2441e177be41e1846d41e1912f41e19e0641e1aaf241e1b7f341e1c50941e1d23541e1df7641e1ecce41e1fa3c41e207c041e2155c41e2230f41e230da41e23ebc41e24cb741e25aca41e268f641e2773c41e2859b41e2941541e2a2a841e2b15641e2c02041e2cf0541e2de0641e2ed2341e2fc5d41e30bb541e31b2941e32abc41e33a6e41e34a3f41e35a2f41e36a3f41e37a6f41e38ac141e39b3441e3abc941e3bc8141e3cd5d41e3de5b41e3ef7f41e400c741e4123541e423ca41e4358541e4476841e4597341e46ba841e47e0641e4908f41e4a34341e4b62341e4c93041e4dc6b41e4efd441e5036e41e5173741e52b3241e53f6041e553c041e5685641e57d2141e5922241e5a75b41e5bccd41e5d27941e5e86041e5fe8441e614e641e62b8841e6426a41e6598e41e670f641e688a341e6a09741e6b8d441e6d15b41e6ea2e41e7034f41e71cc041e7368341e7509a41e76b0741e785cc41e7a0ed41e7bc6a41e7d84841e7f48741e8112c41e82e3941e84bb141e8699741e887ee41e8a6ba41e8c5ff41e8e5bf41e9060041e926c541e9481241e969ec41e98c5841e9af5a41e9d2f941e9f73841ea1c1f41ea41b341ea67fc41ea8efe41eab6c341eadf5141eb08b141eb32ec41eb5e0a41eb8a1541ebb71841ebe51f41ec143441ec446541ec75bf41eca85141ecdc2b41ed115d41ed47fb41ed801841edb9ca41edf52741ee324b41ee715041eeb25641eef57d41ef3aeb41ef82c941efcd4441f01a8f41f06ae241f0be7c41f115a641f170af41f1cff541f233e141f29cee41f30ba941f380b841f3fce141f4810e41f50e5a41f5a62041f64a0d41f6fc4041f7bf7241f8973941f9887241fa99eb41fbd59e41fd4b0341ff14024200b09742024fca42051592421b43d5,
  0x41d8470e41d84b1141d84f1641d8531d41d8572641d85b3141d85f3f41d8634e41d8675f41d86b7341d86f8841d873a041d877b941d87bd541d87ff341d8841341d8883541d88c5941d8907f41d894a841d898d341d89d0041d8a12f41d8a56041d8a99341d8adc941d8b20141d8b63b41d8ba7741d8beb641d8c2f741d8c73a41d8cb7f41d8cfc741d8d41141d8d85d41d8dcac41d8e0fd41d8e55041d8e9a641d8edfe41d8f25841d8f6b541d8fb1441d8ff7541d903d941d9083f41d90ca841d9111341d9158141d919f141d91e6341d922d841d9275041d92bca41d9304641d934c541d9394741d93dcb41d9425241d946db41d94b6741d94ff541d9548641d9591a41d95db041d9624941d966e441d96b8241d9702341d974c741d9796d41d97e1641d982c241d9877041d98c2141d990d541d9958c41d99a4541d99f0141d9a3c041d9a88241d9ad4741d9b20e41d9b6d941d9bba641d9c07641d9c54941d9ca1f41d9cef841d9d3d441d9d8b341d9dd9541d9e27941d9e76141d9ec4c41d9f13a41d9f62b41d9fb1f41da001641da051041da0a0d41da0f0d41da141141da191741da1e2141da232e41da283e41da2d5141da326841da378241da3c9f41da41bf41da46e341da4c0a41da513441da566241da5b9341da60c741da65ff41da6b3a41da707941da75bb41da7b0041da804941da859641da8ae641da903941da959141da9aeb41daa04a41daa5ab41daab1141dab07a41dab5e741dabb5841dac0cc41dac64441dacbbf41dad13f41dad6c241dadc4941dae1d441dae76341daecf641daf28c41daf82741dafdc541db036741db090e41db0eb841db146641db1a1941db1fcf41db258a41db2b4841db310b41db36d241db3c9d41db426c41db484041db4e1841db53f441db59d441db5fb941db65a241db6b9041db718241db777841db7d7341db837241db897641db8f7e41db958b41db9b9c41dba1b241dba7cd41dbadec41dbb41141dbba3941dbc06741dbc69941dbccd041dbd30c41dbd94d41dbdf9341dbe5de41dbec2d41dbf28241dbf8dc41dbff3b41dc059e41dc0c0741dc127641dc18e941dc1f6141dc25df41dc2c6241dc32eb41dc397841dc400b41dc46a441dc4d4241dc53e541dc5a8e41dc613d41dc67f141dc6eab41dc756a41dc7c3041dc82fb41dc89cb41dc90a241dc977e41dc9e6141dca54941dcac3741dcb32b41dcba2641dcc12641dcc82d41dccf3941dcd64c41dcdd6641dce48541dcebab41dcf2d841dcfa0b41dd014441dd088441dd0fca41dd171741dd1e6b41dd25c641dd2d2741dd348f41dd3bfe41dd437441dd4af141dd527541dd5a0041dd619341dd692c41dd70cd41dd787541dd802441dd87db41dd8f9941dd975e41dd9f2c41dda70141ddaedd41ddb6c241ddbeae41ddc6a241ddce9e,
  0x41d5075441d50a0041d50cad41d50f5b41d5120941d514b941d5176941d51a1b41d51ccd41d51f8041d5223441d524e941d5279f41d52a5641d52d0e41d52fc741d5328041d5353b41d537f741d53ab341d53d7041d5402f41d542ee41d545ae41d5486f41d54b3141d54df541d550b941d5537e41d5564341d5590a41d55bd241d55e9b41d5616541d5643041d566fb41d569c841d56c9641d56f6541d5723441d5750541d577d741d57aa941d57d7d41d5805141d5832741d585fe41d588d541d58bae41d58e8841d5916341d5943e41d5971b41d599f941d59cd841d59fb841d5a29841d5a57a41d5a85d41d5ab4141d5ae2641d5b10c41d5b3f441d5b6dc41d5b9c541d5bcaf41d5bf9b41d5c28741d5c57541d5c86341d5cb5341d5ce4441d5d13541d5d42841d5d71c41d5da1241d5dd0841d5dfff41d5e2f741d5e5f141d5e8eb41d5ebe741d5eee441d5f1e241d5f4e141d5f7e141d5fae341d5fde541d600e941d603ed41d606f341d609fa41d60d0241d6100c41d6131641d6162241d6192e41d61c3c41d61f4b41d6225c41d6256d41d6288041d62b9441d62ea941d631bf41d634d641d637ef41d63b0941d63e2341d6414041d6445d41d6477c41d64a9c41d64dbd41d650df41d6540241d6572741d65a4d41d65d7441d6609d41d663c641d666f141d66a1e41d66d4b41d6707a41d673aa41d676db41d67a0e41d67d4241d6807741d683ad41d686e541d68a1e41d68d5841d6909441d693d141d6970f41d69a4e41d69d8f41d6a0d141d6a41541d6a75a41d6aaa041d6ade841d6b13041d6b47b41d6b7c641d6bb1341d6be6141d6c1b141d6c50241d6c85541d6cba841d6cefe41d6d25441d6d5ac41d6d90641d6dc6041d6dfbd41d6e31a41d6e67941d6e9da41d6ed3c41d6f09f41d6f40441d6f76a41d6fad141d6fe3a41d701a541d7051141d7087f41d70bed41d70f5e41d712d041d7164341d719b841d71d2e41d720a641d7242041d7279b41d72b1741d72e9541d7321441d7359541d7391841d73c9c41d7402241d743a941d7473141d74abc41d74e4841d751d541d7556441d758f541d75c8741d7601b41d763b041d7674741d76ae041d76e7a41d7721641d775b341d7795241d77cf341d7809541d7843a41d787df41d78b8741d78f3041d792da41d7968741d79a3541d79de541d7a19641d7a54a41d7a8fe41d7acb541d7b06e41d7b42841d7b7e341d7bba141d7bf6041d7c32241d7c6e441d7caa941d7ce7041d7d23841d7d60241d7d9ce41d7dd9b41d7e16b41d7e53c41d7e90f41d7ece441d7f0bb41d7f49341d7f86e41d7fc4a41d8002841d8040841d807ea41d80bce41d80fb341d8139b41d8178541d81b7041d81f5d41d8234d41d8273e41d82b3141d82f2641d8331d41d8371641d83b1141d83f0e41d8430d,
  0x41d2b97d41d2bb7d41d2bd7f41d2bf8041d2c18341d2c38541d2c58941d2c78d41d2c99141d2cb9641d2cd9b41d2cfa141d2d1a741d2d3ae41d2d5b541d2d7bd41d2d9c641d2dbce41d2ddd841d2dfe241d2e1ec41d2e3f741d2e60341d2e80f41d2ea1b41d2ec2841d2ee3641d2f04441d2f25341d2f46241d2f67241d2f88241d2fa9341d2fca441d2feb641d300c841d302db41d304ef41d3070341d3091741d30b2c41d30d4241d30f5841d3116f41d3138641d3159e41d317b641d319cf41d31be941d31e0341d3201d41d3223841d3245441d3267041d3288d41d32aaa41d32cc841d32ee741d3310641d3332541d3354541d3376641d3398741d33ba941d33dcc41d33fef41d3421241d3443641d3465b41d3488041d34aa641d34ccd41d34ef441d3511b41d3534341d3556c41d3579541d359bf41d35bea41d35e1541d3604141d3626d41d3649a41d366c741d368f541d36b2441d36d5341d36f8341d371b341d373e541d3761641d3784841d37a7b41d37caf41d37ee341d3811741d3834d41d3858341d387b941d389f041d38c2841d38e6041d3909941d392d341d3950d41d3974841d3998341d39bbf41d39dfc41d3a03941d3a27741d3a4b641d3a6f541d3a93541d3ab7541d3adb641d3aff841d3b23a41d3b47d41d3b6c141d3b90541d3bb4a41d3bd9041d3bfd641d3c21d41d3c46441d3c6ad41d3c8f541d3cb3f41d3cd8941d3cfd441d3d21f41d3d46b41d3d6b841d3d90541d3db5441d3dda241d3dff241d3e24241d3e49341d3e6e441d3e93641d3eb8941d3eddc41d3f03041d3f28541d3f4db41d3f73141d3f98841d3fbdf41d3fe3741d4009041d402ea41d4054441d4079f41d409fb41d40c5741d40eb441d4111241d4137041d415d041d4183041d41a9041d41cf141d41f5341d421b641d4241941d4267e41d428e241d42b4841d42dae41d4301541d4327d41d434e541d4374f41d439b941d43c2341d43e8f41d440fb41d4436741d445d541d4484341d44ab241d44d2241d44f9341d4520441d4547641d456e941d4595c41d45bd041d45e4641d460bb41d4633241d465a941d4682141d46a9a41d46d1441d46f8e41d4720941d4748541d4770241d4797f41d47bfd41d47e7c41d480fc41d4837d41d485fe41d4888041d48b0341d48d8741d4900b41d4929041d4951641d4979d41d49a2541d49cad41d49f3741d4a1c141d4a44c41d4a6d741d4a96441d4abf141d4ae7f41d4b10e41d4b39e41d4b62f41d4b8c041d4bb5241d4bde541d4c07941d4c30e41d4c5a441d4c83a41d4cad141d4cd6941d4d00241d4d29c41d4d53741d4d7d241d4da6e41d4dd0b41d4dfa941d4e24841d4e4e841d4e78941d4ea2a41d4eccc41d4ef7041d4f21441d4f4b941d4f75e41d4fa0541d4fcad41d4ff5541d501fe41d504a9,
  0x41d0f01741d0f1b141d0f34b41d0f4e641d0f68141d0f81c41d0f9b841d0fb5441d0fcf041d0fe8d41d1002a41d101c741d1036541d1050341d106a141d1084041d109df41d10b7e41d10d1e41d10ebe41d1105e41d111ff41d1139f41d1154141d116e241d1188441d11a2641d11bc941d11d6c41d11f0f41d120b341d1225741d123fb41d125a041d1274541d128ea41d12a9041d12c3541d12ddc41d12f8241d1312941d132d141d1347841d1362041d137c941d1397141d13b1b41d13cc441d13e6e41d1401841d141c241d1436d41d1451841d146c341d1486f41d14a1b41d14bc841d14d7541d14f2241d150d041d1527e41d1542c41d155da41d1578941d1593941d15ae841d15c9941d15e4941d15ffa41d161ab41d1635c41d1650e41d166c041d1687341d16a2641d16bd941d16d8d41d16f4141d170f541d172aa41d1745f41d1761441d177ca41d1798041d17b3741d17cee41d17ea541d1805d41d1821541d183cd41d1858641d1873f41d188f941d18ab241d18c6d41d18e2741d18fe241d1919e41d1935941d1951641d196d241d1988f41d19a4c41d19c0a41d19dc841d19f8641d1a14541d1a30441d1a4c441d1a68441d1a84441d1aa0541d1abc641d1ad8741d1af4941d1b10b41d1b2ce41d1b49141d1b65441d1b81841d1b9dc41d1bba141d1bd6641d1bf2b41d1c0f141d1c2b741d1c47d41d1c64441d1c80c41d1c9d341d1cb9b41d1cd6441d1cf2d41d1d0f641d1d2c041d1d48a41d1d65441d1d81f41d1d9eb41d1dbb641d1dd8241d1df4f41d1e11c41d1e2e941d1e4b741d1e68541d1e85341d1ea2241d1ebf241d1edc241d1ef9241d1f16241d1f33341d1f50541d1f6d741d1f8a941d1fa7b41d1fc4e41d1fe2241d1fff641d201ca41d2039f41d2057441d2074a41d2092041d20af641d20ccd41d20ea441d2107c41d2125441d2142d41d2160641d217df41d219b941d21b9341d21d6e41d21f4941d2212441d2230041d224dd41d226ba41d2289741d22a7541d22c5341d22e3141d2301041d231f041d233d041d235b041d2379141d2397241d23b5441d23d3641d23f1841d240fb41d242df41d244c341d246a741d2488c41d24a7141d24c5741d24e3d41d2502341d2520a41d253f241d255da41d257c241d259ab41d25b9441d25d7e41d25f6841d2615341d2633e41d2652a41d2671641d2690241d26aef41d26cdd41d26ecb41d270b941d272a841d2749741d2768741d2787741d27a6841d27c5941d27e4b41d2803d41d2823041d2842341d2861641d2880a41d289ff41d28bf441d28de941d28fdf41d291d641d293cd41d295c441d297bc41d299b441d29bad41d29da641d29fa041d2a19a41d2a39541d2a59141d2a78c41d2a98941d2ab8541d2ad8341d2af8041d2b17f41d2b37d41d2b57d41d2b77c,
  0x41cf7a6d41cf7bc341cf7d1941cf7e6f41cf7fc541cf811c41cf827341cf83ca41cf852141cf867841cf87d041cf892841cf8a8041cf8bd941cf8d3141cf8e8a41cf8fe341cf913c41cf929641cf93ef41cf954941cf96a441cf97fe41cf995941cf9ab441cf9c0f41cf9d6a41cf9ec541cfa02141cfa17d41cfa2da41cfa43641cfa59341cfa6f041cfa84d41cfa9aa41cfab0841cfac6641cfadc441cfaf2241cfb08141cfb1e041cfb33f41cfb49e41cfb5fd41cfb75d41cfb8bd41cfba1d41cfbb7e41cfbcdf41cfbe4041cfbfa141cfc10241cfc26441cfc3c641cfc52841cfc68a41cfc7ed41cfc95041cfcab341cfcc1641cfcd7a41cfcedd41cfd04141cfd1a641cfd30a41cfd46f41cfd5d441cfd73941cfd89f41cfda0541cfdb6b41cfdcd141cfde3741cfdf9e41cfe10541cfe26c41cfe3d441cfe53b41cfe6a341cfe80c41cfe97441cfeadd41cfec4641cfedaf41cfef1841cff08241cff1ec41cff35641cff4c141cff62b41cff79641cff90241cffa6d41cffbd941cffd4541cffeb141d0001d41d0018a41d002f741d0046441d005d241d0074041d008ae41d00a1c41d00b8a41d00cf941d00e6841d00fd741d0114741d012b741d0142741d0159741d0170841d0187841d019ea41d01b5b41d01ccd41d01e3e41d01fb141d0212341d0229641d0240841d0257c41d026ef41d0286341d029d741d02b4b41d02cbf41d02e3441d02fa941d0311f41d0329441d0340a41d0358041d036f641d0386d41d039e441d03b5b41d03cd341d03e4a41d03fc241d0413a41d042b341d0442c41d045a541d0471e41d0489841d04a1241d04b8c41d04d0641d04e8141d04ffc41d0517741d052f241d0546e41d055ea41d0576741d058e341d05a6041d05bdd41d05d5b41d05ed841d0605641d061d541d0635341d064d241d0665141d067d141d0695041d06ad041d06c5041d06dd141d06f5241d070d341d0725441d073d641d0755841d076da41d0785d41d079df41d07b6241d07ce641d07e6941d07fed41d0817241d082f641d0847b41d0860041d0878541d0890b41d08a9141d08c1741d08d9e41d08f2441d090ac41d0923341d093bb41d0954341d096cb41d0985441d099dc41d09b6641d09cef41d09e7941d0a00341d0a18d41d0a31841d0a4a341d0a62e41d0a7ba41d0a94541d0aad241d0ac5e41d0adeb41d0af7841d0b10541d0b29341d0b42141d0b5af41d0b73d41d0b8cc41d0ba5b41d0bbeb41d0bd7b41d0bf0b41d0c09b41d0c22c41d0c3bd41d0c54e41d0c6e041d0c87241d0ca0441d0cb9641d0cd2941d0cebc41d0d05041d0d1e441d0d37841d0d50c41d0d6a141d0d83641d0d9cb41d0db6141d0dcf741d0de8d41d0e02341d0e1ba41d0e35241d0e4e941d0e68141d0e81941d0e9b241d0eb4a41d0ece441d0ee7d,
  0x41ce3e8941ce3fae41ce40d341ce41f841ce431e41ce444341ce456941ce468e41ce47b441ce48db41ce4a0141ce4b2741ce4c4e41ce4d7541ce4e9c41ce4fc341ce50ea41ce521241ce533941ce546141ce558941ce56b141ce57d941ce590241ce5a2a41ce5b5341ce5c7c41ce5da541ce5ecf41ce5ff841ce612241ce624c41ce637541ce64a041ce65ca41ce66f441ce681f41ce694a41ce6a7541ce6ba041ce6ccb41ce6df741ce6f2341ce704e41ce717a41ce72a741ce73d341ce750041ce762c41ce775941ce788641ce79b341ce7ae141ce7c0e41ce7d3c41ce7e6a41ce7f9841ce80c641ce81f541ce832441ce845241ce858141ce86b041ce87e041ce890f41ce8a3f41ce8b6f41ce8c9f41ce8dcf41ce8eff41ce903041ce916141ce929241ce93c341ce94f441ce962541ce975741ce988941ce99bb41ce9aed41ce9c1f41ce9d5241ce9e8441ce9fb741cea0ea41cea21e41cea35141cea48541cea5b841cea6ec41cea82041cea95541ceaa8941ceabbe41ceacf341ceae2841ceaf5d41ceb09241ceb1c841ceb2fe41ceb43441ceb56a41ceb6a041ceb7d741ceb90d41ceba4441cebb7b41cebcb341cebdea41cebf2241cec05941cec19141cec2ca41cec40241cec53a41cec67341cec7ac41cec8e541ceca1e41cecb5841cecc9241cecdcb41cecf0641ced04041ced17a41ced2b541ced3f041ced52b41ced66641ced7a141ced8dd41ceda1841cedb5441cedc9041ceddcd41cedf0941cee04641cee18341cee2c041cee3fd41cee53b41cee67841cee7b641cee8f441ceea3241ceeb7141ceecaf41ceedee41ceef2d41cef06c41cef1ac41cef2eb41cef42b41cef56b41cef6ab41cef7ec41cef92c41cefa6d41cefbae41cefcef41cefe3141ceff7241cf00b441cf01f641cf033841cf047a41cf05bd41cf070041cf084341cf098641cf0ac941cf0c0d41cf0d5041cf0e9441cf0fd841cf111d41cf126141cf13a641cf14eb41cf163041cf177541cf18bb41cf1a0141cf1b4741cf1c8d41cf1dd341cf1f1a41cf206041cf21a741cf22ef41cf243641cf257d41cf26c541cf280d41cf295541cf2a9e41cf2be641cf2d2f41cf2e7841cf2fc241cf310b41cf325541cf339e41cf34e841cf363341cf377d41cf38c841cf3a1341cf3b5e41cf3ca941cf3df541cf3f4041cf408c41cf41d841cf432541cf447141cf45be41cf470b41cf485841cf49a641cf4af341cf4c4141cf4d8f41cf4ede41cf502c41cf517b41cf52ca41cf541941cf556841cf56b841cf580741cf595741cf5aa841cf5bf841cf5d4941cf5e9941cf5fea41cf613c41cf628d41cf63df41cf653141cf668341cf67d541cf692841cf6a7b41cf6bce41cf6d2141cf6e7441cf6fc841cf711c41cf727041cf73c441cf751941cf766e41cf77c341cf7918,
  0x41cd2cec41cd2dec41cd2eec41cd2fed41cd30ed41cd31ee41cd32ef41cd33f041cd34f141cd35f241cd36f341cd37f541cd38f641cd39f841cd3afa41cd3bfc41cd3cfe41cd3e0041cd3f0241cd400541cd410741cd420a41cd430d41cd441041cd451341cd461641cd471a41cd481d41cd492141cd4a2541cd4b2841cd4c2c41cd4d3141cd4e3541cd4f3941cd503e41cd514241cd524741cd534c41cd545141cd555641cd565b41cd576141cd586641cd596c41cd5a7241cd5b7841cd5c7e41cd5d8441cd5e8b41cd5f9141cd609841cd619e41cd62a541cd63ac41cd64b341cd65bb41cd66c241cd67ca41cd68d141cd69d941cd6ae141cd6be941cd6cf141cd6df941cd6f0241cd700b41cd711341cd721c41cd732541cd742e41cd753841cd764141cd774a41cd785441cd795e41cd7a6841cd7b7241cd7c7c41cd7d8641cd7e9141cd7f9c41cd80a641cd81b141cd82bc41cd83c741cd84d341cd85de41cd86ea41cd87f541cd890141cd8a0d41cd8b1941cd8c2541cd8d3241cd8e3e41cd8f4b41cd905841cd916541cd927241cd937f41cd948c41cd959a41cd96a841cd97b541cd98c341cd99d141cd9adf41cd9bee41cd9cfc41cd9e0b41cd9f1a41cda02841cda13741cda24741cda35641cda46541cda57541cda68541cda79441cda8a441cda9b541cdaac541cdabd541cdace641cdadf741cdaf0741cdb01841cdb12a41cdb23b41cdb34c41cdb45e41cdb57041cdb68141cdb79341cdb8a641cdb9b841cdbaca41cdbbdd41cdbcf041cdbe0241cdbf1541cdc02941cdc13c41cdc24f41cdc36341cdc47741cdc58a41cdc69e41cdc7b341cdc8c741cdc9db41cdcaf041cdcc0541cdcd1a41cdce2f41cdcf4441cdd05941cdd16f41cdd28441cdd39a41cdd4b041cdd5c641cdd6dc41cdd7f341cdd90941cdda2041cddb3741cddc4d41cddd6541cdde7c41cddf9341cde0ab41cde1c241cde2da41cde3f241cde50a41cde62341cde73b41cde85441cde96d41cdea8541cdeb9e41cdecb841cdedd141cdeeea41cdf00441cdf11e41cdf23841cdf35241cdf46c41cdf58741cdf6a141cdf7bc41cdf8d741cdf9f241cdfb0d41cdfc2841cdfd4441cdfe5f41cdff7b41ce009741ce01b341ce02cf41ce03ec41ce050841ce062541ce074241ce085f41ce097c41ce0a9941ce0bb741ce0cd541ce0df241ce0f1041ce102e41ce114d41ce126b41ce138a41ce14a841ce15c741ce16e641ce180641ce192541ce1a4441ce1b6441ce1c8441ce1da441ce1ec441ce1fe441ce210541ce222641ce234641ce246741ce258841ce26aa41ce27cb41ce28ed41ce2a0e41ce2b3041ce2c5241ce2d7541ce2e9741ce2fb941ce30dc41ce31ff41ce332241ce344541ce356941ce368c41ce37b041ce38d441ce39f841ce3b1c41ce3c4041ce3d65] ++
  [0x41cc3b9741cc3c7b41cc3d5f41cc3e4241cc3f2641cc400b41cc40ef41cc41d341cc42b741cc439c41cc448141cc456541cc464a41cc472f41cc481441cc48f941cc49de41cc4ac441cc4ba941cc4c8e41cc4d7441cc4e5a41cc4f4041cc502541cc510b41cc51f241cc52d841cc53be41cc54a441cc558b41cc567241cc575841cc583f41cc592641cc5a0d41cc5af441cc5bdb41cc5cc341cc5daa41cc5e9241cc5f7941cc606141cc614941cc623141cc631941cc640141cc64e941cc65d241cc66ba41cc67a341cc688b41cc697441cc6a5d41cc6b4641cc6c2f41cc6d1841cc6e0141cc6eeb41cc6fd441cc70be41cc71a741cc729141cc737b41cc746541cc754f41cc763941cc772441cc780e41cc78f941cc79e341cc7ace41cc7bb941cc7ca441cc7d8f41cc7e7a41cc7f6541cc805141cc813c41cc822841cc831341cc83ff41cc84eb41cc85d741cc86c341cc87b041cc889c41cc898841cc8a7541cc8b6141cc8c4e41cc8d3b41cc8e2841cc8f1541cc900241cc90f041cc91dd41cc92ca41cc93b841cc94a641cc959441cc968241cc977041cc985e41cc994c41cc9a3a41cc9b2941cc9c1741cc9d0641cc9df541cc9ee441cc9fd341cca0c241cca1b141cca2a141cca39041cca48041cca56f41cca65f41cca74f41cca83f41cca92f41ccaa1f41ccab1041ccac0041ccacf141ccade141ccaed241ccafc341ccb0b441ccb1a541ccb29641ccb38841ccb47941ccb56b41ccb65c41ccb74e41ccb84041ccb93241ccba2441ccbb1641ccbc0941ccbcfb41ccbdee41ccbee041ccbfd341ccc0c641ccc1b941ccc2ac41ccc39f41ccc49341ccc58641ccc67a41ccc76d41ccc86141ccc95541ccca4941cccb3d41cccc3141cccd2641ccce1a41cccf0f41ccd00441ccd0f841ccd1ed41ccd2e241ccd3d841ccd4cd41ccd5c241ccd6b841ccd7ad41ccd8a341ccd99941ccda8f41ccdb8541ccdc7b41ccdd7241ccde6841ccdf5f41cce05541cce14c41cce24341cce33a41cce43141cce52841cce62041cce71741cce80f41cce90641cce9fe41cceaf641ccebee41ccece741cceddf41cceed741ccefd041ccf0c841ccf1c141ccf2ba41ccf3b341ccf4ac41ccf5a541ccf69f41ccf79841ccf89241ccf98c41ccfa8541ccfb7f41ccfc7a41ccfd7441ccfe6e41ccff6841cd006341cd015e41cd025841cd035341cd044e41cd054a41cd064541cd074041cd083c41cd093741cd0a3341cd0b2f41cd0c2b41cd0d2741cd0e2341cd0f2041cd101c41cd111941cd121641cd131241cd140f41cd150d41cd160a41cd170741cd180541cd190241cd1a0041cd1afe41cd1bfc41cd1cfa41cd1df841cd1ef641cd1ff541cd20f341cd21f241cd22f141cd23f041cd24ef41cd25ee41cd26ed41cd27ed41cd28ec41cd29ec41cd2aec41cd2bec,
  0x41cb63b941cb648641cb655341cb662041cb66ed41cb67ba41cb688841cb695541cb6a2341cb6af041cb6bbe41cb6c8c41cb6d5941cb6e2741cb6ef541cb6fc341cb709141cb716041cb722e41cb72fc41cb73cb41cb749941cb756841cb763741cb770541cb77d441cb78a341cb797241cb7a4141cb7b1141cb7be041cb7caf41cb7d7f41cb7e4e41cb7f1e41cb7fed41cb80bd41cb818d41cb825d41cb832d41cb83fd41cb84cd41cb859d41cb866e41cb873e41cb880f41cb88df41cb89b041cb8a8141cb8b5241cb8c2241cb8cf341cb8dc541cb8e9641cb8f6741cb903841cb910a41cb91db41cb92ad41cb937f41cb945041cb952241cb95f441cb96c641cb979841cb986a41cb993d41cb9a0f41cb9ae141cb9bb441cb9c8641cb9d5941cb9e2c41cb9eff41cb9fd241cba0a541cba17841cba24b41cba31e41cba3f241cba4c541cba59941cba66c41cba74041cba81441cba8e841cba9bc41cbaa9041cbab6441cbac3841cbad0c41cbade141cbaeb541cbaf8a41cbb05e41cbb13341cbb20841cbb2dd41cbb3b241cbb48741cbb55c41cbb63141cbb70741cbb7dc41cbb8b241cbb98741cbba5d41cbbb3341cbbc0941cbbcdf41cbbdb541cbbe8b41cbbf6141cbc03741cbc10e41cbc1e441cbc2bb41cbc39141cbc46841cbc53f41cbc61641cbc6ed41cbc7c441cbc89b41cbc97241cbca4a41cbcb2141cbcbf941cbccd041cbcda841cbce8041cbcf5841cbd03041cbd10841cbd1e041cbd2b841cbd39041cbd46941cbd54141cbd61a41cbd6f341cbd7cc41cbd8a441cbd97d41cbda5641cbdb3041cbdc0941cbdce241cbddbc41cbde9541cbdf6f41cbe04841cbe12241cbe1fc41cbe2d641cbe3b041cbe48a41cbe56441cbe63f41cbe71941cbe7f341cbe8ce41cbe9a941cbea8441cbeb5e41cbec3941cbed1441cbedf041cbeecb41cbefa641cbf08241cbf15d41cbf23941cbf31441cbf3f041cbf4cc41cbf5a841cbf68441cbf76041cbf83c41cbf91941cbf9f541cbfad241cbfbae41cbfc8b41cbfd6841cbfe4541cbff2241cbffff41cc00dc41cc01b941cc029741cc037441cc045241cc052f41cc060d41cc06eb41cc07c941cc08a741cc098541cc0a6341cc0b4141cc0c2041cc0cfe41cc0ddd41cc0ebb41cc0f9a41cc107941cc115841cc123741cc131641cc13f541cc14d541cc15b441cc169441cc177341cc185341cc193341cc1a1341cc1af341cc1bd341cc1cb341cc1d9341cc1e7441cc1f5441cc203541cc211641cc21f641cc22d741cc23b841cc249941cc257a41cc265c41cc273d41cc281e41cc290041cc29e241cc2ac341cc2ba541cc2c8741cc2d6941cc2e4b41cc2f2e41cc301041cc30f241cc31d541cc32b741cc339a41cc347d41cc356041cc364341cc372641cc380941cc38ed41cc39d041cc3ab3,
  0x41caa07441caa12f41caa1e941caa2a341caa35e41caa41941caa4d341caa58e41caa64941caa70341caa7be41caa87941caa93441caa9ef41caaaaa41caab6641caac2141caacdc41caad9841caae5341caaf0f41caafca41cab08641cab14241cab1fe41cab2b941cab37541cab43141cab4ee41cab5aa41cab66641cab72241cab7df41cab89b41cab95741caba1441cabad141cabb8d41cabc4a41cabd0741cabdc441cabe8141cabf3e41cabffb41cac0b841cac17541cac23341cac2f041cac3ad41cac46b41cac52941cac5e641cac6a441cac76241cac82041cac8dd41cac99b41caca5a41cacb1841cacbd641cacc9441cacd5241cace1141cacecf41cacf8e41cad04d41cad10b41cad1ca41cad28941cad34841cad40741cad4c641cad58541cad64441cad70341cad7c341cad88241cad94141cada0141cadac041cadb8041cadc4041cadd0041caddc041cade7f41cadf3f41cae00041cae0c041cae18041cae24041cae30141cae3c141cae48241cae54241cae60341cae6c341cae78441cae84541cae90641cae9c741caea8841caeb4941caec0a41caeccc41caed8d41caee4f41caef1041caefd241caf09341caf15541caf21741caf2d941caf39b41caf45d41caf51f41caf5e141caf6a341caf76541caf82841caf8ea41caf9ad41cafa6f41cafb3241cafbf541cafcb741cafd7a41cafe3d41caff0041caffc341cb008641cb014a41cb020d41cb02d041cb039441cb045741cb051b41cb05df41cb06a241cb076641cb082a41cb08ee41cb09b241cb0a7641cb0b3a41cb0bfe41cb0cc341cb0d8741cb0e4c41cb0f1041cb0fd541cb109a41cb115e41cb122341cb12e841cb13ad41cb147241cb153741cb15fc41cb16c241cb178741cb184d41cb191241cb19d841cb1a9d41cb1b6341cb1c2941cb1cef41cb1db541cb1e7b41cb1f4141cb200741cb20cd41cb219441cb225a41cb232041cb23e741cb24ae41cb257441cb263b41cb270241cb27c941cb289041cb295741cb2a1e41cb2ae541cb2bad41cb2c7441cb2d3c41cb2e0341cb2ecb41cb2f9241cb305a41cb312241cb31ea41cb32b241cb337a41cb344241cb350a41cb35d341cb369b41cb376441cb382c41cb38f541cb39bd41cb3a8641cb3b4f41cb3c1841cb3ce141cb3daa41cb3e7341cb3f3c41cb400641cb40cf41cb419841cb426241cb432c41cb43f541cb44bf41cb458941cb465341cb471d41cb47e741cb48b141cb497b41cb4a4641cb4b1041cb4bda41cb4ca541cb4d7041cb4e3a41cb4f0541cb4fd041cb509b41cb516641cb523141cb52fc41cb53c741cb549341cb555e41cb562a41cb56f541cb57c141cb588d41cb595841cb5a2441cb5af041cb5bbc41cb5c8841cb5d5541cb5e2141cb5eed41cb5fba41cb608641cb615341cb621f41cb62ec,
  0x41c9ee3241c9eedd41c9ef8741c9f03241c9f0dd41c9f18841c9f23341c9f2de41c9f38941c9f43541c9f4e041c9f58b41c9f63741c9f6e241c9f78d41c9f83941c9f8e541c9f99041c9fa3c41c9fae841c9fb9441c9fc3f41c9fceb41c9fd9741c9fe4341c9feef41c9ff9c41ca004841ca00f441ca01a041ca024d41ca02f941ca03a641ca045241ca04ff41ca05ac41ca065841ca070541ca07b241ca085f41ca090c41ca09b941ca0a6641ca0b1341ca0bc041ca0c6d41ca0d1b41ca0dc841ca0e7541ca0f2341ca0fd041ca107e41ca112b41ca11d941ca128741ca133541ca13e341ca149141ca153f41ca15ed41ca169b41ca174941ca17f741ca18a541ca195441ca1a0241ca1ab041ca1b5f41ca1c0d41ca1cbc41ca1d6b41ca1e1a41ca1ec841ca1f7741ca202641ca20d541ca218441ca223341ca22e241ca239141ca244141ca24f041ca259f41ca264f41ca26fe41ca27ae41ca285e41ca290d41ca29bd41ca2a6d41ca2b1d41ca2bcc41ca2c7c41ca2d2c41ca2ddd41ca2e8d41ca2f3d41ca2fed41ca309d41ca314e41ca31fe41ca32af41ca335f41ca341041ca34c141ca357141ca362241ca36d341ca378441ca383541ca38e641ca399741ca3a4841ca3af941ca3bab41ca3c5c41ca3d0d41ca3dbf41ca3e7041ca3f2241ca3fd441ca408541ca413741ca41e941ca429b41ca434d41ca43ff41ca44b141ca456341ca461541ca46c741ca477a41ca482c41ca48de41ca499141ca4a4341ca4af641ca4ba941ca4c5b41ca4d0e41ca4dc141ca4e7441ca4f2741ca4fda41ca508d41ca514041ca51f341ca52a741ca535a41ca540d41ca54c141ca557441ca562841ca56dc41ca578f41ca584341ca58f741ca59ab41ca5a5f41ca5b1341ca5bc741ca5c7b41ca5d2f41ca5de341ca5e9841ca5f4c41ca600141ca60b541ca616a41ca621e41ca62d341ca638841ca643d41ca64f141ca65a641ca665b41ca671041ca67c641ca687b41ca693041ca69e541ca6a9b41ca6b5041ca6c0641ca6cbb41ca6d7141ca6e2741ca6edc41ca6f9241ca704841ca70fe41ca71b441ca726a41ca732041ca73d641ca748d41ca754341ca75f941ca76b041ca776641ca781d41ca78d441ca798a41ca7a4141ca7af841ca7baf41ca7c6641ca7d1d41ca7dd441ca7e8b41ca7f4241ca7ffa41ca80b141ca816841ca822041ca82d741ca838f41ca844741ca84fe41ca85b641ca866e41ca872641ca87de41ca889641ca894e41ca8a0641ca8abf41ca8b7741ca8c2f41ca8ce841ca8da041ca8e5941ca8f1141ca8fca41ca908341ca913c41ca91f541ca92ae41ca936741ca942041ca94d941ca959241ca964b41ca970541ca97be41ca987841ca993141ca99eb41ca9aa541ca9b5e41ca9c1841ca9cd241ca9d8c41ca9e4641ca9f0041ca9fba,
  0x41c94a3741c94ad541c94b7341c94c1041c94cae41c94d4c41c94dea41c94e8841c94f2641c94fc441c9506241c9510041c9519e41c9523c41c952da41c9537841c9541741c954b541c9555441c955f241c9569141c9572f41c957ce41c9586c41c9590b41c959aa41c95a4941c95ae841c95b8641c95c2541c95cc441c95d6341c95e0341c95ea241c95f4141c95fe041c9607f41c9611f41c961be41c9625e41c962fd41c9639d41c9643c41c964dc41c9657b41c9661b41c966bb41c9675b41c967fb41c9689a41c9693a41c969da41c96a7b41c96b1b41c96bbb41c96c5b41c96cfb41c96d9c41c96e3c41c96edc41c96f7d41c9701d41c970be41c9715e41c971ff41c972a041c9734141c973e141c9748241c9752341c975c441c9766541c9770641c977a741c9784841c978ea41c9798b41c97a2c41c97acd41c97b6f41c97c1041c97cb241c97d5341c97df541c97e9741c97f3841c97fda41c9807c41c9811e41c981bf41c9826141c9830341c983a541c9844841c984ea41c9858c41c9862e41c986d041c9877341c9881541c988b841c9895a41c989fd41c98a9f41c98b4241c98be541c98c8741c98d2a41c98dcd41c98e7041c98f1341c98fb641c9905941c990fc41c9919f41c9924241c992e641c9938941c9942c41c994d041c9957341c9961741c996ba41c9975e41c9980141c998a541c9994941c999ed41c99a9141c99b3541c99bd841c99c7d41c99d2141c99dc541c99e6941c99f0d41c99fb141c9a05641c9a0fa41c9a19f41c9a24341c9a2e841c9a38c41c9a43141c9a4d541c9a57a41c9a61f41c9a6c441c9a76941c9a80e41c9a8b341c9a95841c9a9fd41c9aaa241c9ab4741c9abec41c9ac9241c9ad3741c9addd41c9ae8241c9af2841c9afcd41c9b07341c9b11841c9b1be41c9b26441c9b30a41c9b3b041c9b45641c9b4fc41c9b5a241c9b64841c9b6ee41c9b79441c9b83a41c9b8e141c9b98741c9ba2d41c9bad441c9bb7a41c9bc2141c9bcc841c9bd6e41c9be1541c9bebc41c9bf6341c9c00a41c9c0b041c9c15741c9c1ff41c9c2a641c9c34d41c9c3f441c9c49b41c9c54341c9c5ea41c9c69141c9c73941c9c7e041c9c88841c9c93041c9c9d741c9ca7f41c9cb2741c9cbcf41c9cc7741c9cd1f41c9cdc741c9ce6f41c9cf1741c9cfbf41c9d06741c9d10f41c9d1b841c9d26041c9d30941c9d3b141c9d45a41c9d50241c9d5ab41c9d65441c9d6fc41c9d7a541c9d84e41c9d8f741c9d9a041c9da4941c9daf241c9db9b41c9dc4541c9dcee41c9dd9741c9de4141c9deea41c9df9341c9e03d41c9e0e741c9e19041c9e23a41c9e2e441c9e38d41c9e43741c9e4e141c9e58b41c9e63541c9e6df41c9e78941c9e83441c9e8de41c9e98841c9ea3341c9eadd41c9eb8741c9ec3241c9ecdd41c9ed87,
  0x41c8b26641c8b2f941c8b38b41c8b41d41c8b4b041c8b54241c8b5d541c8b66741c8b6fa41c8b78d41c8b81f41c8b8b241c8b94541c8b9d841c8ba6b41c8bafe41c8bb9141c8bc2441c8bcb741c8bd4a41c8bddd41c8be7041c8bf0341c8bf9741c8c02a41c8c0bd41c8c15141c8c1e441c8c27741c8c30b41c8c39e41c8c43241c8c4c641c8c55941c8c5ed41c8c68141c8c71541c8c7a841c8c83c41c8c8d041c8c96441c8c9f841c8ca8c41c8cb2041c8cbb441c8cc4941c8ccdd41c8cd7141c8ce0541c8ce9a41c8cf2e41c8cfc241c8d05741c8d0eb41c8d18041c8d21541c8d2a941c8d33e41c8d3d341c8d46741c8d4fc41c8d59141c8d62641c8d6bb41c8d75041c8d7e541c8d87a41c8d90f41c8d9a441c8da3941c8dace41c8db6441c8dbf941c8dc8e41c8dd2441c8ddb941c8de4f41c8dee441c8df7a41c8e00f41c8e0a541c8e13b41c8e1d041c8e26641c8e2fc41c8e39241c8e42841c8e4be41c8e55441c8e5ea41c8e68041c8e71641c8e7ac41c8e84241c8e8d941c8e96f41c8ea0541c8ea9c41c8eb3241c8ebc841c8ec5f41c8ecf541c8ed8c41c8ee2341c8eeb941c8ef5041c8efe741c8f07e41c8f11541c8f1ab41c8f24241c8f2d941c8f37041c8f40741c8f49f41c8f53641c8f5cd41c8f66441c8f6fb41c8f79341c8f82a41c8f8c241c8f95941c8f9f141c8fa8841c8fb2041c8fbb741c8fc4f41c8fce741c8fd7e41c8fe1641c8feae41c8ff4641c8ffde41c9007641c9010e41c901a641c9023e41c902d641c9036f41c9040741c9049f41c9053741c905d041c9066841c9070141c9079941c9083241c908ca41c9096341c909fc41c90a9541c90b2d41c90bc641c90c5f41c90cf841c90d9141c90e2a41c90ec341c90f5c41c90ff541c9108e41c9112841c911c141c9125a41c912f441c9138d41c9142741c914c041c9155a41c915f341c9168d41c9172641c917c041c9185a41c918f441c9198e41c91a2841c91ac241c91b5c41c91bf641c91c9041c91d2a41c91dc441c91e5e41c91ef841c91f9341c9202d41c920c841c9216241c921fd41c9229741c9233241c923cc41c9246741c9250241c9259c41c9263741c926d241c9276d41c9280841c928a341c9293e41c929d941c92a7441c92b0f41c92bab41c92c4641c92ce141c92d7d41c92e1841c92eb441c92f4f41c92feb41c9308641c9312241c931be41c9325941c932f541c9339141c9342d41c934c941c9356541c9360141c9369d41c9373941c937d541c9387141c9390d41c939aa41c93a4641c93ae241c93b7f41c93c1b41c93cb841c93d5441c93df141c93e8e41c93f2a41c93fc741c9406441c9410141c9419e41c9423b41c942d841c9437541c9441241c944af41c9454c41c945e941c9468741c9472441c947c141c9485f41c948fc41c9499a,
  0x41c8251041c8259941c8262141c826aa41c8273341c827bc41c8284441c828cd41c8295641c829df41c82a6841c82af141c82b7a41c82c0341c82c8c41c82d1541c82d9e41c82e2741c82eb041c82f3a41c82fc341c8304c41c830d541c8315f41c831e841c8327241c832fb41c8338541c8340e41c8349841c8352141c835ab41c8363541c836bf41c8374841c837d241c8385c41c838e641c8397041c839fa41c83a8441c83b0e41c83b9841c83c2241c83cac41c83d3641c83dc041c83e4b41c83ed541c83f5f41c83fea41c8407441c840fe41c8418941c8421341c8429e41c8432841c843b341c8443e41c844c841c8455341c845de41c8466941c846f441c8477e41c8480941c8489441c8491f41c849aa41c84a3541c84ac041c84b4b41c84bd741c84c6241c84ced41c84d7841c84e0441c84e8f41c84f1a41c84fa641c8503141c850bd41c8514841c851d441c8525f41c852eb41c8537741c8540241c8548e41c8551a41c855a641c8563241c856be41c8574a41c857d641c8586241c858ee41c8597a41c85a0641c85a9241c85b1e41c85baa41c85c3741c85cc341c85d4f41c85ddc41c85e6841c85ef541c85f8141c8600e41c8609a41c8612741c861b441c8624041c862cd41c8635a41c863e741c8647341c8650041c8658d41c8661a41c866a741c8673441c867c141c8684e41c868dc41c8696941c869f641c86a8341c86b1041c86b9e41c86c2b41c86cb941c86d4641c86dd441c86e6141c86eef41c86f7c41c8700a41c8709841c8712541c871b341c8724141c872cf41c8735d41c873ea41c8747841c8750641c8759441c8762241c876b141c8773f41c877cd41c8785b41c878e941c8797841c87a0641c87a9441c87b2341c87bb141c87c4041c87cce41c87d5d41c87deb41c87e7a41c87f0941c87f9741c8802641c880b541c8814441c881d341c8826241c882f141c8838041c8840f41c8849e41c8852d41c885bc41c8864b41c886da41c8876a41c887f941c8888841c8891841c889a741c88a3741c88ac641c88b5641c88be541c88c7541c88d0441c88d9441c88e2441c88eb441c88f4441c88fd341c8906341c890f341c8918341c8921341c892a341c8933341c893c341c8945441c894e441c8957441c8960441c8969541c8972541c897b641c8984641c898d641c8996741c899f841c89a8841c89b1941c89baa41c89c3a41c89ccb41c89d5c41c89ded41c89e7e41c89f0f41c89fa041c8a03141c8a0c241c8a15341c8a1e441c8a27541c8a30641c8a39741c8a42941c8a4ba41c8a54b41c8a5dd41c8a66e41c8a70041c8a79141c8a82341c8a8b541c8a94641c8a9d841c8aa6a41c8aafb41c8ab8d41c8ac1f41c8acb141c8ad4341c8add541c8ae6741c8aef941c8af8b41c8b01d41c8b0af41c8b14241c8b1d4,
  0x41c7a0db41c7a15b41c7a1db41c7a25b41c7a2db41c7a35c41c7a3dc41c7a45c41c7a4dc41c7a55d41c7a5dd41c7a65d41c7a6de41c7a75e41c7a7de41c7a85f41c7a8df41c7a96041c7a9e141c7aa6141c7aae241c7ab6341c7abe341c7ac6441c7ace541c7ad6641c7ade641c7ae6741c7aee841c7af6941c7afea41c7b06b41c7b0ec41c7b16d41c7b1ee41c7b26f41c7b2f041c7b37241c7b3f341c7b47441c7b4f541c7b57741c7b5f841c7b67941c7b6fb41c7b77c41c7b7fe41c7b87f41c7b90141c7b98241c7ba0441c7ba8641c7bb0741c7bb8941c7bc0b41c7bc8c41c7bd0e41c7bd9041c7be1241c7be9441c7bf1641c7bf9841c7c01a41c7c09c41c7c11e41c7c1a041c7c22241c7c2a441c7c32641c7c3a841c7c42b41c7c4ad41c7c52f41c7c5b241c7c63441c7c6b641c7c73941c7c7bb41c7c83e41c7c8c041c7c94341c7c9c541c7ca4841c7cacb41c7cb4d41c7cbd041c7cc5341c7ccd641c7cd5941c7cddb41c7ce5e41c7cee141c7cf6441c7cfe741c7d06a41c7d0ed41c7d17041c7d1f341c7d27741c7d2fa41c7d37d41c7d40041c7d48441c7d50741c7d58a41c7d60e41c7d69141c7d71441c7d79841c7d81b41c7d89f41c7d92341c7d9a641c7da2a41c7daae41c7db3141c7dbb541c7dc3941c7dcbd41c7dd4041c7ddc441c7de4841c7decc41c7df5041c7dfd441c7e05841c7e0dc41c7e16041c7e1e541c7e26941c7e2ed41c7e37141c7e3f541c7e47a41c7e4fe41c7e58341c7e60741c7e68b41c7e71041c7e79441c7e81941c7e89e41c7e92241c7e9a741c7ea2b41c7eab041c7eb3541c7ebba41c7ec3f41c7ecc341c7ed4841c7edcd41c7ee5241c7eed741c7ef5c41c7efe141c7f06641c7f0eb41c7f17141c7f1f641c7f27b41c7f30041c7f38541c7f40b41c7f49041c7f51641c7f59b41c7f62041c7f6a641c7f72b41c7f7b141c7f83741c7f8bc41c7f94241c7f9c841c7fa4d41c7fad341c7fb5941c7fbdf41c7fc6541c7fcea41c7fd7041c7fdf641c7fe7c41c7ff0241c7ff8841c8000f41c8009541c8011b41c801a141c8022741c802ae41c8033441c803ba41c8044141c804c741c8054e41c805d441c8065b41c806e141c8076841c807ee41c8087541c808fc41c8098241c80a0941c80a9041c80b1741c80b9e41c80c2541c80cab41c80d3241c80db941c80e4041c80ec841c80f4f41c80fd641c8105d41c810e441c8116b41c811f341c8127a41c8130141c8138941c8141041c8149841c8151f41c815a741c8162e41c816b641c8173d41c817c541c8184d41c818d541c8195c41c819e441c81a6c41c81af441c81b7c41c81c0441c81c8c41c81d1441c81d9c41c81e2441c81eac41c81f3441c81fbc41c8204541c820cd41c8215541c821de41c8226641c822ee41c8237741c823ff41c82488] ++
  [0x41c7a05b]

end Sys2Proof.Tables
end

