-- ==== Sys2Proof/Machine/Approx.lean ====
section
/-! DEFINITION. The table-defined functions of R97 to R99. RSQRTA and RCPA compute their entry exactly; EXP2A, LOG2A,
SINPA and COSPA read a table. Every scaling and addition rounds RNE. -/
namespace Sys2Proof.Num

/-- The normalised fraction field F and unbiased exponent e of a positive finite nonzero F32 magnitude (R98). -/
def normal (x : Nat) : Nat × Int :=
  match read .f32 (x % 2 ^ 31) with
  | .fin _ m e => ((m * 2 ^ (23 - Nat.log2 m)) % 2 ^ 23, e + Nat.log2 m)
  | _ => (0, 0)
/-- An F32 encoding scaled by 2^k and rounded RNE. -/
def scale2 (neg : Bool) (t : Nat) (k : Int) : Nat :=
  match read .f32 t with
  | .fin n m e => round rne .f32 (.fin (n != neg) m (e + k))
  | v => round rne .f32 v
/-- Entry i of the RSQRTA table: (1 + (j + 0.5)/512)^(-1/2) / sqrt(2^h). -/
def rsqrtEntry (i : Nat) : Nat :=
  let j := i % 512; let h := i / 512
  round rne .f32 (sqrt (div (.fin false 1024 0) (.fin false ((1025 + 2 * j) * 2 ^ h) 0)))
/-- Entry i of the RCPA table. -/
def rcpEntry (i : Nat) : Nat := round rne .f32 (div (.fin false 2048 0) (.fin false (2049 + 2 * i) 0))
/-- The floor of a value and, for the fraction, floor(scale * (x - floor x)). -/
def floorFrac (neg : Bool) (m : Nat) (e : Int) (scale : Nat) : Int × Nat :=
  if 0 ≤ e then ((if neg then -1 else 1) * (m * 2 ^ e.toNat : Nat), 0)
  else
    let d : Int := (2 ^ (-e).toNat : Nat)
    let v : Int := if neg then -(m : Int) else m
    (v / d, (scale * (v % d) / d).toNat)
/-- VAPPROX of one F32 element (R97 to R99, R210); `op` is sub of R53. -/
def approx (op : Nat) (ftz : Bool) (x0 : Nat) : Nat :=
  let x := flushIn ftz .f32 x0
  let out := fun (r : Nat) => flushOut ftz .f32 r
  match read .f32 x with
  | .nan => canonNan .f32
  | .inf neg =>
    match op with
    | 0 | 3 => if neg then canonNan .f32 else if op = 0 then 0 else infBits .f32
    | 1 => signBit .f32 neg
    | 2 => if neg then 0 else infBits .f32
    | _ => canonNan .f32
  | .fin neg m e =>
    let (f, ex) := normal x
    match op with
    | 0 =>
      if m = 0 then signBit .f32 neg + infBits .f32
      else if neg then canonNan .f32
      else
        let h : Int := ex % 2
        out (scale2 false (rsqrtEntry (512 * h.toNat + f / 2 ^ 14)) (-((ex - h) / 2)))
    | 1 =>
      if m = 0 then signBit .f32 neg + infBits .f32
      else out (scale2 neg (rcpEntry (f / 2 ^ 13)) (-ex))
    | 2 =>
      let (n, i) := floorFrac neg m e 1024
      out (scale2 false (Tables.get Tables.exp2 i) (max (-400) (min 400 n)))
    | 3 =>
      if m = 0 then signBit .f32 true + infBits .f32
      else if neg then canonNan .f32
      else out (round rne .f32 (add .rne (ofInt ex) (read .f32 (Tables.get Tables.log2 (f / 2 ^ 13)))))
    | _ =>
      let (_, i) := floorFrac neg m (e - 1) 1024
      out (Tables.get Tables.sin (if op = 4 then i else (i + 256) % 1024))

end Sys2Proof.Num
end

