-- ==== Sys2Proof/Machine/Vector.lean ====
section
/-! DEFINITION. The meanings of the vector instructions (R207 to R230). An operation takes the parcels of its form and
the extension fields, which are zero in length 00 (R34). -/
namespace Sys2Proof.Machine

/-! ## Element-wise arithmetic (R207 to R211) -/
def fnmaF (m : Rnd) (x y z : Num.FV) : Num.FV := Num.add m (Num.neg (Num.mul x y)) z
def divF (_ : Rnd) (x y _ : Num.FV) : Num.FV := Num.div x y
def sqrtF (_ : Rnd) (x _ _ : Num.FV) : Num.FV := Num.sqrt x
/-- vd[i] := Round(f(va[i], y)) (R207). -/
def State.vArith (s : State) (n : Nat) (f : VF) (x : XA) (op : Rnd → Num.FV → Num.FV → Num.FV → Num.FV) : Out :=
  s.vecOp n f (f.va :: bsrcs f x ++ rsrSrc x) false fun io i =>
    Num.arith (io.rc x f.ty.elems i) f.ty op (lane f.ty.bits (io.v f.va) i) (io.y f x i) 0
/-- The same with an addend, which vc = 0 takes from vd (R207). -/
def State.vFused (s : State) (n : Nat) (f : VF) (x : XA) (op : Rnd → Num.FV → Num.FV → Num.FV → Num.FV) : Out :=
  s.vecOp n f (f.va :: bsrcs f x ++ rsrSrc x ++ if x.vc = 0 then [] else [x.vc]) (x.vc == 0) fun io i =>
    Num.arith (io.rc x f.ty.elems i) f.ty op (lane f.ty.bits (io.v f.va) i) (io.y f x i)
      (lane f.ty.bits (if x.vc = 0 then io.s.strand.v[f.vd] else io.v x.vc) i)
/-- VMIN and VMAX; operands are compared and returned as read (R88, R91). -/
def State.vMinMax (s : State) (n : Nat) (f : VF) (x : XA) (big : Bool) : Out :=
  s.vecOp n f (f.va :: bsrcs f x) false fun io i =>
    Num.minMax f.ty big (Num.flushIn x.ftz f.ty (lane f.ty.bits (io.v f.va) i)) (Num.flushIn x.ftz f.ty (io.y f x i))
def State.vAbsNeg (s : State) (n : Nat) (f : VF) (x : XA) (neg : Bool) : Out :=
  s.vecOp n f [f.va] false fun io i => Num.absNeg f.ty neg x.sat (lane f.ty.bits (io.v f.va) i)
def State.vSqrt (s : State) (n : Nat) (f : VF) (x : XA) : Out :=
  s.vecOp n f (f.va :: rsrSrc x) false fun io i =>
    Num.arith (io.rc x f.ty.elems i) f.ty sqrtF (lane f.ty.bits (io.v f.va) i) 0 0
def State.vApprox (s : State) (n : Nat) (f : VF) (x : XA) : Out :=
  s.vecOp n f [f.va] false fun io i => Num.approx x.sub.toNat x.ftz (lane 32 (io.v f.va) i)
/-- VCLAMP: Min(Max(va, vb), vc), where vc = 0 names vd (R211). -/
def State.vClamp (s : State) (n : Nat) (f : VF) (x : XA) : Out :=
  s.vecOp n f (f.va :: f.vb :: if x.vc = 0 then [] else [x.vc]) (x.vc == 0) fun io i =>
    let rd := fun (v : VReg) => Num.flushIn x.ftz f.ty (lane f.ty.bits v i)
    Num.minMax f.ty false (Num.minMax f.ty true (rd (io.v f.va)) (rd (io.v f.vb)))
      (rd (if x.vc = 0 then io.s.strand.v[f.vd] else io.v x.vc))

/-! ## Logic, shifts, compares and selection (R212, R213) -/
def logicOp (op w a b : Nat) : Nat :=
  let nb := 2 ^ w - 1 - b
  match op with
  | 0 => Nat.land a b
  | 1 => Nat.lor a b
  | 2 => Nat.xor a b
  | 3 => Nat.land a nb
  | 4 => Nat.lor a nb
  | _ => 2 ^ w - 1 - Nat.xor a b
def State.vLogic (s : State) (n : Nat) (f : VF) (x : XA) : Out :=
  s.vecOp n f (f.va :: bsrcs f x) false fun io i =>
    logicOp x.sub.toNat f.ty.bits (lane f.ty.bits (io.v f.va) i) (io.y f x i)
def shiftOp (op w a c : Nat) : Nat :=
  match op with
  | 0 => a * 2 ^ c % 2 ^ w
  | 1 => a / 2 ^ c
  | 2 => Num.wrap w (Num.sint w a / (2 ^ c : Nat))
  | _ => (a * 2 ^ c + a / 2 ^ (w - c)) % 2 ^ w
def State.vShift (s : State) (n : Nat) (f : VF) (x : XA) : Out :=
  s.vecOp n f (f.va :: bsrcs f x) false fun io i =>
    shiftOp x.sub.toNat f.ty.bits (lane f.ty.bits (io.v f.va) i) (io.y f x i % f.ty.bits)
/-- VCMP into kd; masked-off bits and the bits at and above n are cleared (R203, R213). -/
def State.vCmp (s : State) (n : Nat) (f : VF) (x : XA) : Out :=
  match s.vecIn (f.va :: bsrcs f x) none false [] with
  | .error e => s.stop e
  | .ok io =>
    let rd := Num.flushIn x.ftz f.ty
    let r := pack 1 f.ty.elems fun i =>
      bit (io.s.masked f.k f.ty i && Num.compare f.ty x.sub.toNat (rd (lane f.ty.bits (io.v f.va) i)) (rd (io.y f x i)))
    .next ((io.s.setK (fin 8 f.vd.val) (BitVec.ofNat 1024 r)).retire n)
/-- VSEL takes va where the mask bit is 1 and vb elsewhere; it is not masked (R213). -/
def State.vSel (s : State) (n : Nat) (f : VF) : Out :=
  match s.vecIn [f.va, f.vb] (some f.vd) false [] with
  | .error e => s.stop e
  | .ok io =>
    .next ((io.write f.vd (vecOf f.ty.bits fun i =>
      lane f.ty.bits (if io.s.masked f.k f.ty i then io.v f.va else io.v f.vb) i)).retire n)

/-! ## Widening and reductions (R214, R215) -/
def State.vWiden (s : State) (n : Nat) (f : VF) (x : XA) (op : Rnd → Num.FV → Num.FV → Num.FV) : Out :=
  let m := widLen x.wid
  match s.vecIn (f.va :: bsrcs f x ++ rsrSrc x) none false (spanRegs f.vd m) with
  | .error e => s.stop e
  | .ok io =>
    let w := if Num.isFp f.ty then 32 else f.ty.bits * m
    .next ((io.writeSpan f.k w m f.vd fun i =>
      let rc := io.rc x f.ty.elems i
      let r := op rc.mode (Num.read f.ty (lane f.ty.bits (io.v f.va) i)) (Num.read f.ty (io.y f x i))
      if Num.isFp f.ty then Num.round rc .f32 r
      else match r with
        | .fin neg k e => Num.wrap w (Num.scaled neg k e 0)
        | _ => 0).retire n)
/-- The number of levels of the tree over n lanes (R94). -/
def levelsOf (n : Nat) : Nat := Nat.log2 n
/-- The value of a reduction (R94 to R96, R215). Every lane is read under ftz (R88), and so a single present F32 lane that is subnormal
gives the zero of its sign (DEDUCED, log 29: R95 hands a present lane on unchanged, and says nothing of ftz). -/
def reduce (rc : Num.RC) (ty : Ty) (op : Nat) (l : List (Option Nat)) : Nat :=
  let k := levelsOf l.length
  let rd := l.map (·.map (Num.flushIn rc.ftz ty))
  match op with
  | 0 =>
    if Num.isFp ty then
      (Num.tree (fun a b => Num.arith rc ty addF a b 0) k rd).getD (Num.signBit ty true)
    else
      (Num.tree (fun a b => Num.wrapOrClamp rc.sat 32 (Num.sint 32 a + Num.sint 32 b)) k
        (l.map (·.map fun a => Num.wrap 32 (Num.sint ty.bits a)))).getD 0
  | 1 => (Num.tree (Num.minMax ty true) k rd).getD (Num.emptyMax ty)
  | 2 => (Num.tree (Num.minMax ty false) k rd).getD (Num.emptyMin ty)
  | _ =>
    let r := (Num.tree (Num.argPick ty) k (rd.mapIdx fun i a => a.map fun v => (v, i))).getD (Num.emptyMax ty, 2 ^ 32 - 1)
    r.1 + r.2 * 2 ^ 32
/-- VRED writes vd in full (R215). -/
def State.vRed (s : State) (n : Nat) (f : VF) (x : XA) : Out :=
  match s.vecIn [f.va] (some f.vd) false [] with
  | .error e => s.stop e
  | .ok io =>
    let l := (List.range f.ty.elems).map fun i => if io.s.masked f.k f.ty i then some (lane f.ty.bits (io.v f.va) i) else none
    let rc : Num.RC := { mode := io.s.rounding x.rnd, sat := x.sat, ftz := x.ftz }
    .next ((io.write f.vd (BitVec.ofNat 4096 (reduce rc f.ty x.sub.toNat l))).retire n)

/-! ## Lane moves and permutes (R216 to R218) -/
/-- The lane index of R53. -/
def laneIx (f : VF) (x : XA) : Nat := f.vb.val % 4 * 256 + x.sub.toNat
def State.vBcast (s : State) (n : Nat) (f : VF) (x : XA) : Out :=
  s.vecOp n f (if x.bs then [] else [f.va]) false fun io _ =>
    if x.bs then io.s.scalarOp x.sc f.ty else lane f.ty.bits (io.v f.va) (laneIx f x)
def State.vBcastImm (s : State) (n : Nat) (f : VF) (imm : BitVec 32) : Out :=
  s.vecOp n f [] false fun _ _ => imm.toNat % 2 ^ f.ty.bits
/-- The types that VEXT and TRC sign-extend: the I and N types. -/
def isInt : Ty → Bool
  | .i8 | .i16 | .i32 | .n8 | .n16 | .n32 | .i4 | .n4 => true
  | _ => false
def State.vExt (s : State) (n : Nat) (f : VF) (x : XA) : Out :=
  match s.vecIn [f.va] none false [] with
  | .error e => s.stop e
  | .ok io =>
    let v := lane f.ty.bits (io.v f.va) (laneIx f x)
    .next ((io.s.setS x.sc (if isInt f.ty then BitVec.ofInt 64 (Num.sint f.ty.bits v) else BitVec.ofNat 64 v)).retire n)
/-- VINS reads vd, so a mapped v31 raises RING (R217, R228). -/
def State.vIns (s : State) (n : Nat) (f : VF) (x : XA) : Out :=
  match s.vecIn [] (some f.vd) true [] with
  | .error e => s.stop e
  | .ok io =>
    .next ((io.write f.vd (vecOf f.ty.bits fun i =>
      if i = laneIx f x then io.s.scalarOp x.sc f.ty else lane f.ty.bits (io.old f.vd) i)).retire n)
/-- VPERM: 16-bit indices in the registers from vb (R218). -/
def State.vPerm (s : State) (n : Nat) (f : VF) : Out :=
  let e := f.ty.elems
  match s.vecIn [f.va] (some f.vd) false (spanRegs f.vb (Nat.max 1 (e / 256))) with
  | .error st => s.stop st
  | .ok io =>
    .next ((io.write f.vd (io.merge f.k f.ty f.vd fun i =>
      lane f.ty.bits (io.v f.va) (lane 16 (io.v (fin 32 (f.vb.val + i / 256))) (i % 256) % e))).retire n)
def State.vSlide (s : State) (n : Nat) (f : VF) (x : XA) : Out :=
  s.vecOp n f [f.va, f.vb] false fun io i =>
    let e := f.ty.elems
    let j := i + Nat.min (io.s.rs x.sc).toNat (2 * e)
    if j < e then lane f.ty.bits (io.v f.va) j else if j < 2 * e then lane f.ty.bits (io.v f.vb) (j - e) else 0

/-! ## Conversion, packing and quantisation (R219 to R223) -/
/-- VPACK: a span of F32 or I32 to a narrow type; for E2M1 sub[0] selects the half of vd (R219). -/
def State.vPack (s : State) (n : Nat) (f : VF) (x : XA) : Out :=
  let m := widLen x.wid
  let src : Ty := if Num.isFp f.ty then .f32 else .i32
  let first := if f.ty = .e2m1 then 512 * (x.sub.toNat % 2) else 0
  match s.vecIn (rsrSrc x) (some f.vd) false (spanRegs f.va m) with
  | .error e => s.stop e
  | .ok io =>
    .next ((io.write f.vd (vecOf f.ty.bits fun e =>
      if first ≤ e ∧ e < first + 128 * m ∧ io.s.masked f.k f.ty e then
        Num.convert (io.rc x (128 * m) (e - first)) f.ty src (io.spanLane 32 m f.va (e - first))
      else lane f.ty.bits (io.old f.vd) e)).retire n)
/-- One element widened exactly to F32 or I32 (R220, R226). -/
def widen (ty : Ty) (v : Nat) : Nat :=
  if Num.isFp ty then Num.round Num.rne .f32 (Num.read ty v) else Num.wrap 32 (Num.sint ty.bits v)
def State.vUnpk (s : State) (n : Nat) (f : VF) (x : XA) : Out :=
  let m := widLen x.wid
  match s.vecIn [f.va] none false (spanRegs f.vd m) with
  | .error e => s.stop e
  | .ok io => .next ((io.writeSpan f.k 32 m f.vd fun i => widen f.ty (lane f.ty.bits (io.v f.va) i)).retire n)
def State.vCvt (s : State) (n : Nat) (f : VF) (x : XA) : Out :=
  s.vecOp n f (f.va :: rsrSrc x) false fun io i =>
    Num.convert (io.rc x f.ty.elems i) f.ty (Ty.dec (x.sub.toNat % 32)) (lane f.ty.bits (io.v f.va) i)
/-- The larger of two magnitudes, NaNs excluded (R222). -/
def magMax (a b : Num.FV) : Num.FV :=
  match a, b with
  | .nan, y => y
  | x, .nan => x
  | .inf _, _ => .inf false
  | _, .inf _ => .inf false
  | .fin _ m e, .fin _ k g => if Num.magGt k g m e then .fin false k g else .fin false m e
/-- The block exponent E of R222 for a largest magnitude. -/
def quantExp (w : Nat) : Num.FV → Int
  | .inf _ => 127
  | .fin _ m e => if m = 0 then 0 else max (-127) (min 127 ((Nat.log2 m : Int) + e - ((w : Int) - 2)))
  | .nan => 0
def State.vQnt (s : State) (n : Nat) (f : VF) (x : XA) : Out :=
  let m := widLen x.wid
  let w := f.ty.bits
  match s.vecIn (rsrSrc x) (some f.vd) false (spanRegs f.va m) with
  | .error e => s.stop e
  | .ok io =>
    let v := fun i => Num.read .f32 (Num.flushIn x.ftz .f32 (io.spanLane 32 m f.va i))
    let ex := (List.range (m / 2)).map fun b =>
      quantExp w ((List.range 256).foldl (fun acc i => magMax acc (v (256 * b + i))) (.fin false 0 0))
    let q := fun i =>
      let e := ex.getD (i / 256) 0
      Num.round (io.rc x (128 * m) i) (if w = 8 then .i8 else .i16) (match v i with
        | .fin neg k g => .fin neg k (g - e)
        | r => r)
    let scales := (ex.getD 0 0 + 127).toNat + 256 * (if m = 4 then (ex.getD 1 0 + 127).toNat else 0)
    .next (((io.write f.vd (io.merge f.k f.ty f.vd q)).setS x.sc (BitVec.ofNat 64 scales)).retire n)
/-- The breaches of R223 in the control value. -/
def planeBad (c w n : Nat) : Bool :=
  let p := c / 4 % 64
  c / 2 ^ 9 != 0 || (c % 2 == 0 && (p != 0 || c / 256 % 2 == 1)) || p == 1 || decide (w < p) || (c / 2 % 2 == 0 && n == 128)
/-- VPLANE between element layout and plane layout (R76, R77, R223). PARAM comes before RING and before the wait for a slot, here and
in TRW and TRC (DESIGN CHOICE, log 29: the spec gives no order of the two). -/
def State.vPlane (s : State) (n : Nat) (f : VF) (x : XA) : Out :=
  let c := (s.rs x.sc).toNat
  let w := f.ty.bits
  let e := f.ty.elems
  if planeBad c w e then .next (s.takeTrap causeParam c)
  else
    let g := if c / 2 % 2 = 1 then e else 256
    let place := fun (i j : Nat) => i / g * (w * g) + (w - 1 - j) * g + i % g
    match s.vecIn [f.va] (some f.vd) false [] with
    | .error st => s.stop st
    | .ok io =>
      let a := (io.v f.va).toNat
      let out := if c % 2 = 0 then
          vecOf 1 fun p =>
            let j := w - 1 - p % (w * g) / g
            let i := p / (w * g) * g + p % g
            if io.s.masked f.k f.ty i then a / 2 ^ (w * i + j) % 2 else (io.old f.vd).toNat / 2 ^ p % 2
        else
          io.merge f.k f.ty f.vd fun i =>
            let v := pack 1 w fun j => a / 2 ^ place i j % 2
            Num.wrap w (Num.niTrunc v (if c / 4 % 64 = 0 then w else c / 4 % 64) w (c / 256 % 2 == 1))
      .next ((io.write f.vd out).retire n)

/-! ## Tile registers and sequences (R224 to R226, R230) -/
def State.trWrite (s : State) (n : Nat) (f : VF) (x : XA) : Out :=
  let r := (s.rs x.sc).toNat
  if 128 ≤ r then .next (s.takeTrap causeParam r)
  else match s.vecIn [f.va] none false [] with
    | .error e => s.stop e
    | .ok io =>
      let tile := fin 2 x.sub.toNat
      let row := fin 128 r
      let old := io.s.bank.tr[tile][row]
      let new := vecOf f.ty.bits fun i => lane f.ty.bits (if io.s.masked f.k f.ty i then io.v f.va else old) i
      .next ((io.s.modBank fun b => { b with tr := b.tr.set tile (b.tr[tile].set row new) }).retire n)
def State.trRead (s : State) (n : Nat) (f : VF) (x : XA) : Out :=
  let c := (s.rs x.sc).toNat
  if f.ty.elems ≤ c then .next (s.takeTrap causeParam c)
  else match s.vecIn [] (some f.vd) false [] with
    | .error e => s.stop e
    | .ok io =>
      let tile := io.s.bank.tr[fin 2 x.sub.toNat]
      .next ((io.write f.vd (io.merge f.k .f32 f.vd fun r => widen f.ty (lane f.ty.bits tile[fin 128 r] c))).retire n)
def State.vMov (s : State) (n : Nat) (f : VF) : Out := s.vecOp n f [f.va] false fun io i => lane f.ty.bits (io.v f.va) i
def State.vIota (s : State) (n : Nat) (f : VF) (x : XA) : Out :=
  s.vecOp n f (rsrSrc x) false fun io i =>
    let v := (io.s.rs x.sc).toInt + i
    if Num.isFp f.ty then Num.round (io.rc x f.ty.elems i) f.ty (Num.ofInt v) else Num.wrapOrClamp x.sat f.ty.bits v

/-- STRMAP (R227): the number names a ring of the context in which this core has the part. When both operands offend, the info is the
value of a (DESIGN CHOICE, log 29: the rule says only that it is the offending value). -/
def execStrmap (a b : Fin 64) (s : State) : Out :=
  let x := (s.rs a).toNat
  let y := (s.rs b).toNat
  let bad := fun (n : Nat) (part : RingInfo → Nat) =>
    decide (256 ≤ n) || (n != 0 && (ringInfo s n).all fun i => part i != s.cur.val)
  if bad x (·.cons) then .next (s.takeTrap causeRing x)
  else if bad y (·.prod) then .next (s.takeTrap causeRing y)
  else .next ((s.modStrand fun t => { t with pop := BitVec.ofNat 8 x, push := BitVec.ofNat 8 y }).retire 1)

/-! ## The meanings -/
def execVadd (f : VF) (s : State) : Out := s.vArith 1 f XA.zero addF
def execVaddL (f : VF) (x : XA) (s : State) : Out := s.vArith 2 f x addF
def execVsub (f : VF) (s : State) : Out := s.vArith 1 f XA.zero subF
def execVsubL (f : VF) (x : XA) (s : State) : Out := s.vArith 2 f x subF
def execVmul (f : VF) (s : State) : Out := s.vArith 1 f XA.zero mulF
def execVmulL (f : VF) (x : XA) (s : State) : Out := s.vArith 2 f x mulF
def execVfma (f : VF) (s : State) : Out := s.vFused 1 f XA.zero fmaF
def execVfmaL (f : VF) (x : XA) (s : State) : Out := s.vFused 2 f x fmaF
def execVfnma (f : VF) (s : State) : Out := s.vFused 1 f XA.zero fnmaF
def execVfnmaL (f : VF) (x : XA) (s : State) : Out := s.vFused 2 f x fnmaF
def execVmin (f : VF) (s : State) : Out := s.vMinMax 1 f XA.zero false
def execVminL (f : VF) (x : XA) (s : State) : Out := s.vMinMax 2 f x false
def execVmax (f : VF) (s : State) : Out := s.vMinMax 1 f XA.zero true
def execVmaxL (f : VF) (x : XA) (s : State) : Out := s.vMinMax 2 f x true
def execVabs (f : VF) (s : State) : Out := s.vAbsNeg 1 f XA.zero false
def execVabsL (f : VF) (x : XA) (s : State) : Out := s.vAbsNeg 2 f x false
def execVneg (f : VF) (s : State) : Out := s.vAbsNeg 1 f XA.zero true
def execVnegL (f : VF) (x : XA) (s : State) : Out := s.vAbsNeg 2 f x true
def execVlogic (f : VF) (s : State) : Out := s.vLogic 1 f XA.zero
def execVlogicL (f : VF) (x : XA) (s : State) : Out := s.vLogic 2 f x
def execVshift (f : VF) (s : State) : Out := s.vShift 1 f XA.zero
def execVshiftL (f : VF) (x : XA) (s : State) : Out := s.vShift 2 f x
def execVcmp (f : VF) (s : State) : Out := s.vCmp 1 f XA.zero
def execVcmpL (f : VF) (x : XA) (s : State) : Out := s.vCmp 2 f x
def execVsel (f : VF) (s : State) : Out := s.vSel 1 f
def execVselL (f : VF) (_x : XA) (s : State) : Out := s.vSel 2 f
def execVmulw (f : VF) (x : XA) (s : State) : Out := s.vWiden 2 f x (fun _ a b => Num.mul a b)
def execVaddw (f : VF) (x : XA) (s : State) : Out := s.vWiden 2 f x Num.add
def execVdiv (f : VF) (s : State) : Out := s.vArith 1 f XA.zero divF
def execVdivL (f : VF) (x : XA) (s : State) : Out := s.vArith 2 f x divF
def execVsqrt (f : VF) (s : State) : Out := s.vSqrt 1 f XA.zero
def execVsqrtL (f : VF) (x : XA) (s : State) : Out := s.vSqrt 2 f x
def execVapprox (f : VF) (s : State) : Out := s.vApprox 1 f XA.zero
def execVapproxL (f : VF) (x : XA) (s : State) : Out := s.vApprox 2 f x
def execVred (f : VF) (s : State) : Out := s.vRed 1 f XA.zero
def execVredL (f : VF) (x : XA) (s : State) : Out := s.vRed 2 f x
def execVbcast (f : VF) (s : State) : Out := s.vBcast 1 f XA.zero
def execVbcastL (f : VF) (x : XA) (s : State) : Out := s.vBcast 2 f x
def execVbcastImm (f : VF) (imm : BitVec 32) (s : State) : Out := s.vBcastImm 3 f imm
def execVext (f : VF) (x : XA) (s : State) : Out := s.vExt 2 f x
def execVins (f : VF) (x : XA) (s : State) : Out := s.vIns 2 f x
def execVperm (f : VF) (s : State) : Out := s.vPerm 1 f
def execVpermL (f : VF) (_x : XA) (s : State) : Out := s.vPerm 2 f
def execVslide (f : VF) (x : XA) (s : State) : Out := s.vSlide 2 f x
def execVpack (f : VF) (x : XA) (s : State) : Out := s.vPack 2 f x
def execVunpk (f : VF) (x : XA) (s : State) : Out := s.vUnpk 2 f x
def execVcvt (f : VF) (s : State) : Out := s.vCvt 1 f XA.zero
def execVcvtL (f : VF) (x : XA) (s : State) : Out := s.vCvt 2 f x
def execVqnt (f : VF) (x : XA) (s : State) : Out := s.vQnt 2 f x
def execVplane (f : VF) (s : State) : Out := s.vPlane 1 f XA.zero
def execVplaneL (f : VF) (x : XA) (s : State) : Out := s.vPlane 2 f x
def execTrw (f : VF) (x : XA) (s : State) : Out := s.trWrite 2 f x
def execTrc (f : VF) (x : XA) (s : State) : Out := s.trRead 2 f x
def execVmov (f : VF) (s : State) : Out := s.vMov 1 f
def execVmovL (f : VF) (_x : XA) (s : State) : Out := s.vMov 2 f
def execViota (f : VF) (s : State) : Out := s.vIota 1 f XA.zero
def execViotaL (f : VF) (x : XA) (s : State) : Out := s.vIota 2 f x
def execVclamp (f : VF) (x : XA) (s : State) : Out := s.vClamp 2 f x

end Sys2Proof.Machine
end

