-- ==== Sys2Proof/Machine/Pool.lean ====
section
/-! DEFINITION. Chaconne (R381 to R385) and the ready pool (R373 to R376): CHACONNE_EVALUATE and TASK_PLACEMENT. -/
namespace Sys2Proof.Machine

/-! ## Probes and anchors (R382) -/
def f32Nan : Nat := Num.canonNan .f32
/-- A type of a probe. -/
def probeTy (t : Ty) : Bool := t == .f32 || t == .f16 || t == .bf16 || t == .e4m3 || t == .e5m2 || t == .i8 || t == .i16
/-- The elements of a range of addresses, at the keys of memory; none when one is unmapped or poisoned. -/
def devElems (s : State) (addrs : List Nat) (n : Nat) : Option (List Nat) :=
  addrs.foldr (fun a rest => match deviceKey s a, rest with
    | some k, some l => if s.pois k || s.pois (k + n - 1) then none else some (s.rdN k n :: l)
    | _, _ => none) (some [])
/-- The regions of a probe tile, when each is a valid entry and they cover it. -/
def probeRegions (s : State) (d : Node) (j : Nat) : List Region × Bool :=
  match opRanges s d 0 0 j with
  | none => ([], false)
  | some rs =>
    let l := (allRegions s).filter fun r => rs.any r.meetsRange
    (l, rs.all (coveredBy l) && l.all fun r => decide (r.kind ≤ 1))
/-- The probe's elements as F32 in row-major order; none when ProbeComplete fails on the probe. -/
def probeValues (s : State) (d : Node) (c : Clause) : Option (List Nat) :=
  match opTensor s d c.probe with
  | none => none
  | some t =>
    let r0 := d.row c.probe * 2 ^ d.tr
    let c0 := d.col c.probe * 2 ^ d.tc
    if !probeTy t.elem || decide (t.rows < r0 + 2 ^ d.tr) || decide (t.cols < c0 + 2 ^ d.tc) || !(probeRegions s d c.probe).2 then none
    else
      let w := t.elem.bits / 8
      let addrs := (List.range (2 ^ (d.tr + d.tc))).map fun i => t.base + (r0 + i / 2 ^ d.tc) * t.rstr + (c0 + i % 2 ^ d.tc) * w
      (devElems s addrs w).map fun l => l.map (Num.convert Num.rne .f32 t.elem)
/-- The rank of a node among the nodes that name its clause, and among all nodes with a clause (R381). -/
def ranksOf (g : Graph) (n : Nat) (clause : Nat) : Nat × Nat :=
  let before := (g.nodes.take n).filterMap id
  ((before.filter fun d => Node.reuse d == clause).length, (before.filter fun d => Node.reuse d != 0).length)
def anchorAddr (c : Clause) (rank : Nat) : Nat := c.abase + rank * c.astr
/-- Whether a 32-byte block of an anchor slot of ASTR bytes is poisoned. -/
def anchorPoisoned (s : State) (c : Clause) (rank : Nat) : Bool :=
  (List.range (c.astr / 32)).any fun i => match deviceKey s (anchorAddr c rank + 32 * i) with
    | some k => s.pois k
    | none => false
/-- The first n elements of an anchor slot; none when ProbeComplete fails on the slot. -/
def anchorValues (s : State) (c : Clause) (rank n : Nat) : Option (List Nat) :=
  if anchorPoisoned s c rank then none else devElems s ((List.range n).map fun i => anchorAddr c rank + 4 * i) 4
/-- The lists of 128 that a list is cut into. -/
def chunksGo : Nat → List Nat → List (List Nat)
  | 0, _ => []
  | n + 1, l => match l with
    | [] => []
    | _ => l.take 128 :: chunksGo n (l.drop 128)
/-- Metric. -/
def metric (mad : Bool) (p a : List Nat) : Nat :=
  let d := (p.zip a).map fun x => Num.arith Num.rne .f32 subF x.1 x.2 0 % 2 ^ 31
  if d.any fun v => Num.isNan (Num.read .f32 v) then f32Nan
  else if !mad then d.foldl Nat.max 0
  else
    let total := (chunksGo (d.length + 1) d).foldl (fun t ch =>
      let lanes := (List.range 128).map fun j => ch[j]?
      Num.arith Num.rne .f32 addF t (reduce Num.rne .f32 0 lanes) 0) 0
    Num.arith Num.rne .f32 divF total (Num.round Num.rne .f32 (Num.ofInt d.length)) 0
/-- What Evaluate answers, with the threshold of its record. -/
structure Eval where
  skip : Bool
  verdict : Verdict
  thr  : Nat
  deriving DecidableEq, Repr
def evalResult (e : ChEntry) (skip : Bool) (reason m thr : Nat) : Eval :=
  ⟨skip, ⟨BitVec.ofNat 4 reason, e.valid, e.astep, BitVec.ofNat 32 m⟩, thr⟩
/-- Evaluate but for its reads: the answer of the steps before ProbeComplete. -/
def evalEarly (d : Node) (c : Clause) (row : Row) (e : ChEntry) (k : Nat) : Option Eval :=
  let stop := fun (reason : Nat) => some (evalResult e false reason f32Nan f32Nan)
  if !c.en then stop 1
  else if !e.valid || e.key != d.key then stop 2
  else if c.maxAge < k - e.astep.toNat then stop 3
  else if row.force || (c.fper != 0 && k % c.fper == 0) then stop 4
  else none
/-- The rest of Evaluate. A metric that reads an anchor area which a task wrote is undefined (R381). -/
def evalLate (s : State) (g : Graph) (d : Node) (c : Clause) (row : Row) (e : ChEntry) (n : Nat) : Eval :=
  match probeValues s d c, anchorValues s c (ranksOf g n d.reuse).1 (2 ^ (d.tr + d.tc)) with
  | some p, some a =>
    let m := if e.taint then (s.free 32 5).toNat else metric c.mad p a
    let thr := Num.arith Num.rne .f32 mulF c.base (row.ls c.lsreg) 0
    let less := Num.compare .f32 2 m thr
    evalResult e less (if less then 0 else 6) m thr
  | _, _ => evalResult e false 5 f32Nan f32Nan
/-- The record of an evaluation (R383). -/
def State.evalRecord (s : State) (id : BitVec 12) (i : Inst) (mts : Nat) (x : Eval) : State :=
  let v := x.verdict
  s.record id (some (partOfCtx id)) none 2 (BitVec.ofNat 64 mts)
    (toLe 8 (taskId (s.ctxOf id) i).toNat ++ toLe 1 v.reason.toNat ++ toLe 3 0 ++ toLe 4 v.m.toNat ++ toLe 4 x.thr ++ toLe 4 v.astep.toNat)
/-- The priority of an instance: the entry's base priority plus PRIO, clamped (R373). -/
def State.prioOf (s : State) (id : BitVec 12) (d : Node) : BitVec 8 :=
  let base : Int := ((s.entryFor id).map slicePrio).getD 0
  BitVec.ofNat 8 (max 0 (min 255 (base + d.prio))).toNat
/-- An instance that is not skipped enters the pool. -/
def State.intoPool (s : State) (id : BitVec 12) (d : Node) (i : Inst) : State :=
  let s := s.modLaunch id fun l =>
    { l with elig := l.elig.filter fun y => !y.same i, live := i :: l.live.filter fun y => !y.same i }
  s.modPart (partOfCtx id) fun x => { x with pool := x.pool ++ [⟨id, s.prioOf id d, i⟩] }
/-- An instance becomes ready: it waits for an entry of the pool (R373). -/
def State.becomesReady (s : State) (id : BitVec 12) (i : Inst) : State :=
  s.modLaunch id fun l =>
    { l with elig := { i with ready := true } :: l.elig.filter fun y => !y.same i, live := l.live.filter fun y => !y.same i }
def State.poolFull (s : State) (p : Fin 16) : Bool := decide (4096 ≤ (s.part p).pool.length)
/-- An instance that comes before another among equal entry cycles (R373). -/
def Inst.before (a b : Inst) : Bool :=
  decide ((a.step.toNat * 2 ^ 12 + a.node.toNat) * 2 ^ 64 + a.inst < (b.step.toNat * 2 ^ 12 + b.node.toNat) * 2 ^ 64 + b.inst)
def insertInst (i : Inst) : List Inst → List Inst
  | [] => [i]
  | j :: t => if i.before j then i :: j :: t else j :: insertInst i t
/-- An instance of a context in the order in which those that wait enter the pool of their partition (R373). -/
def insertWait (x : BitVec 12 × Inst) : List (BitVec 12 × Inst) → List (BitVec 12 × Inst)
  | [] => [x]
  | y :: t => if x.2.before y.2 then x :: y :: t else y :: insertWait x t
/-- The eligible instances of the contexts of a partition, in that order. -/
def State.waitingInsts (s : State) (p : Fin 16) : List (BitVec 12 × Inst) :=
  ((s.ctxs.filter fun c => partOfCtx c.id == p).flatMap fun c => ((c.launch.map (·.elig)).getD []).map fun i => (c.id, i)).foldr insertWait []
/-- Those that wait for no verdict enter the pool, in their order, while it has room (R373, R382). -/
def State.enterPool (s : State) (p : Fin 16) : State :=
  (s.waitingInsts p).foldl (fun s x =>
    match ((s.ctxOf x.1).launch).bind fun l => graphNode (s.lens x.1) l.header x.2.node.toNat with
    | some d => if (d.reuse = 0 ∨ x.2.ready = true) ∧ (s.entryFor x.1).isSome ∧ s.poolFull p = false then s.intoPool x.1 d x.2 else s
    | none => s) s
/-- CHACONNE_EVALUATE of an eligible instance, once, whether or not the pool has room. It waits for the owner of a probe region
whose running or preloaded task writes it; a region entry that it cannot read fails the node (R382, R540). -/
def State.evaluate (s : State) (id : BitVec 12) (l : Launch) (i : Inst) : State :=
  let v := s.lens id
  let g := graphOf v l.header
  let k := i.step.toNat
  match graphNode v l.header i.node.toNat, (s.ctxOf id).row k with
  | some d, some row =>
    if d.reuse = 0 ∨ i.ready = true then s.enterPool (partOfCtx id)
    else match clauseOf v l.header d.reuse with
      | none => (s.becomesReady id i).enterPool (partOfCtx id)
      | some c =>
        let rank := (ranksOf g i.node.toNat d.reuse).2
        let e := (s.ctxOf id).chac.getD rank ⟨0, false, 0, 0, false, []⟩
        let finish := fun (s : State) (x : Eval) =>
          let s := if c.log then s.evalRecord id i (mtsOf l.rec_ (some row)) x else s
          let j := { i with verdict := x.verdict }
          if x.skip then s.instDone id j [] else (s.becomesReady id j).enterPool (partOfCtx id)
        match evalEarly d c row e k with
        | some x => finish s x
        | none =>
          let regions := (probeRegions v d c.probe).1
          let owned := regions.filter fun r => r.kind == 0
          if (opRanges v d 0 0 c.probe).any (unreadRegion v) || owned.any fun r => !canTurn v r then s.nodeFails id i none 0
          else if owned.any fun r => s.ownerWrites id r || s.ownerBusy id r then s
          else
            let s := owned.foldl (fun (s : State) r => s.shareRegion id r) s
            finish s (evalLate (s.lens id) g d c row e i.node.toNat)
  | _, _ => s
def execChaconneEvaluate (p : Fin 16) (j : BitVec 8) (n : BitVec 12) (k : BitVec 10) (i : BitVec 12) (s : State) : Out :=
  let id := ctxId p j
  match (s.ctxOf id).launch with
  | none => .next s
  | some l =>
    match l.elig.find? fun x => x.node == n && x.step == k && x.inst % 2 ^ 12 == i.toNat with
    | some x => if (s.entryFor id).isNone then .next s else .next (s.evaluate id l x)
    | none => .next s

/-! ## Bringing operand regions to their state (R375) -/
/-- What the pool finds: the regions are ready, the task waits, or its node fails. -/
inductive Brought where | ready (s : State) | wait | fail
/-- An active reader of a region. -/
def State.activeReader (s : State) (id : BitVec 12) (r : Region) : Bool :=
  let v := s.lens id
  let probes := match (s.ctxOf id).launch with
    | none => false
    | some l => l.elig.any fun i =>
        match graphNode v l.header i.node.toNat with
        | some d => d.reuse != 0 && !i.ready && (match clauseOf v l.header d.reuse with
          | some c => ((opRanges v d 0 0 c.probe).getD []).any r.meetsRange
          | none => false)
        | none => false
  probes || (s.tasksOf id).any fun x => x.2.names v (· == 1) r
/-- One region of one operand. A change waits until the owner's stores to it are performed and its engine commands there have
completed (R172, R191); an entry that cannot be written fails the node (R540). -/
def State.bringOne (s : State) (id : BitVec 12) (mode : Nat) (core : Fin 256) (r : Region) : Brought :=
  let turn := fun (next : State) =>
    if !canTurn (s.lens id) r then Brought.fail
    else if r.kind = 0 ∧ s.ownerBusy id r then .wait
    else .ready next
  if r.kind = 2 ∨ r.kind = 3 then .fail
  else if mode = 1 then
    if r.kind = 1 then .ready s
    else if s.ownerWrites id r then .wait
    else turn (s.shareRegion id r)
  else if r.kind = 0 then
    if r.core = core.val then .ready s
    else if (s.tasksOf id).any fun x => x.1.val == r.core && x.2.names (s.lens id) (fun m => m != 0) r then .wait
    else turn (s.passRegion id r core)
  else if s.activeReader id r then .wait
  else turn (s.takeRegion id r core)
/-- The regions of every operand, read anew as each is brought. -/
def State.bringGo (id : BitVec 12) (core : Fin 256) : List (Nat × Nat × Nat) → State → Brought
  | [], s => .ready s
  | (mode, base, idx) :: rest, s =>
    let v := s.lens id
    match regionEntry v v.ctx .own base idx with
    | .error _ => .fail
    | .ok r =>
      match s.bringOne id mode core r with
      | .ready s => State.bringGo id core rest s
      | x => x
def State.bring (s : State) (id : BitVec 12) (d : Node) (i : Inst) (core : Fin 256) : Brought :=
  let v := s.lens id
  let all := allRegions v
  let ops := d.ops.map fun j => (d.mode j, opRanges v d i.rowOff i.colOff j)
  let ok := ops.all fun x => match x.2 with
    | none => false
    | some rs => rs.all (coveredBy all)
  if !ok then .fail
  else
    let work := ops.flatMap fun x =>
      (all.filter fun r => (x.2.getD []).any r.meetsRange).map fun r => (x.1, r.base, r.idx)
    s.bringGo id core work

/-! ## Starting (R107, R246, R306, R376, R411) -/
/-- The matrix engine at task start (R246). The banks, mchk and the count of drains are the core's (R238, R263, R278). -/
def Matrix.fresh (m : Matrix) : Matrix :=
  { Matrix.clear with tags := m.tags, lru := m.lru, checkN := m.checkN, checkC := m.checkC, checkNow := m.checkNow }
/-- The active task, whose strands have all ended, makes room for the next one: it stays until its engine commands have completed and
it commits (R376, R390). -/
def Bank.toTail (b : Bank) : Bank :=
  let late := match b.task with
    | some t => if b.mat.quiet then [] else [⟨t.id, b.strands, b.mat⟩]
    | none => []
  { b with task := none, tail := b.tail ++ b.task.toList, nests := b.nests ++ late, mat := b.mat.fresh }
/-- The bank of a core as a task starts on it. -/
def Bank.startTask (b : Bank) (t : Task) : Bank :=
  let start := fun (i : Nat) (x : Strand) =>
    let e := Node.entry t.desc i
    if Node.named t.desc i then x.start (t.code + BitVec.ofNat 64 (4 * (e % 2 ^ 28))) (roleOf (e / 2 ^ 28 % 4)) true else x.fresh
  { b.toTail with
    task := some t
    strands := b.strands.mapFinIdx fun i x _ => start i x
    bq := []
    queues := b.queues.map fun q => { q with done := 0, lastCause := 0, faults := 0 }
    seed := 0
    evpend := 0
    trap := { b.trap with handler := false, held := none, entry := none } }
/-- The gear that a hint asks for. -/
def hintGear (h : BitVec 2) : Option Gear := if h = 1 then some .n else if h = 2 then some .f else none

/-! ## Placement (R374, R376) -/
/-- The task that an entry of the pool becomes. -/
def taskOf (c : Ctx) (l : Launch) (e : PoolEnt) (d : Node) : Task :=
  let i := e.inst
  { node := i.node, step := i.step, inst := i.inst, id := taskId c i
    mts := BitVec.ofNat 64 (mtsOf l.rec_ (c.row i.step.toNat)), prio := e.prio, retry := i.retry, hint := BitVec.ofNat 2 d.gear
    gapply := d.gapply, nr := d.nr, escaped := false
    roles := BitVec.ofNat 8 ((List.range 4).foldl (fun n j => n + 2 ^ j * bit (d.named j)) 0)
    budget := BitVec.ofNat 32 (Nat.min (2 ^ 32 - 1) (64 * d.budget)), usedCyc := 0, code := BitVec.ofNat 64 (Header.code l.header)
    desc := d, rowOff := i.rowOff, colOff := i.colOff, spawn := [], started := 0, marks := [], drop := false, hostQ := []
    version := [], spill := [], verPois := [], overs := [], descs := [], verdict := i.verdict, ending := none }
/-- The bytes of some ranges that lie in a core's own vault. -/
def vaultBytesOf (c : Fin 256) (rs : List (Nat × Nat)) : Nat :=
  let lo := 15 * 2 ^ 52 + c.val * 2 ^ 24
  rs.foldl (fun n x => n + (Nat.min (lo + 2 ^ 24) (x.1 + x.2) - Nat.max lo x.1)) 0
/-- The context that a partition serves: that of its current entry. -/
def State.serving (s : State) (p : Fin 16) : BitVec 12 := sliceCtx (s.slice p (s.part p).slice)
/-- A core that may take a task of a context (R374, R388, R470): it serves the context and its shadow bank is free, or its
shadow bank holds the state of the context that comes next, with no task (R464). -/
def Core.candidate (c : Core) (id : BitVec 12) : Bool :=
  c.part == some (partOfCtx id) && c.leaving.isNone && !c.retired && !c.stall &&
    (match c.shadow with
      | .free => !c.swapDue && c.bank.loaded && c.bank.ctx == id
      | .filled b first => b.ctx == id && b.task.isNone && first.isNone
      | _ => false)
/-- A task that TYIELD suspended on a core, with the state that holds it (R397). -/
def Ctx.suspended (x : Ctx) (c : Fin 256) : Option Bank :=
  ((x.saved.find? fun e => e.1 == c).map (·.2)).filter fun b => b.task.isSome
/-- Whether a suspended task comes before a task of some priority. -/
def State.yieldedFirst (s : State) (id : BitVec 12) (c : Fin 256) (prio : BitVec 8) : Bool :=
  match ((s.ctxOf id).suspended c).bind (·.task) with
  | some t => decide (prio ≤ t.prio)
  | none => false
/-- The key of R374: a lower one is ranked first. -/
def State.placeKey (s : State) (v : State) (d : Node) (i : Inst) (c : Fin 256) : Nat :=
  let k := s.cores[c]
  let first :=
    if d.afv then bit (c.val != d.aff)
    else
      let rs := (d.ops.filter fun j => d.mode j != 2).flatMap fun j => (opRanges v d i.rowOff i.colOff j).getD []
      2 ^ 60 - (if k.vaultPart = k.part then vaultBytesOf c rs else 0)
  let gear := bit (d.gear != 0 && d.gear != (if k.gear = .f then 2 else 1))
  ((first * 2 + gear) * 8 + k.level.toNat) * 256 + c.val
/-- The core for an entry of the pool. -/
def State.chooseCore (s : State) (id : BitVec 12) (d : Node) (e : PoolEnt) (may : Fin 256 → Bool) : Option (Fin 256) :=
  let v := s.lens id
  let cores := ((List.range 256).map (fin 256 ·)).filter fun c => may c && s.cores[c].candidate id && !s.yieldedFirst id c e.prio
  cores.foldl (fun best c => match best with
    | none => some c
    | some b => if s.placeKey v d e.inst c < s.placeKey v d e.inst b then some c else some b) none
/-- The head of the pool for a context: the first of its highest priority. -/
def poolHead (pool : List PoolEnt) (id : BitVec 12) : Option PoolEnt :=
  (pool.filter fun e => e.ctx == id).foldl (fun best e => match best with
    | none => some e
    | some b => if b.prio < e.prio then some e else some b) none
def State.leavePool (s : State) (e : PoolEnt) : State :=
  s.modPart (partOfCtx e.ctx) fun x => { x with pool := x.pool.filter fun y => !(y.ctx == e.ctx && y.inst.same e.inst) }
/-- An entry whose core is chosen: its regions, then its task for the shadow bank (R375, R376). -/
def State.prepare (s : State) (e : PoolEnt) (l : Launch) (d : Node) (c : Fin 256) : State × Option Task :=
  match s.bring e.ctx d e.inst c with
  | .wait => (s, none)
  | .fail => ((s.leavePool e).nodeFails e.ctx e.inst none 0, none)
  | .ready s => (s.leavePool e, some (taskOf (s.ctxOf e.ctx) l e d))
/-- A task that is placed on a core: it is preloaded, or it waits in the filled bank as the first task of its context. -/
def Core.take (c : Core) (t : Task) : Core :=
  { c with shadow := match c.shadow with
      | .filled b _ => .filled b (some t)
      | _ => .task t }
/-- The state that a filled bank brings in: its first task starts with it, in the gear that GAPPLY asks for (R376, R464). -/
def Bank.withFirst (b : Bank) : Option Task → Bank
  | none => b
  | some t => { b.startTask t with gear := (if t.gapply then hintGear t.hint else none).getD b.gear }
/-- The task that the pool offers for a context is placed. -/
def State.placeFor (s : State) (p : Fin 16) (id : BitVec 12) : State :=
  match poolHead (s.part p).pool id, (s.ctxOf id).launch with
  | some e, some l =>
    match graphNode (s.lens id) l.header e.inst.node.toNat with
    | none => (s.leavePool e).nodeFails id e.inst none 0
    | some d =>
      match s.chooseCore id d e (fun _ => true) with
      | none => s
      | some c =>
        match s.prepare e l d c with
        | (s, none) => s
        | (s, some t) => s.on c fun s => s.modCore fun k => k.take t
  | _, _ => s
/-- The contexts whose state is filled on a core of the partition and waits for a first task (R464). -/
def State.incoming (s : State) (p : Fin 16) : List (BitVec 12) :=
  ((List.range 256).filterMap fun i =>
    let c := s.cores[fin 256 i]
    match c.shadow with
    | .filled b first => if c.part = some p ∧ b.task.isNone ∧ first.isNone then some b.ctx else none
    | _ => none).eraseDups
def State.place (s : State) (p : Fin 16) : State :=
  let serving := if sliceOn (s.slice p (s.part p).slice) then [s.serving p] else []
  (serving ++ (s.incoming p).filter fun id => !serving.any (· == id)).foldl (fun s id => s.placeFor p id) (s.enterPool p)
def execTaskPlacement (p : Fin 16) (s : State) : Out := if (s.part p).stopped then .next s else .next (s.place p)

/-! ## The pool and a core (R376, R379) -/
/-- The instance of a task, with its place in the launch. -/
def State.instOf (s : State) (id : BitVec 12) (t : Task) : Inst :=
  let i : Inst := ⟨t.node, t.step, t.inst, t.rowOff, t.colOff, none, t.retry, t.verdict, true⟩
  (((s.ctxOf id).launch.bind fun l => l.live.find? i.same).map fun x => { i with parent := x.parent }).getD i
/-- A task goes back to the pool, or waits as ready where the pool is full (R26, R373); the region changes made for it
stay. -/
def State.returnTask (s : State) (id : BitVec 12) (t : Task) (retry : Nat) : State :=
  let i := { s.instOf id t with retry := retry }
  if ((s.ctxOf id).launch.bind (·.failed)).isSome then
    (s.modLaunch id fun l => { l with live := l.live.filter fun y => !y.same i }).progress id
  else if s.poolFull (partOfCtx id) then s.becomesReady id i
  else s.intoPool id t.desc i

end Sys2Proof.Machine
end

