-- ==== Sys2Proof/Machine/Commit.lean ====
section
/-! DEFINITION. How a task starts, commits and is discarded (R197, R198, R376 to R379, R384 to R387), and what a context
swap does to the state of a core (R261, R309, R464); SHADOW_BANK_SWAP, TASK_COMMIT, DISCARD and TYIELD. -/
namespace Sys2Proof.Machine

/-! ## Starting (R107, R246, R306, R376, R411) -/
/-- At the start or end of a task, the tags of tiles go that overlap a region which is not SHARED-RO (R239). -/
def State.dropTags (s : State) : State :=
  let open_ := (allRegions s).filter fun r => r.kind != 1
  s.clearTags fun t => t.ctx == s.bank.ctx && open_.any fun r => t.tile.meets r.base (r.stop - 1)
/-- Every strand of the task has ended (R390, R457). -/
def Bank.allEnded (b : Bank) : Bool :=
  match b.task with
  | none => false
  | some t => (List.range 4).all fun i =>
      let x := b.strands.toList.getD i Strand.clear
      !x.run && !x.stopped && (!(x.named || t.started.getLsbD i) || x.ended)
/-- The task has only its engine commands, its signals and its stores to complete, which go on while the next one runs (R376, R390). -/
def Bank.spent (b : Bank) : Bool :=
  b.allEnded && !b.trap.handler && b.trap.held.isNone && b.trap.entry.isNone && (b.task.bind (·.ending)).isNone
/-- Whether the core can take its next task: it is idle, or its task is spent. -/
def State.canStart (s : State) : Bool := (s.bank.task.isNone || s.bank.spent) && !s.clockStopped && !s.core.retired
/-- A suspended task resumes with its own state, and with the semaphores, the barriers and the activity registers as they stand (R344,
R397, R490). Its commands
that had not started go before those of the queue that have not (R309). -/
def Bank.resumeIn (now x : Bank) : Bank :=
  let strand := fun (i : Nat) (t : Strand) =>
    let a := (now.strands.toList.getD i Strand.clear).arr
    if a.valid && a.home == t.arr.home && a.bar == t.arr.bar then { t with arr := { a with sync := t.arr.sync } } else t
  let queue := fun (i : Nat) (q : Queue) =>
    let l := (now.queues.toList.getD i Queue.empty).cmds
    { q with cmds := l.filter (·.started) ++ q.cmds ++ l.filter fun c => !c.started }
  { x with
    tail := now.tail, sems := now.sems, semov := now.semov, bars := now.bars, barerr := now.barerr, due := now.due, sigs := now.sigs
    nests := now.nests, acc := now.acc, pos := now.pos, blocked := now.blocked, late := now.late
    bgear := now.bgear, netctl := now.netctl, waiters := now.waiters, queues := x.queues.mapFinIdx fun i q _ => queue i q
    strands := x.strands.mapFinIdx fun i t _ => strand i t }
/-- SHADOW_BANK_SWAP: the preloaded task becomes active on a core that is idle or whose task is spent, after the gear that
GAPPLY asks for; without one, a task that TYIELD suspended here resumes on an idle core, in its own gear (R397, R484). -/
def State.bankSwap (s : State) : State :=
  if !s.canStart then s
  else match s.core.shadow with
    | .task t =>
      match (if t.gapply then hintGear t.hint else none).filter fun g => g != s.core.gear with
      | some g => if s.arriving then s else s.beginTrans g .gapply s.midCycle
      | none =>
        let s := s.writeBack fun _ => true
        ((s.modCore fun c => { c with shadow := .free }).modBank fun b => b.startTask t).dropTags
    | .free =>
      match s.bank.loaded && s.bank.task.isNone, s.ctx.suspended s.cur with
      | true, some x =>
        let s := s.modCtx fun c => { c with saved := c.saved.erase (s.cur, x) }
        let s := s.modBank fun b => b.resumeIn x
        if x.gear = s.core.gear then s else s.beginTrans x.gear .swap s.midCycle
      | _, _ => s
    | _ => s
def execShadowBankSwap (c : Fin 256) (s : State) : Out := .next (s.on c fun s => s.bankSwap)

/-! ## Commit (R197, R378, R384, R386, R387) -/
/-- Every engine command, signal and message of a task has completed. -/
def State.quietFor (s : State) (task : W64) : Bool :=
  let b := s.bank
  (b.queues.toList.all fun q => !(q.cmds.any fun c => c.task == task)) && !(b.sigs.any fun x => x.task == task)
    && !(b.nests.any fun x => x.task == task) && (task != b.taskId || b.mat.quiet)
    && !(s.dev.fab.net.any fun m => m.src == s.cur && m.strand.isSome && m.ctx == b.ctx && m.task == task && m.st != .performed)
/-- Whether the core still owns a region that a task writes, which its commit makes SHARED-RO (R378). -/
def State.outputOf (s : State) (t : Task) (r : Region) : Bool := r.kind == 0 && r.core == s.cur.val && t.names s writesMode r
/-- Whether a task may commit: every engine command and message of it has completed, and no store to a region that becomes SHARED-RO
is still to be performed (R191). -/
def State.settled (s : State) (t : Task) : Bool :=
  s.quietFor t.id && !((allRegions s).any fun r => s.outputOf t r && s.storesMeet s.bank.ctx r)
/-- Whether the active task may commit: it is spent and settled. -/
def State.mayCommit (s : State) : Bool := s.bank.spent && s.bank.task.all s.settled
/-- The commit queue is released in program order (R176, R177, R378). -/
def State.releaseHost (s : State) : List HostOp → State
  | [] => s
  | .write a d :: t => (s.wrs (hostKey a.toNat) d).releaseHost t
  | .publ w :: t =>
    (match s.core.part with
      | some p => s.publish p w
      | none => s).releaseHost t
/-- The last TMARK of each slot (R387). -/
def State.writeMarks (s : State) (t : Task) : State :=
  t.marks.foldl (fun s m =>
    match deviceKey s (s.ctx.markBase + 16 * m.1.toNat) with
    | some k => s.wrClean k (toLe 4 m.2.toNat ++ toLe 2 t.node.toNat ++ toLe 2 t.step.toNat ++ toLe 8 t.mts.toNat)
    | none => s) s
/-- The keys of an anchor slot. -/
def anchorSpans (s : State) (c : Clause) (rank : Nat) : List (Nat × Nat) :=
  spansFrom s s.ctx (c.astr / 2 ^ 16 + 2) (anchorAddr c rank) (anchorAddr c rank + c.astr)
/-- The Chaconne update (R384). ProbeComplete also covers the poison of the anchor slot. -/
def State.updateChaconne (s : State) (t : Task) : State :=
  match s.ctx.launch with
  | none => s
  | some l =>
    let d : Node := t.desc
    if d.reuse = 0 then s
    else match clauseOf s l.header d.reuse with
      | none => s
      | some c =>
        let r := ranksOf (graphOf s l.header) t.node.toNat d.reuse
        let set := fun (s : State) (f : ChEntry → ChEntry) => s.modCtx fun x => { x with chac := x.chac.modify r.2 f }
        match (if t.drop || (anchorValues s c r.1 0).isNone then none else probeValues s d c) with
        | none => set s fun e => { e with valid := false }
        | some p =>
          let s := p.zipIdx.foldl (fun s x =>
            match deviceKey s (anchorAddr c r.1 + 4 * x.2) with
            | some k => s.wrClean k (toLe 4 x.1)
            | none => s) s
          set s fun e => { e with valid := true, key := d.key, astep := t.step, taint := false, area := anchorSpans s c r.1 }
/-- Every OUT and INOUT region that the core still owns becomes SHARED-RO, after the write-backs of a transfer (R191). -/
def State.shareOutputs (s : State) (t : Task) : State :=
  ((allRegions s).filter (s.outputOf t)).foldl (fun s r => s.shareRegion s.bank.ctx r) s
/-- The instances of the spawn list (R386). -/
def spawned (l : Launch) (i : Inst) (t : Task) : List Inst :=
  t.spawn.zipIdx.map fun x =>
    ⟨x.1.1, i.step, l.spawned + x.2 + 1, x.1.2.1.toInt, x.1.2.2.toInt, some (i.node, i.inst), 0, Verdict.none, false⟩
/-- The steps of R378 for a task that has left the core's bank. -/
def State.commitAs (s : State) (t : Task) : State :=
  let id := s.bank.ctx
  let i := s.instOf id t
  let s := s.commitCells (t.version, t.verPois)
  let s := s.releaseHost t.hostQ
  let s := (s.writeMarks t).updateChaconne t
  let s := (s.shareOutputs t).dropTags
  match s.ctx.launch with
  | none => s
  | some l => s.instDone id i (spawned l i t)
/-- TASK_COMMIT: a task whose strands have ended before the active one's, else the active task. The end of a task takes the
matrix engine out of FAULT (R259). -/
def State.commitTask (s : State) : State :=
  match s.bank.tail.find? fun t => t.ending.isNone && s.settled t with
  | some t => (s.modBank fun b => { b with tail := b.tail.erase t }).commitAs t
  | none =>
    if !s.mayCommit then s
    else
      let s := s.writeBack fun _ => true
      match s.bank.task with
      | none => s
      | some t => (s.modBank fun b => { b with task := none, mat := { b.mat with eng := .idle } }).commitAs t
def execTaskCommit (c : Fin 256) (s : State) : Out := .next (s.on c fun s => s.everywhere State.commitTask)

/-! ## DISCARD (R379, R448, R370) -/
/-- The bytes of an OUT tile in a vault are undefined (R2, R379). -/
def State.undefOut (s : State) (t : Task) : State :=
  let ranges := ((Node.ops t.desc).filter fun j => Node.mode t.desc j == 2).flatMap fun j => (opRanges s t.desc t.rowOff t.colOff j).getD []
  let vault := ranges.filterMap fun x =>
    if kindOf x.1 = 15 ∧ vaultOk s x.1 then
      let k := vaultKey (x.1 / 2 ^ 24 % 256) (x.1 % 2 ^ 24)
      some (k, k + x.2, s.freeCtr)
    else none
  { s with mem := { s.mem with undef := vault ++ s.mem.undef } }
/-- A task that has left the core's bank is discarded: its version goes with it, and it returns to the pool or its node
fails. The context's lines in the instruction cache go, since some may hold bytes of the version (R155, R198, log 14). -/
def State.discardAs (s : State) (t : Task) (e : Ending) : State :=
  let id := s.bank.ctx
  let s := (s.undefOut t).dropTags.modCore fun c => { c with icache := c.icache.filter fun l => l.ctx != id }
  match e with
  | .rerun => s.returnTask id t (t.retry + 1)
  | .abort c1 c2 forced code =>
    s.nodeFails id (s.instOf id t) (some s.cur) (c1.toNat + 2 ^ 8 * c2.toNat + 2 ^ 16 * bit forced + 2 ^ 32 * code.toNat)
/-- DISCARD: the active task goes with the core's unwritten lines. Its vault stores are performed first, so that a re-run sees
them (R198), and so are its bank loads (R260). -/
def State.discard (s : State) : State :=
  match s.bank.tail.find? fun t => t.ending.isSome && s.quietFor t.id with
  | some t =>
    match t.ending with
    | some e => (s.modBank fun b => { b with tail := b.tail.erase t }).discardAs t e
    | none => s
  | none =>
    match s.bank.task with
    | none => s
    | some t =>
      match t.ending with
      | none => s
      | some e =>
        if !s.quietFor t.id then s
        else ((s.modCore fun c => { c with dirty := [], clean := c.clean.filter fun l => !(linesOf t.version).any (· == l) }).modBank fun b =>
          { b with task := none, mat := { b.mat with eng := .idle } }).discardAs t e
/-- The states behind the newest one of a context that is not loaded are those of tasks that TYIELD suspended, as are all of one that
is (R397). -/
def State.suspendedAt (s : State) (id : BitVec 12) (i : Nat) : Bool :=
  let l := (s.ctxOf id).saved
  let here := (s.bank.loaded && s.bank.ctx == id) || s.core.shadow.bank.any fun b => b.loaded && b.ctx == id
  (l[i]?.any fun e => e.1 == s.cur) && (here || (l.take i).any fun e => e.1 == s.cur)
/-- A suspended task that has ended is discarded, and its saved state goes with it. -/
def State.discardSaved (s : State) (id : BitVec 12) : State :=
  match (List.range (s.ctxOf id).saved.length).find? fun i =>
      s.suspendedAt id i && ((s.ctxOf id).saved[i]?.bind fun e => e.2.task.bind (·.ending)).isSome with
  | none => s
  | some i =>
    match (s.ctxOf id).saved[i]? with
    | none => s
    | some e =>
      let s := s.modCtxOf id fun y => { y with saved := y.saved.eraseIdx i }
      let r := s.inBank e.2 State.discard
      if r.2.task.isNone then r.1 else r.1.modCtxOf id fun y => { y with saved := y.saved.insertIdx i (e.1, r.2) }
def execDiscard (c : Fin 256) (s : State) : Out :=
  .next (s.on c fun s => (s.ctxs.map (·.id)).foldl State.discardSaved (s.everywhere State.discard))

/-! ## The state of a core that leaves it (R261, R309, R464) -/
/-- The elements of the started commands of a queue that are still to be issued. -/
def Queue.work (q : Queue) : Nat := q.cmds.foldl (fun n c => if c.started then n + (c.total - c.done) + 1 else n) 0
def runQueue (q : Fin 4) : Nat → State → State
  | 0, s => s
  | n + 1, s => runQueue q n ((s.nextElement q).finishCopy q)
/-- The started commands finish (log 21). -/
def State.runStarted (s : State) : State :=
  [(0 : Fin 4), 1, 2, 3].foldl (fun s q => runQueue q (s.bank.queues[q].work + 1) s) s
/-- The state of a context as it is saved: a spent task is not (R464), its waits are abandoned, a wait for a ring's slots
begins anew, and its bank tags are marked unloaded. -/
def Bank.saveForm (b : Bank) : Bank :=
  let b := if b.spent then b.toTail else b
  let c : Bank := { b with
    queues := b.queues.map fun q => { q with cmds := (q.cmds.map fun c => if c.started then c else { c with ring := none }), flush := false }
    strands := b.strands.map fun t => { t with fbuf := [] }
    mat := { b.mat with tags := b.mat.tags.map fun t => { t with unloaded := true } } }
  c.dropWaiters fun _ => true
/-- The outgoing state of the core: written back, its started commands finished. -/
def State.outgoing (s : State) : State := ((s.writeBack fun _ => true).runStarted).modBank fun b => b.saveForm

/-! ## TYIELD (R397) -/
/-- The head of the pool when it is of a strictly higher priority than a task, with its launch and descriptor. -/
def State.higherHead (s : State) (t : Task) : Option (PoolEnt × Launch × Node) :=
  match s.core.part with
  | none => none
  | some p =>
    match (poolHead (s.part p).pool s.bank.ctx).filter fun e => decide (t.prio < e.prio), s.ctx.launch with
    | some e, some l => (graphNode (s.lens e.ctx) l.header e.inst.node.toNat).map fun d => (e, l, d)
    | _, _ => none
/-- A command of the yielding task that has not started is saved with it. -/
def Bank.yields (b : Bank) (c : Cmd) : Bool := !c.started && c.task == b.taskId
/-- What is saved of the yielding task: its started commands finish in the queues (R309). -/
def Bank.suspendForm (b : Bank) : Bank :=
  { b.saveForm with
    tail := [], nests := [], sigs := []
    queues := b.saveForm.queues.map fun q => { q with cmds := q.cmds.filter b.yields } }
/-- What stays on the core: the nest and the bank loads of the task are saved with it (R261). -/
def Bank.withoutTask (b : Bank) : Bank :=
  let c : Bank := { b with
    task := none, mat := b.mat.fresh, queues := b.queues.map fun q => { q with cmds := (q.cmds.filter fun c => !b.yields c), flush := false }
    strands := b.strands.map Strand.fresh }
  c.dropWaiters fun w => match w with
    | .queue q _ _ _ => (b.queues[q].cmds.find? fun c => !c.started).any b.yields
    | .strand .. => true
/-- The yielding task is suspended with its state, and the head task takes its place as a preloaded task does (R376, R397). -/
def State.yieldTo (s : State) (t : Task) : State :=
  let s := s.writeBack fun _ => true
  let b := s.bank
  let s := s.modCtx fun c => { c with saved := (s.cur, b.suspendForm) :: c.saved }
  ((s.modBank Bank.withoutTask).modCore fun c => { c with shadow := .task t }).bankSwap
def State.tyield (s : State) (d : Fin 64) : State :=
  let s := if s.bank.task.isSome then s.enterPool (partOfCtx s.bank.ctx) else s
  let no := (s.setS d 0).retire 1
  match s.bank.task.bind s.higherHead with
  | none => no
  | some (e, l, n) =>
    let mine := s.core.candidate e.ctx
    let other := (s.chooseCore e.ctx n e fun c => c != s.cur).isSome
    if !mine || other then no
    else match s.prepare e l n s.cur with
      | (s, some t) => ((s.setS d 1).retire 1).yieldTo t
      | (s, none) => (s.setS d 0).retire 1
def execTyield (d : Fin 64) (s : State) : Out := s.inTask fun s => .next (s.tyield d)

end Sys2Proof.Machine
end

