-- ==== Sys2Proof/Machine/Control.lean ====
section
/-! DEFINITION. The meanings of the branches, jumps, loops and the branch queue (R131 to R143). -/
namespace Sys2Proof.Machine

/-- A branch of n parcels (R132, R133). -/
def State.branch {w : Nat} (s : State) (n : Nat) (taken : Bool) (off : BitVec w) : Out :=
  if taken then .next (s.jump (s.target off)) else .next (s.retire n)

def execBeq (a b : Fin 64) (off : BitVec 8) (s : State) : Out := s.branch 1 (s.rs a == s.rs b) off
def execBne (a b : Fin 64) (off : BitVec 8) (s : State) : Out := s.branch 1 (s.rs a != s.rs b) off
def execBlt (a b : Fin 64) (off : BitVec 8) (s : State) : Out := s.branch 1 ((s.rs a).ult (s.rs b)) off
def execBge (a b : Fin 64) (off : BitVec 8) (s : State) : Out := s.branch 1 (!(s.rs a).ult (s.rs b)) off
def execBlts (a b : Fin 64) (off : BitVec 8) (s : State) : Out := s.branch 1 ((s.rs a).slt (s.rs b)) off
def execBges (a b : Fin 64) (off : BitVec 8) (s : State) : Out := s.branch 1 (!(s.rs a).slt (s.rs b)) off
def execBeqL (a b : Fin 64) (off : BitVec 32) (s : State) : Out := s.branch 2 (s.rs a == s.rs b) off
def execBneL (a b : Fin 64) (off : BitVec 32) (s : State) : Out := s.branch 2 (s.rs a != s.rs b) off
def execBltL (a b : Fin 64) (off : BitVec 32) (s : State) : Out := s.branch 2 ((s.rs a).ult (s.rs b)) off
def execBgeL (a b : Fin 64) (off : BitVec 32) (s : State) : Out := s.branch 2 (!(s.rs a).ult (s.rs b)) off
def execBltsL (a b : Fin 64) (off : BitVec 32) (s : State) : Out := s.branch 2 ((s.rs a).slt (s.rs b)) off
def execBgesL (a b : Fin 64) (off : BitVec 32) (s : State) : Out := s.branch 2 (!(s.rs a).slt (s.rs b)) off

/-- JAL links and jumps (R134). -/
def execJal (d : Fin 64) (off : BitVec 17) (s : State) : Out := .next ((s.setS d (s.strand.pc + 4)).jump (s.target off))
def execJalL (d : Fin 64) (off : BitVec 32) (s : State) : Out := .next ((s.setS d (s.strand.pc + 8)).jump (s.target off))
/-- JALR: a is read before d is written, and a misaligned target leaves d unchanged (R135). -/
def execJalr (d a : Fin 64) (imm : BitVec 11) (s : State) : Out :=
  let target := s.rs a + imm.signExtend 64
  if target.toNat % 4 ≠ 0 then .next (s.takeTrap causeMisaligned target.toNat)
  else .next ((s.setS d (s.strand.pc + 4)).jump target)
/-- LOOP (R136). -/
def execLoop (lc : Fin 2) (a : Fin 64) (len : BitVec 11) (s : State) : Out :=
  let n : BitVec 32 := (s.rs a).setWidth 32
  let stop := s.strand.pc + 4 + 4 * len.setWidth 64
  let t := s.modStrand fun t => { t with lc := t.lc.set lc ⟨n, n != 0, len, stop.setWidth 56⟩ }
  if n = 0 then .next (t.jump stop) else .next (t.retire 1)
/-- BQPUSH: not ready while the queue is full (R140). -/
def execBqpush (a : Fin 64) (s : State) : Out :=
  if Config.bqDepth ≤ s.bank.bq.length then s.stop (.wait .other)
  else .next ((s.modBank fun b => { b with bq := b.bq ++ [s.rs a != 0] }).retire 1)
/-- BQB: not ready while the queue is empty; otherwise it removes the head (R141). -/
def State.popBranch {w : Nat} (s : State) (n : Nat) (off : BitVec w) : Out :=
  match s.bank.bq with
  | [] => s.stop (.wait .other)
  | head :: rest => (s.modBank fun b => { b with bq := rest }).branch n head off
def execBqb (off : BitVec 17) (s : State) : Out := s.popBranch 1 off
def execBqbL (off : BitVec 32) (s : State) : Out := s.popBranch 2 off

end Sys2Proof.Machine
end

