-- ==== Sys2Proof/Machine/Slice.lean ====
section
/-! DEFINITION. Time slices and Galliard (R463 to R471): TIME_SLICE_EXPIRY, SHADOW_FILL, GALLIARD_SPILL and SPILL_RESUME;
cores that leave a partition (R330, R388). -/
namespace Sys2Proof.Machine

/-! ## The slot of a context (R467, R468, log 21) -/
/-- The blocks of 32 bytes of some bytes from an offset. -/
def blocks32 (off : Nat) : Nat → List Byte → List (Nat × List Byte)
  | 0, _ => []
  | n + 1, d => (off, d.take 32) :: blocks32 (off + 32) n (d.drop 32)
def imageAt (off n v : Nat) : List (Nat × List Byte) := blocks32 off (n / 32) (toLe n v)
/-- The parts of a slot whose form the spec gives in full: s, k and v of each strand, tr0 and tr1, the accumulators, the
parameter blocks of the unstarted commands, the tracker snapshot and the 3 KiB of zeros. -/
def strandImage (j : Nat) (t : Strand) : List (Nat × List Byte) :=
  let o := 0x1000 + 0x5000 * j
  blocks32 o 16 (frameOf t)
    ++ ((List.range 8).flatMap fun i => imageAt (o + 0x200 + 128 * i) 128 (if i = 0 then 2 ^ 1024 - 1 else (t.k.toList.getD i 0).toNat))
    ++ (List.range 32).flatMap fun i => imageAt (o + 0x1000 + 512 * i) 512 (t.v.toList.getD i 0).toNat
def Bank.image (b : Bank) (trackers : List (List Byte)) : List (Nat × List Byte) :=
  let strands := (List.range 4).flatMap fun j => strandImage j (b.strands.toList.getD j Strand.clear)
  let tr := (List.range 256).flatMap fun i =>
    imageAt (0x15000 + 512 * i) 512 ((b.tr.toList.getD (i / 128) (Vector.replicate 128 0)).toList.getD (i % 128) 0).toNat
  let acc := (List.range 32).flatMap fun r =>
    blocks32 (0x35000 + 4096 * r) 128 ((b.mat.acc.toList.getD r (Vector.replicate 1024 0)).toList.flatMap fun x => toLe 4 x.toNat)
  let cmds := b.queues.toList.zipIdx.flatMap fun q => (q.1.cmds.filter fun c => !c.started).zipIdx.flatMap fun c =>
    imageAt (0x5B000 + 5120 * q.2 + 160 * c.2) 128 c.1.block.toNat
  let track := trackers.zipIdx.flatMap fun t => [(0x60000 + 16 * t.2, t.1)]
  strands ++ tr ++ acc ++ cmds ++ track ++ blocks32 0x61400 96 (List.replicate 0xC00 0)
/-- The parts of a slot that the spill writes and whose places the spec does not give, as offset and length: the header, the
strand state at +0x600, the matrix state, the semaphores and what follows them, and of the command records whatever is no
parameter block. Their bytes are free values (log 21). -/
def openParts (b : Bank) : List (Nat × Nat) :=
  let strands := (List.range 4).map fun j => (0x1000 + 0x5000 * j + 0x600, 0xA00)
  let records := (List.range 128).map fun i =>
    let unstarted := ((b.queues.toList.getD (i / 32) Queue.empty).cmds.filter fun c => !c.started).length
    if i % 32 < unstarted then (0x5B000 + 160 * i + 128, 32) else (0x5B000 + 160 * i, 160)
  [(0, 0x1000)] ++ strands ++ [(0x55000, 0x4000), (0x59000, 0x2000)] ++ records
/-- The registers that a slot gives back. -/
def strandBack (rd : Nat → Nat → Nat) (j : Nat) (t : Strand) : Strand :=
  let o := 0x1000 + 0x5000 * j
  { t with
    s := Vector.ofFn fun i => if i = 0 then 0 else BitVec.ofNat 64 (rd (o + 8 * i.val) 8)
    k := Vector.ofFn fun i => if i = 0 then t.k[0] else BitVec.ofNat 1024 (rd (o + 0x200 + 128 * i.val) 128)
    v := Vector.ofFn fun i => BitVec.ofNat 4096 (rd (o + 0x1000 + 512 * i.val) 512) }
def Bank.fromImage (b : Bank) (rd : Nat → Nat → Nat) : Bank :=
  { b with
    strands := b.strands.mapFinIdx fun j t _ => strandBack rd j t
    tr := Vector.ofFn fun h => Vector.ofFn fun i => BitVec.ofNat 4096 (rd (0x15000 + 512 * (128 * h.val + i.val)) 512)
    mat := { b.mat with acc := Vector.ofFn fun r => Vector.ofFn fun i => BitVec.ofNat 32 (rd (0x35000 + 4096 * r.val + 4 * i.val) 4) } }
/-- One entry of the tracker snapshot (R330). The mask of an A-plane tracker is that of the flits of its answer (DESIGN CHOICE, log
21). -/
def trackerEntry (s : State) (m : Msg) (a : Bool) : List Byte :=
  let counted := if a then s.dev.fab.net.find? fun x => x.onA && x.dst == m.src && x.tag == m.tag && x.ref == m.id else some m
  let mask := ((counted.map s.arrivedIdx).getD []).foldl (fun n i => n + 2 ^ i) 0
  toLe 8 (if a then m.task.toNat else 0) ++ toLe 2 (s.siteOf (if a then m.dst else m.src)).val
    ++ [BitVec.ofNat 8 ((m.tag.map (·.val)).getD 0), BitVec.ofNat 8 (m.flits - 1)] ++ toLe 2 mask ++ [BitVec.ofNat 8 (bit a + 2), m.kind.setWidth 8]
/-- The trackers of a context's messages at a core, in tracker order: 128 of the Q plane, then 128 of the A plane; one that is not in
use reads as zero. -/
def State.trackerImage (s : State) (ctx : BitVec 12) (c : Fin 256) : List (List Byte) :=
  let entry := fun (l : List Msg) (of : Msg → Option (Fin 128)) (a : Bool) (t : Nat) =>
    match l.find? fun m => m.ctx == ctx && of m == some (fin 128 t) with
    | some m => trackerEntry s m a
    | none => List.replicate 16 0
  (List.range 128).map (entry (s.qTracked c) Msg.qtrk false) ++ (List.range 128).map (entry (s.aTracked c) Msg.tag true)
def slotOf (x : Ctx) (c : Fin 256) : Nat := x.saveBase.toNat + c.val * Config.slotBytes
/-- The first line of a slot, at or above an address, that Galliard cannot reach. -/
def slotFault (s : State) (x : Ctx) (acc : Acc) (base start : Nat) : Option Nat :=
  ((List.range (Config.slotBytes / 4096)).find? fun i =>
    decide (start < base + 4096 * (i + 1)) && (match walkOf s x acc (base + 4096 * i) with
      | .ok _ => false
      | .error _ => true)).map fun i => Nat.max start (base + 4096 * i)
def State.writeImage (s : State) (root base : Nat) (l : List (Nat × List Byte)) : State :=
  l.foldl (fun s x => match walkKey s root (base + x.1) with
    | some k => s.wrClean k x.2
    | none => s) s
/-- Some bytes of the context become free values, in each page of 4 KiB that is mapped. -/
def State.openBytes (s : State) (root va n : Nat) : State :=
  let ranges := (List.range ((va + n - 1) / 4096 - va / 4096 + 1)).filterMap fun i =>
    let lo := Nat.max va ((va / 4096 + i) * 4096)
    let hi := Nat.min (va + n) ((va / 4096 + i + 1) * 4096)
    (walkKey s root lo).map fun k => (k, k + (hi - lo), s.freeCtr)
  { s with mem := { s.mem with undef := ranges ++ s.mem.undef } }
/-- Galliard's accesses to some bytes go through the slices as long-lived (R467), for a context (R498). -/
def State.throughSlices (s : State) (x : Ctx) (va n : Nat) (write : Bool) : State :=
  let lines := (List.range (lineCount va n)).filterMap fun i => (walkKey s x.pgroot.toNat (va / 128 * 128 + 128 * i)).map (· / 128)
  lines.foldl (fun (s : State) l =>
    let s := (s.chargeTo x.id s.cur 3 (s.fillUnits l)).fillLine l 2
    if write then s.dirtyLine l (some x.id) none else s) s
/-- The part of a slot from one address up to another is written, for the context being saved (R498). -/
def State.writeSlot (s : State) (x : Ctx) (b : Bank) (base start stop : Nat) : State :=
  let root := x.pgroot.toNat
  let within := fun (off : Nat) => decide (start ≤ base + off) && decide (base + off < stop)
  let s := s.writeImage root base ((b.image (s.trackerImage b.ctx s.cur)).filter fun y => within y.1)
  let s := s.throughSlices x start (stop - start) true
  (openParts b).foldl (fun s y =>
    let lo := Nat.max start (base + y.1)
    let hi := Nat.min stop (base + y.1 + y.2)
    if lo < hi then s.openBytes root lo (hi - lo) else s) s
/-- A field of a slot, block by block. -/
def slotField (s : State) (root base off n : Nat) : Nat :=
  let block := fun (i : Nat) => match walkKey s root (base + off + 32 * i) with
    | some k => s.rdN k (Nat.min 32 n)
    | none => 0
  (List.range ((n + 31) / 32)).foldl (fun v i => v + block i * 2 ^ (256 * i)) 0

/-! ## Filling and spilling (R464, R470, R471) -/
/-- Galliard stops (R470), with the context whose fill is to go on (R471). -/
def State.stallAt (s : State) (id : BitVec 12) (fill : Bool) (addr : Nat) : State :=
  let s := s.modCore fun c => { c with stall := true, stallDir := fill, stallAddr := BitVec.ofNat 64 addr, stallCtx := id }
  s.event s.core.part 0x30 (some s.cur) id.toNat addr (bit fill)
/-- The state of a context comes into the free shadow bank of the core; a context that has never run here starts fresh. -/
def State.fillWith (s : State) (id : BitVec 12) : State :=
  let x := s.ctxOf id
  match x.saved.find? fun e => e.1 == s.cur with
  | none => s.modCore fun c => { c with shadow := .filled x.fresh none }
  | some e =>
    let base := slotOf x s.cur
    match slotFault s x .load base base with
    | some a => s.stallAt id true a
    | none =>
      let b := e.2.fromImage (slotField s x.pgroot.toNat base)
      let s := s.throughSlices x base Config.slotBytes false
      (s.modCtxOf id fun y => { y with saved := y.saved.erase e }).modCore fun c => { c with shadow := .filled b none }
/-- The outgoing state goes from the shadow bank to the save area, from an address on. At a line that it cannot reach Galliard
stops; the lines before it are written. -/
def State.spillFrom (s : State) (start : Option Nat) : State :=
  match s.core.shadow with
  | .unspilled b =>
    let x := s.ctxOf b.ctx
    let base := slotOf x s.cur
    let from_ := start.getD base
    match slotFault s x .store base from_ with
    | some a => (s.writeSlot x b base from_ a).stallAt b.ctx false a
    | none =>
      let s := s.writeSlot x b base from_ (base + Config.slotBytes)
      (s.modCtxOf b.ctx fun y => { y with saved := (s.cur, b) :: y.saved }).modCore fun c => { c with shadow := .free }
  | _ => s
/-- A filled bank that is not wanted goes back, and a task that the pool has placed there returns to it untouched (R376). -/
def State.freeShadow (s : State) : State :=
  match s.core.shadow with
  | .filled b first =>
    let s := (s.modCtxOf b.ctx fun y => { y with saved := (s.cur, b) :: y.saved }).modCore fun c => { c with shadow := .free }
    first.toList.foldl (fun s t => s.returnTask b.ctx t t.retry) s
  | .task t => (s.modCore fun c => { c with shadow := .free }).returnTask s.bank.ctx t t.retry
  | _ => s

/-! ## The swap (R464 to R466) -/
/-- The swap of a core: the outgoing state takes the place of the incoming one in the shadow bank, and the gear follows. The latency is
measured from the expiry at which the incoming entry came to be served, under that entry's LIMIT (R466). -/
def State.swapIn (s : State) (b : Bank) (first : Option Task) : State :=
  let out := s.outgoing
  let old := out.bank
  let b := b.withFirst first
  let from_ := s.core.swapFrom
  let s := (out.modCore fun c =>
    { c with
      bank := b, shadow := if old.loaded then .unspilled old else .free, swapDue := false, swapFrom := none, barCycles := 0, dropped := false }).dropTags
  let s := if b.gear = s.core.gear then s else s.beginTrans b.gear .swap s.midCycle
  match s.core.part, from_ with
  | some p, some (e, at_) =>
    let late := s.dclk.toNat - at_ + (if s.core.gear = .f then 26 else 105) + (if b.gear = s.core.gear then 0 else 134)
    if sliceLimit e ≠ 0 ∧ sliceLimit e * 1000 < late then s.event (some p) 0x31 (some s.cur) b.ctx.toNat late (sliceLimit e) else s
  | _, _ => s
/-- A core that is due to swap does so once it can: a spill and a gear transition in progress end first, and so does the
discard of a task that a handler ended. -/
def State.trySwap (s : State) : State :=
  let id := s.core.swapCtx
  if !s.core.swapDue || s.core.stall || s.clockStopped || (s.bank.task.bind (·.ending)).isSome then s
  else if s.bank.loaded && s.bank.ctx == id then s.modCore fun c => { c with swapDue := false, swapFrom := none }
  else
    let fill := fun (s : State) =>
      let s := s.freeShadow.fillWith id
      match s.core.shadow with
      | .filled b first => s.swapIn b first
      | _ => s
    match s.core.shadow with
    | .unspilled _ => s
    | .filled b first => if b.ctx = id then s.swapIn b first else fill s
    | _ => fill s
/-- Whether a saved state holds a task that was pre-empted. One whose strands have all ended was not (R464), but the nest that it left
was (R261). -/
def Bank.preempted (b : Bank) : Bool := b.task.any (·.ending.isNone) || !b.nests.isEmpty
/-- Whether a context has work in a partition (R463): a pre-empted task, one in the pool or placed as the first of a filled bank, or an
instance still to be evaluated. -/
def State.hasWork (s : State) (p : Fin 16) (id : BitVec 12) : Bool :=
  let x := s.ctxOf id
  (x.saved.any fun e => e.2.preempted) || ((s.part p).pool.any fun e => e.ctx == id) || (x.launch.any fun l => !l.elig.isEmpty)
    || (List.range 256).any fun i => match s.cores[fin 256 i].shadow with
      | .filled b first => b.loaded && b.ctx == id && (b.preempted || first.isSome)
      | .unspilled b => b.loaded && b.ctx == id && b.preempted
      | _ => false
/-- The next entry, in list order after the current one, whose context has work (R463). -/
def State.nextSlice (s : State) (p : Fin 16) : Option Nat :=
  let now := (s.part p).slice
  ((List.range 32).map fun i => (now + 1 + i) % 32).find? fun i =>
    let e := s.slice p i
    sliceOn e && partOfCtx (sliceCtx e) == p && (s.ctxs.any fun c => c.id == sliceCtx e) && s.hasWork p (sliceCtx e)
/-- The cores of a partition. -/
def State.coresOf (s : State) (p : Fin 16) : List (Fin 256) :=
  ((List.range 256).map (fin 256 ·)).filter fun c => (s.cores[c]).part == some p
/-- Expiry on one core: a stopped core misses it, and the host is told with a latency that is not measured yet. A core whose fill has
stopped swaps the context in later: its latency runs from the first expiry of that context's entry that it missed (R466, R471). -/
def State.expire (s : State) (p : Fin 16) (c : Fin 256) : State :=
  s.on c fun s =>
    let e := s.slice p (s.part p).slice
    let entry := (e, s.dclk.toNat)
    if s.core.stall then
      let mine := s.core.stallDir && s.core.stallCtx == sliceCtx e && s.core.swapFrom.isNone
      (s.modCore fun k => { k with swapFrom := if mine then some entry else k.swapFrom }).event (some p) 0x31 (some c) (sliceCtx e).toNat
        (s.free 64 c.val).toNat (sliceLimit e)
    else (s.modCore fun k => { k with swapDue := true, swapCtx := s.serving p, swapFrom := some entry }).trySwap
/-- TIME_SLICE_EXPIRY: nothing happens before the slice has ended on DCLK. -/
def State.sliceExpiry (s : State) (p : Fin 16) : State :=
  if s.dclk.toNat < (s.part p).ends ∨ (s.part p).stopped then s
  else
    let i := (s.nextSlice p).getD (s.part p).slice
    let s := s.modPart p fun x => { x with slice := i, ends := s.dclk.toNat + sliceNs (s.slice p i) }
    if !sliceOn (s.slice p i) then s else (s.coresOf p).foldl (fun s c => s.expire p c) s
def execTimeSliceExpiry (p : Fin 16) (s : State) : Out := .next (s.sliceExpiry p)
/-- SHADOW_FILL: within 8 µs of expiry, the context that expiry would select comes into a free shadow bank; a task that
is preloaded there returns to the pool. -/
def State.shadowFill (s : State) : State :=
  match s.core.part with
  | none => s
  | some p =>
    match s.nextSlice p with
    | none => s
    | some i =>
      let id := sliceCtx (s.slice p i)
      if (s.part p).ends ≤ s.dclk.toNat + 8000 ∧ !s.core.stall ∧ id ≠ s.bank.ctx then
        match s.core.shadow with
        | .free => s.fillWith id
        | .task _ => s.freeShadow.fillWith id
        | _ => s
      else s
def execShadowFill (c : Fin 256) (s : State) : Out := .next (s.on c fun s => s.shadowFill)
/-- GALLIARD_SPILL: the outgoing state is written, and a swap that waited for it goes on. -/
def State.galliard (s : State) : State := if s.core.stall then s else (s.spillFrom none).trySwap
def execGalliardSpill (c : Fin 256) (s : State) : Out := .next (s.on c fun s => s.galliard)
/-- SPILL_RESUME: Galliard goes on with the spill at the line where it stopped, or with the fill that it stopped, after which
the core swaps at once. -/
def State.spillResume (s : State) : State :=
  if !s.core.stall then s
  else
    let c := s.core
    let s := s.modCore fun c => { c with stall := false }
    if c.stallDir then (s.modCore fun k => { k with swapDue := true, swapCtx := c.stallCtx }).trySwap
    else (s.spillFrom (some c.stallAddr.toNat)).trySwap
def execSpillResume (c : Fin 256) (s : State) : Out := .next (s.on c fun s => s.spillResume)

/-! ## Failed messages (R330, R370, R472) -/
/-- A task whose message failed: as by RERUN when it is restartable, else as by ABORT, with no handler. -/
def Task.failedMessage (t : Task) : Ending := if t.restartable then .rerun else .abort 0 0 false 0
/-- The tasks of the loaded state that satisfy a predicate end so. -/
def State.failLoaded (s : State) (hit : Task → Bool) : State :=
  let hits := fun (t : Task) => hit t && t.ending.isNone
  let s := match s.bank.task with
    | some t => if hits t then s.endTask t.failedMessage else s
    | none => s
  (s.bank.tail.filter hits).foldl (fun s t =>
    let s := [(0 : Fin 4), 1, 2, 3].foldl (fun s q => s.flushQueue q (some t.id)) s
    s.modBank fun b =>
      { b with
        tail := b.tail.map fun x => if x.id = t.id then { x with ending := some t.failedMessage } else x
        nests := b.nests.filter fun x => x.task != t.id }) s
/-- The tasks in the saved states of a context for the core that satisfy a predicate end so. -/
def State.failSaved (hit : Task → Bool) (s : State) (id : BitVec 12) : State :=
  (List.range (s.ctxOf id).saved.length).foldl (fun s i =>
    match (s.ctxOf id).saved[i]? with
    | some e =>
      if e.1 = s.cur then
        let r := s.inBank e.2 fun s => s.failLoaded hit
        r.1.modCtxOf id fun y => { y with saved := y.saved.set i (e.1, r.2) }
      else s
    | none => s) s
/-- The tasks of a core that satisfy a predicate end so, wherever their state lies; one that is preloaded has done nothing, and returns
to the pool untouched (R376, R388). -/
def State.failTasks (s : State) (c : Fin 256) (hit : Task → Bool) : State :=
  s.on c fun s =>
    let s := (s.ctxs.map (·.id)).foldl (State.failSaved hit) (s.everywhere fun s => s.failLoaded hit)
    match s.core.shadow with
    | .task t | .filled _ (some t) => if hit t then s.freeShadow else s
    | _ => s
/-- The undelivered messages that the trackers of a core's site list fail (R330): those that it sends and that expect an answer, and those
that are arriving there. Their tasks end, whose commands complete with faulted tokens as their queues are flushed (R472). A site whose
candidate for injection is gone with its message holds relief, and asks for it, no more (R327; DESIGN CHOICE, log 37: the spec does
not say). -/
def State.failMessages (s : State) (c : Fin 256) : State :=
  let lost := fun (m : Msg) => ((m.src == c && m.answered && m.tag.isSome) || (m.dst == c && m.qtrk.isSome)) && m.st == .admitted
  let gone := s.dev.fab.net.filter lost
  let kept := fun (x : Flit) => !gone.any fun m => m.id == x.msg
  let s := s.modFab fun f =>
    { f with
      net := f.net.filter fun m => !lost m, flits := f.flits.filter kept, intake := f.intake.filter kept
      relief := f.relief.filter fun r => f.flits.any fun x => kept x && x.plane == r.1 && x.at_ == r.2 && !x.placed && decide (64 ≤ x.waitC) }
  let at_ := fun (s : State) (src : Fin 256) => s.failTasks src fun t => gone.any fun m => m.src == src && m.task == t.id
  (distinct (gone.map (·.src.val))).foldl (fun s i => at_ s (fin 256 i)) s

/-! ## Leaving a partition (R388, R330) -/
/-- A device command ends (R511). -/
def State.endCommand (s : State) (result : Nat) : State :=
  (s.modDev fun d => { d with devBusy := false, devResult := BitVec.ofNat 8 result }).fire none 2
/-- Whether a task of the core still runs, or is saved to run on it. -/
def State.holdsTask (s : State) : Bool :=
  let filled := match s.core.shadow with
    | .filled b first => !b.tasks.isEmpty || first.isSome
    | .unspilled b => !b.tasks.isEmpty
    | .task _ => true
    | .free => false
  !s.bank.tasks.isEmpty || filled || s.ctxs.any fun x => x.saved.any fun e => e.1 == s.cur && !e.2.tasks.isEmpty
/-- The state of the core's contexts is saved. -/
def State.saveAll (s : State) : State :=
  let s := s.freeShadow
  let keep := fun (s : State) (b : Bank) => if b.loaded then s.modCtxOf b.ctx fun y => { y with saved := (s.cur, b) :: y.saved } else s
  let s := keep s s.bank
  match s.core.shadow with
  | .unspilled b => keep s b
  | _ => s
/-- The core leaves: the state of its context is saved, undelivered messages fail, its vault stays lent, and outside
every partition it goes to gear N. -/
def State.leave (s : State) : State :=
  match s.core.leaving with
  | none => s
  | some dest =>
    if s.core.moving || s.holdsTask || s.core.trans.isSome then s
    else
      let s := s.saveAll.failMessages s.cur
      let s := s.modCore fun c =>
        { c with
          part := dest, leaving := none, bank := Bank.clear, shadow := .free, swapDue := false, stall := false, lent := true
          dropped := false }
      let s := if dest = none ∧ s.core.gear = .f then s.beginTrans .n .leave s.midCycle else s
      if s.dev.resizing = some s.cur then (s.modDev fun d => { d with resizing := none }).endCommand 0 else s

end Sys2Proof.Machine
end

