-- ==== Sys2Proof/Machine/HostCmd.lean ====
section
/-! DEFINITION. What the host does to the device (R505 to R511): REGISTER, UNREGISTER, RESIZE, RELEASE, host window
entries, BAR2 and the partition block of BAR0. -/
namespace Sys2Proof.Machine

/-! ## Commands (R511) -/
/-- A partition command ends. -/
def State.endPartCommand (s : State) (p : Fin 16) (result : Nat) : State :=
  (s.modPart p fun x => { x with busy := false, result := BitVec.ofNat 8 result }).fire (some p) 2
/-- Word k of context record j (R508). -/
def State.ctxWord (s : State) (p : Fin 16) (j : BitVec 8) (k : Nat) : W64 :=
  BitVec.ofNat 64 (s.rdN (partKey p.val (0x20000 + 256 * j.toNat + 8 * k)) 8)
/-- Whether every page of a range is mapped and writable. -/
def resident (s : State) (x : Ctx) (base size : Nat) : Bool :=
  (List.range (size / 2 ^ 16 + 2)).all fun i =>
    let va := if i = 0 then base else base / 2 ^ 16 * 2 ^ 16 + i * 2 ^ 16
    decide (base + size ≤ va) || (match walkOf s x .store va with
      | .ok l => l.w
      | .error _ => false)
/-- The CSRs that words 0 to 14 set; actcap is set before actctl, which it bounds. -/
def wordCsrs : List (Nat × Nat) :=
  [(0, 0x101), (1, 0x102), (2, 0x283), (3, 0x344), (4, 0x400), (5, 0x402), (6, 0x581), (7, 0x600), (8, 0x609), (9, 0x607), (11, 0x702),
    (10, 0x701), (12, 0x70A), (13, 0x304), (14, 0x380)]
/-- The context that a record describes, each word stored as a CSRW stores it (R7). -/
def State.recordCtx (s : State) (p : Fin 16) (j : BitVec 8) : Ctx :=
  let id := ctxId p j
  let w := s.ctxWord p j
  let v : State := { s with ctxs := [{ Ctx.reset with id := id }] }
  let v := wordCsrs.foldl (fun (v : State) x => v.csrWrite x.2 (w x.1)) (v.lens id)
  { v.ctxOf id with
    netctl := v.bank.netctl, bgear := v.bank.bgear, saveBase := w 15, saveSize := w 16, chent := w 17
    gear := if (w 18).getLsbD 0 then .f else .n }
/-- First entry and count of a Chaconne allocation. -/
def Ctx.chRange (x : Ctx) : Nat × Nat := (x.chent.toNat % 2 ^ 14, x.chent.toNat / 2 ^ 16 % 2 ^ 15)
def chMeet (a b : Nat × Nat) : Bool := a.2 != 0 && b.2 != 0 && decide (a.1 < b.1 + b.2) && decide (b.1 < a.1 + a.2)
/-- The RESULT of REGISTER (log 20). -/
def State.registerResult (s : State) (p : Fin 16) (j : BitVec 8) : Nat :=
  let w := s.ctxWord p j
  let x := s.recordCtx p j
  let bad := ((List.range 13).any fun k => w (19 + k) != 0) || (w 15).toNat % 2 ^ 16 != 0 || !isHbmKind (w 15).toNat
    || decide (2 ^ 56 ≤ (w 15).toNat) || decide ((w 16).toNat < 0x6200000) || (w 17).toNat / 2 ^ 31 != 0 || (w 17).toNat / 2 ^ 14 % 4 != 0
    || decide (16384 < x.chRange.1 + x.chRange.2) || (w 18).toNat / 2 != 0
  let v := { s with ctxs := x :: s.ctxs }.lens x.id
  if bad then 1
  else if s.ctxs.any fun y => y.id == x.id || (partOfCtx y.id == p && chMeet x.chRange y.chRange) then 3
  else if !resident v x x.saveBase.toNat 0x6200000 || (rtabCount x != 0 && !resident v x (rtabBase x) (16 * rtabCount x)) then 2
  else 0
/-- REGISTER: checks record j and installs the context. -/
def State.register (s : State) (p : Fin 16) (j : BitVec 8) : State :=
  let r := s.registerResult p j
  (if r = 0 then { s with ctxs := s.recordCtx p j :: s.ctxs } else s).endPartCommand p r
/-- UNREGISTER: refused while an entry names the context, or a launch of it is active or waiting. -/
def State.unregister (s : State) (p : Fin 16) (j : BitVec 8) : State :=
  let id := ctxId p j
  if !(s.ctxs.any fun c => c.id == id) || (s.entryFor id).isSome || s.launching id
      || (s.part p).waiting.any fun (r : Rec) => r.ctx == id.toNat then s.endPartCommand p 3
  else
    let drop := fun (b : Bank) => if b.loaded && b.ctx == id then Bank.clear else b
    let s : State := { s with
      ctxs := s.ctxs.filter fun c => c.id != id
      cores := s.cores.map fun c =>
        { c with
          bank := drop c.bank
          shadow := match c.shadow with
            | .filled b _ | .unspilled b => if b.ctx = id then .free else c.shadow
            | x => x } }
    s.endPartCommand p 0
/-- An accepted command of a partition's register runs. -/
def State.runPartCommand (s : State) (p : Fin 16) (v : W64) : State :=
  let op := v.toNat % 2 ^ 16
  let arg := v.toNat / 2 ^ 16 % 2 ^ 16
  if op = 3 ∨ op = 4 then s.endPartCommand p 4
  else if v.toNat / 2 ^ 32 ≠ 0 ∨ 256 ≤ arg then s.endPartCommand p 1
  else if op = 1 then s.register p (BitVec.ofNat 8 arg)
  else if op = 2 then s.unregister p (BitVec.ofNat 8 arg)
  else s.endPartCommand p 1
/-- A write of a partition's command register: ignored while BUSY is 1. Commands run one at a time: one that is accepted while a RESIZE
still runs waits for its end. -/
def State.partCommand (s : State) (p : Fin 16) (v : W64) : State :=
  if (s.part p).busy then s
  else if s.dev.devBusy then
    (s.modPart p fun x => { x with busy := true }).modDev fun d => { d with cmds := d.cmds ++ [(p, v)] }
  else s.runPartCommand p v
/-- The commands that waited run in the order in which they were written, once no RESIZE runs. -/
def State.runCommands (s : State) : State :=
  if s.dev.devBusy then s else s.dev.cmds.foldl (fun s c => s.runPartCommand c.1 c.2) (s.modDev fun d => { d with cmds := [] })
/-- The word of a partition command for context j. -/
def commandWord (op : Nat) (j : BitVec 8) : W64 := BitVec.ofNat 64 (op + j.toNat * 2 ^ 16)
def execRegister (p : Fin 16) (j : BitVec 8) (s : State) : Out := .next (s.hosted fun s => s.partCommand p (commandWord 1 j))
def execUnregister (p : Fin 16) (j : BitVec 8) (s : State) : Out := .next (s.hosted fun s => s.partCommand p (commandWord 2 j))
/-- RESIZE: the core takes no more work, and the command ends when it has left; a core outside every partition joins at
once (R388). -/
def State.resize (s : State) (c : Fin 256) (target : Option (Fin 16)) : State :=
  let k := s.cores[c]
  if s.dev.devBusy then s
  else if k.retired || k.leaving.isSome then s.endCommand 3
  else if k.part = target then s.endCommand 0
  else
    let s := s.modDev fun d => { d with devBusy := true, resizing := some c }
    s.on c fun s =>
      let s := s.modCore fun k => { k with leaving := some target }
      let s := match s.core.shadow with
        | .task _ | .filled _ (some _) => s.freeShadow
        | _ => s
      if k.part = none then s.leave else s
def execResize (c : Fin 256) (target : Option (Fin 16)) (s : State) : Out := .next (s.hosted fun s => s.resize c target)
/-- RELEASE: the lent vault passes to the partition that holds the core (R388, R511). -/
def State.release (s : State) (c : Fin 256) (p : Fin 16) : State :=
  let k := s.cores[c]
  if s.dev.devBusy then s
  else if !k.lent || k.part ≠ some p || k.vaultGone then s.endCommand 3
  else (s.on c fun s => s.modCore fun k => { k with vaultPart := some p, lent := false }).endCommand 0
def execRelease (c : Fin 256) (p : Fin 16) (s : State) : Out := .next (s.hosted fun s => s.release c p)
/-- A write of the device's command register. -/
def State.devCommand (s : State) (v : W64) : State :=
  let op := v.toNat % 2 ^ 16
  let core := v.toNat / 2 ^ 16 % 2 ^ 16
  let arg := v.toNat / 2 ^ 32 % 2 ^ 8
  if s.dev.devBusy then s
  else if op = 1 ∨ op = 2 then s.endCommand 4
  else if v.toNat / 2 ^ 40 ≠ 0 ∨ 256 ≤ core ∨ (16 ≤ arg ∧ ¬(op = 3 ∧ arg = 0xFF)) then s.endCommand 1
  else if op = 3 then s.resize (fin 256 core) (if arg = 0xFF then none else some (fin 16 arg))
  else if op = 4 then s.release (fin 256 core) (fin 16 arg)
  else s.endCommand 1

/-! ## Host windows and BAR2 (R506, R509) -/
def State.windowEntry (s : State) (p : Fin 16) (w : Nat) (v : BitVec 256) : State :=
  (s.wrs (partKey p.val (0x11000 + 32 * w)) (toLe 32 v.toNat)).loadCounter p w
def execHostWindowEntryWrite (p : Fin 16) (w : BitVec 8) (v : BitVec 256) (s : State) : Out :=
  .next (s.hosted fun s => s.windowEntry p w.toNat v)
/-- The entries of the region table of a loaded context that a physical range meets. The host must not change them (R158), and no
consequence is named (R1): the device may have read an entry before the change (R540), so the values of its fields are free. -/
def State.tableSpans (s : State) (x : Ctx) (k n : Nat) : List (Nat × Nat) :=
  if s.cores.toList.any fun c => (c.bank :: c.shadow.bank.toList).any fun b => b.loaded && b.ctx == x.id then
    let v := s.lens x.id
    (List.range (rtabCount x)).filterMap fun i => match regionKey v x .own 0 i with
      | .ok e => if k < e + 16 ∧ e < k + n then some (e, 16) else none
      | .error _ => none
  else []
/-- The bytes that a host write to a physical range leaves undefined: the regions that it meets and that a running or preloaded task owns
(R506), and the entries of a region table in use (R1, R158, log 20). -/
def State.taskSpans (s : State) (k n : Nat) : List (Nat × Nat) :=
  s.ctxs.flatMap fun x =>
    s.tableSpans x k n ++
    let v := s.lens x.id
    let owners := (s.tasksOf x.id).map fun t => t.1.val
    ((allRegions v).filter fun r => r.kind == 0 && owners.any (· == r.core)).flatMap fun r =>
      let spans := r.spans v x
      if spans.any fun y => decide (k < y.1 + y.2) && decide (y.1 < k + n) then spans else []
/-- A host write of 8 bytes as part of the write that it belongs to: one that goes on where the last ended, within a block of 32
bytes, is of the same write (DESIGN CHOICE, log 20). -/
def joinHost (run : Nat × Nat) (k : Nat) : Nat × Nat :=
  if run.1 + run.2 = k ∧ 0 < run.2 ∧ run.2 < 32 ∧ run.1 % 32 = 0 then (run.1, run.2 + 8) else (k, 8)
/-- A host write of a whole 32-byte block clears its poison (R165, R540). -/
def State.hostWhole (s : State) : State :=
  let r := s.dev.hostRun
  if r.2 = 32 then s.setPois (r.1 / 32) false else s
/-- BAR2_ACCESS of 8 bytes: committed data only, never a version, and no region check. A function that does not respond answers
zero (log 20). -/
def State.bar2 (s : State) (fn : Fin 17) (off : Nat) (wr : Option W64) : Out :=
  let k := s.rdN (devKey (0x400 + 8 * fn.val)) 8 + off
  if s.dev.fethen.boot ≠ .running then .next (if wr = none then s.modDev fun d => { d with hostRd := 0 } else s)
  else if Config.hbmBytes < k + 8 then .fault (.beyondHbm k)
  else match wr with
    | none => .next (s.modDev fun d => { d with hostRd := BitVec.ofNat 64 (s.rdN k 8) })
    | some v =>
      let spans := s.taskSpans k 8
      let s := ((s.wrClean k (toLe 8 v.toNat)).modDev fun d => { d with hostRun := joinHost d.hostRun k }).hostWhole
      .next { s with mem := { s.mem with undef := spans.map (fun x => (x.1, x.1 + x.2, s.freeCtr)) ++ s.mem.undef } }
def execBar2Access (fn : Fin 17) (off : BitVec 36) (wr : Option (BitVec 64)) (s : State) : Out := s.bar2 fn off.toNat wr

/-! ## BAR0 (R505, R507, R508, R516) -/
/-- The Fethen command register and the nonce answer in recovery too; so does the recovery window. -/
def recoveryOffset (off : Nat) : Bool := (decide (0x4000 ≤ off) && decide (off < 0x4040)) || (decide (0x800000 ≤ off) && decide (off < 0x1000000))
/-- A host write to a partition block. -/
def State.hostPart (s : State) (p : Fin 16) (off : Nat) (v : W64) : State :=
  if off = 0x10000 then s.submit p v
  else if off = 0x10300 then s.partCommand p v
  else s.partWrite p off v

end Sys2Proof.Machine
end

