-- ==== Sys2Proof/Machine/Xmss.lean ====
section
/-! DEFINITION. SHAKE256, and XMSS with SHAKE256, h = 20 and n = 32 (R515, R517): the algorithms of FIPS 202, RFC 8391 and NIST SP 800-208,
which the spec names (PRESUMED, log 22: their text is taken from outside it). -/
namespace Sys2Proof.Machine.Xmss

/-! ## Keccak and SHAKE256 (FIPS 202) -/
abbrev Lanes := Vector (BitVec 64) 25
def lane (a : Lanes) (i : Nat) : BitVec 64 := a.toList.getD i 0
def rotations : List Nat := [0, 1, 62, 28, 27, 36, 44, 6, 55, 20, 3, 10, 43, 25, 39, 41, 45, 15, 21, 8, 18, 2, 61, 56, 14]
def roundWords : List Nat :=
  [0x0000000000000001, 0x0000000000008082, 0x800000000000808A, 0x8000000080008000, 0x000000000000808B, 0x0000000080000001,
   0x8000000080008081, 0x8000000000008009, 0x000000000000008A, 0x0000000000000088, 0x0000000080008009, 0x000000008000000A,
   0x000000008000808B, 0x800000000000008B, 0x8000000000008089, 0x8000000000008003, 0x8000000000008002, 0x8000000000000080,
   0x000000000000800A, 0x800000008000000A, 0x8000000080008081, 0x8000000000008080, 0x0000000080000001, 0x8000000080008008]
/-- One round: theta, rho with pi, chi, and iota. Lane (x, y) is the one of index x + 5 y. -/
def keccakRound (a : Lanes) (rc : Nat) : Lanes :=
  let c := fun (x : Nat) => (List.range 5).foldl (fun v y => v ^^^ lane a (x % 5 + 5 * y)) 0
  let d : Vector (BitVec 64) 5 := Vector.ofFn fun x => c (x.val + 4) ^^^ (c (x.val + 1)).rotateLeft 1
  let b : Lanes := Vector.ofFn fun i =>
    let from_ := (i.val % 5 + 3 * (i.val / 5)) % 5 + 5 * (i.val % 5)
    (lane a from_ ^^^ d.toList.getD (from_ % 5) 0).rotateLeft (rotations.getD from_ 0)
  Vector.ofFn fun i =>
    let y := i.val / 5 * 5
    let x := lane b i.val ^^^ (~~~(lane b ((i.val + 1) % 5 + y)) &&& lane b ((i.val + 2) % 5 + y))
    if i.val = 0 then x ^^^ BitVec.ofNat 64 rc else x
def keccak (a : Lanes) : Lanes := roundWords.foldl keccakRound a
/-- The rate of SHAKE256 in bytes. -/
def rate : Nat := 136
/-- Blocks are absorbed, each of a rate. -/
def absorb : Nat → Lanes → List Byte → Lanes
  | 0, a, _ => a
  | n + 1, a, d =>
    absorb n (keccak (Vector.ofFn fun i => if i.val < 17 then lane a i.val ^^^ BitVec.ofNat 64 (leNat ((d.drop (8 * i.val)).take 8)) else lane a i.val))
      (d.drop rate)
/-- A message with its suffix and padding, as a whole number of blocks. -/
def padded (m : List Byte) : List Byte :=
  let fill := rate - m.length % rate
  m ++ (if fill = 1 then [0x9F] else 0x1F :: List.replicate (fill - 2) 0 ++ [0x80])
/-- The first n bytes of SHAKE256, at most a rate. -/
def shake256 (n : Nat) (m : List Byte) : List Byte :=
  let a := absorb (m.length / rate + 1) (Vector.replicate 25 0) (padded m)
  ((List.range 17).flatMap fun i => toLe 8 (lane a i).toNat).take n

/-! ## Hash functions and addresses (RFC 8391, SP 800-208) -/
/-- A value in n bytes, the highest first. -/
def toByte (n x : Nat) : List Byte := (toLe n x).reverse
def xorBytes (a b : List Byte) : List Byte := a.zipWith (· ^^^ ·) b
/-- F, H, H_msg, PRF and PRF_keygen are told apart by a number of 32 bytes. -/
def hash (kind : Nat) (key m : List Byte) : List Byte := shake256 32 (toByte 32 kind ++ key ++ m)
/-- The type of an address with its three words: of a one-time key, of an L-tree, or of the hash tree. -/
structure Adrs where
  type : Nat
  a    : Nat
  b    : Nat
  c    : Nat
/-- Its bytes, with a keyAndMask. -/
def Adrs.bytes (x : Adrs) (mask : Nat) : List Byte := toByte 12 0 ++ toByte 4 x.type ++ toByte 4 x.a ++ toByte 4 x.b ++ toByte 4 x.c ++ toByte 4 mask
def prf (seed : List Byte) (x : Adrs) (mask : Nat) : List Byte := hash 3 seed (x.bytes mask)
/-- The pair of two nodes. -/
def randHash (seed : List Byte) (x : Adrs) (left right : List Byte) : List Byte :=
  hash 1 (prf seed x 0) (xorBytes left (prf seed x 1) ++ xorBytes right (prf seed x 2))

/-! ## WOTS+ with w = 16 -/
/-- n steps of chain i of a one-time key from step `from_`. -/
def chain (seed : List Byte) (ots i from_ : Nat) : Nat → List Byte → List Byte
  | 0, x => x
  | n + 1, x =>
    let a : Adrs := ⟨0, ots, i, from_⟩
    chain seed ots i (from_ + 1) n (hash 0 (prf seed a 0) (xorBytes x (prf seed a 1)))
/-- The 64 digits of a digest and the 3 of its checksum. -/
def digits (m : List Byte) : List Nat :=
  let msg := m.flatMap fun b => [b.toNat / 16, b.toNat % 16]
  let sum := msg.foldl (fun s d => s + (15 - d)) 0
  msg ++ [sum / 256 % 16, sum / 16 % 16, sum % 16]
/-- A list cut into pieces of 32 bytes. -/
def pieces (n : Nat) (d : List Byte) : List (List Byte) := (List.range n).map fun i => (d.drop (32 * i)).take 32
/-- The public key of a one-time key as its signature gives it. -/
def wotsPk (seed : List Byte) (ots : Nat) (m : List Byte) (sig : List (List Byte)) : List (List Byte) :=
  ((digits m).zip sig).zipIdx.map fun x => chain seed ots x.2 x.1.1 (15 - x.1.1) x.1.2

/-! ## The trees -/
/-- One level of an L-tree. -/
def ltreeLevel (seed : List Byte) (ots height : Nat) : Nat → List (List Byte) → List (List Byte)
  | i, l :: r :: t => randHash seed ⟨1, ots, height, i⟩ l r :: ltreeLevel seed ots height (i + 1) t
  | _, t => t
def ltreeGo (seed : List Byte) (ots : Nat) : Nat → Nat → List (List Byte) → List (List Byte)
  | 0, _, l => l
  | n + 1, height, l => ltreeGo seed ots n (height + 1) (ltreeLevel seed ots height 0 l)
/-- The leaf of a one-time public key of 67 pieces. -/
def ltree (seed : List Byte) (ots : Nat) (pk : List (List Byte)) : List Byte := (ltreeGo seed ots 7 0 pk).headD []
/-- The node above a leaf that its authentication path gives. -/
def climb (seed : List Byte) (ix : Nat) : Nat → List (List Byte) → List Byte → List Byte
  | _, [], x => x
  | k, y :: t, x =>
    let a : Adrs := ⟨2, 0, k, ix / 2 ^ (k + 1)⟩
    climb seed ix (k + 1) t (if ix / 2 ^ k % 2 = 0 then randHash seed a x y else randHash seed a y x)

/-! ## Signatures -/
/-- The digest that is signed. -/
def digest (r root : List Byte) (ix : Nat) (m : List Byte) : List Byte := hash 2 (r ++ root ++ toByte 32 ix) m
/-- The number of XMSS-SHAKE256_20_256. -/
def oid : Nat := 0x12
/-- Whether a signature of 2,820 bytes over a message is good under a public key: its number, its root and its seed. -/
def verify (pk m sig : List Byte) : Bool :=
  let root := (pk.drop 4).take 32
  let seed := (pk.drop 36).take 32
  let ix := leNat (sig.take 4).reverse
  let d := digest ((sig.drop 4).take 32) root ix m
  let leaf := ltree seed ix (wotsPk seed ix d (pieces 67 (sig.drop 36)))
  pk.length == 68 && pk.take 4 == toByte 4 oid && sig.length == 2820 && decide (ix < 2 ^ 20)
    && climb seed ix 0 (pieces 20 (sig.drop 2180)) leaf == root
/-- A private key: the secret seed, the key of r, and the public seed. -/
structure Key where
  secret : List Byte
  prf    : List Byte
  seed   : List Byte
/-- The start of chain i of a one-time key. -/
def Key.start (k : Key) (ots i : Nat) : List Byte := hash 4 k.secret (k.seed ++ Adrs.bytes ⟨0, ots, i, 0⟩ 0)
/-- Leaf `ots` of the hash tree. -/
def Key.leaf (k : Key) (ots : Nat) : List Byte := ltree k.seed ots ((List.range 67).map fun i => chain k.seed ots i 0 15 (k.start ots i))
/-- Node i at a height. -/
def Key.node (k : Key) : Nat → Nat → List Byte
  | 0, i => k.leaf i
  | h + 1, i => randHash k.seed ⟨2, 0, h, i⟩ (k.node h (2 * i)) (k.node h (2 * i + 1))
/-- The signature under an index: the index, r, the one-time signature and the authentication path. -/
def Key.sign (k : Key) (ix : Nat) (m : List Byte) : List Byte :=
  let r := hash 3 k.prf (toByte 32 ix)
  let d := digest r (k.node 20 0) ix m
  toByte 4 ix ++ r ++ ((digits d).zipIdx.flatMap fun x => chain k.seed ix x.2 0 x.1 (k.start ix x.2))
    ++ (List.range 20).flatMap fun h => k.node h (Nat.xor (ix / 2 ^ h) 1)

end Sys2Proof.Machine.Xmss
end

