-- ==== Sys2Proof/Machine/Rooted.lean ====
section
/-! DEFINITION. Fethen (R515 to R517): POWER_ON_RESET, CHECK, COMMIT and ATTEST, with the host writes of BAR0; errors, spares and retired cores
(R13, R14, R472, R518 to R520): ERROR_COUNT. -/
namespace Sys2Proof.Machine

def State.modFethen (s : State) (f : Fethen → Fethen) : State := s.modDev fun d => { d with fethen := f d.fethen }

/-! ## Boot (R13, R515, R516) -/
/-- The sites of a die: the 128 enabled ones in increasing order, then the 8 that are fused as spares. -/
def dieSites (die : Nat) : List Nat :=
  let all := (List.range 272).filter fun x => bit (decide (17 ≤ x % 34)) == die
  let spares := ((all.filter fun x => Config.fusedSpare x) ++ all.filter fun x => !Config.fusedSpare x).take 8
  (all.filter fun x => !spares.any (· == x)) ++ spares
/-- The site map at reset: logical ids in increasing site order, D0's sites first. -/
def SiteMap.boot : SiteMap :=
  let pick := fun (die : Nat) => (dieSites die).take 128
  { SiteMap.reset with
    site := Vector.ofFn fun i => fin 272 ((pick (i.val / 128)).getD (i.val % 128) 0)
    spares := ((dieSites 0).drop 128 ++ (dieSites 1).drop 128).map (fin 272 ·) }
/-- The SHAKE256 digest of 64 bytes (R515, R517). -/
def digest64 (d : List Byte) : BitVec 512 := BitVec.ofNat 512 (leNat (Xmss.shake256 64 d))
/-- The signature of an image is good under the public key whose digest is fused (R515); the fused digest is SHAKE256's as the
measurement's is (DESIGN CHOICE, log 22). -/
def imageSigned (image : List Byte) : Bool :=
  digest64 (Config.imageKey image) == Config.fusedKey && Xmss.verify (Config.imageKey image) (Config.imageBody image) (Config.imageSignature image)
/-- The device's key for reports (R517). -/
def deviceSigner : Xmss.Key := ⟨toLe 32 Config.signSecret.toNat, toLe 32 Config.signPrf.toNat, toLe 32 Config.signSeed.toNat⟩
/-- Fethen's check of an image. -/
def Fethen.passes (f : Fethen) (image : List Byte) : Bool := imageSigned image && decide (f.minVer ≤ Config.imageVersion image)
/-- POWER_ON_RESET: the measurement, and firmware or recovery. -/
def State.powerOn (s : State) : State :=
  let f := s.dev.fethen
  if f.boot ≠ .held then s
  else
    let g := { f with m0 := digest64 f.flash, boot := if f.passes f.flash then .running else .recovery }
    s.modDev fun d => { d with fethen := g, sites := if g.boot = .running then SiteMap.boot else d.sites }
def execPowerOnReset (s : State) : Out := .next s.powerOn
/-- A reset of the device that Fethen orders: flash, the fused minimum and the signature counter last, and so does host
memory; the spec gives the vaults and HBM no contents (R2, log 22). -/
def State.fethenReset (s : State) (image : List Byte) : State :=
  let f := s.dev.fethen
  { State.reset with
    mem := ⟨s.mem.cells.filter fun c => decide (2 ^ 64 ≤ c.1) && decide (c.1 < 2 ^ 80), [], [(0, 2 ^ 64, s.freeCtr)]⟩
    dev := { Dev.reset with fethen := { Fethen.reset with flash := image, minVer := f.minVer, sigIdx := f.sigIdx } }
    agenda := s.agenda, freeCtr := s.freeCtr }
/-- The image in the recovery window. -/
def State.windowImage (s : State) : List Byte := (keysFrom (devKey 0x800000) (2 ^ 23)).map s.rd
/-- CHECK: in recovery only; a pass writes the image to flash and resets the device. -/
def State.checkImage (s : State) : State :=
  let f := s.dev.fethen
  if f.boot ≠ .recovery ∨ f.busy then s
  else if f.passes s.windowImage then s.fethenReset s.windowImage
  else s.modFethen fun f => { f with cmd := 2, result := 1 }
def execCheck (s : State) : Out := .next s.checkImage
/-- COMMIT: outside recovery, once per reset. -/
def State.commitVersionMin (s : State) : State :=
  let f := s.dev.fethen
  if f.boot ≠ .running ∨ f.committed ∨ f.busy then s
  else s.modFethen fun f => { f with minVer := Config.imageVersion f.flash, committed := true, cmd := 3, result := 0 }
def execCommit (s : State) : Out := .next s.commitVersionMin

/-! ## Attestation (R507, R517) -/
/-- The site map as the device block shows it, 2 bytes per logical id. -/
def SiteMap.bytes (m : SiteMap) : List Byte :=
  (List.range 256).flatMap fun i =>
    toLe 2 ((m.site.toList.getD i 0).val + 2 ^ 14 * bit (m.spare.getLsbD i) + 2 ^ 15 * bit (m.retired.getLsbD i))
/-- A word of the device block as the host reads it (R507, R511, R516). The spec says nothing of a read of the cap window: it is a
free value. -/
def State.devWordRead (s : State) (off : Nat) : Nat :=
  let f := s.dev.fethen
  if off = 0 then 0xB200 + Config.revision.toNat * 2 ^ 16
  else if 0x100 ≤ off ∧ off < 0x300 then leNat ((s.dev.sites.bytes.drop (off - 0x100)).take 8)
  else if off = 0x1000 ∨ off = 0x1008 then (s.free 64 9).toNat
  else if off = 0x2008 then bit s.dev.devBusy * 2 ^ 63 + s.dev.devResult.toNat
  else if off = 0x4008 then bit f.busy * 2 ^ 63 + f.result.toNat
  else if off = 0x2000 ∨ off = 0x4000 then 0
  else s.rdN (devKey off) 8
/-- What the host reads in 8 bytes of a function's BAR0 (R505, R508, R516); what is not placed, or does not respond, reads as zero. -/
def State.hostRead (s : State) (fn : Fin 17) (off : Nat) : W64 :=
  let f := s.dev.fethen
  BitVec.ofNat 64 (if f.boot = .held then 0
    else if fn = 0 then
      if off < 0x1000000 then (if f.boot = .running ∨ off = 0 ∨ off = 0x4008 ∨ recoveryOffset off then s.devWordRead off else 0)
      else if f.boot = .running ∧ off < 0x2000000 then s.partWord (fin 16 (off / 2 ^ 20)) (off % 2 ^ 20)
      else 0
    else if f.boot = .running ∧ off < 0x100000 then s.partWord (fin 16 (fn.val - 1)) off
    else 0)
/-- Every spare's state: the spare sites that are left, the rows, banks and ways that a spare has replaced, the pseudo-channels that are
retired and the links that are dead. The spec gives their encoding no form: it is a function with no body (log 22). -/
def State.spareStates (s : State) : List Byte :=
  let code := fun (u : ErrUnit) => match u with
    | .vaultBank c b => [0, c, b]
    | .sliceWay c w => [1, c, w]
    | .hbmRow c r => [2, c, r]
    | .pseudo c h => [3, c, bit h]
    | .link site p => [4, site.val, portCode p]
    | .site c p => [5, c.val, match p with
      | .core => 0
      | .slice => 1
      | .router => 2]
  Config.spareBytes (s.dev.sites.spares.map (·.val)) (((s.dev.errors.filter (·.spared)).map fun e => code e.u)
    ++ s.dev.deadChan.map fun c => [3, c.1, bit c.2])
/-- Bytes 0 to 183 of the report. -/
def State.report (s : State) (index : Nat) : List Byte :=
  let f := s.dev.fethen
  let state := digest64 (s.dev.sites.bytes ++ s.spareStates)
  (keysFrom (devKey 0x4020) 32).map s.rd ++ toLe 64 f.m0.toNat ++ toLe 16 Config.serial.toNat ++ toLe 64 state.toNat ++ toLe 4 index ++ toLe 4 0
/-- ATTEST: the counter advances before the signature leaves the device; after 2^20 signatures the result is 2. -/
def State.attest (s : State) : State :=
  let f := s.dev.fethen
  if f.busy ∨ f.boot = .held then s
  else if 2 ^ 20 ≤ f.sigIdx then s.modFethen fun f => { f with cmd := 1, result := 2 }
  else
    let body := s.report f.sigIdx
    let s := s.modFethen fun f => { f with sigIdx := f.sigIdx + 1, cmd := 1, result := 0 }
    s.wrs (devKey 0x5000) (body ++ deviceSigner.sign f.sigIdx body)
def execAttest (s : State) : Out := .next s.attest

/-! ## Host writes to BAR0 (R505, R507, R516) -/
/-- A write of Fethen's command register; another number than its three is ignored (log 22). -/
def State.fethenCommand (s : State) (v : W64) : State :=
  if v = 1 then s.attest else if v = 2 then s.checkImage else if v = 3 then s.commitVersionMin else s
/-- A host write to the device block: BAR2 apertures, the cap window, the command registers, the event ring and the nonce. -/
def State.hostDev (s : State) (off : Nat) (v : W64) : State :=
  if 0x400 ≤ off ∧ off < 0x488 then s.wrs (devKey off) (toLe 8 (v.toNat / 2 ^ 30 * 2 ^ 30))
  else if off = 0x1000 then s.modPower fun p => { p with lowWord := v }
  else if off = 0x1008 then s.capMessage s.dev.power.lowWord v
  else if off = 0x2000 then s.devCommand v
  else if off = 0x4000 then s.fethenCommand v
  else if (0x3000 ≤ off ∧ off < 0x3018) ∨ (0x4020 ≤ off ∧ off < 0x4040) ∨ (0x800000 ≤ off ∧ off < 0x1000000) then
    s.wrs (devKey off) (toLe 8 v.toNat)
  else s
/-- HOST_REGISTER_WRITE of 8 bytes; an offset that is not placed ignores it, and so does all but Fethen in recovery. -/
def State.hostWrite (s : State) (fn : Fin 17) (off : Nat) (v : W64) : State :=
  if s.dev.fethen.boot = .held then s
  else if fn = 0 then
    if off < 0x1000000 then
      if s.dev.fethen.boot = .running ∨ recoveryOffset off then s.hostDev off v else s
    else if s.dev.fethen.boot = .running ∧ off < 0x2000000 then s.hostPart (fin 16 (off / 2 ^ 20)) (off % 2 ^ 20) v
    else s
  else if s.dev.fethen.boot = .running ∧ off < 0x100000 then s.hostPart (fin 16 (fn.val - 1)) off v
  else s
def execHostRegisterWrite (fn : Fin 17) (off : BitVec 26) (v : BitVec 64) (s : State) : Out := .next (s.hostWrite fn off.toNat v)

/-! ## Retired cores (R14, R472, R520) -/
/-- A pseudo-channel is retired: its lines read as poisoned and discard writes (R519, R520). -/
def State.retirePseudo (s : State) (channel : Nat) (half : Bool) : State :=
  let s := s.modDev fun d => { d with deadChan := (channel, half) :: d.deadChan }
  s.event none 0x45 none 0 (channel * 2 + bit half) 0
/-- A logical id is retired with no spare: a fault of its slice or router takes the lines that are homed there, and one of its
router the site's links (R520). -/
def State.retireCore (s : State) (c : Fin 256) (part : SitePart) : State :=
  let site := s.siteOf c
  let s := s.failTasks c fun _ => true
  let s := s.modDev fun d => { d with sites := { d.sites with retired := d.sites.retired ||| BitVec.ofNat 256 (2 ^ c.val) } }
  let s := s.on c fun s => s.modCore fun k => { k with retired := true, vaultGone := true, leaving := some none, moving := false }
  let s := s.event none 0x46 (some c) 0 site.val 0
  let s := if part = .core then s else (s.retirePseudo c.val false).retirePseudo c.val true
  if part = .router then [Plane.q, Plane.a].foldl (fun s p => ports.foldl (fun s x => s.killLink p site x) s) s else s
/-- The spare that a core's site would give way to. -/
def State.spareFor (s : State) (c : Fin 256) : Option (Fin 272) := s.dev.sites.spares.find? fun x => dieOf x == dieOf (s.siteOf c)
/-- A site is to give way to a spare of its die: the core is taken out of service as a resize takes it (R14, R388), and where a RESIZE
is already taking it elsewhere, that goes on; with no spare left the logical id is retired. -/
def State.retireSite (s : State) (c : Fin 256) (part : SitePart) : State :=
  match s.spareFor c with
  | none => s.retireCore c part
  | some _ =>
    s.on c fun s =>
      let s := s.modCore fun k => { k with leaving := k.leaving.orElse fun _ => some k.part, moving := true }
      match s.core.shadow with
      | .task _ | .filled _ (some _) => s.freeShadow
      | _ => s
/-- The logical id moves once its core has finished what runs on it, and its undelivered messages fail. R14 takes the core out of
service exactly as a resize does, which lets it finish the tasks that are saved on it too, and R472 lets the saved tasks move with the
id and resume at the new site: which of the two firmware does is a free choice (log 43). -/
def State.moveSite (s : State) : State :=
  let busy := !s.bank.tasks.isEmpty || !s.bank.nests.isEmpty || (match s.core.shadow with
    | .free => false
    | .filled b first => !b.tasks.isEmpty || first.isSome
    | _ => true) || ((s.free 1 10).toNat == 1 && s.holdsTask)
  if busy || s.core.trans.isSome then s
  else match s.spareFor s.cur with
    | none => s.retireCore s.cur .core
    | some x =>
      let c := s.cur
      let site := s.siteOf c
      let s := s.saveAll.failMessages c
      let s := s.modCore fun k =>
        { k with
          leaving := if s.dev.resizing = some c then k.leaving else none
          moving := false, bank := Bank.clear, shadow := .free, swapDue := false, stall := false }
      let s := s.modDev fun d => { d with sites :=
        { d.sites with site := d.sites.site.set c x, spares := d.sites.spares.erase x, spare := d.sites.spare ||| BitVec.ofNat 256 (2 ^ c.val) } }
      s.event none 0x44 (some c) 0 5 site.val
/-- CORE_LEAVES_PARTITION: the core leaves for another partition, for none, or for a spare site. -/
def execCoreLeavesPartition (c : Fin 256) (s : State) : Out :=
  .next (s.on c fun s => if s.core.moving then s.moveSite else s.leave)

/-! ## ERROR_COUNT (R518, R519) -/
/-- The number of the unit's kind in an event. -/
def errKind : ErrUnit → Fin 6
  | .vaultBank .. => 0 | .sliceWay .. => 1 | .hbmRow .. => 2 | .pseudo .. => 3 | .link .. => 4 | .site .. => 5
/-- The version of a task loses the lines that lay in a disabled way: they spill (R377). Which lines those are, is a free choice. -/
def State.spillWay (s : State) (c w : Nat) : State :=
  let lay := fun (t : Task) (l : Nat) => channelOf (l * 128) == c && Config.freeChoice ((s.freeCtr * 2 ^ 64 + t.id.toNat) * 2 ^ 64 + l) % 16 == w
  let task := fun (t : Task) => { t with spill := (t.inWays.filter (lay t)) ++ t.spill }
  let bank := fun (b : Bank) => { b with task := b.task.map task, tail := b.tail.map task }
  (s.ctxs.map (·.id)).foldl (fun s id => s.modBanksOf id bank) s
/-- A way is disabled (R519): each set of the slice that holds more lines than the ways that are left gives one up, which is written
back, and the versions in the way spill. -/
def State.disableWay (s : State) (c w : Nat) : State :=
  let lines := s.dev.slices.filter fun x => channelOf (x.line * 128) == c
  let s := (distinct (lines.map fun x => setOf x.line)).foldl (fun (s : State) set =>
    let l := lines.filter fun x => setOf x.line == set
    match l.head? with
    | some x =>
      if s.sliceWays x.line ≤ l.length then (match l[Config.freeChoice (s.freeCtr * 2 ^ 64 + set) % l.length]? with
        | some x => s.evictLine x
        | none => s) else s
    | none => s) s
  s.spillWay c w
/-- A lasting fault brings in a spare. -/
def State.lasting (s : State) (u : ErrUnit) : State :=
  match u with
  | .vaultBank c b => s.event none 0x44 (some (fin 256 c)) 0 (errKind u).val b
  | .sliceWay c w => (s.disableWay c w).event none 0x44 (some (fin 256 c)) 0 (errKind u).val w
  | .hbmRow ch row =>
    let used := (s.dev.errors.filter fun e => e.spared && (match e.u with
      | .hbmRow k r => k == ch && r % 2 == row % 2
      | _ => false)).length
    if used < Config.repairRows then s.event none 0x44 none 0 (errKind u).val row else s.retirePseudo ch (row % 2 == 1)
  | .pseudo ch half => s.retirePseudo ch half
  | .link site port =>
    ([Plane.q, Plane.a].foldl (fun s p => s.killLink p site port) s).event none 0x44 none 0 (errKind u).val site.val
  | .site c part => if (s.cores[c]).retired then s else s.retireSite c part
/-- The HBM address of a byte of a channel: in a row, PA[39:17], and a column, PA[7:0], of one of its pseudo-channels (R151). -/
def channelAddr (channel row : Nat) (half : Bool) (col : Nat) : Nat :=
  let high := row % 2 ^ 23 * 2 ^ 17
  high + Nat.xor (channel % 256) (channelOf high) * 2 ^ 9 + bit half * 2 ^ 8 + col % 256
/-- The block that an uncorrectable error poisons: a free one of the unit (R165, R518). A row of the table's HBM_ROW is PA[39:17] and, as
its lowest bit, the pseudo-channel; where a vault's bank lies, the spec does not say (log 41). -/
def State.errorBlock (s : State) (u : ErrUnit) : Option Nat :=
  let any := (s.free 64 7).toNat
  let rows := Config.hbmBytes / 2 ^ 17
  match u with
  | .vaultBank c b => some (vaultKey (c % 256) (Config.vaultPlace b (any % 2 ^ 24) % 2 ^ 24) / 32)
  | .sliceWay c _ => some (channelAddr c (any / 2 ^ 9 % rows) (any / 2 ^ 8 % 2 == 1) (any % 256) / 32)
  | .hbmRow c row => some (channelAddr c (row / 2) (row % 2 == 1) (any % 256) / 32)
  | .pseudo c half => some (channelAddr c (any / 2 ^ 8 % rows) half (any % 256) / 32)
  | .link .. | .site .. => none
/-- An uncorrectable error of HBM may lie in the metadata of the line of its block, when the line has a stored form, the raw one
among them (R333, R335): the selector reads 111 then, and its four blocks are poisoned. A free choice decides (R335, log 12). -/
def State.errorMeta (s : State) (u : ErrUnit) (block : Nat) : State :=
  let hbm := match u with
    | .hbmRow .. | .pseudo .. => true
    | _ => false
  let line := block / 4
  if hbm && (s.dev.forms.any fun f => f.1 == line) && (s.free 1 8).toNat == 1 then
    let s := s.modDev fun d => { d with forms := d.forms.map fun f => if f.1 = line then (line, 7, f.2.2) else f }
    (List.range 4).foldl (fun s i => s.setPois (4 * line + i) true) s
  else s
/-- One error of a unit: its fault is lasting when the T most recent lie within W seconds, or when it is uncorrectable. -/
def State.countError (s : State) (u : ErrUnit) (uncorrectable : Bool) : State :=
  let now := s.dclk.toNat
  let t := s.dev.errT[errKind u]
  let old := (s.dev.errors.find? fun e => e.u == u).getD ⟨u, [], false⟩
  let times := (now :: old.times).take t
  let last := uncorrectable || (decide (t ≤ times.length) && decide (now - times.getLastD now ≤ s.dev.errW[errKind u] * 10 ^ 9))
  let new : ErrLog := if last then ⟨u, [], true⟩ else ⟨u, times, old.spared⟩
  let s := match s.errorBlock u with
    | some b => if uncorrectable then (s.setPois b true).errorMeta u b else s
    | none => s
  let s := if last then s.lasting u else s
  s.modDev fun d => { d with errors := new :: d.errors.filter fun e => e.u != u }
def execErrorCount (u : ErrUnit) (uncorrectable : Bool) (s : State) : Out := .next (s.countError u uncorrectable)
/-- LINK_REPLAY: each replay counts one error against its link too (R331, R518). -/
def execLinkReplay (plane : Plane) (site : Fin 272) (port : Port) (s : State) : Out :=
  .next ((s.linkReplay plane site port).countError (.link site port) false)
/-- Firmware sets T and W of a unit kind within their ranges (R519); it sets no other value. -/
def State.setErrorRule (s : State) (kind : Fin 6) (t : BitVec 8) (w : BitVec 16) : State :=
  if t.toNat < 2 ∨ w = 0 then s else s.modDev fun d => { d with errT := d.errT.set kind t.toNat, errW := d.errW.set kind w.toNat }

end Sys2Proof.Machine
end

