-- ==== Sys2Proof/Machine/Link.lean ====
section
/-! DEFINITION. Zikin Link and the device clock (R425 to R437, R488, R514): REMOTE_ACCESS, LINK_TRAINING,
CLOCK_ALIGNMENT, PTM_CORRECTION and ZIKIN_LINK_FAILURE. -/
namespace Sys2Proof.Machine

/-! ## Accesses that arrive (R426, R433) -/
/-- The state as a core of a peer context sees it. -/
def State.peerView (s : State) (id : BitVec 12) (core : Fin 256) : State := { s with cur := core }.lens id
/-- The key of a part of an access that arrives, checked as R426 lays down; none where it faults. -/
def remoteKey (s : State) (id : BitVec 12) (core : Fin 256) (read deposit : Bool) (part : Nat × Nat) : Option Nat :=
  let v := s.peerView id core
  let acc : Acc := if read then .load else .store
  let addr := part.1
  if illFormed v true addr || !(isHbmKind addr || kindOf addr == 15) || !(s.ctxs.any fun c => c.id == id) then none
  else match regionOf v v.ctx acc addr with
    | .ok (some r) =>
      let allowed :=
        if read then r.kind == 1 || r.kind == 2
        else r.kind == 2 || (deposit && r.kind == 0 && kindOf addr == 15 && r.core == core.val)
      if !allowed then none
      else if kindOf addr = 15 then some (vaultKey (addr / 2 ^ 24 % 256) (addr % 2 ^ 24))
      else match walkOf v v.ctx acc addr with
        | .ok l => if read || l.w then some (l.pa addr) else none
        | .error _ => none
    | _ => none
/-- The keys of the parts of an access. -/
def remoteParts (s : State) (id : BitVec 12) (core : Fin 256) (read deposit : Bool) (addr n : Nat) : Option (List (Nat × Nat)) :=
  (partsOf addr n).foldr (fun p rest => match remoteKey s id core read deposit p, rest with
    | some k, some l => some ((k, p.2) :: l)
    | _, _ => none) (some [])
def State.putParts (s : State) (pois : Bool) : List (Nat × Nat) → List Byte → State
  | [], _ => s
  | (k, n) :: t, d =>
    let s := (s.wrClean k (d.take n)).taint k n
    let s := if pois then (distinct ((keysFrom k n).map (· / 32))).foldl (fun s b => s.setPois b true) s else s
    s.putParts pois t (d.drop n)
/-- The update of XRED (R433). -/
def redOp (op : Fin 4) (old src : Nat) : Nat :=
  match op with
  | 0 => Num.arith Num.rne .f32 addF old src 0
  | 1 => (old + src) % 2 ^ 32
  | 2 => Num.minMax .f32 true old src
  | _ => Num.minMax .f32 false old src

/-! ## Answers and acknowledgements (R428, R437) -/
/-- The oldest access of a command that is still to be answered, and the state without it. -/
def State.takeFar (s : State) (cmd : Nat) : Option (FarAcc × State) :=
  (s.dev.zikin.out.find? fun x => x.cmd == cmd).map fun x =>
    (x, s.modDev fun d => { d with zikin := { d.zikin with out := d.zikin.out.erase x } })
def Bank.hasCmd (b : Bank) (cmd : Nat) : Bool := b.loaded && ((b.queues.toList.any fun q => q.cmds.any fun c => c.id == cmd) || b.sigs.any fun x => x.id == cmd)
/-- Where the state that holds a command lies: its context and core. -/
def State.holderOf (s : State) (cmd : Nat) : Option (BitVec 12 × Fin 256) :=
  let onCores := ((List.range 256).map (fin 256 ·)).findSome? fun c =>
    let k := s.cores[c]
    if k.bank.hasCmd cmd then some (k.bank.ctx, c)
    else match k.shadow with
      | .filled b _ | .unspilled b => if b.hasCmd cmd then some (b.ctx, c) else none
      | _ => none
  onCores.orElse fun _ => s.ctxs.findSome? fun x => (x.saved.find? fun e => e.2.hasCmd cmd).map fun e => (x.id, e.1)
/-- An operation on the state of a context on a core, as if it were loaded there. -/
def State.withBank (s : State) (id : BitVec 12) (c : Fin 256) (f : State → State) : State := s.on c fun s => s.inState id f
/-- The queue of a command. -/
def State.queueOf (s : State) (cmd : Nat) : Option (Fin 4) :=
  [(0 : Fin 4), 1, 2, 3].find? fun q => s.bank.queues[q].cmds.any fun c => c.id == cmd
/-- One access of a command, for its element `elem`, is answered, with a fault when it has one; an XSIG completes (R428, R437). -/
def State.settleFar (s : State) (cmd elem : Nat) (fault : Option ElemFault) : State :=
  match s.bank.sigs.find? fun x => x.id == cmd with
  | some g =>
    let s := s.modBank fun b => { b with sigs := b.sigs.filter fun x => x.id != cmd }
    s.finishTokenOf g.task g.strand g.td (fault.map (·.1))
  | none =>
    match s.queueOf cmd with
    | none => s
    | some q => s.modCmd q cmd fun c => { c.fail elem fault with acks := c.acks - 1 }
/-- The bytes of a pull are written as the element's local write, into the slots of a ring where the destination is one (R427,
R432). A compressed line that does not decode faults the element with cause POISON (R294, R430), and a command that was flushed writes
no more (R305). -/
def State.pullElement (s : State) (cmd elem : Nat) (d : List Byte) (pois bad : Bool) : State :=
  match s.queueOf cmd with
  | none => s
  | some q =>
    match s.bank.queues[q].cmds.find? fun c => c.id == cmd with
    | none => s
    | some c =>
      s.asTask c.task fun s =>
        let b : Block := c.block
        let walk := fun (base : Nat) (str : Nat → Int) => walkAddr base str (b.ix elem) (b.ix elem 0)
        if c.fault.any fun f => f.1 == 0 then s.settleFar cmd elem none
        else
          let r := s.deliver c (walk b.dst b.dstr) (convertElem b d) (pois || bad)
          let undecoded := if bad then some (elemFault (causePoison, walk b.src b.sstr % 2 ^ 56) 3) else none
          (r.1.settleFar cmd elem (undecoded.orElse fun _ => r.2)).fillWritten q cmd elem
/-- The fault of an access that failed: its cause with OPND 3. -/
def farFault (x : FarAcc) (cause : Byte) : ElemFault :=
  (cause, 3, match x.acc with
    | .write _ _ a _ _ _ | .update _ _ a _ _ _ _ | .read _ _ a _ => a &&& 0x00FFFFFFFFFFFFFF
    | _ => 0)
def State.farAck (s : State) (x : FarAcc) (cause : Option Byte) : State :=
  match s.holderOf x.cmd with
  | none => s
  | some (id, c) => s.withBank id c fun s => s.settleFar x.cmd x.elem (cause.map (farFault x))
/-- REMOTE_ACCESS. An update of XRED needs no alignment and is indivisible (R289, R433). -/
def State.remoteAccess (s : State) : Remote → State
  | .write id core a d deposit pois =>
    match remoteParts s id core false deposit a.toNat d.length with
    | some l => s.putParts pois l d
    | none => s
  | .update id core a op src deposit pois =>
    match remoteParts s id core false deposit a.toNat 4 with
    | some l => s.putParts pois l (toLe 4 (redOp op (leNat (l.flatMap fun x => (keysFrom x.1 x.2).map s.rd)) src.toNat))
    | none => s
  | .read id core a n =>
    match remoteParts s id core true false a.toNat n with
    | some l =>
      let ks := l.flatMap fun x => keysFrom x.1 x.2
      s.modDev fun d => { d with
        remoteRd := ks.map s.rd, remotePois := ks.any s.pois, remoteBad := ks.any fun k => s.pois k && s.undecodable (k / 128) }
    | none => s
  | .incr id core sem k =>
    if (s.ctxs.any fun c => c.id == id) && (s.cores[core]).part == some (partOfCtx id) then s.semAt id core sem k else s
  | .answer cmd d pois bad =>
    match s.takeFar cmd with
    | none => s
    | some (x, t) =>
      match t.holderOf cmd with
      | none => t
      | some (id, c) => t.withBank id c fun s => s.pullElement cmd x.elem d pois bad
  | .ack cmd cause =>
    match s.takeFar cmd with
    | none => s
    | some (x, t) => t.farAck x cause
def execRemoteAccess (r : Remote) (s : State) : Out := .next (s.remoteAccess r)

/-! ## Links and clocks (R425, R429, R437, R488, R514) -/
/-- LINK_TRAINING: the id, the state of the ports, and the route table that firmware loads: `table` says which. COUNT is one less than the
packages of the route table with this one among them (R439; DEDUCED, log 23: COUNT resets to 0, where the package is alone). -/
def State.linkTraining (s : State) (id table up cmp : BitVec 8) : State :=
  let routes := ((List.range 256).map (BitVec.ofNat 8 ·)).filter fun p => p != id && Config.routeListed table id p
  s.modDev fun d => { d with zikin := { d.zikin with
    id := id, count := BitVec.ofNat 8 routes.length, up := up, cmp := cmp, routes := routes.map fun p => (p, fin 8 (Config.routePort table id p).toNat) } }
def execLinkTraining (id table up cmp : BitVec 8) (s : State) : Out := .next (s.linkTraining id table up cmp)
/-- Whether the package follows PTM: it is not linked, or has the lowest id (R514). -/
def Zikin.leads (z : Zikin) : Bool := z.routes.all fun r => decide (z.id < r.1)
/-- CLOCK_ALIGNMENT: the offset is reported, and a package that does not lead corrects it by slewing. -/
def State.clockAlign (s : State) (delta : BitVec 16) : State :=
  s.modDev fun d => { d with zikin := { d.zikin with skew := delta }, slew := if d.zikin.leads then d.slew else -delta.toInt }
def execClockAlignment (delta : BitVec 16) (s : State) : Out := .next (s.clockAlign delta)
/-- PTM_CORRECTION: the offset to correct by slewing; a package that follows the link ignores PTM. -/
def State.ptm (s : State) (delta : BitVec 16) : State :=
  s.modDev fun d => { d with slew := if d.zikin.leads then delta.toInt else d.slew }
def execPtmCorrection (delta : BitVec 16) (s : State) : Out := .next (s.ptm delta)
/-- The running far commands of a state for packages behind a failed port: their elements that are not issued yet fail too, even after
another training (R437). -/
def Bank.linkDown (b : Bank) (pkgs : List (BitVec 8)) : Bank :=
  { b with queues := b.queues.map fun q => { q with cmds := q.cmds.map fun c => if c.isFar && c.started then { c with down := pkgs ++ c.down } else c } }
/-- ZIKIN_LINK_FAILURE: every access on its way through the port fails with PROTECTION (R437). -/
def State.linkFailure (s : State) (port : Fin 8) : State :=
  let s := s.modDev fun d => { d with zikin := { d.zikin with up := d.zikin.up &&& ~~~(BitVec.ofNat 8 (2 ^ port.val)) } }
  let pkgs := (s.dev.zikin.routes.filter fun r => r.2 == port).map (·.1)
  let through := fun (x : FarAcc) => pkgs.any (· == x.pkg)
  let lost := s.dev.zikin.out.filter through
  let s := s.modDev fun d => { d with zikin := { d.zikin with out := d.zikin.out.filter fun x => !through x } }
  let s := lost.foldl (fun s x => s.farAck x (some (BitVec.ofNat 8 causeProtection))) s
  (s.ctxs.map (·.id)).foldl (fun s id => s.modBanksOf id fun b => b.linkDown pkgs) s
def execZikinLinkFailure (port : Fin 8) (s : State) : Out := .next (s.linkFailure port)

end Sys2Proof.Machine
end

