-- ==== Sys2Proof/Machine/MultiPkg.lean ====
section
/-! DEFINITION. The meanings of the instructions that reach another package: XCPY, XRED, HALO and XSIG
(R425 to R437). -/
namespace Sys2Proof.Machine

/-- A block with some bytes replaced. -/
def Block.put (b : Block) (off n v : Nat) : Block :=
  BitVec.ofNat 1024 (b.toNat - fld b off n * 2 ^ (8 * off) + v % 2 ^ (8 * n) * 2 ^ (8 * off))
/-- The checks of CPY on a block of a far command: SEMCORE is checked at the far package (R432, R437). -/
def Block.checkFar (s : State) (b : Block) : Option Nat :=
  let b := b.put 120 8 0
  (if b.mcmask = 0 then b.put 106 1 (if b.raises then s.cur.val else b.semcore) else b).check s .cpy

/-! ## XCPY and XRED (R432, R433) -/
def State.xcpy (s : State) (q : Fin 4) (a b : Fin 64) (x : XE) : Res State :=
  match s.queueGate q x with
  | .error e => .error e
  | .ok s =>
    let far := (s.rs b).toNat
    let pull := far / 2 ^ 8 % 2 == 1
    if far / 2 ^ 9 ≠ 0 then .error (.trap causeParam far)
    else match s.paramBlock (s.rs a) with
      | .error e => .error e
      | .ok (t, blk) =>
        match blk.checkFar s with
        | some off => .error (.trap causeParam off)
        | none =>
          if blk.mcmask ≠ 0 ∨ blk.idx ≠ 0 ∨ far % 2 ^ 8 = s.dev.zikin.id.toNat ∨ (pull ∧ blk.remote) then
            .error (.trap causeParam 0x200)
          else .ok (t.enqueue q { t.newCmd (if pull then .xpull else .xpush) blk x with far := BitVec.ofNat 8 far } x)
def execXcpy (q : Fin 4) (a b : Fin 64) (s : State) : Out := s.seq 1 (s.xcpy q a b XE.none)
def execXcpyL (q : Fin 4) (a b : Fin 64) (x : XE) (s : State) : Out := s.seq 2 (s.xcpy q a b x)
def State.xred (s : State) (q : Fin 4) (a b : Fin 64) (x : XE) : Res State :=
  match s.queueGate q x with
  | .error e => .error e
  | .ok s =>
    let far := (s.rs b).toNat
    match s.paramBlock (s.rs a) with
      | .error e => .error e
      | .ok (t, blk) =>
        let own := lowest ([(100, bit (blk.e != 4)), (103, blk.cvt)] ++ blk.bytesAt 112 16)
        match ((blk.put 112 8 0).checkFar s).orElse fun _ => own with
        | some off => .error (.trap causeParam off)
        | none => .ok (t.enqueue q { t.newCmd (.xred (fin 4 x.imm.toNat)) blk x with far := BitVec.ofNat 8 far } x)
def execXred (q : Fin 4) (a b : Fin 64) (s : State) : Out := s.seq 1 (s.xred q a b XE.none)
def execXredL (q : Fin 4) (a b : Fin 64) (x : XE) (s : State) : Out := s.seq 2 (s.xred q a b x)

/-! ## HALO (R434, R435) -/
/-- The halo descriptor. -/
abbrev HaloDesc := BitVec 512
/-- Side i of N, S, W and E: enabled, its width, its neighbour and the remote address of its strip. -/
def HaloDesc.on (h : HaloDesc) (i : Nat) : Bool := fld h 1 1 / 2 ^ i % 2 == 1
def HaloDesc.width (h : HaloDesc) (i : Nat) : Nat := fld h (2 + i) 1
def HaloDesc.pkg (h : HaloDesc) (i : Nat) : BitVec 8 := BitVec.ofNat 8 (fld h (6 + i) 1)
def HaloDesc.remote (h : HaloDesc) (i : Nat) : Nat := fld h (32 + 8 * i) 8
def HaloDesc.row0 (h : HaloDesc) : Nat := fld h 12 4
def HaloDesc.col0 (h : HaloDesc) : Nat := fld h 16 4
def HaloDesc.ph (h : HaloDesc) : Nat := fld h 20 4
def HaloDesc.pwid (h : HaloDesc) : Nat := fld h 24 4
/-- A tensor type that HALO accepts: 8, 16 or 32 bits, and no N type. -/
def haloTy (t : Nat) : Bool := (Ty.dec t).bits ≥ 8 && !planar (Ty.dec t) && decide (t < 16)
/-- The lowest offending byte of a halo descriptor. -/
def HaloDesc.check (h : HaloDesc) (d : Desc) : Option Nat :=
  let side := fun (i : Nat) =>
    let w := h.width i
    let most := Nat.min 64 (if i < 2 then h.ph else h.pwid)
    (2 + i, bit (if h.on i then decide (w = 0 ∨ most < w) else w != 0))
  lowest ([(0, bit (!haloTy d.ty)), (1, fld h 1 1 / 16), (10, fld h 10 1 / 128), (12, bit (decide (d.rows < h.row0 + h.ph))),
    (16, bit (decide (d.cols < h.col0 + h.pwid)))] ++ (List.range 4).map side ++ (List.range 4).map fun i => (28 + i, fld h (28 + i) 1))
/-- The block that sends one strip: rows and columns of the side, to RB with the local strides (R435). -/
def HaloDesc.strip (h : HaloDesc) (d : Desc) (i : Nat) : Block :=
  let w := d.elem.bits / 8
  let n := h.width i
  let rows := if i < 2 then n else h.ph
  let cols := if i < 2 then h.pwid else n
  let row := h.row0 + (if i = 1 then h.ph - n else 0)
  let col := h.col0 + (if i = 3 then h.pwid - n else 0)
  let at_ := fun (off v : Nat) => v * 2 ^ (8 * off)
  let sem := fld h 10 1
  BitVec.ofNat 1024 ((d.base + row * d.rstr + col * w) % 2 ^ 64 + at_ 8 (h.remote i) + at_ 16 cols + at_ 20 rows + at_ 24 1 + at_ 28 1
    + at_ 32 1 + at_ 36 1 + at_ 40 w + at_ 45 d.rstr + at_ 70 w + at_ 75 d.rstr + at_ 100 (Nat.log2 w)
    + (if sem / 64 % 2 = 1 then at_ 105 (sem % 64 + 64 + 128) + at_ 107 1 else 0) + at_ 106 (fld h 11 1))
def State.halo (s : State) (q : Fin 4) (a : Fin 64) (x : XE) : Res State :=
  match s.queueGate q x with
  | .error e => .error e
  | .ok s => match s.blockLoad (s.rs a).toNat 64 64 (s.free 64 4).toNat with
    | .error e => .error e
    | .ok v =>
      let h : HaloDesc := BitVec.ofNat 512 v
      match s.descOf (fld h 0 1) with
      | .error e => .error e
      | .ok (t, d) =>
        let reason := if d.role = 0 ∨ 3 < d.role then some 1 else d.formReason d.role
        match reason, h.check d with
        | some r, _ => tensorTrap (fld h 0 1) r
        | none, some off => .error (.trap causeParam off)
        | none, none =>
          let strips := ((List.range 4).filter h.on).map fun i => (h.pkg i, h.strip d i)
          .ok (t.enqueue q { t.newCmd .halo 0 x with
            extra := strips, total := strips.foldl (fun n p => n + Block.total p.2) 0 } x)
def execHalo (q : Fin 4) (a : Fin 64) (s : State) : Out := s.seq 1 (s.halo q a XE.none)
def execHaloL (q : Fin 4) (a : Fin 64) (x : XE) (s : State) : Out := s.seq 2 (s.halo q a x)

/-! ## XSIG (R436, R437) -/
/-- The increment is a release; td completes when the far package has applied it, or at once as FAULTED when the
package is not reached or a consumed token is FAULTED (R295). -/
def State.xsig (s : State) (sem : Fin 64) (a : Fin 64) (x : XE) : Res State :=
  match s.engGate x with
  | .error e => .error e
  | .ok s =>
    let v := (s.rs a).toNat
    match s.pendingOf x with
    | t :: _ => .error (.wait (.token t))
    | [] =>
    if v / 2 ^ 16 ≠ 0 then .error (.trap causeParam v)
    else if (s.faultedOf x).isSome then
      .ok ((s.produce x).finishToken s.curS x.td (some (BitVec.ofNat 8 causeToken)))
    else match s.released with
      | .error e => .error e
      | .ok s =>
        let s := (s.escape).produce x
        let pkg := BitVec.ofNat 8 v
        match peerOf s pkg with
        | none => .ok (s.finishToken s.curS x.td (some (BitVec.ofNat 8 causeProtection)))
        | some ctx =>
          if !s.reaches pkg then .ok (s.finishToken s.curS x.td (some (BitVec.ofNat 8 causeProtection)))
          else
            let id := s.dev.fab.nextMsg
            let s := s.modFab fun f => { f with nextMsg := f.nextMsg + 1 }
            let s := s.modBank fun b => { b with sigs := b.sigs ++ [⟨id, s.curS, x.td, b.taskId⟩] }
            .ok (s.sendFar id pkg 0 (.incr ctx (fin 256 (v / 2 ^ 8)) sem (countOf x)))
def execXsig (sem : Fin 64) (a : Fin 64) (s : State) : Out := s.seq 1 (s.xsig sem a XE.none)
def execXsigL (sem : Fin 64) (a : Fin 64) (x : XE) (s : State) : Out := s.seq 2 (s.xsig sem a x)

end Sys2Proof.Machine
end

