-- ==== Sys2Proof/Machine/Random.lean ====
section
/-! DEFINITION. The random generator (R407 to R409), its samples (R419 to R421) and the meanings of the random-number
instructions (R416 to R422). -/
namespace Sys2Proof.Machine

/-! ## The generator -/
abbrev Cha16 := Vector (BitVec 32) 16
/-- The quarter round of RFC 8439 (R407). -/
def quarter (y : Cha16) (a b c d : Fin 16) : Cha16 :=
  let y := y.set a (y[a] + y[b]); let y := y.set d ((y[d] ^^^ y[a]).rotateLeft 16)
  let y := y.set c (y[c] + y[d]); let y := y.set b ((y[b] ^^^ y[c]).rotateLeft 12)
  let y := y.set a (y[a] + y[b]); let y := y.set d ((y[d] ^^^ y[a]).rotateLeft 8)
  let y := y.set c (y[c] + y[d]); y.set b ((y[b] ^^^ y[c]).rotateLeft 7)
/-- A column round and a diagonal round. -/
def doubleRound (y : Cha16) : Cha16 :=
  let y := quarter (quarter (quarter (quarter y 0 4 8 12) 1 5 9 13) 2 6 10 14) 3 7 11 15
  quarter (quarter (quarter (quarter y 0 5 10 15) 1 6 11 12) 2 7 8 13) 3 4 9 14
/-- Word j of the seed, its byte 0 lowest (R407). -/
def seedWord (seed : BitVec 256) (j : Nat) : BitVec 32 := seed.extractLsb' (32 * j) 32
/-- Block(key, w12, w13, w14, w15) of R407 as a number of 512 bits (R407). -/
def chacha (seed : BitVec 256) (w12 w13 w14 w15 : BitVec 32) : Nat :=
  let x : Cha16 := #v[0x61707865, 0x3320646E, 0x79622D32, 0x6B206574,
    seedWord seed 0, seedWord seed 1, seedWord seed 2, seedWord seed 3,
    seedWord seed 4, seedWord seed 5, seedWord seed 6, seedWord seed 7, w12, w13, w14, w15]
  let y := doubleRound (doubleRound (doubleRound (doubleRound x)))
  pack 32 16 fun j => (x[Fin.ofNat 16 j] + y[Fin.ofNat 16 j]).toNat
/-- STEP of the logical index (R413). -/
def State.rngStep (s : State) : BitVec 32 :=
  if s.strand.rngix.getLsbD 40 then s.strand.rngstep.setWidth 32 else (match s.bank.task with | some t => t.step.setWidth 32 | none => 0)
/-- Cha16 E of the strand's stream (R408). -/
def State.block (s : State) (e : Nat) : Nat :=
  chacha s.bank.seed (BitVec.ofNat 32 e) (BitVec.ofNat 32 (e / 2 ^ 32 % 2 ^ 24 + s.strand.rngix.toNat / 2 ^ 32 % 256 * 2 ^ 24))
    s.rngStep (s.strand.rngix.setWidth 32)
/-- Draw D (R409). -/
def State.draw (s : State) (d : Nat) : Nat := pack 512 8 fun b => s.block (8 * d + b)

/-! ## NORM and GUMB (R420, R421) -/
/-- Interp of R421. -/
def interp (va vb f : Nat) : Nat :=
  let a := Num.read .f32 va
  Num.round Num.rne .f32 (Num.add .rne a (Num.mul (.fin false f (-20)) (Num.sub .rne (Num.read .f32 vb) a)))
/-- The tables of a construction: level 0, then entry j of a level and side. -/
structure Construction where
  p    : Nat → Nat
  tail : Bool → Nat → Nat → Nat
/-- Φ⁻¹: an upper entry is the negation of the lower one (R420). -/
def norm : Construction where
  p := Tables.get Tables.normP
  tail := fun upper l j =>
    let x := Tables.get (match l with | 1 => Tables.norm1 | 2 => Tables.norm2 | _ => Tables.norm3) j
    if upper then (x + 2 ^ 31) % 2 ^ 32 else x
/-- −ln(−ln u) (R420). -/
def gumb : Construction where
  p := Tables.get Tables.gumbP
  tail := fun upper l j =>
    Tables.get (match upper, l with
      | false, 1 => Tables.gumbL1 | false, 2 => Tables.gumbL2 | false, _ => Tables.gumbL3
      | true, 1 => Tables.gumbU1 | true, 2 => Tables.gumbU2 | true, _ => Tables.gumbU3) j
/-- The levels of a tail from level L on; `q` is the refinement block (R421). -/
def tailGo (c : Construction) (upper : Bool) (q : Nat) : Nat → Nat → Nat
  | 0, _ => 0
  | fuel + 1, l =>
    let w := q / 2 ^ (32 * (l - 1)) % 2 ^ 32
    let j := w / 2 ^ 20
    if j ≠ 0 ∨ l = 3 then interp (c.tail upper l j) (c.tail upper l (j + 1)) (w % 2 ^ 20) else tailGo c upper q fuel (l + 1)
/-- Sample(i) of R421 for the bits r of result i; `q` is the refinement block of that result. -/
def sample (c : Construction) (r q : Nat) : Nat :=
  let j := r / 2 ^ 20
  if 1 ≤ j ∧ j ≤ 4094 then interp (c.p j) (c.p (j + 1)) (r % 2 ^ 20) else tailGo c (j != 0) q 3 1
/-- Result i of draw D (R409, R418, R421). -/
def State.sampleAt (s : State) (c : Construction) (d draw i : Nat) : Nat :=
  sample c (draw / 2 ^ (32 * i) % 2 ^ 32) (s.block (2 ^ 55 + 128 * d + i))

/-! ## The meanings -/
/-- RNGKEY: a plain load of 32 bytes, aligned to 32 (R416). -/
def execRngkey (a : Fin 64) (s : State) : Out :=
  match s.load (s.rs a) 32 32 XM.none with
  | .ok v => .next ((s.clearFence.modBank fun b => { b with seed := BitVec.ofNat 256 v }).retire 1)
  | .error e => s.stop e
/-- An RNG or VGMAX whose D has a bit set in [63:48] raises PARAM (R418). -/
def State.withDraw (s : State) (r : Fin 64) (k : Nat → Out) : Out :=
  let d := (s.rs r).toNat
  if 2 ^ 48 ≤ d then .next (s.takeTrap causeParam d) else k d
def State.rngBits (s : State) (n : Nat) (f : VF) (x : XA) : Out :=
  s.withDraw x.sc fun d =>
    let draw := BitVec.ofNat 4096 (s.draw d)
    s.vecOp n f [] false fun _ i => lane f.ty.bits draw i
def execRngBits (f : VF) (s : State) : Out := s.rngBits 1 f XA.zero
def execRngBitsL (f : VF) (x : XA) (s : State) : Out := s.rngBits 2 f x
def execRngUni (f : VF) (x : XA) (s : State) : Out :=
  s.withDraw x.sc fun d =>
    let draw := s.draw d
    s.vecOp 2 f [] false fun _ i => Num.round Num.rne .f32 (.fin false (draw / 2 ^ (32 * i + 8) % 2 ^ 24) (-24))
def execRngNorm (f : VF) (x : XA) (s : State) : Out :=
  s.withDraw x.sc fun d =>
    let draw := s.draw d
    s.vecOp 2 f [] false fun _ i => s.sampleAt norm d draw i
def execRngGumb (f : VF) (x : XA) (s : State) : Out :=
  s.withDraw x.sc fun d =>
    let draw := s.draw d
    s.vecOp 2 f [] false fun _ i => s.sampleAt gumb d draw i
/-- DROP writes a mask; masked-off bits are cleared (R203, R419). -/
def execRngDrop (f : VF) (x : XA) (s : State) : Out :=
  s.withDraw x.sc fun d =>
    let b := f.ty.bits
    let draw := s.draw d
    let r := pack 1 f.ty.elems fun i =>
      bit (s.masked f.k f.ty i && decide (draw / 2 ^ (b * i) % 2 ^ b * 2 ^ (32 - b) < s.strand.rngq.toNat))
    .next ((s.setK (fin 8 f.vd.val) (BitVec.ofNat 1024 r)).retire 2)
/-- VGMAX (R422). -/
def State.vGmax (s : State) (n : Nat) (f : VF) (x : XA) : Out :=
  s.withDraw x.sc fun d =>
    match s.vecIn [f.va, f.vb] (some f.vd) false [] with
    | .error e => s.stop e
    | .ok io =>
      let draw := s.draw d
      let z := (List.range 128).map fun i =>
        if io.s.masked f.k .f32 i then
          some (Num.arith Num.rne .f32 fmaF (lane 32 (io.v f.vb) i) (s.sampleAt gumb d draw i) (lane 32 (io.v f.va) i))
        else none
      .next ((io.write f.vd (BitVec.ofNat 4096 (reduce Num.rne .f32 3 z))).retire n)
def execVgmax (f : VF) (s : State) : Out := s.vGmax 1 f XA.zero
def execVgmaxL (f : VF) (x : XA) (s : State) : Out := s.vGmax 2 f x

end Sys2Proof.Machine
end

