-- ==== Sys2Proof/Machine/Dispatch.lean ====
section
/-! DEFINITION. One arm per constructor of Instr: the meaning it calls. -/
namespace Sys2Proof.Machine
open Sys2Proof

/-- The effect of an instruction or event: an instruction acts on strand `curS` of core `cur` (log 1). -/
def exec (i : Instr) (s : State) : Host.Outcome State Fault Refusal :=
  match i with
  | .add d a b => Sys2Proof.Machine.execAdd d a b s
  | .sub d a b => Sys2Proof.Machine.execSub d a b s
  | .and d a b => Sys2Proof.Machine.execAnd d a b s
  | .or d a b => Sys2Proof.Machine.execOr d a b s
  | .xor d a b => Sys2Proof.Machine.execXor d a b s
  | .shl d a b => Sys2Proof.Machine.execShl d a b s
  | .shr d a b => Sys2Proof.Machine.execShr d a b s
  | .sar d a b => Sys2Proof.Machine.execSar d a b s
  | .min d a b => Sys2Proof.Machine.execMin d a b s
  | .mins d a b => Sys2Proof.Machine.execMins d a b s
  | .max d a b => Sys2Proof.Machine.execMax d a b s
  | .maxs d a b => Sys2Proof.Machine.execMaxs d a b s
  | .slt d a b => Sys2Proof.Machine.execSlt d a b s
  | .slts d a b => Sys2Proof.Machine.execSlts d a b s
  | .seq d a b => Sys2Proof.Machine.execSeq d a b s
  | .sne d a b => Sys2Proof.Machine.execSne d a b s
  | .mul d a b => Sys2Proof.Machine.execMul d a b s
  | .mulhi d a b => Sys2Proof.Machine.execMulhi d a b s
  | .mulhis d a b => Sys2Proof.Machine.execMulhis d a b s
  | .div d a b => Sys2Proof.Machine.execDiv d a b s
  | .divs d a b => Sys2Proof.Machine.execDivs d a b s
  | .rem d a b => Sys2Proof.Machine.execRem d a b s
  | .rems d a b => Sys2Proof.Machine.execRems d a b s
  | .andn d a b => Sys2Proof.Machine.execAndn d a b s
  | .orn d a b => Sys2Proof.Machine.execOrn d a b s
  | .clz d a => Sys2Proof.Machine.execClz d a s
  | .ctz d a => Sys2Proof.Machine.execCtz d a s
  | .popc d a => Sys2Proof.Machine.execPopc d a s
  | .sextB d a => Sys2Proof.Machine.execSextB d a s
  | .sextH d a => Sys2Proof.Machine.execSextH d a s
  | .sextW d a => Sys2Proof.Machine.execSextW d a s
  | .zextB d a => Sys2Proof.Machine.execZextB d a s
  | .zextH d a => Sys2Proof.Machine.execZextH d a s
  | .zextW d a => Sys2Proof.Machine.execZextW d a s
  | .brev d a => Sys2Proof.Machine.execBrev d a s
  | .bswap d a => Sys2Proof.Machine.execBswap d a s
  | .addi d a imm => Sys2Proof.Machine.execAddi d a imm s
  | .addiL d a imm => Sys2Proof.Machine.execAddiL d a imm s
  | .andi d a imm => Sys2Proof.Machine.execAndi d a imm s
  | .andiL d a imm => Sys2Proof.Machine.execAndiL d a imm s
  | .ori d a imm => Sys2Proof.Machine.execOri d a imm s
  | .oriL d a imm => Sys2Proof.Machine.execOriL d a imm s
  | .xori d a imm => Sys2Proof.Machine.execXori d a imm s
  | .xoriL d a imm => Sys2Proof.Machine.execXoriL d a imm s
  | .slti d a imm => Sys2Proof.Machine.execSlti d a imm s
  | .sltiL d a imm => Sys2Proof.Machine.execSltiL d a imm s
  | .shli d a amt => Sys2Proof.Machine.execShli d a amt s
  | .shri d a amt => Sys2Proof.Machine.execShri d a amt s
  | .sari d a amt => Sys2Proof.Machine.execSari d a amt s
  | .roli d a amt => Sys2Proof.Machine.execRoli d a amt s
  | .li d imm => Sys2Proof.Machine.execLi d imm s
  | .lih d a imm => Sys2Proof.Machine.execLih d a imm s
  | .lihL d a imm => Sys2Proof.Machine.execLihL d a imm s
  | .addpc d off => Sys2Proof.Machine.execAddpc d off s
  | .addpcL d off => Sys2Proof.Machine.execAddpcL d off s
  | .bfx d a pos wm1 => Sys2Proof.Machine.execBfx d a pos wm1 s
  | .bfxs d a pos wm1 => Sys2Proof.Machine.execBfxs d a pos wm1 s
  | .bfi d a pos wm1 => Sys2Proof.Machine.execBfi d a pos wm1 s
  | .sel d c a b => Sys2Proof.Machine.execSel d c a b s
  | .fadd d a b => Sys2Proof.Machine.execFadd d a b s
  | .faddL d a b rnd => Sys2Proof.Machine.execFaddL d a b rnd s
  | .fsub d a b => Sys2Proof.Machine.execFsub d a b s
  | .fsubL d a b rnd => Sys2Proof.Machine.execFsubL d a b rnd s
  | .fmul d a b => Sys2Proof.Machine.execFmul d a b s
  | .fmulL d a b rnd => Sys2Proof.Machine.execFmulL d a b rnd s
  | .fmin d a b long => Sys2Proof.Machine.execFmin d a b long s
  | .fmax d a b long => Sys2Proof.Machine.execFmax d a b long s
  | .feq d a b long => Sys2Proof.Machine.execFeq d a b long s
  | .flt d a b long => Sys2Proof.Machine.execFlt d a b long s
  | .fle d a b long => Sys2Proof.Machine.execFle d a b long s
  | .fcvtF32I64 d a => Sys2Proof.Machine.execFcvtF32I64 d a s
  | .fcvtF32I64L d a rnd => Sys2Proof.Machine.execFcvtF32I64L d a rnd s
  | .fcvtI64F32 d a => Sys2Proof.Machine.execFcvtI64F32 d a s
  | .fcvtI64F32L d a rnd => Sys2Proof.Machine.execFcvtI64F32L d a rnd s
  | .ffma d a b c rnd => Sys2Proof.Machine.execFfma d a b c rnd s
  | .fabs d a long => Sys2Proof.Machine.execFabs d a long s
  | .fneg d a long => Sys2Proof.Machine.execFneg d a long s
  | .beq a b off => Sys2Proof.Machine.execBeq a b off s
  | .bne a b off => Sys2Proof.Machine.execBne a b off s
  | .blt a b off => Sys2Proof.Machine.execBlt a b off s
  | .bge a b off => Sys2Proof.Machine.execBge a b off s
  | .blts a b off => Sys2Proof.Machine.execBlts a b off s
  | .bges a b off => Sys2Proof.Machine.execBges a b off s
  | .beqL a b off => Sys2Proof.Machine.execBeqL a b off s
  | .bneL a b off => Sys2Proof.Machine.execBneL a b off s
  | .bltL a b off => Sys2Proof.Machine.execBltL a b off s
  | .bgeL a b off => Sys2Proof.Machine.execBgeL a b off s
  | .bltsL a b off => Sys2Proof.Machine.execBltsL a b off s
  | .bgesL a b off => Sys2Proof.Machine.execBgesL a b off s
  | .jal d off => Sys2Proof.Machine.execJal d off s
  | .jalL d off => Sys2Proof.Machine.execJalL d off s
  | .jalr d a imm => Sys2Proof.Machine.execJalr d a imm s
  | .loop lc a len => Sys2Proof.Machine.execLoop lc a len s
  | .bqpush a => Sys2Proof.Machine.execBqpush a s
  | .bqb off => Sys2Proof.Machine.execBqb off s
  | .bqbL off => Sys2Proof.Machine.execBqbL off s
  | .ldD d a disp => Sys2Proof.Machine.execLdD d a disp s
  | .ldDL d a x => Sys2Proof.Machine.execLdDL d a x s
  | .ldW d a disp => Sys2Proof.Machine.execLdW d a disp s
  | .ldWL d a x => Sys2Proof.Machine.execLdWL d a x s
  | .stD d a disp => Sys2Proof.Machine.execStD d a disp s
  | .stDL d a x => Sys2Proof.Machine.execStDL d a x s
  | .stW d a disp => Sys2Proof.Machine.execStW d a disp s
  | .stWL d a x => Sys2Proof.Machine.execStWL d a x s
  | .ldx d a w sx x => Sys2Proof.Machine.execLdx d a w sx x s
  | .stx d a w x => Sys2Proof.Machine.execStx d a w x s
  | .ldv vd a disp => Sys2Proof.Machine.execLdv vd a disp s
  | .ldvL vd a x => Sys2Proof.Machine.execLdvL vd a x s
  | .stv vd a disp => Sys2Proof.Machine.execStv vd a disp s
  | .stvL vd a x => Sys2Proof.Machine.execStvL vd a x s
  | .atomAdd d a b => Sys2Proof.Machine.execAtomAdd d a b s
  | .atomAnd d a b => Sys2Proof.Machine.execAtomAnd d a b s
  | .atomOr d a b => Sys2Proof.Machine.execAtomOr d a b s
  | .atomXor d a b => Sys2Proof.Machine.execAtomXor d a b s
  | .atomMin d a b => Sys2Proof.Machine.execAtomMin d a b s
  | .atomMins d a b => Sys2Proof.Machine.execAtomMins d a b s
  | .atomMax d a b => Sys2Proof.Machine.execAtomMax d a b s
  | .atomMaxs d a b => Sys2Proof.Machine.execAtomMaxs d a b s
  | .atomSwap d a b => Sys2Proof.Machine.execAtomSwap d a b s
  | .atomFadd32 d a b => Sys2Proof.Machine.execAtomFadd32 d a b s
  | .atomCas d a b => Sys2Proof.Machine.execAtomCas d a b s
  | .atomL op d a b x => Sys2Proof.Machine.execAtomL op d a b x s
  | .fence scope => Sys2Proof.Machine.execFence scope s
  | .fenceAcq scope => Sys2Proof.Machine.execFenceAcq scope s
  | .fenceRel scope => Sys2Proof.Machine.execFenceRel scope s
  | .fenceEng => Sys2Proof.Machine.execFenceEng s
  | .fetchb => Sys2Proof.Machine.execFetchb s
  | .rpass a b => Sys2Proof.Machine.execRpass a b s
  | .rshare a => Sys2Proof.Machine.execRshare a s
  | .rquery d a => Sys2Proof.Machine.execRquery d a s
  | .dcwb a => Sys2Proof.Machine.execDcwb a s
  | .dcwbi a => Sys2Proof.Machine.execDcwbi a s
  | .dcinv a => Sys2Proof.Machine.execDcinv a s
  | .icinv a => Sys2Proof.Machine.execIcinv a s
  | .icinva => Sys2Proof.Machine.execIcinva s
  | .pref a hint => Sys2Proof.Machine.execPref a hint s
  | .pbinv a => Sys2Proof.Machine.execPbinv a s
  | .publ a => Sys2Proof.Machine.execPubl a s
  | .vadd f => Sys2Proof.Machine.execVadd f s
  | .vaddL f x => Sys2Proof.Machine.execVaddL f x s
  | .vsub f => Sys2Proof.Machine.execVsub f s
  | .vsubL f x => Sys2Proof.Machine.execVsubL f x s
  | .vmul f => Sys2Proof.Machine.execVmul f s
  | .vmulL f x => Sys2Proof.Machine.execVmulL f x s
  | .vfma f => Sys2Proof.Machine.execVfma f s
  | .vfmaL f x => Sys2Proof.Machine.execVfmaL f x s
  | .vfnma f => Sys2Proof.Machine.execVfnma f s
  | .vfnmaL f x => Sys2Proof.Machine.execVfnmaL f x s
  | .vmin f => Sys2Proof.Machine.execVmin f s
  | .vminL f x => Sys2Proof.Machine.execVminL f x s
  | .vmax f => Sys2Proof.Machine.execVmax f s
  | .vmaxL f x => Sys2Proof.Machine.execVmaxL f x s
  | .vabs f => Sys2Proof.Machine.execVabs f s
  | .vabsL f x => Sys2Proof.Machine.execVabsL f x s
  | .vneg f => Sys2Proof.Machine.execVneg f s
  | .vnegL f x => Sys2Proof.Machine.execVnegL f x s
  | .vlogic f => Sys2Proof.Machine.execVlogic f s
  | .vlogicL f x => Sys2Proof.Machine.execVlogicL f x s
  | .vshift f => Sys2Proof.Machine.execVshift f s
  | .vshiftL f x => Sys2Proof.Machine.execVshiftL f x s
  | .vcmp f => Sys2Proof.Machine.execVcmp f s
  | .vcmpL f x => Sys2Proof.Machine.execVcmpL f x s
  | .vsel f => Sys2Proof.Machine.execVsel f s
  | .vselL f x => Sys2Proof.Machine.execVselL f x s
  | .vmulw f x => Sys2Proof.Machine.execVmulw f x s
  | .vaddw f x => Sys2Proof.Machine.execVaddw f x s
  | .vdiv f => Sys2Proof.Machine.execVdiv f s
  | .vdivL f x => Sys2Proof.Machine.execVdivL f x s
  | .vsqrt f => Sys2Proof.Machine.execVsqrt f s
  | .vsqrtL f x => Sys2Proof.Machine.execVsqrtL f x s
  | .vapprox f => Sys2Proof.Machine.execVapprox f s
  | .vapproxL f x => Sys2Proof.Machine.execVapproxL f x s
  | .vred f => Sys2Proof.Machine.execVred f s
  | .vredL f x => Sys2Proof.Machine.execVredL f x s
  | .vbcast f => Sys2Proof.Machine.execVbcast f s
  | .vbcastL f x => Sys2Proof.Machine.execVbcastL f x s
  | .vbcastImm f imm => Sys2Proof.Machine.execVbcastImm f imm s
  | .vext f x => Sys2Proof.Machine.execVext f x s
  | .vins f x => Sys2Proof.Machine.execVins f x s
  | .vperm f => Sys2Proof.Machine.execVperm f s
  | .vpermL f x => Sys2Proof.Machine.execVpermL f x s
  | .vslide f x => Sys2Proof.Machine.execVslide f x s
  | .vpack f x => Sys2Proof.Machine.execVpack f x s
  | .vunpk f x => Sys2Proof.Machine.execVunpk f x s
  | .vcvt f => Sys2Proof.Machine.execVcvt f s
  | .vcvtL f x => Sys2Proof.Machine.execVcvtL f x s
  | .vqnt f x => Sys2Proof.Machine.execVqnt f x s
  | .vplane f => Sys2Proof.Machine.execVplane f s
  | .vplaneL f x => Sys2Proof.Machine.execVplaneL f x s
  | .trw f x => Sys2Proof.Machine.execTrw f x s
  | .trc f x => Sys2Proof.Machine.execTrc f x s
  | .strmap a b => Sys2Proof.Machine.execStrmap a b s
  | .vmov f => Sys2Proof.Machine.execVmov f s
  | .vmovL f x => Sys2Proof.Machine.execVmovL f x s
  | .viota f => Sys2Proof.Machine.execViota f s
  | .viotaL f x => Sys2Proof.Machine.execViotaL f x s
  | .vclamp f x => Sys2Proof.Machine.execVclamp f x s
  | .tdset a b => Sys2Proof.Machine.execTdset a b s
  | .tdsetL a b x => Sys2Proof.Machine.execTdsetL a b x s
  | .tdget d a b long => Sys2Proof.Machine.execTdget d a b long s
  | .mcfg a => Sys2Proof.Machine.execMcfg a s
  | .mcfgL a x => Sys2Proof.Machine.execMcfgL a x s
  | .mcfgr d b long => Sys2Proof.Machine.execMcfgr d b long s
  | .mldb a b => Sys2Proof.Machine.execMldb a b s
  | .mldbL a b x => Sys2Proof.Machine.execMldbL a b x s
  | .mgo => Sys2Proof.Machine.execMgo s
  | .mgoL x => Sys2Proof.Machine.execMgoL x s
  | .mzero long => Sys2Proof.Machine.execMzero long s
  | .mrd vd a long => Sys2Proof.Machine.execMrd vd a long s
  | .mwr vd a long => Sys2Proof.Machine.execMwr vd a long s
  | .mstat d a long => Sys2Proof.Machine.execMstat d a long s
  | .mchk a long => Sys2Proof.Machine.execMchk a long s
  | .mabort long => Sys2Proof.Machine.execMabort long s
  | .cpy q a => Sys2Proof.Machine.execCpy q a s
  | .cpyL q a x => Sys2Proof.Machine.execCpyL q a x s
  | .cpys q d a b => Sys2Proof.Machine.execCpys q d a b s
  | .cpysL q d a b x => Sys2Proof.Machine.execCpysL q d a b x s
  | .gath q a => Sys2Proof.Machine.execGath q a s
  | .gathL q a x => Sys2Proof.Machine.execGathL q a x s
  | .scat q a => Sys2Proof.Machine.execScat q a s
  | .scatL q a x => Sys2Proof.Machine.execScatL q a x s
  | .fill q a => Sys2Proof.Machine.execFill q a s
  | .fillL q a x => Sys2Proof.Machine.execFillL q a x s
  | .qsemw q sem => Sys2Proof.Machine.execQsemw q sem s
  | .qsemwL q sem x => Sys2Proof.Machine.execQsemwL q sem x s
  | .qflush q => Sys2Proof.Machine.execQflush q s
  | .qdrain q => Sys2Proof.Machine.execQdrain q s
  | .qstat q d => Sys2Proof.Machine.execQstat q d s
  | .qws q d => Sys2Proof.Machine.execQws q d s
  | .twait x => Sys2Proof.Machine.execTwait x s
  | .ttest d ta => Sys2Proof.Machine.execTtest d ta s
  | .semacq sem => Sys2Proof.Machine.execSemacq sem s
  | .semacqL sem x => Sys2Proof.Machine.execSemacqL sem x s
  | .semrel sem a => Sys2Proof.Machine.execSemrel sem a s
  | .semrelL sem a x => Sys2Proof.Machine.execSemrelL sem a x s
  | .semrd d sem x => Sys2Proof.Machine.execSemrd d sem x s
  | .semset sem a x => Sys2Proof.Machine.execSemset sem a x s
  | .barcfg b a x => Sys2Proof.Machine.execBarcfg b a x s
  | .bararr b a x => Sys2Proof.Machine.execBararr b a x s
  | .barwait b a x => Sys2Proof.Machine.execBarwait b a x s
  | .barsync b a x => Sys2Proof.Machine.execBarsync b a x s
  | .bartest b d a x => Sys2Proof.Machine.execBartest b d a x s
  | .tend => Sys2Proof.Machine.execTend s
  | .tself d w => Sys2Proof.Machine.execTself d w s
  | .ldlr d n => Sys2Proof.Machine.execLdlr d n s
  | .tspawn a b => Sys2Proof.Machine.execTspawn a b s
  | .tabort a => Sys2Proof.Machine.execTabort a s
  | .reuseQuery d => Sys2Proof.Machine.execReuseQuery d s
  | .reuseAnchor => Sys2Proof.Machine.execReuseAnchor s
  | .reuseDrop => Sys2Proof.Machine.execReuseDrop s
  | .tmark a b => Sys2Proof.Machine.execTmark a b s
  | .tyield d => Sys2Proof.Machine.execTyield d s
  | .rngkey a => Sys2Proof.Machine.execRngkey a s
  | .rngBits f => Sys2Proof.Machine.execRngBits f s
  | .rngBitsL f x => Sys2Proof.Machine.execRngBitsL f x s
  | .rngUni f x => Sys2Proof.Machine.execRngUni f x s
  | .rngNorm f x => Sys2Proof.Machine.execRngNorm f x s
  | .rngGumb f x => Sys2Proof.Machine.execRngGumb f x s
  | .rngDrop f x => Sys2Proof.Machine.execRngDrop f x s
  | .vgmax f => Sys2Proof.Machine.execVgmax f s
  | .vgmaxL f x => Sys2Proof.Machine.execVgmaxL f x s
  | .xcpy q a b => Sys2Proof.Machine.execXcpy q a b s
  | .xcpyL q a b x => Sys2Proof.Machine.execXcpyL q a b x s
  | .halo q a => Sys2Proof.Machine.execHalo q a s
  | .haloL q a x => Sys2Proof.Machine.execHaloL q a x s
  | .xred q a b => Sys2Proof.Machine.execXred q a b s
  | .xredL q a b x => Sys2Proof.Machine.execXredL q a b x s
  | .xsig sem a => Sys2Proof.Machine.execXsig sem a s
  | .xsigL sem a x => Sys2Proof.Machine.execXsigL sem a x s
  | .trap code a => Sys2Proof.Machine.execTrap code a s
  | .eretRerun => Sys2Proof.Machine.execEretRerun s
  | .eretAbort => Sys2Proof.Machine.execEretAbort s
  | .eretResume => Sys2Proof.Machine.execEretResume s
  | .csrr d csr => Sys2Proof.Machine.execCsrr d csr s
  | .csrw d a csr => Sys2Proof.Machine.execCsrw d a csr s
  | .csrwSet d a csr => Sys2Proof.Machine.execCsrwSet d a csr s
  | .csrwClr d a csr => Sys2Proof.Machine.execCsrwClr d a csr s
  | .gear d g => Sys2Proof.Machine.execGear d g s
  | .time d src => Sys2Proof.Machine.execTime d src s
  | .strstart a b => Sys2Proof.Machine.execStrstart a b s
  | .strstop a => Sys2Proof.Machine.execStrstop a s
  | .wfe d => Sys2Proof.Machine.execWfe d s
  | .tlbinv a => Sys2Proof.Machine.execTlbinv a s
  | .brk a => Sys2Proof.Machine.execBrk a s
  | .ctxid d => Sys2Proof.Machine.execCtxid d s
  | .handlerEntry c => Sys2Proof.Machine.execHandlerEntry c s
  | .noticeDelivery c => Sys2Proof.Machine.execNoticeDelivery c s
  | .overrun c => Sys2Proof.Machine.execOverrun c s
  | .discard c => Sys2Proof.Machine.execDiscard c s
  | .powerOnReset => Sys2Proof.Machine.execPowerOnReset s
  | .check => Sys2Proof.Machine.execCheck s
  | .commit => Sys2Proof.Machine.execCommit s
  | .attest => Sys2Proof.Machine.execAttest s
  | .submit p v => Sys2Proof.Machine.execSubmit p v s
  | .launchStart p j => Sys2Proof.Machine.execLaunchStart p j s
  | .chaconneEvaluate p j n k inst => Sys2Proof.Machine.execChaconneEvaluate p j n k inst s
  | .taskPlacement p => Sys2Proof.Machine.execTaskPlacement p s
  | .shadowBankSwap c => Sys2Proof.Machine.execShadowBankSwap c s
  | .taskCommit c => Sys2Proof.Machine.execTaskCommit c s
  | .timeSliceExpiry p => Sys2Proof.Machine.execTimeSliceExpiry p s
  | .shadowFill c => Sys2Proof.Machine.execShadowFill c s
  | .galliardSpill c => Sys2Proof.Machine.execGalliardSpill c s
  | .spillResume c => Sys2Proof.Machine.execSpillResume c s
  | .nestStart c => Sys2Proof.Machine.execNestStart c s
  | .pass c => Sys2Proof.Machine.execPass c s
  | .drain c => Sys2Proof.Machine.execDrain c s
  | .bankLoad c => Sys2Proof.Machine.execBankLoad c s
  | .copyCommandStart c q => Sys2Proof.Machine.execCopyCommandStart c q s
  | .ringReserve c q => Sys2Proof.Machine.execRingReserve c q s
  | .copyRequestIssue c q => Sys2Proof.Machine.execCopyRequestIssue c q s
  | .copyCommandComplete c q => Sys2Proof.Machine.execCopyCommandComplete c q s
  | .readRequest m => Sys2Proof.Machine.execReadRequest m s
  | .write m => Sys2Proof.Machine.execWrite m s
  | .atomicOrOrderedAccess m => Sys2Proof.Machine.execAtomicOrOrderedAccess m s
  | .semaphoreIncrement m => Sys2Proof.Machine.execSemaphoreIncrement m s
  | .barrierArrival m => Sys2Proof.Machine.execBarrierArrival m s
  | .ringPush m => Sys2Proof.Machine.execRingPush m s
  | .controlSpaceAccess m => Sys2Proof.Machine.execControlSpaceAccess m s
  | .readAnswer m => Sys2Proof.Machine.execReadAnswer m s
  | .writeAcknowledgement m => Sys2Proof.Machine.execWriteAcknowledgement m s
  | .atomicAnswer m => Sys2Proof.Machine.execAtomicAnswer m s
  | .barrierRelease m => Sys2Proof.Machine.execBarrierRelease m s
  | .recordRelease c => Sys2Proof.Machine.execRecordRelease c s
  | .barrierDrop c => Sys2Proof.Machine.execBarrierDrop c s
  | .barrierReturn c => Sys2Proof.Machine.execBarrierReturn c s
  | .arbitrate plane => Sys2Proof.Machine.execArbitrate plane s
  | .admission m => Sys2Proof.Machine.execAdmission m s
  | .injectionRelief plane site => Sys2Proof.Machine.execInjectionRelief plane site s
  | .linkReplay plane site port => Sys2Proof.Machine.execLinkReplay plane site port s
  | .linkDead plane site port => Sys2Proof.Machine.execLinkDead plane site port s
  | .distanceTableLoad => Sys2Proof.Machine.execDistanceTableLoad s
  | .hbmFill line rh => Sys2Proof.Machine.execHbmFill line rh s
  | .tableWalk c va => Sys2Proof.Machine.execTableWalk c va s
  | .gearTransitionComplete c => Sys2Proof.Machine.execGearTransitionComplete c s
  | .activityWindowReset c => Sys2Proof.Machine.execActivityWindowReset c s
  | .controllerPeriod => Sys2Proof.Machine.execControllerPeriod s
  | .thermalLimitUpdate hot cool => Sys2Proof.Machine.execThermalLimitUpdate hot cool s
  | .thermalStop site temp => Sys2Proof.Machine.execThermalStop site temp s
  | .capMessage lo hi => Sys2Proof.Machine.execCapMessage lo hi s
  | .leaseExpiry => Sys2Proof.Machine.execLeaseExpiry s
  | .errorCount u uncorrectable => Sys2Proof.Machine.execErrorCount u uncorrectable s
  | .coreLeavesPartition c => Sys2Proof.Machine.execCoreLeavesPartition c s
  | .register p j => Sys2Proof.Machine.execRegister p j s
  | .unregister p j => Sys2Proof.Machine.execUnregister p j s
  | .resize c target => Sys2Proof.Machine.execResize c target s
  | .release c p => Sys2Proof.Machine.execRelease c p s
  | .hostWindowEntryWrite p w v => Sys2Proof.Machine.execHostWindowEntryWrite p w v s
  | .bar2Access fn off wr => Sys2Proof.Machine.execBar2Access fn off wr s
  | .hostRegisterWrite fn off v => Sys2Proof.Machine.execHostRegisterWrite fn off v s
  | .remoteAccess r => Sys2Proof.Machine.execRemoteAccess r s
  | .linkTraining id table up cmp => Sys2Proof.Machine.execLinkTraining id table up cmp s
  | .clockAlignment delta => Sys2Proof.Machine.execClockAlignment delta s
  | .ptmCorrection delta => Sys2Proof.Machine.execPtmCorrection delta s
  | .bq v => Sys2Proof.Machine.execBq v s
  | .age v => Sys2Proof.Machine.execAge v s
  | .rmode v => Sys2Proof.Machine.execRmode v s
  | .pgroot v => Sys2Proof.Machine.execPgroot v s
  | .tdtab v => Sys2Proof.Machine.execTdtab v s
  | .ringtab v => Sys2Proof.Machine.execRingtab v s
  | .qf q v => Sys2Proof.Machine.execQf q v s
  | .actctl v => Sys2Proof.Machine.execActctl v s
  | .telst v => Sys2Proof.Machine.execTelst v s
  | .zikinLinkFailure port => Sys2Proof.Machine.execZikinLinkFailure port s

end Sys2Proof.Machine
end

