-- ==== Sys2Proof/Machine/Traffic.lean ====
section
/-! DEFINITION. What an access brings about beside its values: lines in the slices (R152, R333), energy (R492, R493, R498), and messages of
Farandole (R316 to R318, R328, R336). An access is performed in the step in which it issues, and its messages are echoes: they cross the
fabric after it and change nothing where they arrive (log 11). -/
namespace Sys2Proof.Machine

/-! ## One access -/
/-- An access to HBM or a vault: its first key and its bytes, the KIND of its message, whether it writes, whether its answer carries the
bytes, its hint, SEL and NS of a compressed line that it moves, its strand and its task, and the context and the core that it is charged to. An
access that is `sent` has crossed the fabric as a message of its own. -/
structure Use where
  key    : Nat
  len    : Nat
  kind   : Nat
  write  : Bool
  back   : Bool
  rh     : BitVec 2
  form   : Nat × Nat
  strand : Option (Fin 4)
  task   : W64
  by_    : Option (BitVec 12)
  core   : Option (Fin 256)
  sent   : Bool
  deriving DecidableEq, Repr
/-- The core whose slice or vault is the home of a key (R16, R151). -/
def homeCore (key : Nat) : Fin 256 := if key < 2 ^ 48 then fin 256 (channelOf key) else fin 256 ((key - 2 ^ 48) / 2 ^ 24)
/-- An access reaches a line in its slice: the slice access, the transfer from HBM of a line that is not there, the line under its hint
(R152, R492), and what a write does to it (R333, R498). -/
def State.reach (s : State) (u : Use) (line : Nat) : State :=
  let s := (s.payMem u.by_ u.core (s.fillUnits line)).fillLine line u.rh
  if u.write then s.dirtyLine line u.by_ (if u.form.1 = 0 then none else some u.form) else s
/-- A range cut at multiples of b. -/
def cutRange (b : Nat) : Nat → Nat → Nat → List (Nat × Nat)
  | 0, _, _ => []
  | n + 1, key, len =>
    if len = 0 then []
    else
      let k := Nat.min len (b - key % b)
      (key, k) :: cutRange b n (key + k) (len - k)
/-- The parts of an access that one message each carries: within a granule of 512 bytes, which has one home, or 1 KiB of a vault, so
that no message has more than 16 flits (R151, R317, R328). -/
def Use.parts (u : Use) : List (Nat × Nat) := cutRange (if u.key < 2 ^ 48 then 512 else 1024) (u.len + 1) u.key u.len
/-- The payload for a range: its bytes, or the sectors of the form in which its line travels (R334, R336). -/
def State.payload (s : State) (key len : Nat) (form : Nat × Nat) : List Byte :=
  let bytes := (keysFrom key len).map s.rd
  if form.1 = 0 then bytes else (((codeLine bytes form.1).map (·.2)).getD bytes).take (32 * form.2)
/-- The parts of 32 bytes of a range that are poisoned (R317). -/
def State.poisParts (s : State) (key len : Nat) : List Nat :=
  distinct (((keysFrom key len).filter s.pois).map fun k => (k - key) / 32)
/-- The message of a part of an access whose home is another core (R316, R318). A read, or an access that leaves its bytes as they are,
carries no payload to its home. -/
def State.echo (s : State) (u : Use) (c : Fin 256) (part : Nat × Nat) : State :=
  if homeCore part.1 = c then s
  else s.send fun id =>
    { s.msg0 u.kind (homeCore part.1) id with
      src := c, strand := u.strand, ctx := u.by_.getD 0, task := u.task, addr := part.1
      data := if u.write then s.payload part.1 part.2 u.form else []
      count := if u.back then part.2 else 0
      pois := if u.write then s.poisParts part.1 part.2 else []
      rh := u.rh, form := u.form, echo := true }
/-- An access takes place. -/
def State.spend (s : State) (u : Use) : State :=
  let s :=
    if u.key < 2 ^ 48 then ((List.range (lineCount u.key u.len)).map (u.key / 128 + ·)).foldl (fun (s : State) l => s.reach u l) s
    else s.payMem u.by_ u.core (vaultUnits u.len)
  match u.core with
  | some c => if u.sent then s else u.parts.foldl (fun s p => s.echo u c p) s
  | none => s
/-- An echo has arrived: its answer leaves, with the bytes where it carries them, and then both are done (R318, R328). -/
def State.endEcho (s : State) (m : Msg) : State :=
  if m.onA then s.settleMsg m
  else
    let kind := if m.kind = 0 then 16 else if m.kind = 2 ∧ m.count ≠ 0 then 18 else 17
    let form := if m.kind = 0 then m.form else (0, 0)
    (s.donePerf m).send fun id =>
      { m with
        id := id, kind := kind, src := m.dst, dst := m.src, strand := none, data := s.payload m.addr m.count form, ref := m.id, st := .queued
        qtrk := none, pois := s.poisParts m.addr m.count, form := form }
/-- Every echo whose flits have all been ejected and counted is done. -/
def State.endEchoes (s : State) : State :=
  (s.dev.fab.net.filter fun m => m.echo && m.st == .delivered && !s.dev.fab.intake.any (·.msg == m.id)).foldl State.endEcho s
/-- A core whose matrix or copy engine waits until the messages of its last accesses are admitted: for a tracker, or for room (R325,
R328). -/
def State.engineWaits (s : State) (c : Fin 256) : Bool :=
  s.dev.fab.net.any fun m => m.echo && m.st == .queued && m.src == c && m.strand.isNone && !m.onA

/-! ## The accesses of the engines -/
/-- Some checked parts as accesses of the core. What goes through a host window or the control space costs no unit (R492), and a vault
ignores the hint (R152). -/
def State.usesOf (s : State) (ps : List Piece) (kind : Nat) (write back : Bool) (rh : BitVec 2) (n : Option (Fin 4)) : List Use :=
  ps.filterMap fun p =>
    if p.space = .host ∨ p.space = .control then none
    else some ⟨p.key, p.len, kind, write, back, if p.space = .hbm then rh else 0, (0, 0), n, s.bank.taskId, some s.bank.ctx, some s.cur, false⟩
/-- Reads of the engines at some addresses, each with a length. -/
def State.readsAt (s : State) (commons : Bool) (rh : BitVec 2) (l : List (Nat × Nat)) : List Use :=
  l.flatMap fun x => match engCheck s .load x.1 x.2 commons with
    | .ok ps => if x.2 = 0 then [] else s.usesOf ps 0 false true rh none
    | .error _ => []
/-- The keys of the lines of some parts that are made of whole lines. -/
def lineKeys (ps : List Piece) : List Nat := ps.flatMap fun p => (List.range (p.len / 128)).map fun i => p.key + 128 * i
/-- The form in which a line leaves its slice: that which the slice holds, or that in HBM of a line that it does not hold (R333, R336). -/
def State.lineForm (s : State) (key : Nat) : Nat × Nat :=
  let held := s.dev.slices.find? fun x => x.line == key / 128
  let form : Option (Nat × Nat) := match held with
    | some x => x.form
    | none => (s.dev.forms.find? fun f => f.1 == key / 128).map fun f => f.2
  if key < 2 ^ 48 then (form.filter fun f => f.1 != 7).getD (0, 0) else (0, 0)
/-- Accesses of whole lines, each in its form. -/
def lineUses (us : List Use) (keys : List Nat) (forms : List (Nat × Nat)) : List Use :=
  match us with
  | [] => []
  | u :: _ => (keys.zip forms).map fun x => { u with key := x.1, len := 128, form := x.2 }
/-- What element n of a command reads and writes: the entry of its index list, its source, and its destinations (R288 to R299). Whole
lines that it moves unconverted travel as they are stored, as far as the write port of a vault (R336). -/
def elemUses (s : State) (c : Cmd) (n : Nat) : List Use :=
  let b : Block := c.block
  let rh : BitVec 2 := BitVec.ofNat 2 (fld b 104 1)
  let w := if b.wide then 8 else 4
  let indexed := c.kind = .gath ∨ c.kind = .scat
  let list := if indexed then s.readsAt true rh [((b.idx + b.ix n 0 * w) % 2 ^ 64, w)] else []
  match (if indexed then listIndex s b (b.ix n 0) else .ok (b.ix n 0 : Int)) with
  | .error _ => list
  | .ok first =>
    let sa := walkAddr b.src b.sstr (b.ix n) (if c.kind = .gath then first else b.ix n 0)
    let da := walkAddr b.dst b.dstr (b.ix n) (if c.kind = .scat then first else b.ix n 0)
    match (if c.kind = .fill then .ok [] else engCheck s .load sa b.e true (if b.converts then b.e else 1)) with
    | .error _ => list
    | .ok src =>
      let whole := !b.converts && c.kind != .fill && b.e % 128 == 0 && sa % 128 == 0
      let forms := (lineKeys src).map s.lineForm
      let reads := s.usesOf src 0 false true rh none
      let reads := if whole then lineUses reads (lineKeys src) forms else reads
      let write := fun (ps : List Piece) =>
        let us := s.usesOf ps 1 true false rh none
        if whole && da % 128 == 0 then lineUses us (lineKeys ps) forms else us
      let writes :=
        if c.isFar && c.kind != .xpull then []
        else match c.ring with
          | some (r, ixs) => match ringInfo s r.toNat with
            | some i => (cutRange 512 (b.outLen + 1) (da - b.dst) b.outLen).map fun x =>
                ⟨i.slotKey (ixs.getD (x.1 / 512) 0) + x.1 % 512, x.2, 5, true, false, 0, (0, 0), none, s.bank.taskId, some s.bank.ctx, some s.cur, false⟩
            | none => []
          | none => (if b.mcmask = 0 then [da] else b.targets.map (inVault da)).flatMap fun a => match elemParts s c a b.outLen with
            | .ok ps => write ps
            | .error _ => []
      list ++ reads ++ writes
/-- The accesses of the next request of a copy queue. The bytes that come from another package are written when they arrive. -/
def State.copyUses (s : State) (q : Fin 4) : List Use :=
  if s.clockStopped ∨ s.nextQueue ≠ some q then []
  else match s.working q with
    | none => []
    | some c =>
      let v := s.standIn c.task
      if c.isFar then
        let x := c.farElem
        if c.kind = .xpull ∨ (v.farElement c).2.2 = 0 then [] else elemUses v { c with block := x.2.1, ring := none } x.2.2
      else elemUses v c c.done
/-- The write of the bytes of a pull as they arrive (R427, R432). -/
def State.pullUses (s : State) (cmd : Nat) : List Use :=
  match s.takeFar cmd with
  | none => []
  | some (x, t) => match t.holderOf cmd with
    | none => []
    | some (id, c) =>
      let v : State := { s with cur := c }
      let v := v.modCore fun k => { k with bank := v.bankOf id c }
      match v.bank.queues.toList.findSome? fun q => q.cmds.find? fun y => y.id == cmd with
      | none => []
      | some y =>
        let fill : Cmd := { y with kind := .fill }
        elemUses (v.standIn y.task) fill x.elem
/-- The reads of a pass, at its indices. -/
def State.inputReads (s : State) (n : NestSet) (p : Nat) (mid : Bool) (ix : Vector Nat 6) : List (Nat × Nat) :=
  match passInputs s n [] p mid ix with
  | .ok i => passReads n i ix
  | .error _ => []
/-- The reads of the pass that the engine performs next: the tiles that no bank holds yet, its A rows and its scales. -/
def State.passUses (s : State) : List Use :=
  let m := s.bank.mat
  let n := m.active
  if m.eng ≠ .running ∨ m.phase ≠ .pass ∨ !s.mayPass ∨ s.clockStopped ∨ s.fetchHeld then []
  else
    let tiles := passTiles n m.idx
    let missing := ((chooseBanks s n tiles).zip tiles).filter fun x => !(holds s n x.1 x.2 && !(m.tags[x.1]).unloaded)
    s.readsAt false 0 ((missing.flatMap fun x => tileReads x.2) ++ s.inputReads n n.p n.mid m.idx)
/-- The accesses of the drain that the engine performs next: the reads of the numerical check, and the writes (R255, R263). -/
def State.drainUses (s : State) : List Use :=
  let m := s.bank.mat
  let n := m.active
  if m.eng ≠ .running ∨ m.phase ≠ .drain ∨ s.clockStopped ∨ (m.sampleDue ∧ s.fetchHeld) then []
  else
    let again := if m.sampleDue then m.checked.flatMap fun ix => (passTiles n (toIx ix)).flatMap tileReads ++ s.inputReads n 8 false (toIx ix) else []
    let writes := (drainBlocks n m.idx).flatMap fun x =>
      let r := drainRange n m.idx x
      match engCheck s .store r.1 r.2 false with
      | .ok ps => s.usesOf ps 1 true false 0 none
      | .error _ => []
    s.readsAt false 0 again ++ writes
/-- The reads of the bank load that is next. -/
def State.bankUses (s : State) : List Use :=
  match s.bank.mat.loads.head?.filter s.loadStarted with
  | some l => if s.dev.power.thermalStop || s.loadsHeld l.id || l.bad then [] else s.readsAt false 0 (tileReads l.tag.tile)
  | none => []

/-! ## The accesses of other events -/
/-- The access that a message makes where it arrives, for its context and its core. -/
def State.msgUses (s : State) (id kind : Nat) : List Use :=
  match s.msgOf id with
  | none => []
  | some m =>
    let at_ := fun (key len : Nat) (write : Bool) (c : Fin 256) =>
      if 2 ^ 64 ≤ key then [] else [(⟨key, len, kind, write, !write, m.rh, (0, 0), none, m.task, some m.ctx, some c, true⟩ : Use)]
    if m.echo || !s.arrived m || !s.afterStores m || m.kind.toNat != kind then []
    else match kind with
      | 0 => at_ m.addr m.count false m.src
      | 1 | 2 => at_ m.addr m.data.length true m.src
      | 5 => at_ m.addr 512 true m.src
      | 16 => match s.msgOf m.ref with
        | some q => at_ (vaultKey m.dst.val (q.ref % 2 ^ 24)) m.data.length true m.dst
        | none => []
      | _ => []
/-- Bytes that the core itself writes or reads at a virtual address of its context, line by line: the trap frame (R446, R447). -/
def State.frameUses (s : State) (write : Bool) : List Use :=
  (List.range 8).filterMap fun i => (walkKey s s.ctx.pgroot.toNat (s.slot + Config.frameOff + 128 * i)).map fun k =>
    ⟨k, 128, if write then 1 else 0, write, !write, 0, (0, 0), none, s.bank.taskId, some s.bank.ctx, some s.cur, false⟩
/-- The accesses of a telemetry record that was added: RD, the record and WR (R499). Chaconne's have no core. -/
def telUses (s t : State) (id : BitVec 12) (p : Option (Fin 16)) (c : Option (Fin 256)) : List Use :=
  let x := s.ctxOf id
  let base := x.telring.toNat / 2 ^ 12 % 2 ^ 44 * 2 ^ 12
  let n := 2 ^ (x.telring.toNat % 16)
  match telKey s x p base with
  | none => []
  | some kw =>
    let wr := s.rdN kw 8
    let at_ := fun (va len kind : Nat) (write : Bool) => match telKey s x p va with
      | some k => if k < 2 ^ 48 then [(⟨k, len, kind, write, !write, 0, (0, 0), none, 0, some id, c, false⟩ : Use)] else []
      | none => []
    if wr = t.rdN kw 8 then []
    else at_ (base + 8) 8 2 false ++ at_ (base + 64 + 64 * (wr % n)) 64 1 true ++ at_ base 8 2 true
/-- The accesses that another package makes here, for the peer context at its core (R426). -/
def State.remoteUses (s : State) : Remote → List Use
  | .write id core a d deposit _ => far id core false deposit a.toNat d.length
  | .update id core a _ _ deposit _ => far id core false deposit a.toNat 4
  | .read id core a n => far id core true false a.toNat n
  | .answer cmd _ _ _ => s.pullUses cmd
  | .incr .. | .ack .. => []
where far (id : BitVec 12) (core : Fin 256) (read deposit : Bool) (a n : Nat) : List Use :=
  ((remoteParts s id core read deposit a n).getD []).map fun x =>
    ⟨x.1, x.2, if read then 0 else 1, !read, read, 0, (0, 0), none, 0, some id, some core, true⟩
/-- An access of the host through BAR2, which is no context's (R498, R506). -/
def State.barUses (s : State) (fn : Fin 17) (off : Nat) (write : Bool) : List Use :=
  let k := s.rdN (devKey (0x400 + 8 * fn.val)) 8 + off
  if s.dev.fethen.boot ≠ .running ∨ Config.hbmBytes < k + 8 then []
  else [⟨k, 8, if write then 1 else 0, write, !write, 0, (0, 0), none, 0, none, none, true⟩]
/-- The lines that became clean between two states are written to their slices (R153, R155, R174), but for those that are lost. -/
def backUses (s t : State) (lost : List Nat) : List Use :=
  (List.range 256).flatMap fun i =>
    let c := fin 256 i
    let was := s.cores[c]
    let now := t.cores[c]
    ((linesOf was.dirty).filter fun l => !(linesOf now.dirty).any (· == l) && !lost.any (· == l)).map fun l =>
      ⟨128 * l, 128, 1, true, false, 0, (0, 0), none, was.bank.taskId, some was.bank.ctx, some c, false⟩
/-- The trap frames that were written between two states. -/
def trapUses (s t : State) : List Use :=
  (List.range 256).flatMap fun i =>
    let c := fin 256 i
    if (t.cores[c]).bank.trap.handler && !(s.cores[c]).bank.trap.handler then ({ s with cur := c } : State).frameUses true else []
/-- The accesses of an event, which begins in s and leaves t. -/
def State.eventUses (s t : State) : Instr → List Use
  | .copyRequestIssue c q => ({ s with cur := c } : State).copyUses q
  | .pass c => (({ s with cur := c } : State).nestView Matrix.busy).passUses
  | .drain c =>
    let v := ({ s with cur := c } : State).nestView Matrix.busy
    v.drainUses ++ telUses s t v.bank.ctx v.core.part (some c)
  | .bankLoad c => (({ s with cur := c } : State).nestView fun m => !m.loads.isEmpty).bankUses
  | .chaconneEvaluate p j _ _ _ => telUses s t (ctxId p j) (some p) none
  | .readRequest m => s.msgUses m 0
  | .write m => s.msgUses m 1
  | .atomicOrOrderedAccess m => s.msgUses m 2
  | .ringPush m => s.msgUses m 5
  | .readAnswer m => s.msgUses m 16
  | .remoteAccess r => s.remoteUses r
  | .bar2Access fn off wr => s.barUses fn off.toNat wr.isSome
  | _ => []
/-- Whether an event discards the lines of its core that it cleans (R379). -/
def discards : Instr → Bool
  | .discard _ => true
  | _ => false
/-- The core whose engine an event serves. -/
def engineOf : Instr → Option (Fin 256)
  | .copyRequestIssue c _ | .pass c | .drain c | .bankLoad c => some c
  | _ => none
/-- The accesses between two states take place in the second. -/
def State.settleUses (s t : State) (own : List Use) (lost : Bool) (lines : List Nat) : State :=
  (own ++ trapUses s t ++ (if lost then [] else backUses s t lines)).foldl State.spend t
/-- An event with its accesses. The engine of a core waits while messages of its last accesses are not admitted. -/
noncomputable def State.carried (s : State) (i : Instr) : Out :=
  if (engineOf i).any s.engineWaits then .next s
  else match exec i s with
    | .next t => .next (s.settleUses t (s.eventUses t i) (discards i) [])
    | .fault e => .fault e
    | .refused r => .refused r

end Sys2Proof.Machine
end

