-- ==== Sys2Proof/Machine/Fetch.lean ====
section
/-! DEFINITION. Fetching an instruction (R33 to R38, R56, R131, R156), the core cycle (R110 to R113, R490, R492), and
how a program is placed for the next step (log 3). -/
namespace Sys2Proof.Machine

/-! ## Fetch -/
/-- The parcel at an address: fetched ahead (R38), or checked as a fetch (R156) and read from a line that the
instruction cache holds, or else as the strand's own loads would see it (R155). -/
def State.parcelAt (s : State) (va : W64) : Res Nat :=
  match s.strand.fbuf.find? fun e => e.1 == va with
  | some e => .ok e.2.toNat
  | none =>
    match checkAll s { acc := .fetch, ea := va.toNat, len := 4, align := 4 } with
    | .error e => .error e
    | .ok ps =>
      match s.core.icache.find? fun l => l.ctx == s.bank.ctx && l.line == va.toNat / 128 with
      | some l => .ok (l.data.toNat / 2 ^ (8 * (va.toNat % 128)) % 2 ^ 32)
      | none => .ok (leNat (ps.flatMap fun p => (keysFrom p.key p.len).map s.seen))
/-- The info of ILLEGAL_INSN (R56). -/
def illegalInfo (w reason : Nat) : Nat := w + 2 ^ 32 * reason
/-- A later parcel of an instruction of n parcels; those beyond its length are not fetched (R36). -/
def State.laterParcel (s : State) (n i : Nat) : Res Nat :=
  if i < n then s.parcelAt (s.strand.pc + BitVec.ofNat 64 (4 * i)) else .ok 0
/-- The parcels of the instruction at the strand's PC (R36): its length is read from parcel 0. -/
def State.parcels (s : State) : Res (Nat × Nat × Nat) :=
  match s.parcelAt s.strand.pc with
  | .error e => .error e
  | .ok w =>
    match lengthOf w with
    | .error r => .error (.trap causeIllegal (illegalInfo w r))
    | .ok n =>
      match s.laterParcel n 1 with
      | .error e => .error e
      | .ok w1 =>
        match s.laterParcel n 2 with
        | .error e => .error e
        | .ok w2 => .ok (w, w1, w2)
/-- The instruction at the strand's PC, or the trap of R56. -/
noncomputable def State.fetched (s : State) : Res Instr :=
  match s.parcels with
  | .error e => .error e
  | .ok (w, w1, w2) =>
    match decodeParcels w w1 w2 with
    | .error r => .error (.trap causeIllegal (illegalInfo w r))
    | .ok (i, _) => .ok i
/-- The parcels that were fetched ahead are used up when the strand's next instruction is tried. -/
def State.usedUp (s : State) : State :=
  s.modStrand fun t =>
    { t with fbuf := t.fbuf.filter fun e => !(e.1 == t.pc || e.1 == t.pc + 4 || e.1 == t.pc + 8) }
/-- The instruction at the PC of strand `curS` of core `cur` runs (R56, R57). -/
noncomputable def State.runNext (s : State) : Out :=
  match s.fetched with
  | .error e => s.usedUp.stop e
  | .ok i => exec i s.usedUp

/-! ## Ready strands (R24, R32, R111, R444, R482) -/
/-- A core whose clock runs: Fethen has released it, and it is neither retired, nor in a gear transition, nor stopped
for its temperature. -/
def State.clocked (s : State) : Bool :=
  s.dev.fethen.boot == .running && !s.core.retired && s.core.trans.isNone && !s.dev.power.thermalStop
/-- A core that may issue: it belongs to a partition that is not stopped, and a context runs on it. -/
def State.issues (s : State) : Bool :=
  s.clocked && s.bank.loaded && (match s.core.part with
    | some p => !(s.part p).stopped
    | none => false)
/-- The activity budget blocks the core (R490). -/
def State.overBudget (s : State) : Bool :=
  s.ctx.actctl.getLsbD 31 && decide (s.ctx.actctl.toNat % 2 ^ 10 ≤ s.bank.acc.toNat)
/-- A strand waits while a message of its last access has no A-plane tracker (R328), or the messages of an access that it has performed
are not admitted (R325, log 11). A store that an earlier store of the core holds back waits in the store buffer alone (R322). -/
def State.stalls (s : State) (n : Fin 4) (m : Msg) : Bool :=
  m.st == .queued && m.src == s.cur && m.strand == some n && m.src != m.dst && m.answered
    && (m.echo || (!s.writeHeld m && (s.trackerOf m).isNone))
def State.trackerWait (s : State) (n : Fin 4) : Bool := s.dev.fab.net.any (s.stalls n)
/-- A strand that runs, is not stopped, and is not held back by the budget. Strand 0 issues nothing while a notice waits at
its instruction boundary (R451). -/
def State.mayIssue (s : State) (n : Fin 4) : Bool :=
  let t := s.bank.strands[n]
  s.issues && t.run && !t.stopped && (t.smode || !s.overBudget) && (n != 0 || s.bank.trap.entry.isNone) && !s.trackerWait n
/-- The strand found its instruction not ready (R111, log 8). -/
def State.waiting (s : State) (n : Fin 4) : Bool := s.bank.strands[n].wait != .none

/-! ## The core cycle (R112, R490 to R492, R498) -/
/-- The activity class of an instruction by its parcel 0 (R489). -/
def activityClass (w : Nat) : Nat :=
  let m := majOf w
  if m ≤ 0x0E then 0 else if m = 0x0F then 1 else if m ≤ 0x16 then 2 else if m ≤ 0x1D then 3 else if m ≤ 0x1F then 4
  else if m ≤ 0x26 then 5
  else if (0x31 ≤ m ∧ m ≤ 0x34) ∨ m = 0x48 then 7
  else if m ≤ 0x38 ∨ m = 0x49 ∨ m = 0x4A then if fvTy w ≤ 4 then 6 else 7
  else if m ≤ 0x3F then 8 else if m ≤ 0x44 then 9 else if m ≤ 0x47 then 10 else if m ≤ 0x57 then 11
  else if m ≤ 0x5E ∨ (0x74 ≤ m ∧ m ≤ 0x77) then 12 else if m ≤ 0x6F then 13 else if m ≤ 0x72 then 14 else 15
/-- What the instruction of strand `curS` adds to ACC: nothing in S mode (R490). -/
def State.weight (s : State) : Nat :=
  if s.strand.smode then 0
  else match s.parcelAt s.strand.pc with
    | .ok w => (s.ctx.actw.toList.getD (activityClass w) 0).toNat
    | .error _ => 0
/-- Strand n of core c becomes the one whose instruction runs. -/
def State.focus (s : State) (c : Fin 256) (n : Fin 4) : State := { s with cur := c, curS := n }
/-- An access of a strand: what it asks for, its hint, and whether it writes. -/
structure StrandAsk where
  ask   : Ask
  rh    : BitVec 2
  write : Bool
/-- The access to memory of an instruction, which is performed as it issues; the blocks that engine instructions load are plain loads. -/
def accessOf (s : State) : Instr → Option StrandAsk
  | .ldD _ a d => load (s.ea a d) 8 1 XM.none
  | .ldW _ a d => load (s.ea a d) 4 1 XM.none
  | .ldDL _ a x => load (s.ea a x.disp) 8 1 x
  | .ldWL _ a x => load (s.ea a x.disp) 4 1 x
  | .ldx _ a w _ x => load (s.ea a x.disp) (widthOf w) 1 x
  | .ldv v a d => vec v (s.rs a + 64 * d.signExtend 64) XM.none
  | .ldvL v a x => vec v (s.ea a x.disp) x
  | .stD _ a d => store (s.ea a d) 8 1 XM.none
  | .stW _ a d => store (s.ea a d) 4 1 XM.none
  | .stDL _ a x => store (s.ea a x.disp) 8 1 x
  | .stWL _ a x => store (s.ea a x.disp) 4 1 x
  | .stx _ a w x => store (s.ea a x.disp) (widthOf w) 1 x
  | .stv _ a d => store (s.rs a + 64 * d.signExtend 64) 512 64 XM.none
  | .stvL _ a x => store (s.ea a x.disp) 512 64 x
  | .atomAdd d a _ => atom .add d a XM.none
  | .atomAnd d a _ => atom .and d a XM.none
  | .atomOr d a _ => atom .or d a XM.none
  | .atomXor d a _ => atom .xor d a XM.none
  | .atomMin d a _ => atom .min d a XM.none
  | .atomMins d a _ => atom .mins d a XM.none
  | .atomMax d a _ => atom .max d a XM.none
  | .atomMaxs d a _ => atom .maxs d a XM.none
  | .atomSwap d a _ => atom .swap d a XM.none
  | .atomFadd32 d a _ => atom .fadd32 d a XM.none
  | .atomCas d a _ => atom .cas d a XM.none
  | .atomL op d a _ x => atom op d a x
  | .pref a hint => if hint = 0 then load (s.rs a) 1 1 XM.none else none
  | .rngkey a => load (s.rs a) 32 32 XM.none
  | .tdset a _ | .tdsetL a _ _ => load (s.rs a) 64 64 XM.none
  | .mcfg a | .mcfgL a _ => load (s.rs a) 256 64 XM.none
  | .barcfg _ a _ => load (s.rs a) 64 64 XM.none
  | .halo _ a | .haloL _ a _ => load (s.rs a) 64 64 XM.none
  | _ => none
where
  load (ea : W64) (len align : Nat) (x : XM) : Option StrandAsk :=
    let ordered := x.ord != .plain
    if badLoad x then none
    else some ⟨{ acc := .load, ea := ea.toNat, len := len, align := if ordered then len else align, ordered := ordered }, x.rh, false⟩
  vec (v : Fin 32) (ea : W64) (x : XM) : Option StrandAsk :=
    match s.vecIn [] (some v) false [] with
    | .ok _ => some ⟨{ acc := .load, ea := ea.toNat, len := 512, align := 64 }, x.rh, false⟩
    | .error _ => none
  store (ea : W64) (len align : Nat) (x : XM) : Option StrandAsk :=
    let ordered := x.ord != .plain
    if badStore x then none
    else some ⟨{ acc := .store, ea := ea.toNat, len := len, align := if ordered then len else align, ordered := ordered }, x.rh, true⟩
  atom (op : AtomOp) (d a : Fin 64) (x : XM) : Option StrandAsk :=
    let n := if x.w64 then 8 else 4
    let ask : Ask := { acc := .atom, ea := (s.ea a x.disp).toNat, len := n, align := n, ordered := true, op := some op }
    -- a CAS that fails writes nothing (R170)
    let fails := op == .cas && (match checkAll s ask with
      | .ok (p :: _) => (match s.loadPiece false p with
        | .ok old => leNat old != (s.rs d).toNat % 2 ^ (8 * n)
        | .error _ => true)
      | _ => true)
    some ⟨ask, x.rh, !fails⟩
/-- The lines or bytes that a plain load fetches (R153): nothing that the store buffer serves, and of what the core may cache the lines
that its data cache does not hold. -/
def State.loadUses (s : State) (rh : BitVec 2) (p : Piece) : List Use :=
  if s.stores.any fun m => m.meets p.key p.len then []
  else if p.cacheLines.isEmpty || s.bank.task.isNone then s.usesOf [p] 0 false true rh (some s.curS)
  else
    let missing := p.cacheLines.filter fun l => !s.core.cached.any (· == l)
    s.usesOf (missing.map fun l => ⟨p.va, 128, 128 * l, .hbm, p.kind⟩) 0 false true rh (some s.curS)
/-- The accesses of an instruction of the strand as it issues (R152, R153, R492). A plain store to what the core may cache stays in its
data cache, and one to a vault or to COMMONS is a message of its own. -/
def State.accessUses (s : State) (i : Instr) : List Use :=
  match accessOf s i with
  | none => []
  | some x => match checkAll s x.ask with
    | .error _ => []
    | .ok ps =>
      let n := some s.curS
      match x.ask.acc with
      | .load => if x.ask.ordered then s.usesOf (ps.filter fun p => !s.stores.any fun m => m.meets p.key p.len) 2 false true x.rh n
        else ps.flatMap (s.loadUses x.rh)
      | .store =>
        let direct := ps.filter fun p => p.space == .hbm && p.kind != 2 && (x.ask.ordered || p.kind == 4 || s.bank.task.isNone)
        if (overflowOf s ps).isSome then [] else s.usesOf direct (if x.ask.ordered then 2 else 1) true false x.rh n
      | _ => if x.write && (overflowOf s ps).isSome then [] else s.usesOf ps 2 x.write true x.rh n
/-- What else an instruction fetches that leads from s to t: the parameter blocks and the descriptors that it brings in, the slot that it
pops from a ring, and the frame that an ERET restores (R229, R241, R287, R449). -/
def State.blockUses (s t : State) : List Use :=
  let n := some s.curS
  let blocks := (t.core.pbc.filter fun e => !s.core.pbc.any (· == e)).flatMap fun e =>
    match checkAll s { acc := .load, ea := e.2.1.toNat, len := 128, align := 128 } with
    | .ok ps => ps.flatMap (s.loadUses 0)
    | .error _ => []
  let descs := fun (u : State) => (u.bank.task.map (·.descs)).getD []
  let tensors := ((descs t).filter fun e => !(descs s).any fun f => f.1 == e.1).filterMap fun e =>
    (deviceKey s (s.ctx.tdtab.toNat / 2 ^ 14 % 2 ^ 42 * 2 ^ 14 + 64 * e.1.toNat)).map fun k => (⟨0, 64, k, .hbm, 1⟩ : Piece)
  let pop := s.strand.pop.toNat
  let slot := match ringInfo s pop, (s.ringOf pop).slots with
    | some i, x :: _ => if (t.ringOf pop).slots.head? = some x then [] else [(⟨0, 512, i.slotKey x.ix, .vault (homeCore (i.slotKey x.ix)), 3⟩ : Piece)]
    | _, _ => []
  let frame := if s.strand.smode && !t.bank.trap.handler && (t.bank.task.bind (·.ending)).isNone then s.frameUses false else []
  blocks ++ s.usesOf (tensors ++ slot) 0 false true 0 n ++ frame
/-- The accesses of strand n as its instruction issues; one that waits makes none. -/
noncomputable def State.strandUses (s : State) (n : Fin 4) : List Use :=
  let a := s.focus s.cur n
  match a.fetched, a.runNext with
  | .ok i, .next t => if t.waiting n then [] else a.accessUses i ++ a.blockUses t
  | _, _ => []
/-- The lines of the strand's instruction that neither the fetch buffer nor the instruction cache holds, by their first address (R156). -/
def State.codeLines (s : State) : List Nat :=
  match s.parcels with
  | .error _ => []
  | .ok (w, _) =>
    let vas := (List.range (match lengthOf w with | .ok n => n | .error _ => 1)).map fun i => s.strand.pc + BitVec.ofNat 64 (4 * i)
    let out := vas.filter fun va => !(s.strand.fbuf.any fun e => e.1 == va) && !(s.core.icache.any fun l => l.ctx == s.bank.ctx && l.line == va.toNat / 128)
    distinct (out.map fun va => va.toNat / 128 * 128)
/-- A line comes into the instruction cache: 64 KiB of 128-byte lines. -/
def State.fillICache (s : State) (va : W64) : State :=
  let base := va.toNat / 128 * 128
  match checkAll s { acc := .fetch, ea := base, len := 4, align := 4 } with
  | .ok [p] =>
    let data : BitVec 1024 := BitVec.ofNat 1024 (leNat ((keysFrom p.key 128).map s.seen))
    s.modCore fun c =>
      { c with icache := (⟨s.bank.ctx, base / 128, data⟩ :: c.icache.filter fun l => !(l.ctx == s.bank.ctx && l.line == base / 128)).take 512 }
  | _ => s
/-- The read of a line that comes into the instruction cache. -/
def State.codeUses (s : State) (va : Nat) : List Use :=
  match checkAll s { acc := .fetch, ea := va / 128 * 128, len := 4, align := 4 } with
  | .ok [p] => s.usesOf [{ p with len := 128 }] 0 false true 0 (some s.curS)
  | _ => []
/-- The strand's instruction comes into the instruction cache as it is fetched. -/
def State.bringCode (s : State) : State := s.codeLines.foldl (fun (s : State) va => s.fillICache (BitVec.ofNat 64 va)) s
/-- The line that a DCINV of strand n loses. -/
noncomputable def State.lostLine (s : State) (n : Fin 4) : List Nat :=
  match (s.focus s.cur n).fetched with
  | .ok (.dcinv a) => match lineOf s ((s.focus s.cur n).rs a).toNat with
    | .ok (some l) => [l]
    | _ => []
  | _ => []
/-- The pipeline of R110: true for the vector pipeline. A strand whose fetch of parcel 0 faults has no MAJ; it competes for
the scalar-and-control pipeline (DESIGN CHOICE, log 9: the spec names none). -/
def State.vectorPipe (s : State) : Bool :=
  match s.parcelAt s.strand.pc with
  | .error _ => false
  | .ok w =>
    let m := majOf w
    m = 0x1E ∨ m = 0x1F ∨ (0x28 ≤ m ∧ m ≤ 0x46) ∨ (0x48 ≤ m ∧ m ≤ 0x4A) ∨ m = 0x71 ∨ m = 0x72
/-- The start of a cycle: at POS = 0 the accumulator is cleared (R490), and the fabric cycle has begun its cycle of the core (R22). -/
def State.cycleStart (s : State) : State := s.windowReset.modCore fun c => { c with cycled := some s.dev.fabricCycles }
/-- The energy of a core cycle (R492); a cycle with no task active goes to the system account (R498). -/
def State.cycleEnergy (s : State) : State :=
  let u := if s.core.gear = .f then 8 else 2
  if s.core.part.isSome && s.bank.task.isSome then s.charge 0 u
  else (s.modCore fun c => { c with draw := c.draw + u }).modDev fun d =>
    { d with power := { d.power with
      sysAcct := d.power.sysAcct + BitVec.ofNat 64 u, sysDraw := d.power.sysDraw + u, idleDraw := d.power.idleDraw + u } }
/-- A task was active in one more cycle (R404). -/
def Task.usedOne (id : W64) (t : Task) : Task :=
  { t with usedCyc := if t.usedCyc = BitVec.allOnes 32 ∨ t.id ≠ id then t.usedCyc else t.usedCyc + 1 }
/-- The end of a cycle under the actctl value and the task that held at its start: ACC, BLOCKED and POS (R490), where a SEMACQ that was
served after it had waited counts as issued (R345), tcyc.USED of that task, which may have yielded in the cycle (R404), the core's cycle
count (R487) and its cycles in a barrier (R354). -/
def State.cycleEnd (s : State) (ctl : W64) (task : W64) (weight : Nat) (blocked : Bool) : State :=
  let budget := ctl.toNat % 2 ^ 10
  let window := ctl.toNat / 2 ^ 20 % 2 ^ 11
  let same := decide (s.ctx.actctl.toNat / 2 ^ 20 % 2 ^ 11 = window)
  let served := s.bank.late * s.ctx.actw[13].toNat
  let s := s.modBank fun b =>
    { b with
      acc := if !same then 0 else if ctl.getLsbD 31 then BitVec.ofNat 10 (Nat.min budget (b.acc.toNat + weight + served)) else b.acc
      late := 0
      blocked := if blocked then b.blocked + 1 else b.blocked
      pos := if same then BitVec.ofNat 10 ((b.pos.toNat + 1) % window) else 0
      task := b.task.map (·.usedOne task) }
  let s := s.modCtx fun x => { x with saved := x.saved.map fun e => if e.1 = s.cur then (e.1, { e.2 with task := e.2.task.map (·.usedOne task) }) else e }
  let s := s.modCore fun c => { c with cycles := c.cycles + 1, barCycles := if c.bank.allInBar then c.barCycles + 1 else 0 }
  let s := s.cycleEnergy
  { s with freeCtr := s.freeCtr + 1 }

/-! ## The scheduler's cycle (R110 to R113) -/
def roleRank : Role → Nat
  | .l => 0 | .c => 1 | .e => 2 | .none => 3
/-- Whether strand a goes before strand b (R113); the lower number wins a tie, since a is the earlier one. -/
def before (limit : Nat) (a b : Strand) : Bool :=
  let aged := fun (t : Strand) => decide (limit ≤ t.age.toNat)
  if a.smode || b.smode then a.smode
  else if aged a && aged b && a.age != b.age then b.age.ult a.age
  else if aged a != aged b then aged a
  else decide (roleRank a.role ≤ roleRank b.role)
/-- SelectIssue of R113 among the candidates, in increasing number. -/
def State.selectIssue (s : State) : List (Fin 4) → Option (Fin 4)
  | [] => none
  | n :: rest =>
    match s.selectIssue rest with
    | none => some n
    | some m => if before s.core.ageLimit.toNat s.bank.strands[n] s.bank.strands[m] then some n else some m
/-- The strands that are ready, with what finding out did to those that are not: they record what they wait on (R356),
and a waiter joins its semaphore's queue (R345). A BARSYNC that has to wait makes its arrival here, as the strand is tried, before the
choice of R113 and in no pipeline slot, so several strands may arrive in one cycle (DESIGN CHOICE, log 8: R351 does not say when). -/
noncomputable def State.findReady (s : State) : List (Fin 4) → State × List (Fin 4)
  | [] => (s, [])
  | n :: rest =>
    if s.mayIssue n then
      match (s.focus s.cur n).runNext with
      | .next t => if t.waiting n then t.findReady rest else ((s.findReady rest).1, n :: (s.findReady rest).2)
      | _ => ((s.findReady rest).1, n :: (s.findReady rest).2)
    else s.findReady rest
/-- What issuing leaves: the state, and the strands whose instructions issued. -/
abbrev Issue := Host.Outcome (State × List (Fin 4)) Fault Refusal
/-- The instruction of a strand that was chosen issues, and its age becomes 0 (R112), unless the other pipeline's instruction ended or
stopped it. One that the other made wait keeps its age and has not issued. -/
noncomputable def State.issueStrand (s : State) (n : Fin 4) : Issue :=
  let s := s.focus s.cur n
  let t := s.bank.strands[n]
  if t.run && !t.stopped then
    match (s.modStrandN n fun t => { t with age := 0 }).runNext with
    | .next u => .next (if u.waiting n then (u.modStrandN n fun x => { x with age := t.age }, []) else (u, [n]))
    | .fault e => .fault e
    | .refused r => .refused r
  else .next (s, [])
/-- Whether a trap was taken, or the task ended, between two states of the core. -/
def State.trappedTo (s t : State) : Bool :=
  let a := s.bank
  let b := t.bank
  (b.trap.handler && !a.trap.handler) || b.trap.held != a.trap.held || b.task.bind (·.ending) != a.task.bind (·.ending)
/-- What follows an issue that the machine went through. -/
def Issue.andThen {α : Type} (o : Issue) (f : State → List (Fin 4) → Host.Outcome α Fault Refusal) : Host.Outcome α Fault Refusal :=
  match o with
  | .next x => f x.1 x.2
  | .fault e => .fault e
  | .refused r => .refused r
/-- Two strands issue in one cycle, `vec` to the vector pipeline and `sca` to the other (R110). The vector instruction reads
the state of the start of the cycle, as RNG does the seed (R417), and what the other does to the core (GEAR, TYIELD, TEND)
holds after both. A trap is taken after the other's effects, and when both trap, that of the lower strand alone is reported
(R444); a TYIELD beside a trap is not performed (log 9). -/
noncomputable def State.issuePair (s : State) (sca vec : Fin 4) : Issue :=
  (s.issueStrand vec).andThen fun t first =>
    (if s.trappedTo t then s else t).issueStrand sca |>.andThen fun u second =>
      if !s.trappedTo t then .next (u, first ++ second)
      else if u.bank.taskId != s.bank.taskId then .next (t, first)
      else if s.trappedTo u then .next (if sca < vec then (u, second) else (t, first))
      else (u.issueStrand vec).andThen fun w third => .next (w, second ++ third)
/-- The strands that a cycle chose. -/
noncomputable def State.issueAll (s : State) (sca vec : Option (Fin 4)) : Issue :=
  match sca, vec with
  | some n, some m => s.issuePair n m
  | some n, none | none, some n => s.issueStrand n
  | none, none => .next (s, [])
/-- A strand that was ready and did not issue ages (R112). -/
def Strand.older (t : Strand) : Strand := { t with age := if t.age = 1023 then t.age else t.age + 1 }
/-- Whether a core cycle begins with this fabric cycle: every cycle in gear F, every fourth in gear N, and one at most in each (R22,
R482). -/
def State.cycleDue (s : State) : Bool :=
  (s.core.gear == .f || s.dev.fabricCycles.toNat % 4 == 0) && s.core.cycled != some s.dev.fabricCycles
/-- The instructions of the chosen strands are fetched. -/
def State.withCode (s : State) (chosen : List (Fin 4)) : State := chosen.foldl (fun (s : State) n => s.onStrand n State.bringCode) s
/-- What a cycle's instructions bring about between v, where the chosen strands were chosen, and t: their fetches and accesses, and the
lines that they wrote back. -/
noncomputable def State.cycleUses (v t : State) (chosen issued : List (Fin 4)) : State :=
  let w := v.withCode chosen
  let fetched := chosen.flatMap fun n => let a := v.focus v.cur n; a.codeLines.flatMap a.codeUses
  w.settleUses t (fetched ++ issued.flatMap w.strandUses) false (issued.flatMap w.lostLine)
/-- A cycle of core `cur`: each pipeline chooses among the strands that are ready for it (R113), and those that were
ready and did not issue age (R112). -/
noncomputable def State.coreCycle (s : State) : Out :=
  if !s.clocked || !s.cycleDue then .next s
  else
    let s := s.cycleStart
    let c := s.cur
    let ctl := s.ctx.actctl
    let task := s.bank.taskId
    let blocked := s.issues && s.overBudget
    let r := s.findReady [0, 1, 2, 3]
    let s := r.1
    let a := s.selectIssue (r.2.filter fun n => !(s.focus c n).vectorPipe)
    let b := s.selectIssue (r.2.filter fun n => (s.focus c n).vectorPipe)
    let chosen := a.toList ++ b.toList
    let late := r.2.filter fun n => a != some n && b != some n
    let s := late.foldl (fun (s : State) n => s.modStrandN n Strand.older) s
    ((s.withCode chosen).issueAll a b).andThen fun t issued =>
      let weight := issued.foldl (fun w n => w + (s.focus c n).weight) 0
      .next ((s.cycleUses t chosen issued).cycleEnd ctl task weight blocked)

/-! ## Moves of the caches and the fetch buffer (R38, R150, R154, R156; log 14) -/
/-- A parcel is fetched ahead; one that would fault is not. -/
def State.fetchAhead (s : State) (va : W64) : State :=
  match s.parcelAt va with
  | .ok w => s.modStrand fun t => { t with fbuf := (va, BitVec.ofNat 32 w) :: t.fbuf.filter fun e => e.1 != va }
  | .error _ => s

/-! ## Placing a program (log 3) -/
/-- Where `placeProgram` puts the code. -/
def codeAt : Nat := 0x40000
/-- Page tables that map the first GiB of the context onto HBM, a region table whose one entry gives the first region to
core 0, and three parcels of code. -/
def programMem (m : Mem) (nbits w : Nat) : Mem :=
  let put := fun (m : Mem) (k n x : Nat) => m.setBytes k (toLe n x)
  let m : Mem := put { m with poison := [] } 0x10000 8 0x20001
  let m : Mem := put m 0x20000 8 0xF
  let m : Mem := put m 0x30000 16 (2 ^ 64)
  put m codeAt 12 (w % 2 ^ nbits)
/-- Whether a key is one of the code's bytes. -/
def isCode (k : Nat) : Bool := decide (codeAt ≤ k) && decide (k < codeAt + 12)
/-- Core 0 in partition 0 with context 0, its strand 0 at the code and its other strands stopped; where no core cycle of
gear N begins now, it is in gear F. -/
def programCore (due : Bool) (c : Core) : Core :=
  let b := c.bank
  let strand := fun (i : Nat) (t : Strand) =>
    if i = 0 then { t with pc := BitVec.ofNat 64 codeAt, run := true, stopped := false, wait := .none, fbuf := [] }
    else { t with stopped := true }
  { c with
    part := some 0, retired := false, trans := none, tlb := [], icache := [], cycled := none, dirty := c.dirty.filter fun x => !isCode x.1
    gear := if due then c.gear else .f
    bank := { b with
      loaded := true, ctx := 0, acc := 0, trap := { b.trap with entry := none }
      task := b.task.map fun t =>
        { t with version := t.version.filter fun x => !isCode x.1, verPois := t.verPois.filter fun e => e.1 != codeAt / 32 }
      strands := b.strands.mapFinIdx fun i t _ => strand i t } }
/-- Context 0 with its page tables and one region. -/
def programCtxs (cs : List Ctx) : List Ctx :=
  let c := (cs.find? fun c => c.id == 0).getD Ctx.reset
  { c with id := 0, pgroot := 0x10000, rtab := 0x30001 } :: cs.filter fun c => c.id != 0
/-- The state with an instruction placed where the next step fetches it. -/
def State.placeProgram (s : State) (nbits w : Nat) : State :=
  { s with
    mem := programMem s.mem nbits w
    cores := s.cores.set 0 (programCore (s.dev.fabricCycles.toNat % 4 == 0) s.cores[0])
    ctxs := programCtxs s.ctxs
    parts := s.parts.set 0 { s.parts[0] with stopped := false }
    dev := { s.dev with
      deadChan := [], fab := { s.dev.fab with net := s.dev.fab.net.filter fun m => !({ s with cur := 0 } : State).stalls 0 m }
      fethen := { s.dev.fethen with boot := .running }
      power := { s.dev.power with thermalStop := false } }
    agenda := .cycle 0 :: s.agenda }

end Sys2Proof.Machine
end

