-- ==== Sys2Proof/Machine/Auto.lean ====
section
/-! DEFINITION. The fabric clock (R487, R488), the moves that the agenda names, and what the device does by itself when
the agenda is empty (log 2). -/
namespace Sys2Proof.Machine

/-! ## The clock -/
/-- One ns of correction at each 10,000 ns, which is 19,000 fabric cycles: DCLK is slewed and never runs backwards (R488). -/
def slewOnce (d : Dev) : Dev :=
  if 0 < d.slew then { d with dclk := d.dclk + 1, slew := d.slew - 1 }
  else if d.slew < 0 then { d with dclk := d.dclk - 1, slew := d.slew + 1 }
  else d
/-- Whether the copy queues of a core hold something, or have just held it. -/
def Core.queuesWork (c : Core) : Bool :=
  c.bank.mats.any (fun m => m.fetching || !m.loads.isEmpty) || c.bank.queues.toList.any fun q => !q.cmds.isEmpty || q.state != 0
/-- The copy queues of every core note their states (R307). -/
def State.noteAll (s : State) : State :=
  (List.range 256).foldl (fun s i => if (s.cores[fin 256 i]).queuesWork then s.on (fin 256 i) State.noteStates else s) s
/-- A fabric cycle passes: the routers of both planes have had theirs (R316, R320), and the count rises (R487). -/
def State.fabricCycle (s : State) : State :=
  (((s.arbitrate .q).arbitrate .a).endEchoes.noteAll).modDev fun d =>
    let d : Dev := { d with
      fabricCycles := d.fabricCycles + 1, wraps := if d.fabricCycles = BitVec.allOnes 64 then d.wraps + 1 else d.wraps, fab := { d.fab with turned := [] } }
    if d.fabricCycles.toNat % 19000 = 0 then slewOnce d else d
/-- Fabric cycles pass. -/
def State.elapse (s : State) : Nat → State
  | 0 => s
  | n + 1 => s.fabricCycle.elapse n

/-! ## The agenda -/
/-- The free values of an event are its own (R2, log 7). -/
def State.nextDraw (s : State) : State := { s with freeCtr := s.freeCtr + 1 }
/-- A move that the agenda names (log 2, 14). -/
noncomputable def State.move (s : State) : Move → Out
  | .event i => s.nextDraw.carried i
  | .cycle c => { s with cur := c }.coreCycle
  | .fillI c va => .next (s.on c fun s => (s.codeUses va.toNat).foldl State.spend (s.fillICache va))
  | .fetch c n va => .next (s.on c fun s => s.onStrand n fun s => s.fetchAhead va)
  | .evictI c line => .next (s.on c fun s => s.modCore fun k => { k with icache := k.icache.filter fun l => l.line != line })
  | .evictD c line => .next (s.settleUses (s.on c fun s => s.expel fun l => l == line) [] false [])
  | .evictT c vbase => .next (s.on c fun s => s.modCore fun k => { k with tlb := k.tlb.filter fun e => e.vbase != vbase })
  | .hostRead fn off => .next (s.nextDraw.modDev fun d => { d with hostRd := s.nextDraw.hostRead fn off.toNat })
  | .errorRule kind t w => .next (s.setErrorRule kind t w)
  | .idle n => .next (s.elapse n)

/-! ## What the device does by itself -/
/-- The events of a core, one in each round. -/
noncomputable def coreEvents (c : Fin 256) : List Instr :=
  [.handlerEntry c, .noticeDelivery c, .overrun c, .discard c, .taskCommit c, .shadowBankSwap c,
   .shadowFill c, .galliardSpill c, .nestStart c, .pass c, .drain c, .bankLoad c, .recordRelease c,
   .barrierDrop c, .barrierReturn c, .gearTransitionComplete c, .coreLeavesPartition c]
    ++ [(0 : Fin 4), 1, 2, 3].flatMap fun q =>
      [.copyCommandStart c q, .ringReserve c q, .copyRequestIssue c q, .copyCommandComplete c q]
/-- The first waiting launch of a context that runs none starts (R359, R365). -/
noncomputable def State.launchTurn (s : State) (p : Fin 16) : Option Instr :=
  ((s.part p).waiting.find? fun (r : Rec) => !s.launching (BitVec.ofNat 12 r.ctx)).map fun r => .launchStart p (BitVec.ofNat 8 (Rec.ctx r))
/-- The eligible instances of a context of a partition that wait for a verdict of Chaconne, in the order of R373. -/
def State.unjudged (s : State) (p : Fin 16) : List (BitVec 12 × Inst) :=
  s.ctxs.flatMap fun c => match c.launch with
    | some l => if partOfCtx c.id = p then ((l.elig.filter (!·.ready)).foldr insertInst []).map fun i => (c.id, i) else []
    | none => []
/-- Each of them that Chaconne can serve has its turn: one whose context no Chaconne entry serves now, or which an earlier instance keeps
out of a full pool, holds no other back (R382). -/
noncomputable def State.chaconneTurn (s : State) (p : Fin 16) (round : Nat) : Option Instr :=
  let l := (s.unjudged p).filter fun x => (s.entryFor x.1).isSome
  l[round % l.length]?.map fun x => .chaconneEvaluate p (x.1.setWidth 8) x.2.node x.2.step (BitVec.ofNat 12 x.2.inst)
/-- The event of a partition whose turn it is, one kind in each round. -/
noncomputable def State.partTurn (s : State) (p : Fin 16) (round : Nat) : Option Instr :=
  match round % 4 with
  | 0 => s.launchTurn p
  | 1 => s.chaconneTurn p (round / 4)
  | 2 => some (.taskPlacement p)
  | _ => some (.timeSliceExpiry p)
/-- A message of the fabric arrives: each of them has its turn (R318, log 15). -/
noncomputable def State.messageTurn (s : State) (round : Nat) : Option Instr :=
  s.dev.fab.net[round % s.dev.fab.net.length]?.map fun m =>
    match m.kind.toNat with
    | 0 => .readRequest m.id
    | 1 => .write m.id
    | 2 => .atomicOrOrderedAccess m.id
    | 3 => .semaphoreIncrement m.id
    | 4 => .barrierArrival m.id
    | 5 => .ringPush m.id
    | 6 => .controlSpaceAccess m.id
    | 16 => .readAnswer m.id
    | 17 => .writeAcknowledgement m.id
    | 18 => .atomicAnswer m.id
    | 19 => .barrierRelease m.id
    | _ => .write m.id
/-- The messages that wait are admitted, oldest first, as far as there is room (R325, R328). -/
def State.admitAll (s : State) : State :=
  ((s.dev.fab.net.filter (·.st == .queued)).map (·.id)).foldl State.letIn s
/-- What refresh and firmware transfer in a controller period is charged to the system account: how much, the spec does not say, and it
is a free value (R492, R498, log 9). -/
def State.upkeep (s : State) : State := s.chargeSys (8 * Config.upkeepLines s.dev.power.periods)
/-- The turn of the device: boot, and once Fethen has released them the controllers and the host's commands (R511, R515); then the lease
of a cap, admission, and one fabric cycle. -/
def deviceTurn (s : State) : Out :=
  let s := if s.dev.fethen.boot = .held then s.powerOn else s
  let s := if s.dev.fethen.boot ≠ .held ∧ s.dev.power.periods < s.dev.fabricCycles.toNat / 256 then s.controllerPeriod.upkeep else s
  let s := s.runCommands
  .next (s.leaseExpiry.admitAll.elapse 1)
/-- The number of turns in a round of one fabric cycle: the cycle of each core, then its events, so that its strands come before its
queues (R345), the partitions, the fabric and the device. -/
def turns : Nat := 530
/-- The turn of a core: its clock restarts when it is due (R482), a barrier drop or return begins when it is due (R354), and
a core in gear N has a cycle in every fourth round (R22). -/
noncomputable def State.coreTurn (s : State) : Out := s.gearDone.barDrop.barReturn.coreCycle
/-- One turn. -/
noncomputable def State.turnOf (s : State) (t : Nat) : Out :=
  let round := s.dev.fabricCycles.toNat
  let run := fun (i : Option Instr) => match i with
    | some i => s.nextDraw.carried i
    | none => .next s.nextDraw
  if t < 256 then { s with cur := fin 256 t }.coreTurn
  else if t < 512 then run ((coreEvents (fin 256 t))[round % (coreEvents (fin 256 t)).length]?)
  else if t < 528 then run (s.partTurn (fin 16 t) round)
  else if t = 528 then run (s.messageTurn round)
  else deviceTurn s
noncomputable def State.auto (s : State) : Out := { s with turn := (s.turn + 1) % turns }.turnOf (s.turn % turns)
/-- One step of the machine: the next move of the agenda, or else the next turn. -/
noncomputable def State.nextStep (s : State) : Out :=
  match s.agenda with
  | m :: rest => { s with agenda := rest }.move m
  | [] => s.auto

end Sys2Proof.Machine
end

