-- ==== Sys2Proof/Machine/Step.lean ====
section
/-! DEFINITION. One step of the machine, and the placing of an instruction where the next step fetches it. -/
namespace Sys2Proof.Machine

/-- One step (log 2): the agenda's next move, or the next turn of the device. -/
noncomputable def step (s : State) : Host.Outcome State Fault Refusal := s.nextStep
/-- The state with the instruction of a table word placed at the PC of the strand that issues next (log 3). -/
def State.withFetchWord (s : State) (nbits w : Nat) : State := s.placeProgram nbits w

end Sys2Proof.Machine
end

