-- ==== Sys2Proof/Safety.lean ====
section
/-! DEFINITION. What a safe run is, and the words in which statements say what a step leaves unchanged. -/
namespace Sys2Proof.Machine

/-- No stop within k steps: neither a fault nor a refusal (the machine's own traps are next states). -/
def SafeFor : Nat → State → Prop
  | 0, _ => True
  | k + 1, s => ∃ t, step s = .next t ∧ SafeFor k t

/-- Nothing changed outside core `cur`: every byte of memory, the contexts, the partitions, the device, the other cores,
and which strand acts. -/
structure OnlyCore (s t : State) : Prop where
  bytes  : ∀ k, t.rd k = s.rd k
  marks  : t.mem.poison = s.mem.poison
  ctxs   : t.ctxs = s.ctxs
  parts  : t.parts = s.parts
  dev    : t.dev = s.dev
  place  : t.cur = s.cur ∧ t.curS = s.curS ∧ t.agenda = s.agenda ∧ t.turn = s.turn ∧ t.freeCtr = s.freeCtr
  others : ∀ c : Fin 256, c ≠ s.cur → t.cores[c] = s.cores[c]
/-- The contexts without their energy accounts (R498). -/
def unpaid (cs : List Ctx) : List Ctx := cs.map fun c => { c with ectx := Vector.replicate 4 0 }
/-- Nothing changed outside core `cur` but the energy accounts of the contexts (R498). -/
structure OnlyPaid (s t : State) : Prop where
  bytes  : ∀ k, t.rd k = s.rd k
  marks  : t.mem.poison = s.mem.poison
  ctxs   : unpaid t.ctxs = unpaid s.ctxs
  parts  : t.parts = s.parts
  dev    : t.dev = s.dev
  place  : t.cur = s.cur ∧ t.curS = s.curS ∧ t.agenda = s.agenda ∧ t.turn = s.turn ∧ t.freeCtr = s.freeCtr
  others : ∀ c : Fin 256, c ≠ s.cur → t.cores[c] = s.cores[c]
/-- The state after a command or a store has taken its number. -/
def numbered (s : State) : State := s.modFab fun f => { f with nextMsg := f.nextMsg + 1 }
/-- Nothing changed outside the state of the context on core `cur`. -/
structure OnlyBank (s t : State) : Prop where
  core : OnlyCore s t
  rest : t.core = { s.core with bank := t.bank }
/-- Nothing changed outside the strand that acts: no other strand, no queue, semaphore, barrier, matrix or trap register. -/
structure OnlyStrand (s t : State) : Prop where
  bank    : OnlyBank s t
  rest    : t.bank = { s.bank with strands := t.bank.strands }
  strands : ∀ n : Fin 4, n ≠ s.curS → t.bank.strands[n] = s.bank.strands[n]
/-- The strand went on past an instruction of n parcels: its PC and loop counters are what R137 gives, it waits on
nothing, and every other register but those that `f` changes is as before. -/
def Retired (s t : State) (n : Nat) (f : Strand → Strand) : Prop :=
  OnlyStrand s t ∧ t.strand = (f s.strand).retire n
/-- An exception was not taken between two states, and no task was ended: the trap registers and the task are as before. -/
def NoTrap (s t : State) : Prop := t.bank.trap = s.bank.trap ∧ t.bank.task = s.bank.task
/-- What an access of a strand may change: its strand, what its data cache and the version of its task hold, the
host writes the task holds (R176), the cached parameter blocks, and the store messages in the fabric. -/
structure OnlyAccess (s t : State) : Prop where
  poison  : t.mem.poison = s.mem.poison
  ctxs    : t.ctxs = s.ctxs
  parts   : t.parts = s.parts
  dev     : t.dev = { s.dev with fab := { s.dev.fab with net := t.dev.fab.net, nextMsg := t.dev.fab.nextMsg } }
  place   : t.cur = s.cur ∧ t.curS = s.curS ∧ t.agenda = s.agenda ∧ t.turn = s.turn ∧ t.freeCtr = s.freeCtr
  others  : ∀ c : Fin 256, c ≠ s.cur → t.cores[c] = s.cores[c]
  core    : t.core = { s.core with bank := t.bank, dirty := t.core.dirty, clean := t.core.clean, pbc := t.core.pbc }
  bank    : t.bank = { s.bank with strands := t.bank.strands, task := t.bank.task }
  strands : ∀ n : Fin 4, n ≠ s.curS → t.bank.strands[n] = s.bank.strands[n]
  task    : t.bank.task.map (fun k => { k with version := [], spill := [], verPois := [], escaped := false, hostQ := [] })
              = s.bank.task.map (fun k => { k with version := [], spill := [], verPois := [], escaped := false, hostQ := [] })
/-- What an access of a strand to a ring may change beyond its own registers: the rings of its context with the wake bits of
the strands that have mapped them (R459), the escape mark of its task (R161), and the messages in the fabric. -/
structure OnlyRings (s t : State) : Prop where
  bytes  : ∀ k, t.rd k = s.rd k
  poison : t.mem.poison = s.mem.poison
  parts  : t.parts = s.parts
  dev    : t.dev = { s.dev with fab := { s.dev.fab with net := t.dev.fab.net, nextMsg := t.dev.fab.nextMsg } }
  place  : t.cur = s.cur ∧ t.curS = s.curS ∧ t.agenda = s.agenda ∧ t.turn = s.turn ∧ t.freeCtr = s.freeCtr
  ctxs   : t.ctxs.map (fun c => { c with rings := [], saved := [] }) = s.ctxs.map (fun c => { c with rings := [], saved := [] })
  cores  : ∀ c : Fin 256, t.cores[c] = { s.cores[c] with bank := t.cores[c].bank, shadow := t.cores[c].shadow }
  banks  : ∀ c : Fin 256, c ≠ s.cur → t.cores[c].bank = { s.cores[c].bank with strands := t.cores[c].bank.strands }
  bank   : t.bank = { s.bank with strands := t.bank.strands, task := s.bank.task.map fun k => { k with escaped := true } }
  others : ∀ (c : Fin 256) (n : Fin 4), ¬ (c = s.cur ∧ n = s.curS) →
    t.cores[c].bank.strands[n] = { s.cores[c].bank.strands[n] with latch := t.cores[c].bank.strands[n].latch }
/-- Element j of w bits (R70, R201). -/
def el (w : Nat) (v : VReg) (j : Nat) : Nat := (v.extractLsb' (w * j) w).toNat
/-- The vector registers when v30 is the slot x of a ring. -/
def slotAt (s : State) (rg : RingInfo) (x : RSlot) (r : Fin 32) : VReg :=
  if r = 30 then BitVec.ofNat 4096 (s.rdN (rg.slotKey x.ix) 512) else s.strand.v[r]
/-- The slot that a ring with these reserved slots reserves next: the first from its next one on that is free (R298, R305). -/
def NextSlot (s : State) (rg : RingInfo) (n : Nat) (slots : List RSlot) (ix : Nat) : Prop :=
  let at_ := fun j => ((s.ctx.ringOf n).next + j) % rg.depth
  ∃ j < rg.depth, ix = at_ j ∧ (∀ x ∈ slots, x.ix ≠ ix) ∧ ∀ i < j, ∃ x ∈ slots, x.ix = at_ i
/-- One slot of a ring was reserved behind those given, and a message to its home carries X and the task's timestamp. -/
def Pushed (s t : State) (rg : RingInfo) (n : Nat) (slots : List RSlot) (X : VReg) : Prop :=
  ∃ ix, NextSlot s rg n slots ix ∧
  (∃ ts, (t.ctx.ringOf n).slots = slots ++ [⟨ix, false, ts⟩]) ∧
  ∃ m, t.dev.fab.net = s.dev.fab.net ++ [m] ∧ m.kind = 5 ∧ m.src = s.cur ∧ m.addr = rg.slotKey ix ∧ m.ref = n ∧ m.count = ix
    ∧ m.data = toLe 512 X.toNat ++ toLe 8 (match s.bank.task with | some k => k.mts.toNat | none => 0)
/-- What a vector instruction of n parcels does, with the ports of R228. `srcs`, `dst` and `spans` are the vector registers
that it reads, writes and uses as spans. `P rd old X f` says which X goes to dst, and what f does to the strand's other
registers, when register r reads as `rd r` and the destination holds `old`.
A breach of R228, or a port whose ring entry is not valid, raises RING. A port that waits for a slot leaves the strand not
ready. Otherwise the instruction retires: a mapped v30 is the oldest filled slot, whose timestamp goes to rts; a result for
a mapped v31 is a slot reserved and a message to its home that carries the bytes and the task's timestamp (R229). -/
def VecDoes (s : State) (i : Instr) (n : Nat) (srcs : List (Fin 32)) (dst : Option (Fin 32)) (readsDst : Bool)
    (spans : List (Fin 32)) (P : (Fin 32 → VReg) → VReg → VReg → (Strand → Strand) → Prop) : Prop :=
  let pop := s.strand.pop.toNat
  let push := s.strand.push.toNat
  let pops := pop ≠ 0 ∧ (30 : Fin 32) ∈ srcs
  let pushes := push ≠ 0 ∧ dst = some 31
  let breach := (pop ≠ 0 ∧ (dst = some 30 ∨ (30 : Fin 32) ∈ spans)) ∨ (push ≠ 0 ∧ ((31 : Fin 32) ∈ srcs ∨ (31 : Fin 32) ∈ spans))
    ∨ (pushes ∧ readsDst = true) ∨ (pops ∧ ringInfo s pop = none) ∨ (pushes ∧ ringInfo s push = none)
  let now := s.strand.v
  let putV := fun (X : VReg) (r : Strand) => match dst with
    | some d => { r with v := r.v.set d X }
    | none => r
  (breach → ∃ info, exec i s = .next (s.takeTrap 0x0B info))
  ∧ (¬ breach → ¬ pops → ¬ pushes → ∃ X f t, P (fun r => now[r]) (now[dst.getD 0]) X f ∧ exec i s = .next t
      ∧ Retired s t n fun r => f (putV X r))
  ∧ (¬ breach → ((∃ rg : RingInfo, pushes ∧ ringInfo s push = some rg ∧ rg.depth ≤ (s.ctx.ringOf push).slots.length)
        ∨ (pops ∧ ∀ x rest, (s.ctx.ringOf pop).slots = x :: rest → x.filled = false)) →
      ∃ t, exec i s = .next t ∧ OnlyStrand s t ∧ t.strand = { s.strand with wait := .other })
  ∧ (¬ breach → pops → ¬ pushes → s.bank.loaded = true → ∀ rg x rest, ringInfo s pop = some rg → (s.ctx.ringOf pop).slots = x :: rest → x.filled = true →
      ∃ X f t, P (slotAt s rg x) (now[dst.getD 0]) X f
        ∧ exec i s = .next t ∧ OnlyRings s t ∧ t.dev = s.dev ∧ (t.ctx.ringOf pop).slots = rest
        ∧ t.strand = (f (putV X { s.strand with rts := x.ts, latch := s.strand.latch ||| 8 })).retire n)
  ∧ (¬ breach → pushes → s.bank.loaded = true → ∀ rg, ringInfo s push = some rg → (s.ctx.ringOf push).slots.length < rg.depth →
      (¬ pops → ∃ X f t, P (fun r => now[r]) 0 X f ∧ exec i s = .next t ∧ OnlyRings s t ∧ Pushed s t rg push (s.ctx.ringOf push).slots X
        ∧ t.strand = (f { s.strand with latch := s.strand.latch ||| 8 }).retire n)
      ∧ (pops → ∀ rp x rest, ringInfo s pop = some rp → (s.ctx.ringOf pop).slots = x :: rest → x.filled = true →
        ∃ X f t, P (slotAt s rp x) 0 X f ∧ exec i s = .next t ∧ OnlyRings s t
          ∧ (pop ≠ push → (t.ctx.ringOf pop).slots = rest)
          ∧ Pushed s t rg push (if pop = push then rest else (s.ctx.ringOf push).slots) X
          ∧ t.strand = (f { s.strand with rts := x.ts, latch := s.strand.latch ||| 8 }).retire n))

end Sys2Proof.Machine
end

