-- ==== Sys2Proof/Certificates/Slice0/Obligations.lean ====
section
/-! DEFINITION. The statements for the provers. A statement of the form "exec answers a next state" says where an
instruction completes; the frames are those of Sys2Proof/Safety.lean. -/
namespace Sys2Proof.Machine

/-- i retires after n parcels with x in scalar register d, and nothing else changes; a write to s0 is discarded (R49). -/
def Puts (s : State) (i : Instr) (n : Nat) (d : Fin 64) (x : W64) : Prop :=
  ∃ t, exec i s = .next t ∧ Retired s t n (fun r => if d = 0 then r else { r with s := r.s.set d x })
/-- i retires after n parcels and changes nothing but the strand's registers, by f. -/
def Does (s : State) (i : Instr) (n : Nat) (f : Strand → Strand) : Prop := ∃ t, exec i s = .next t ∧ Retired s t n f
/-- i goes to a target of its own, links in d, and changes nothing else (R131). -/
def GoesTo (s : State) (i : Instr) (target : W64) (f : Strand → Strand) : Prop :=
  ∃ t, exec i s = .next t ∧ OnlyStrand s t ∧ t.strand = { f s.strand with pc := target, wait := .none }
/-- The strand as it goes on with x in register d. -/
def withS (d : Fin 64) (x : W64) (r : Strand) : Strand := if d = 0 then r else { r with s := r.s.set d x }
/-- The bytes of words of 32 bits, little-endian (R4). -/
def wordBytes : List Nat → List Byte
  | [] => []
  | w :: t => toLe 4 w ++ wordBytes t

end Sys2Proof.Machine

open Sys2Proof Sys2Proof.Machine

/-! ## Encoding and stepping -/

/-- Words of spec/02_encoding.md and of other chapters, bit by bit, decode to the instructions they stand for. -/
def Clauses.SpecWordsDecode : Prop :=
  decodeTableWord 96 (0x00001226 + 2 ^ 32 * 0 + 2 ^ 64 * 0x12345678) = some (.li 9 0x12345678)
  ∧ decodeTableWord 32 0x00A20604 = some (.add 3 4 5)
  ∧ decodeTableWord 64 (0x00010E61 + 2 ^ 32 * 0x0000801A) = some (.ldDL 7 2 ⟨64, false, 0, .dev, .acq⟩)
  ∧ decodeTableWord 64 (0x08030161 + 2 ^ 32 * 0x00000045) = some (.cpyL 1 6 ⟨0, 0, 0, 2, 5⟩)
  ∧ decodeTableWord 32 0x0000000C = some (.addi 0 0 0)
  ∧ decodeTableWord 32 0x00420050 = some (.loop 0 4 2)
  ∧ decodeTableWord 32 0x00028054 = some (.bqpush 5)
  ∧ decodeTableWord 32 0x00018058 = some (.bqb 3)
  ∧ decodeTableWord 32 0xFE210240 = some (.bne 1 2 (-2))
  ∧ decodeTableWord 32 0x00000000 = none

/-- Every well-formed instruction, written as bytes before any others, is read back whole, with the rest left over.
Rests on a choice of the model: log 25. -/
def Obligations.EncodeDecodeRoundTrip : Prop :=
  ∀ (i : Instr) (rest : List Byte), i.wf = true →
    encode i ≠ [] ∧ decode (wordBytes (encode i) ++ rest) = .ok (i, rest)

namespace Sys2Proof.Machine
/-- The lengths in parcels that R52 permits to a MAJ, read off its table; a MAJ that it does not assign has none. -/
def permittedLengths (m : Nat) : List Nat :=
  if m ∈ [0x00, 0x17, 0x27, 0x4B, 0x5F, 0x67, 0x73, 0x7F] then []
  else if m = 0x09 then [3]
  else if m = 0x03 ∨ m = 0x04 ∨ m = 0x05 ∨ m = 0x06 ∨ m = 0x08 ∨ m = 0x0A then [1, 3]
  else if m = 0x3B then [1, 2, 3]
  else if m ∈ [0x0C, 0x0D, 0x0E, 0x11, 0x1C, 0x1D, 0x3C, 0x3D, 0x3F, 0x45, 0x46, 0x4A, 0x60, 0x61] then [2]
  else if m ∈ [0x01, 0x02, 0x07, 0x10, 0x13, 0x14, 0x15, 0x47, 0x5E] ∨ (0x21 ≤ m ∧ m ≤ 0x26) ∨ (0x68 ≤ m ∧ m ≤ 0x70)
      ∨ (0x78 ≤ m ∧ m ≤ 0x7A) ∨ (0x7C ≤ m ∧ m ≤ 0x7E) then [1]
  else [1, 2]
end Sys2Proof.Machine

/-- The reasons of R56 that parcel 0 alone decides, for every MAJ of R52 with every length: a length of 11 is 0x01, a MAJ that no
chapter assigns is 0x02, and a length that the MAJ does not permit is 0x03; and no word of these kinds decodes. A length that the MAJ
permits is the length of the instruction. -/
def Clauses.IllegalLengthsAndMajors : Prop :=
  ∀ w w1 w2 : Nat,
    let permitted := permittedLengths (majOf w)
    (w % 4 = 3 → lengthOf w = .error 1 ∧ decodeParcels w w1 w2 = .error 1)
    ∧ (w % 4 ≠ 3 → permitted = [] → lengthOf w = .error 2 ∧ decodeParcels w w1 w2 = .error 2)
    ∧ (w % 4 ≠ 3 → permitted ≠ [] → w % 4 + 1 ∉ permitted → lengthOf w = .error 3 ∧ decodeParcels w w1 w2 = .error 3)
    ∧ (w % 4 ≠ 3 → w % 4 + 1 ∈ permitted → lengthOf w = .ok (w % 4 + 1)
        ∧ ∀ i k, decodeParcels w w1 w2 = .ok (i, k) → k = w % 4 + 1)

/-- Words of the spec decode to their instructions, and illegal lengths and majors are refused with their reason. Rests on a choice of the model: log 25. -/
def Obligations.DecoderReadsWords : Prop := Clauses.SpecWordsDecode ∧ Clauses.IllegalLengthsAndMajors

namespace Sys2Proof.Machine
/-- What a core cycle does that begins in p, where strand n alone of the core may issue and the parcels at its PC decode to i: i
runs, and what it leaves is t. Finding out whether the strand is ready runs i before its age becomes 0 and its lines come into the
instruction cache; it issues after (R112). The accesses of the cycle (R492) and its end follow (R490, R487, R404). -/
def RunsAlone (p : State) (n : Fin 4) (i : Instr) (o : Out) : Prop :=
  let v := p.cycleStart
  let u := v.focus v.cur n
  let f := v.withCode [n]
  let a := (f.focus f.cur n).modStrandN n fun x => { x with age := 0 }
  p.cycleDue = true → (∀ m, v.mayIssue m = decide (m = n)) →
  ∀ (w w1 w2 k : Nat) (r t : State), decodeParcels w w1 w2 = .ok (i, k) → u.parcels = .ok (w, w1, w2) → a.parcels = .ok (w, w1, w2) →
    exec i u.usedUp = .next r → r.waiting n = false → exec i a.usedUp = .next t → t.waiting n = false →
    o = .next ((v.cycleUses t [n] [n]).cycleEnd v.ctx.actctl v.bank.taskId u.weight (v.issues && v.overBudget))
end Sys2Proof.Machine

/-- A step that issues: the parcels at the strand's PC are fetched, and the instruction that they decode to runs; the age of a
strand that issued is zero (R112), and the core's cycle ends. So it is where the agenda names a cycle of the core, and where the
agenda is empty, it is the turn of the core's cycle, after its gear and its barrier drop have had their turn; this strand is the
only one of the core that may issue. The state in which the instruction runs differs from the state before only in the agenda or
the turn, the strand in turn and its age, the activity window (R490), the mark that the core has had its cycle in this fabric cycle (R22),
the lines of the instruction in the instruction cache, and the parcels fetched ahead.
Rests on choices of the model: log 1, 2, 8, 9, 11 and 14. -/
def Obligations.StepRunsDecoded : Prop :=
  (∀ (s : State) (c : Fin 256) (n : Fin 4) (rest : List Move) (i : Instr), s.agenda = .cycle c :: rest →
    RunsAlone ({ s with agenda := rest, cur := c } : State) n i (step s))
  ∧ ∀ (s : State) (c : Fin 256) (n : Fin 4) (i : Instr), s.agenda = [] → s.turn % 530 = c.val →
    RunsAlone ({ s with turn := (s.turn + 1) % 530, cur := c } : State).gearDone.barDrop.barReturn n i (step s)

/-- The parcel at an address is the four bytes that the strand's loads see there, little-endian, when it was neither
fetched ahead nor cached (R33, R156).
Rests on choices of the model: log 12 and 14. -/
def Obligations.FetchReadsMemory : Prop :=
  ∀ (s : State) (va : W64) (p : Piece),
    s.strand.fbuf = [] → s.core.icache = [] →
    checkAll s { acc := .fetch, ea := va.toNat, len := 4, align := 4 } = .ok [p] → p.len = 4 →
    ∃ w, s.parcelAt va = .ok w ∧
      w = (s.seen p.key).toNat + 2 ^ 8 * (s.seen (p.key + 1)).toNat + 2 ^ 16 * (s.seen (p.key + 2)).toNat
        + 2 ^ 24 * (s.seen (p.key + 3)).toNat

/-- SelectIssue of R113: an S-mode candidate wins, the lowest-numbered first; otherwise the largest age among those at
age.LIMIT or above; otherwise, and among equal ages, role L before C before E; then the lower number.
Rests on a choice of the model: log 9. -/
def Obligations.SelectIssueOrder : Prop :=
  ∀ (s : State) (cand : List (Fin 4)), cand.Pairwise (· < ·) →
    (cand = [] ↔ s.selectIssue cand = none) ∧
    ∀ n, s.selectIssue cand = some n → n ∈ cand ∧ ∀ m ∈ cand, m ≠ n →
      let a := s.bank.strands[n]
      let b := s.bank.strands[m]
      let aged := fun (x : Strand) => s.core.ageLimit.toNat ≤ x.age.toNat
      (a.smode = true ∧ (b.smode = true → n < m))
      ∨ (a.smode = false ∧ b.smode = false ∧
          ((aged a ∧ ¬ aged b)
          ∨ (aged a ∧ aged b ∧ b.age < a.age)
          ∨ (((aged a ∧ aged b ∧ a.age = b.age) ∨ (¬ aged a ∧ ¬ aged b)) ∧
              (roleRank a.role < roleRank b.role ∨ (roleRank a.role = roleRank b.role ∧ n < m)))))

/-! ## Scalar integer instructions -/

/-- ADD to ORN write the result of R122 to d and change nothing else; s0 stays zero (R49). -/
def Obligations.AluThreeRegister : Prop :=
  ∀ (s : State) (d a b : Fin 64),
    let x := s.rs a
    let y := s.rs b
    let k := y.toNat % 64
    Puts s (.add d a b) 1 d (x + y) ∧ Puts s (.sub d a b) 1 d (x - y)
    ∧ Puts s (.and d a b) 1 d (x &&& y) ∧ Puts s (.or d a b) 1 d (x ||| y) ∧ Puts s (.xor d a b) 1 d (x ^^^ y)
    ∧ Puts s (.shl d a b) 1 d (BitVec.ofNat 64 (x.toNat * 2 ^ k)) ∧ Puts s (.shr d a b) 1 d (BitVec.ofNat 64 (x.toNat / 2 ^ k))
    ∧ Puts s (.sar d a b) 1 d (BitVec.ofInt 64 (x.toInt / 2 ^ k))
    ∧ Puts s (.min d a b) 1 d (BitVec.ofNat 64 (min x.toNat y.toNat)) ∧ Puts s (.max d a b) 1 d (BitVec.ofNat 64 (max x.toNat y.toNat))
    ∧ Puts s (.mins d a b) 1 d (BitVec.ofInt 64 (min x.toInt y.toInt)) ∧ Puts s (.maxs d a b) 1 d (BitVec.ofInt 64 (max x.toInt y.toInt))
    ∧ Puts s (.slt d a b) 1 d (if x.toNat < y.toNat then 1 else 0) ∧ Puts s (.slts d a b) 1 d (if x.toInt < y.toInt then 1 else 0)
    ∧ Puts s (.seq d a b) 1 d (if x = y then 1 else 0) ∧ Puts s (.sne d a b) 1 d (if x = y then 0 else 1)
    ∧ Puts s (.mul d a b) 1 d (BitVec.ofNat 64 (x.toNat * y.toNat))
    ∧ Puts s (.mulhi d a b) 1 d (BitVec.ofNat 64 (x.toNat * y.toNat / 2 ^ 64))
    ∧ Puts s (.mulhis d a b) 1 d (BitVec.ofInt 64 (x.toInt * y.toInt / 2 ^ 64))
    ∧ Puts s (.andn d a b) 1 d (x &&& ~~~y) ∧ Puts s (.orn d a b) 1 d (x ||| ~~~y)

/-- R87: a quotient by zero has every bit set and the remainder is the dividend; the most negative value by -1 gives
itself and 0; every other division truncates towards zero and the remainder takes the dividend's sign. Nothing traps. -/
def Obligations.IntegerDivision : Prop :=
  ∀ (s : State) (d a b : Fin 64),
    let x := s.rs a
    let y := s.rs b
    ∃ q r qs rs : W64,
      Puts s (.div d a b) 1 d q ∧ Puts s (.rem d a b) 1 d r ∧ Puts s (.divs d a b) 1 d qs ∧ Puts s (.rems d a b) 1 d rs
      ∧ (y = 0 → q = BitVec.allOnes 64 ∧ r = x ∧ qs = BitVec.allOnes 64 ∧ rs = x)
      ∧ (x = BitVec.intMin 64 → y = BitVec.allOnes 64 → qs = x ∧ rs = 0)
      ∧ (y ≠ 0 → x.toNat = y.toNat * q.toNat + r.toNat ∧ r.toNat < y.toNat)
      ∧ (y ≠ 0 → ¬ (x = BitVec.intMin 64 ∧ y = BitVec.allOnes 64) →
          x.toInt = y.toInt * qs.toInt + rs.toInt ∧ rs.toInt.natAbs < y.toInt.natAbs ∧ (0 ≤ x.toInt → 0 ≤ rs.toInt) ∧ (x.toInt ≤ 0 → rs.toInt ≤ 0))

/-- CLZ to BSWAP write the result of R123, said bit by bit. -/
def Clauses.AluOneRegister : Prop :=
  ∀ (s : State) (d a : Fin 64),
    let x := s.rs a
    (∃ n ≤ 64, Puts s (.clz d a) 1 d (BitVec.ofNat 64 n) ∧ (∀ i, 64 - n ≤ i → x.getLsbD i = false) ∧ (n < 64 → x.getLsbD (63 - n) = true))
    ∧ (∃ n ≤ 64, Puts s (.ctz d a) 1 d (BitVec.ofNat 64 n) ∧ (∀ i < n, x.getLsbD i = false) ∧ (n < 64 → x.getLsbD n = true))
    ∧ Puts s (.popc d a) 1 d (BitVec.ofNat 64 ((List.range 64).countP fun i => x.getLsbD i))
    ∧ Puts s (.sextB d a) 1 d (BitVec.signExtend 64 (x.extractLsb' 0 8)) ∧ Puts s (.sextH d a) 1 d (BitVec.signExtend 64 (x.extractLsb' 0 16))
    ∧ Puts s (.sextW d a) 1 d (BitVec.signExtend 64 (x.extractLsb' 0 32))
    ∧ Puts s (.zextB d a) 1 d (x &&& 0xFF) ∧ Puts s (.zextH d a) 1 d (x &&& 0xFFFF) ∧ Puts s (.zextW d a) 1 d (x &&& 0xFFFFFFFF)
    ∧ (∃ y, Puts s (.brev d a) 1 d y ∧ ∀ i < 64, y.getLsbD i = x.getLsbD (63 - i))
    ∧ (∃ y, Puts s (.bswap d a) 1 d y ∧ ∀ i < 8, ∀ j < 8, y.getLsbD (8 * i + j) = x.getLsbD (8 * (7 - i) + j))

/-- The immediate forms (R124, R125): the immediate of length 00 and the literal of length 10 are extended as R124 says,
and the PC moves past the form's own parcels. -/
def Clauses.AluImmediates : Prop :=
  ∀ (s : State) (d a : Fin 64) (i : BitVec 11) (l : BitVec 32) (k : BitVec 6),
    let x := s.rs a
    Puts s (.addi d a i) 1 d (BitVec.ofInt 64 (x.toInt + i.toInt)) ∧ Puts s (.addiL d a l) 3 d (BitVec.ofInt 64 (x.toInt + l.toInt))
    ∧ Puts s (.andi d a i) 1 d (x &&& BitVec.ofNat 64 i.toNat) ∧ Puts s (.andiL d a l) 3 d (x &&& BitVec.ofNat 64 l.toNat)
    ∧ Puts s (.ori d a i) 1 d (x ||| BitVec.ofNat 64 i.toNat) ∧ Puts s (.oriL d a l) 3 d (x ||| BitVec.ofNat 64 l.toNat)
    ∧ Puts s (.xori d a i) 1 d (x ^^^ BitVec.ofInt 64 i.toInt) ∧ Puts s (.xoriL d a l) 3 d (x ^^^ BitVec.ofInt 64 l.toInt)
    ∧ Puts s (.slti d a i) 1 d (if x.toInt < i.toInt then 1 else 0) ∧ Puts s (.sltiL d a l) 3 d (if x.toInt < l.toInt then 1 else 0)
    ∧ Puts s (.shli d a k) 1 d (BitVec.ofNat 64 (x.toNat * 2 ^ k.toNat)) ∧ Puts s (.shri d a k) 1 d (BitVec.ofNat 64 (x.toNat / 2 ^ k.toNat))
    ∧ Puts s (.sari d a k) 1 d (BitVec.ofInt 64 (x.toInt / 2 ^ k.toNat))
    ∧ Puts s (.roli d a k) 1 d (BitVec.ofNat 64 (x.toNat * 2 ^ k.toNat + x.toNat / 2 ^ (64 - k.toNat)))

/-- LI, LIH, ADDPC, BFX, BFXS, BFI and SEL (R126 to R129). For the field forms, of fields that lie within 64 bits (R55). -/
def Clauses.LiteralsAndFields : Prop :=
  ∀ (s : State) (d a b c : Fin 64) (i : BitVec 11) (l : BitVec 32) (o : BitVec 17) (pos wm1 : BitVec 6),
    let x := s.rs a
    let w := wm1.toNat + 1
    let p := pos.toNat
    Puts s (.li d l) 3 d (BitVec.ofInt 64 l.toInt)
    ∧ (∃ y, Puts s (.lih d a i) 1 d y ∧ y.toNat % 2 ^ 32 = x.toNat % 2 ^ 32 ∧ y.toNat / 2 ^ 32 = (BitVec.ofInt 32 i.toInt).toNat)
    ∧ (∃ y, Puts s (.lihL d a l) 3 d y ∧ y.toNat % 2 ^ 32 = x.toNat % 2 ^ 32 ∧ y.toNat / 2 ^ 32 = l.toNat)
    ∧ Puts s (.addpc d o) 1 d (s.strand.pc + BitVec.ofInt 64 (4 * o.toInt)) ∧ Puts s (.addpcL d l) 2 d (s.strand.pc + BitVec.ofInt 64 (4 * l.toInt))
    ∧ Puts s (.sel d c a b) 2 d (if s.rs c = 0 then s.rs b else x)
    ∧ (p + w ≤ 64 →
        (∃ y, Puts s (.bfx d a pos wm1) 2 d y ∧ ∀ j < 64, y.getLsbD j = (decide (j < w) && x.getLsbD (p + j)))
        ∧ (∃ y, Puts s (.bfxs d a pos wm1) 2 d y ∧ ∀ j < 64, y.getLsbD j = x.getLsbD (if j < w then p + j else p + w - 1))
        ∧ (∃ y, Puts s (.bfi d a pos wm1) 2 d y ∧
            ∀ j < 64, y.getLsbD j = if p ≤ j ∧ j < p + w then x.getLsbD (j - p) else (s.rs d).getLsbD j))

/-- CLZ to BSWAP, the immediate forms, LI, LIH, ADDPC, SEL and the bit-field instructions. -/
def Obligations.ScalarImmediatesAndFields : Prop := Clauses.AluOneRegister ∧ Clauses.AluImmediates ∧ Clauses.LiteralsAndFields

/-! ## Scalar floating point -/
namespace Sys2Proof.Machine
/-- The rounding mode of R82: DYN takes rmode, in which RSR (6) acts as RNE. -/
def modeOf (s : State) (r : Rnd) : Rnd :=
  match r with
  | .dyn => match s.strand.rmode.toNat with
    | 1 => .rtz | 2 => .rdn | 3 => .rup | 4 => .rna | 5 => .rod | _ => .rne
  | m => m
/-- The F32 value of the low half of a register. -/
def f32Of (s : State) (a : Fin 64) : Sys2Proof.Num.FV := Sys2Proof.Num.read .f32 ((s.rs a).setWidth 32).toNat
/-- An F32 result under a mode. -/
def f32Res (m : Rnd) (x : Sys2Proof.Num.FV) : W64 := BitVec.ofNat 64 (Sys2Proof.Num.round { mode := m } .f32 x)
/-- Whether a mode takes the magnitude k / 2^n to the next integer away from zero (R78). -/
def awayFromZero (m : Rnd) (neg : Bool) (k n : Nat) : Bool :=
  let rem := k % 2 ^ n
  let odd := k / 2 ^ n % 2 == 1
  match m with
  | .rtz => false
  | .rdn => neg && rem != 0
  | .rup => !neg && rem != 0
  | .rna => rem != 0 && decide (2 ^ n ≤ 2 * rem)
  | .rod => rem != 0 && !odd
  | _ => decide (2 ^ n < 2 * rem) || (rem != 0 && 2 * rem == 2 ^ n && odd)
/-- A value as a signed integer of 64 bits: rounded under a mode, then saturated (R86). -/
def intOf (m : Rnd) (x : Sys2Proof.Num.FV) : W64 :=
  match x with
  | .nan => 0
  | .inf neg => if neg then BitVec.intMin 64 else BitVec.intMax 64
  | .fin neg k e =>
    let n := (-e).toNat
    let u := if 0 ≤ e then k * 2 ^ e.toNat else k / 2 ^ n + if awayFromZero m neg k n then 1 else 0
    BitVec.ofInt 64 (max (-2 ^ 63) (min (2 ^ 63 - 1) (if neg then -(u : Int) else u)))
end Sys2Proof.Machine

/-- FADD to FNEG (R130): the F32 result of the low halves, rounded once under the form's mode, with bits [63:32] clear. Each of these
instructions completes in every state; RSR is no mode of them (R82). -/
def Obligations.ScalarFloat : Prop :=
  ∀ (s : State) (d a b c : Fin 64) (r : Rnd) (long : Bool), r ≠ .rsr →
    let x := f32Of s a
    let y := f32Of s b
    let n := if long then 2 else 1
    let m := modeOf s r
    let lo := (s.rs a).setWidth 32
    Puts s (.fadd d a b) 1 d (f32Res .rne (Sys2Proof.Num.add .rne x y)) ∧ Puts s (.faddL d a b r) 2 d (f32Res m (Sys2Proof.Num.add m x y))
    ∧ Puts s (.fsub d a b) 1 d (f32Res .rne (Sys2Proof.Num.add .rne x (Sys2Proof.Num.neg y))) ∧ Puts s (.fsubL d a b r) 2 d (f32Res m (Sys2Proof.Num.add m x (Sys2Proof.Num.neg y)))
    ∧ Puts s (.fmul d a b) 1 d (f32Res .rne (Sys2Proof.Num.mul x y)) ∧ Puts s (.fmulL d a b r) 2 d (f32Res m (Sys2Proof.Num.mul x y))
    ∧ Puts s (.ffma d a b c r) 2 d (f32Res m (Sys2Proof.Num.add m (Sys2Proof.Num.mul x y) (f32Of s c)))
    ∧ Puts s (.feq d a b long) n d (if !Sys2Proof.Num.isNan x && !Sys2Proof.Num.isNan y && Sys2Proof.Num.cmp x y == 0 then 1 else 0)
    ∧ Puts s (.flt d a b long) n d (if !Sys2Proof.Num.isNan x && !Sys2Proof.Num.isNan y && decide (Sys2Proof.Num.cmp x y < 0) then 1 else 0)
    ∧ Puts s (.fle d a b long) n d (if !Sys2Proof.Num.isNan x && !Sys2Proof.Num.isNan y && decide (Sys2Proof.Num.cmp x y ≤ 0) then 1 else 0)
    ∧ (∃ v : W64, Puts s (.fmin d a b long) n d v ∧
        (Sys2Proof.Num.isNan x = true → Sys2Proof.Num.isNan y = true → v = 0x7FC00000) ∧ (Sys2Proof.Num.isNan x = true → Sys2Proof.Num.isNan y = false → v = ((s.rs b).setWidth 32).setWidth 64)
        ∧ (Sys2Proof.Num.isNan x = false → Sys2Proof.Num.isNan y = true → v = lo.setWidth 64)
        ∧ (Sys2Proof.Num.isNan x = false → Sys2Proof.Num.isNan y = false → v = if Sys2Proof.Num.cmpZ y x < 0 then ((s.rs b).setWidth 32).setWidth 64 else lo.setWidth 64))
    ∧ (∃ v : W64, Puts s (.fmax d a b long) n d v ∧
        (Sys2Proof.Num.isNan x = true → Sys2Proof.Num.isNan y = true → v = 0x7FC00000) ∧ (Sys2Proof.Num.isNan x = true → Sys2Proof.Num.isNan y = false → v = ((s.rs b).setWidth 32).setWidth 64)
        ∧ (Sys2Proof.Num.isNan x = false → Sys2Proof.Num.isNan y = true → v = lo.setWidth 64)
        ∧ (Sys2Proof.Num.isNan x = false → Sys2Proof.Num.isNan y = false → v = if Sys2Proof.Num.cmpZ x y < 0 then ((s.rs b).setWidth 32).setWidth 64 else lo.setWidth 64))
    ∧ Puts s (.fabs d a long) n d ((lo &&& 0x7FFFFFFF).setWidth 64) ∧ Puts s (.fneg d a long) n d ((lo ^^^ 0x80000000).setWidth 64)
    ∧ Puts s (.fcvtF32I64 d a) 1 d (f32Res .rne (Sys2Proof.Num.ofInt (s.rs a).toInt)) ∧ Puts s (.fcvtF32I64L d a r) 2 d (f32Res m (Sys2Proof.Num.ofInt (s.rs a).toInt))
    ∧ Puts s (.fcvtI64F32 d a) 1 d (intOf .rne x) ∧ Puts s (.fcvtI64F32L d a r) 2 d (intOf m x)

/-- Rounding changes no value that the format holds (R78): every encoding but a NaN is the rounding of its own value, in
every format and mode. -/
def Obligations.RoundKeepsRepresentable : Prop :=
  ∀ (t : Ty) (c : Sys2Proof.Num.RC) (x : Nat), Sys2Proof.Num.isFp t = true → c.ftz = false → c.sat = false → x < 2 ^ t.bits → Sys2Proof.Num.read t x ≠ .nan →
    Sys2Proof.Num.round c t (Sys2Proof.Num.read t x) = x

/-! ## Branches, jumps and loops -/

/-- The branches (R132, R133): taken when the condition of R53 holds, to PC + 4 × offset; else on to the next instruction. -/
def Clauses.Branches : Prop :=
  ∀ (s : State) (a b : Fin 64) (o : BitVec 8) (l : BitVec 32),
    let x := s.rs a
    let y := s.rs b
    let ok := fun (i j : Instr) (p : Prop) =>
      (p → GoesTo s i (s.strand.pc + BitVec.ofInt 64 (4 * o.toInt)) id ∧ GoesTo s j (s.strand.pc + BitVec.ofInt 64 (4 * l.toInt)) id)
      ∧ (¬ p → Does s i 1 id ∧ Does s j 2 id)
    ok (.beq a b o) (.beqL a b l) (x = y) ∧ ok (.bne a b o) (.bneL a b l) (x ≠ y)
    ∧ ok (.blt a b o) (.bltL a b l) (x.toNat < y.toNat) ∧ ok (.bge a b o) (.bgeL a b l) (y.toNat ≤ x.toNat)
    ∧ ok (.blts a b o) (.bltsL a b l) (x.toInt < y.toInt) ∧ ok (.bges a b o) (.bgesL a b l) (y.toInt ≤ x.toInt)

/-- JAL links the next instruction and goes to PC + 4 × offset (R134); JALR reads a before it writes d (R135). -/
def Clauses.JumpsLink : Prop :=
  ∀ (s : State) (d a : Fin 64) (o : BitVec 17) (l : BitVec 32) (i : BitVec 11),
    let target := s.rs a + BitVec.ofInt 64 i.toInt
    GoesTo s (.jal d o) (s.strand.pc + BitVec.ofInt 64 (4 * o.toInt)) (withS d (s.strand.pc + 4))
    ∧ GoesTo s (.jalL d l) (s.strand.pc + BitVec.ofInt 64 (4 * l.toInt)) (withS d (s.strand.pc + 8))
    ∧ (target.toNat % 4 = 0 → GoesTo s (.jalr d a i) target (withS d (s.strand.pc + 4)))
    ∧ (target.toNat % 4 ≠ 0 → exec (.jalr d a i) s = .next (s.takeTrap 0x03 target.toNat))

/-- LOOP (R136): the counter that it names, and no other.
Rests on a choice of the model: log 40. -/
def Obligations.LoopStarts : Prop :=
  ∀ (s : State) (lc : Fin 2) (a : Fin 64) (len : BitVec 11),
    let n : BitVec 32 := (s.rs a).setWidth 32
    let stop : W64 := s.strand.pc + 4 + BitVec.ofNat 64 (4 * len.toNat)
    (n = 0 → GoesTo s (.loop lc a len) stop fun r => { r with lc := r.lc.set lc ⟨0, false, len, stop.setWidth 56⟩ })
    ∧ (n ≠ 0 → Does s (.loop lc a len) 1 fun r => { r with lc := r.lc.set lc ⟨n, true, len, stop.setWidth 56⟩ })

/-- R137, for every instruction that retires without a taken transfer: lc1 is looked at first; a counter that is active and
whose END is the next PC counts down, and sends the strand back while it is not zero. -/
def Obligations.LoopBackEdge : Prop :=
  ∀ (r : Strand) (n : Nat),
    let nxt := r.pc + BitVec.ofNat 64 (4 * n)
    let at_ := fun (l : LoopCtr) => l.active = true ∧ nxt = l.end_.setWidth 64
    let back := fun (l : LoopCtr) => l.end_.setWidth 64 - BitVec.ofNat 64 (4 * l.len.toNat)
    let l1 := r.lc[1]
    let l0 := r.lc[0]
    let t := r.retire n
    (t = { r with pc := t.pc, lc := t.lc, wait := .none })
    ∧ (¬ at_ l1 → t.lc[1] = l1)
    ∧ (at_ l1 → l1.count ≠ 1 → t.pc = back l1 ∧ t.lc[1] = { l1 with count := l1.count - 1 } ∧ t.lc[0] = l0)
    ∧ (at_ l1 → l1.count = 1 → t.lc[1] = { l1 with count := 0, active := false })
    ∧ ((¬ at_ l1 ∨ l1.count = 1) → (¬ at_ l0 → t.pc = nxt ∧ t.lc[0] = l0)
        ∧ (at_ l0 → l0.count ≠ 1 → t.pc = back l0 ∧ t.lc[0] = { l0 with count := l0.count - 1 })
        ∧ (at_ l0 → l0.count = 1 → t.pc = nxt ∧ t.lc[0] = { l0 with count := 0, active := false }))

/-- The branch queue (R139 to R141): BQPUSH appends one bit at the tail unless 64 entries are held, BQB takes the head;
a strand that finds the queue full, or empty, is not ready and changes nothing but what it waits on. -/
def Clauses.BranchQueue : Prop :=
  ∀ (s : State) (a : Fin 64) (o : BitVec 17) (l : BitVec 32),
    (s.bank.bq.length < 64 → ∃ t, exec (.bqpush a) s = .next t ∧ OnlyBank s t ∧
      t.bank = { s.bank with bq := s.bank.bq ++ [decide (s.rs a ≠ 0)], strands := s.bank.strands.set s.curS (s.strand.retire 1) })
    ∧ (64 ≤ s.bank.bq.length → ∃ t, exec (.bqpush a) s = .next t ∧ OnlyStrand s t ∧
        t.strand = { s.strand with wait := .other })
    ∧ (∀ h rest, s.bank.bq = h :: rest →
        (∃ t, exec (.bqb o) s = .next t ∧ OnlyBank s t ∧ t.bank = { s.bank with
            bq := rest
            strands := s.bank.strands.set s.curS (if h then { s.strand with pc := s.strand.pc + BitVec.ofInt 64 (4 * o.toInt), wait := .none } else s.strand.retire 1) })
        ∧ (∃ t, exec (.bqbL l) s = .next t ∧ OnlyBank s t ∧ t.bank = { s.bank with
            bq := rest
            strands := s.bank.strands.set s.curS (if h then { s.strand with pc := s.strand.pc + BitVec.ofInt 64 (4 * l.toInt), wait := .none } else s.strand.retire 2) }))
    ∧ (s.bank.bq = [] → ∃ t u, exec (.bqb o) s = .next t ∧ OnlyStrand s t ∧ t.strand = { s.strand with wait := .other }
        ∧ exec (.bqbL l) s = .next u ∧ OnlyStrand s u ∧ u.strand = { s.strand with wait := .other })

/-- Branches, JAL, JALR, BQPUSH and BQB. Rests on a choice of the model: log 8. -/
def Obligations.BranchesAndJumps : Prop := Clauses.Branches ∧ Clauses.JumpsLink ∧ Clauses.BranchQueue

/-! ## Memory -/
namespace Sys2Proof.Machine
/-- A load of len bytes at ea succeeds with the bytes b (R164 to R166): it is not held by a fence, every part passes its
checks under the alignment that R163 asks, and no part waits in the store buffer. -/
def Loads (s : State) (ea : W64) (len align : Nat) (x : XM) (ps : List Piece) (b : List Byte) : Prop :=
  let ordered := x.ord != .plain
  s.fenceHold = false ∧ s.loadAll (x.ord == .acq) ps = .ok b ∧
    checkAll s { acc := .load, ea := ea.toNat, len := len, align := if ordered then len else align, ordered := ordered } = .ok ps
/-- What a load changes beside its destination: no byte of memory and none that the core sees. An ordered access to COMMONS marks the
task (R161) and finds its lines in no data cache; a task's plain load of one part brings the lines that the core may cache into its
data cache (R153). -/
def Looked (s t : State) (ordered : Bool) (ps : List Piece) : Prop :=
  OnlyAccess s t ∧ t.dev = s.dev ∧ (∀ k, t.rd k = s.rd k) ∧ (∀ k, t.seen k = s.seen k)
    ∧ (∀ k, s.bank.task = some k → ∃ k', t.bank.task = some k' ∧ k'.escaped = (k.escaped || ordered && ps.any (·.kind == 2))
        ∧ k'.hostQ = k.hostQ ∧ k'.spill = k.spill ∧ k'.verPois = k.verPois)
    ∧ (ordered = true → ∀ p ∈ ps, p.space = .hbm → ∀ l, p.inLine l = true → l ∉ t.core.cached)
    ∧ (ordered = false → s.bank.task.isSome = true → ∀ p, ps = [p] → ∀ l ∈ p.cacheLines, l ∈ t.core.cached)
/-- What a load leaves: its value in the destination, by f. -/
def LoadsInto (s : State) (i : Instr) (n : Nat) (ordered : Bool) (ps : List Piece) (f : Strand → Strand) : Prop :=
  ∃ t, exec i s = .next t ∧ Looked s t ordered ps ∧ t.strand = (f { s.strand with fence := 0 }).retire n
/-- LDV into vector register vd, which has no source, under the ports of R228: a mapped v30 is no destination; into a mapped v31 the
bytes go to a slot of the ring, as the load has left the core, and while every slot is taken the strand is not ready. -/
def LoadsVec (s : State) (i : Instr) (n : Nat) (vd : Fin 32) (ps : List Piece) (b : List Byte) : Prop :=
  let pop := s.strand.pop.toNat
  let push := s.strand.push.toNat
  let X : VReg := BitVec.ofNat 4096 (leNat b)
  let pushes := push ≠ 0 ∧ vd = 31
  let breach := (pop ≠ 0 ∧ vd = 30) ∨ (pushes ∧ ringInfo s push = none)
  (breach → ∃ info, exec i s = .next (s.takeTrap 0x0B info))
  ∧ (¬ breach → ¬ pushes → LoadsInto s i n false ps fun r => { r with v := r.v.set vd X })
  ∧ (¬ breach → pushes → ∀ rg, ringInfo s push = some rg →
      (rg.depth ≤ (s.ctx.ringOf push).slots.length →
        ∃ t, exec i s = .next t ∧ OnlyStrand s t ∧ t.strand = { s.strand with wait := .other })
      ∧ ((s.ctx.ringOf push).slots.length < rg.depth → s.bank.loaded = true →
        ∃ u t, Looked s u false ps ∧ u.strand = { s.strand with fence := 0 } ∧ exec i s = .next t ∧ OnlyRings u t
          ∧ Pushed u t rg push (s.ctx.ringOf push).slots X
          ∧ t.strand = ({ s.strand with fence := 0, latch := s.strand.latch ||| 8 } : Strand).retire n))
/-- A number of n bytes read in two's complement. -/
def signedOf (n v : Nat) : Int := if v % 2 ^ (8 * n) < 2 ^ (8 * n - 1) then (v % 2 ^ (8 * n) : Nat) else (v % 2 ^ (8 * n) : Nat) - (2 ^ (8 * n) : Nat)
/-- The bytes that a store leaves in the data cache or the version: the later part of a store counts (R153, R155). -/
def storedAt : List Piece → List Byte → Nat → Option Byte
  | [], _, _ => none
  | p :: t, d, k => (storedAt t (d.drop p.len) k).or
      (if p.space = .hbm ∧ p.kind ≠ 2 ∧ p.key ≤ k ∧ k < p.key + p.len then (d.take p.len)[k - p.key]? else none)
/-- The bytes that a store sends by message to a home (R318), in order: vaults, COMMONS and control space. -/
def sentBytes : List Piece → List Byte → List (Nat × Byte)
  | [], _ => []
  | p :: t, d => (if p.space = .host ∨ (p.space = .hbm ∧ p.kind ≠ 2) then [] else (keysFrom p.key p.len).zip (d.take p.len))
      ++ sentBytes t (d.drop p.len)
/-- The host writes that a store adds to the commit queue (R176). -/
def hostWrites : List Piece → List Byte → List HostOp
  | [], _ => []
  | p :: t, d => (if p.space = .host then [.write (BitVec.ofNat 64 (p.key - 2 ^ 64)) (d.take p.len)] else []) ++ hostWrites t (d.drop p.len)
/-- A store of the bytes d at ea goes ahead: every part passes its checks and lies outside the save-area slot, the version
and the store buffer have room (R377, R178), and a release has nothing to wait for (R184). -/
def Stores (s : State) (ea : W64) (d : List Byte) (align : Nat) (x : XM) (ps : List Piece) : Prop :=
  let u := s.clearFence
  let ordered := x.ord != .plain
  s.fenceHold = false ∧ s.bank.task.isSome = true ∧ (∀ p ∈ ps, p.kind ≠ 4 ∧ p.len ≤ d.length)
  ∧ checkAll u { acc := .store, ea := ea.toNat, len := d.length, align := if ordered then d.length else align, ordered := ordered } = .ok ps
  ∧ (ps.map (·.len)).sum = d.length
  ∧ overflowOf u ps = none ∧ u.bufferUsed < 32
  ∧ ((x.ord = .rel ∨ x.ord = .ar) → wideScope x.scope = true → (∃ p ∈ ps, p.space = .hbm ∧ p.kind ≠ 2) → u.pendingBelow u.releaseBound = false)
/-- What a store of n parcels and the bytes d leaves of s, with the address of each byte that ps gives. -/
def Stored (s t : State) (n : Nat) (d : List Byte) (ps : List Piece) : Prop :=
  OnlyAccess s t ∧ t.strand = ({ s.strand with fence := 0 } : Strand).retire n
    ∧ (∀ k, t.rd k = s.rd k)
    ∧ (∀ k, t.seen k = (storedAt ps d k).getD (s.seen k))
    ∧ (∃ new, t.dev.fab.net = s.dev.fab.net ++ new
        ∧ (∀ m ∈ new, m.isStore = true ∧ m.src = s.cur ∧ m.st = .queued)
        ∧ (new.flatMap fun m => (keysFrom m.addr m.data.length).zip m.data) = sentBytes ps d)
    ∧ (∀ k, s.bank.task = some k → ∃ k', t.bank.task = some k' ∧ k'.hostQ = k.hostQ ++ hostWrites ps d
        ∧ k'.escaped = (k.escaped || ps.any fun p => p.kind == 2 && p.space != .host && p.space != .control))
def StoresTo (s : State) (i : Instr) (n : Nat) (d : List Byte) (ps : List Piece) : Prop := ∃ t, exec i s = .next t ∧ Stored s t n d ps
/-- STV of vector register vd under the ports of R228: a mapped v31 is no source, and a mapped v30 is the oldest filled slot, which
leaves its ring only when the store retires; with no filled slot the strand is not ready. -/
def StoresVec (s : State) (i : Instr) (n : Nat) (vd : Fin 32) (ea : W64) (ps : List Piece) : Prop :=
  let pop := s.strand.pop.toNat
  let push := s.strand.push.toNat
  let pops := pop ≠ 0 ∧ vd = 30
  let breach := (push ≠ 0 ∧ vd = 31) ∨ (pops ∧ ringInfo s pop = none)
  (breach → ∃ info, exec i s = .next (s.takeTrap 0x0B info))
  ∧ (¬ breach → ¬ pops → Stores s ea (toLe 512 s.strand.v[vd].toNat) 64 XM.none ps → StoresTo s i n (toLe 512 s.strand.v[vd].toNat) ps)
  ∧ (pops → ∀ rg, ringInfo s pop = some rg →
      (s.popSlot rg pop = none → ∃ t, exec i s = .next t ∧ OnlyStrand s t ∧ t.strand = { s.strand with wait := .other })
      ∧ ∀ u v, s.popSlot rg pop = some (u, v) → Stores u ea (toLe 512 v.toNat) 64 XM.none ps →
          ∃ t, exec i s = .next t ∧ Stored u t n (toLe 512 v.toNat) ps)
end Sys2Proof.Machine

/-- The loads (R145, R153, R167 to R169, R228): the address is a plus the form's displacement, the bytes are little-endian, and each
form extends them as its entry says. A load into s0 keeps its checks and discards the value; LDV into a mapped v31 pushes the
bytes. -/
def Clauses.LoadsComplete : Prop :=
  ∀ (s : State) (d a : Fin 64) (vd : Fin 32) (o : BitVec 11) (o12 : BitVec 12) (w : BitVec 2) (sx : Bool) (x : XM) (ps : List Piece) (b : List Byte),
    let near := s.rs a + BitVec.ofInt 64 o.toInt
    let far := s.rs a + BitVec.ofInt 64 x.disp.toInt
    let ord := x.ord != .plain
    let dword := withS d (BitVec.ofNat 64 (leNat b))
    let word := withS d ((BitVec.ofNat 32 (leNat b)).signExtend 64)
    let n := 2 ^ w.toNat
    (Loads s near 8 1 XM.none ps b → LoadsInto s (.ldD d a o) 1 false ps dword)
    ∧ (Loads s near 4 1 XM.none ps b → LoadsInto s (.ldW d a o) 1 false ps word)
    ∧ (x.ord ≠ .rel → x.ord ≠ .ar → (x.ord = .plain ∨ s.bank.task.isSome = true) →
        (Loads s far 8 1 x ps b → LoadsInto s (.ldDL d a x) 2 ord ps dword)
        ∧ (Loads s far 4 1 x ps b → LoadsInto s (.ldWL d a x) 2 ord ps word)
        ∧ (Loads s far n 1 x ps b → LoadsInto s (.ldx d a w sx x) 2 ord ps
            (withS d (if sx then BitVec.ofInt 64 (signedOf n (leNat b)) else BitVec.ofNat 64 (leNat b)))))
    ∧ (Loads s (s.rs a + BitVec.ofInt 64 (64 * o12.toInt)) 512 64 XM.none ps b → LoadsVec s (.ldv vd a o12) 1 vd ps b)
    ∧ (Loads s far 512 64 XM.none ps b → LoadsVec s (.ldvL vd a x) 2 vd ps b)

/-- Where the bytes of one part of a load come from (R154, R155, R182, R322): while the part meets stores of the core that are not
acknowledged, each byte from the last of them that covers it. The load is held when a byte has none, when that store is performed and
its home holds another byte by now (R188, log 10), when it acquires a COMMONS location and one of them is not performed (R189, log 10),
and when it reads the partition's block (R510). Without such a store: the data cache, the task's version and memory, in that order;
host memory directly. -/
def Clauses.LoadBytes : Prop :=
  ∀ (s : State) (p : Piece) (acq : Bool),
    let open_ := s.stores.filter fun m => m.meets p.key p.len
    let newest := fun (k : Nat) => (open_.filter fun m => decide (m.addr ≤ k) && decide (k < m.addr + m.data.length)).getLast?
    let gone := fun (k : Nat) => newest k = none ∨ ∃ m, newest k = some m ∧ m.st = .performed ∧ m.data[k - m.addr]? ≠ some (s.mem.byte k)
    let hold := p.space = .control ∨ (acq = true ∧ p.kind = 2 ∧ ∃ m ∈ open_, m.st ≠ .performed) ∨ ∃ j < p.len, gone (p.key + j)
    (open_ ≠ [] → hold → s.loadPiece acq p = .error (.wait .other))
    ∧ (open_ ≠ [] → ¬ hold → ∃ b, s.loadPiece acq p = .ok b ∧ b.length = p.len ∧
        ∀ j (h : j < b.length), ∃ m, newest (p.key + j) = some m ∧ m.data[p.key + j - m.addr]? = some b[j])
    ∧ (open_ = [] → p.space = .hbm ∨ (∃ c, p.space = .vault c) → ∃ b, s.loadPiece acq p = .ok b ∧ b.length = p.len ∧
        ∀ j (h : j < b.length), b[j] = match ovGet s.core.dirty (p.key + j) with
          | some x => x
          | none => match s.bank.task.bind fun t => ovGet t.version (p.key + j) with
            | some x => x
            | none => s.mem.byte (p.key + j))
    ∧ (open_ = [] → p.space = .host → ∃ b, s.loadPiece acq p = .ok b ∧ b.length = p.len ∧ ∀ j (h : j < b.length), b[j] = s.mem.byte (p.key + j))

/-- Loads complete with the bytes of their address, and where each byte comes from. Rests on choices of the model: log 10, 11 and 12. -/
def Obligations.LoadsReadBytes : Prop := Clauses.LoadsComplete ∧ Clauses.LoadBytes

/-- The stores (R153, R155, R167 to R169, R176, R318): the low bytes of the source, little-endian, at a plus the form's
displacement; a byte outside the stored ones reads as before. A store of the mapped v30 or v31 has the ports of R228 (log 29).
Rests on choices of the model: log 10, 12 and 29. -/
def Obligations.StoresComplete : Prop :=
  ∀ (s : State) (d a : Fin 64) (vd : Fin 32) (o : BitVec 11) (o12 : BitVec 12) (w : BitVec 2) (x : XM) (ps : List Piece),
    let near := s.rs a + BitVec.ofInt 64 o.toInt
    let far := s.rs a + BitVec.ofInt 64 x.disp.toInt
    let low := fun n => toLe n (s.rs d).toNat
    (Stores s near (low 8) 1 XM.none ps → StoresTo s (.stD d a o) 1 (low 8) ps)
    ∧ (Stores s near (low 4) 1 XM.none ps → StoresTo s (.stW d a o) 1 (low 4) ps)
    ∧ (x.ord ≠ .acq → x.ord ≠ .ar →
        (Stores s far (low 8) 1 x ps → StoresTo s (.stDL d a x) 2 (low 8) ps)
        ∧ (Stores s far (low 4) 1 x ps → StoresTo s (.stWL d a x) 2 (low 4) ps)
        ∧ (Stores s far (low (2 ^ w.toNat)) 1 x ps → StoresTo s (.stx d a w x) 2 (low (2 ^ w.toNat)) ps))
    ∧ StoresVec s (.stv vd a o12) 1 vd (s.rs a + BitVec.ofInt 64 (64 * o12.toInt)) ps ∧ StoresVec s (.stvL vd a x) 2 vd far ps

namespace Sys2Proof.Machine
/-- The new value of an ATOM of n bytes (R170): none where a CAS fails. -/
def atomValue (op : AtomOp) (n old x cmp : Nat) : Option Nat :=
  match op with
  | .add => some ((old + x) % 2 ^ (8 * n))
  | .and => some (old &&& x)
  | .or => some (old ||| x)
  | .xor => some (old ^^^ x)
  | .min => some (if x < old then x else old)
  | .max => some (if old < x then x else old)
  | .mins => some (if signedOf n x < signedOf n old then x else old)
  | .maxs => some (if signedOf n old < signedOf n x then x else old)
  | .swap => some x
  | .fadd32 => some (Sys2Proof.Num.round { mode := .rne } .f32 (Sys2Proof.Num.add .rne (Sys2Proof.Num.read .f32 old) (Sys2Proof.Num.read .f32 x)))
  | .cas => if cmp = old then some x else none
/-- An ATOM goes ahead on the part p with the old value `leNat b` (R170): its address is natural to its width, so one part
holds it; every store of the core that it overlaps is acknowledged (R322), and one that writes and releases has nothing to wait
for. In a host window it is of scope SYS (R181). -/
def Atomic (s : State) (op : AtomOp) (ea : W64) (n : Nat) (rel wide : Bool) (p : Piece) (b : List Byte) (x cmp : Nat) : Prop :=
  let u := s.clearFence
  s.fenceHold = false ∧ checkAll s { acc := .atom, ea := ea.toNat, len := n, align := n, ordered := true, op := some op } = .ok [p]
  ∧ p.len = n ∧ p.space ≠ .control ∧ s.bank.task.isSome = true ∧ s.mem.wf = true
  ∧ u.loadPiece false p = .ok b ∧ b.length = n
  ∧ (∀ m ∈ u.stores, m.meets p.key p.len = false)
  ∧ (∀ k ∈ keysFrom p.key n, s.deadLine k = false)
  ∧ ((atomValue op n (leNat b) x cmp).isSome = true → rel = true → wide = true ∨ p.space = .host → u.pendingBelow u.releaseBound = false)
  ∧ ((atomValue op n (leNat b) x cmp).isSome = true → p.space = .hbm → p.kind = 0 → versionRoom u p.key p.len = true)
/-- What an ATOM leaves: the old value in d, zero-extended; the new value at the location, when there is one; every byte of
memory outside the location as it was; a Chaconne entry whose anchor slot it wrote is tainted (R381). -/
def AtomicTo (s : State) (i : Instr) (parcels : Nat) (op : AtomOp) (d : Fin 64) (n : Nat) (p : Piece) (b : List Byte) (x cmp : Nat) : Prop :=
  ∃ t, exec i s = .next t ∧ OnlyAccess s { t with ctxs := s.ctxs } ∧ t.dev = s.dev
    ∧ t.ctxs = (if (atomValue op n (leNat b) x cmp).isSome ∧ ¬ (p.space = .hbm ∧ p.kind = 0) then (s.taint p.key p.len).ctxs else s.ctxs)
    ∧ t.strand = (withS d (BitVec.ofNat 64 (leNat b)) { s.strand with fence := 0 }).retire parcels
    ∧ (∀ k, (k < p.key ∨ p.key + n ≤ k) → t.rd k = s.rd k ∧ t.seen k = s.seen k)
    ∧ (∀ v, atomValue op n (leNat b) x cmp = some v → p.space = .hbm → p.kind = 0 → ∀ j, j < n → t.seen (p.key + j) = BitVec.ofNat 8 (v / 256 ^ j))
    ∧ (∀ v, atomValue op n (leNat b) x cmp = some v → ¬ (p.space = .hbm ∧ p.kind = 0) → ∀ j, j < n → t.rd (p.key + j) = BitVec.ofNat 8 (v / 256 ^ j))
    ∧ (atomValue op n (leNat b) x cmp = none ∨ (p.space = .hbm ∧ p.kind = 0) → ∀ k, t.rd k = s.rd k)
    ∧ (∀ k, s.bank.task = some k → ∃ k', t.bank.task = some k' ∧ k'.escaped = (k.escaped || p.kind == 2 || p.space == .host))
end Sys2Proof.Machine

/-- ATOM (R170), in HBM, vaults and host windows: the read, the compute and the write are one step at the home of the location.
A write to an anchor area of the context marks the entry that owns it, whose metric is then undefined (R381, log 34).
Rests on choices of the model: log 10, 11, 12 and 34. -/
def Obligations.AtomicsComplete : Prop :=
  ∀ (s : State) (op : AtomOp) (d a b : Fin 64) (xm : XM) (p : Piece) (old : List Byte),
    let x4 := (s.rs b).toNat % 2 ^ 32
    let c4 := (s.rs d).toNat % 2 ^ 32
    let ok := fun (op : AtomOp) (i : Instr) => Atomic s op (s.rs a) 4 false false p old x4 c4 → AtomicTo s i 1 op d 4 p old x4 c4
    let n := if xm.w64 then 8 else 4
    let x := (s.rs b).toNat % 2 ^ (8 * n)
    let c := (s.rs d).toNat % 2 ^ (8 * n)
    let rel := xm.ord == .rel || xm.ord == .ar
    ok .add (.atomAdd d a b) ∧ ok .and (.atomAnd d a b) ∧ ok .or (.atomOr d a b) ∧ ok .xor (.atomXor d a b)
    ∧ ok .min (.atomMin d a b) ∧ ok .mins (.atomMins d a b) ∧ ok .max (.atomMax d a b) ∧ ok .maxs (.atomMaxs d a b)
    ∧ ok .swap (.atomSwap d a b) ∧ ok .fadd32 (.atomFadd32 d a b) ∧ ok .cas (.atomCas d a b)
    ∧ (Atomic s op (s.rs a + BitVec.ofInt 64 xm.disp.toInt) n rel (wideScope xm.scope) p old x c → AtomicTo s (.atomL op d a b xm) 2 op d n p old x c)

/-- The fences (R171) retire at once. FENCE, FENCE.REL of a scope beyond the core and FENCE.ENG hold the strand's later
memory, engine and synchronisation instructions until the core's stores are performed: every one of them, in every form, then only
records that it waits, but where an ord that R46 forbids or a mapped port (R228) makes it trap first. FENCE.ACQ does so when one of
those stores is to COMMONS, whose bytes a load of the core may have had (the model's choice, log 10). FETCHB discards the parcels
fetched ahead, once the core's stores are performed. -/
def Clauses.FencesHold : Prop :=
  (∀ (s : State) (sc : Scope),
    let wide := sc = .die ∨ sc = .dev ∨ sc = .sys
    let bound := fun (p : Prop) [Decidable p] (r : Strand) => { r with fence := if p then s.dev.fab.nextMsg else r.fence }
    Does s (.fence sc) 1 (bound wide) ∧ Does s (.fenceRel sc) 1 (bound wide) ∧ Does s (.fenceAcq sc) 1 (bound (wide ∧ ∃ m ∈ s.stores, m.kind = 2)) ∧ Does s .fenceEng 1 (bound True)
    ∧ ((∀ m ∈ s.stores, m.st = .performed) → Does s .fetchb 1 fun r => { r with fbuf := [] })
    ∧ ((∃ m ∈ s.stores, m.st ≠ .performed) → ∃ t, exec .fetchb s = .next t ∧ OnlyStrand s t ∧ t.strand = { s.strand with wait := .other }))
  ∧ ∀ (s : State) (d a b sem : Fin 64) (vd : Fin 32) (q : Fin 4) (bar : Fin 48) (ta : Fin 32) (o : BitVec 11) (o12 : BitVec 12) (w : BitVec 2)
      (sx long : Bool) (op : AtomOp) (hint : Fin 3) (x : XE) (xb : Option XE) (xm : XM) (m : Msg),
    m ∈ s.stores → m.id < s.strand.fence → m.st ≠ .performed →
    let memory : List Instr := [.ldD d a o, .ldW d a o, .stD d a o, .stW d a o, .atomAdd d a b, .atomAnd d a b, .atomOr d a b, .atomXor d a b,
      .atomMin d a b, .atomMins d a b, .atomMax d a b, .atomMaxs d a b, .atomSwap d a b, .atomFadd32 d a b, .atomCas d a b, .atomL op d a b xm,
      .rpass a b, .rshare a, .rquery d a, .dcwb a, .dcwbi a, .dcinv a, .icinv a, .icinva, .pref a hint, .pbinv a, .publ a, .rngkey a]
    let loads : List Instr := if xm.ord = .rel ∨ xm.ord = .ar then [] else [.ldDL d a xm, .ldWL d a xm, .ldx d a w sx xm]
    let stores : List Instr := if xm.ord = .acq ∨ xm.ord = .ar then [] else [.stDL d a xm, .stWL d a xm, .stx d a w xm]
    let vectors : List Instr := if vd.val < 30 ∨ (s.strand.pop = 0 ∧ s.strand.push = 0)
      then [.ldv vd a o12, .ldvL vd a xm, .stv vd a o12, .stvL vd a xm] else []
    let matrix : List Instr := [.tdset a b, .tdsetL a b x, .tdget d a b long, .mcfg a, .mcfgL a x, .mcfgr d b long, .mldb a b, .mldbL a b x,
      .mgo, .mgoL x, .mzero long, .mrd vd a long, .mwr vd a long, .mstat d a long, .mchk a long, .mabort long]
    let copy : List Instr := [.cpy q a, .cpyL q a x, .cpys q d a b, .cpysL q d a b x, .gath q a, .gathL q a x, .scat q a, .scatL q a x, .fill q a,
      .fillL q a x, .qsemw q sem, .qsemwL q sem x, .qflush q, .qstat q d, .qws q d, .xcpy q a b, .xcpyL q a b x, .halo q a, .haloL q a x,
      .xred q a b, .xredL q a b x, .xsig sem a, .xsigL sem a x]
    let sync : List Instr := [.twait x, .ttest d ta, .semacq sem, .semacqL sem x, .semrel sem a, .semrelL sem a x, .semrd d sem xb,
      .semset sem a xb, .barcfg bar a xb, .bararr bar a xb, .barwait bar a xb, .barsync bar a xb, .bartest bar d a xb]
    (∀ i ∈ memory ++ loads ++ stores ++ vectors ++ matrix ++ copy ++ sync,
      ∃ t, exec i s = .next t ∧ OnlyStrand s t ∧ t.strand = { s.strand with wait := .other })
    ∧ ∃ t, exec (.qdrain q) s = .next t ∧ OnlyStrand s t ∧ ∃ n, t.strand = { s.strand with wait := .drain n }

/-- The cache operations and publication (R173 to R175, R177). With no fence to wait for, each retires and changes only what
its entry names: DCWB and DCWBI move the line's dirty bytes to the task's version, so that the core sees every byte as before, and without
a task to memory; DCINV loses them, and the core then sees the version or memory; of the three, DCWB alone leaves the line valid. ICINV and
ICINVA drop cached instructions, PBINV cached parameter blocks. PREF brings the line into the data cache, allocates it in its slice with
the hint, or changes nothing. PUBL enters the task's commit queue. An address that these do not translate traps, and so does PUBL of a
window that is not mapped. -/
def Clauses.CacheAndPublish : Prop :=
  ∀ (s : State) (d a : Fin 64) (hint : Fin 3) (l : Nat), s.fenceHold = false →
    let addr := (s.rs a).toNat
    let on := { s.strand with fence := 0 }
    let ask : Ask := { acc := .load, ea := addr, len := 1, align := 1 }
    (lineOf s addr = .ok (some l) →
        (s.bank.task.isSome = true → ∀ i ∈ [Instr.dcwb a, .dcwbi a], ∃ t, exec i s = .next t ∧ OnlyAccess s t ∧ t.dev = s.dev ∧ t.strand = on.retire 1
          ∧ (∀ k, t.rd k = s.rd k) ∧ (∀ k, t.seen k = s.seen k) ∧ (t.core.dirty = s.core.dirty.filter fun c => c.1 / 128 != l)
          ∧ (∀ x, x ∈ t.core.cached ↔ x ∈ s.core.cached ∧ (i = .dcwb a ∨ x ≠ l)))
        ∧ (s.bank.task = none → s.mem.wf = true → (∀ k, s.deadLine k = false) → ∀ i ∈ [Instr.dcwb a, .dcwbi a], ∃ t, exec i s = .next t
          ∧ t.dev = s.dev ∧ t.ctxs = s.ctxs ∧ t.strand = on.retire 1 ∧ (∀ k, t.seen k = s.seen k) ∧ (t.core.dirty = s.core.dirty.filter fun c => c.1 / 128 != l)
          ∧ (∀ k, t.rd k = if k / 128 = l then s.seen k else s.rd k) ∧ ∀ x, x ∈ t.core.cached ↔ x ∈ s.core.cached ∧ (i = .dcwb a ∨ x ≠ l))
        ∧ (∃ t, exec (.dcinv a) s = .next t ∧ OnlyAccess s t ∧ t.dev = s.dev ∧ t.strand = on.retire 1 ∧ (∀ k, t.rd k = s.rd k)
          ∧ (t.core.dirty = s.core.dirty.filter fun c => c.1 / 128 != l) ∧ (∀ x, x ∈ t.core.cached ↔ x ∈ s.core.cached ∧ x ≠ l)
          ∧ (∀ x, t.bank.task.bind (fun k => ovGet k.version x) = s.bank.task.bind fun k => ovGet k.version x)
          ∧ ∀ x, t.seen x = if x / 128 = l then (s.bank.task.bind fun k => ovGet k.version x).getD (s.rd x) else s.seen x)
        ∧ (∃ t, exec (.icinv a) s = .next t ∧ OnlyCore s t ∧ t.strand = on.retire 1
          ∧ t.core = { s.core with bank := t.bank, icache := s.core.icache.filter fun e => !(e.ctx == s.bank.ctx && e.line == addr / 128) }
          ∧ t.bank = { s.bank with strands := t.bank.strands }))
    ∧ (lineOf s addr = .ok none → ∀ i ∈ [Instr.dcwb a, .dcwbi a, .dcinv a, .icinv a], Does s i 1 fun r => { r with fence := 0 })
    ∧ (∀ c v, lineOf s addr = .error (.trap c v) → ∀ i ∈ [Instr.dcwb a, .dcwbi a, .dcinv a, .icinv a], exec i s = .next (s.takeTrap c v))
    ∧ (∃ t, exec .icinva s = .next t ∧ OnlyCore s t ∧ t.strand = on.retire 1 ∧ t.core = { s.core with bank := t.bank, icache := [] }
        ∧ t.bank = { s.bank with strands := t.bank.strands })
    ∧ ((∀ p, checkAll s ask = .ok [p] → p.space ≠ .hbm ∨ 2 ≤ p.kind) → Does s (.pref a hint) 1 fun r => { r with fence := 0 })
    ∧ (∀ p, checkAll s ask = .ok [p] → p.space = .hbm → p.kind ≤ 1 →
        (hint = 0 → ∃ t, exec (.pref a hint) s = .next t ∧ Looked s t false [p] ∧ t.strand = on.retire 1)
        ∧ (hint ≠ 0 → ∃ t, exec (.pref a hint) s = .next t ∧ t.strand = on.retire 1 ∧ (∀ k, t.rd k = s.rd k)
              ∧ t.bank = { s.bank with strands := s.bank.strands.set s.curS t.strand }
              ∧ (∃ x ∈ t.dev.slices, x.line = p.key / 128 ∧ x.rh = if hint = 1 then 2 else 1)
              ∧ t.parts = s.parts ∧ t.mem = s.mem ∧ t.dev.fab = s.dev.fab
              ∧ unpaid t.ctxs = unpaid s.ctxs))
    ∧ (∃ t, exec (.pbinv a) s = .next t ∧ OnlyCore s t ∧ t.strand = on.retire 1 ∧ t.bank = { s.bank with strands := t.bank.strands }
        ∧ t.core = { s.core with bank := t.bank, pbc := if a = 0 then [] else s.core.pbc.filter fun e =>
            !(e.1 == s.bank.ctx && decide (addr < e.2.1.toNat + 128) && decide (e.2.1.toNat < addr + 128)) })
    ∧ (∀ p, s.core.part = some p → addr < 256 → (windowOf s p addr).flags % 2 = 1 →
        ∃ t, exec (.publ a) s = .next t ∧ OnlyAccess s t ∧ t.dev = s.dev ∧ t.strand = on.retire 1 ∧ (∀ k, t.rd k = s.rd k) ∧ t.core.dirty = s.core.dirty
          ∧ t.bank.task = s.bank.task.map fun k => { k with hostQ := k.hostQ ++ [.publ (BitVec.ofNat 8 addr)] })
    ∧ ((256 ≤ addr ∨ ∀ p, s.core.part = some p → (windowOf s p addr).flags % 2 = 0) → exec (.publ a) s = .next (s.takeTrap 0x06 addr))
    ∧ ((illFormed s false addr = true ∨ kindOf addr = 0xC ∨ kindOf addr = 0xE ∨ ∀ r, regionAt s .own addr ≠ .ok (some r)) →
        Does s (.rquery d a) 1 fun r => withS d 0 { r with fence := 0 })
    ∧ (∀ r : Region, illFormed s false addr = false → kindOf addr ≠ 0xC → kindOf addr ≠ 0xE → regionAt s .own addr = .ok (some r) →
        Does s (.rquery d a) 1 fun x => withS d (BitVec.ofNat 64 (r.kind + 4 + (if r.core = s.cur.val ∨ r.peer = s.cur.val then 8 else 0)
          + r.core * 2 ^ 8 + r.peer * 2 ^ 16)) { x with fence := 0 })

/-- Fences hold later accesses; cache operations and publication change only what they name. Rests on choices of the model: log 8, 10, 11 and 12. -/
def Obligations.FencesAndCaches : Prop := Clauses.FencesHold ∧ Clauses.CacheAndPublish

/-- RPASS and RSHARE (R172) of a region entry that the core owns, which no engine command of the core meets and behind no
store on its way: the entry's KIND and CORE change, and no other strand, trap register or device register; outside the entry and
the bytes of the region, whose versioned writes commit, memory is as before. While an engine command meets the region or a store
that must come before is on its way, one of another strand to the region among them (R191), the strand is not ready. RPASS to the core
itself has no effect, and to a core outside the partition it traps PROTECTION. An entry that is not OWNED by the core traps OWNERSHIP;
the access code is 6 (R166).
Rests on choices of the model: log 10 and 32. -/
def Obligations.RegionsChangeHands : Prop :=
  ∀ (s : State) (a b : Fin 64) (r : Region) (k : Nat), s.fenceHold = false → illFormed s false (s.rs a).toNat = false →
    regionAt s .own (s.rs a).toNat = .ok (some r) →
    (r.kind = 0 → r.core = s.cur.val → s.inPart (s.rs b).toNat = true → (s.rs b).toNat = s.cur.val →
        Does s (.rpass a b) 1 fun x => { x with fence := 0 })
    ∧ (r.kind = 0 → r.core = s.cur.val → regionKey s s.ctx .own (s.rs a).toNat r.idx = .ok k → s.mem.wf = true →
        s.bank.task.isSome = true → s.deadLine (k + 12) = false → s.deadLine (k + 13) = false →
        s.pendingBelow s.releaseBound = false → s.bank.engineMeets r s.releaseBound = false → s.unperformed s.cur r = false →
        let done := fun (i : Instr) (kind core : Nat) => ∃ t, exec i s = .next t ∧ t.dev = s.dev ∧ t.parts = s.parts
          ∧ t.rd (k + 12) = BitVec.ofNat 8 kind ∧ t.rd (k + 13) = BitVec.ofNat 8 core ∧ (∀ j, j ≠ k + 12 → j ≠ k + 13 → inSpans (r.spans s s.ctx) j = false → t.rd j = s.rd j)
          ∧ t.strand = ({ s.strand with fence := 0 } : Strand).retire 1 ∧ t.bank.trap = s.bank.trap ∧ (∀ n : Fin 4, n ≠ s.curS → t.bank.strands[n] = s.bank.strands[n])
          ∧ ∀ k', t.bank.task = some k' → k'.escaped = true
        (s.inPart (s.rs b).toNat = true → (s.rs b).toNat ≠ s.cur.val → done (.rpass a b) 0 (s.rs b).toNat) ∧ done (.rshare a) 1 0)
    ∧ (r.kind = 0 → r.core = s.cur.val → s.pendingBelow s.releaseBound = true ∨ s.bank.engineMeets r s.releaseBound = true ∨ s.unperformed s.cur r = true →
        ∀ i ∈ Instr.rshare a :: (if s.inPart (s.rs b).toNat = true ∧ (s.rs b).toNat ≠ s.cur.val then [Instr.rpass a b] else []),
          ∃ t, exec i s = .next t ∧ OnlyStrand s t ∧ t.strand = { s.strand with wait := .drain s.releaseBound })
    ∧ (r.kind = 0 → r.core = s.cur.val → s.inPart (s.rs b).toNat = false →
        exec (.rpass a b) s = .next (s.takeTrap 0x06 (6 * 2 ^ 56 + (s.rs a).toNat % 2 ^ 56)))
    ∧ ((r.kind ≠ 0 ∨ r.core ≠ s.cur.val) → exec (.rpass a b) s = .next (s.takeTrap 0x04 (6 * 2 ^ 56 + (s.rs a).toNat % 2 ^ 56))
        ∧ exec (.rshare a) s = .next (s.takeTrap 0x04 (6 * 2 ^ 56 + (s.rs a).toNat % 2 ^ 56)))

/-- The table of R160: what the kind of a region, and whether the core owns it, lets an access do. -/
def Clauses.RegionAccessTable : Prop :=
  ∀ (s : State) (q : Ask) (r : Region), q.acc = .load ∨ q.acc = .store ∨ q.acc = .atom ∨ q.acc = .fetch →
    (r.kind = 0 → r.core = s.cur.val → regionCause s q (some r) = none)
    ∧ (r.kind = 0 → r.core ≠ s.cur.val → regionCause s q (some r) = some 0x04) ∧ regionCause s q none = some 0x04
    ∧ (r.kind = 1 → (q.acc = .load ∨ q.acc = .fetch → regionCause s q (some r) = none) ∧ (q.acc = .store ∨ q.acc = .atom → regionCause s q (some r) = some 0x04))
    ∧ (r.kind = 2 → (q.acc = .load ∨ q.acc = .store → regionCause s q (some r) = if q.ordered then none else some 0x04)
        ∧ (q.acc = .atom → regionCause s q (some r) = none) ∧ (q.acc = .fetch → regionCause s q (some r) = some 0x04))
    ∧ (r.kind = 3 → (q.acc = .fetch → regionCause s q (some r) = some 0x04) ∧ (q.acc ≠ .fetch → regionCause s q (some r) = some 0x0B))

/-- Misaligned accesses (R163) trap MISALIGNED at their own address with the code of R166, and an ord that R46 forbids traps
ILLEGAL_ORDER with parcel 0 as its info, before anything else. -/
def Clauses.AccessTraps : Prop :=
  ∀ (s : State) (d a b : Fin 64) (vd : Fin 32) (w : BitVec 2) (sx : Bool) (x : XM) (op : AtomOp),
    let far := (s.rs a + BitVec.ofInt 64 x.disp.toInt).toNat
    let n := 2 ^ w.toNat
    let m := if x.w64 then 8 else 4
    let traps := fun (i : Instr) (code : Nat) => exec i s = .next (s.takeTrap 0x03 (code * 2 ^ 56 + far))
    (s.fenceHold = false → illFormed s false far = false → kindOf far ≠ 0xC → kindOf far ≠ 0xE → far + 512 < 2 ^ 56 →
      (∀ l, ownSlot s false far l = false) →
        (far % m ≠ 0 → traps (.atomL op d a b x) 3) ∧ (far % 64 ≠ 0 → (vd.val < 30 ∨ (s.strand.pop = 0 ∧ s.strand.push = 0)) → traps (.ldvL vd a x) 1 ∧ traps (.stvL vd a x) 2)
        ∧ (far % n ≠ 0 → (x.ord = .rlx ∨ x.ord = .acq → traps (.ldx d a w sx x) 1) ∧ (x.ord = .rlx ∨ x.ord = .rel → traps (.stx d a w x) 2)))
    ∧ (x.ord = .rel ∨ x.ord = .ar → ∀ i ∈ [Instr.ldDL d a x, .ldWL d a x, .ldx d a w sx x],
        exec i s = .next (s.takeTrap 0x02 ((encode i).headD 0)))
    ∧ (x.ord = .acq ∨ x.ord = .ar → ∀ i ∈ [Instr.stDL d a x, .stWL d a x, .stx d a w x],
        exec i s = .next (s.takeTrap 0x02 ((encode i).headD 0)))

/-- The table of R160, and the alignment and order traps of loads, stores and ATOM. Rests on a choice of the model: log 27. -/
def Obligations.RegionTableAndTraps : Prop := Clauses.RegionAccessTable ∧ Clauses.AccessTraps

/-! ## Vectors -/
namespace Sys2Proof.Machine
/-- The masked destination of R203: element j is g where the mask bit is set, else what it was (zero where a push carries it). -/
def lanewise (s : State) (f : VF) (g : (Fin 32 → VReg) → Nat → Nat) (rd : Fin 32 → VReg) (old X : VReg) (e : Strand → Strand) : Prop :=
  (∀ r, e r = r) ∧ ∀ j < f.ty.elems, el f.ty.bits X j =
    if (s.rk f.k).getLsbD (if f.ty = .b1 then j / 4 else j) = true then g rd j % 2 ^ f.ty.bits else el f.ty.bits old j
/-- The vb operand: a register, or the low bits of a scalar register for every element (R204). -/
def yOf (s : State) (f : VF) (x : XA) (rd : Fin 32 → VReg) (j : Nat) : Nat :=
  if x.bs then (s.rs x.sc).toNat % 2 ^ f.ty.bits else el f.ty.bits (rd f.vb) j
/-- The registers that the vb operand and the random bits of RSR read (R84, R204). -/
def bOf (f : VF) (x : XA) : List (Fin 32) := if x.bs then [] else [f.vb]
def rsrOf (x : XA) : List (Fin 32) := if x.rnd = .rsr then [x.vr] else []
/-- How result j of m is rounded: the form's mode, sat, ftz, and for RSR its share of vr (R82 to R84, R88). -/
def roundFor (s : State) (x : XA) (m : Nat) (rd : Fin 32 → VReg) (j : Nat) : Sys2Proof.Num.RC :=
  let b := min 32 (4096 / m)
  { mode := modeOf s x.rnd, sat := x.sat, ftz := x.ftz, b := b, rb := if x.rnd = .rsr then el b (rd x.vr) j else 0 }
/-- A result of an integer type: modulo 2^w, or with sat the nearest value of Iw (R85). -/
def intRes (sat : Bool) (w : Nat) (v : Int) : Nat :=
  let c := if sat then max (-2 ^ (w - 1)) (min (2 ^ (w - 1) - 1) v) else v
  (c % 2 ^ w).toNat
/-- An operand of a floating-point type, under ftz (R88). -/
def fpOf (x : XA) (t : Ty) (v : Nat) : Sys2Proof.Num.FV := Sys2Proof.Num.read t (Sys2Proof.Num.flushIn x.ftz t v)
/-- One result of an operation that has an exact meaning on the numbers and on the integers (R90). -/
def onNumbers (s : State) (f : VF) (x : XA) (fp : Rnd → Sys2Proof.Num.FV → Sys2Proof.Num.FV → Sys2Proof.Num.FV → Sys2Proof.Num.FV)
    (int : Int → Int → Int → Int) (rd : Fin 32 → VReg) (j a b c : Nat) : Nat :=
  let rc := roundFor s x f.ty.elems rd j
  if Sys2Proof.Num.isFp f.ty then Sys2Proof.Num.round rc f.ty (fp rc.mode (fpOf x f.ty a) (fpOf x f.ty b) (fpOf x f.ty c))
  else intRes x.sat f.ty.bits (int (Sys2Proof.Num.sint f.ty.bits a) (Sys2Proof.Num.sint f.ty.bits b) (Sys2Proof.Num.sint f.ty.bits c))
/-- Both lengths of an instruction: the short form has every field of X-A zero (R34). -/
def bothForms (short long : Instr) (x : XA) (P : Instr → Nat → XA → Prop) : Prop := P short 1 XA.zero ∧ P long 2 x
end Sys2Proof.Machine

/-- VADD, VSUB, VMUL, VFMA and VFNMA (R207, R208): each element computed exactly and rounded once; an addend whose field is
zero is the destination. -/
def Clauses.VectorArithmetic : Prop :=
  ∀ (s : State) (f : VF) (x : XA), f.ty ≠ .b1 →
    let two := fun (i : Instr) (n : Nat) (x : XA) fp int =>
      VecDoes s i n (f.va :: bOf f x ++ rsrOf x) (some f.vd) false [] (lanewise s f fun rd j =>
        onNumbers s f x (fun m a b _ => fp m a b) (fun a b _ => int a b) rd j (el f.ty.bits (rd f.va) j) (yOf s f x rd j) 0)
    let three := fun (i : Instr) (n : Nat) (x : XA) fp int =>
      VecDoes s i n (f.va :: bOf f x ++ rsrOf x ++ if x.vc = 0 then [] else [x.vc]) (some f.vd) (x.vc == 0) [] (lanewise s f fun rd j =>
        onNumbers s f x fp int rd j (el f.ty.bits (rd f.va) j) (yOf s f x rd j)
          (el f.ty.bits (if x.vc = 0 then s.strand.v[f.vd] else rd x.vc) j))
    bothForms (.vadd f) (.vaddL f x) x (fun i n x => two i n x Sys2Proof.Num.add (· + ·))
    ∧ bothForms (.vsub f) (.vsubL f x) x (fun i n x => two i n x (fun m a b => Sys2Proof.Num.add m a (Sys2Proof.Num.neg b)) (· - ·))
    ∧ bothForms (.vmul f) (.vmulL f x) x (fun i n x => two i n x (fun _ => Sys2Proof.Num.mul) (· * ·))
    ∧ bothForms (.vfma f) (.vfmaL f x) x (fun i n x => three i n x (fun m a b c => Sys2Proof.Num.add m (Sys2Proof.Num.mul a b) c) fun a b c => a * b + c)
    ∧ bothForms (.vfnma f) (.vfnmaL f x) x (fun i n x => three i n x (fun m a b c => Sys2Proof.Num.add m (Sys2Proof.Num.neg (Sys2Proof.Num.mul a b)) c) fun a b c => c - a * b)

/-- VDIV, VSQRT and VAPPROX (R209, R210), of the floating-point types that R53 gives them. -/
def Clauses.VectorDivideRoot : Prop :=
  ∀ (s : State) (f : VF) (x : XA), Sys2Proof.Num.isFp f.ty = true →
    let one := fun (i : Instr) (n : Nat) (_ : XA) srcs g => VecDoes s i n srcs (some f.vd) false [] (lanewise s f g)
    bothForms (.vdiv f) (.vdivL f x) x (fun i n x => one i n x (f.va :: bOf f x ++ rsrOf x) fun rd j =>
      Sys2Proof.Num.round (roundFor s x f.ty.elems rd j) f.ty (Sys2Proof.Num.div (fpOf x f.ty (el f.ty.bits (rd f.va) j)) (fpOf x f.ty (yOf s f x rd j))))
    ∧ bothForms (.vsqrt f) (.vsqrtL f x) x (fun i n x => one i n x (f.va :: rsrOf x) fun rd j =>
      Sys2Proof.Num.round (roundFor s x f.ty.elems rd j) f.ty (Sys2Proof.Num.sqrt (fpOf x f.ty (el f.ty.bits (rd f.va) j))))
    ∧ (f.ty = .f32 → bothForms (.vapprox f) (.vapproxL f x) x (fun i n x => one i n x [f.va] fun rd j =>
      Sys2Proof.Num.approx x.sub.toNat x.ftz (el 32 (rd f.va) j)))

/-- VADD to VFNMA, VDIV, VSQRT and VAPPROX round each exact element once. Rests on choices of the model: log 18 and 29. -/
def Obligations.VectorArithmeticRounds : Prop := Clauses.VectorArithmetic ∧ Clauses.VectorDivideRoot

/-- VMIN, VMAX, VABS, VNEG, VLOGIC, VSHIFT, VMOV and VCLAMP (R91, R93, R211, R212), element by element: what each says of an
integer type in numbers, and for every type in the operations of R91 and R93. -/
def Clauses.VectorSelectShift : Prop :=
  ∀ (s : State) (f : VF) (x : XA),
    let w := f.ty.bits
    let A := fun (rd : Fin 32 → VReg) (j : Nat) => el w (rd f.va) j
    let Z := fun (rd : Fin 32 → VReg) (j : Nat) => Sys2Proof.Num.sint w (el w (rd f.va) j)
    let rdf := fun (x : XA) (v : Nat) => Sys2Proof.Num.flushIn x.ftz f.ty v
    let one := fun (i : Instr) (n : Nat) srcs g => VecDoes s i n srcs (some f.vd) false [] (lanewise s f g)
    let V := fun (a : Nat) => BitVec.ofNat w a
    bothForms (.vmin f) (.vminL f x) x (fun i n x => one i n (f.va :: bOf f x) fun rd j => Sys2Proof.Num.minMax f.ty false (rdf x (A rd j)) (rdf x (yOf s f x rd j)))
    ∧ bothForms (.vmax f) (.vmaxL f x) x (fun i n x => one i n (f.va :: bOf f x) fun rd j => Sys2Proof.Num.minMax f.ty true (rdf x (A rd j)) (rdf x (yOf s f x rd j)))
    ∧ (Sys2Proof.Num.isFp f.ty = false → f.ty ≠ .b1 → bothForms (.vmin f) (.vminL f x) x (fun i n x => one i n (f.va :: bOf f x) fun rd j =>
        intRes false w (min (Z rd j) (Sys2Proof.Num.sint w (yOf s f x rd j)))))
    ∧ bothForms (.vabs f) (.vabsL f x) x (fun i n x => one i n [f.va] fun rd j =>
        if Sys2Proof.Num.isFp f.ty then A rd j % 2 ^ (w - 1) else intRes x.sat w (Z rd j).natAbs)
    ∧ bothForms (.vneg f) (.vnegL f x) x (fun i n x => one i n [f.va] fun rd j =>
        if Sys2Proof.Num.isFp f.ty then A rd j ^^^ 2 ^ (w - 1) else intRes x.sat w (-Z rd j))
    ∧ bothForms (.vlogic f) (.vlogicL f x) x (fun i n x => one i n (f.va :: bOf f x) fun rd j =>
        let a := V (A rd j)
        let b := V (yOf s f x rd j)
        (match x.sub.toNat with
          | 0 => a &&& b | 1 => a ||| b | 2 => a ^^^ b | 3 => a &&& ~~~b | 4 => a ||| ~~~b | _ => ~~~(a ^^^ b)).toNat)
    ∧ (f.ty ≠ .b1 → bothForms (.vshift f) (.vshiftL f x) x (fun i n x => one i n (f.va :: bOf f x) fun rd j =>
        let c := yOf s f x rd j % w
        match x.sub.toNat with
          | 0 => A rd j * 2 ^ c % 2 ^ w
          | 1 => A rd j / 2 ^ c
          | 2 => intRes false w (Z rd j / 2 ^ c)
          | _ => (A rd j * 2 ^ c + A rd j / 2 ^ (w - c)) % 2 ^ w))
    ∧ one (.vmov f) 1 [f.va] A ∧ one (.vmovL f x) 2 [f.va] A
    ∧ VecDoes s (.vclamp f x) 2 (f.va :: f.vb :: if x.vc = 0 then [] else [x.vc]) (some f.vd) (x.vc == 0) [] (lanewise s f fun rd j =>
        Sys2Proof.Num.minMax f.ty false (Sys2Proof.Num.minMax f.ty true (rdf x (A rd j)) (rdf x (el w (rd f.vb) j)))
          (rdf x (el w (if x.vc = 0 then s.strand.v[f.vd] else rd x.vc) j)))

namespace Sys2Proof.Machine
/-- Whether the mask lets element j of a type through (R201, R203). -/
abbrev maskOn (s : State) (f : VF) (j : Nat) : Prop := (s.rk f.k).getLsbD (if f.ty = .b1 then j / 4 else j) = true
/-- Nothing but the destination changes. -/
def onlyDst (e : Strand → Strand) : Prop := ∀ r, e r = r
/-- The scalar register d takes x. -/
def alsoS (d : Fin 64) (x : W64) (e : Strand → Strand) : Prop := ∀ r, e r = withS d x r
/-- The mask register d takes K; a write to k0 is discarded (R49). -/
def alsoK (d : Fin 8) (K : KReg) (e : Strand → Strand) : Prop := ∀ r, e r = if d = 0 then r else { r with k := r.k.set d K }
/-- The registers of a span (R205). -/
def regSpan (base : Fin 32) (m : Nat) : List (Fin 32) := (List.range m).map fun q => Fin.ofNat 32 (base.val + q)
def widRegs : Wid → Nat
  | .none => 1
  | .pair => 2
  | .quad => 4
/-- Element i of a span of m registers (R205). -/
def elSpan (w m : Nat) (base : Fin 32) (rd : Fin 32 → VReg) (i : Nat) : Nat := el w (rd (Fin.ofNat 32 (base.val + i % m))) (i / m)
/-- The span of m registers at base takes g, logical index by logical index, under the mask; no other register changes. -/
def alsoSpan (s : State) (k : Fin 8) (w m : Nat) (base : Fin 32) (g : Nat → Nat) (e : Strand → Strand) : Prop :=
  ∃ V : Vector VReg 32, (∀ r : Strand, r.v = s.strand.v → e r = { r with v := V })
    ∧ (∀ q : Fin 32, q ∉ regSpan base m → V[q] = s.strand.v[q])
    ∧ ∀ i < m, ∀ j < 4096 / w, el w (V[Fin.ofNat 32 (base.val + i)]) j
        = if (s.rk k).getLsbD (j * m + i) = true then g (j * m + i) % 2 ^ w else el w (s.strand.v[Fin.ofNat 32 (base.val + i)]) j
/-- The element of a lane index (R53, R216). -/
def laneAt (f : VF) (x : XA) : Nat := f.vb.val % 4 * 256 + x.sub.toNat
/-- The conversion of one element (R90, R221). -/
def convOf (c : Sys2Proof.Num.RC) (dst src : Ty) (v : Nat) : Nat :=
  if Sys2Proof.Num.isFp src then Sys2Proof.Num.round c dst (Sys2Proof.Num.read src (Sys2Proof.Num.flushIn c.ftz src v))
  else if Sys2Proof.Num.isFp dst then Sys2Proof.Num.round c dst (Sys2Proof.Num.read src v) else intRes c.sat dst.bits (Sys2Proof.Num.sint src.bits v)
/-- An element widened to F32 or I32 (R220). -/
def wideOf (t : Ty) (v : Nat) : Nat :=
  if Sys2Proof.Num.isFp t then Sys2Proof.Num.round { mode := .rne } .f32 (Sys2Proof.Num.read t v) else intRes false 32 (Sys2Proof.Num.sint t.bits v)
/-- Integer or not, as VEXT and the widening instructions tell (R214, R217). -/
def signedTy (t : Ty) : Bool := !Sys2Proof.Num.isFp t && t != .b1
end Sys2Proof.Machine

/-- VCMP, VSEL, VPERM, VSLIDE, the broadcasts, VEXT, VINS and VIOTA (R203, R213, R216 to R218, R230). -/
def Clauses.VectorComparesAndMoves : Prop :=
  ∀ (s : State) (f : VF) (x : XA) (imm : BitVec 32),
    let w := f.ty.bits
    let e := f.ty.elems
    let A := fun (rd : Fin 32 → VReg) (j : Nat) => el w (rd f.va) j
    let holds := fun (x : XA) (rd : Fin 32 → VReg) (j : Nat) =>
      let a := fpOf x f.ty (A rd j)
      let b := fpOf x f.ty (yOf s f x rd j)
      let un := Sys2Proof.Num.isNan a || Sys2Proof.Num.isNan b
      match x.sub.toNat with
      | 0 => un = false ∧ Sys2Proof.Num.cmp a b = 0 | 1 => un = true ∨ Sys2Proof.Num.cmp a b ≠ 0
      | 2 => un = false ∧ Sys2Proof.Num.cmp a b < 0 | 3 => un = false ∧ Sys2Proof.Num.cmp a b ≤ 0
      | 4 => un = false ∧ 0 < Sys2Proof.Num.cmp a b | 5 => un = false ∧ 0 ≤ Sys2Proof.Num.cmp a b
      | 6 => un = true | _ => False
    let one := fun (i : Instr) (n : Nat) srcs g => VecDoes s i n srcs (some f.vd) false [] (lanewise s f g)
    (f.ty ≠ .b1 → bothForms (.vcmp f) (.vcmpL f x) x fun i n x => VecDoes s i n (f.va :: bOf f x) none false [] fun rd _ _ ef =>
        ∃ K : KReg, alsoK (Fin.ofNat 8 f.vd.val) K ef ∧ ∀ j < 1024, K.getLsbD j = true ↔ j < e ∧ maskOn s f j ∧ holds x rd j)
    ∧ bothForms (.vsel f) (.vselL f x) x (fun i n _ => VecDoes s i n [f.va, f.vb] (some f.vd) false [] fun rd _ X ef =>
        onlyDst ef ∧ ∀ j < e, (maskOn s f j → el w X j = A rd j) ∧ (¬ maskOn s f j → el w X j = el w (rd f.vb) j))
    ∧ bothForms (.vperm f) (.vpermL f x) x (fun i n _ => VecDoes s i n [f.va] (some f.vd) false (regSpan f.vb (max 1 (e / 256)))
        (lanewise s f fun rd j => A rd (el 16 (rd (Fin.ofNat 32 (f.vb.val + j / 256))) (j % 256) % e)))
    ∧ one (.vslide f x) 2 [f.va, f.vb] (fun rd j =>
        let p := j + (s.rs x.sc).toNat
        if p < e then A rd p else if p < 2 * e then el w (rd f.vb) (p - e) else 0)
    ∧ bothForms (.vbcast f) (.vbcastL f x) x (fun i n x => one i n (if x.bs then [] else [f.va]) fun rd _ =>
        if x.bs then (s.rs x.sc).toNat % 2 ^ w else A rd (laneAt f x))
    ∧ one (.vbcastImm f imm) 3 [] (fun _ _ => imm.toNat)
    ∧ VecDoes s (.vext f x) 2 [f.va] none false [] (fun rd _ _ ef =>
        let v := A rd (laneAt f x)
        alsoS x.sc (if signedTy f.ty then BitVec.ofInt 64 (Sys2Proof.Num.sint w v) else BitVec.ofNat 64 v) ef)
    ∧ VecDoes s (.vins f x) 2 [] (some f.vd) true [] (fun _ old X ef =>
        onlyDst ef ∧ ∀ j < e, el w X j = if j = laneAt f x then (s.rs x.sc).toNat % 2 ^ w else el w old j)
    ∧ bothForms (.viota f) (.viotaL f x) x (fun i n x => one i n (rsrOf x) fun rd j =>
        let v := (s.rs x.sc).toInt + j
        if Sys2Proof.Num.isFp f.ty then Sys2Proof.Num.round (roundFor s x e rd j) f.ty (Sys2Proof.Num.ofInt v) else intRes x.sat w v)

/-- Vector minimum, absolute value, logic, shift, compare, select, permute, slide, insert and extract. Rests on a choice of the model: log 29. -/
def Obligations.VectorSelectsAndMoves : Prop := Clauses.VectorSelectShift ∧ Clauses.VectorComparesAndMoves

/-- VMULW, VADDW, VPACK, VUNPK and VCVT (R205, R214, R219 to R221): the spans, and one rounding of each element.
Rests on a choice of the model: log 29. -/
def Obligations.VectorWidthChanges : Prop :=
  ∀ (s : State) (f : VF) (x : XA), f.ty ≠ .b1 →
    let w := f.ty.bits
    let m := widRegs x.wid
    let fp := Sys2Proof.Num.isFp f.ty
    let wide := if fp then 32 else w * m
    let widening := fun (i : Instr) (op : Rnd → Sys2Proof.Num.FV → Sys2Proof.Num.FV → Sys2Proof.Num.FV) (int : Int → Int → Int) =>
      VecDoes s i 2 (f.va :: bOf f x ++ rsrOf x) none false (regSpan f.vd m) fun rd _ _ ef =>
        alsoSpan s f.k wide m f.vd (fun j =>
          let a := el w (rd f.va) j
          let b := yOf s f x rd j
          let rc := roundFor s x f.ty.elems rd j
          if fp then Sys2Proof.Num.round rc .f32 (op rc.mode (Sys2Proof.Num.read f.ty a) (Sys2Proof.Num.read f.ty b))
          else intRes false wide (int (Sys2Proof.Num.sint w a) (Sys2Proof.Num.sint w b))) ef
    let src : Ty := if fp then .f32 else .i32
    let first := if f.ty = .e2m1 then 512 * (x.sub.toNat % 2) else 0
    widening (.vmulw f x) (fun _ => Sys2Proof.Num.mul) (· * ·) ∧ widening (.vaddw f x) Sys2Proof.Num.add (· + ·)
    ∧ VecDoes s (.vpack f x) 2 (rsrOf x) (some f.vd) false (regSpan f.va m) (fun rd old X ef =>
        onlyDst ef ∧ ∀ j < f.ty.elems,
          (first ≤ j ∧ j < first + 128 * m ∧ maskOn s f j → el w X j =
            convOf (roundFor s x (128 * m) rd (j - first)) f.ty src (elSpan 32 m f.va rd (j - first)) % 2 ^ w)
          ∧ (¬ (first ≤ j ∧ j < first + 128 * m ∧ maskOn s f j) → el w X j = el w old j))
    ∧ VecDoes s (.vunpk f x) 2 [f.va] none false (regSpan f.vd m) (fun rd _ _ ef =>
        alsoSpan s f.k 32 m f.vd (fun j => wideOf f.ty (el w (rd f.va) j)) ef)
    ∧ bothForms (.vcvt f) (.vcvtL f x) x (fun i n x => VecDoes s i n (f.va :: rsrOf x) (some f.vd) false [] (lanewise s f fun rd j =>
        convOf (roundFor s x f.ty.elems rd j) f.ty (Ty.dec (x.sub.toNat % 32)) (el w (rd f.va) j)))

/-- VQNT (R222): each block of 256 elements has the exponent E of its largest magnitude; the elements are rounded to 2^E,
and the biased exponents go to the scalar register.
Rests on a choice of the model: log 29. -/
def Obligations.VectorQuantize : Prop :=
  ∀ (s : State) (f : VF) (x : XA), (f.ty = .n8 ∨ f.ty = .n16 ∨ f.ty = .i8 ∨ f.ty = .i16) → x.wid ≠ .none →
    let w := f.ty.bits
    let m := widRegs x.wid
    VecDoes s (.vqnt f x) 2 (rsrOf x) (some f.vd) false (regSpan f.va m) fun rd old X ef =>
      let v := fun (i : Nat) => fpOf x .f32 (elSpan 32 m f.va rd i)
      ∃ E : Nat → Int, (∀ b < m / 2,
          ((∀ i < 256, v (256 * b + i) = .nan) → E b = 0)
          ∧ ((∃ i < 256, ∃ g, v (256 * b + i) = .inf g) → E b = 127)
          ∧ ((∀ i < 256, ∀ g, v (256 * b + i) ≠ .inf g) → ∀ i < 256, ∀ g k q, v (256 * b + i) = .fin g k q →
              (∀ j < 256, ∀ g' k' q', v (256 * b + j) = .fin g' k' q' → Sys2Proof.Num.magGt k' q' k q = false) →
              E b = if k = 0 then 0 else max (-127) (min 127 ((Nat.log2 k : Int) + q - (w - 2)))))
        ∧ (∀ j < f.ty.elems, el w X j = if (s.rk f.k).getLsbD j = true then
            Sys2Proof.Num.round (roundFor s x (128 * m) rd j) (if w = 8 then .i8 else .i16) (match v j with
              | .fin g k q => .fin g k (q - if j / 256 < m / 2 then E (j / 256) else 0)
              | y => y) % 2 ^ w else el w old j)
        ∧ alsoS x.sc (BitVec.ofInt 64 (E 0 + 127 + 256 * (if m = 4 then E 1 + 127 else 0))) ef

/-- VPLANE (R76, R77, R223): bit j of element i lies in plane w − 1 − j of its group; from planes, only the p high planes
count. A control value that R223 does not allow raises PARAM.
Rests on a choice of the model: log 29. -/
def Obligations.VectorPlanes : Prop :=
  ∀ (s : State) (f : VF) (x : XA) (long : Bool),
    let i : Instr := if long then .vplaneL f x else .vplane f
    let x' := if long then x else XA.zero
    let c := (s.rs x'.sc).toNat
    let w := f.ty.bits
    let e := f.ty.elems
    let p := c / 4 % 64
    let bad := 2 ^ 9 ≤ c ∨ (c % 2 = 0 ∧ (p ≠ 0 ∨ c / 256 % 2 = 1)) ∨ p = 1 ∨ w < p ∨ (c / 2 % 2 = 0 ∧ e = 128)
    let g := if c / 2 % 2 = 1 then e else 256
    let place := fun (q j : Nat) => q / g * (w * g) + (w - 1 - j) * g + q % g
    (bad → exec i s = .next (s.takeTrap 0x0D c))
    ∧ (¬ bad → (f.ty = .n8 ∨ f.ty = .n16 ∨ f.ty = .n32 ∨ f.ty = .n4) → VecDoes s i (if long then 2 else 1) [f.va] (some f.vd) false [] fun rd old X ef =>
        onlyDst ef
        ∧ (c % 2 = 0 → ∀ q < e, ∀ j < w, X.getLsbD (place q j) = if (s.rk f.k).getLsbD q = true then (rd f.va).getLsbD (w * q + j) else old.getLsbD (place q j))
        ∧ (c % 2 = 1 → ∀ q < e, ∃ a < 2 ^ w, (∀ j < w, a.testBit j = (rd f.va).getLsbD (place q j)) ∧
            el w X q = if (s.rk f.k).getLsbD q = true then intRes false w (Sys2Proof.Num.niTrunc a (if p = 0 then w else p) w (c / 256 % 2 == 1)) else el w old q))

/-- VRED (R94 to R96, R215): the destination holds the result in its low bits and zeros elsewhere. An integer sum without
sat is the sum modulo 2^32; the maximum and the minimum are active elements that no other exceeds.
Rests on a choice of the model: log 29. -/
def Obligations.VectorReductions : Prop :=
  ∀ (s : State) (f : VF) (x : XA), f.ty ≠ .b1 →
    let w := f.ty.bits
    bothForms (.vred f) (.vredL f x) x fun i n x => VecDoes s i n [f.va] (some f.vd) false [] fun rd _ X ef =>
      let a := fun (j : Nat) => el w (rd f.va) j
      let act := (List.range f.ty.elems).filter fun j => (s.rk f.k).getLsbD j
      let z := fun (j : Nat) => Sys2Proof.Num.sint w (a j)
      onlyDst ef
      ∧ X = BitVec.ofNat 4096 (reduce { mode := modeOf s x.rnd, sat := x.sat, ftz := x.ftz } f.ty x.sub.toNat
          ((List.range f.ty.elems).map fun j => if (s.rk f.k).getLsbD j = true then some (a j) else none))
      ∧ (Sys2Proof.Num.isFp f.ty = false →
          (x.sub = 0 → x.sat = false → X = BitVec.ofNat 4096 (((act.map z).sum % 2 ^ 32).toNat))
          ∧ (x.sub = 1 → (∃ j ∈ act, X = BitVec.ofNat 4096 (a j) ∧ ∀ q ∈ act, z q ≤ z j) ∨ (act = [] ∧ X = BitVec.ofNat 4096 (2 ^ (w - 1))))
          ∧ (x.sub = 2 → (∃ j ∈ act, X = BitVec.ofNat 4096 (a j) ∧ ∀ q ∈ act, z j ≤ z q) ∨ (act = [] ∧ X = BitVec.ofNat 4096 (2 ^ (w - 1) - 1)))
          ∧ (x.sub = 3 → (∃ j ∈ act, X = BitVec.ofNat 4096 (a j + 2 ^ 32 * j) ∧ ∀ q ∈ act, z q ≤ z j ∧ (z q = z j → j ≤ q))
              ∨ (act = [] ∧ X = BitVec.ofNat 4096 (2 ^ (w - 1) + 2 ^ 32 * (2 ^ 32 - 1)))))

/-- TRW, TRC and STRMAP (R224 to R227). That PARAM comes before RING, and a's value is the info where both operands of STRMAP offend, are
choices of the model (log 29). -/
def Clauses.TilesAndPorts : Prop :=
  ∀ (s : State) (f : VF) (x : XA) (a b : Fin 64),
    let r := (s.rs x.sc).toNat
    let w := f.ty.bits
    let tile : Fin 2 := Fin.ofNat 2 x.sub.toNat
    let pop := s.strand.pop.toNat
    let push := s.strand.push.toNat
    let rowIs := fun (t : State) (v : VReg) => ∃ X : VReg, ∃ h : r < 128,
      t.bank.tr = s.bank.tr.set tile (s.bank.tr[tile].set r X)
      ∧ ∀ j < f.ty.elems, el w X j = if maskOn s f j then el w v j else el w (s.bank.tr[tile][r]) j
    let px := (s.rs a).toNat
    let py := (s.rs b).toNat
    let maps := fun (n : Nat) (part : RingInfo → Nat) => n = 0 ∨ (n < 256 ∧ ∃ i, ringInfo s n = some i ∧ part i = s.cur.val)
    let empty := ∀ q rest, (s.ctx.ringOf pop).slots = q :: rest → q.filled = false
    (128 ≤ r → exec (.trw f x) s = .next (s.takeTrap 0x0D r))
    ∧ (r < 128 → (pop = 0 ∨ f.va ≠ 30) → (push = 0 ∨ f.va ≠ 31) → ∃ t, exec (.trw f x) s = .next t ∧ OnlyBank s t ∧ rowIs t (s.strand.v[f.va])
        ∧ t.bank = { s.bank with tr := t.bank.tr, strands := s.bank.strands.set s.curS (s.strand.retire 2) })
    ∧ (r < 128 → f.va = 30 → s.bank.loaded = true → ∀ rg q rest, pop ≠ 0 → ringInfo s pop = some rg → (s.ctx.ringOf pop).slots = q :: rest → q.filled = true →
        ∃ t, exec (.trw f x) s = .next t ∧ rowIs t (slotAt s rg q 30) ∧ (∀ k, t.rd k = s.rd k) ∧ (t.ctx.ringOf pop).slots = rest
          ∧ t.strand = ({ s.strand with rts := q.ts, latch := s.strand.latch ||| 8 } : Strand).retire 2)
    ∧ (r < 128 → (push ≠ 0 ∧ f.va = 31) ∨ (pop ≠ 0 ∧ f.va = 30 ∧ ringInfo s pop = none) → ∃ info, exec (.trw f x) s = .next (s.takeTrap 0x0B info))
    ∧ (r < 128 → pop ≠ 0 → f.va = 30 → ringInfo s pop ≠ none → empty →
        ∃ t, exec (.trw f x) s = .next t ∧ OnlyStrand s t ∧ t.strand = { s.strand with wait := .other })
    ∧ (f.ty.elems ≤ r → exec (.trc f x) s = .next (s.takeTrap 0x0D r))
    ∧ (f.ty ≠ .b1 → r < f.ty.elems → VecDoes s (.trc f x) 2 [] (some f.vd) false [] (lanewise s { f with ty := .f32 } fun _ j =>
        wideOf f.ty (el w (s.bank.tr[tile][Fin.ofNat 128 j]) r)))
    ∧ (maps px (·.cons) → maps py (·.prod) → Does s (.strmap a b) 1 fun t => { t with pop := BitVec.ofNat 8 px, push := BitVec.ofNat 8 py })
    ∧ (¬ maps px (·.cons) → exec (.strmap a b) s = .next (s.takeTrap 0x0B px))
    ∧ (maps px (·.cons) → ¬ maps py (·.prod) → exec (.strmap a b) s = .next (s.takeTrap 0x0B py))

namespace Sys2Proof.Machine
/-- Block e of a strand's stream (R408). -/
def streamBlock (s : State) (e : Nat) : Nat :=
  let ix := s.strand.rngix.toNat
  let step : Nat := if ix.testBit 40 then s.strand.rngstep.toNat else match s.bank.task with
    | some k => k.step.toNat
    | none => 0
  chacha s.bank.seed (BitVec.ofNat 32 e) (BitVec.ofNat 32 (e / 2 ^ 32 % 2 ^ 24 + ix / 2 ^ 32 % 256 * 2 ^ 24)) (BitVec.ofNat 32 step) (BitVec.ofNat 32 ix)
/-- Result j of w bits of draw d: the draw is eight blocks of 64 bytes, in order (R409). -/
def drawBits (s : State) (d w j : Nat) : Nat := streamBlock s (8 * d + w * j / 512) / 2 ^ (w * j % 512) % 2 ^ w
end Sys2Proof.Machine

/-- The random-number instructions (R408, R409, R413, R416 to R422): RNGKEY loads the seed, and every other form writes
what the draw that its scalar register names gives; a draw number of 2^48 or more raises PARAM. VGMAX gives the largest score, a NaN
above every above every number, and of equal ones that of the lowest lane (R96). The tables of NORM and GUMB are computed (log 18), and PARAM comes
before RING (log 29). -/
def Clauses.RandomNumbers : Prop :=
  ∀ (s : State) (f : VF) (x : XA) (a : Fin 64) (ps : List Piece) (by_ : List Byte),
    let d := (s.rs x.sc).toNat
    let w := f.ty.bits
    let gum := fun (j : Nat) => sample gumb (drawBits s d 32 j) (streamBlock s (2 ^ 55 + 128 * d + j))
    let one := fun (i : Instr) (n : Nat) g => VecDoes s i n [] (some f.vd) false [] (lanewise s f g)
    (Loads s (s.rs a) 32 32 XM.none ps by_ → ∃ t, exec (.rngkey a) s = .next t ∧ OnlyBank s t
        ∧ t.bank = { s.bank with seed := BitVec.ofNat 256 (leNat by_), strands := s.bank.strands.set s.curS (({ s.strand with fence := 0 } : Strand).retire 1) })
    ∧ (2 ^ 48 ≤ d → ∀ i ∈ [Instr.rngBitsL f x, .rngUni f x, .rngNorm f x, .rngGumb f x, .rngDrop f x, .vgmaxL f x], exec i s = .next (s.takeTrap 0x0D d))
    ∧ (d < 2 ^ 48 → one (.rngBitsL f x) 2 (fun _ j => drawBits s d w j)
        ∧ (f.ty = .f32 → one (.rngUni f x) 2 (fun _ j => Sys2Proof.Num.round { mode := .rne } .f32 (.fin false (drawBits s d 32 j / 2 ^ 8) (-24)))
          ∧ one (.rngNorm f x) 2 (fun _ j => sample norm (drawBits s d 32 j) (streamBlock s (2 ^ 55 + 128 * d + j)))
          ∧ one (.rngGumb f x) 2 (fun _ j => gum j))
        ∧ (f.ty ≠ .b1 → w ≤ 32 → ∃ K : KReg, Does s (.rngDrop f x) 2 (fun r => if f.vd.val % 8 = 0 then r else { r with k := r.k.set (Fin.ofNat 8 f.vd.val) K })
          ∧ ∀ j < 1024, K.getLsbD j = true ↔ j < f.ty.elems ∧ maskOn s f j ∧ drawBits s d w j * 2 ^ (32 - w) < s.strand.rngq.toNat))
    ∧ one (.rngBits f) 1 (fun _ j => drawBits s 0 w j)
    ∧ ∀ (y : XA) (i : Instr) (n : Nat), (i = .vgmax f ∧ n = 1 ∧ y = XA.zero) ∨ (i = .vgmaxL f y ∧ n = 2) → (s.rs y.sc).toNat < 2 ^ 48 →
        VecDoes s i n [f.va, f.vb] (some f.vd) false [] fun rd _ X ef =>
          let z := fun (j : Nat) =>
            let gj := sample gumb (drawBits s (s.rs y.sc).toNat 32 j) (streamBlock s (2 ^ 55 + 128 * (s.rs y.sc).toNat + j))
            let v := fun (k : Nat) => Sys2Proof.Num.read .f32 k
            Sys2Proof.Num.round { mode := .rne } .f32 (Sys2Proof.Num.add .rne (Sys2Proof.Num.mul (v (el 32 (rd f.vb) j)) (v gj)) (v (el 32 (rd f.va) j)))
          let act := (List.range 128).filter fun j => (s.rk f.k).getLsbD j
          let num := fun (j : Nat) => Sys2Proof.Num.read .f32 (z j)
          let beats := fun (q j : Nat) => Sys2Proof.Num.isNan (num j) = false ∧
            (Sys2Proof.Num.isNan (num q) = true ∨ Sys2Proof.Num.cmpZ (num j) (num q) < 0)
          onlyDst ef
          ∧ (∀ j ∈ act, (∀ q ∈ act, ¬ beats q j ∧ (¬ beats j q → j ≤ q)) → X = BitVec.ofNat 4096 (z j + 2 ^ 32 * j))
          ∧ (act ≠ [] → ∃ j ∈ act, ∀ q ∈ act, ¬ beats q j ∧ (¬ beats j q → j ≤ q))
          ∧ (act = [] → X = BitVec.ofNat 4096 (0x7FC00000 + 2 ^ 32 * (2 ^ 32 - 1)))

/-- TRW, TRC, STRMAP and the random-number instructions. Rests on choices of the model: log 18, 27, 29 and 30. -/
def Obligations.TilesPortsAndRandom : Prop := Clauses.TilesAndPorts ∧ Clauses.RandomNumbers

/-! ## The matrix engine -/
namespace Sys2Proof.Machine
/-- A strand instruction with the consumed set x goes on: no fence holds it, and no token that it names is PENDING or
FAULTED (R171, R264, R343). -/
def Acquired (s : State) (x : XE) : Prop :=
  s.fenceHold = false ∧ ∀ t ∈ [x.ta, x.tb, x.tc], t ≠ 0 → s.strand.t[t].st ≠ .pending ∧ s.strand.t[t].st ≠ .faulted
/-- An engine command issues: no fence holds it, and its own token is not PENDING (R171, R342). -/
def Issues (s : State) (x : XE) : Prop := s.fenceHold = false ∧ (x.td = 0 ∨ s.strand.t[x.td].st ≠ .pending)
/-- The strand after an engine command: its token is PENDING (R342). -/
def issued (x : XE) (r : Strand) : Strand :=
  { r with fence := 0, t := if x.td = 0 then r.t else r.t.set x.td ⟨.pending, 0⟩ }
/-- The tokens that a command waits for are those of its consumed set that are PENDING (R194). -/
def WaitsFor (s : State) (x : XE) (l : List (Fin 32)) : Prop :=
  l.Nodup ∧ ∀ t, t ∈ l ↔ t ≠ 0 ∧ t ∈ [x.ta, x.tb, x.tc] ∧ s.strand.t[t].st = .pending
/-- A token of the consumed set is FAULTED (R295). -/
def faulty (s : State) (x : XE) : Bool := [x.ta, x.tb, x.tc].any fun t => t != 0 && s.strand.t[t].st == .faulted
/-- The len bytes that the strand reads for itself at an address (R265, R267, R286). -/
def ReadsBlock (s : State) (a : Nat) (len align : Nat) (b : List Byte) : Prop :=
  ∃ ps, checkAll s.clearFence { acc := .load, ea := a, len := len, align := align } = .ok ps ∧ s.clearFence.loadAll false ps = .ok b
/-- The descriptor of an identifier (R241, R265): the task's override, the one it read before, else the table's. -/
def descNow (s : State) (id : Nat) : Option Desc :=
  let held := s.bank.task.bind fun k => ((k.overs ++ k.descs).find? fun e => e.1 == BitVec.ofNat 8 id).map (·.2)
  held.or (tableEntry s id)
/-- The state of the context changes as given, the strand goes on as r, and nothing else changes. -/
def BankDoes (s : State) (i : Instr) (f : Bank → Bank) (r : Strand) : Prop :=
  ∃ t, exec i s = .next t ∧ OnlyBank s t ∧ t.bank = f { s.bank with strands := s.bank.strands.set s.curS r }
/-- The same of a command that takes a number. -/
def BankNumbers (s : State) (i : Instr) (f : Bank → Bank) (r : Strand) : Prop :=
  ∃ t, exec i s = .next t ∧ OnlyBank (numbered s) t ∧ t.bank = f { s.bank with strands := s.bank.strands.set s.curS r }
/-- The instruction is not ready: nothing changes but what its strand waits on (R111). -/
def Waits (s : State) (i : Instr) (w : Wait) : Prop := ∃ t, exec i s = .next t ∧ OnlyStrand s t ∧ t.strand = { s.strand with wait := w }
end Sys2Proof.Machine

/-- TDSET, TDGET, MCFG and MCFGR (R241, R244, R252, R265 to R268). An MCFG fails on its block (a COMMONS or RING region raises PARAM
there), then on the descriptors of A, B and OUT in this order with TENSOR_ID and its reason, then on the configuration with PARAM and the
lowest offending byte; while an MGO holds the shadow set it waits.
Rests on choices of the model: log 7, 27 and 28. -/
def Obligations.MatrixConfiguration : Prop :=
  ∀ (s : State) (d a b : Fin 64) (x : XE) (long : Bool) (blk : List Byte),
    let n := if long then 2 else 1
    let x' := if long then x else ⟨0, 0, 0, 0, 0⟩
    let id := (s.rs b).toNat
    let key := BitVec.ofNat 8 id
    let desc := BitVec.ofNat 512 (leNat blk)
    let tid := (s.rs a).toNat
    let v := leNat blk
    let byte := fun (j : Nat) => (blk.getD j 0).toNat
    let set := if id / 64 % 2 = 1 then s.bank.mat.active else if s.bank.mat.shadowSt = .empty then 0 else s.bank.mat.shadow
    let on := { s.strand with fence := 0 }
    (Acquired s x' → 2 ^ 8 ≤ id → exec (if long then .tdsetL a b x else .tdset a b) s = .next (s.takeTrap 0x0D id))
    ∧ (Acquired s x' → id < 2 ^ 8 → ReadsBlock s (s.rs a).toNat 64 64 blk →
        BankDoes s (if long then .tdsetL a b x else .tdset a b) (fun k => { k with
          task := k.task.map fun t => { t with overs := (key, desc) :: t.overs.filter (·.1 != key) }
          mat := { k.mat with tags := k.mat.tags.map fun t => if t.tensor == key then Tag.none else t } }) (on.retire n))
    ∧ (s.fenceHold = false → tid < 2 ^ 8 → id < 8 → ∀ D, descNow s.clearFence tid = some D → ∃ t, exec (.tdget d a b long) s = .next t ∧ OnlyBank s t
        ∧ t.strand = (withS d (D.extractLsb' (64 * id) 64) on).retire n
        ∧ t.bank = { s.bank with strands := t.bank.strands, task := t.bank.task }
        ∧ t.bank.task.map (fun k => { k with descs := [] }) = s.bank.task.map (fun k => { k with descs := [] }))
    ∧ (s.fenceHold = false → tid < 2 ^ 8 → id < 8 → descNow s.clearFence tid = none → exec (.tdget d a b long) s = .next (s.takeTrap 0x0E (tid + 2 ^ 8 * 6)))
    ∧ (s.fenceHold = false → 2 ^ 8 ≤ tid → exec (.tdget d a b long) s = .next (s.takeTrap 0x0D tid))
    ∧ (Acquired s x' → s.bank.mat.shadowSt ≠ .pending → ReadsBlock s (s.rs a).toNat 256 64 blk → blk.length = 256 →
        ∀ A B O : Desc, descNow s.clearFence (byte 0) = some A → descNow s.clearFence (byte 1) = some B → descNow s.clearFence (byte 2) = some O →
        A.reason 1 0 = none → B.reason 2 0 = none → O.reason 3 (byte 3 % 4) = none →
        let nest : NestSet := BitVec.ofNat 3584 (v + A.toNat * 2 ^ 2048 + B.toNat * 2 ^ 2560 + O.toNat * 2 ^ 3072)
        nestByte nest = none → ∃ t, exec (if long then .mcfgL a x else .mcfg a) s = .next t ∧ OnlyBank s t ∧ t.strand = on.retire n
          ∧ t.bank = { s.bank with strands := t.bank.strands, task := t.bank.task, mat := { s.bank.mat with shadow := nest, shadowSt := .loaded } }
          ∧ t.bank.task.map (fun k => { k with descs := [] }) = s.bank.task.map (fun k => { k with descs := [] }))
    ∧ (let cfg : Instr := if long then .mcfgL a x else .mcfg a;
        let ask : Ask := { acc := .load, ea := tid, len := 256, align := 64 };
        let tensor := fun (id r : Nat) => exec cfg s = .next (s.takeTrap 0x0E (id + 2 ^ 8 * r));
        let bad := fun (id role acc r : Nat) => (descNow s.clearFence id = none ∧ r = 6) ∨ ∃ D : Desc, descNow s.clearFence id = some D ∧ D.reason role acc = some r;
        let good := fun (id role acc : Nat) (D : Desc) => descNow s.clearFence id = some D ∧ D.reason role acc = none;
        Acquired s x' →
          (s.bank.mat.shadowSt = .pending → Waits s cfg .other)
          ∧ (s.bank.mat.shadowSt ≠ .pending → ∀ c i, checkAll s.clearFence ask = .error (.trap c i) →
              ((∀ r, regionAt s.clearFence .load (i % 2 ^ 56) = .ok (some r) → r.kind < 2) → exec cfg s = .next (s.takeTrap c i))
              ∧ ((∃ r, regionAt s.clearFence .load (i % 2 ^ 56) = .ok (some r) ∧ 2 ≤ r.kind) → c = 0x04 ∨ c = 0x0B → ∃ info, exec cfg s = .next (s.takeTrap 0x0D info)))
          ∧ (s.bank.mat.shadowSt ≠ .pending → ReadsBlock s tid 256 64 blk → blk.length = 256 →
              (∀ r, bad (byte 0) 1 0 r → tensor (byte 0) r)
              ∧ ∀ A, good (byte 0) 1 0 A → (∀ r, bad (byte 1) 2 0 r → tensor (byte 1) r)
              ∧ ∀ B, good (byte 1) 2 0 B → (∀ r, bad (byte 2) 3 (byte 3 % 4) r → tensor (byte 2) r)
              ∧ ∀ O, good (byte 2) 3 (byte 3 % 4) O → ∀ off, nestByte (BitVec.ofNat 3584 (v + A.toNat * 2 ^ 2048 + B.toNat * 2 ^ 2560 + O.toNat * 2 ^ 3072)) = some off →
                  exec cfg s = .next (s.takeTrap 0x0D off)))
    ∧ (s.fenceHold = false → 2 ^ 7 ≤ id → exec (.mcfgr d b long) s = .next (s.takeTrap 0x0D id))
    ∧ (s.fenceHold = false → id < 2 ^ 7 → Does s (.mcfgr d b long) n fun r => withS d (BitVec.ofNat 64 (set.toNat / 2 ^ (64 * (id % 64)))) { r with fence := 0 })

/-- MLDB, MGO and the instructions on the accumulator file (R253, R257, R259, R260, R264, R269 to R275).
MRD and MWR have the ports of R228, PARAM and POISON before RING (log 29), and a faulted token of MGO or MLDB ends it as R295 says. What
MSTAT holds after an abort, the engine's state while MGO's tokens pend, and the room for MLDB in q3 are log 9.
Rests on choices of the model: log 8, 9, 28 and 29. -/
def Obligations.MatrixCommands : Prop :=
  ∀ (s : State) (d a b : Fin 64) (vd : Fin 32) (x : XE) (long : Bool),
    let n := if long then 2 else 1
    let x' := if long then x else ⟨0, 0, 0, 0, 0⟩
    let on := { s.strand with fence := 0 }
    let m := s.bank.mat
    let va := (s.rs a).toNat
    let vb := (s.rs b).toNat
    let idle := s.fenceHold = false ∧ s.bank.engineBusy = false
    let row : Fin 32 := Fin.ofNat 32 va
    let c0 := 128 * (va / 2 ^ 8)
    let okLoc := va / 2 ^ 5 % 8 = 0 ∧ va < 2 ^ 11
    let task : W64 := match s.bank.task with | some k => k.id | none => 0
    let port := fun (p : BitVec 8) (r : Fin 32) => p ≠ 0 ∧ vd = r
    (Issues s x' → s.bank.queues[(3 : Fin 4)].cmds.length + s.bank.fetches < 32 → s.bank.bankLoads.length < 8 → va / 2 ^ 8 % 2 ^ 24 = 0 → vb < 2 ^ 32 → ∀ D, descNow s.clearFence (va % 2 ^ 8) = some D → D.reason 2 0 = none →
        ∃ t used, WaitsFor s x' used ∧ exec (if long then .mldbL a b x else .mldb a b) s = .next t ∧ OnlyBank (numbered s) t ∧ t.strand = (issued x' s.strand).retire n
          ∧ t.bank.task.map (fun k => { k with descs := [] }) = s.bank.task.map (fun k => { k with descs := [] })
          ∧ t.bank = { s.bank with strands := t.bank.strands, task := t.bank.task, mat := { m with loads := m.loads ++
              [⟨s.dev.fab.nextMsg, Fin.ofNat 4 x'.imm.toNat, ⟨true, s.bank.ctx, BitVec.ofNat 8 va, BitVec.ofNat 32 (va / 2 ^ 32), BitVec.ofNat 32 vb, BitVec.ofNat 64 D.base,
                D.rstr, D.elem, D.rows, D.cols, false, false⟩, s.curS, x'.td, used, faulty s x'⟩] } })
    ∧ (Issues s x' → 32 ≤ s.bank.queues[(3 : Fin 4)].cmds.length + s.bank.fetches ∨ 8 ≤ s.bank.bankLoads.length →
        Waits s (if long then .mldbL a b x else .mldb a b) .other)
    ∧ (Issues s x' → m.shadowSt = .loaded → ∃ used, WaitsFor s x' used ∧
        let r : QueuedMgo := ⟨s.dev.fab.nextMsg, s.curS, x'.td, used, faulty s x', task⟩
        let i : Instr := if long then .mgoL x else .mgo
        (s.bank.engineBusy = true →
          BankNumbers s i (fun k => { k with mat := { m with queued := some r, shadowSt := .pending } }) ((issued x' s.strand).retire n))
        ∧ (s.bank.engineBusy = false → m.eng ≠ .running → used ≠ [] →
          BankNumbers s i (fun k => { k with mat := { m with copied := m.shadow, running := some r } }) ((issued x' s.strand).retire n))
        ∧ (s.bank.engineBusy = false → m.eng ≠ .running → used = [] → faulty s x' = false →
          BankNumbers s i (fun k => { k with mat := { m with
            copied := m.shadow, active := m.shadow, running := some r, eng := .running, phase := .pass, idx := Vector.replicate 6 0, row := 0, plane := 0, sweep := 0, passes := 0 } })
            ((issued x' s.strand).retire n))
        ∧ (s.bank.engineBusy = false → m.eng ≠ .running → used = [] → faulty s x' = true → ∃ t, exec i s = .next t ∧ OnlyBank (numbered s) t
          ∧ t.bank.mat.running = none ∧ t.bank.mat.active = m.active ∧ t.bank.mat.shadow = m.shadow ∧ t.bank.mat.acc = m.acc ∧ t.bank.mat.mstat3 = 0x0A ∧ t.bank.mat.mstat4 = 0 ∧ (x'.td ≠ 0 → t.strand.t[x'.td] = ⟨.faulted, 0x0A⟩)))
    ∧ (Issues s x' → m.shadowSt = .empty → exec (if long then .mgoL x else .mgo) s = .next (s.takeTrap 0x0D 0x100))
    ∧ (idle → BankDoes s (.mzero long) (fun k => { k with mat := { m with
        acc := Vector.replicate 32 (Vector.replicate 1024 0), accPois := Vector.replicate 32 0, mflag := 0, eng := .idle } }) (on.retire n))
    ∧ (idle → okLoc → (∀ j < 128, m.accPois[row].getLsbD (c0 + j) = false) →
        VecDoes s (.mrd vd a long) n [] (some vd) false [] fun _ _ X f => (f = fun r => { r with fence := 0 })
          ∧ ∀ j < 128, ∀ h : c0 + j < 1024, el 32 X j = (m.acc[row][c0 + j]).toNat)
    ∧ (idle → okLoc → (∃ j < 128, m.accPois[row].getLsbD (c0 + j) = true) → exec (.mrd vd a long) s = .next (s.takeTrap 0x07 va))
    ∧ (idle → ¬ okLoc → exec (.mrd vd a long) s = .next (s.takeTrap 0x0D va) ∧ exec (.mwr vd a long) s = .next (s.takeTrap 0x0D va))
    ∧ (let wrote := fun (v : VReg) (acc' : Vector (BitVec 32) 1024) (p' : BitVec 1024) => ∀ c : Fin 1024,
          if c0 ≤ c.val ∧ c.val < c0 + 128 then (acc'[c]).toNat = el 32 v (c.val - c0) ∧ p'.getLsbD c.val = false
          else acc'[c] = m.acc[row][c] ∧ p'.getLsbD c.val = m.accPois[row].getLsbD c.val;
        let pop := s.strand.pop.toNat;
        (idle → okLoc → ¬ port s.strand.pop 30 → ¬ port s.strand.push 31 → ∃ acc' p', wrote s.strand.v[vd] acc' p' ∧
          BankDoes s (.mwr vd a long) (fun k => { k with mat := { m with acc := m.acc.set row acc', accPois := m.accPois.set row p' } }) (on.retire n))
        ∧ (idle → okLoc → port s.strand.push 31 ∨ (port s.strand.pop 30 ∧ ringInfo s pop = none) → ∃ info, exec (.mwr vd a long) s = .next (s.takeTrap 0x0B info))
        ∧ (idle → okLoc → port s.strand.pop 30 → ringInfo s pop ≠ none → (∀ q rest, (s.ctx.ringOf pop).slots = q :: rest → q.filled = false) →
          Waits s (.mwr vd a long) .other)
        ∧ (idle → okLoc → port s.strand.pop 30 → s.bank.loaded = true → ∀ rg q rest, ringInfo s pop = some rg → (s.ctx.ringOf pop).slots = q :: rest →
          q.filled = true → ∃ t acc' p', wrote (slotAt s rg q 30) acc' p' ∧ exec (.mwr vd a long) s = .next t
            ∧ t.bank.mat = { m with acc := m.acc.set row acc', accPois := m.accPois.set row p' } ∧ (∀ k, t.rd k = s.rd k) ∧ t.dev = s.dev
            ∧ (t.ctx.ringOf pop).slots = rest ∧ t.strand = ({ on with rts := q.ts, latch := s.strand.latch ||| 8 } : Strand).retire n))
    ∧ (s.bank.engineBusy = true → ∀ i ∈ [Instr.mzero long, .mrd vd a long, .mwr vd a long], Waits s i .other)
    ∧ (s.fenceHold = false → 10 ≤ va → exec (.mstat d a long) s = .next (s.takeTrap 0x0D va))
    ∧ (s.fenceHold = false → va < 10 → ∃ w : W64, Does s (.mstat d a long) n (fun r => withS d w { r with fence := 0 })
        ∧ (va = 0 → w = BitVec.ofNat 64 ((match m.eng with | .idle => 0 | .running => 1 | .fault => 2)
            + 4 * (match m.shadowSt with | .empty => 0 | .loaded => 1 | .pending => 2) + 2 ^ 32 * m.passes.toNat))
        ∧ (va = 1 → w = BitVec.ofNat 64 (m.idx[0] + 2 ^ 16 * m.idx[1] + 2 ^ 32 * m.idx[2] + 2 ^ 48 * m.idx[3]))
        ∧ (va = 2 → w = BitVec.ofNat 64 (m.idx[4] + 2 ^ 16 * m.idx[5] + 2 ^ 32 * m.row.toNat + 2 ^ 40 * m.plane.toNat + 2 ^ 44 * m.sweep.toNat))
        ∧ (va = 3 → w = m.mstat3) ∧ (va = 4 → w = m.mstat4)
        ∧ (va = 5 → ∀ r : Fin 32, w.getLsbD r.val = decide (m.accPois[r] ≠ 0))
        ∧ (6 ≤ va → ∀ t : Tag, t = m.tags[Fin.ofNat 4 (va - 6)] → w = BitVec.ofNat 64 (t.tensor.toNat + (if t.valid then 2 ^ 8 else 0)
            + (if t.ty.bits = 4 then 2 ^ 9 else 0) + (if t.unloaded then 2 ^ 10 else 0) + 2 ^ 11 * (t.group.toNat % 2 ^ 21) + 2 ^ 32 * t.kb.toNat)))
    ∧ (s.fenceHold = false → va < 2 ^ 16 → BankDoes s (.mchk a long) (fun k => { k with mat := { m with checkN := BitVec.ofNat 16 va, checkC := 0, checkNow := true } }) (on.retire n))
    ∧ (s.fenceHold = false → 2 ^ 16 ≤ va → exec (.mchk a long) s = .next (s.takeTrap 0x0D va))
    ∧ (s.fenceHold = false → m.running = none → m.queued = none → m.eng ≠ .running → m.shadowSt ≠ .pending →
        BankDoes s (.mabort long) (fun k => { k with mat := { m with eng := .idle, phase := .pass } }) (on.retire n))
    ∧ (s.fenceHold = false → ∀ r, m.running = some r → m.queued = none → m.eng = .running → r.td ≠ 0 →
        ∃ t, exec (.mabort long) s = .next t ∧ OnlyBank s t ∧ t.bank.strands[r.strand].t[r.td] = ⟨.faulted, 0⟩
          ∧ t.bank.mat.eng = .idle ∧ t.bank.mat.running = none ∧ t.bank.mat.mstat3 = 0 ∧ t.bank.mat.mstat4 = 0
          ∧ (∀ (i : Fin 32) (j : Fin 1024), m.active.inRegion (m.active.coord m.idx 4) (m.active.coord m.idx 5) i.val j.val = false → t.bank.mat.acc[i][j] = m.acc[i][j])
          ∧ t.strand.pc = (({ s.strand with fence := 0 } : Strand).retire n).pc)

namespace Sys2Proof.Machine
/-- An event on core c: what it does there, with the machine's place as it was. -/
def EventOn (s : State) (c : Fin 256) (i : Instr) (P : State → State → Prop) : Prop :=
  ∃ t, exec i s = .next { t with cur := s.cur } ∧ t.cur = c ∧ P { s with cur := c } t
/-- A token of a strand takes a state, and its strand is woken when it completes (R342, R459). -/
def TokenIs (t : State) (n : Fin 4) (d : Fin 32) (k : Token) : Prop := d ≠ 0 → t.bank.strands[n].t[d] = k
end Sys2Proof.Machine

/-- NEST_START, PASS, DRAIN and BANK_LOAD (R195, R238, R246, R247, R253 to R258, R269): when the engine may do its next step, what the
step leaves; where it may not, and while the core's clock stands (R32, R483), nothing changes, but bank loads go on in a gear transition
(R262). The engine serves the tasks whose strands have ended before the active one, whose own matrix and strands then stay as they were
(R376, R390).
Rests on choices of the model: log 9, 28 and 39. -/
def Obligations.MatrixEvents : Prop :=
  (∀ (s : State) (c : Fin 256) (o : LateNest),
    let u : State := { s with cur := c }
    (u.otherTask o.task).isSome = true → u.lateNest Matrix.busy = some o → u.clockStopped = false → ∀ i ∈ [Instr.nestStart c, .pass c, .drain c], EventOn s c i fun a t =>
      t.bank.strands = a.bank.strands ∧ t.bank.task = a.bank.task ∧ t.bank.mat = a.bank.mat.lend t.bank.mat)
  ∧ ∀ (s : State) (c : Fin 256),
    let u : State := { s with cur := c }
    let m := u.bank.mat
    let n := m.active
    let tiles := passTiles n m.idx
    let go := u.clockStopped = false
    let own := u.lateNest Matrix.busy = none
    let begun : Matrix := { m with
      eng := .running, phase := .pass, idx := Vector.replicate 6 0, row := 0, plane := 0, sweep := 0, passes := 0 }
    let entered := fun (r : QueuedMgo) => { r with id := u.dev.fab.nextMsg }
    (go → own → ∀ r, m.running = none → m.eng ≠ .running → m.queued = some r → r.used = [] → r.bad = false → EventOn s c (.nestStart c) fun a t =>
        OnlyBank (numbered a) t ∧ t.bank = { a.bank with mat := { begun with
          active := m.shadow, running := some (entered r), queued := none, shadowSt := .loaded } })
    ∧ (go → own → ∀ r, m.running = some r → m.eng ≠ .running → r.used = [] → r.bad = false → EventOn s c (.nestStart c) fun a t =>
        OnlyBank (numbered a) t ∧ t.bank = { a.bank with mat := { begun with active := m.copied, running := some (entered r) } })
    ∧ (go → own → ∀ r, m.running = some r → m.eng ≠ .running → r.used = [] → r.bad = true → EventOn s c (.nestStart c) fun a t =>
        OnlyBank a t ∧ t.bank.mat.running = none ∧ t.bank.mat.mstat3 = 0x0A ∧ t.bank.mat.mstat4 = 0 ∧ TokenIs t r.strand r.td ⟨.faulted, 0x0A⟩)
    ∧ (own → (m.eng = .running ∨ (m.running = none ∧ m.queued = none)) → m.running.isSome = true ∨ m.queued = none → exec (.nestStart c) s = .next s)
    ∧ (own → u.clockStopped = true → ∀ i ∈ [Instr.nestStart c, .pass c, .drain c], exec i s = .next s)
    ∧ (own → (m.eng ≠ .running ∨ m.phase ≠ .pass ∨ u.fetchHeld = true ∨ u.mayPass = false) → exec (.pass c) s = .next s)
    ∧ (own → (m.eng ≠ .running ∨ m.phase ≠ .drain ∨ (m.sampleDue = true ∧ u.fetchHeld = true)) → exec (.drain c) s = .next s)
    ∧ (∀ v data i, own → m.eng = .running → m.phase = .pass → u.mayPass = true → go → u.fetchHeld = false →
        useTiles u n ((chooseBanks u n tiles).zip tiles) = .ok (v, data) → passInputs v n (tiles.zip data) n.p n.mid m.idx = .ok i →
        (n.acts m.idx % 2 = 1 ∨ n.acts m.idx / 2 % 2 = 0) → EventOn s c (.pass c) fun a t =>
          OnlyPaid (if n.acts m.idx % 2 = 1 ∨ (nextIx n 0 m.idx.toList).isSome then numbered a else a) t
          ∧ t.bank.mat.passes = m.passes + 1
          ∧ (n.acts m.idx % 2 = 1 → t.bank.mat.phase = .drain ∧ t.bank.mat.idx = m.idx)
          ∧ (n.acts m.idx % 2 = 0 → ∀ l, nextIx n 0 m.idx.toList = some l → t.bank.mat.phase = .pass ∧ t.bank.mat.idx = toIx l ∧ t.bank.mat.running = m.running.map entered)
          ∧ (n.acts m.idx % 2 = 0 → nextIx n 0 m.idx.toList = none → t.bank.mat.eng = .idle ∧ t.bank.mat.running = none
              ∧ ∀ r, m.running = some r → TokenIs t r.strand r.td ⟨.done, 0⟩)
          ∧ (∀ (r : Fin 32) (q : Fin 1024), n.place (n.coord m.idx 4) (n.coord m.idx 5) r.val q.val = none → t.bank.mat.acc[r][q] = m.acc[r][q])
          ∧ (n.acc ≠ 2 → ∀ (r : Fin 32) (q : Fin 1024) (rr j : Nat), n.place (n.coord m.idx 4) (n.coord m.idx 5) r.val q.val = some (rr, j) →
              (t.bank.mat.accPois[r].getLsbD q.val = false) →
              let sum := ((i.rows.getD rr ⟨[], [], false, []⟩).lanes.filter fun l => decide (l.1 / 256 < n.a.q)).map fun l => l.2 * ((i.b.getD l.1 #[]).getD j 0)
              (t.bank.mat.acc[r][q]).toNat = intRes (n.acc == 1) 32 (Sys2Proof.Num.sint 32 (m.acc[r][q]).toNat + sum.sum)))
    ∧ (∀ r f, own → m.eng = .running → m.phase = .drain → go → m.checkN = 0 →
        (drainOrder u n (drainBlocks n m.idx)).foldl (drainBlock n) (u, none) = (r, f) → EventOn s c (.drain c) fun a t =>
          (∀ k, t.rd k = r.rd k) ∧ t.parts = a.parts ∧ (∀ j : Fin 256, j ≠ c → t.cores[j] = r.cores[j]) ∧ t.bank.task = r.bank.task
          ∧ (f = none → ∀ l, nextIx n 0 m.idx.toList = some l → t.bank.mat.phase = .pass ∧ t.bank.mat.idx = toIx l)
          ∧ (f = none → nextIx n 0 m.idx.toList = none → t.bank.mat.eng = .idle ∧ t.bank.mat.running = none)
          ∧ (∀ g : EngFault, f = some g → t.bank.mat.eng = .fault ∧ t.bank.mat.running = none ∧ t.bank.mat.mstat3 = BitVec.ofNat 64 (g.1 + 2 ^ 8 * 6)
              ∧ t.bank.mat.mstat4 = BitVec.ofNat 64 g.2))
    ∧ (u.dev.power.thermalStop = true → (∀ o ∈ u.bank.nests, o.mat.loads = []) → exec (.bankLoad c) s = .next s)
    ∧ (u.dev.power.thermalStop = false → (∀ o ∈ u.bank.nests, o.mat.loads = []) → ∀ l, m.loads.head? = some l → u.loadStarted l = true → u.loadsHeld l.id = false →
        (l.bad = true → EventOn s c (.bankLoad c) fun a t => OnlyBank a t ∧ t.bank.mat.loads.length + 1 = m.loads.length ∧ t.bank.mat.tags = m.tags ∧ TokenIs t l.strand l.td ⟨.faulted, 0x0A⟩)
        ∧ (l.bad = false → ∀ f, loadTile u l.tag.tile = .error f → EventOn s c (.bankLoad c) fun a t =>
            OnlyBank a t ∧ t.bank.mat.tags = m.tags.set l.bank Tag.none ∧ t.bank.mat.loads.length + 1 = m.loads.length ∧ TokenIs t l.strand l.td ⟨.faulted, BitVec.ofNat 8 f.1.1⟩)
        ∧ (l.bad = false → ∀ d, loadTile u l.tag.tile = .ok d → EventOn s c (.bankLoad c) fun a t =>
            OnlyCore a t ∧ t.core.banks = a.core.banks.set l.bank d ∧ t.bank.mat.tags[l.bank] = l.tag ∧ t.bank.mat.loads.length + 1 = m.loads.length
            ∧ TokenIs t l.strand l.td ⟨.done, 0⟩
            ∧ ∀ k : Fin 256, l.tag.tile.kb * 256 + k.val < l.tag.tile.rows → l.tag.ty = .i8 ∨ l.tag.ty = .i4 →
                ∃ b, (fetch u 4 (l.tag.tile.rowAt k.val) ((l.tag.tile.width * l.tag.ty.bits + 7) / 8)).map (·.1) = .ok b ∧ d.rows[k] = BitVec.ofNat 8192 (leNat b)))
    ∧ ((∀ o ∈ u.bank.nests, o.mat.loads = []) → (∀ l, m.loads.head? = some l → u.loadStarted l = false ∨ u.loadsHeld l.id = true) → exec (.bankLoad c) s = .next s)

/-- One block of a drain (R255): the elements of the region's row, each converted as OCV says, go to OUT as one write whose
block is poisoned when an element is; a write that fails leaves memory as it was.
Rests on choices of the model: log 27 and 28. -/
def Obligations.DrainWritesElements : Prop :=
  ∀ (n : NestSet) (s : State) (row col cnt : Nat),
    let m := s.bank.mat
    let at_ := fun (k : Nat) =>
      let v := n.pr * n.coord m.idx 4 + row
      let c := n.pc * n.coord m.idx 5 + col + k
      if n.b4 then (v + 16 * (c / 1024), c % 1024) else (v, c)
    let w := n.o.elem.bits / 8
    let ea := n.o.base + (n.pr * n.coord m.idx 6 + row) * n.o.rstr + (n.pc * n.coord m.idx 7 + col) * w
    let elem := fun (k : Nat) => ((m.acc.toList.getD (at_ k).1 (Vector.replicate 1024 0)).toList.getD (at_ k).2 0).toNat
    let pois := fun (k : Nat) => (m.accPois.toList.getD (at_ k).1 0).getLsbD (at_ k).2
    let out := (List.range cnt).flatMap fun k => toLe w (drainElem n (elem k))
    (kindOf ea = 12 → drainBlock n (s, none) (row, col, cnt) = (s, some (0x04, ea % 2 ^ 56)))
    ∧ (∀ f, kindOf ea ≠ 12 → engCheck s .store ea out.length false = .error f → drainBlock n (s, none) (row, col, cnt) = (s, some f))
    ∧ (∀ p, kindOf ea ≠ 12 → engCheck s .store ea out.length false = .ok [p] → p.len = out.length → p.space = .hbm → p.kind = 0 →
        s.bank.task.isSome = true → versionRoom s p.key p.len = true →
        let t := (drainBlock n (s, none) (row, col, cnt)).1
        (drainBlock n (s, none) (row, col, cnt)).2 = none ∧ OnlyPaid s t ∧ t.bank.mat = m
        ∧ (∀ j, j < out.length → some (t.seen (p.key + j)) = out[j]?)
        ∧ (∀ k, (k < p.key ∨ p.key + out.length ≤ k) → t.seen k = s.seen k)
        ∧ ((∃ k < cnt, pois k = true) → ∀ j, j < out.length → poisSeen t (p.key + j) = true)
        ∧ ((∀ k < cnt, pois k = false) → ∀ j, j < out.length → p.key ≤ (p.key + j) / 32 * 32 → (p.key + j) / 32 * 32 + 32 ≤ p.key + out.length →
            poisSeen t (p.key + j) = false))
    ∧ (∀ p v, kindOf ea ≠ 12 → engCheck s .store ea out.length false = .ok [p] → p.len = out.length → p.space = .vault v → p.kind = 0 → s.mem.wf = true →
        let t := (drainBlock n (s, none) (row, col, cnt)).1
        (drainBlock n (s, none) (row, col, cnt)).2 = none ∧ t.dev = s.dev ∧ t.bank.mat = m
        ∧ (∀ j, j < out.length → some (t.rd (p.key + j)) = out[j]?)
        ∧ (∀ k, (k < p.key ∨ p.key + out.length ≤ k) → t.rd k = s.rd k))

/-! ## The copy engine -/
namespace Sys2Proof.Machine
/-- What the entry of a command into a queue may change: the strand, the queue, the cached parameter blocks, the number of
the next command, and the task's escape mark and cached descriptors. No byte of memory changes, and no other queue. -/
structure OnlyQueue (s t : State) (q : Fin 4) : Prop where
  mem     : t.mem = s.mem
  ctxs    : t.ctxs = s.ctxs
  parts   : t.parts = s.parts
  dev     : t.dev = { s.dev with fab := { s.dev.fab with nextMsg := s.dev.fab.nextMsg + 1 } }
  place   : t.cur = s.cur ∧ t.curS = s.curS ∧ t.agenda = s.agenda ∧ t.turn = s.turn ∧ t.freeCtr = s.freeCtr
  others  : ∀ c : Fin 256, c ≠ s.cur → t.cores[c] = s.cores[c]
  core    : t.core = { s.core with bank := t.bank, pbc := t.core.pbc }
  bank    : t.bank = { s.bank with strands := t.bank.strands, queues := t.bank.queues, task := t.bank.task }
  strands : ∀ n : Fin 4, n ≠ s.curS → t.bank.strands[n] = s.bank.strands[n]
  queues  : ∀ p : Fin 4, p ≠ q → t.bank.queues[p] = s.bank.queues[p]
  task    : t.bank.task.map (fun k => { k with escaped := false, descs := [] }) = s.bank.task.map fun k => { k with escaped := false, descs := [] }
/-- A command enters queue q (R282, R342): it is the last, it has done nothing, it waits for the PENDING tokens of its consumed
set, its own token is PENDING, and the instruction retires after n parcels. -/
def Enters (s : State) (i : Instr) (n : Nat) (q : Fin 4) (x : XE) (P : Cmd → Prop) : Prop :=
  ∃ t c, exec i s = .next t ∧ OnlyQueue s t q ∧ t.strand = (issued x s.strand).retire n
    ∧ t.bank.queues[q] = { s.bank.queues[q] with cmds := s.bank.queues[q].cmds ++ [c] }
    ∧ WaitsFor s x c.used ∧ c.td = x.td ∧ c.strand = s.curS ∧ c.started = false ∧ c.done = 0 ∧ c.acks = 0 ∧ c.id = s.dev.fab.nextMsg
    ∧ c.fault = (if faulty s x = true then some (0x0A, 3, 0) else none) ∧ c.task = (match s.bank.task with | some k => k.id | none => 0) ∧ P c
/-- Queue q has room (R282): pending bank loads and the operand fetches of the matrix engine are commands of q3 (R256; how many entries
the fetches hold, at most 8 with the loads, is log 9). -/
def HasRoom (s : State) (q : Fin 4) : Prop :=
  s.bank.queues[q].cmds.length + (if q = 3 then s.bank.fetches else 0) < 32
/-- The parameter block at an address: the cached one, else the 128 bytes there (R286, R287). -/
def BlockIs (s : State) (a : W64) (b : Block) : Prop :=
  (∃ e, (s.core.pbc.find? fun e => e.1 == s.bank.ctx && e.2.1 == a) = some e ∧ e.2.2 = b)
  ∨ ((s.core.pbc.find? fun e => e.1 == s.bank.ctx && e.2.1 == a) = none ∧ ∃ l, ReadsBlock s a.toNat 128 128 l ∧ b = BitVec.ofNat 1024 (leNat l))
def noX : XE := ⟨0, 0, 0, 0, 0⟩
end Sys2Proof.Machine

/-- CPY, GATH, SCAT, FILL, CPYS, QSEMW, XCPY, XRED and HALO enter their queue (R282, R285, R302 to R304, R432 to R435); a block
that fails its checks raises PARAM with the byte's offset, and a full queue, a pending token or a fence holds the strand. Bank loads and the requests of a nest are entries of q3 (log 9).
Rests on choices of the model: log 8, 9, 27 and 31. -/
def Obligations.CopyCommandsEnter : Prop :=
  ∀ (s : State) (q : Fin 4) (d a b sem : Fin 64) (xe : XE) (long : Bool),
    let n := if long then 2 else 1
    let x := if long then xe else noX
    let u := s.clearFence
    let four : List (CmdKind × Instr) := [(.cpy, if long then .cpyL q a xe else .cpy q a), (.gath, if long then .gathL q a xe else .gath q a),
      (.scat, if long then .scatL q a xe else .scat q a), (.fill, if long then .fillL q a xe else .fill q a)]
    let cpys : Instr := if long then .cpysL q d a b xe else .cpys q d a b
    let qsemw : Instr := if long then .qsemwL q sem xe else .qsemw q sem
    let xcpy : Instr := if long then .xcpyL q a b xe else .xcpy q a b
    let xred : Instr := if long then .xredL q a b xe else .xred q a b
    let halo : Instr := if long then .haloL q a xe else .halo q a
    let far := (s.rs b).toNat
    (s.fenceHold = true ∨ (x.td ≠ 0 ∧ s.strand.t[x.td].st = .pending) ∨ ¬ HasRoom s q →
        (∀ k ∈ four, Waits s k.2 .other) ∧ ∀ i ∈ [cpys, qsemw, xcpy, xred, halo], Waits s i .other)
    ∧ (Issues s x → HasRoom s q →
      (∀ k ∈ four, ∀ blk, BlockIs s (s.rs a) blk →
        (blk.check u k.1 = none → Enters s k.2 n q x fun c => c.kind = k.1 ∧ c.block = blk ∧ c.far = 0 ∧ c.total = ((List.range 6).map blk.count).prod)
        ∧ ∀ off, blk.check u k.1 = some off → exec k.2 s = .next (s.takeTrap 0x0D off))
      ∧ (2 ^ 32 ≤ far → exec cpys s = .next (s.takeTrap 0x0D far))
      ∧ (far < 2 ^ 32 → Enters s cpys n q x fun c => c.kind = .cpy ∧ c.far = 0 ∧ c.total = far
          ∧ c.block.src = (s.rs a).toNat ∧ c.block.dst = (s.rs d).toNat ∧ c.block.count 0 = far ∧ (∀ j, 1 ≤ j → j < 6 → c.block.count j = 1)
          ∧ c.block.sstr 0 = 1 ∧ c.block.dstr 0 = 1 ∧ c.block.e = 1 ∧ c.block.converts = false ∧ c.block.mcmask = 0 ∧ c.block.remote = false
          ∧ c.block.raises = x.imm.getLsbD 8 ∧ (x.imm.getLsbD 8 = true → c.block.sem.val = x.imm.toNat / 4 % 64 ∧ c.block.seminc = 1))
      ∧ Enters s qsemw n q x (fun c => c.kind = .qsemw ∧ c.sem = sem ∧ c.count = max 1 x.imm.toNat)
      ∧ (2 ^ 9 ≤ far → exec xcpy s = .next (s.takeTrap 0x0D far))
      ∧ (far < 2 ^ 9 → ∀ blk, BlockIs s (s.rs a) blk →
          let pull := far / 2 ^ 8 = 1
          let bad := blk.mcmask ≠ 0 ∨ blk.idx ≠ 0 ∨ far % 2 ^ 8 = s.dev.zikin.id.toNat ∨ (pull ∧ blk.remote = true)
          (blk.checkFar u = none → ¬ bad → Enters s xcpy n q x fun c => c.kind = (if pull then .xpull else .xpush) ∧ c.block = blk ∧ c.far = BitVec.ofNat 8 far)
          ∧ (blk.checkFar u = none → bad → exec xcpy s = .next (s.takeTrap 0x0D 0x200))
          ∧ ∀ off, blk.checkFar u = some off → exec xcpy s = .next (s.takeTrap 0x0D off))
      ∧ (∀ blk, BlockIs s (s.rs a) blk →
          let own := blk.e = 4 ∧ blk.cvt = 0 ∧ ∀ j < 16, fld blk (112 + j) 1 = 0
          ((blk.put 112 8 0).checkFar u = none → own →
            Enters s xred n q x fun c => c.kind = .xred (Fin.ofNat 4 x.imm.toNat) ∧ c.block = blk ∧ c.far = BitVec.ofNat 8 far)
          ∧ ((blk.put 112 8 0).checkFar u = none → ¬ own → ∃ off, (off = 100 ∨ off = 103 ∨ (112 ≤ off ∧ off < 128))
              ∧ exec xred s = .next (s.takeTrap 0x0D off))
          ∧ ∀ off, (blk.put 112 8 0).checkFar u = some off → exec xred s = .next (s.takeTrap 0x0D off))
      ∧ (∀ l, ReadsBlock s (s.rs a).toNat 64 64 l → ∀ D, descNow u (leNat l % 2 ^ 8) = some D → 1 ≤ D.role → D.role ≤ 3 → D.formReason D.role = none →
          let h : HaloDesc := BitVec.ofNat 512 (leNat l)
          (h.check D = none → Enters s halo n q x fun c => c.kind = .halo
            ∧ c.extra = ((List.range 4).filter h.on).map (fun i => (h.pkg i, h.strip D i)) ∧ c.total = (c.extra.map fun p => Block.total p.2).sum)
          ∧ ∀ off, h.check D = some off → exec halo s = .next (s.takeTrap 0x0D off)))

/-- QFLUSH, QDRAIN, QSTAT and QWS (R256, R305 to R307). A bank load is a command of q3: it runs once its tokens are complete and
every command of q3 that entered before it has started and writes nowhere where it reads (R195, R196). The operand fetches of a nest are
entries of q3 too, and active unless something in q3 holds them back. How many requests of a nest stand there is free (log 9).
Rests on choices of the model: log 8, 9 and 31. -/
def Obligations.QueueControl : Prop :=
  ∀ (s : State) (q : Fin 4) (d : Fin 64), s.fenceHold = false →
    let x := s.bank.queues[q]
    let loads := s.bank.bankLoads
    let busy := q = 3 ∧ s.bank.engineBusy = true
    let held := if q = 3 then s.bank.fetches else 0
    let runs := if q = 3 then min held ((loads.takeWhile s.loadStarted).length
      + (s.bank.mats.map fun m => if (s.modMat fun _ => m).fetchHeld then 0 else m.requests).sum) else 0
    let upTo := match s.strand.wait with
      | .drain k => k
      | _ => s.dev.fab.nextMsg
    let on := fun (r : Strand) => { r with fence := 0 }
    let early := (∃ c ∈ x.cmds, c.id < upTo) ∨ (q = 3 ∧ ∃ l ∈ loads, l.id < upTo)
    (∀ l : PendLoad, s.loadStarted l = true ↔ l.used = [] ∧ ∀ c ∈ s.bank.queues[(3 : Fin 4)].cmds, c.id < l.id →
        c.started = true ∧ ∀ w ∈ c.boxes.2, l.box.meets w = false)
    ∧ (busy → Waits s (.qflush q) .other ∧ Waits s (.qdrain q) (.drain upTo))
    ∧ (¬ busy → (∃ c ∈ x.cmds, c.acks ≠ 0) → BankDoes s (.qflush q) (fun k => { k with queues := k.queues.set q { x with flush := true } })
        { s.strand with wait := .other })
    ∧ (x.cmds = [] → q ≠ 3 → BankDoes s (.qflush q) (fun k => { k with queues := k.queues.set q { x with flush := false } })
        ((on s.strand).retire 1))
    ∧ (¬ busy → (∀ c ∈ x.cmds, c.acks = 0 ∧ c.task = s.bank.taskId) → ∃ t, exec (.qflush q) s = .next t ∧ (∀ k, t.rd k = s.rd k)
        ∧ t.dev = s.dev ∧ t.parts = s.parts ∧ t.bank.queues[q] = { x with cmds := [], flush := false } ∧ (q = 3 → t.bank.mat.loads = [])
        ∧ (∀ c ∈ x.cmds, c.td ≠ 0 → t.bank.strands[c.strand].t[c.td] = ⟨.faulted, 0⟩)
        ∧ (q = 3 → ∀ l ∈ s.bank.mat.loads, l.td ≠ 0 → t.bank.strands[l.strand].t[l.td] = ⟨.faulted, 0⟩)
        ∧ (s.bank.waiters = [] → (∀ p : Fin 4, p ≠ q → t.bank.queues[p].cmds.map (·.id) = s.bank.queues[p].cmds.map (·.id))
          ∧ t.strand.pc = (s.strand.retire 1).pc ∧ t.strand.s = s.strand.s ∧ t.strand.v = s.strand.v ∧ t.bank.sems = s.bank.sems))
    ∧ (¬ busy → ¬ early → Does s (.qdrain q) 1 on)
    ∧ (early → Waits s (.qdrain q) (.drain upTo))
    ∧ Does s (.qstat q d) 1 (fun r => withS d (BitVec.ofNat 64 (x.cmds.length + held + 2 ^ 8 * ((x.cmds.countP (·.started)) + runs)
        + 2 ^ 16 * x.faults.toNat + 2 ^ 24 * x.lastCause.toNat + 2 ^ 32 * x.done.toNat)) (on r))
    ∧ ((∀ c ∈ x.cmds, c.count < 2 ^ 16) → x.cmds.length + held < 256 → ∃ v : W64, Does s (.qws q d) 1 (fun r => withS d v (on r))
      ∧ v.toNat / 2 ^ 32 % 2 ^ 8 = x.cmds.length + held
      ∧ v.toNat / 2 ^ 40 = (if x.state.toNat = v.toNat % 2 ^ 8 then min (2 ^ 24 - 1) (s.dev.fabricCycles - x.since).toNat else 0)
      ∧ (let wait := fun (st obj count : Nat) => v.toNat % 2 ^ 32 = st + 2 ^ 8 * obj + 2 ^ 16 * count
        let some_ := x.cmds.length + held ≠ 0
        let goes := s.core.trans = none ∧ x.flush = false
        (¬ some_ → wait 0 0 0)
        ∧ (some_ → s.core.trans.isSome = true → wait 7 0 0)
        ∧ (some_ → s.core.trans = none → x.flush = true → wait 8 0 0)
        ∧ (some_ → goes → (∀ c ∈ x.cmds, c.started = true) → (q = 3 → ∀ l ∈ loads, s.loadStarted l = true) →
            wait (if (s.working q).any s.heldAt then 6 else 1) 0 0)
        ∧ (∀ c, goes → x.cmds.find? (fun c => !c.started) = some c → (q = 3 → loads = []) →
          let before := (x.cmds.takeWhile (·.id != c.id)).filter fun e => conflicts c.boxes e.boxes
          (∀ k rest, c.used = k :: rest → wait 2 k.val 0)
          ∧ (∀ e rest, c.used = [] → before = e :: rest → wait 4 e.td.val 0)
          ∧ (c.used = [] → before = [] → s.passBefore q c = true → ∃ k : Fin 32, wait 4 k.val 0)
          ∧ (c.used = [] → before = [] → c.kind = .qsemw → wait 3 c.sem.val c.count)
          ∧ (∀ z, c.used = [] → before = [] → s.passBefore q c = false → c.kind ≠ .qsemw → c.ring = some z → wait 5 z.1.toNat 0)
          ∧ (c.used = [] → before = [] → s.passBefore q c = false → c.kind ≠ .qsemw → c.ring = none → wait (if s.heldAt c then 6 else 1) 0 0))
        ∧ (∀ l rest, goes → q = 3 → (∀ c ∈ x.cmds, c.started = true) → loads = l :: rest → ∀ k us, l.used = k :: us → wait 2 k.val 0)))

namespace Sys2Proof.Machine
/-- Byte j of an address walk's element n (R288): base plus the sum of each level's counter times its stride. -/
def walkTo (b : Block) (base : Nat) (str : Nat → Int) (n : Nat) : Nat :=
  let ctr := fun (j : Nat) => n / ((List.range j).map b.count).prod % b.count j
  (((base : Int) + ((List.range 6).map fun j => (ctr j : Int) * str j).sum) % 2 ^ 64).toNat
end Sys2Proof.Machine

/-- COPY_COMMAND_START, RING_RESERVE, COPY_REQUEST_ISSUE and COPY_COMMAND_COMPLETE (R282, R283, R288 to R295, R299, R304): for a
command of the task on the core. A command that a QFLUSH removed while writes of it were on their way to another package counts nowhere
when it completes (R305; the kept entry has cause 0, log 31).
Rests on choices of the model: log 9, 30 and 31. -/
def Obligations.CopyEvents : Prop :=
  ∀ (s : State) (c : Fin 256) (q : Fin 4),
    let u : State := { s with cur := c }
    let x := u.bank.queues[q]
    let free := u.core.trans = none ∧ s.dev.power.thermalStop = false
    let ready := fun (h : Cmd) => h.used = [] ∧ (∀ e ∈ x.cmds.takeWhile (·.id != h.id), conflicts h.boxes e.boxes = false)
      ∧ u.loadsBefore q h = [] ∧ u.passBefore q h = false ∧ free ∧ x.flush = false
    let one := fun (h : Cmd) => ∀ e ∈ x.cmds, e.id = h.id → e = h
    let alone := x.cmds.Pairwise fun a b => a.id ≠ b.id
    let mine := fun (h : Cmd) => h.task = u.bank.taskId
    let becomes := fun (h : Cmd) (new : Cmd) => u.bank.queues.set q { x with cmds := x.cmds.map fun e => if e.id = h.id then new else e }
    let turn := fun (p : Fin 4) => (p.val + 3 - u.core.lastQ.val) % 4
    ((∀ h ∈ x.cmds, h.started = true) → exec (.copyCommandStart c q) s = .next s ∧ exec (.ringReserve c q) s = .next s)
    ∧ (∀ h, x.cmds.find? (fun h => !h.started) = some h → one h →
        (¬ ready h → exec (.copyCommandStart c q) s = .next s)
        ∧ (ready h → h.fault = none → h.kind ≠ .qsemw → h.ring = none → toRing u h = false → EventOn s c (.copyCommandStart c q) fun a t =>
            OnlyBank a t ∧ t.bank = { a.bank with queues := becomes h { h with started := true } })
        ∧ (ready h → mine h → ∀ f, h.fault = some f → f.1 ≠ 0 → EventOn s c (.copyCommandStart c q) fun a t =>
            OnlyBank a t ∧ t.bank.queues[q].done = x.done + 1 ∧ t.bank.queues[q].lastCause = f.1 ∧ (∀ e ∈ t.bank.queues[q].cmds, e.id ≠ h.id)
            ∧ TokenIs t h.strand h.td ⟨.faulted, f.1⟩)
        ∧ (ready h → mine h → h.fault = none → h.kind = .qsemw → h.count ≤ u.bank.sems[h.sem].toNat → u.bank.waiters = [] →
            EventOn s c (.copyCommandStart c q) fun a t =>
            OnlyBank a t ∧ t.bank.sems[h.sem] = u.bank.sems[h.sem] - BitVec.ofNat 32 h.count ∧ (∀ e ∈ t.bank.queues[q].cmds, e.id ≠ h.id)
            ∧ t.bank.queues[q].done = x.done + 1 ∧ TokenIs t h.strand h.td ⟨.done, 0⟩ ∧ t.bank.waiters = [])
        ∧ (ready h → h.fault = none → h.kind = .qsemw → u.bank.sems[h.sem].toNat < h.count → u.bank.waiters = [] →
            EventOn s c (.copyCommandStart c q) fun a t =>
            OnlyBank a t ∧ t.bank = { a.bank with waiters := [.queue q h.sem h.count s.dev.fabricCycles] })
        ∧ (∀ n z i k, h.ring = some (n, []) → ringDst u h = some (z, i, k) →
            ((i.depth < (u.ctx.ringOf n.toNat).slots.length + k ∨ ¬ free ∨ x.flush = true) → exec (.ringReserve c q) s = .next s)
            ∧ ((u.ctx.ringOf n.toNat).slots.length + k ≤ i.depth → free → x.flush = false → EventOn s c (.ringReserve c q) fun a t =>
              (t.ctx.ringOf n.toNat).slots.length = (a.ctx.ringOf n.toNat).slots.length + k ∧ t.parts = a.parts
              ∧ (∀ e ∈ t.bank.queues[q].cmds, e.id = h.id → e.started = true ∧ ∃ ixs, e.ring = some (n, ixs) ∧ ixs.length = k))))
    ∧ (u.nextQueue = some q → u.mayServe q = true ∧ ∀ p, u.mayServe p = true → turn q ≤ turn p)
    ∧ (¬ free ∨ u.nextQueue ≠ some q → exec (.copyRequestIssue c q) s = .next s)
    ∧ (∀ h d pois, free → u.nextQueue = some q → u.working q = some h → alone → mine h →
        h.kind = .cpy ∨ h.kind = .fill → h.ring = none → h.block.mcmask = 0 → h.block.converts = false →
        (h.kind = .cpy → engRead u (walkTo h.block h.block.src h.block.sstr h.done) h.block.e true = .ok (d, pois)) →
        (h.kind = .fill → d = (List.range h.block.e).map (fun k => BitVec.ofNat 8 (h.block.src / 2 ^ (8 * (k % 8)))) ∧ pois = false) →
        (pois = true → ∀ l, u.undecodable l = false) →
        ∀ p, let dst := walkTo h.block h.block.dst h.block.dstr h.done
          engCheck u .store dst d.length true = .ok [p] → p.len = d.length → partsOf dst d.length = [(dst, d.length)] →
          p.space = .hbm → p.kind = 0 → u.bank.task.isSome = true → versionRoom u p.key p.len = true → EventOn s c (.copyRequestIssue c q) fun a t =>
          (∀ k, t.rd k = a.rd k) ∧ t.dev = a.dev ∧ t.parts = a.parts ∧ (∀ j : Fin 256, j ≠ c → t.cores[j] = a.cores[j])
          ∧ unpaid t.ctxs = unpaid a.ctxs ∧ t.core.lastQ = q
          ∧ (∀ j, j < d.length → some (t.seen (p.key + j)) = d[j]?)
          ∧ (pois = true → ∀ j, j < d.length → poisSeen t (p.key + j) = true)
          ∧ (∀ k, (k < p.key ∨ p.key + d.length ≤ k) → t.seen k = a.seen k)
          ∧ t.bank.queues = becomes h { h with done := h.done + 1 })
    ∧ (∀ h f, free → u.nextQueue = some q → u.working q = some h → alone → mine h →
        h.kind = .cpy → h.ring = none → h.block.converts = false → engRead u (walkTo h.block h.block.src h.block.sstr h.done) h.block.e true = .error f →
        EventOn s c (.copyRequestIssue c q) fun a t => OnlyCore a t ∧ t.core = { a.core with
          lastQ := q
          bank := { a.bank with queues := becomes h (if h.fault.isSome = true ∧ h.faultAt ≤ h.done then { h with done := h.done + 1 }
            else { h with done := h.done + 1, fault := some (BitVec.ofNat 8 f.1, 0, BitVec.ofNat 64 f.2), faultAt := h.done }) } })
    ∧ ((∀ h ∈ x.cmds, h.started = false ∨ h.done ≠ h.total ∨ h.acks ≠ 0) → u.elsewhere = [] → exec (.copyCommandComplete c q) s = .next s)
    ∧ (∀ h, u.elsewhere = [] → x.cmds.find? (fun h => h.started && h.done == h.total && h.acks == 0) = some h → mine h → h.isFar = false → h.ring = none →
        (h.block.raises = false ∨ h.block.remote = false) → u.bank.waiters = [] → EventOn s c (.copyCommandComplete c q) fun a t =>
          OnlyBank a t ∧ (∀ e ∈ t.bank.queues[q].cmds, e.id ≠ h.id) ∧ t.bank.queues[q].done = (if h.fault.any (·.1 == 0) then x.done else x.done + 1)
          ∧ (∀ k : Fin 64, t.bank.sems[k] = if h.block.raises = true ∧ h.fault = none ∧ k = h.block.sem
              then BitVec.ofNat 32 (min (a.bank.sems[k].toNat + h.block.seminc) (2 ^ 32 - 1)) else a.bank.sems[k])
          ∧ (h.fault = none → TokenIs t h.strand h.td ⟨.done, 0⟩ ∧ t.bank.queues[q].qf = x.qf)
          ∧ (∀ f, h.fault = some f → TokenIs t h.strand h.td ⟨.faulted, f.1⟩
              ∧ (f.1 = 0 → t.bank.queues[q].qf = x.qf ∧ t.bank.queues[q].faults = x.faults ∧ t.bank.queues[q].lastCause = x.lastCause)
              ∧ (f.1 ≠ 0 → t.bank.queues[q].lastCause = f.1) ∧ (f.1 ≠ 0 → x.qf = 0 → t.bank.queues[q].qf = BitVec.ofNat 64 (f.2.1.toNat * 2 ^ 61 + f.1.toNat % 32 * 2 ^ 56 + f.2.2.toNat % 2 ^ 56))))

/-! ## Synchronisation and tasks -/
namespace Sys2Proof.Machine
/-- The X-E fields of a form: none of them in length 00 (R34). -/
def formX (x : Option XE) : Nat × XE := match x with
  | none => (1, noX)
  | some x => (2, x)
/-- The instruction leaves the whole machine as before but for the state of the context on its core, which f gives. -/
def Leaves (s : State) (i : Instr) (f : Bank → Bank) : Prop := exec i s = .next (s.modBank f)
/-- The strand that acts becomes r, and every strand of the core sees wake bits (R459). -/
def strandsNow (s : State) (r : Strand) (bits : BitVec 6) : Vector Strand 4 :=
  (s.bank.strands.set s.curS r).map fun t => { t with latch := t.latch ||| bits }
/-- The core that a target or home operand names (R347, R351): the core itself, another core, or the cause of a trap. -/
inductive Target where
  | own | other (c : Fin 256) | bad (cause : Nat)
/-- A target of 0 is the core itself; a malformed one raises PARAM, one outside the partition PROTECTION. -/
def targetOf (s : State) (a : Fin 64) : Target :=
  let v := (s.rs a).toNat
  if v = 0 then .own
  else if 2 ^ 9 ≤ v ∨ v < 2 ^ 8 then .bad 0x0D
  else if s.core.part = none ∨ (s.cores[Fin.ofNat 256 v]).part ≠ s.core.part then .bad 0x06
  else if Fin.ofNat 256 v = s.cur then .own
  else .other (Fin.ofNat 256 v)
/-- The number of one bits. -/
def onesOf {w : Nat} (x : BitVec w) : Nat := ((List.finRange w).filter fun j => x.getLsbD j.val).length
/-- The strand that acts holds no fence, and every store of its core before a release is performed (R171, R187). -/
def StoresDone (s : State) : Prop :=
  s.fenceHold = false ∧ ∀ m ∈ s.stores, m.st ≠ .performed → (match s.strand.wait with | .drain k => k | _ => s.dev.fab.nextMsg) ≤ m.id
end Sys2Proof.Machine

/-- A consumed set (R43, R171, R264, R343, R346): a fence holds the instruction, a PENDING token makes it wait on the first one,
and otherwise the lowest FAULTED token raises TOKEN_FAULT with its number and cause. TWAIT then only goes on; TTEST reads a token.
Rests on a choice of the model: log 8. -/
def Obligations.TokensGateAndTest : Prop :=
  ∀ (s : State) (x : XE) (d a b : Fin 64) (sem : Fin 64) (bar : Fin 48) (ta : Fin 32),
    let users : List Instr := [.twait x, .tdsetL a b x, .mcfgL a x, .semacqL sem x, .semrelL sem a x, .semrd d sem (some x),
      .semset sem a (some x), .barcfg bar a (some x), .bararr bar a (some x), .barwait bar a (some x), .barsync bar a (some x), .bartest bar d a (some x)]
    let set := [x.ta, x.tb, x.tc].filter (· ≠ 0)
    (s.fenceHold = true → (∀ i ∈ users, Waits s i .other) ∧ Waits s (.ttest d ta) .other)
    ∧ (s.fenceHold = false → ∀ t ∈ set, set.find? (fun t => s.strand.t[t].st == .pending) = some t → ∀ i ∈ users, Waits s i (.token t))
    ∧ (s.fenceHold = false → (∀ t ∈ set, s.strand.t[t].st ≠ .pending) → ∀ t ∈ set, s.strand.t[t].st = .faulted →
        (∀ u ∈ set, s.strand.t[u].st = .faulted → t ≤ u) →
        ∀ i ∈ users, exec i s = .next (s.takeTrap 0x0A (t.val + 2 ^ 8 * s.strand.t[t].cause.toNat)))
    ∧ (Acquired s x → Does s (.twait x) 2 fun r => { r with fence := 0 })
    ∧ (s.fenceHold = false → Does s (.ttest d ta) 2 fun r => withS d
        (if ta = 0 then 0 else match r.t[ta].st with
          | .idle => 0 | .pending => 1 | .done => 2 | .faulted => BitVec.ofNat 64 (3 + 2 ^ 8 * r.t[ta].cause.toNat)) { r with fence := 0 })

/-- SEMACQ, SEMREL, SEMRD and SEMSET (R344 to R347), where no waiter is on the semaphore, and SEMACQ behind a waiter whose need
is not met; a strand goes before a queue that began to wait in the same fabric cycle.
Rests on choices of the model: log 8 and 10. -/
def Obligations.Semaphores : Prop :=
  ∀ (s : State) (sem : Fin 64) (d a : Fin 64) (x : Option XE),
    let n := (formX x).1
    let xe := (formX x).2
    let acq : Instr := match x with | none => .semacq sem | some x => .semacqL sem x
    let rel : Instr := match x with | none => .semrel sem a | some x => .semrelL sem a x
    let on := { s.strand with fence := 0 }
    let c := max 1 xe.imm.toNat
    let cnt := s.bank.sems[sem].toNat
    let mine := Waiter.strand s.curS sem c n
    let alone := ∀ w ∈ s.bank.waiters, w.sem ≠ sem
    let late := fun (w : Waiter) => ∃ q n k, w = .queue q n k s.dev.fabricCycles
    Acquired s xe →
    (alone → c ≤ cnt → Leaves s acq fun k =>
        { k with sems := k.sems.set sem (BitVec.ofNat 32 (cnt - c)), strands := strandsNow s { on.retire n with age := 0 } 2 })
    ∧ (∀ pre post, mine ∉ s.bank.waiters → s.bank.waiters = pre ++ post → (∀ w ∈ pre, ¬ late w) → (∀ w ∈ post.head?, late w) →
        ∀ w, (pre ++ mine :: post).find? (fun w => w.sem == sem) = some w → cnt < w.need → Leaves s acq fun k =>
        { k with waiters := pre ++ mine :: post, strands := strandsNow s { on with wait := .sem sem c } 0 })
    ∧ (mine ∈ s.bank.waiters → Leaves s acq fun k => { k with strands := strandsNow s { on with wait := .sem sem c } 0 })
    ∧ (∀ cause, targetOf s a = .bad cause → exec rel s = .next (s.takeTrap cause (s.rs a).toNat))
    ∧ (targetOf s a = .own → ¬ StoresDone s → ∃ w, Waits s rel w ∧ w ≠ .none)
    ∧ (targetOf s a = .own → StoresDone s → alone → Leaves s rel fun k =>
        { k with sems := k.sems.set sem (BitVec.ofNat 32 (min (cnt + c) (2 ^ 32 - 1)))
                 semov := if 2 ^ 32 ≤ cnt + c then k.semov ||| BitVec.ofNat 64 (2 ^ sem.val) else k.semov
                 strands := strandsNow s (on.retire n) (if cnt = 2 ^ 32 - 1 then 0 else 2) })
    ∧ (∀ q, targetOf s a = .other q → ∃ t m, exec rel s = .next t ∧ t = { s.modBank (fun k => { k with
            strands := strandsNow s (on.retire n) 0, task := k.task.map fun k => { k with escaped := true } }) with
          dev := { s.dev with fab := { s.dev.fab with net := s.dev.fab.net ++ [m], nextMsg := s.dev.fab.nextMsg + 1 } } }
        ∧ m.kind = 3 ∧ m.src = s.cur ∧ m.dst = q ∧ m.strand = some s.curS ∧ m.ctx = s.bank.ctx ∧ m.ref = sem.val ∧ m.count = c ∧ m.rel = true ∧ m.st = .queued)
    ∧ Does s (.semrd d sem x) n (fun r => withS d (BitVec.ofNat 64 cnt) { r with fence := 0 })
    ∧ ((s.rs a).toNat < 2 ^ 32 → alone → Leaves s (.semset sem a x) fun k =>
        { k with sems := k.sems.set sem (BitVec.ofNat 32 (s.rs a).toNat), strands := strandsNow s (on.retire n) (if (s.rs a).toNat = cnt then 0 else 2) })
    ∧ (2 ^ 32 ≤ (s.rs a).toNat → exec (.semset sem a x) s = .next (s.takeTrap 0x0D (s.rs a).toNat))

/-- BARCFG, BARARR, BARWAIT, BARSYNC and BARTEST (R348 to R352).
Rests on choices of the model: log 8 and 10. -/
def Obligations.NamedBarriers : Prop :=
  ∀ (s : State) (b : Fin 48) (d a : Fin 64) (x : Option XE),
    let n := (formX x).1
    let on := { s.strand with fence := 0 }
    let r := s.strand.arr
    let e := s.bank.bars[b]
    let names := fun (h : Fin 256) => r.valid = true ∧ r.home = h ∧ r.bar = b
    let home := fun (h : Fin 256) => (targetOf s a = .own ∧ h = s.cur) ∨ targetOf s a = .other h
    let free := r.valid = true → r.released = true
    let record := fun (sync : Bool) (h : Fin 256) => (⟨true, h, b, false, false, sync⟩ : Arrival)
    let count := fun (x : Bar) => { x with arrStr := x.arrStr ||| BitVec.ofNat 4 (2 ^ s.curS.val) }
    let parts := fun (x : Bar) => onesOf x.strands + onesOf x.cores
    let here := fun (x : Bar) => onesOf x.arrStr + onesOf x.arrCores
    let mayCount := e.strands.getLsbD s.curS.val = true ∧ e.arrStr.getLsbD s.curS.val = false
    let armed := fun (sync : Bool) (h : Fin 256) => sync = true → ¬ (r.sync = true ∧ names h)
    let at_ := fun (sync : Bool) => if sync then s.clearFence else s
    let start : Bool → Instr := fun sync => if sync then .barsync b a x else .bararr b a x
    let after : Bool → Fin 256 → Strand := fun sync h =>
      if sync then { on with arr := record true h, wait := .bar h b } else { on with arr := record false h }.retire n
    Acquired s (formX x).2 →
    (∀ cause, targetOf s a = .bad cause → ∀ i ∈ [Instr.bararr b a x, .barwait b a x, .barsync b a x, .bartest b d a x],
        exec i s = .next (s.takeTrap cause (s.rs a).toNat))
    ∧ (∀ blk, ReadsBlock s (s.rs a).toNat 64 64 blk → blk.length = 64 →
        let cores := BitVec.ofNat 256 (leNat (blk.take 32))
        let strands := BitVec.ofNat 4 (blk.getD 32 0).toNat
        let bad := fun (j : Nat) => (32 < j ∧ blk.getD j 0 ≠ 0) ∨ (j = 32 ∧ 2 ^ 4 ≤ (blk.getD 32 0).toNat) ∨ (j = 0 ∧ cores = 0 ∧ strands = 0)
          ∨ (j < 32 ∧ ∃ c : Fin 256, c.val / 8 = j ∧ cores.getLsbD c.val = true ∧ (c = s.cur ∨ s.core.part = none ∨ (s.cores[c]).part ≠ s.core.part))
        (∀ j < 64, bad j → (∀ k < j, ¬ bad k) → exec (.barcfg b a x) s = .next (s.takeTrap 0x0D j))
        ∧ ((∀ j < 64, ¬ bad j) → here e ≠ 0 → exec (.barcfg b a x) s = .next (s.takeTrap 0x0C b.val))
        ∧ ((∀ j < 64, ¬ bad j) → here e = 0 → Leaves s (.barcfg b a x) fun k =>
            { k with bars := k.bars.set b ⟨cores, strands, e.phase, 0, 0⟩, strands := strandsNow s (on.retire n) 0 }))
    ∧ (∀ sync : Bool, (∃ h, home h ∧ armed sync h) → ¬ free → exec (start sync) s = .next ((at_ sync).takeTrap 0x0C b.val))
    ∧ (∀ sync : Bool, targetOf s a = .own → armed sync s.cur → free → ¬ mayCount → exec (start sync) s = .next ((at_ sync).takeTrap 0x0C b.val))
    ∧ (∀ sync : Bool, targetOf s a = .own → armed sync s.cur → free → mayCount → ¬ StoresDone s → ∃ w, w ≠ .none ∧ Leaves s (start sync) fun k =>
        { k with strands := strandsNow s { (at_ sync).strand with wait := w } 0 })
    ∧ (∀ sync : Bool, targetOf s a = .own → armed sync s.cur → free → mayCount → StoresDone s → here (count e) < parts e → s.bank.loaded = true → Leaves s (start sync) fun k =>
        { k with bars := k.bars.set b (count e), strands := strandsNow s (after sync s.cur) 0 })
    ∧ (∀ sync : Bool, targetOf s a = .own → armed sync s.cur → free → mayCount → StoresDone s → parts e ≤ here (count e) → s.bank.loaded = true →
        ∃ t ms, exec (start sync) s = .next t ∧ t = { s.modBank (fun k => { k with
            bars := k.bars.set b ⟨e.cores, e.strands, e.phase + 1, 0, 0⟩, due := k.due ++ [⟨s.cur, b, none⟩], strands := strandsNow s (after sync s.cur) 0 }) with
          dev := { s.dev with fab := { s.dev.fab with net := s.dev.fab.net ++ ms, nextMsg := s.dev.fab.nextMsg + ms.length } } }
        ∧ ms.map (·.dst) = (List.finRange 256).filter (fun c => e.cores.getLsbD c.val)
        ∧ ∀ m ∈ ms, m.kind = 19 ∧ m.src = s.cur ∧ m.ctx = s.bank.ctx ∧ m.count = b.val ∧ m.err = false)
    ∧ (∀ (sync : Bool) (h : Fin 256), targetOf s a = .other h → armed sync h → free → ∃ t m, exec (start sync) s = .next t
        ∧ t = { s.modBank (fun k => { k with strands := strandsNow s (after sync h) 0 }) with
          dev := { s.dev with fab := { s.dev.fab with net := s.dev.fab.net ++ [m], nextMsg := s.dev.fab.nextMsg + 1 } } }
        ∧ m.kind = 4 ∧ m.src = s.cur ∧ m.dst = h ∧ m.ctx = s.bank.ctx ∧ m.ref = s.curS.val ∧ m.count = b.val ∧ m.rel = true)
    ∧ (∀ h, home h → ¬ names h → exec (.barwait b a x) s = .next (s.clearFence.takeTrap 0x0C b.val))
    ∧ (∀ h, home h → names h → ∀ i ∈ (if r.sync then [Instr.barwait b a x, .barsync b a x] else [.barwait b a x]),
        (r.released = false → Leaves s i fun k => { k with strands := strandsNow s { on with wait := .bar h b } 0 })
        ∧ (r.released = true → r.error = false → Does s i n fun t => { t with fence := 0, arr := { r with valid := false, sync := false } })
        ∧ (r.released = true → r.error = true → ∃ u, exec i s = .next (u.takeTrap 0x0C b.val)
            ∧ OnlyStrand s u ∧ u.strand = { on with arr := { r with valid := false, sync := false } }))
    ∧ (∀ h, home h → Does s (.bartest b d a x) n fun t => withS d
        (if r.valid = true ∧ r.home = h ∧ r.bar = b then (if r.released then 1 else 0) + (if r.error then 2 else 0) else 0) { t with fence := 0 })

namespace Sys2Proof.Machine
/-- The task ends (R379, R448): its version is kept for DISCARD, every strand stops, the nest is aborted, and no handler runs. No engine
command of it is left but those that issue nothing more and wait for their far writes to be acknowledged (R305, R308), and no QFLUSH
waits. No byte of memory changes, and no register of another core. -/
structure TaskEnds (s t : State) (e : Ending) : Prop where
  bytes   : ∀ k, t.rd k = s.rd k
  parts   : t.parts = s.parts
  dev     : t.dev = s.dev
  place   : t.cur = s.cur ∧ t.curS = s.curS ∧ t.agenda = s.agenda ∧ t.turn = s.turn ∧ t.freeCtr = s.freeCtr
  others  : ∀ (c : Fin 256) (n : Fin 4), c ≠ s.cur →
    t.cores[c].bank.strands[n] = { s.cores[c].bank.strands[n] with latch := t.cores[c].bank.strands[n].latch }
  task    : t.bank.task = s.bank.task.map fun k => { k with ending := some e }
  trap    : t.bank.trap = { s.bank.trap with handler := false, held := none, entry := none }
  events  : t.bank.evpend = 0
  strands : ∀ n : Fin 4, let r := t.bank.strands[n]
    r.run = false ∧ r.stopped = false ∧ r.smode = false ∧ r.wait = .none ∧ r.arr = Arrival.none
      ∧ r.s = s.bank.strands[n].s ∧ r.v = s.bank.strands[n].v ∧ r.k = s.bank.strands[n].k
  engine  : t.bank.mat.running = none ∧ t.bank.mat.queued = none ∧ t.bank.mat.eng = .idle
  queues  : ∀ k, s.bank.task = some k → ∀ q : Fin 4, ∀ c ∈ t.bank.queues[q].cmds, c.task = k.id →
    c.acks ≠ 0 ∧ c.started = true ∧ c.total = 0 ∧ c.ring = none ∧ c.fault = some (0, 3, 0)
  flushes : ∀ q : Fin 4, t.bank.queues[q].flush = false
/-- The scalar registers of a strand as 512 bytes (R446). -/
def regBytes (r : Strand) : List Byte := (List.finRange 64).flatMap fun (j : Fin 64) => toLe 8 (if j = 0 then 0 else r.s[j].toNat)
/-- The handler is entered on strand 0 (R444 to R446, R475): the report of a trap of strand n at pc, the frame, and every strand
of the task stopped when the trap stops it. -/
structure Entered (s t : State) (cause : Nat) (info : W64) (n : Fin 4) (pc : W64) (brk stops : Bool) : Prop where
  bytes   : ∀ k, t.rd k = (s.wrVirt (s.slot + 0x61000) (regBytes s.bank.strands[0] ++ regBytes s.bank.strands[n])).rd k
  ctxs    : t.ctxs = s.ctxs
  parts   : t.parts = s.parts
  dev     : t.dev = s.dev
  place   : t.cur = s.cur ∧ t.curS = s.curS ∧ t.agenda = s.agenda ∧ t.turn = s.turn ∧ t.freeCtr = s.freeCtr
  others  : ∀ c : Fin 256, c ≠ s.cur → t.cores[c] = s.cores[c]
  task    : t.bank.task = s.bank.task
  tcause  : ∃ retry restart, t.bank.trap.tcause = BitVec.ofNat 64
      (cause + 2 ^ 8 * n.val + (if stops then 2 ^ 10 else 0) + restart + 2 ^ 12 * retry + (if brk then 2 ^ 20 else 0))
    ∧ (∀ k, s.bank.task = some k → retry = min k.retry 255 ∧ restart = if k.nr = false ∧ k.escaped = false then 2 ^ 11 else 0)
    ∧ (s.bank.task = none → retry = 0 ∧ restart = 0)
  report  : t.bank.trap.tinfo = info ∧ t.bank.trap.tpc = pc &&& 0x00FFFFFFFFFFFFFF ∧ t.bank.trap.tgrant = 0
    ∧ t.bank.trap.ttask = (match s.bank.task with | some k => k.id | none => 0)
    ∧ t.bank.trap.tframe = BitVec.ofNat 64 ((s.slot + 0x61000) % 2 ^ 56)
  handler : t.bank.trap.handler = true ∧ t.bank.trap.entry = none ∧ t.bank.trap.held = s.bank.trap.held
    ∧ t.bank.trap.pc0 = s.bank.strands[0].pc ∧ t.bank.trap.run0 = s.bank.strands[0].run
  zero    : let r := t.bank.strands[0]
    r.smode = true ∧ r.run = true ∧ r.stopped = false ∧ r.pc = s.ctx.tvec &&& 0x00FFFFFFFFFFFFFC ∧ r.s = s.bank.strands[0].s
  strands : ∀ m : Fin 4, m ≠ 0 → let r := t.bank.strands[m]
    let o := s.bank.strands[m]
    (stops = false → (∀ w ∈ s.bank.waiters, ∀ k e p, w ≠ .strand 0 k e p) → r = o)
    ∧ (stops = true → r.stopped = o.run ∧ r.wait = .none ∧ r.run = o.run ∧ r.pc = o.pc ∧ r.s = o.s ∧ r.v = o.v ∧ r.k = o.k)
  /-- A notice that waits to enter is pending again when a trap enters before it (R451). -/
  pending : stops = true → (s.bank.trap.entry = none → t.bank.evpend = s.bank.evpend ∧ t.bank.evinfo = s.bank.evinfo)
    ∧ ∀ h (j : Fin 3), s.bank.trap.entry = some h → h.cause.toNat = 0x20 + j.val →
        t.bank.evpend = s.bank.evpend ||| BitVec.ofNat 3 (2 ^ j.val) ∧ t.bank.evinfo = s.bank.evinfo.set j h.info
  rest    : s.bank.waiters = [] → t.bank = { s.bank with
    strands := t.bank.strands, trap := t.bank.trap, evpend := t.bank.evpend, evinfo := t.bank.evinfo
    queues := s.bank.queues.map fun q => { q with flush := false } }
/-- A notice of cause 20H + j may be delivered: it is enabled, and the task that is active has a handler and does not end (R451, R453). -/
def Delivers (s : State) (j : Fin 3) : Prop :=
  s.ctx.tvec.getLsbD 0 = true ∧ s.ctx.evmask.getLsbD j.val = true ∧ ∃ k, s.bank.task = some k ∧ k.ending = none
/-- Of the pending notices that may be delivered, j is the lowest; it leaves evpend, with those that may not be delivered (R451). -/
def FirstNotice (s : State) (j : Fin 3) (left : BitVec 3) : Prop :=
  s.bank.evpend.getLsbD j.val = true ∧ Delivers s j
  ∧ (∀ i : Fin 3, i < j → s.bank.evpend.getLsbD i.val = true → ¬ Delivers s i)
  ∧ ∀ i : Fin 3, left.getLsbD i.val = true ↔ i ≠ j ∧ s.bank.evpend.getLsbD i.val = true ∧ Delivers s i
/-- The handler's own end is marked as forced in tcause (R475). -/
def forcedOf (s : State) : State := s.modTrap fun r => { r with tcause := r.tcause ||| 0x200000 }
/-- What a trap of a strand does (R444, R445, R452, R453), by whether the strand is the handler's, a handler runs, or tvec.EN is
set. `s` is the machine as the strand is left, and pc the PC that the report names. -/
def Traps (s t : State) (cause : Nat) (info : W64) (n : Fin 4) (pc : W64) (brk : Bool) : Prop :=
  (s.bank.strands[n].smode = true → TaskEnds (forcedOf s) t (.abort (s.bank.trap.tcause.setWidth 8) (BitVec.ofNat 8 cause) true 0))
  ∧ (s.bank.strands[n].smode = false → s.bank.trap.handler = true →
      t.bank.trap = { s.bank.trap with held := some (s.bank.trap.held.getD ⟨BitVec.ofNat 8 cause, info, n, pc, brk⟩) }
      ∧ (∀ k, t.rd k = s.rd k) ∧ t.bank.task = s.bank.task ∧ t.dev = s.dev ∧ t.ctxs = s.ctxs ∧ t.parts = s.parts
      ∧ ∀ m : Fin 4, m ≠ 0 → let r := t.bank.strands[m]
          let o := s.bank.strands[m]
          r.stopped = o.run ∧ r.wait = .none ∧ r.pc = o.pc ∧ r.s = o.s ∧ r.v = o.v ∧ r.k = o.k)
  ∧ (s.bank.strands[n].smode = false → s.bank.trap.handler = false → s.ctx.tvec.getLsbD 0 = true → Entered s t cause info n pc brk true)
  ∧ (s.bank.strands[n].smode = false → s.bank.trap.handler = false → s.ctx.tvec.getLsbD 0 = false → TaskEnds s t (.abort (BitVec.ofNat 8 cause) 0 false 0))
end Sys2Proof.Machine

/-- TEND, TSELF, LDLR, TSPAWN, TABORT, REUSE, TMARK and TYIELD (R389 to R397). A task that ends stays with its ending until DISCARD
(log 17), and one that yields is saved with its context (log 39).
Rests on choices of the model: log 8, 17, 27, 34 and 39. -/
def Obligations.TaskInstructions : Prop :=
  ∀ (s : State) (d a b : Fin 64) (j : Fin 16) (w : Fin 3),
    let va := (s.rs a).toNat
    let vb := (s.rs b).toNat
    let next := fun (k : Bank) => k.strands.set s.curS (s.strand.retire 1)
    (s.strand.smode = true → ∀ i ∈ [Instr.tend, .tself d w, .tspawn a b, .tabort a, .reuseAnchor, .reuseDrop, .tmark a b, .tyield d],
        exec i s = .next (s.takeTrap 0x06 0))
    ∧ (∀ k r, s.bank.task = some k → s.ctx.banks[Fin.ofNat 2 k.step.toNat] = some r →
        Puts s (.ldlr d j) 1 d (BitVec.ofNat 64 (r.row.toNat / 2 ^ (32 * j.val) % 2 ^ 32)))
    ∧ (∀ k, s.bank.task = some k → Puts s (.reuseQuery d) 1 d (BitVec.ofNat 64 (k.verdict.m.toNat + 2 ^ 32 * k.verdict.astep.toNat
        + (if k.verdict.valid then 2 ^ 43 else 0) + 2 ^ 44 * k.verdict.reason.toNat)))
    ∧ (s.strand.smode = false →
      ((∀ w ∈ s.bank.waiters, ∀ m c n, w ≠ .strand s.curS m c n) → Leaves s .tend fun k => { k with strands := Vector.ofFn fun n =>
          if n = s.curS then { s.strand.retire 1 with run := false, stopped := false, ended := true }
          else { k.strands[n] with latch := k.strands[n].latch ||| 32 } })
      ∧ (∀ k, s.bank.task = some k → Puts s (.tself d w) 1 d (match w with
          | 0 => k.id
          | 1 => k.mts
          | _ => BitVec.ofNat 64 (k.prio.toNat + 2 ^ 8 * min 255 k.retry + 2 ^ 16 * k.hint.toNat
              + (if k.nr = false ∧ k.escaped = false then 2 ^ 18 else 0) + (if k.nr then 2 ^ 19 else 0) + 2 ^ 24 * k.roles.toNat)))
      ∧ (2 ^ 12 ≤ va → exec (.tspawn a b) s = .next (s.takeTrap 0x0D va))
      ∧ (va < 2 ^ 12 → 2 ^ 32 ≤ vb → exec (.tspawn a b) s = .next (s.takeTrap 0x0D vb))
      ∧ (va < 2 ^ 12 → vb < 2 ^ 32 → (∀ D, nodeOf s va = some D → D.template = false) → exec (.tspawn a b) s = .next (s.takeTrap 0x0D va))
      ∧ (va < 2 ^ 12 → vb < 2 ^ 32 → ∀ D k, nodeOf s va = some D → D.template = true → s.bank.task = some k →
          let dr := Sys2Proof.Num.sint 16 (vb % 2 ^ 16)
          let dc := Sys2Proof.Num.sint 16 (vb / 2 ^ 16)
          let fits := ∀ q < 8, D.mode q ≠ 0 → 0 ≤ (D.row q : Int) + dr ∧ (D.row q : Int) + dr < 2 ^ 11 ∧ 0 ≤ (D.col q : Int) + dc ∧ (D.col q : Int) + dc < 2 ^ 11
          (fits → k.spawn.length < 64 → Leaves s (.tspawn a b) fun x => { x with
              task := some { k with spawn := k.spawn ++ [(BitVec.ofNat 12 va, BitVec.ofNat 16 vb, BitVec.ofNat 16 (vb / 2 ^ 16))] }, strands := next x })
          ∧ (¬ fits ∨ 64 ≤ k.spawn.length → exec (.tspawn a b) s = .next (s.takeTrap 0x0D vb)))
      ∧ (2 ^ 16 ≤ va → exec (.tabort a) s = .next (s.takeTrap 0x0D va))
      ∧ (va < 2 ^ 16 → ∃ t, exec (.tabort a) s = .next t ∧ TaskEnds s t (.abort 0 0 false (BitVec.ofNat 16 va)))
      ∧ (∀ k, s.bank.task = some k → ∀ i ∈ [(Instr.reuseAnchor, false), (.reuseDrop, true)], Leaves s i.1 fun x => { x with
          task := some (if fld k.desc 51 1 = 0 then k else { k with drop := i.2 }), strands := next x })
      ∧ (2 ^ 32 ≤ va → exec (.tmark a b) s = .next (s.takeTrap 0x0D va))
      ∧ (va < 2 ^ 32 → 2 ^ 8 ≤ vb → exec (.tmark a b) s = .next (s.takeTrap 0x0D vb))
      ∧ (va < 2 ^ 32 → vb < 2 ^ 8 → ∀ k, s.bank.task = some k →
          ((∃ r, regionAt s .load (s.ctx.tmarks.toNat / 2 ^ 12 % 2 ^ 44 * 2 ^ 12) = .ok (some r) ∧ r.kind = 2) → Leaves s (.tmark a b) fun x => { x with
              task := some { k with marks := k.marks ++ [(BitVec.ofNat 8 vb, BitVec.ofNat 32 va)] }, strands := next x })
          ∧ ((∀ r, regionAt s .load (s.ctx.tmarks.toNat / 2 ^ 12 % 2 ^ 44 * 2 ^ 12) = .ok (some r) → r.kind ≠ 2) →
              exec (.tmark a b) s = .next (s.takeTrap 0x0D 0x100)))
      ∧ (s.bank.task = none → Puts s (.tyield d) 1 d 0)
      ∧ (s.strand.run = true → ∀ k, s.bank.task = some k → let u := s.enterPool (partOfCtx s.bank.ctx)
          ((∀ p, s.core.part = some p → ∀ e ∈ (u.part p).pool, e.ctx = s.bank.ctx → e.prio ≤ k.prio) →
            ∃ t, exec (.tyield d) s = .next t ∧ Retired u t 1 (withS d 0))
          ∧ (∀ e l n, u.higherHead k = some (e, l, n) →
            let here := u.core.candidate e.ctx = true ∧ u.chooseCore e.ctx n e (fun c => c != u.cur) = none
            (¬ here → ∃ t, exec (.tyield d) s = .next t ∧ Retired u t 1 (withS d 0))
            ∧ (∀ v, here → u.prepare e l n u.cur = (v, none) → ∃ t, exec (.tyield d) s = .next t ∧ Retired v t 1 (withS d 0))
            ∧ (∀ v x, here → u.prepare e l n u.cur = (v, some x) → (∃ c ∈ v.ctxs, c.id = s.bank.ctx) → s.clockStopped = false →
              ∃ t sv, exec (.tyield d) s = .next t ∧ (s.cur, sv) ∈ t.ctx.saved ∧ sv.task.map (·.id) = some k.id
                ∧ (d ≠ 0 → sv.strands[s.curS].s[d] = 1)
                ∧ (∀ g, x.gapply = true → hintGear x.hint = some g → g ≠ s.core.gear → t.core.shadow = .task x ∧ t.bank.task = none
                    ∧ (s.arriving = false → t.core.trans = some (g, .gapply)))
                ∧ ((x.gapply = false ∨ ∀ g, hintGear x.hint = some g → g = s.core.gear) → t.bank.task = some x ∧ t.core.shadow = .free ∧ ∀ m : Fin 4, Node.named x.desc m.val = true → t.bank.strands[m].run = true
                    ∧ t.bank.strands[m].pc = x.code + BitVec.ofNat 64 (4 * (Node.entry x.desc m.val % 2 ^ 28)))))))

/-- Taking an exception (R444 to R446, R452, R453, R475): a trap of the handler itself aborts the task, one that arises while a
handler runs is held, one with no handler aborts the task, and otherwise the handler is entered. The frame is written and the strand is at
the handler in the step of the trap (log 16); a task that ends stays with its ending, and its version, until DISCARD (log 17).
Rests on choices of the model: log 16 and 17. -/
def Obligations.TrapEntry : Prop :=
  ∀ (s : State) (cause info : Nat), cause < 2 ^ 8 → ¬ (0x20 ≤ cause ∧ cause ≤ 0x22) →
    Traps s (s.takeTrap cause info) cause (BitVec.ofNat 64 info) s.curS s.strand.pc false

namespace Sys2Proof.Machine
/-- What a core cycle does that is due in p, where strand n alone of the core may issue and the words at its PC are no instruction:
it traps, as its age becomes 0, and the cycle ends with what its fetches bring about. -/
def IllegalAlone (p : State) (n : Fin 4) (o : Out) : Prop :=
  let v := p.cycleStart
  let u := v.focus v.cur n
  let f := v.withCode [n]
  let a := (f.focus f.cur n).modStrandN n fun x => { x with age := 0 }
  p.cycleDue = true → (∀ m, v.mayIssue m = decide (m = n)) →
  ∀ w w1 w2 reason : Nat,
    let bad := fun (x : State) =>
      (x.parcels = .ok (w, w1, w2) ∧ decodeParcels w w1 w2 = .error reason) ∨ (x.parcelAt x.strand.pc = .ok w ∧ lengthOf w = .error reason)
    let r := u.usedUp.takeTrap 0x01 (w + 2 ^ 32 * reason)
    let t := a.usedUp.takeTrap 0x01 (w + 2 ^ 32 * reason)
    bad u → bad a → r.waiting n = false → t.waiting n = false →
      Traps a.usedUp t 0x01 (BitVec.ofNat 64 (w + 2 ^ 32 * reason)) n u.strand.pc false
      ∧ o = .next ((v.cycleUses t [n] [n]).cycleEnd v.ctx.actctl v.bank.taskId u.weight (v.issues && v.overBudget))
end Sys2Proof.Machine

/-- Words that no rule of R33 to R55 allows trap before any effect: ILLEGAL_INSN at the PC of parcel 0, with parcel 0 in
info[31:0] and the reason in info[39:32] (R56). Where parcel 0 alone has a reason, no later parcel is fetched. The trap is taken as TrapEntry says (R444; log 16, 17).
Rests on choices of the model: log 2, 14, 16, 17 and 25. -/
def Obligations.StepTrapsIllegal : Prop :=
  (∀ (s : State) (c : Fin 256) (n : Fin 4) (rest : List Move), s.agenda = .cycle c :: rest →
    IllegalAlone ({ s with agenda := rest, cur := c } : State) n (step s))
  ∧ ∀ (s : State) (c : Fin 256) (n : Fin 4), s.agenda = [] → s.turn % 530 = c.val →
    IllegalAlone ({ s with turn := (s.turn + 1) % 530, cur := c } : State).gearDone.barDrop.barReturn n (step s)

/-- TRAP and BREAK take their cause with a in tinfo and their own PC in tpc, and RESUME goes on behind them (R454, R461); ERET is
for the handler alone, and ends the task or resumes it (R448, R449, R452).
Rests on choices of the model: log 16 and 17. -/
def Obligations.SoftTrapsAndReturns : Prop :=
  ∀ (s : State) (code : Fin 16) (a : Fin 64),
    let r := s.bank.trap
    let c := r.tcause.toNat % 2 ^ 8
    let task := s.bank.task
    let may := ∃ k, task = some k ∧ k.nr = false ∧ k.escaped = false ∧ k.retry < s.ctx.tctl.toNat
    let frame := s.slot + 0x61000
    let forced := s.modTrap fun r => { r with tcause := r.tcause ||| 0x200000 }
    (s.strand.smode = false → (∃ t, exec (.trap code a) s = .next t ∧ Traps (s.retire 1) t (0x10 + code.val) (s.rs a) s.curS s.strand.pc false)
        ∧ ∃ t, exec (.brk a) s = .next t ∧ Traps (s.retire 1) t 0x1F (s.rs a) s.curS s.strand.pc true)
    ∧ (s.strand.smode = true → (∃ t, exec (.trap code a) s = .next t ∧ Traps s t (0x10 + code.val) (s.rs a) s.curS s.strand.pc false)
        ∧ ∃ t, exec (.brk a) s = .next t ∧ Traps s t 0x1F (s.rs a) s.curS s.strand.pc false)
    ∧ (s.strand.smode = false → ∀ i ∈ [Instr.eretRerun, .eretAbort, .eretResume], exec i s = .next (s.takeTrap 0x06 0))
    ∧ (s.strand.smode = true →
      (may → ∃ t, exec .eretRerun s = .next t ∧ TaskEnds s t .rerun)
      ∧ (¬ may → ∃ t, exec .eretRerun s = .next t ∧ TaskEnds forced t (.abort (BitVec.ofNat 8 c) 0 true 0))
      ∧ (∃ t, exec .eretAbort s = .next t ∧ TaskEnds s t (.abort (BitVec.ofNat 8 c) 0 false 0))
      ∧ (c ≤ 0x0E → c ≠ 0x09 → ∃ t, exec .eretResume s = .next t ∧ TaskEnds forced t (.abort (BitVec.ofNat 8 c) 0 true 0))
      ∧ (¬ (c ≤ 0x0E ∧ c ≠ 0x09) → r.held = none → ∃ t, exec .eretResume s = .next t
          ∧ (∀ k, t.rd k = s.rd k) ∧ t.dev = s.dev ∧ t.parts = s.parts ∧ t.ctxs = s.ctxs ∧ (∀ j : Fin 256, j ≠ s.cur → t.cores[j] = s.cores[j])
          ∧ t.bank.trap.handler = false ∧ t.bank.trap.tcause = r.tcause ∧ t.bank.sems = s.bank.sems ∧ t.bank.queues = s.bank.queues
          ∧ (c ≠ 0x09 → t.bank.task = task)
          ∧ (c = 0x09 → t.bank.task = task.map fun k => { k with
              budget := if r.tgrant = 0 then 0 else BitVec.ofNat 32 (min (2 ^ 32 - 1) (k.budget.toNat + 64 * r.tgrant.toNat)) })
          ∧ (let z := t.bank.strands[0]
             z.smode = false ∧ z.stopped = false ∧ z.pc = r.pc0 ∧ z.run = r.run0 ∧ z.ended = r.ended0 ∧ z.wait = .none)
          ∧ (let n : Fin 4 := Fin.ofNat 4 (r.tcause.toNat / 2 ^ 8)
             ∀ m : Fin 4,
              (m ≠ 0 → t.bank.strands[m].pc = s.bank.strands[m].pc ∧ t.bank.strands[m].run = s.bank.strands[m].run ∧ t.bank.strands[m].stopped = false
                ∧ t.bank.strands[m].v = s.bank.strands[m].v ∧ (m ≠ n → t.bank.strands[m].s = s.bank.strands[m].s))
              ∧ (m = n ∨ m = 0 → ∀ x : Fin 64, x ≠ 0 → t.bank.strands[m].s[x] =
                  BitVec.ofNat 64 (leNat (s.rdVirt (frame + (if m = n then 512 else 0) + 8 * x.val) 8))))
          ∧ ((∀ j : Fin 3, s.bank.evpend.getLsbD j.val = true → ¬ Delivers s j) → t.bank.trap.entry = r.entry ∧ t.bank.evpend = 0)
          ∧ (∀ j : Fin 3, (∃ left, FirstNotice s j left) →
              t.bank.trap.entry = some ⟨BitVec.ofNat 8 (0x20 + j.val), s.bank.evinfo[j], 0, t.bank.strands[0].pc, false⟩
              ∧ FirstNotice s j t.bank.evpend))
      ∧ (¬ (c ≤ 0x0E ∧ c ≠ 0x09) → ∀ h, r.held = some h → h.cause.toNat < 0x20 → s.ctx.tvec.getLsbD 0 = true → (∀ m : Fin 4, m ≠ 0 → s.bank.strands[m].smode = false) →
          ∃ t u, exec .eretResume s = .next t ∧ u.bank.trap.held = none ∧ u.bank.strands[0].pc = r.pc0
            ∧ Entered u t h.cause.toNat h.info h.strand (if h.strand = 0 then r.pc0 else h.pc) h.brk true))

/-- HANDLER_ENTRY, NOTICE_DELIVERY, OVERRUN and DISCARD (R379, R404, R446, R451). -/
def Clauses.TrapEvents : Prop :=
  ∀ (s : State) (c : Fin 256),
    let u : State := { s with cur := c }
    let r := u.bank.trap
    let z := u.bank.strands[0]
    let stands := u.core.trans.isSome = true ∨ u.dev.power.thermalStop = true
    ((r.entry = none ∨ r.handler = true ∨ stands) → exec (.handlerEntry c) s = .next s)
    ∧ ((r.handler = true ∨ stands) → exec (.noticeDelivery c) s = .next s)
    ∧ (r.handler = false → ¬ stands → ∀ h (j : Fin 3), r.entry = some h → h.cause.toNat = 0x20 + j.val →
        ∀ i ∈ [Instr.handlerEntry c, .noticeDelivery c], EventOn s c i fun a t =>
          (Delivers u j → Entered a t h.cause.toNat h.info h.strand z.pc h.brk false)
          ∧ (¬ Delivers u j → OnlyBank a t ∧ t.bank = { a.bank with trap := { r with entry := none } }))
    ∧ (r.handler = false → ¬ stands → r.entry = none → (∀ j : Fin 3, u.bank.evpend.getLsbD j.val = true → ¬ Delivers u j) →
        EventOn s c (.noticeDelivery c) fun a t => OnlyBank a t ∧ t.bank = { a.bank with evpend := 0 })
    ∧ (r.handler = false → ¬ stands → r.entry = none → ∀ j : Fin 3, (∃ left, FirstNotice u j left) →
        EventOn s c (.noticeDelivery c) fun a t => Entered a t (0x20 + j.val) u.bank.evinfo[j] 0 z.pc false false ∧ FirstNotice u j t.bank.evpend)
    ∧ (∀ k, u.bank.task = some k →
        let mine := r.handler = true ∧ r.tcause.toNat % 2 ^ 8 = 0x09
        ((stands ∨ k.budget = 0 ∨ k.usedCyc ≤ k.budget ∨ k.ending.isSome = true ∨ mine ∨ r.held.isSome = true) → exec (.overrun c) s = .next s)
        ∧ (¬ stands → k.budget ≠ 0 → k.budget < k.usedCyc → k.ending = none → ¬ mine → r.held = none →
            ∀ n : Fin 4, u.bank.strands[n].run = true → u.bank.strands[n].smode = false → (∀ m < n, u.bank.strands[m].run = false ∨ u.bank.strands[m].smode = true) →
            EventOn s c (.overrun c) fun a t => Traps a t 0x09 (BitVec.ofNat 64 k.usedCyc.toNat) n u.bank.strands[n].pc false))
    ∧ (u.bank.task = none → exec (.overrun c) s = .next s)
    ∧ (u.elsewhere = [] → u.bank.tail = [] → (∀ x ∈ u.ctxs, ∀ e ∈ x.saved, e.1 ≠ c) → (u.bank.task = none → exec (.discard c) s = .next s) ∧ ∀ k, u.bank.task = some k →
        let still := u.quietFor k.id = true
        let pool := fun (x : State) => (x.part (partOfCtx u.bank.ctx)).pool
        (k.ending = none ∨ ¬ still → exec (.discard c) s = .next s)
        ∧ (∀ w x y f, still → k.ending = some (.abort w x y f) → EventOn s c (.discard c) fun _ t =>
            t.bank.task = none ∧ t.core.dirty = [] ∧ t.bank.mat.eng = .idle ∧ (∀ l ∈ t.core.icache, l.ctx ≠ u.bank.ctx) ∧ ∀ l, t.ctx.launch = some l → l.failed.isSome = true ∧ l.elig = [])
        ∧ (still → k.ending = some .rerun → (∀ l, u.ctx.launch = some l → l.failed = none) → EventOn s c (.discard c) fun a t =>
            t.bank.task = none ∧ t.core.dirty = [] ∧ (∀ l ∈ t.core.icache, l.ctx ≠ u.bank.ctx) ∧ t.mem.cells = a.mem.cells ∧ t.mem.poison = a.mem.poison
            ∧ (4096 ≤ (pool a).length → pool t = pool a ∧ ∀ l, t.ctx.launch = some l → ∃ e ∈ l.elig, e.node = k.node ∧ e.step = k.step
                ∧ e.inst = k.inst ∧ e.retry = k.retry + 1 ∧ e.ready = true)
            ∧ ((pool a).length < 4096 → ∃ e, (t.part (partOfCtx u.bank.ctx)).pool = (a.part (partOfCtx u.bank.ctx)).pool ++ [e] ∧ e.ctx = u.bank.ctx ∧ e.inst.node = k.node
                ∧ e.inst.step = k.step ∧ e.inst.inst = k.inst ∧ e.inst.retry = k.retry + 1)))

/-! ## Control and status registers, and system control -/
namespace Sys2Proof.Machine
/-- Bits hi to lo of a value, in place. -/
def fieldAt (x : W64) (hi lo : Nat) : Nat := x.toNat / 2 ^ lo % 2 ^ (hi + 1 - lo) * 2 ^ lo
/-- The CSRs that exist (R51, R115, R159, R231, R276, R310, R337, R356, R398, R412, R438, R473, R502). -/
def csrExists : List Nat :=
  [0x000, 0x001, 0x002, 0x003, 0x004, 0x005, 0x008, 0x009, 0x00A, 0x100, 0x101, 0x102, 0x200, 0x201, 0x202, 0x203, 0x280, 0x281, 0x282, 0x283,
    0x300, 0x301, 0x302, 0x303, 0x304, 0x340, 0x341, 0x342, 0x343, 0x344, 0x345, 0x346, 0x347]
  ++ (List.range 9).map (0x380 + ·) ++ (List.range 6).map (0x400 + ·) ++ (List.range 3).map (0x500 + ·) ++ (List.range 3).map (0x580 + ·)
  ++ (List.range 13).map (0x600 + ·) ++ (List.range 12).map (0x700 + ·) ++ (List.range 16).map (0x710 + ·)
/-- The CSRs that only S mode reads, and those that only S mode writes. -/
def readsInS : List Nat := [0x601, 0x602, 0x603, 0x604, 0x605, 0x606, 0x60A]
def writesInS : List Nat :=
  [0x001, 0x008, 0x101, 0x102, 0x283, 0x304, 0x344, 0x400, 0x402, 0x581, 0x600, 0x601, 0x602, 0x603, 0x604, 0x605, 0x606, 0x608, 0x609, 0x60A,
    0x60B, 0x60C, 0x702, 0x70A]
/-- The bits of a CSR that are cleared or triggered by writing a one. -/
def onesOfCsr : List (Nat × Nat) :=
  [(0x008, 2 ^ 63), (0x282, 2 ^ 32 - 1), (0x340, 2 ^ 63), (0x341, 2 ^ 63), (0x342, 2 ^ 63), (0x343, 2 ^ 63), (0x385, 2 ^ 64 - 1),
    (0x386, 2 ^ 48 - 1), (0x60C, 2 ^ 63), (0x70B, 2 ^ 63)]
/-- What a CSR with a field that a program writes reads as after a write of x: the fields that it holds, clamped as its rule
says (R115, R119, R159, R231, R276, R278, R298, R306, R311, R338, R356, R386, R399, R415, R439, R474 to R478, R491, R500, R502). -/
def csrAfter (s : State) (n : Nat) (x : W64) : Option W64 :=
  let old := csrRead s n
  let v := x.toNat
  let clear := if x.getLsbD 63 then 0 else old
  match n with
  | 0x001 => some (BitVec.ofNat 64 (max 16 (v % 2 ^ 10)))
  | 0x008 | 0x340 | 0x341 | 0x342 | 0x343 | 0x70B => some clear
  | 0x101 => some (BitVec.ofNat 64 (fieldAt x 47 16))
  | 0x102 => some (BitVec.ofNat 64 (fieldAt x 47 16 + min 4096 (v % 2 ^ 13)))
  | 0x200 => some (if v % 8 = 7 then old else BitVec.ofNat 64 (v % 8))
  | 0x281 => some (BitVec.ofNat 64 (v % 2 ^ 16))
  | 0x282 | 0x385 | 0x386 => some (old &&& ~~~x)
  | 0x283 => some (BitVec.ofNat 64 (fieldAt x 55 14))
  | 0x304 | 0x607 => some (BitVec.ofNat 64 (v % 8))
  | 0x344 => some (BitVec.ofNat 64 (fieldAt x 55 12 + v % 2 ^ 8))
  | 0x345 | 0x609 => some (BitVec.ofNat 64 (v % 2 ^ 8))
  | 0x380 => some (BitVec.ofNat 64 (fieldAt x 31 16 + v % 2))
  | 0x387 => some (BitVec.ofNat 64 (v % 2 ^ 6))
  | 0x400 => some (BitVec.ofNat 64 (fieldAt x 55 20 + 2 ^ 8 * max 1 (v / 2 ^ 8 % 2 ^ 12)))
  | 0x402 | 0x581 => some (BitVec.ofNat 64 (fieldAt x 55 12))
  | 0x500 => some (BitVec.ofNat 64 (v % 2 ^ 41))
  | 0x501 => some (BitVec.ofNat 64 (v % 2 ^ 32))
  | 0x502 => some (BitVec.ofNat 64 (min (2 ^ 32) (v % 2 ^ 33)))
  | 0x600 => some (BitVec.ofNat 64 (fieldAt x 55 2 + v % 2))
  | 0x606 => some (BitVec.ofNat 64 (v % 2 ^ 24))
  | 0x60A => some x
  | 0x701 => some (BitVec.ofNat 64 (max 1 (min (v % 2 ^ 10) (s.ctx.actcap.toNat % 2 ^ 10)) + 2 ^ 20 * min 1024 (max 8 (v / 2 ^ 20 % 2 ^ 11))
      + (if x.getLsbD 31 = true ∨ (s.ctx.actcap.getLsbD 10 = true ∧ s.ctx.actctl.getLsbD 31 = true) then 2 ^ 31 else 0)))
  | 0x702 => some (BitVec.ofNat 64 (v % 2 ^ 11))
  | 0x70A => some (BitVec.ofNat 64 (fieldAt x 55 12 + max 4 (v % 16)))
  | n => if 0x710 ≤ n ∧ n < 0x720 then some (BitVec.ofNat 64 (v % 16)) else none
/-- The context of the core is installed (R508). -/
def Installed (s : State) : Prop := ∃ c ∈ s.ctxs, c.id = s.bank.ctx
/-- What a write of a CSR leaves as it was: memory, the device, the partitions, the core's clock, task, semaphores' waiters and
engines' commands, and every register s, v, k and t of every strand. -/
structure KeepsAll (s t : State) : Prop where
  mem   : t.mem = s.mem
  dev   : t.dev = s.dev
  parts : t.parts = s.parts
  place : t.cur = s.cur ∧ t.curS = s.curS ∧ t.agenda = s.agenda ∧ t.turn = s.turn ∧ t.freeCtr = s.freeCtr
  cores : ∀ c : Fin 256, c ≠ s.cur → t.cores[c] = { s.cores[c] with bank := t.cores[c].bank, shadow := t.cores[c].shadow }
  core  : t.core = { s.core with bank := t.bank, shadow := t.core.shadow, ageLimit := t.core.ageLimit, pbc := t.core.pbc }
  bank  : t.bank.sems = s.bank.sems ∧ t.bank.waiters = s.bank.waiters ∧ t.bank.bars = s.bank.bars ∧ t.bank.tr = s.bank.tr
    ∧ (∀ q : Fin 4, t.bank.queues[q].cmds = s.bank.queues[q].cmds) ∧ t.bank.mat.acc = s.bank.mat.acc ∧ t.bank.mat.running = s.bank.mat.running
  regs  : ∀ (c : Fin 256) (n : Fin 4), let r := t.cores[c].bank.strands[n]
    let o := s.cores[c].bank.strands[n]
    r.s = o.s ∧ r.v = o.v ∧ r.k = o.k ∧ r.t = o.t ∧ r.run = o.run ∧ r.smode = o.smode ∧ r.pc = o.pc
/-- A change of one bank, with everything else as it was. -/
def Banks (s : State) (i : Instr) (f : Bank → Bank) : Prop := exec i s = .next (s.modBank f)
end Sys2Proof.Machine

/-- CSRR, CSRW, CSRW.SET and CSRW.CLR (R7, R51, R455): the old value goes to d; a CSR that no chapter assigns is ILLEGAL_INSN, one of
S mode is PROTECTION outside it; a CSR with writable fields then reads as its rule says, and any other write has no effect.
Rests on a choice of the model: log 27. -/
def Obligations.CsrAccess : Prop :=
  ∀ (s : State) (d a : Fin 64) (csr : BitVec 11),
    let n := csr.toNat
    let old := csrRead s n
    let x := s.rs a
    let ones : W64 := BitVec.ofNat 64 (((onesOfCsr.find? fun e => e.1 == n).map (·.2)).getD 0)
    let word := fun (maj len : Nat) (a : Fin 64) => len + 4 * maj + 2 ^ 9 * d.val + 2 ^ 15 * a.val + 2 ^ 21 * n + 2 ^ 32 * 9
    let forms : List (Instr × Nat × W64) := [(.csrw d a csr, 1, x), (.csrwSet d a csr, 2, ((old ||| x) &&& ~~~ones) ||| (x &&& ones)),
      (.csrwClr d a csr, 2, (old &&& ~~~x) &&& ~~~ones)]
    (n ∉ csrExists → exec (.csrr d csr) s = .next (s.takeTrap 0x01 (word 0x7A 0 0)) ∧ exec (.csrw d a csr) s = .next (s.takeTrap 0x01 (word 0x7B 0 a))
        ∧ exec (.csrwSet d a csr) s = .next (s.takeTrap 0x01 (word 0x7B 1 a)) ∧ exec (.csrwClr d a csr) s = .next (s.takeTrap 0x01 (word 0x7B 1 a)))
    ∧ (n ∈ readsInS → s.strand.smode = false → exec (.csrr d csr) s = .next (s.takeTrap 0x06 n))
    ∧ (n ∈ writesInS → s.strand.smode = false → ∀ f ∈ forms, exec f.1 s = .next (s.takeTrap 0x06 n))
    ∧ (n ∈ csrExists → (n ∈ readsInS → s.strand.smode = true) → Puts s (.csrr d csr) 1 d old)
    ∧ (n ∈ csrExists → (n ∈ writesInS → s.strand.smode = true) → ∀ f ∈ forms,
        (csrAfter s n f.2.2 = none → Puts s f.1 f.2.1 d old)
        ∧ ∃ t u, exec f.1 s = .next u ∧ KeepsAll s t ∧ Retired t u f.2.1 (withS d old)
            ∧ (Installed s → ∀ y, csrAfter s n f.2.2 = some y → csrRead u n = y))

/-- The CSR values that the spec computes from the machine's state: strand, mode and core numbers (R115), loop counters (R118), the
branch queue (R139), constants (R159, R231, R276, R311), waits (R356), semaphores' overflow, a barrier's state, and the trap report (R475). -/
def Clauses.CsrValues : Prop :=
  ∀ s : State,
    let v := fun (n : Nat) => csrRead s n
    let b := s.bank
    let r := s.strand
    let lc := fun (l : LoopCtr) => BitVec.ofNat 64 (l.count.toNat + (if l.active then 2 ^ 32 else 0) + 2 ^ 33 * l.len.toNat)
    let waits := fun (w : Wait) => match w with
      | .token t => BitVec.ofNat 64 (1 + 2 ^ 8 * t.val)
      | .sem m k => BitVec.ofNat 64 (2 + 2 ^ 8 * m.val + 2 ^ 32 * (k % 2 ^ 12))
      | .bar h m => BitVec.ofNat 64 (3 + 2 ^ 8 * m.val + 2 ^ 16 * h.val + (if h = s.cur then 0 else 2 ^ 24))
      | _ => 0
    (∀ p, s.core.part = some p → v 0x000 = BitVec.ofNat 64 (s.curS.val + 2 ^ 3 * roleRank r.role + (if r.smode then 2 ^ 7 else 0) + 2 ^ 8 * p.val + 2 ^ 12 * s.cur.val))
    ∧ v 0x002 = lc r.lc[0] ∧ v 0x003 = lc r.lc[1] ∧ v 0x004 = r.lc[0].end_.setWidth 64 ∧ v 0x005 = r.lc[1].end_.setWidth 64
    ∧ v 0x008 = BitVec.ofNat 64 b.bq.length
    ∧ (b.bq.length ≤ 64 → ∀ j < 64, (v 0x009).getLsbD j = b.bq.getD j false)
    ∧ (∀ n : Fin 4, (v 0x00A).getLsbD n.val = b.strands[n].run ∧ (v 0x00A).getLsbD (4 + n.val) = decide (b.strands[n].wait = .wfe))
    ∧ v 0x100 = 0x7FF356 ∧ v 0x203 = 0x2000080 ∧ v 0x280 = 0x844008020 ∧ v 0x347 = 0x102004
    ∧ v 0x202 = r.rts ∧ v 0x201 = BitVec.ofNat 64 (r.pop.toNat + 2 ^ 8 * r.push.toNat)
    ∧ v 0x381 = waits b.strands[0].wait ∧ v 0x382 = waits b.strands[1].wait ∧ v 0x383 = waits b.strands[2].wait ∧ v 0x384 = waits b.strands[3].wait
    ∧ (∀ k : Fin 48, r.barsel.toNat = k.val → v 0x388 = BitVec.ofNat 64 (onesOf b.bars[k].strands + onesOf b.bars[k].cores
        + 2 ^ 16 * (onesOf b.bars[k].arrStr + onesOf b.bars[k].arrCores) + 2 ^ 32 * (b.bars[k].phase % 2 ^ 16)))
    ∧ v 0x602 = b.trap.tinfo ∧ v 0x603 = b.trap.tpc ∧ v 0x604 = b.trap.ttask ∧ v 0x605 = b.trap.tframe
    ∧ (∀ j < 64, j ≠ 11 → (v 0x601).getLsbD j = b.trap.tcause.getLsbD j)
    ∧ (v 0x601).getLsbD 11 = (b.task.any fun k => !k.nr && !k.escaped)
    ∧ (∀ k, b.task = some k → v 0x405 = BitVec.ofNat 64 (k.usedCyc.toNat + 2 ^ 32 * k.budget.toNat))
    ∧ v 0x706 = s.ctx.ectx[0] ∧ v 0x707 = s.ctx.ectx[1] ∧ v 0x708 = s.ctx.ectx[2] ∧ v 0x709 = s.ctx.ectx[3]

/-- The side effects of writing one CSR, each a step of its own in the opcode table (R45, R117, R119, R239, R287, R298, R311, R491, R502). -/
def Clauses.CsrWriteEffects : Prop :=
  ∀ (s : State) (v : W64) (q : Fin 4),
    (v.getLsbD 63 = true → Banks s (.bq v) fun k => { k with bq := [] })
    ∧ (v.getLsbD 63 = false → exec (.bq v) s = .next s ∧ exec (.qf q v) s = .next s ∧ exec (.telst v) s = .next s)
    ∧ exec (.age v) s = .next (s.modCore fun k => { k with ageLimit := BitVec.ofNat 10 (max 16 (v.toNat % 2 ^ 10)) })
    ∧ (v.toNat % 8 = 7 → exec (.rmode v) s = .next s)
    ∧ (v.toNat % 8 ≠ 7 → Banks s (.rmode v) fun k => { k with strands := k.strands.set s.curS { s.strand with rmode := BitVec.ofNat 3 v.toNat } })
    ∧ (v.getLsbD 63 = true → Banks s (.qf q v) fun k => { k with queues := k.queues.set q { k.queues[q] with qf := 0 } })
    ∧ (∃ t, exec (.pgroot v) s = .next t ∧ KeepsAll s t ∧ t.core.pbc = [] ∧ t.bank = s.bank
        ∧ (Installed s → t.ctx = { s.ctx with pgroot := BitVec.ofNat 64 (fieldAt v 47 16) }))
    ∧ (∃ t, exec (.tdtab v) s = .next t ∧ KeepsAll s t ∧ (Installed s → t.ctx.tdtab = BitVec.ofNat 64 (fieldAt v 55 14))
        ∧ (s.bank.loaded = true → t.bank = { s.bank with
            mat := { s.bank.mat with tags := Vector.replicate 4 Tag.none }
            task := s.bank.task.map fun k => { k with descs := [] } }))
    ∧ (∃ t, exec (.ringtab v) s = .next t ∧ KeepsAll s t
        ∧ (Installed s → t.ctx.rings = [] ∧ t.ctx.ringtab = BitVec.ofNat 64 (fieldAt v 55 12 + v.toNat % 2 ^ 8)))
    ∧ (∃ t, exec (.actctl v) s = .next t ∧ KeepsAll s t ∧ (Installed s → csrAfter s 0x701 v = some t.ctx.actctl)
        ∧ (min 1024 (max 8 (v.toNat / 2 ^ 20 % 2 ^ 11)) = s.ctx.actctl.toNat / 2 ^ 20 % 2 ^ 11 → t.bank = s.bank)
        ∧ (min 1024 (max 8 (v.toNat / 2 ^ 20 % 2 ^ 11)) ≠ s.ctx.actctl.toNat / 2 ^ 20 % 2 ^ 11 → t.bank = { s.bank with acc := 0, pos := 0 }))
    ∧ (v.getLsbD 63 = true → ∃ t, exec (.telst v) s = .next t ∧ KeepsAll s t ∧ t.bank = s.bank ∧ (Installed s → t.ctx = { s.ctx with telst := 0 }))

/-- What each CSR reads as, and the side effects of the CSR writes that have a row. Rests on choices of the model: log 28, 30 and 33. -/
def Obligations.CsrValuesAndWrites : Prop := Clauses.CsrValues ∧ Clauses.CsrWriteEffects

/-- GEAR, TIME, STRSTART, STRSTOP, WFE, TLBINV, CTXID and XSIG (R436, R457 to R460, R486, R487). TLBINV
drops the context's lines of the instruction cache too (log 14); an XSIG that consumes a faulted token completes as faulted (R295, log 32),
and what it sends leaves through the list of far accesses (log 23).
Rests on choices of the model: log 8, 14, 23, 27, 32 and 33. -/
def Obligations.ControlInstructions : Prop :=
  ∀ (s : State) (d a b sem : Fin 64) (g : Gear) (src : Fin 4) (x : XE) (long : Bool),
    let r := s.strand
    let va := (s.rs a).toNat
    let vb := (s.rs b).toNat
    let code : Gear → W64 := fun g => match g with | .n => 0 | .f => 1
    let busy := s.core.trans.isSome = true ∨ ∃ m ∈ s.dev.fab.net, m.kind = 4 ∧ m.src = s.cur
    let n : Fin 4 := Fin.ofNat 4 va
    let z := s.bank.strands[n]
    let used := z.named = true ∨ ∃ k, s.bank.task = some k ∧ k.started.getLsbD n.val = true
    let xsig : Instr := if long then .xsigL sem a x else .xsig sem a
    let xe := if long then x else noX
    let len := if long then 2 else 1
    let pkg := BitVec.ofNat 8 va
    (busy → Waits s (.gear d g) .other)
    ∧ (¬ busy → g = s.core.gear → Puts s (.gear d g) 1 d (code g))
    ∧ (¬ busy → g ≠ s.core.gear → ∃ t, exec (.gear d g) s = .next t ∧ Retired (s.modCore fun k => { k with
        trans := some (g, .gear), restart := BitVec.ofNat 64 ((s.dev.fabricCycles.toNat + 4) / 4 * 4 + 256) }) t 1 (withS d (code s.core.gear)))
    ∧ Puts s (.time d src) 1 d (match src with
        | 0 => s.dev.dclk + BitVec.ofNat 64 ((s.dev.wraps * 2 ^ 64 + s.dev.fabricCycles.toNat) * 10 / 19)
        | 1 => s.core.cycles
        | 2 => s.dev.fabricCycles
        | _ => match s.bank.task with | some k => k.mts | none => 0)
    ∧ (2 ^ 4 ≤ va ∨ va / 4 % 4 = 3 ∨ used → exec (.strstart a b) s = .next (s.takeTrap 0x0D va))
    ∧ (va < 2 ^ 4 → va / 4 % 4 ≠ 3 → ¬ used → vb % 4 ≠ 0 → exec (.strstart a b) s = .next (s.takeTrap 0x03 vb))
    ∧ (va < 2 ^ 4 → va / 4 % 4 ≠ 3 → ¬ used → vb % 4 = 0 → z.smode = false → ∀ k, s.bank.task = some k →
        Leaves s (.strstart a b) fun y =>
          let l := y.strands.set n { Strand.clear with
            pc := s.rs b, role := (if va / 4 % 4 = 0 then .l else if va / 4 % 4 = 1 then .c else .e), run := true
            stopped := s.bank.trap.handler && (s.bank.trap.tcause.getLsbD 10 || s.bank.trap.held.isSome)
            arr := z.arr, barsel := z.barsel, ringsel := z.ringsel }
          { y with task := some { k with started := k.started ||| BitVec.ofNat 4 (2 ^ n.val) }, strands := l.set s.curS (l[s.curS].retire 1) })
    ∧ (va < 2 ^ 4 → va / 4 % 4 ≠ 3 → ¬ used → vb % 4 = 0 → z.smode = true → ∃ t, exec (.strstart a b) s = .next t ∧ OnlyBank s t
        ∧ t.bank.trap = { s.bank.trap with pc0 := s.rs b, run0 := true, ended0 := false })
    ∧ (2 ^ 2 ≤ va ∨ z.ended = true ∨ ¬ used ∨ z.smode = true → exec (.strstop a) s = .next (s.takeTrap 0x0D va))
    ∧ (va < 2 ^ 2 → z.ended = false → used → z.smode = false → (∀ w ∈ s.bank.waiters, ∀ m c k, w ≠ .strand n m c k) → Leaves s (.strstop a) fun y => { y with
        queues := y.queues.map fun q => { q with flush := false }
        strands := Vector.ofFn fun m =>
          let o := if m = s.curS then r.retire 1 else y.strands[m]
          let o := if m = n ∧ m = s.curS then o else { o with latch := o.latch ||| 32 }
          if m = n then { o with run := false, stopped := false, ended := true, wait := .none } else o })
    ∧ (r.latch = 0 → Waits s (.wfe d) .wfe)
    ∧ (r.latch ≠ 0 → Does s (.wfe d) 1 fun y => withS d (BitVec.ofNat 64 r.latch.toNat) { y with latch := 0 })
    ∧ (r.smode = false → exec (.tlbinv a) s = .next (s.takeTrap 0x06 0))
    ∧ (r.smode = true → exec (.tlbinv a) s = .next ((s.modCore fun k => { k with
        pbc := []
        icache := k.icache.filter fun l => l.ctx != s.bank.ctx
        tlb := k.tlb.filter fun e => !(e.ctx == s.bank.ctx && (a == 0 || (decide (e.vbase ≤ va) && decide (va < e.vbase + e.size)))) }).retire 1))
    ∧ (∀ p, s.core.part = some p → Puts s (.ctxid d) 1 d (BitVec.ofNat 64 (s.bank.ctx.toNat + 2 ^ 12 * p.val)))
    ∧ (s.fenceHold = true ∨ (xe.td ≠ 0 ∧ r.t[xe.td].st = .pending) → Waits s xsig .other)
    ∧ (Issues s xe → ∀ t ∈ [xe.ta, xe.tb, xe.tc], t ≠ 0 → r.t[t].st = .pending → ∃ k, Waits s xsig (.token k))
    ∧ (Issues s xe → Acquired s xe → 2 ^ 16 ≤ va → exec xsig s = .next (s.takeTrap 0x0D va))
    ∧ (Issues s xe → WaitsFor s xe [] → faulty s xe = true → va < 2 ^ 16 → ∃ t, exec xsig s = .next t ∧ OnlyBank s t
        ∧ (xe.td ≠ 0 → t.strand.t[xe.td] = ⟨.faulted, 0x0A⟩) ∧ t.bank.sigs = s.bank.sigs)
    ∧ (Issues s xe → Acquired s xe → va < 2 ^ 16 → StoresDone s → peerOf s pkg = none ∨ s.reaches pkg = false → ∃ t, exec xsig s = .next t ∧ OnlyBank s t
        ∧ (xe.td ≠ 0 → t.strand.t[xe.td] = ⟨.faulted, 0x06⟩) ∧ t.bank.sigs = s.bank.sigs)
    ∧ (Issues s xe → Acquired s xe → va < 2 ^ 16 → StoresDone s → ∀ c, peerOf s pkg = some c → s.reaches pkg = true →
        exec xsig s = .next { s.modBank (fun y => { y with
            strands := y.strands.set s.curS ((issued xe r).retire len), task := y.task.map fun k => { k with escaped := true }
            sigs := y.sigs ++ [⟨s.dev.fab.nextMsg, s.curS, xe.td, s.bank.taskId⟩] }) with
          dev := { s.dev with
            fab := { s.dev.fab with nextMsg := s.dev.fab.nextMsg + 1 }
            zikin := { s.dev.zikin with out := s.dev.zikin.out ++ [⟨s.dev.fab.nextMsg, pkg, 0, .incr c (Fin.ofNat 256 (va / 2 ^ 8)) sem (max 1 xe.imm.toNat)⟩] } } })

/-! ## Messages, the mesh and the memory side -/
namespace Sys2Proof.Machine
/-- From memory in its canonical form, the bytes d are stored at k and no other byte of memory changes; a line of a retired pseudo-channel discards them (R520). -/
def Wrote (s t : State) (k : Nat) (d : List Byte) : Prop :=
  s.mem.wf = true → t.mem.wf = true ∧ (∀ j, (j < k ∨ k + d.length ≤ j) → t.rd j = s.rd j)
    ∧ ((∀ j < d.length, s.deadLine (k + j) = false) → ∀ j < d.length, some (t.rd (k + j)) = d[j]?)
/-- The contexts without the marks of anchor areas that were written (R381). -/
def unmarked (cs : List Ctx) : List Ctx :=
  cs.map fun c => { c with chac := c.chac.map fun e => { e with taint := false } }
/-- Nothing changes but memory, the messages in the fabric, the marks of anchor areas, and what further clauses name. -/
structure OnlyNet (s t : State) : Prop where
  ctxs  : unmarked t.ctxs = unmarked s.ctxs
  parts : t.parts = s.parts
  cores : t.cores = s.cores
  dev   : t.dev = { s.dev with fab := { s.dev.fab with net := t.dev.fab.net, nextMsg := t.dev.fab.nextMsg } }
  place : t.cur = s.cur ∧ t.curS = s.curS ∧ t.agenda = s.agenda ∧ t.turn = s.turn ∧ t.freeCtr = s.freeCtr
/-- The messages when m is performed, which frees its tracker at the receiver (R328), and those given follow. -/
def performedThen (s : State) (m : Msg) (more : List Msg) : List Msg :=
  (s.dev.fab.net.map fun x => if x.id = m.id then { x with st := .performed, qtrk := none } else x) ++ more
/-- The A-plane message of a kind that answers m, under the tracker of m. -/
def Answers (m r : Msg) (kind : Nat) (data : List Byte) : Prop :=
  r.kind = BitVec.ofNat 5 kind ∧ r.src = m.dst ∧ r.dst = m.src ∧ r.ref = m.id ∧ r.data = data ∧ r.err = false ∧ r.st = .queued ∧ r.tag = m.tag
/-- m is performed and answered. -/
def Answered (s t : State) (m : Msg) (kind : Nat) (data : List Byte) : Prop :=
  OnlyNet s t ∧ t.dev.fab.nextMsg = s.dev.fab.nextMsg + 1 ∧ ∃ r, t.dev.fab.net = performedThen s m [r] ∧ Answers m r kind data
/-- A core holds the state of a context, or the context is installed, so that what arrives for it has a place (R344). -/
def Held.by (s : State) (id : BitVec 12) (c : Fin 256) : Prop :=
  ((s.cores[c]).bank.loaded = true ∧ (s.cores[c]).bank.ctx = id) ∨ ∃ x ∈ s.ctxs, x.id = id
/-- A message has arrived: all its flits are ejected and none waits in the intake (R321, R328), or it goes to its own site and never
enters the fabric (R316); and no earlier write of its core holds it (R322). A message that only carries an access that has been performed
(log 11) arrives nowhere. -/
def HasArrived (s : State) (m : Msg) : Prop :=
  m.echo = false ∧ ((m.st = .delivered ∧ ∀ f ∈ s.dev.fab.intake, f.msg ≠ m.id) ∨ (m.st = .queued ∧ m.src = m.dst)) ∧ s.writeHeld m = false
/-- The message of an id that has arrived. -/
def Arrives (s : State) (id : Nat) (m : Msg) : Prop := s.dev.fab.net.find? (fun m => m.id == id) = some m ∧ HasArrived s m
/-- The events that apply a message, with the KIND that each is for (R318). -/
noncomputable def messageEvents (id : Nat) : List (Instr × Nat) :=
  [(.readRequest id, 0), (.write id, 1), (.atomicOrOrderedAccess id, 2), (.semaphoreIncrement id, 3), (.barrierArrival id, 4), (.ringPush id, 5),
    (.controlSpaceAccess id, 6), (.readAnswer id, 16), (.writeAcknowledgement id, 17), (.atomicAnswer id, 18), (.barrierRelease id, 19)]
/-- No release of a strand that m is waits for an earlier store of its core (R184, R187, R347). -/
def NotHeldBack (s : State) (m : Msg) : Prop :=
  m.rel = true → m.strand.isSome = true → ∀ e ∈ s.dev.fab.net, e.isStore = true → e.src = m.src → e.id < m.id → e.st = .performed
end Sys2Proof.Machine

/-- A message is applied only where it has arrived and only by the event of its KIND; one of an unassigned KIND is dropped and
counted (R318, R321, R322). READ_REQUEST, WRITE, ATOMIC_OR_ORDERED_ACCESS and CONTROL_SPACE_ACCESS do the access at its home and
answer it (R170, R316, R322, R510). -/
def Clauses.MessagesAtHome : Prop :=
  ∀ (s : State) (id : Nat) (m : Msg),
    ((∀ x ∈ s.dev.fab.net, x.id ≠ id) → ∀ e ∈ messageEvents id, exec e.1 s = .next s)
    ∧ (s.dev.fab.net.find? (fun m => m.id == id) = some m → ¬ HasArrived s m →
        ∀ e ∈ messageEvents id, exec e.1 s = .next s)
    ∧ (Arrives s id m → (7 ≤ m.kind.toNat ∧ m.kind.toNat ≤ 15) ∨ 20 ≤ m.kind.toNat → ∀ e ∈ messageEvents id, ∃ t, exec e.1 s = .next t
        ∧ t.mem = s.mem ∧ t.dev.fab.net = s.dev.fab.net.filter (·.id != id)
        ∧ t.cores[m.dst] = { s.cores[m.dst] with perr := if (s.cores[m.dst]).perr = 0xFFFF then 0xFFFF else (s.cores[m.dst]).perr + 1 })
    ∧ (Arrives s id m → m.kind.toNat ≤ 6 ∨ (16 ≤ m.kind.toNat ∧ m.kind.toNat ≤ 19) → ∀ e ∈ messageEvents id, m.kind.toNat ≠ e.2 → exec e.1 s = .next s)
    ∧ (Arrives s id m → ¬ NotHeldBack s m → m.kind.toNat ≤ 6 → ∀ e ∈ messageEvents id, exec e.1 s = .next s)
    ∧ (Arrives s id m → NotHeldBack s m →
      (m.kind = 0 → ∃ t, exec (.readRequest id) s = .next t ∧ t.mem = s.mem ∧ ∃ d, d.length = m.count ∧ (∀ j < m.count, d[j]? = some (s.rd (m.addr + j)))
          ∧ Answered s t m 16 d ∧ ∀ r, t.dev.fab.net.getLast? = some r → ∀ k, k ∈ r.pois ↔ ∃ j < m.count, j / 32 = k ∧ s.pois (m.addr + j) = true)
      ∧ (m.kind = 1 → ∃ t, exec (.write id) s = .next t ∧ Wrote s t m.addr m.data ∧ Answered s t m 17 []
          ∧ ∀ j < m.data.length, j / 32 ∈ m.pois → t.pois (m.addr + j) = true)
      ∧ (m.kind = 2 → atomOf m.count = none → ∃ t, exec (.atomicOrOrderedAccess id) s = .next t ∧ Wrote s t m.addr m.data ∧ Answered s t m 17 [])
      ∧ (m.kind = 2 → ∀ op, atomOf m.count = some op →
          let n := if op = .cas then m.data.length / 2 else m.data.length
          let old := s.rdN m.addr n
          ∃ t, exec (.atomicOrOrderedAccess id) s = .next t ∧ Answered s t m 18 (toLe n old)
            ∧ ∀ r, atomValue op n old (leNat (m.data.take n)) (leNat (m.data.drop n)) = r →
              (r = none → t.mem = s.mem) ∧ ∀ v, r = some v → Wrote s t m.addr (toLe n v))
      ∧ (m.kind = 6 → m.data.length = 8 → partKey 0 0 ≤ m.addr → m.addr < partKey 16 0 →
          let off := (m.addr - partKey 0 0) % 2 ^ 20
          ∃ t, exec (.controlSpaceAccess id) s = .next t ∧ t.cores = s.cores ∧ t.ctxs = s.ctxs
            ∧ (∃ r, t.dev.fab.net = performedThen s m [r] ∧ Answers m r 17 [])
            ∧ ((off < 0x10000 ∨ (0x10200 ≤ off ∧ off < 0x10218) ∨ (0x11000 ≤ off ∧ off < 0x13000) ∨ (0x20000 ≤ off ∧ off < 0x30000)) → Wrote s t m.addr m.data)
            ∧ ((0x10000 ≤ off ∧ off < 0x10200) ∨ (0x10218 ≤ off ∧ off < 0x11000) ∨ (0x13000 ≤ off ∧ off < 0x20000) ∨ 0x30000 ≤ off → t.mem = s.mem)
            ∧ ((∀ p : Fin 16, t.parts[p] = { s.parts[p] with versions := t.parts[p].versions }))))

/-- SEMAPHORE_INCREMENT and BARRIER_ARRIVAL act on the state of the context at the target, loaded or not (R344, R347, R349, R350,
R352); RING_PUSH fills its slot (R229, R298).
Rests on choices of the model: log 15 and 30. -/
def Obligations.MessagesToContexts : Prop :=
  ∀ (s : State) (id : Nat) (m : Msg), Arrives s id m → NotHeldBack s m →
    let k := s.bankOf m.ctx m.dst
    let sem : Fin 64 := Fin.ofNat 64 m.ref
    let cnt := k.sems[sem].toNat + m.count
    let b : Fin 48 := Fin.ofNat 48 m.count
    let x := k.bars[b]
    let rejects := onesOf x.strands + onesOf x.cores = 0 ∨ x.cores.getLsbD m.src.val = false ∨ x.arrCores.getLsbD m.src.val = true
    let y : Bar := { x with arrCores := x.arrCores ||| BitVec.ofNat 256 (2 ^ m.src.val) }
    let full := onesOf x.strands + onesOf x.cores ≤ onesOf y.arrStr + onesOf y.arrCores
    (m.kind = 3 → Held.by s m.ctx m.dst → (∀ w ∈ k.waiters, w.sem ≠ sem) → ∃ t, exec (.semaphoreIncrement id) s = .next t
        ∧ t.mem = s.mem ∧ t.parts = s.parts ∧ t.dev.fab.net = s.dev.fab.net.filter (·.id != id)
        ∧ (∀ c : Fin 256, c ≠ m.dst → t.cores[c] = s.cores[c])
        ∧ t.bankOf m.ctx m.dst = { k with
            sems := k.sems.set sem (BitVec.ofNat 32 (min cnt (2 ^ 32 - 1)))
            semov := if 2 ^ 32 ≤ cnt then k.semov ||| BitVec.ofNat 64 (2 ^ sem.val) else k.semov
            strands := if min cnt (2 ^ 32 - 1) = k.sems[sem].toNat then k.strands else k.strands.map fun r => { r with latch := r.latch ||| 2 } })
    ∧ (m.kind = 4 → Held.by s m.ctx m.dst → rejects → ∃ t r1 r2, exec (.barrierArrival id) s = .next t ∧ t.mem = s.mem
        ∧ t.dev.fab.net = performedThen s m [r1, r2] ∧ Answers m r1 17 []
        ∧ r2.kind = 19 ∧ r2.src = m.dst ∧ r2.dst = m.src ∧ r2.ctx = m.ctx ∧ r2.count = m.count ∧ r2.ref = m.ref ∧ r2.err = true
        ∧ t.bankOf m.ctx m.dst = { k with barerr := k.barerr ||| BitVec.ofNat 48 (2 ^ b.val) })
    ∧ (m.kind = 4 → Held.by s m.ctx m.dst → ¬ rejects → ∃ t r1 rest, exec (.barrierArrival id) s = .next t ∧ t.mem = s.mem
        ∧ t.dev.fab.net = performedThen s m (r1 :: rest) ∧ Answers m r1 17 []
        ∧ (¬ full → rest = [] ∧ t.bankOf m.ctx m.dst = { k with bars := k.bars.set b y })
        ∧ (full → rest.map (·.dst) = (List.finRange 256).filter (fun c => x.cores.getLsbD c.val)
            ∧ (∀ r ∈ rest, r.kind = 19 ∧ r.src = m.dst ∧ r.ctx = m.ctx ∧ r.count = b.val ∧ r.err = false)
            ∧ t.bankOf m.ctx m.dst = { k with
                bars := k.bars.set b ⟨x.cores, x.strands, x.phase + 1, 0, 0⟩
                due := if x.strands = 0 then k.due else k.due ++ [⟨m.dst, b, none⟩] }))
    ∧ (m.kind = 5 → m.ref < 256 → (∃ c ∈ s.ctxs, c.id = m.ctx) → ∃ t, exec (.ringPush id) s = .next t ∧ Wrote s t m.addr (m.data.take 512)
        ∧ t.parts = s.parts ∧ (∃ r, t.dev.fab.net = performedThen s m [r] ∧ Answers m r 17 [])
        ∧ ((t.ctxOf m.ctx).ringOf m.ref).slots = ((s.ctxOf m.ctx).ringOf m.ref).slots.map fun z =>
            if z.ix = m.count then { z with filled := true, ts := BitVec.ofNat 64 (leNat (m.data.drop 512)) } else z)

/-- The A plane: READ_ANSWER, WRITE_ACKNOWLEDGEMENT, ATOMIC_ANSWER and BARRIER_RELEASE (R318, R322, R349). -/
def Clauses.MessagesBack : Prop :=
  ∀ (s : State) (id : Nat) (m : Msg), Arrives s id m → NotHeldBack s m →
    let gone := fun (x : Msg) => x.id != id && x.id != m.ref
    (∀ e ∈ [(Instr.writeAcknowledgement id, 17), (.atomicAnswer id, 18)], m.kind.toNat = e.2 → exec e.1 s =
        .next { s with dev := { s.dev with fab := { s.dev.fab with net := s.dev.fab.net.filter gone } } })
    ∧ (m.kind = 16 → ∀ q, s.dev.fab.net.find? (fun x => x.id == m.ref) = some q → ∃ t, exec (.readAnswer id) s = .next t ∧ OnlyNet s t
        ∧ t.dev.fab.net = s.dev.fab.net.filter gone ∧ Wrote s t (vaultKey m.dst.val (q.ref % 2 ^ 24)) m.data
        ∧ (∀ j < m.data.length, j / 32 ∈ m.pois → t.pois (vaultKey m.dst.val (q.ref % 2 ^ 24) + j) = true))
    ∧ (m.kind = 16 → (∀ x ∈ s.dev.fab.net, x.id ≠ m.ref) → exec (.readAnswer id) s =
        .next { s with dev := { s.dev with fab := { s.dev.fab with net := s.dev.fab.net.filter (·.id != id) } } })
    ∧ (m.kind = 19 → Held.by s m.ctx m.dst → ∃ t, exec (.barrierRelease id) s = .next t ∧ t.mem = s.mem ∧ t.parts = s.parts
        ∧ t.dev.fab.net = s.dev.fab.net.filter (·.id != id) ∧ (∀ c : Fin 256, c ≠ m.dst → t.cores[c] = s.cores[c])
        ∧ t.bankOf m.ctx m.dst = { s.bankOf m.ctx m.dst with
            due := (s.bankOf m.ctx m.dst).due ++ [⟨m.src, Fin.ofNat 48 m.count, if m.err then some (Fin.ofNat 4 m.ref) else none⟩] })

/-- Q-plane accesses act at their home and are answered; A-plane answers settle what waits for them. Rests on choices of the model: log 10, 11 and 15. -/
def Obligations.MessagesAnswered : Prop := Clauses.MessagesAtHome ∧ Clauses.MessagesBack

/-- RECORD_RELEASE, BARRIER_DROP, BARRIER_RETURN and GEAR_TRANSITION_COMPLETE (R349, R354, R451, R482 to R485). -/
def Clauses.BarrierAndGearEvents : Prop :=
  ∀ (s : State) (c : Fin 256),
    let k := s.cores[c]
    let b := k.bank
    let code : Gear → Nat := fun g => match g with | .n => 0 | .f => 1
    let inBar := fun (r : Strand) => ∃ h n, r.wait = .bar h n
    let mayDrop := b.bgear.getLsbD 0 = true ∧ k.gear = .f ∧ k.dropped = false ∧ k.trans = none ∧ (∃ n : Fin 4, b.strands[n].run = true)
      ∧ (∀ n : Fin 4, b.strands[n].run = true → inBar b.strands[n]) ∧ fieldAt b.bgear 31 16 / 2 ^ 16 ≤ k.barCycles
    let dueNow := ∃ n : Fin 4, let r := b.strands[n].arr
      b.strands[n].run = true ∧ r.valid = true ∧ (r.released = true ∨ ∃ d ∈ b.due, d.home = r.home ∧ d.bar = r.bar)
    let stands := k.trans.isSome = true ∨ s.dev.power.thermalStop = true
    let from_ : W64 := BitVec.ofNat 64 ((s.dev.fabricCycles.toNat + (if k.cycled = some s.dev.fabricCycles then 1 else 0) + 3) / 4 * 4 + 256)
    let only := fun (t : State) (f : Core → Core) => t = { s with cores := s.cores.set c (f k) }
    (stands ∨ (k.dropped = true ∧ dueNow) ∨ b.due = [] → exec (.recordRelease c) s = .next s)
    ∧ (¬ stands → ¬ (k.dropped = true ∧ dueNow) → ∀ d rest, b.due = d :: rest → ∃ t, exec (.recordRelease c) s = .next t
        ∧ only t (fun k => { k with bank := { b with due := rest, strands := t.cores[c].bank.strands } })
        ∧ ∀ n : Fin 4, let r := b.strands[n]
            let mine := r.arr.valid = true ∧ r.arr.released = false ∧ r.arr.home = d.home ∧ r.arr.bar = d.bar ∧ (d.err = none ∨ d.err = some n)
            (mine → t.cores[c].bank.strands[n] = { r with arr := { r.arr with released := true, error := d.err.isSome }, latch := r.latch ||| 4 })
            ∧ (¬ mine → t.cores[c].bank.strands[n] = r))
    ∧ (mayDrop → exec (.barrierDrop c) s = .next { s with cores := s.cores.set c { k with trans := some (.n, .drop), restart := from_ } })
    ∧ (¬ mayDrop → exec (.barrierDrop c) s = .next s)
    ∧ (k.dropped = true → k.trans = none → dueNow → exec (.barrierReturn c) s = .next { s with cores := s.cores.set c { k with trans := some (.f, .ret), restart := from_ } })
    ∧ (¬ (k.dropped = true ∧ k.trans = none ∧ dueNow) → exec (.barrierReturn c) s = .next s)
    ∧ (k.trans = none → exec (.gearTransitionComplete c) s = .next s)
    ∧ (s.dev.fabricCycles < k.restart → exec (.gearTransitionComplete c) s = .next s)
    ∧ (∀ g why, k.trans = some (g, why) → k.restart ≤ s.dev.fabricCycles → ∃ t, exec (.gearTransitionComplete c) s = .next t ∧ t.mem = s.mem ∧ t.dev = s.dev ∧ t.parts = s.parts
        ∧ (∀ j : Fin 256, j ≠ c → t.cores[j] = s.cores[j])
        ∧ t.cores[c] = { k with
            bank := t.cores[c].bank, gear := g, gearCount := k.gearCount + 1, trans := none, barCycles := 0
            dropped := decide (why = .drop) }
        ∧ t.cores[c].bank.gear = (if why = .drop ∨ why = .ret then b.gear else g)
        ∧ (let u : State := { s with cur := c }
          let told := (why = .gear ∨ why = .gapply) ∧ (∃ x, b.task = some x ∧ x.ending = none) ∧ u.ctx.evmask.getLsbD 2 = true ∧ u.ctx.tvec.getLsbD 0 = true
          (¬ told → t.cores[c].bank = { b with gear := t.cores[c].bank.gear })
          ∧ (told → (∀ n : Fin 4, t.cores[c].bank.strands[n] = { b.strands[n] with latch := b.strands[n].latch ||| 16 })
            ∧ (
              (b.trap.handler = false → b.trap.entry = none → t.cores[c].bank.trap = { b.trap with
                  entry := some ⟨0x22, BitVec.ofNat 64 (code g + 2 * code k.gear), 0, b.strands[0].pc, false⟩ })
              ∧ (b.trap.handler = true ∨ b.trap.entry.isSome = true → t.cores[c].bank.evpend = b.evpend ||| 4
                  ∧ t.cores[c].bank.evinfo = b.evinfo.set 2 (BitVec.ofNat 64 (code g + 2 * code k.gear)))))))

/-- Handler entry, notices, OVERRUN, DISCARD, barrier records, and gear transitions. Rests on choices of the model: log 2, 16, 17 and 33. -/
def Obligations.TrapAndGearEvents : Prop := Clauses.TrapEvents ∧ Clauses.BarrierAndGearEvents

namespace Sys2Proof.Machine
/-- The flits that the sites of a die hold room for on a plane: those of messages admitted and not yet performed (R325). -/
def farFlits (s : State) (a die : Bool) : Nat :=
  ((s.dev.fab.net.filter fun m => (m.st == .admitted || m.st == .delivered) && decide (16 ≤ m.kind.toNat) == a && dieOf (s.siteOf m.src) == die).map Msg.flits).sum
/-- The way of the only flit of a router: the first live port in the order E, W, N, S that brings it nearer, else the first live
port (R320). `next` is the site beyond it. -/
def Hops (s : State) (plane : Plane) (site dst next : Fin 272) : Prop :=
  let live := fun (p : Port) => liveTo s.dev.fab.dead plane site p
  let near := fun (n : Fin 272) => hops s.dev.fab.table plane n dst < hops s.dev.fab.table plane site dst
  ∃ p, live p = some next ∧ (near next ∨ ∀ q n, live q = some n → ¬ near n)
    ∧ ∀ q ∈ [Port.e, .w, .n, .s].takeWhile (· != p), ∀ n, live q = some n → near next ∧ ¬ near n
end Sys2Proof.Machine

/-- ARBITRATE, ADMISSION and INJECTION_RELIEF (R316 to R321, R325 to R328, R331). A plane has one arbitration cycle in a fabric cycle; it
changes no byte of memory and no flit of the other plane. A flit that is alone in its plane is ejected at its destination, where the
first of a multi-flit request takes a tracker or waits in the intake, or it goes one hop on its way; a site that waits 64 cycles asks
for relief. A message is admitted with all its flits when its die has room and, if it is answered, a tracker is free. -/
def Clauses.MeshEvents : Prop :=
  ∀ (s : State) (plane : Plane) (site : Fin 272) (id : Nat),
    let fab := s.dev.fab
    let arb := exec (.arbitrate plane) s
    let lowest := fun (used : Fin 128 → Prop) (n : Fin 128) => ¬ used n ∧ ∀ k < n, used k
    (plane ∈ fab.turned → arb = .next s)
    ∧ (∃ t, arb = .next t ∧ t.mem = s.mem ∧ t.parts = s.parts ∧ t.agenda = s.agenda
        ∧ (t.dev.fab.flits.filter fun f => f.plane != plane) = fab.flits.filter (fun f => f.plane != plane)
        ∧ t.dev.fab.flits.length ≤ fab.flits.length ∧ plane ∈ t.dev.fab.turned
        ∧ ((∀ f ∈ fab.flits, f.plane ≠ plane) → fab.intake = [] → plane ∉ fab.turned →
            t = { s with dev := { s.dev with fab := { fab with turned := plane :: fab.turned } } }))
    ∧ (plane ∉ fab.turned → fab.intake = [] → ∀ f, fab.flits = [f] → f.plane = plane →
      (f.placed = true → f.hdr.toNat % 2 ^ 9 < 272 → let dst := hdrDst f.hdr
        (f.at_ = dst → ∃ t, arb = .next t ∧ t.mem = s.mem ∧ t.dev.fab.flits = []
          ∧ (let there := fun (m : Msg) => if m.st = .admitted then { m with st := .delivered } else m
            let sent := fun (g : Msg → Msg) => fab.net.map fun m => if m.id = f.msg then g m else m
            (kindKnown (hdrKind f.hdr) = false → t.dev.fab.net = fab.net.filter fun m => m.id != f.msg)
            ∧ (kindKnown (hdrKind f.hdr) = true → ∀ m, fab.net.find? (fun m => m.id == f.msg) = some m →
              let used := fun (n : Fin 128) => ∃ x ∈ fab.net, x.dst = m.dst ∧ x.qtrk = some n
              let asks := m.kind.toNat < 16 ∧ 2 ≤ m.flits ∧ m.qtrk = none
              (¬ asks → t.dev.fab.net = sent there ∧ t.dev.fab.intake = [])
              ∧ (∀ n, asks → lowest used n → t.dev.fab.net = sent (fun m => there { m with qtrk := some n }) ∧ t.dev.fab.intake = [])
              ∧ (asks → (∀ n, used n) → t.dev.fab.net = sent there ∧ t.dev.fab.intake = [f]))))
        ∧ (f.at_ ≠ dst → ∀ n, Hops s plane f.at_ dst n → ∃ t, arb = .next t ∧ t.mem = s.mem
          ∧ t.dev.fab.flits = [{ f with at_ := n }] ∧ t.dev.fab.net = fab.net
          ∧ t.dev.fab.replays = fab.replays.filter fun r => !(r.1 == plane && r.2.1 == f.at_ && neighbour f.at_ r.2.2.1 == some n)))
      ∧ (f.placed = false →
        let relief := fab.relief.find? fun r => r.1 == plane
        (s.injects f.at_ = false → ∃ t, arb = .next t ∧ t.dev.fab.flits = [f] ∧ t.dev.fab.relief = fab.relief)
        ∧ (∀ r, s.injects f.at_ = true → relief = some r → r.2 ≠ f.at_ → ∃ t, arb = .next t ∧ t.mem = s.mem
          ∧ t.dev.fab.flits = [{ f with waitC := f.waitC + 1 }]
          ∧ t.dev.fab.relief = if 64 ≤ f.waitC + 1 ∧ (plane, f.at_) ∉ fab.relief then fab.relief ++ [(plane, f.at_)] else fab.relief)
        ∧ (s.injects f.at_ = true → (∀ r, relief = some r → r.2 = f.at_) → ∀ n, Hops s plane f.at_ (hdrDst f.hdr) n → ∃ t g, arb = .next t
          ∧ t.mem = s.mem ∧ t.dev.fab.flits = [g] ∧ g.at_ = n ∧ g.placed = true ∧ g.msg = f.msg ∧ g.pay = f.pay
          ∧ t.dev.fab.relief = fab.relief.filter (· ≠ (plane, f.at_))
          ∧ hdrStamp g.hdr = s.dev.fabricCycles.toNat % 2 ^ 24 ∧ hdrDst g.hdr = hdrDst f.hdr ∧ hdrSrc g.hdr = hdrSrc f.hdr ∧ hdrKind g.hdr = hdrKind f.hdr)))
    ∧ ((∀ m ∈ fab.net, m.id ≠ id) → exec (.admission id) s = .next s)
    ∧ (∀ m, fab.net.find? (fun m => m.id == id) = some m →
        let a := decide (16 ≤ m.kind.toNat)
        let room := farFlits s a (dieOf (s.siteOf m.src)) + m.flits ≤ 2048
        let answered := m.kind.toNat < 16 ∧ m.kind ≠ 3
        let used := fun (n : Fin 128) => ∃ x ∈ fab.net, x.kind.toNat < 16 ∧ x.src = m.src ∧ x.tag = some n
        let ok := m.st = .queued ∧ m.src ≠ m.dst ∧ room ∧ s.writeHeld m = false
        (¬ ok ∨ (answered ∧ ∀ n, used n) → exec (.admission id) s = .next s)
        ∧ (ok → ∀ tag : Option (Fin 128), (answered → ∃ n, tag = some n ∧ lowest used n) → (¬ answered → tag = m.tag) →
          ∃ fs, exec (.admission id) s = .next { s with dev := { s.dev with fab := { fab with
              net := fab.net.map fun x => if x.id = id then { m with st := .admitted, tag := tag } else x, flits := fab.flits ++ fs } } }
            ∧ fs.length = m.flits ∧ ∀ j (h : j < fs.length), let f := fs[j]
              f.plane = (if a then Plane.a else .q) ∧ f.at_ = s.siteOf m.src ∧ f.msg = m.id ∧ f.placed = false ∧ f.waitC = 0
              ∧ f.pay = BitVec.ofNat 512 (leNat ((m.data.drop (64 * j)).take 64))
              ∧ f.hdr = BitVec.ofNat 128 ((s.siteOf m.dst).val + (s.siteOf m.src).val * 2 ^ 9 + (match tag with | some n => n.val | none => 0) * 2 ^ 42
                  + j * 2 ^ 49 + (m.flits - 1) * 2 ^ 53 + m.kind.toNat * 2 ^ 57
                  + ((if 2 * j ∈ m.pois then 1 else 0) + (if 2 * j + 1 ∈ m.pois then 2 else 0)) * 2 ^ 67
                  + m.ctx.toNat * 2 ^ 69 + (addrOf m.addr + 64 * j) % 2 ^ 40 * 2 ^ 81 + m.rh.toNat * 2 ^ 121
                  + (if m.kind = 0 ∨ m.form.1 = 0 then 0 else m.form.1 % 2 ^ 3 * 2 ^ 62 + (m.form.2 - 1) % 2 ^ 2 * 2 ^ 65))))
    ∧ (let waits := ∃ f ∈ fab.flits, f.plane = plane ∧ f.at_ = site ∧ f.placed = false ∧ 64 ≤ f.waitC;
        (waits → (plane, site) ∉ fab.relief → exec (.injectionRelief plane site) s =
            .next { s with dev := { s.dev with fab := { fab with relief := fab.relief ++ [(plane, site)] } } })
        ∧ (¬ waits ∨ (plane, site) ∈ fab.relief → exec (.injectionRelief plane site) s = .next s))

/-- LINK_REPLAY, LINK_DEAD and DISTANCE_TABLE_LOAD (R323, R331, R340). Each replay counts one error against its link (R518); with the T-th
within W seconds the link is dead on both planes (R519). -/
def Clauses.LinkEvents : Prop :=
  ∀ (s : State) (plane : Plane) (site : Fin 272) (port : Port),
    let fab := s.dev.fab
    let is := fun (r : Plane × Fin 272 × Port × Nat) => r.1 == plane && r.2.1 == site && r.2.2.1 == port
    let far : Port → Port := fun p => match p with | .e => .w | .w => .e | .n => .s | .s => .n
    let failed := ∃ r ∈ fab.replays, is r = true ∧ 16 ≤ r.2.2.2
    let unit := ErrUnit.link site port
    let old := s.dev.errors.find? fun e => e.u == unit
    let rule := (s.dev.errT[4], s.dev.errW[4])
    let now := s.dclk.toNat
    let times := (now :: (match old with | some e => e.times | none => [])).take rule.1
    let lasts := rule.1 ≤ times.length ∧ now - times.getLastD now ≤ rule.2 * 10 ^ 9
    let logged := fun (e : ErrLog) => e :: s.dev.errors.filter fun e => e.u != unit
    let counted := { fab with
      replays := (plane, site, port, (match fab.replays.find? is with | some r => r.2.2.2 | none => 0) + 1) :: fab.replays.filter fun r => !is r }
    (¬ lasts → exec (.linkReplay plane site port) s = .next { s with dev := { s.dev with
        fab := counted, errors := logged ⟨unit, times, match old with | some e => e.spared | none => false⟩ } })
    ∧ (lasts → ∃ t, exec (.linkReplay plane site port) s = .next t ∧ t.dev.errors = logged ⟨unit, [], true⟩ ∧ t.dev.fab.replays = counted.replays
        ∧ t.cores = s.cores ∧ t.ctxs = s.ctxs
        ∧ ∀ p n, liveTo fab.dead p site port = some n → (p, site, port) ∈ t.dev.fab.dead ∧ (p, n, far port) ∈ t.dev.fab.dead)
    ∧ (¬ failed ∨ liveTo fab.dead plane site port = none → exec (.linkDead plane site port) s = .next s)
    ∧ (failed → ∀ n, liveTo fab.dead plane site port = some n →
        let dead := (plane, site, port) :: (plane, n, far port) :: fab.dead
        let u : State := { s with dev := { s.dev with fab := { fab with dead := dead } } }
        let reach := fun (c : Fin 256) => (bfs dead plane site)[s.siteOf c] < 1000
        (connected dead plane = true → exec (.linkDead plane site port) s = .next u)
        ∧ (connected dead plane = false → ∃ t, exec (.linkDead plane site port) s = .next t ∧ t.dev.fab = u.dev.fab ∧ t.cores = s.cores ∧ t.ctxs = s.ctxs
            ∧ ∀ p : Fin 16, let cut := (∃ c : Fin 256, s.cores[c].part = some p ∧ reach c) ∧ ∃ c : Fin 256, s.cores[c].part = some p ∧ ¬ reach c
              (cut → t.parts[p] = { s.parts[p] with stopped := true }) ∧ (¬ cut → t.parts[p] = s.parts[p])))
    ∧ (∃ t, exec .distanceTableLoad s = .next t ∧ t = { s with dev := { s.dev with fab := { fab with table := fab.dead, netcfg := t.dev.fab.netcfg } } }
        ∧ (fab.dead = [] → t.dev.fab.netcfg = 0xCC5C3EC00028))

/-- Arbitration, admission, relief, replays, dead links and distance tables. Rests on choices of the model: log 11, 15, 37 and 43. -/
def Obligations.MeshAndLinkEvents : Prop := Clauses.MeshEvents ∧ Clauses.LinkEvents

/-- HBM_FILL and TABLE_WALK change no value that a program reads (R149, R150, R152, R335): a line comes into its set of the slice under
a hint, in which bypass allocates a versioned line alone, as short-lived; a walk brings the lines of its entries in as long-lived, and
its page into the core's TLB. A fill is charged to the context and the core whose message waits for the line, else to the system account
(log 9), a walk to the system account, and the write-back of an evicted line to the context that last dirtied it (R492, R493, R498).
Rests on choices of the model: log 9, 13 and 14. -/
def Obligations.FillAndWalk : Prop :=
  (∀ (s : State) (line : Nat) (hint : BitVec 2),
    let holds := ∃ x ∈ s.dev.slices, x.line = line
    let rh := if hint = 3 ∧ ∃ c ∈ s.ctxs, line ∈ s.versionLines c.id then 1 else hint
    let units := if s.dev.slices.any (fun x => x.line == line) then 2 else 10
    let full := s.sliceWays line ≤ (s.setLines line).length
    let form := ((s.dev.forms.find? fun f => f.1 == line).map (·.2)).filter fun f => f.1 != 7
    let put := fun (l : List SLine) => if rh = 1 then ⟨line, rh, form, none⟩ :: l else l ++ [⟨line, rh, form, none⟩]
    let decoded := fun (l : List (Nat × Nat × Nat)) => l.filter fun f => !(f.1 == line && f.2.1 == 7)
    let asked := s.dev.fab.net.find? fun m => decide (m.kind.toNat ≤ 2 ∧ m.addr / 128 ≤ line ∧ line * 128 < m.addr + max m.count m.data.length)
    let out := (s.setLines line).find? (fun x => x.rh != 2) |>.orElse fun _ => (s.setLines line).head?
    let pay := fun (id : Option (BitVec 12)) (units : Nat) (l : List Ctx) => l.map fun x =>
      if some x.id = id then { x with ectx := x.ectx.set 3 (x.ectx[3] + BitVec.ofNat 64 units) } else x
    let dirtied := fun (by_ : Option (Option (BitVec 12))) => ∃ v, ¬ holds ∧ rh ≠ 3 ∧ full ∧ out = some v ∧ v.by_ = by_
    ∃ t own back drawn, exec (.hbmFill line hint) s = .next t ∧ t.mem = s.mem ∧ t.parts = s.parts
    ∧ t.dev = { s.dev with slices := t.dev.slices, forms := t.dev.forms, power := { s.dev.power with
        sysAcct := s.dev.power.sysAcct + BitVec.ofNat 64 (own + back), sysDraw := s.dev.power.sysDraw + own + back
        ctxDraw := s.dev.power.ctxDraw + drawn } }
    ∧ (asked = none → own = units ∧ t.cores = s.cores)
    ∧ (∀ m, asked = some m → own = 0 ∧ t.cores = s.cores.set m.src { s.cores[m.src] with draw := (s.cores[m.src]).draw + units })
    ∧ (dirtied (some none) → back = 8) ∧ (¬ dirtied (some none) → back = 0)
    ∧ (∀ id, dirtied (some (some id)) → drawn = 8 ∧ t.ctxs = pay (some id) 8 (pay (asked.map (·.ctx)) units s.ctxs))
    ∧ ((∀ id, ¬ dirtied (some (some id))) → drawn = 0 ∧ t.ctxs = pay (asked.map (·.ctx)) units s.ctxs)
    ∧ (holds → t.dev.slices = (s.dev.slices.map fun x => if x.line = line then { x with rh := rh } else x) ∧ t.dev.forms = s.dev.forms)
    ∧ (¬ holds → rh = 3 → t.dev.slices = s.dev.slices ∧ t.dev.forms = s.dev.forms)
    ∧ (¬ holds → rh ≠ 3 → ¬ full → t.dev.forms = decoded s.dev.forms ∧ t.dev.slices = put s.dev.slices)
    ∧ (¬ holds → rh ≠ 3 → full → ∀ v, out = some v →
        let code := bestCode ((List.range 128).map fun j => s.rd (128 * v.line + j))
        t.dev.slices = put (s.dev.slices.erase v)
        ∧ t.dev.forms = decoded ((v.line, code.1, code.2.1) :: s.dev.forms.filter fun f => f.1 != v.line)))
  ∧ ∀ (s : State) (c : Fin 256) (va : W64),
    let u : State := { s with cur := c }
    ∃ t, exec (.tableWalk c va) s = .next t ∧ t.mem = s.mem ∧ unpaid t.ctxs = unpaid s.ctxs ∧ t.parts = s.parts
    ∧ t.dev = { s.dev with slices := t.dev.slices, forms := t.dev.forms, power := { s.dev.power with
        sysAcct := t.dev.power.sysAcct, sysDraw := t.dev.power.sysDraw, ctxDraw := t.dev.power.ctxDraw } }
    ∧ (∀ l, (walkLines u va.toNat walkLevels u.ctx.pgroot.toNat).getLast? = some l → ∃ x ∈ t.dev.slices, x.line = l ∧ x.rh = 2)
    ∧ (∀ e, walkOf u u.ctx .load va.toNat = .error e → t.cores = s.cores)
    ∧ (∀ l, walkOf u u.ctx .load va.toNat = .ok l → t.cores = s.cores.set c { s.cores[c] with
        tlb := ((⟨u.bank.ctx, l.vbase, l.size, l.pbase, l.w, l.x⟩ : TlbEnt) :: (s.cores[c]).tlb.filter fun x => !(x.ctx == u.bank.ctx && x.vbase == l.vbase)).take 256 })

/-- Every coding of a line of 128 bytes that applies gives the line back when it is decoded, from a form of the sectors that its
selector names (R333 to R335). -/
def Obligations.CompressionLosesNothing : Prop :=
  ∀ (l : List Byte), l.length = 128 →
    (∀ sel ns d, codeLine l sel = some (ns, d) → nsAllowed sel ns = true ∧ 1 ≤ ns ∧ ns ≤ 4 ∧ d.length = 32 * ns ∧ decodeLine sel ns d = some l)
    ∧ (let b := bestCode l
       codeLine l b.1 = some (b.2.1, b.2.2) ∧ ∀ sel ns d, codeLine l sel = some (ns, d) → b.2.1 ≤ ns ∧ (b.2.1 = ns → b.1 ≤ sel))

/-! ## Launches, tasks and contexts -/

/-- An event record (R505, R512): a ring with no base takes none, a full ring counts it in LOST, and otherwise its 64 bytes go to the next
slot, WR advances, and vector 0 fires. -/
def Clauses.EventRecords : Prop :=
  ∀ (s : State) (p : Option (Fin 16)) (code : Nat) (core : Option (Fin 256)) (ctx i0 i1 : Nat),
    let regs := match p with | some p => 2 ^ 80 + p.val * 2 ^ 20 + 0x10200 | none => 2 ^ 84 + 0x3000
    let base := s.rdN regs 8
    let n := 2 ^ (s.rdN (regs + 8) 8 % 64)
    let bus := fun (a : Nat) => 2 ^ 64 + a
    let wr := s.rdN (bus base) 8
    let used := (wr + 2 ^ 64 - s.rdN (bus (base + 8)) 8) % 2 ^ 64
    let t := s.event p code core ctx i0 i1
    (base = 0 → t = s)
    ∧ (base ≠ 0 → n ≤ used → Wrote s t (regs + 16) (toLe 8 (min (2 ^ 32 - 1) (s.rdN (regs + 16) 8 + 1))) ∧ t.dev = s.dev)
    ∧ (base ≠ 0 → used < n → t.dev = { s.dev with msix := s.dev.msix ++ [((match p with | some p => Fin.ofNat 17 (p.val + 1) | none => 0), 0)] }
        ∧ t.cores = s.cores ∧ t.ctxs = s.ctxs ∧ t.parts = s.parts
        ∧ ∃ u : State, Wrote s u (bus (base + 64 + 64 * (wr % n)))
            (toLe 2 code ++ [BitVec.ofNat 8 (match p with | some p => p.val | none => 0xFF), 0] ++ toLe 2 (match core with | some c => c.val | none => 0xFFFF)
              ++ toLe 2 ctx ++ toLe 8 i0 ++ toLe 8 i1 ++ toLe 8 s.dclk.toNat ++ List.replicate 32 0)
          ∧ Wrote u t (bus base) (toLe 8 ((wr + 1) % 2 ^ 64)))

/-- SUBMIT, which does nothing until the device runs, LAUNCH_START and CHACONNE_EVALUATE (R359, R365 to R369, R373, R382, R515, R516): a full pool leaves a decided instance ready and waiting.
Which launches count as waiting is the model's choice (log 38), and so is that a value with a nonzero bit in [63:10] is ignored or taken as its slot (log 20).
Rests on choices of the model: log 34 and 38. -/
def Obligations.LaunchEvents : Prop :=
  ∀ (s : State) (p : Fin 16) (v : W64) (j : BitVec 8),
    let x := s.parts[p]
    let slot := v.toNat % 2 ^ 10
    let rec0 : BitVec 512 := BitVec.ofNat 512 (s.rdN (2 ^ 80 + p.val * 2 ^ 20 + 64 * slot) 64)
    let ctx := fld rec0 28 2
    let waits := (s.ctxOf (BitVec.ofNat 12 ctx)).launch.isSome = true ∨ ∃ r ∈ x.waiting, fld r 28 2 = ctx
    let mine := ctx / 256 = p.val ∧ ∃ c ∈ s.ctxs, c.id = BitVec.ofNat 12 ctx
    let id : BitVec 12 := BitVec.ofNat 12 (256 * p.val + j.toNat)
    let c := s.ctxOf id
    let put := fun (t : State) => t.ctxOf id
    let up := s.dev.fethen.boot = .running
    (¬ up → exec (.submit p v) s = .next s)
    ∧ (up → 2 ^ 10 ≤ v.toNat → exec (.submit p v) s = .next s ∨ exec (.submit p v) s = exec (.submit p (BitVec.ofNat 64 slot)) s)
    ∧ (up → v.toNat < 2 ^ 10 → waits → 16 ≤ s.waitCount p → exec (.submit p v) s = .next (s.event (some p) 0x40 none ctx slot 0))
    ∧ (up → v.toNat < 2 ^ 10 → ¬ (waits ∧ 16 ≤ s.waitCount p) → ¬ mine → exec (.submit p v) s = .next (s.event (some p) 0x40 none ctx slot 1))
    ∧ (up → v.toNat < 2 ^ 10 → ¬ (waits ∧ 16 ≤ s.waitCount p) → mine →
        exec (.submit p v) s = .next { s with parts := s.parts.set p { x with waiting := x.waiting ++ [rec0] } })
    ∧ ((∀ r ∈ x.waiting, fld r 28 2 ≠ id.toNat) ∨ c.launch.isSome = true ∨ (∀ y ∈ s.ctxs, y.id ≠ id) → exec (.launchStart p j) s = .next s)
    ∧ (∀ r : BitVec 512, x.waiting.find? (fun r => fld r 28 2 == id.toNat) = some r → c.launch = none → (∃ y ∈ s.ctxs, y.id = id) →
        let u : State := { s with parts := s.parts.set p { x with waiting := x.waiting.erase r } }
        (∀ code, launchCheck (u.lens id) r = some code → ∃ t, exec (.launchStart p j) s = .next t
            ∧ t.parts[p].waiting = x.waiting.erase r ∧ (put t).launch = none ∧ (put t).launches = c.launches + 1 ∧ (put t).chac = [])
        ∧ (launchCheck (u.lens id) r = none → ∀ h : BitVec 512, devWord (u.lens id) (fld r 0 8) 64 = some h.toNat →
            (∃ n < fld h 32 2, ∃ D, graphNode (u.lens id) h n = some D ∧ Node.template D = false) → ∃ t l, exec (.launchStart p j) s = .next t
            ∧ t.parts[p].waiting = x.waiting.erase r ∧ (put t).launches = c.launches + 1 ∧ (put t).launch = some l
            ∧ l.rec_ = r ∧ l.header = h ∧ l.live = [] ∧ l.done = [] ∧ l.stepsDone = 0 ∧ l.failed = none
            ∧ (∀ e ∈ (put t).chac, e.valid = false)
            ∧ (∀ n < fld h 32 2, ∀ D, graphNode (u.lens id) h n = some D → Node.template D = false → fld D 54 1 = 0 →
                ∃ i ∈ l.elig, i.node = BitVec.ofNat 12 n ∧ i.step = 0 ∧ i.inst = 0)
            ∧ ∀ i ∈ l.elig, ∀ D, graphNode (u.lens id) h i.node.toNat = some D → Node.template D = false))
    ∧ (∀ (n i : BitVec 12) (k : BitVec 10), c.launch = none → exec (.chaconneEvaluate p j n k i) s = .next s)
    ∧ (∀ (l : Launch) (e : Inst) (i : BitVec 12), c.launch = some l →
        l.elig.find? (fun y => y.node == e.node && y.step == e.step && y.inst % 2 ^ 12 == i.toNat) = some e →
        let go : Instr := .chaconneEvaluate p j e.node e.step i
        let u := s.lens id
        (s.entryFor id = none → exec go s = .next s)
        ∧ (s.entryFor id ≠ none → e.ready = false → partOfCtx id = p → ∀ (D : Node) (row : Row) (cl : Clause), graphNode u l.header e.node.toNat = some D →
            c.row e.step.toNat = some row → fld D 51 1 ≠ 0 → clauseOf u l.header (fld D 51 1) = some cl → cl.log = false →
            let entry := c.chac.getD (ranksOf (graphOf u l.header) e.node.toNat (fld D 51 1)).2 ⟨0, false, 0, 0, false, []⟩
            ∀ r : Eval, (evalEarly D cl row entry e.step.toNat = some r ∨ (evalEarly D cl row entry e.step.toNat = none
                ∧ (opRanges u D 0 0 cl.probe).any (unreadRegion u) = false ∧ (∀ g ∈ (probeRegions u D cl.probe).1, g.kind ≠ 0) ∧ evalLate u (graphOf u l.header) D cl row entry e.node.toNat = r)) →
              let done : Inst := { e with verdict := r.verdict, ready := true }
              let rest := fun (y : Inst) => !y.same e
              (r.skip = false → 4096 ≤ x.pool.length → ∃ t, exec go s = .next t ∧ t.mem = s.mem ∧ t.parts[p].pool = x.pool
                ∧ (put t).launch = some { l with elig := done :: l.elig.filter rest, live := l.live.filter rest })
              ∧ (r.skip = false → x.pool.length < 4096 →
                s.ctxs.filter (fun y => y.id == id) = [c] →
                (∀ z ∈ s.ctxs, partOfCtx z.id = p → ∀ m n, z.launch = some m → (s.ctxOf z.id).launch = some n → ∀ y ∈ m.elig, (z.id = id ∧ y.same e = true) ∨
                  (y.ready = false ∧ ∀ D', graphNode (s.lens z.id) n.header y.node.toNat = some D' → fld D' 51 1 ≠ 0)) →
                ∃ t, exec go s = .next t ∧ t.mem = s.mem ∧ t.parts[p].pool = x.pool ++ [⟨id, s.prioOf id D, done⟩]
                  ∧ (put t).launch = some { l with elig := l.elig.filter rest, live := done :: l.live.filter rest })
              ∧ (r.skip = true → Rec.steps l.rec_ ≤ 1024 → (∀ (z : Fin 2) b, c.banks[z] = some b → b.step < 1024) →
                ∃ t, exec go s = .next t ∧ ∀ l', (put t).launch = some l' → l'.elig.any (fun y => y.same e) = false)))

/-- TASK_PLACEMENT, SHADOW_BANK_SWAP and TASK_COMMIT (R107, R197, R246, R374 to R378). The commit of a task with no marks, no Chaconne
clause and no output region of its core leaves the device's memory as the task saw it: what its dirty lines and its version hold, and
elsewhere what memory held.
Rests on choices of the model: log 34, 35 and 39. -/
def Obligations.TaskEvents : Prop :=
  (∀ (s : State) (p : Fin 16),
    let on := s.slice p s.parts[p].slice / 2 ^ 63 = 1 ∧ s.parts[p].stopped = false
    let u := s.enterPool p
    (s.parts[p].stopped = true → exec (.taskPlacement p) s = .next s)
    ∧ (s.parts[p].stopped = false → ¬ on → s.incoming p = [] → exec (.taskPlacement p) s = .next u)
    ∧ (s.incoming p = [] → on → poolHead u.parts[p].pool (s.serving p) = none → exec (.taskPlacement p) s = .next u)
    ∧ (s.incoming p = [] → on → ∀ e l D, poolHead u.parts[p].pool (s.serving p) = some e → (u.ctxOf (s.serving p)).launch = some l →
        graphNode (u.lens (s.serving p)) l.header e.inst.node.toNat = some D →
        (u.chooseCore (s.serving p) D e (fun _ => true) = none → exec (.taskPlacement p) s = .next u)
        ∧ (∀ c w k, u.chooseCore (s.serving p) D e (fun _ => true) = some c → u.prepare e l D c = (w, some k) →
            (w.cores[c].shadow = .free → exec (.taskPlacement p) s = .next { w with cores := w.cores.set c { w.cores[c] with shadow := .task k } })
            ∧ ∀ b first, w.cores[c].shadow = .filled b first →
                exec (.taskPlacement p) s = .next { w with cores := w.cores.set c { w.cores[c] with shadow := .filled b (some k) } })
        ∧ (∀ c w, u.chooseCore (s.serving p) D e (fun _ => true) = some c → u.prepare e l D c = (w, none) → exec (.taskPlacement p) s = .next w)))
  ∧ (∀ (s : State) (c : Fin 256),
    let k := s.cores[c]
    let b := k.bank
    let idle := (b.task = none ∨ b.spent = true) ∧ k.trans = none ∧ s.dev.power.thermalStop = false ∧ k.retired = false
    let u : State := { s with cur := c }
    let plain := fun (t : Task) => s.mem.wf = true ∧ t.marks = [] ∧ fld t.desc 51 1 = 0
    let keeps := fun (v : State) (t : Task) => ∀ r ∈ allRegions v, v.outputOf t r = false
    let clean := fun (l : List Host.Cell) => ∀ e ∈ l, s.deadLine e.1 = false
    let hint := fun (t : Task) => if t.gapply = false then none else if t.hint = 1 then some Gear.n else if t.hint = 2 then some .f else none
    (¬ idle → exec (.shadowBankSwap c) s = .next s)
    ∧ (idle → ∀ t, k.shadow = .task t → ∀ g, hint t = some g → g ≠ k.gear → (∀ m ∈ s.dev.fab.net, ¬ (m.kind = 4 ∧ m.src = c)) →
        exec (.shadowBankSwap c) s = .next { s with cores := s.cores.set c { k with
            trans := some (g, .gapply)
            restart := BitVec.ofNat 64 ((s.dev.fabricCycles.toNat + (if k.cycled = some s.dev.fabricCycles then 1 else 0) + 3) / 4 * 4 + 256) } })
    ∧ (idle → ∀ t, k.shadow = .task t → ∀ g, hint t = some g → g ≠ k.gear → (∃ m ∈ s.dev.fab.net, m.kind = 4 ∧ m.src = c) →
        exec (.shadowBankSwap c) s = .next s)
    ∧ (idle → ∀ t, k.shadow = .task t → hint t = none ∨ hint t = some k.gear → ∃ w, exec (.shadowBankSwap c) s = .next w
        ∧ (b.task ≠ none ∨ k.dirty = [] → w.mem = s.mem) ∧ w.dev = s.dev ∧ w.cores[c].dirty = []
        ∧ w.cores[c].bank.tail.map (·.id) = b.tail.map (·.id) ++ b.task.toList.map (·.id)
        ∧ (b.task = none ∨ b.mat.quiet = true → w.cores[c].bank.nests = b.nests)
        ∧ (∀ x, b.task = some x → b.mat.quiet = false → ∃ y, w.cores[c].bank.nests = b.nests ++ [y] ∧ y.task = x.id ∧ y.mat.running = b.mat.running
            ∧ y.mat.queued = b.mat.queued ∧ y.mat.loads = b.mat.loads ∧ y.mat.acc = b.mat.acc)
        ∧ w.cores[c].shadow = .free ∧ w.cores[c].bank.task = some t ∧ w.cores[c].bank.sems = b.sems ∧ w.cores[c].bank.bars = b.bars
        ∧ w.cores[c].bank.bq = [] ∧ w.cores[c].bank.seed = 0 ∧ w.cores[c].bank.trap.handler = false ∧ w.cores[c].bank.mat.shadowSt = .empty
        ∧ w.cores[c].bank.mat.acc = Vector.replicate 32 (Vector.replicate 1024 0)
        ∧ ∀ n : Fin 4, let e := fld t.desc (4 * n.val) 4
            let base : Strand := { Strand.clear with arr := b.strands[n].arr, barsel := b.strands[n].barsel, ringsel := b.strands[n].ringsel }
            w.cores[c].bank.strands[n] = if e / 2 ^ 31 = 1 then { base with
                pc := t.code + BitVec.ofNat 64 (4 * (e % 2 ^ 28)), run := true, named := true
                role := (if e / 2 ^ 28 % 4 = 0 then .l else if e / 2 ^ 28 % 4 = 1 then .c else if e / 2 ^ 28 % 4 = 2 then .e else .none) } else base)
    ∧ (idle → k.shadow = .free → (b.loaded = false ∨ b.task ≠ none ∨ u.ctx.suspended c = none) → exec (.shadowBankSwap c) s = .next s)
    ∧ (idle → k.shadow = .free → b.loaded = true → b.task = none → ∀ y, u.ctx.suspended c = some y → ∃ w, exec (.shadowBankSwap c) s = .next w
        ∧ w.mem = s.mem ∧ w.dev = s.dev ∧ w.cores[c].bank.task = y.task ∧ w.cores[c].bank.sems = b.sems ∧ w.cores[c].bank.bars = b.bars
        ∧ w.cores[c].bank.tr = y.tr ∧ w.cores[c].bank.seed = y.seed ∧ w.cores[c].trans = (if y.gear = k.gear then none else some (y.gear, .swap))
        ∧ ∀ n : Fin 4, w.cores[c].bank.strands[n] = { y.strands[n] with arr := w.cores[c].bank.strands[n].arr })
    ∧ (u.elsewhere = [] → (∀ t ∈ b.tail, ¬ (t.ending = none ∧ u.settled t = true)) → u.mayCommit = false → exec (.taskCommit c) s = .next s)
    ∧ (u.elsewhere = [] → (∀ t ∈ b.tail, ¬ (t.ending = none ∧ u.settled t = true)) → u.mayCommit = true → ∀ t, b.task = some t →
        ∃ w, exec (.taskCommit c) s = .next w ∧ w.cores[c].bank.task = none ∧ w.cores[c].bank.mat.eng = .idle
          ∧ w.cores[c].dirty = [] ∧ w.cores[c].bank.strands = b.strands ∧ w.cores[c].bank.sems = b.sems
          ∧ (plain t → ∀ x, (u.writeBack fun _ => true).bank.task = some x → keeps ((u.writeBack fun _ => true).commitCells (x.version, x.verPois)) t →
              clean (t.version ++ k.dirty) → t.version.Pairwise (fun a b => a.1 < b.1) → ∀ j < 2 ^ 64, w.rd j = u.seen j))
    ∧ (u.elsewhere = [] → ∀ t, (b.tail.find? fun t => t.ending.isNone && u.settled t) = some t →
        ∃ w, exec (.taskCommit c) s = .next w ∧ w.cores[c].bank.tail = b.tail.erase t ∧ w.cores[c].bank.task = b.task
          ∧ w.cores[c].dirty = k.dirty ∧ w.cores[c].bank.strands = b.strands ∧ w.cores[c].bank.sems = b.sems
          ∧ (plain t → keeps (u.commitCells (t.version, t.verPois)) t → clean t.version → t.version.Pairwise (fun a b => a.1 < b.1) →
              ∀ j < 2 ^ 64, w.rd j = match t.version.find? fun e => e.1 == j with | some e => e.2 | none => s.rd j)))
  ∧ ∀ (s : State) (t : Task) (k : Nat), s.mem.wf = true → t.version.Pairwise (fun a b => a.1 < b.1) → (∀ e ∈ t.version, s.deadLine e.1 = false) →
      (s.commitCells (t.version, t.verPois)).rd k = match t.version.find? fun e => e.1 == k with | some e => e.2 | none => s.rd k

/-- TIME_SLICE_EXPIRY, SHADOW_FILL, GALLIARD_SPILL and SPILL_RESUME (R463 to R471): Galliard's accesses are long-lived (R467).
Rests on choices of the model: log 21 and 39. -/
def Obligations.ContextSwapEvents : Prop :=
  (∀ (s : State) (p : Fin 16),
    let x := s.parts[p]
    let next := match s.nextSlice p with | some i => i | none => x.slice
    let e := s.slice p next
    (s.dclk.toNat < x.ends ∨ x.stopped = true → exec (.timeSliceExpiry p) s = .next s)
    ∧ (x.ends ≤ s.dclk.toNat → x.stopped = false →
        (e / 2 ^ 63 ≠ 1 → exec (.timeSliceExpiry p) s = .next { s with parts := s.parts.set p { x with slice := next, ends := s.dclk.toNat + 1000 * max 1 (e / 2 ^ 16 % 2 ^ 16) } })
        ∧ (e / 2 ^ 63 = 1 → ∃ t, exec (.timeSliceExpiry p) s = .next t ∧ t.parts[p].slice = next
            ∧ t.parts[p].ends = s.dclk.toNat + 1000 * max 1 (e / 2 ^ 16 % 2 ^ 16) ∧ (∀ c : Fin 256, s.cores[c].part ≠ some p → t.cores[c].swapDue = s.cores[c].swapDue)
            ∧ ((∀ y ∈ (s.ctxOf (BitVec.ofNat 12 e)).saved, y.2.ctx = BitVec.ofNat 12 e) →
              (∀ c : Fin 256, s.cores[c].part = some p → s.cores[c].dirty = []
                ∧ ∀ q : Fin 4, ∀ m ∈ s.cores[c].bank.queues[q].cmds, m.started = false) →
              ∀ c : Fin 256, s.cores[c].part = some p → s.cores[c].stall = false → t.cores[c].swapDue = true ∨ t.cores[c].bank.ctx = BitVec.ofNat 12 e))))
  ∧ ∀ (s : State) (c : Fin 256),
    let k := s.cores[c]
    let u : State := { s with cur := c }
    let lastKept := fun (t : State) (x : Ctx) (slot : Nat) => ∀ key, walkKey u x.pgroot.toNat ((slot + 0x62000 - 1) / 128 * 128) = some key →
      ∃ z ∈ t.dev.slices, z.line = key / 128 ∧ z.rh = 2
    (k.part = none ∨ k.stall = true ∨ (∃ b first, k.shadow = .filled b first ∨ k.shadow = .unspilled b) → exec (.shadowFill c) s = .next s)
    ∧ (∀ p i, k.part = some p → s.nextSlice p = some i → k.stall = false → k.shadow = .free → let id := sliceCtx (s.slice p i)
        (s.dclk.toNat + 8000 < s.parts[p].ends ∨ id = k.bank.ctx → exec (.shadowFill c) s = .next s)
        ∧ (s.parts[p].ends ≤ s.dclk.toNat + 8000 → id ≠ k.bank.ctx → (∀ e ∈ (s.ctxOf id).saved, e.1 ≠ c) →
            exec (.shadowFill c) s = .next { s with cores := s.cores.set c { k with shadow := .filled { Bank.clear with
              loaded := true, ctx := id, bgear := (s.ctxOf id).bgear, netctl := (s.ctxOf id).netctl, gear := (s.ctxOf id).gear } none } })
        ∧ (s.parts[p].ends ≤ s.dclk.toNat + 8000 → id ≠ k.bank.ctx → ∀ e, (s.ctxOf id).saved.find? (fun e => e.1 == c) = some e →
            let slot := (s.ctxOf id).saveBase.toNat + c.val * 0x62000
            (∀ a, slotFault u (s.ctxOf id) .load slot slot = some a → ∃ t, exec (.shadowFill c) s = .next t
              ∧ t.cores[c] = { k with stall := true, stallDir := true, stallAddr := BitVec.ofNat 64 a, stallCtx := id })
            ∧ (slotFault u (s.ctxOf id) .load slot slot = none → ∃ t b, exec (.shadowFill c) s = .next t ∧ t.mem = s.mem
              ∧ t.cores[c] = { k with shadow := .filled b none, draw := t.cores[c].draw } ∧ b.task = e.2.task ∧ b.ctx = e.2.ctx ∧ b.sems = e.2.sems
              ∧ lastKept t (s.ctxOf id) slot)))
    ∧ (k.stall = true → exec (.galliardSpill c) s = .next s)
    ∧ (k.stall = false → k.swapDue = false → (∀ b, k.shadow ≠ .unspilled b) → exec (.galliardSpill c) s = .next s)
    ∧ (k.swapDue = false → ∀ b, k.shadow = .unspilled b → ∀ i ∈ [Instr.galliardSpill c, .spillResume c],
        (i = .galliardSpill c → k.stall = false) → (i = .spillResume c → k.stall = true ∧ k.stallDir = false) →
        let x := s.ctxOf b.ctx
        let slot := x.saveBase.toNat + c.val * 0x62000
        let start := if i = .spillResume c then k.stallAddr.toNat else slot
        (slotFault u x .store slot start = none → (∃ y ∈ s.ctxs, y.id = b.ctx) → ∃ t, exec i s = .next t
            ∧ t.cores[c] = { k with shadow := .free, stall := false, draw := t.cores[c].draw }
            ∧ (t.ctxOf b.ctx).saved = (c, b) :: x.saved ∧ t.parts = s.parts
            ∧ t.dev = { s.dev with slices := t.dev.slices, forms := t.dev.forms, power := { s.dev.power with
                sysAcct := t.dev.power.sysAcct, sysDraw := t.dev.power.sysDraw, ctxDraw := t.dev.power.ctxDraw } })
        ∧ (∀ a, slotFault u x .store slot start = some a → ∃ t, exec i s = .next t
            ∧ t.cores[c] = { k with stall := true, stallDir := false, stallAddr := BitVec.ofNat 64 a, stallCtx := b.ctx, draw := t.cores[c].draw }))
    ∧ (k.stall = false → exec (.spillResume c) s = .next s)
    ∧ (k.stall = true → k.stallDir = true → k.trans = none → s.dev.power.thermalStop = false → (∀ t, k.bank.task = some t → t.ending = none) →
        (k.bank.loaded = true → k.bank.ctx = k.stallCtx → exec (.spillResume c) s
          = .next { s with cores := s.cores.set c { k with stall := false, swapDue := false, swapCtx := k.stallCtx, swapFrom := none } })
        ∧ (k.bank.ctx ≠ k.stallCtx → ∀ b first, k.shadow = .filled b first → b.ctx = k.stallCtx → ∃ t, exec (.spillResume c) s = .next t
          ∧ t.cores[c].swapDue = false ∧ t.cores[c].bank.ctx = k.stallCtx
          ∧ (first = none → t.cores[c].bank.task = b.task ∧ t.cores[c].bank.strands = b.strands) ∧ (∀ x, first = some x → t.cores[c].bank.task = some x)))

/-! ## The host, power, boot and other packages -/
namespace Sys2Proof.Machine
/-- A partition command ends: BUSY is 0, RESULT is set, and vector 2 of its function fires (R511). -/
def partEnds (s : State) (p : Fin 16) (result : Nat) : State :=
  { s with
    parts := s.parts.set p { s.parts[p] with busy := false, result := BitVec.ofNat 8 result }
    dev := { s.dev with msix := s.dev.msix ++ [(Fin.ofNat 17 (p.val + 1), 2)] } }
/-- A device command ends (R511). -/
def devEnds (s : State) (result : Nat) : State :=
  { s with dev := { s.dev with devBusy := false, devResult := BitVec.ofNat 8 result, msix := s.dev.msix ++ [(0, 2)] } }
/-- A command of a partition that is written while a RESIZE runs waits behind those that wait (R511). -/
def partWaits (s : State) (p : Fin 16) (v : W64) : State :=
  { s with parts := s.parts.set p { s.parts[p] with busy := true }, dev := { s.dev with cmds := s.dev.cmds ++ [(p, v)] } }
/-- A message that a tracker of a core's site lists and that is not delivered (R330). -/
def trackedAt (c : Fin 256) (m : Msg) : Bool :=
  ((m.src == c && decide (m.kind.toNat < 16) && m.kind != 3 && m.tag.isSome) || (m.dst == c && m.qtrk.isSome)) && m.st == .admitted
/-- No task is saved for a core (R388). -/
def NoneSaved (s : State) (c : Fin 256) : Prop := ∀ x ∈ s.ctxs, ∀ e ∈ x.saved, e.1 = c → e.2.task = none ∧ e.2.tail = []
/-- A task that was preloaded on a core returns to the pool untouched (R376, R388). -/
def Returned (s u : State) (c : Fin 256) (ctx : BitVec 12) (t : Task) : Prop :=
  u.cores[c].shadow = .free
  ∧ ((s.part (partOfCtx ctx)).pool.length < 4096 → (∀ l, (s.ctxOf ctx).launch = some l → l.failed = none) →
      ∃ e, (u.part (partOfCtx ctx)).pool = (s.part (partOfCtx ctx)).pool ++ [e] ∧ e.ctx = ctx ∧ e.inst.node = t.node ∧ e.inst.step = t.step
        ∧ e.inst.inst = t.inst ∧ e.inst.retry = t.retry)
/-- The update of the 32-bit destination by an element of XRED (R80, R90, R91, R433). -/
def farUpdate (op : Fin 4) (old src : Nat) : Nat :=
  match op with
  | 0 => Sys2Proof.Num.round { mode := .rne } .f32 (Sys2Proof.Num.add .rne (Sys2Proof.Num.read .f32 old) (Sys2Proof.Num.read .f32 src))
  | 1 => (old + src) % 2 ^ 32
  | 2 => Sys2Proof.Num.minMax .f32 true old src
  | _ => Sys2Proof.Num.minMax .f32 false old src
end Sys2Proof.Machine

/-- REGISTER, UNREGISTER, RESIZE, RELEASE and CORE_LEAVES_PARTITION (R388, R508, R511). A command of a partition that is written while a
RESIZE runs waits, and runs once none does. -/
def Clauses.HostCommands : Prop :=
  (∀ (s : State) (p : Fin 16) (j : BitVec 8),
    let id : BitVec 12 := BitVec.ofNat 12 (256 * p.val + j.toNat)
    let w := fun (k : Nat) => (BitVec.ofNat 64 (s.rdN (2 ^ 80 + p.val * 2 ^ 20 + 0x20000 + 256 * j.toNat + 8 * k) 8) : W64)
    let r := s.registerResult p j
    let x := s.recordCtx p j
    let held := (∀ c ∈ s.ctxs, c.id ≠ id) ∨ (s.entryFor id).isSome = true ∨ (s.ctxOf id).launch.isSome = true ∨ ∃ y ∈ s.parts[p].waiting, fld y 28 2 = id.toNat
    let up := s.dev.fethen.boot = .running
    (¬ up → exec (.register p j) s = .next s ∧ exec (.unregister p j) s = .next s)
    ∧ (up → s.parts[p].busy = true → exec (.register p j) s = .next s ∧ exec (.unregister p j) s = .next s)
    ∧ (up → s.parts[p].busy = false → s.dev.devBusy = true →
        exec (.register p j) s = .next (partWaits s p (BitVec.ofNat 64 (1 + 2 ^ 16 * j.toNat)))
        ∧ exec (.unregister p j) s = .next (partWaits s p (BitVec.ofNat 64 (2 + 2 ^ 16 * j.toNat))))
    ∧ (s.dev.devBusy = true → s.runCommands = s)
    ∧ (s.dev.devBusy = false → s.dev.cmds = [(p, BitVec.ofNat 64 (1 + 2 ^ 16 * j.toNat))] → let u : State := { s with dev := { s.dev with cmds := [] } }
        (u.registerResult p j = 0 → s.runCommands = partEnds { u with ctxs := u.recordCtx p j :: s.ctxs } p 0)
        ∧ (u.registerResult p j ≠ 0 → s.runCommands = partEnds u p (u.registerResult p j)))
    ∧ (up → s.parts[p].busy = false → s.dev.devBusy = false → r = 0 → exec (.register p j) s = .next (partEnds { s with ctxs := x :: s.ctxs } p 0))
    ∧ (up → s.parts[p].busy = false → s.dev.devBusy = false → r ≠ 0 → exec (.register p j) s = .next (partEnds s p r))
    ∧ (r = 0 → (∀ c ∈ s.ctxs, c.id ≠ id) ∧ (∀ k < 13, w (19 + k) = 0) ∧ (w 15).toNat % 2 ^ 16 = 0 ∧ 0x6200000 ≤ (w 16).toNat ∧ (w 18).toNat < 2)
    ∧ ((∃ k < 13, w (19 + k) ≠ 0) ∨ (w 16).toNat < 0x6200000 → r = 1)
    ∧ (x.id = id ∧ x.pgroot = BitVec.ofNat 64 (fieldAt (w 0) 47 16) ∧ x.tdtab = BitVec.ofNat 64 (fieldAt (w 2) 55 14)
        ∧ x.tmarks = BitVec.ofNat 64 (fieldAt (w 5) 55 12) ∧ x.tvec = BitVec.ofNat 64 (fieldAt (w 7) 55 2 + (w 7).toNat % 2) ∧ x.tctl = BitVec.ofNat 8 (w 8).toNat
        ∧ x.evmask = BitVec.ofNat 3 (w 9).toNat ∧ x.saveBase = w 15 ∧ x.chent = w 17 ∧ x.gear = (if (w 18).getLsbD 0 then .f else .n) ∧ x.launch = none ∧ x.saved = [])
    ∧ (up → s.parts[p].busy = false → s.dev.devBusy = false → held → exec (.unregister p j) s = .next (partEnds s p 3))
    ∧ (up → s.parts[p].busy = false → s.dev.devBusy = false → ¬ held → ∃ t, exec (.unregister p j) s = .next t ∧ t.mem = s.mem ∧ t.ctxs = s.ctxs.filter (·.id != id)
        ∧ t.parts = (partEnds s p 0).parts ∧ t.dev = (partEnds s p 0).dev
        ∧ ∀ c : Fin 256, t.cores[c].bank = if s.cores[c].bank.loaded && s.cores[c].bank.ctx == id then Bank.clear else s.cores[c].bank))
  ∧ ∀ (s : State) (c : Fin 256) (target : Option (Fin 16)) (p : Fin 16),
    let k := s.cores[c]
    let empty := k.bank.task = none ∧ k.bank.tail = [] ∧ k.shadow = .free ∧ NoneSaved s c
    let lost := trackedAt c
    let goes := s.dev.fethen.boot = .running ∧ s.dev.devBusy = false ∧ k.retired = false ∧ k.leaving = none ∧ k.part ≠ target ∧ k.part ≠ none
    let up := s.dev.fethen.boot = .running
    (¬ up → exec (.resize c target) s = .next s ∧ exec (.release c p) s = .next s)
    ∧ (up → s.dev.devBusy = true → exec (.resize c target) s = .next s ∧ exec (.release c p) s = .next s)
    ∧ (up → s.dev.devBusy = false → k.retired = true ∨ k.leaving.isSome = true → exec (.resize c target) s = .next (devEnds s 3))
    ∧ (up → s.dev.devBusy = false → k.retired = false → k.leaving = none → k.part = target → exec (.resize c target) s = .next (devEnds s 0))
    ∧ (goes → ∀ t, k.shadow = .task t → ∃ u, exec (.resize c target) s = .next u ∧ Returned s u c k.bank.ctx t
        ∧ u.dev.devBusy = true ∧ u.dev.resizing = some c ∧ u.cores[c].leaving = some target)
    ∧ (goes → ∀ b t, k.shadow = .filled b (some t) → ∃ u, exec (.resize c target) s = .next u ∧ Returned s u c b.ctx t
        ∧ u.dev.devBusy = true ∧ u.dev.resizing = some c ∧ u.cores[c].leaving = some target)
    ∧ (goes → (∀ t, k.shadow ≠ .task t) → (∀ b t, k.shadow ≠ .filled b (some t)) → exec (.resize c target) s =
        .next { s with dev := { s.dev with devBusy := true, resizing := some c }, cores := s.cores.set c { k with leaving := some target } })
    ∧ (up → s.dev.devBusy = false → k.retired = false → k.leaving = none → k.part = none → target ≠ none → empty → k.trans = none →
        k.moving = false → (∀ m ∈ s.dev.fab.net, lost m = false) → ∃ t, exec (.resize c target) s = .next t
        ∧ t.cores[c].part = target ∧ t.cores[c].leaving = none ∧ t.cores[c].gear = k.gear ∧ t.dev.devBusy = false ∧ t.dev.devResult = 0)
    ∧ (up → s.dev.devBusy = false → k.lent = false ∨ k.part ≠ some p ∨ k.vaultGone = true → exec (.release c p) s = .next (devEnds s 3))
    ∧ (up → s.dev.devBusy = false → k.lent = true → k.part = some p → k.vaultGone = false → exec (.release c p) s =
        .next (devEnds { s with cores := s.cores.set c { k with vaultPart := some p, lent := false } } 0))
    ∧ (k.trans.isSome = true ∨ k.bank.task.isSome = true ∨ (k.moving = false ∧ k.leaving = none) → exec (.coreLeavesPartition c) s = .next s)
    ∧ (∀ dest, k.leaving = some dest → k.moving = false → k.trans = none → empty →
        ((∀ m ∈ s.dev.fab.net, lost m = true → m.src = c) → ∃ t, exec (.coreLeavesPartition c) s = .next t
          ∧ t.dev.fab.net = s.dev.fab.net.filter (fun m => !lost m) ∧ t.cores[c].part = dest ∧ t.cores[c].leaving = none ∧ t.cores[c].bank = Bank.clear)
        ∧ ((∀ m ∈ s.dev.fab.net, lost m = false) → ∃ t, exec (.coreLeavesPartition c) s = .next t ∧ t.mem = s.mem
          ∧ t.cores[c] = { k with
              part := dest, leaving := none, bank := Bank.clear, swapDue := false, stall := false, lent := true, dropped := false
              trans := if dest = none ∧ k.gear = .f then some (.n, .leave) else none, restart := t.cores[c].restart }
          ∧ (k.bank.loaded = true → (∃ x ∈ s.ctxs, x.id = k.bank.ctx) → (t.ctxOf k.bank.ctx).saved = (c, k.bank) :: (s.ctxOf k.bank.ctx).saved)
          ∧ (∀ j : Fin 256, j ≠ c → t.cores[j] = s.cores[j]) ∧ t.dev.fab.net = s.dev.fab.net
          ∧ (s.dev.resizing = some c → t.dev.resizing = none ∧ t.dev.devBusy = false ∧ t.dev.devResult = 0)))

/-- Event records, REGISTER, UNREGISTER, RESIZE, RELEASE and leaving a partition. Rests on choices of the model: log 20, 38 and 43. -/
def Obligations.HostCommandsAndReports : Prop := Clauses.EventRecords ∧ Clauses.HostCommands

/-- HOST_WINDOW_ENTRY_WRITE, BAR2_ACCESS and HOST_REGISTER_WRITE (R505 to R511): where the device runs, a write of a submit, command or
cap register does what the event of its own does; BAR2 reads and writes committed bytes of HBM, and an address beyond it faults. The numbers of Fethen's commands, what an
unknown number does, which writes through BAR2 join to one of 32 bytes, and that a write to a region table in use leaves its entry undefined, are the model's (log 20, 22).
Rests on choices of the model: log 20, 22 and 38. -/
def Obligations.HostAccesses : Prop :=
  (∀ (s : State) (p : Fin 16) (w : BitVec 8) (v : BitVec 256), (s.dev.fethen.boot ≠ .running → exec (.hostWindowEntryWrite p w v) s = .next s)
    ∧ (s.dev.fethen.boot = .running → ∃ t, exec (.hostWindowEntryWrite p w v) s = .next t
      ∧ Wrote s t (2 ^ 80 + p.val * 2 ^ 20 + 0x11000 + 32 * w.toNat) (toLe 32 v.toNat) ∧ t.cores = s.cores ∧ t.ctxs = s.ctxs ∧ t.dev = s.dev
      ∧ ∀ q : Fin 16, t.parts[q] = { s.parts[q] with versions := t.parts[q].versions }))
  ∧ (∀ (s : State) (fn : Fin 17) (off : BitVec 36) (v : W64),
      let k := s.rdN (2 ^ 84 + 0x400 + 8 * fn.val) 8 + off.toNat
      let up := s.dev.fethen.boot = .running
      (¬ up → exec (.bar2Access fn off none) s = .next { s with dev := { s.dev with hostRd := 0 } } ∧ exec (.bar2Access fn off (some v)) s = .next s)
      ∧ (up → 384 * 2 ^ 30 < k + 8 → exec (.bar2Access fn off none) s = .fault (.beyondHbm k) ∧ exec (.bar2Access fn off (some v)) s = .fault (.beyondHbm k))
      ∧ (up → k + 8 ≤ 384 * 2 ^ 30 →
        exec (.bar2Access fn off none) s = .next { s with dev := { s.dev with hostRd := BitVec.ofNat 64 (s.rdN k 8) } }
        ∧ ∃ t, exec (.bar2Access fn off (some v)) s = .next t ∧ t.cores = s.cores ∧ t.ctxs = s.ctxs ∧ t.parts = s.parts
          ∧ t.dev = { s.dev with hostRun := joinHost s.dev.hostRun k } ∧ ((joinHost s.dev.hostRun k).2 = 32 → s.deadLine (k - 24) = false → t.pois (k - 24) = false)
          ∧ (s.taskSpans k 8 = [] → Wrote s t k (toLe 8 v.toNat))
          ∧ ∀ j, s.mem.wf = true → (j < k ∨ k + 8 ≤ j) → (∀ x ∈ s.taskSpans k 8, j < x.1 ∨ x.1 + x.2 ≤ j) → t.rd j = s.rd j))
  ∧ ∀ (s : State) (fn : Fin 17) (off : BitVec 26) (v : W64),
      let o := off.toNat
      let go := exec (.hostRegisterWrite fn off v) s
      let op := v.toNat % 2 ^ 16
      let a0 := v.toNat / 2 ^ 16 % 2 ^ 16
      let a1 := v.toNat / 2 ^ 32 % 2 ^ 8
      let dev := 2 ^ 84 + o
      (s.dev.fethen.boot = .held → go = .next s)
      ∧ (s.dev.fethen.boot = .recovery → fn ≠ 0 ∨ (o < 0x4000 ∨ (0x4040 ≤ o ∧ o < 0x800000) ∨ 0x1000000 ≤ o) → go = .next s)
      ∧ (s.dev.fethen.boot ≠ .held → fn = 0 → o = 0x4000 → go = if v = 1 then exec .attest s else if v = 2 then exec .check s
          else if v = 3 then exec .commit s else .next s)
      ∧ (s.dev.fethen.boot = .running → ∀ p : Fin 16, (fn.val = p.val + 1 ∧ o < 2 ^ 20) ∨ (fn = 0 ∧ o / 2 ^ 20 = 16 + p.val) → let q := o % 2 ^ 20
          let at_ := 2 ^ 80 + p.val * 2 ^ 20 + q
          (q = 0x10000 → go = exec (.submit p v) s)
          ∧ (q = 0x10300 → s.parts[p].busy = true → go = .next s)
          ∧ (q = 0x10300 → s.parts[p].busy = false → s.dev.devBusy = true → go = .next (partWaits s p v))
          ∧ (q = 0x10300 → s.parts[p].busy = false → s.dev.devBusy = false → op = 3 ∨ op = 4 → go = .next (partEnds s p 4))
          ∧ (q = 0x10300 → s.parts[p].busy = false → s.dev.devBusy = false → op ≠ 3 → op ≠ 4 → 2 ^ 32 ≤ v.toNat ∨ 256 ≤ a0 ∨ op = 0 ∨ 5 ≤ op → go = .next (partEnds s p 1))
          ∧ (q = 0x10300 → s.parts[p].busy = false → v.toNat < 2 ^ 32 → a0 < 256 → op = 1 → go = exec (.register p (BitVec.ofNat 8 a0)) s)
          ∧ (q = 0x10300 → s.parts[p].busy = false → v.toNat < 2 ^ 32 → a0 < 256 → op = 2 → go = exec (.unregister p (BitVec.ofNat 8 a0)) s)
          ∧ (q < 0x10000 ∨ (0x10100 ≤ q ∧ q < 0x10218) ∨ (0x11000 ≤ q ∧ q < 0x13000) ∨ (0x20000 ≤ q ∧ q < 0x30000) → ∃ t, go = .next t ∧ Wrote s t at_ (toLe 8 v.toNat))
          ∧ ((0x10008 ≤ q ∧ q < 0x10100) ∨ (0x10308 ≤ q ∧ q < 0x11000) ∨ 0x30000 ≤ q → go = .next s))
      ∧ (s.dev.fethen.boot = .running → fn = 0 →
          ((0x400 ≤ o ∧ o < 0x488) → ∃ t, go = .next t ∧ Wrote s t dev (toLe 8 (v.toNat / 2 ^ 30 * 2 ^ 30)) ∧ t.dev = s.dev)
          ∧ (o = 0x1000 → go = .next { s with dev := { s.dev with power := { s.dev.power with lowWord := v } } })
          ∧ (o = 0x1008 → go = exec (.capMessage s.dev.power.lowWord v) s)
          ∧ (o = 0x2000 → s.dev.devBusy = true → go = .next s)
          ∧ (o = 0x2000 → s.dev.devBusy = false → op = 1 ∨ op = 2 → go = .next (devEnds s 4))
          ∧ (o = 0x2000 → s.dev.devBusy = false → op ≠ 1 → op ≠ 2 → 2 ^ 40 ≤ v.toNat ∨ 256 ≤ a0 ∨ op = 0 ∨ 5 ≤ op → go = .next (devEnds s 1))
          ∧ (o = 0x2000 → s.dev.devBusy = false → v.toNat < 2 ^ 40 → a0 < 256 → op = 3 → a1 < 16 → go = exec (.resize (Fin.ofNat 256 a0) (some (Fin.ofNat 16 a1))) s)
          ∧ (o = 0x2000 → s.dev.devBusy = false → v.toNat < 2 ^ 40 → a0 < 256 → op = 3 → a1 = 0xFF → go = exec (.resize (Fin.ofNat 256 a0) none) s)
          ∧ (o = 0x2000 → s.dev.devBusy = false → v.toNat < 2 ^ 40 → a0 < 256 → op = 4 → a1 < 16 → go = exec (.release (Fin.ofNat 256 a0) (Fin.ofNat 16 a1)) s)
          ∧ (o = 0x2000 → s.dev.devBusy = false → v.toNat < 2 ^ 40 → (op = 3 ∧ a1 ≠ 0xFF) ∨ op = 4 → 16 ≤ a1 → go = .next (devEnds s 1))
          ∧ ((0x3000 ≤ o ∧ o < 0x3018) ∨ (0x4020 ≤ o ∧ o < 0x4040) ∨ (0x800000 ≤ o ∧ o < 0x1000000) → ∃ t, go = .next t ∧ Wrote s t dev (toLe 8 v.toNat) ∧ t.dev = s.dev))

/-- CONTROLLER_PERIOD, ACTIVITY_WINDOW_RESET, THERMAL_LIMIT_UPDATE, THERMAL_STOP, CAP_MESSAGE and LEASE_EXPIRY (R32, R490, R493 to R497).
Rests on choices of the model: log 9 and 36. -/
def Obligations.PowerEvents : Prop :=
  ∀ (s : State) (c : Fin 256) (hot cool : Bool) (site : Fin 272) (temp : BitVec 8) (lo hi : W64),
    let p := s.dev.power
    let k := s.cores[c]
    let watts := min (match p.cap with | some e => e.1 | none => p.fallback) (min 2000 p.thermal)
    let A := watts * 40960 / 19
    let D := (s.cores.toList.map (·.draw)).sum + (p.sysDraw - p.idleDraw) + p.ctxDraw
    let act := max 1 (s.cores.toList.filter fun k => k.part.isSome).length
    let S : Int := ((A : Int) - p.lastSys) / (act : Nat)
    let withPower := fun (q : Power) => ({ s with dev := { s.dev with power := q } } : State)
    let flags := hi.toNat / 2 ^ 17 % 2 ^ 15
    let lease := hi.toNat / 2 ^ 32
    let cap := min 2000 (max 200 (hi.toNat % 2 ^ 16))
    (∃ t, exec .controllerPeriod s = .next t ∧ t.mem = s.mem ∧ t.ctxs = s.ctxs ∧ t.parts = s.parts
      ∧ t.dev = { s.dev with power := { p with
          lastSys := p.sysDraw, sysDraw := 0, idleDraw := 0, ctxDraw := 0, periods := p.periods + 1
          cap := (match p.pendCap with | some e => some e | none => p.cap)
          pendCap := none } }
      ∧ ∀ c : Fin 256, let k := s.cores[c]
        let k' := t.cores[c]
        k' = { k with bank := k'.bank, level := k'.level, hold := k'.hold, draw := 0, lastDraw := BitVec.ofNat 32 (min (2 ^ 32 - 1) k.draw) }
        ∧ (A < D → S < (k.draw : Int) → if k.level = 7 then k'.level = 7 ∧ k'.hold = true else k'.level = k.level + 1 ∧ k'.hold = k.hold)
        ∧ (A < D → (k.draw : Int) ≤ S → k'.level = k.level ∧ k'.hold = k.hold)
        ∧ (D ≤ A → 8 * D ≤ 7 * A → if k.hold then k'.level = k.level ∧ k'.hold = false else k'.level = (if k.level = 0 then 0 else k.level - 1) ∧ k'.hold = false)
        ∧ (D ≤ A → 7 * A < 8 * D → k'.level = k.level ∧ k'.hold = k.hold)
        ∧ (k.bank.netctl = 0 ∨ k'.level < k.bank.netctl ∨ k.bank.netctl ≤ k.level → k'.bank = k.bank)
        ∧ (k.bank.netctl ≠ 0 → k.level < k.bank.netctl → k.bank.netctl ≤ k'.level → ∀ x, k.bank.task = some x →
          if (s.ctxOf k.bank.ctx).evmask.getLsbD 0 = true ∧ (s.ctxOf k.bank.ctx).tvec.getLsbD 0 = true ∧ x.ending = none then ∀ n : Fin 4, k'.bank.strands[n].latch = k.bank.strands[n].latch ||| 16 else k'.bank = k.bank))
    ∧ exec (.activityWindowReset c) s = .next { s with cores := s.cores.set c { k with bank := { k.bank with acc := if k.bank.pos = 0 then 0 else k.bank.acc } } }
    ∧ exec (.thermalLimitUpdate hot cool) s = .next (withPower { p with
        thermal := if hot then max 200 (p.thermal - 50) else if cool then min 2000 (p.thermal + 50) else p.thermal })
    ∧ (∃ t, exec (.thermalStop site temp) s = .next t
        ∧ (∀ c : Fin 256, t.cores[c] = if s.dev.sites.site[c] = site ∧ s.cores[c].retired = false then { s.cores[c] with temp := temp } else s.cores[c])
        ∧ (temp.toNat < 115 → t = { s with cores := t.cores })
        ∧ (115 ≤ temp.toNat → t.dev.power = { p with thermalStop := true }
            ∧ t.mem = ((withPower { p with thermalStop := true }).event none 0x43 none 0 site.val temp.toNat).mem))
    ∧ (lo ≤ p.seq ∨ flags ≠ 0 ∨ (lease = 0 ∧ hi.getLsbD 16 = false) → exec (.capMessage lo hi) s = .next s)
    ∧ (p.seq < lo → flags = 0 → hi.getLsbD 16 = true → exec (.capMessage lo hi) s = .next (withPower { p with seq := lo, fallback := cap }))
    ∧ (p.seq < lo → flags = 0 → hi.getLsbD 16 = false → lease ≠ 0 → exec (.capMessage lo hi) s =
        .next (withPower { p with seq := lo, pendCap := some (cap, s.dclk.toNat + lease * 1000000) }))
    ∧ (∀ w ends, p.cap = some (w, ends) → ends ≤ s.dclk.toNat → exec .leaseExpiry s = .next (withPower { p with cap := none }))
    ∧ ((∀ w ends, p.cap = some (w, ends) → s.dclk.toNat < ends) → exec .leaseExpiry s = .next s)

/-- POWER_ON_RESET, CHECK, COMMIT, ATTEST and ERROR_COUNT, and the core that leaves its site for a spare (R13, R14, R515 to R520). That its
logical id moves once its core is out of service is the model's reading (log 43).
Rests on choices of the model: log 12, 22, 26, 37 and 43. -/
def Obligations.BootAndErrorEvents : Prop :=
  ∀ (s : State) (u : ErrUnit) (bad : Bool),
    let f := s.dev.fethen
    let good := fun (image : List Byte) => imageSigned image = true ∧ f.minVer ≤ Config.imageVersion image
    let window := (List.range (2 ^ 23)).map fun j => s.rd (2 ^ 84 + 0x800000 + j)
    let withF := fun (g : Fethen) => ({ s with dev := { s.dev with fethen := g } } : State)
    let now := s.dclk.toNat
    let old := match s.dev.errors.find? fun e => e.u == u with | some e => e | none => ⟨u, [], false⟩
    let times := (now :: old.times).take s.dev.errT[errKind u]
    let last := bad = true ∨ (s.dev.errT[errKind u] ≤ times.length ∧ now - times.getLastD now ≤ s.dev.errW[errKind u] * 10 ^ 9)
    (f.boot ≠ .held → exec .powerOnReset s = .next s)
    ∧ (f.boot = .held → good f.flash → ∃ t, exec .powerOnReset s = .next t ∧ t = { s with dev := { s.dev with
          fethen := { f with m0 := digest64 f.flash, boot := .running }, sites := t.dev.sites } }
        ∧ t.dev.sites.retired = 0 ∧ t.dev.sites.spare = 0 ∧ t.dev.sites.spares.length = 16
        ∧ (∀ i j : Fin 256, i ≠ j → t.dev.sites.site[i] ≠ t.dev.sites.site[j]) ∧ (∀ i : Fin 256, dieOf t.dev.sites.site[i] = decide (128 ≤ i.val)))
    ∧ (f.boot = .held → ¬ good f.flash → exec .powerOnReset s = .next (withF { f with m0 := digest64 f.flash, boot := .recovery }))
    ∧ (f.boot ≠ .recovery ∨ f.busy = true → exec .check s = .next s)
    ∧ (f.boot = .recovery → f.busy = false → ¬ good window → exec .check s = .next (withF { f with cmd := 2, result := 1 }))
    ∧ (f.boot = .recovery → f.busy = false → good window → ∃ t, exec .check s = .next t ∧ t.cores = State.reset.cores ∧ t.ctxs = [] ∧ t.parts = State.reset.parts
        ∧ t.dev = { State.reset.dev with fethen := { State.reset.dev.fethen with flash := window, minVer := f.minVer, sigIdx := f.sigIdx } }
        ∧ (s.mem.wf = true → ∀ k, 2 ^ 64 ≤ k → k < 2 ^ 80 → cellAt t.mem.cells k = cellAt s.mem.cells k))
    ∧ (f.boot ≠ .running ∨ f.committed = true ∨ f.busy = true → exec .commit s = .next s)
    ∧ (f.boot = .running → f.committed = false → f.busy = false →
        exec .commit s = .next (withF { f with minVer := Config.imageVersion f.flash, committed := true, cmd := 3, result := 0 }))
    ∧ (f.busy = true ∨ f.boot = .held → exec .attest s = .next s)
    ∧ (f.busy = false → f.boot ≠ .held → 2 ^ 20 ≤ f.sigIdx → exec .attest s = .next (withF { f with cmd := 1, result := 2 }))
    ∧ (f.busy = false → f.boot ≠ .held → f.sigIdx < 2 ^ 20 → ∃ t body, exec .attest s = .next t
        ∧ t.dev = { s.dev with fethen := { f with sigIdx := f.sigIdx + 1, cmd := 1, result := 0 } } ∧ body.length = 184
        ∧ body.take 32 = (List.range 32).map (fun j => s.rd (2 ^ 84 + 0x4020 + j)) ∧ (body.drop 32).take 64 = toLe 64 f.m0.toNat
        ∧ (body.drop 96).take 16 = toLe 16 Config.serial.toNat ∧ (body.drop 112).take 64 = toLe 64 (digest64 (s.dev.sites.bytes ++ s.spareStates)).toNat
        ∧ (body.drop 176).take 4 = toLe 4 f.sigIdx ∧ Wrote s t (2 ^ 84 + 0x5000) (body ++ deviceSigner.sign f.sigIdx body))
    ∧ (¬ last → exec (.errorCount u bad) s = .next { s with dev := { s.dev with errors := ⟨u, times, old.spared⟩ :: s.dev.errors.filter fun e => e.u != u } })
    ∧ (last → ∃ t, exec (.errorCount u bad) s = .next t ∧ t.dev.errors = ⟨u, [], true⟩ :: s.dev.errors.filter (fun e => e.u != u)
        ∧ (∀ ch half, u = .pseudo ch half → t.dev.deadChan = (ch, half) :: s.dev.deadChan)
        ∧ (∀ blk, bad = true → s.errorBlock u = some blk → t.pois (32 * blk) = true
            ∧ ∀ c b, u = .vaultBank c b → vaultKey (c % 256) 0 ≤ 32 * blk ∧ 32 * blk < vaultKey (c % 256) 0 + 2 ^ 24)
        ∧ (∀ c sl, u = .site c sl → s.cores[c].retired = false →
            let spare := s.dev.sites.spares.find? fun x => dieOf x == dieOf s.dev.sites.site[c]
            (∀ x, spare = some x → t.dev.sites = s.dev.sites ∧ ((∀ k, s.cores[c].shadow ≠ .task k) → (∀ b k, s.cores[c].shadow ≠ .filled b (some k)) →
              t.cores[c] = { s.cores[c] with leaving := (match s.cores[c].leaving with | some d => some d | none => some s.cores[c].part), moving := true }))
            ∧ (spare = none → t.cores[c].retired = true ∧ t.cores[c].vaultGone = true ∧ t.dev.sites.retired = s.dev.sites.retired ||| BitVec.ofNat 256 (2 ^ c.val))))
    ∧ ∀ (c : Fin 256) (x : Fin 272), let k := s.cores[c]
      k.moving = true → k.trans = none → k.bank.task = none → k.bank.tail = [] → k.bank.nests = [] → k.shadow = .free →
      (∀ m ∈ s.dev.fab.net, trackedAt c m = false) →
      (s.dev.sites.spares.find? fun x => dieOf x == dieOf s.dev.sites.site[c]) = some x → ∃ t, exec (.coreLeavesPartition c) s = .next t
        ∧ (let moved := t.cores[c] = { k with
              leaving := (if s.dev.resizing = some c then k.leaving else none), moving := false, bank := Bank.clear, swapDue := false, stall := false }
            ∧ t.dev.sites = { s.dev.sites with
              site := s.dev.sites.site.set c x, spares := s.dev.sites.spares.erase x, spare := s.dev.sites.spare ||| BitVec.ofNat 256 (2 ^ c.val) }
          (NoneSaved s c → moved) ∧ (t = s ∨ moved))

/-- REMOTE_ACCESS, LINK_TRAINING, CLOCK_ALIGNMENT, PTM_CORRECTION and ZIKIN_LINK_FAILURE (R425, R426, R428, R433, R436, R437, R488, R514). Which
packages a route table lists is free (log 23).
Rests on choices of the model: log 23 and 24. -/
def Obligations.OtherPackages : Prop :=
  ∀ (s : State) (ctx : BitVec 12) (core : Fin 256) (a : W64) (d : List Byte) (dep pois bad : Bool) (op : Fin 4) (src : BitVec 32) (n cmd : Nat) (sem : Fin 64)
      (cause : Option Byte) (id table up cmp : BitVec 8) (delta : BitVec 16) (port : Fin 8),
    let z := s.dev.zikin
    let leads := ∀ r ∈ z.routes, z.id < r.1
    let k := s.bankOf ctx core
    let cnt := k.sems[sem].toNat + n
    let ours := (∃ x ∈ s.ctxs, x.id = ctx) ∧ (s.cores[core]).part = some (partOfCtx ctx)
    (remoteParts s ctx core false dep a.toNat d.length = none → exec (.remoteAccess (.write ctx core a d dep pois)) s = .next s)
    ∧ (∀ key, remoteParts s ctx core false dep a.toNat d.length = some [(key, d.length)] → ∃ t, exec (.remoteAccess (.write ctx core a d dep pois)) s = .next t
        ∧ Wrote s t key d ∧ t.cores = s.cores ∧ unmarked t.ctxs = unmarked s.ctxs ∧ t.dev = s.dev ∧ (pois = true → ∀ j < d.length, t.pois (key + j) = true))
    ∧ (∀ key, remoteParts s ctx core false dep a.toNat 4 = some [(key, 4)] → ∃ t, exec (.remoteAccess (.update ctx core a op src dep pois)) s = .next t
        ∧ Wrote s t key (toLe 4 (farUpdate op (s.rdN key 4) src.toNat)) ∧ (pois = true → ∀ j < 4, t.pois (key + j) = true) ∧ t.cores = s.cores ∧ unmarked t.ctxs = unmarked s.ctxs ∧ t.dev = s.dev)
    ∧ (remoteParts s ctx core false dep a.toNat 4 = none → exec (.remoteAccess (.update ctx core a op src dep pois)) s = .next s)
    ∧ (∀ key, remoteParts s ctx core true false a.toNat n = some [(key, n)] → ∃ lost, exec (.remoteAccess (.read ctx core a n)) s =
        .next { s with dev := { s.dev with remoteRd := (List.range n).map fun j => s.rd (key + j)
                                           remotePois := (List.range n).any fun j => s.pois (key + j), remoteBad := lost } })
    ∧ (¬ ours → exec (.remoteAccess (.incr ctx core sem n)) s = .next s)
    ∧ (ours → (∀ w ∈ k.waiters, w.sem ≠ sem) → ∃ t, exec (.remoteAccess (.incr ctx core sem n)) s = .next t ∧ t.mem = s.mem ∧ t.dev = s.dev
        ∧ (t.bankOf ctx core).sems = k.sems.set sem (BitVec.ofNat 32 (min cnt (2 ^ 32 - 1))))
    ∧ ((∀ x ∈ z.out, x.cmd ≠ cmd) → exec (.remoteAccess (.ack cmd cause)) s = .next s ∧ exec (.remoteAccess (.answer cmd d pois bad)) s = .next s)
    ∧ (∀ x, z.out.find? (fun x => x.cmd == cmd) = some x →
        ((∀ c : Fin 256, s.cores[c].bank.hasCmd cmd = false ∧ ∀ b first, s.cores[c].shadow ≠ .filled b first ∧ s.cores[c].shadow ≠ .unspilled b) →
          (∀ y ∈ s.ctxs, ∀ e ∈ y.saved, e.2.hasCmd cmd = false) →
          let t : State := { s with dev := { s.dev with zikin := { z with out := z.out.erase x } } }
          exec (.remoteAccess (.answer cmd d pois bad)) s = .next t ∧ exec (.remoteAccess (.ack cmd cause)) s = .next t)
        ∧ ∀ g, (∀ c : Fin 256, c < core → s.cores[c].bank.hasCmd cmd = false ∧ (∀ b first, s.cores[c].shadow ≠ .filled b first ∧ s.cores[c].shadow ≠ .unspilled b)) →
          (s.cores[core]).bank.loaded = true → (s.cores[core]).bank.sigs.find? (fun g => g.id == cmd) = some g →
          ∃ t, exec (.remoteAccess (.ack cmd cause)) s = .next t ∧ t.mem = s.mem ∧ t.dev.zikin.out = z.out.erase x
            ∧ t.cores[core].bank.sigs = (s.cores[core]).bank.sigs.filter (fun g => g.id != cmd)
            ∧ (g.td ≠ 0 → g.task = (s.cores[core]).bank.taskId → t.cores[core].bank.strands[g.strand].t[g.td] = match cause with | none => ⟨.done, 0⟩ | some c => ⟨.faulted, c⟩))
    ∧ (∃ t, exec (.linkTraining id table up cmp) s = .next t ∧ t = { s with dev := { s.dev with zikin := t.dev.zikin } }
        ∧ t.dev.zikin = { z with id := id, count := BitVec.ofNat 8 t.dev.zikin.routes.length, up := up, cmp := cmp, routes := t.dev.zikin.routes }
        ∧ ∀ q : BitVec 8, (∃ r ∈ t.dev.zikin.routes, r.1 = q) ↔ q ≠ id ∧ Config.routeListed table id q = true)
    ∧ (leads → exec (.clockAlignment delta) s = .next { s with dev := { s.dev with zikin := { z with skew := delta } } }
        ∧ exec (.ptmCorrection delta) s = .next { s with dev := { s.dev with slew := delta.toInt } })
    ∧ (¬ leads → exec (.clockAlignment delta) s = .next { s with dev := { s.dev with zikin := { z with skew := delta }, slew := -delta.toInt } }
        ∧ exec (.ptmCorrection delta) s = .next s)
    ∧ (∃ t, exec (.zikinLinkFailure port) s = .next t ∧ t.parts = s.parts ∧ t.dev.zikin.up = z.up &&& ~~~(BitVec.ofNat 8 (2 ^ port.val))
        ∧ t.dev.zikin.out = z.out.filter (fun x => !(z.routes.any fun r => r.1 == x.pkg && r.2 == port))
        ∧ ((∀ x ∈ z.out, ¬ ∃ r ∈ z.routes, r.1 = x.pkg ∧ r.2 = port) → t.mem = s.mem
          ∧ ∀ c : Fin 256, t.cores[c] = { s.cores[c] with bank := t.cores[c].bank, shadow := t.cores[c].shadow }
            ∧ t.cores[c].bank = { s.cores[c].bank with queues := t.cores[c].bank.queues }
            ∧ ∀ q : Fin 4, (t.cores[c].bank.queues[q].cmds.map fun m => { m with down := [] }) = (s.cores[c].bank.queues[q].cmds.map fun m => { m with down := [] })
              ∧ ((s.cores[c]).bank.loaded = true → (∃ y ∈ s.ctxs, y.id = (s.cores[c]).bank.ctx) →
                ∀ m ∈ t.cores[c].bank.queues[q].cmds, m.isFar = true → m.started = true → ∀ r ∈ z.routes, r.2 = port → r.1 ∈ m.down)))

/-! ## The machine as a whole -/

/-- Every step keeps memory in its canonical form: strictly rising addresses, and no entry for a byte that reads as an unlisted one.
Rests on a choice of the model: log 4. -/
def Obligations.MemoryStaysCanonical : Prop :=
  ∀ s t : State, s.mem.wf = true → step s = .next t → t.mem.wf = true

/-- The machine right after reset (R2, R24, R481, R489, R491, R497, R515): Fethen holds the device, every core is outside every partition in
gear N with age.LIMIT 64, nothing is in memory, the CSRs of a context have their reset values, and every power value is the reset one.
Rests on choices of the model: log 4 and 6. -/
def Obligations.ResetState : Prop :=
  let s := State.reset
  s.mem.wf = true ∧ (∀ k, s.rd k = 0) ∧ s.dev.fethen.boot = .held ∧ s.dev.fabricCycles = 0 ∧ s.dev.fab.netcfg = 0xCC5C3EC00028
  ∧ (∀ c : Fin 256, let k := s.cores[c]
      k.part = none ∧ k.gear = .n ∧ k.ageLimit = 64 ∧ k.trans = none ∧ k.level = 0 ∧ k.gearCount = 0 ∧ k.bank.task = none ∧ k.bank.loaded = false
      ∧ ∀ n : Fin 4, k.bank.strands[n].run = false ∧ k.bank.strands[n].smode = false)
  ∧ s.ctxs = [] ∧ (∀ p : Fin 16, s.parts[p].busy = false ∧ s.parts[p].pool = [] ∧ s.parts[p].waiting = [])
  ∧ s.dev.power.seq = 0 ∧ s.dev.power.fallback = 2000 ∧ s.dev.power.cap = none ∧ s.dev.power.thermal = 2000
  ∧ (let x := s.ctxOf 0
     x.actctl = 0x82000060 ∧ x.actcap = 1023 ∧ x.tctl = 3 ∧ x.vovf = 0x4000 ∧ x.telring = 4 ∧ x.pgroot = 0 ∧ x.tvec = 0 ∧ x.evmask = 0
     ∧ x.actw.toList = [1, 2, 1, 2, 4, 2, 4, 2, 3, 3, 3, 1, 1, 1, 4, 1])

/-- R92: a floating-point comparison with a NaN operand is unordered: EQ, LT, LE, GT and GE are false, NE and UN are true; and
+0 and -0 compare equal. FEQ, FLT and FLE say so on the F32 encodings, VCMP of a floating-point type element by element. -/
def Obligations.UnorderedComparisons : Prop :=
  (∀ (s : State) (d a b : Fin 64) (long : Bool),
    let x := (s.rs a).toNat % 2 ^ 31
    let y := (s.rs b).toNat % 2 ^ 31
    let n := if long then 2 else 1
    (0x7F800000 < x ∨ 0x7F800000 < y → Puts s (.feq d a b long) n d 0 ∧ Puts s (.flt d a b long) n d 0 ∧ Puts s (.fle d a b long) n d 0)
    ∧ (x = 0 → y = 0 → Puts s (.feq d a b long) n d 1 ∧ Puts s (.flt d a b long) n d 0 ∧ Puts s (.fle d a b long) n d 1))
  ∧ (∀ (s : State) (f : VF) (x : XA), Sys2Proof.Num.isFp f.ty = true →
    bothForms (.vcmp f) (.vcmpL f x) x fun i n x => VecDoes s i n (f.va :: bOf f x) none false [] fun rd _ _ ef =>
      ∃ K : KReg, alsoK (Fin.ofNat 8 f.vd.val) K ef ∧ ∀ j < f.ty.elems, maskOn s f j → x.sub.toNat < 7 →
        let a := fpOf x f.ty (el f.ty.bits (rd f.va) j)
        let b := fpOf x f.ty (yOf s f x rd j)
        (a = .nan ∨ b = .nan → (K.getLsbD j = true ↔ x.sub = 1 ∨ x.sub = 6))
        ∧ (∀ n1 e1 n2 e2, a = .fin n1 0 e1 → b = .fin n2 0 e2 → (K.getLsbD j = true ↔ x.sub = 0 ∨ x.sub = 3 ∨ x.sub = 5)))
end

