-- ==== Sys2Proof/Laws/State.lean ====
section
/-! SUPPORT. One lemma per field for each update of the state, so that no proof unfolds a record update. -/
namespace Sys2Proof.Machine

@[simp] theorem State.setCore_mem (s : State) (c : Core) : (s.setCore c).mem = s.mem := rfl
@[simp] theorem State.setCore_ctxs (s : State) (c : Core) : (s.setCore c).ctxs = s.ctxs := rfl
@[simp] theorem State.setCore_parts (s : State) (c : Core) : (s.setCore c).parts = s.parts := rfl
@[simp] theorem State.setCore_dev (s : State) (c : Core) : (s.setCore c).dev = s.dev := rfl
@[simp] theorem State.setCore_cur (s : State) (c : Core) : (s.setCore c).cur = s.cur := rfl
@[simp] theorem State.setCore_curS (s : State) (c : Core) : (s.setCore c).curS = s.curS := rfl
@[simp] theorem State.setCore_agenda (s : State) (c : Core) : (s.setCore c).agenda = s.agenda := rfl
@[simp] theorem State.setCore_turn (s : State) (c : Core) : (s.setCore c).turn = s.turn := rfl
@[simp] theorem State.setCore_freeCtr (s : State) (c : Core) : (s.setCore c).freeCtr = s.freeCtr := rfl
@[simp] theorem State.modCore_mem (s : State) (f : Core → Core) : (s.modCore f).mem = s.mem := rfl
@[simp] theorem State.modCore_ctxs (s : State) (f : Core → Core) : (s.modCore f).ctxs = s.ctxs := rfl
@[simp] theorem State.modCore_parts (s : State) (f : Core → Core) : (s.modCore f).parts = s.parts := rfl
@[simp] theorem State.modCore_dev (s : State) (f : Core → Core) : (s.modCore f).dev = s.dev := rfl
@[simp] theorem State.modCore_cur (s : State) (f : Core → Core) : (s.modCore f).cur = s.cur := rfl
@[simp] theorem State.modCore_curS (s : State) (f : Core → Core) : (s.modCore f).curS = s.curS := rfl
@[simp] theorem State.modCore_agenda (s : State) (f : Core → Core) : (s.modCore f).agenda = s.agenda := rfl
@[simp] theorem State.modCore_turn (s : State) (f : Core → Core) : (s.modCore f).turn = s.turn := rfl
@[simp] theorem State.modCore_freeCtr (s : State) (f : Core → Core) : (s.modCore f).freeCtr = s.freeCtr := rfl
@[simp] theorem State.modBank_mem (s : State) (f : Bank → Bank) : (s.modBank f).mem = s.mem := rfl
@[simp] theorem State.modBank_ctxs (s : State) (f : Bank → Bank) : (s.modBank f).ctxs = s.ctxs := rfl
@[simp] theorem State.modBank_parts (s : State) (f : Bank → Bank) : (s.modBank f).parts = s.parts := rfl
@[simp] theorem State.modBank_dev (s : State) (f : Bank → Bank) : (s.modBank f).dev = s.dev := rfl
@[simp] theorem State.modBank_cur (s : State) (f : Bank → Bank) : (s.modBank f).cur = s.cur := rfl
@[simp] theorem State.modBank_curS (s : State) (f : Bank → Bank) : (s.modBank f).curS = s.curS := rfl
@[simp] theorem State.modBank_agenda (s : State) (f : Bank → Bank) : (s.modBank f).agenda = s.agenda := rfl
@[simp] theorem State.modBank_turn (s : State) (f : Bank → Bank) : (s.modBank f).turn = s.turn := rfl
@[simp] theorem State.modBank_freeCtr (s : State) (f : Bank → Bank) : (s.modBank f).freeCtr = s.freeCtr := rfl
@[simp] theorem State.modStrandN_mem (s : State) (n : Fin 4) (f : Strand → Strand) : (s.modStrandN n f).mem = s.mem := rfl
@[simp] theorem State.modStrandN_ctxs (s : State) (n : Fin 4) (f : Strand → Strand) : (s.modStrandN n f).ctxs = s.ctxs := rfl
@[simp] theorem State.modStrandN_parts (s : State) (n : Fin 4) (f : Strand → Strand) : (s.modStrandN n f).parts = s.parts := rfl
@[simp] theorem State.modStrandN_dev (s : State) (n : Fin 4) (f : Strand → Strand) : (s.modStrandN n f).dev = s.dev := rfl
@[simp] theorem State.modStrandN_cur (s : State) (n : Fin 4) (f : Strand → Strand) : (s.modStrandN n f).cur = s.cur := rfl
@[simp] theorem State.modStrandN_curS (s : State) (n : Fin 4) (f : Strand → Strand) : (s.modStrandN n f).curS = s.curS := rfl
@[simp] theorem State.modStrandN_agenda (s : State) (n : Fin 4) (f : Strand → Strand) : (s.modStrandN n f).agenda = s.agenda := rfl
@[simp] theorem State.modStrandN_turn (s : State) (n : Fin 4) (f : Strand → Strand) : (s.modStrandN n f).turn = s.turn := rfl
@[simp] theorem State.modStrandN_freeCtr (s : State) (n : Fin 4) (f : Strand → Strand) : (s.modStrandN n f).freeCtr = s.freeCtr := rfl
@[simp] theorem State.modStrand_mem (s : State) (f : Strand → Strand) : (s.modStrand f).mem = s.mem := rfl
@[simp] theorem State.modStrand_ctxs (s : State) (f : Strand → Strand) : (s.modStrand f).ctxs = s.ctxs := rfl
@[simp] theorem State.modStrand_parts (s : State) (f : Strand → Strand) : (s.modStrand f).parts = s.parts := rfl
@[simp] theorem State.modStrand_dev (s : State) (f : Strand → Strand) : (s.modStrand f).dev = s.dev := rfl
@[simp] theorem State.modStrand_cur (s : State) (f : Strand → Strand) : (s.modStrand f).cur = s.cur := rfl
@[simp] theorem State.modStrand_curS (s : State) (f : Strand → Strand) : (s.modStrand f).curS = s.curS := rfl
@[simp] theorem State.modStrand_agenda (s : State) (f : Strand → Strand) : (s.modStrand f).agenda = s.agenda := rfl
@[simp] theorem State.modStrand_turn (s : State) (f : Strand → Strand) : (s.modStrand f).turn = s.turn := rfl
@[simp] theorem State.modStrand_freeCtr (s : State) (f : Strand → Strand) : (s.modStrand f).freeCtr = s.freeCtr := rfl
@[simp] theorem State.modStrands_mem (s : State) (f : Strand → Strand) : (s.modStrands f).mem = s.mem := rfl
@[simp] theorem State.modStrands_ctxs (s : State) (f : Strand → Strand) : (s.modStrands f).ctxs = s.ctxs := rfl
@[simp] theorem State.modStrands_parts (s : State) (f : Strand → Strand) : (s.modStrands f).parts = s.parts := rfl
@[simp] theorem State.modStrands_dev (s : State) (f : Strand → Strand) : (s.modStrands f).dev = s.dev := rfl
@[simp] theorem State.modStrands_cur (s : State) (f : Strand → Strand) : (s.modStrands f).cur = s.cur := rfl
@[simp] theorem State.modStrands_curS (s : State) (f : Strand → Strand) : (s.modStrands f).curS = s.curS := rfl
@[simp] theorem State.modStrands_agenda (s : State) (f : Strand → Strand) : (s.modStrands f).agenda = s.agenda := rfl
@[simp] theorem State.modStrands_turn (s : State) (f : Strand → Strand) : (s.modStrands f).turn = s.turn := rfl
@[simp] theorem State.modStrands_freeCtr (s : State) (f : Strand → Strand) : (s.modStrands f).freeCtr = s.freeCtr := rfl
@[simp] theorem State.modMat_mem (s : State) (f : Matrix → Matrix) : (s.modMat f).mem = s.mem := rfl
@[simp] theorem State.modMat_ctxs (s : State) (f : Matrix → Matrix) : (s.modMat f).ctxs = s.ctxs := rfl
@[simp] theorem State.modMat_parts (s : State) (f : Matrix → Matrix) : (s.modMat f).parts = s.parts := rfl
@[simp] theorem State.modMat_dev (s : State) (f : Matrix → Matrix) : (s.modMat f).dev = s.dev := rfl
@[simp] theorem State.modMat_cur (s : State) (f : Matrix → Matrix) : (s.modMat f).cur = s.cur := rfl
@[simp] theorem State.modMat_curS (s : State) (f : Matrix → Matrix) : (s.modMat f).curS = s.curS := rfl
@[simp] theorem State.modMat_agenda (s : State) (f : Matrix → Matrix) : (s.modMat f).agenda = s.agenda := rfl
@[simp] theorem State.modMat_turn (s : State) (f : Matrix → Matrix) : (s.modMat f).turn = s.turn := rfl
@[simp] theorem State.modMat_freeCtr (s : State) (f : Matrix → Matrix) : (s.modMat f).freeCtr = s.freeCtr := rfl
@[simp] theorem State.modTrap_mem (s : State) (f : TrapRegs → TrapRegs) : (s.modTrap f).mem = s.mem := rfl
@[simp] theorem State.modTrap_ctxs (s : State) (f : TrapRegs → TrapRegs) : (s.modTrap f).ctxs = s.ctxs := rfl
@[simp] theorem State.modTrap_parts (s : State) (f : TrapRegs → TrapRegs) : (s.modTrap f).parts = s.parts := rfl
@[simp] theorem State.modTrap_dev (s : State) (f : TrapRegs → TrapRegs) : (s.modTrap f).dev = s.dev := rfl
@[simp] theorem State.modTrap_cur (s : State) (f : TrapRegs → TrapRegs) : (s.modTrap f).cur = s.cur := rfl
@[simp] theorem State.modTrap_curS (s : State) (f : TrapRegs → TrapRegs) : (s.modTrap f).curS = s.curS := rfl
@[simp] theorem State.modTrap_agenda (s : State) (f : TrapRegs → TrapRegs) : (s.modTrap f).agenda = s.agenda := rfl
@[simp] theorem State.modTrap_turn (s : State) (f : TrapRegs → TrapRegs) : (s.modTrap f).turn = s.turn := rfl
@[simp] theorem State.modTrap_freeCtr (s : State) (f : TrapRegs → TrapRegs) : (s.modTrap f).freeCtr = s.freeCtr := rfl
@[simp] theorem State.modTask_mem (s : State) (f : Task → Task) : (s.modTask f).mem = s.mem := rfl
@[simp] theorem State.modTask_ctxs (s : State) (f : Task → Task) : (s.modTask f).ctxs = s.ctxs := rfl
@[simp] theorem State.modTask_parts (s : State) (f : Task → Task) : (s.modTask f).parts = s.parts := rfl
@[simp] theorem State.modTask_dev (s : State) (f : Task → Task) : (s.modTask f).dev = s.dev := rfl
@[simp] theorem State.modTask_cur (s : State) (f : Task → Task) : (s.modTask f).cur = s.cur := rfl
@[simp] theorem State.modTask_curS (s : State) (f : Task → Task) : (s.modTask f).curS = s.curS := rfl
@[simp] theorem State.modTask_agenda (s : State) (f : Task → Task) : (s.modTask f).agenda = s.agenda := rfl
@[simp] theorem State.modTask_turn (s : State) (f : Task → Task) : (s.modTask f).turn = s.turn := rfl
@[simp] theorem State.modTask_freeCtr (s : State) (f : Task → Task) : (s.modTask f).freeCtr = s.freeCtr := rfl
@[simp] theorem State.retire_mem (s : State) (n : Nat) : (s.retire n).mem = s.mem := rfl
@[simp] theorem State.retire_ctxs (s : State) (n : Nat) : (s.retire n).ctxs = s.ctxs := rfl
@[simp] theorem State.retire_parts (s : State) (n : Nat) : (s.retire n).parts = s.parts := rfl
@[simp] theorem State.retire_dev (s : State) (n : Nat) : (s.retire n).dev = s.dev := rfl
@[simp] theorem State.retire_cur (s : State) (n : Nat) : (s.retire n).cur = s.cur := rfl
@[simp] theorem State.retire_curS (s : State) (n : Nat) : (s.retire n).curS = s.curS := rfl
@[simp] theorem State.retire_agenda (s : State) (n : Nat) : (s.retire n).agenda = s.agenda := rfl
@[simp] theorem State.retire_turn (s : State) (n : Nat) : (s.retire n).turn = s.turn := rfl
@[simp] theorem State.retire_freeCtr (s : State) (n : Nat) : (s.retire n).freeCtr = s.freeCtr := rfl
@[simp] theorem State.jump_mem (s : State) (x : W64) : (s.jump x).mem = s.mem := rfl
@[simp] theorem State.jump_ctxs (s : State) (x : W64) : (s.jump x).ctxs = s.ctxs := rfl
@[simp] theorem State.jump_parts (s : State) (x : W64) : (s.jump x).parts = s.parts := rfl
@[simp] theorem State.jump_dev (s : State) (x : W64) : (s.jump x).dev = s.dev := rfl
@[simp] theorem State.jump_cur (s : State) (x : W64) : (s.jump x).cur = s.cur := rfl
@[simp] theorem State.jump_curS (s : State) (x : W64) : (s.jump x).curS = s.curS := rfl
@[simp] theorem State.jump_agenda (s : State) (x : W64) : (s.jump x).agenda = s.agenda := rfl
@[simp] theorem State.jump_turn (s : State) (x : W64) : (s.jump x).turn = s.turn := rfl
@[simp] theorem State.jump_freeCtr (s : State) (x : W64) : (s.jump x).freeCtr = s.freeCtr := rfl
@[simp] theorem State.setToken_mem (s : State) (n : Fin 4) (t : Fin 32) (st : TokSt) (c : BitVec 8) : (s.setToken n t st c).mem = s.mem := rfl
@[simp] theorem State.setToken_ctxs (s : State) (n : Fin 4) (t : Fin 32) (st : TokSt) (c : BitVec 8) : (s.setToken n t st c).ctxs = s.ctxs := rfl
@[simp] theorem State.setToken_parts (s : State) (n : Fin 4) (t : Fin 32) (st : TokSt) (c : BitVec 8) : (s.setToken n t st c).parts = s.parts := rfl
@[simp] theorem State.setToken_dev (s : State) (n : Fin 4) (t : Fin 32) (st : TokSt) (c : BitVec 8) : (s.setToken n t st c).dev = s.dev := rfl
@[simp] theorem State.setToken_cur (s : State) (n : Fin 4) (t : Fin 32) (st : TokSt) (c : BitVec 8) : (s.setToken n t st c).cur = s.cur := rfl
@[simp] theorem State.setToken_curS (s : State) (n : Fin 4) (t : Fin 32) (st : TokSt) (c : BitVec 8) : (s.setToken n t st c).curS = s.curS := rfl
@[simp] theorem State.setToken_agenda (s : State) (n : Fin 4) (t : Fin 32) (st : TokSt) (c : BitVec 8) : (s.setToken n t st c).agenda = s.agenda := rfl
@[simp] theorem State.setToken_turn (s : State) (n : Fin 4) (t : Fin 32) (st : TokSt) (c : BitVec 8) : (s.setToken n t st c).turn = s.turn := rfl
@[simp] theorem State.setToken_freeCtr (s : State) (n : Fin 4) (t : Fin 32) (st : TokSt) (c : BitVec 8) : (s.setToken n t st c).freeCtr = s.freeCtr := rfl
@[simp] theorem State.finishToken_mem (s : State) (n : Fin 4) (t : Fin 32) (c : Option (BitVec 8)) : (s.finishToken n t c).mem = s.mem := rfl
@[simp] theorem State.finishToken_ctxs (s : State) (n : Fin 4) (t : Fin 32) (c : Option (BitVec 8)) : (s.finishToken n t c).ctxs = s.ctxs := rfl
@[simp] theorem State.finishToken_parts (s : State) (n : Fin 4) (t : Fin 32) (c : Option (BitVec 8)) : (s.finishToken n t c).parts = s.parts := rfl
@[simp] theorem State.finishToken_dev (s : State) (n : Fin 4) (t : Fin 32) (c : Option (BitVec 8)) : (s.finishToken n t c).dev = s.dev := rfl
@[simp] theorem State.finishToken_cur (s : State) (n : Fin 4) (t : Fin 32) (c : Option (BitVec 8)) : (s.finishToken n t c).cur = s.cur := rfl
@[simp] theorem State.finishToken_curS (s : State) (n : Fin 4) (t : Fin 32) (c : Option (BitVec 8)) : (s.finishToken n t c).curS = s.curS := rfl
@[simp] theorem State.finishToken_agenda (s : State) (n : Fin 4) (t : Fin 32) (c : Option (BitVec 8)) : (s.finishToken n t c).agenda = s.agenda := rfl
@[simp] theorem State.finishToken_turn (s : State) (n : Fin 4) (t : Fin 32) (c : Option (BitVec 8)) : (s.finishToken n t c).turn = s.turn := rfl
@[simp] theorem State.finishToken_freeCtr (s : State) (n : Fin 4) (t : Fin 32) (c : Option (BitVec 8)) : (s.finishToken n t c).freeCtr = s.freeCtr := rfl
@[simp] theorem State.setV_mem (s : State) (r : Fin 32) (x : VReg) : (s.setV r x).mem = s.mem := rfl
@[simp] theorem State.setV_ctxs (s : State) (r : Fin 32) (x : VReg) : (s.setV r x).ctxs = s.ctxs := rfl
@[simp] theorem State.setV_parts (s : State) (r : Fin 32) (x : VReg) : (s.setV r x).parts = s.parts := rfl
@[simp] theorem State.setV_dev (s : State) (r : Fin 32) (x : VReg) : (s.setV r x).dev = s.dev := rfl
@[simp] theorem State.setV_cur (s : State) (r : Fin 32) (x : VReg) : (s.setV r x).cur = s.cur := rfl
@[simp] theorem State.setV_curS (s : State) (r : Fin 32) (x : VReg) : (s.setV r x).curS = s.curS := rfl
@[simp] theorem State.setV_agenda (s : State) (r : Fin 32) (x : VReg) : (s.setV r x).agenda = s.agenda := rfl
@[simp] theorem State.setV_turn (s : State) (r : Fin 32) (x : VReg) : (s.setV r x).turn = s.turn := rfl
@[simp] theorem State.setV_freeCtr (s : State) (r : Fin 32) (x : VReg) : (s.setV r x).freeCtr = s.freeCtr := rfl
@[simp] theorem State.setS_mem (s : State) (r : Fin 64) (x : W64) : (s.setS r x).mem = s.mem := by unfold State.setS; split <;> rfl
@[simp] theorem State.setK_mem (s : State) (r : Fin 8) (x : KReg) : (s.setK r x).mem = s.mem := by unfold State.setK; split <;> rfl
@[simp] theorem State.setS_ctxs (s : State) (r : Fin 64) (x : W64) : (s.setS r x).ctxs = s.ctxs := by unfold State.setS; split <;> rfl
@[simp] theorem State.setK_ctxs (s : State) (r : Fin 8) (x : KReg) : (s.setK r x).ctxs = s.ctxs := by unfold State.setK; split <;> rfl
@[simp] theorem State.setS_parts (s : State) (r : Fin 64) (x : W64) : (s.setS r x).parts = s.parts := by unfold State.setS; split <;> rfl
@[simp] theorem State.setK_parts (s : State) (r : Fin 8) (x : KReg) : (s.setK r x).parts = s.parts := by unfold State.setK; split <;> rfl
@[simp] theorem State.setS_dev (s : State) (r : Fin 64) (x : W64) : (s.setS r x).dev = s.dev := by unfold State.setS; split <;> rfl
@[simp] theorem State.setK_dev (s : State) (r : Fin 8) (x : KReg) : (s.setK r x).dev = s.dev := by unfold State.setK; split <;> rfl
@[simp] theorem State.setS_cur (s : State) (r : Fin 64) (x : W64) : (s.setS r x).cur = s.cur := by unfold State.setS; split <;> rfl
@[simp] theorem State.setK_cur (s : State) (r : Fin 8) (x : KReg) : (s.setK r x).cur = s.cur := by unfold State.setK; split <;> rfl
@[simp] theorem State.setS_curS (s : State) (r : Fin 64) (x : W64) : (s.setS r x).curS = s.curS := by unfold State.setS; split <;> rfl
@[simp] theorem State.setK_curS (s : State) (r : Fin 8) (x : KReg) : (s.setK r x).curS = s.curS := by unfold State.setK; split <;> rfl
@[simp] theorem State.setS_agenda (s : State) (r : Fin 64) (x : W64) : (s.setS r x).agenda = s.agenda := by unfold State.setS; split <;> rfl
@[simp] theorem State.setK_agenda (s : State) (r : Fin 8) (x : KReg) : (s.setK r x).agenda = s.agenda := by unfold State.setK; split <;> rfl
@[simp] theorem State.setS_turn (s : State) (r : Fin 64) (x : W64) : (s.setS r x).turn = s.turn := by unfold State.setS; split <;> rfl
@[simp] theorem State.setK_turn (s : State) (r : Fin 8) (x : KReg) : (s.setK r x).turn = s.turn := by unfold State.setK; split <;> rfl
@[simp] theorem State.setS_freeCtr (s : State) (r : Fin 64) (x : W64) : (s.setS r x).freeCtr = s.freeCtr := by unfold State.setS; split <;> rfl
@[simp] theorem State.setK_freeCtr (s : State) (r : Fin 8) (x : KReg) : (s.setK r x).freeCtr = s.freeCtr := by unfold State.setK; split <;> rfl
@[simp] theorem State.modDev_mem (s : State) (f : Dev → Dev) : (s.modDev f).mem = s.mem := rfl
@[simp] theorem State.modDev_ctxs (s : State) (f : Dev → Dev) : (s.modDev f).ctxs = s.ctxs := rfl
@[simp] theorem State.modDev_parts (s : State) (f : Dev → Dev) : (s.modDev f).parts = s.parts := rfl
@[simp] theorem State.modDev_cur (s : State) (f : Dev → Dev) : (s.modDev f).cur = s.cur := rfl
@[simp] theorem State.modDev_curS (s : State) (f : Dev → Dev) : (s.modDev f).curS = s.curS := rfl
@[simp] theorem State.modDev_agenda (s : State) (f : Dev → Dev) : (s.modDev f).agenda = s.agenda := rfl
@[simp] theorem State.modDev_turn (s : State) (f : Dev → Dev) : (s.modDev f).turn = s.turn := rfl
@[simp] theorem State.modDev_freeCtr (s : State) (f : Dev → Dev) : (s.modDev f).freeCtr = s.freeCtr := rfl
@[simp] theorem State.modDev_cores (s : State) (f : Dev → Dev) : (s.modDev f).cores = s.cores := rfl
@[simp] theorem State.modDev_dev (s : State) (f : Dev → Dev) : (s.modDev f).dev = f s.dev := rfl
@[simp] theorem State.modFab_mem (s : State) (f : Fabric → Fabric) : (s.modFab f).mem = s.mem := rfl
@[simp] theorem State.modFab_ctxs (s : State) (f : Fabric → Fabric) : (s.modFab f).ctxs = s.ctxs := rfl
@[simp] theorem State.modFab_parts (s : State) (f : Fabric → Fabric) : (s.modFab f).parts = s.parts := rfl
@[simp] theorem State.modFab_cur (s : State) (f : Fabric → Fabric) : (s.modFab f).cur = s.cur := rfl
@[simp] theorem State.modFab_curS (s : State) (f : Fabric → Fabric) : (s.modFab f).curS = s.curS := rfl
@[simp] theorem State.modFab_agenda (s : State) (f : Fabric → Fabric) : (s.modFab f).agenda = s.agenda := rfl
@[simp] theorem State.modFab_turn (s : State) (f : Fabric → Fabric) : (s.modFab f).turn = s.turn := rfl
@[simp] theorem State.modFab_freeCtr (s : State) (f : Fabric → Fabric) : (s.modFab f).freeCtr = s.freeCtr := rfl
@[simp] theorem State.modFab_cores (s : State) (f : Fabric → Fabric) : (s.modFab f).cores = s.cores := rfl
@[simp] theorem State.modFab_dev (s : State) (f : Fabric → Fabric) : (s.modFab f).dev = { s.dev with fab := f s.dev.fab } := rfl
@[simp] theorem State.modCtxOf_mem (s : State) (id : BitVec 12) (f : Ctx → Ctx) : (s.modCtxOf id f).mem = s.mem := rfl
@[simp] theorem State.modCtxOf_parts (s : State) (id : BitVec 12) (f : Ctx → Ctx) : (s.modCtxOf id f).parts = s.parts := rfl
@[simp] theorem State.modCtxOf_dev (s : State) (id : BitVec 12) (f : Ctx → Ctx) : (s.modCtxOf id f).dev = s.dev := rfl
@[simp] theorem State.modCtxOf_cur (s : State) (id : BitVec 12) (f : Ctx → Ctx) : (s.modCtxOf id f).cur = s.cur := rfl
@[simp] theorem State.modCtxOf_curS (s : State) (id : BitVec 12) (f : Ctx → Ctx) : (s.modCtxOf id f).curS = s.curS := rfl
@[simp] theorem State.modCtxOf_agenda (s : State) (id : BitVec 12) (f : Ctx → Ctx) : (s.modCtxOf id f).agenda = s.agenda := rfl
@[simp] theorem State.modCtxOf_turn (s : State) (id : BitVec 12) (f : Ctx → Ctx) : (s.modCtxOf id f).turn = s.turn := rfl
@[simp] theorem State.modCtxOf_freeCtr (s : State) (id : BitVec 12) (f : Ctx → Ctx) : (s.modCtxOf id f).freeCtr = s.freeCtr := rfl
@[simp] theorem State.modCtxOf_cores (s : State) (id : BitVec 12) (f : Ctx → Ctx) : (s.modCtxOf id f).cores = s.cores := rfl
@[simp] theorem State.modCtx_mem (s : State) (f : Ctx → Ctx) : (s.modCtx f).mem = s.mem := rfl
@[simp] theorem State.modCtx_parts (s : State) (f : Ctx → Ctx) : (s.modCtx f).parts = s.parts := rfl
@[simp] theorem State.modCtx_dev (s : State) (f : Ctx → Ctx) : (s.modCtx f).dev = s.dev := rfl
@[simp] theorem State.modCtx_cur (s : State) (f : Ctx → Ctx) : (s.modCtx f).cur = s.cur := rfl
@[simp] theorem State.modCtx_curS (s : State) (f : Ctx → Ctx) : (s.modCtx f).curS = s.curS := rfl
@[simp] theorem State.modCtx_agenda (s : State) (f : Ctx → Ctx) : (s.modCtx f).agenda = s.agenda := rfl
@[simp] theorem State.modCtx_turn (s : State) (f : Ctx → Ctx) : (s.modCtx f).turn = s.turn := rfl
@[simp] theorem State.modCtx_freeCtr (s : State) (f : Ctx → Ctx) : (s.modCtx f).freeCtr = s.freeCtr := rfl
@[simp] theorem State.modCtx_cores (s : State) (f : Ctx → Ctx) : (s.modCtx f).cores = s.cores := rfl
@[simp] theorem State.modPart_mem (s : State) (p : Fin 16) (f : Part → Part) : (s.modPart p f).mem = s.mem := rfl
@[simp] theorem State.modPart_ctxs (s : State) (p : Fin 16) (f : Part → Part) : (s.modPart p f).ctxs = s.ctxs := rfl
@[simp] theorem State.modPart_dev (s : State) (p : Fin 16) (f : Part → Part) : (s.modPart p f).dev = s.dev := rfl
@[simp] theorem State.modPart_cur (s : State) (p : Fin 16) (f : Part → Part) : (s.modPart p f).cur = s.cur := rfl
@[simp] theorem State.modPart_curS (s : State) (p : Fin 16) (f : Part → Part) : (s.modPart p f).curS = s.curS := rfl
@[simp] theorem State.modPart_agenda (s : State) (p : Fin 16) (f : Part → Part) : (s.modPart p f).agenda = s.agenda := rfl
@[simp] theorem State.modPart_turn (s : State) (p : Fin 16) (f : Part → Part) : (s.modPart p f).turn = s.turn := rfl
@[simp] theorem State.modPart_freeCtr (s : State) (p : Fin 16) (f : Part → Part) : (s.modPart p f).freeCtr = s.freeCtr := rfl
@[simp] theorem State.modPart_cores (s : State) (p : Fin 16) (f : Part → Part) : (s.modPart p f).cores = s.cores := rfl
@[simp] theorem State.modPart_part (s : State) (p : Fin 16) (f : Part → Part) : (s.modPart p f).part p = f (s.part p) := by simp [State.modPart, State.part]
@[simp] theorem State.modDev_core (s : State) (f : Dev → Dev) : (s.modDev f).core = s.core := rfl
@[simp] theorem State.modDev_bank (s : State) (f : Dev → Dev) : (s.modDev f).bank = s.bank := rfl
@[simp] theorem State.modDev_strand (s : State) (f : Dev → Dev) : (s.modDev f).strand = s.strand := rfl
@[simp] theorem State.modFab_core (s : State) (f : Fabric → Fabric) : (s.modFab f).core = s.core := rfl
@[simp] theorem State.modFab_bank (s : State) (f : Fabric → Fabric) : (s.modFab f).bank = s.bank := rfl
@[simp] theorem State.modFab_strand (s : State) (f : Fabric → Fabric) : (s.modFab f).strand = s.strand := rfl

/-! ## The core, its bank and the strand -/
@[simp] theorem State.setCore_core (s : State) (c : Core) : (s.setCore c).core = c := by simp [State.setCore, State.core]
theorem State.setCore_other (s : State) (c : Core) (i : Fin 256) (h : i ≠ s.cur) : (s.setCore c).cores[i] = s.cores[i] := by
  have h' : s.cur.val ≠ i.val := fun e => h (Fin.ext e.symm)
  simp [State.setCore, h']
theorem State.setCore_at (s : State) (c : Core) : (s.setCore c).cores[s.cur] = c := State.setCore_core s c
@[simp] theorem State.modCore_core (s : State) (f : Core → Core) : (s.modCore f).core = f s.core := State.setCore_core s _
theorem State.modCore_other (s : State) (f : Core → Core) (i : Fin 256) (h : i ≠ s.cur) : (s.modCore f).cores[i] = s.cores[i] :=
  State.setCore_other s _ i h
@[simp] theorem State.modBank_core (s : State) (f : Bank → Bank) : (s.modBank f).core = { s.core with bank := f s.core.bank } :=
  State.modCore_core s _
@[simp] theorem State.modBank_bank (s : State) (f : Bank → Bank) : (s.modBank f).bank = f s.bank := by
  simp [State.bank]
theorem State.modBank_other (s : State) (f : Bank → Bank) (i : Fin 256) (h : i ≠ s.cur) : (s.modBank f).cores[i] = s.cores[i] :=
  State.modCore_other s _ i h
@[simp] theorem State.modStrandN_bank (s : State) (n : Fin 4) (f : Strand → Strand) :
    (s.modStrandN n f).bank = { s.bank with strands := s.bank.strands.set n (f s.bank.strands[n]) } := State.modBank_bank s _
@[simp] theorem State.modStrand_bank (s : State) (f : Strand → Strand) :
    (s.modStrand f).bank = { s.bank with strands := s.bank.strands.set s.curS (f s.strand) } := State.modBank_bank s _
@[simp] theorem State.modStrand_strand (s : State) (f : Strand → Strand) : (s.modStrand f).strand = f s.strand := by
  show (s.modStrand f).bank.strands[s.curS] = _
  rw [State.modStrand_bank]; simp
theorem State.modStrandN_other (s : State) (n m : Fin 4) (f : Strand → Strand) (h : m ≠ n) :
    (s.modStrandN n f).bank.strands[m] = s.bank.strands[m] := by
  have h' : n.val ≠ m.val := fun e => h (Fin.ext e.symm)
  simp [h']
@[simp] theorem State.modMat_bank (s : State) (f : Matrix → Matrix) : (s.modMat f).bank = { s.bank with mat := f s.bank.mat } :=
  State.modBank_bank s _
@[simp] theorem State.modTrap_bank (s : State) (f : TrapRegs → TrapRegs) : (s.modTrap f).bank = { s.bank with trap := f s.bank.trap } :=
  State.modBank_bank s _
@[simp] theorem State.modTask_bank (s : State) (f : Task → Task) : (s.modTask f).bank = { s.bank with task := s.bank.task.map f } :=
  State.modBank_bank s _

/-! ## Updates of the same part -/
theorem State.setCore_setCore (s : State) (a b : Core) : (s.setCore a).setCore b = s.setCore b := by simp [State.setCore]
@[simp] theorem State.modCore_modCore (s : State) (f g : Core → Core) : (s.modCore f).modCore g = s.modCore fun c => g (f c) := by
  rw [State.modCore, State.modCore_core]; exact State.setCore_setCore s _ _
@[simp] theorem State.modBank_modBank (s : State) (f g : Bank → Bank) : (s.modBank f).modBank g = s.modBank fun b => g (f b) :=
  State.modCore_modCore s _ _
theorem State.modCore_bank_same (s : State) (f : Core → Core) (h : ∀ c, (f c).bank = c.bank) : (s.modCore f).bank = s.bank := by
  simp [State.bank, h]
theorem State.strand_eq (s : State) : s.strand = s.bank.strands[s.curS] := rfl
@[simp] theorem State.modMat_strand (s : State) (f : Matrix → Matrix) : (s.modMat f).strand = s.strand := by
  rw [State.strand, State.modMat_bank]; rfl
@[simp] theorem State.modTask_strand (s : State) (f : Task → Task) : (s.modTask f).strand = s.strand := by
  rw [State.strand, State.modTask_bank]; rfl
@[simp] theorem State.modTrap_strand (s : State) (f : TrapRegs → TrapRegs) : (s.modTrap f).strand = s.strand := by
  rw [State.strand, State.modTrap_bank]; rfl

/-! ## Registers (R49) -/
@[simp] theorem State.rs_zero (s : State) : s.rs 0 = 0 := rfl
@[simp] theorem State.rk_zero (s : State) : s.rk 0 = BitVec.allOnes 1024 := rfl
theorem State.setS_zero (s : State) (x : W64) : s.setS 0 x = s := rfl
theorem State.setK_zero (s : State) (x : KReg) : s.setK 0 x = s := rfl
theorem State.setS_strand (s : State) (r : Fin 64) (x : W64) :
    (s.setS r x).strand = if r = 0 then s.strand else { s.strand with s := s.strand.s.set r x } := by
  unfold State.setS; split <;> simp
theorem State.setK_strand (s : State) (r : Fin 8) (x : KReg) :
    (s.setK r x).strand = if r = 0 then s.strand else { s.strand with k := s.strand.k.set r x } := by
  unfold State.setK; split <;> simp
@[simp] theorem State.setV_strand (s : State) (r : Fin 32) (x : VReg) :
    (s.setV r x).strand = { s.strand with v := s.strand.v.set r x } := State.modStrand_strand s _
@[simp] theorem State.retire_strand (s : State) (n : Nat) : (s.retire n).strand = s.strand.retire n := State.modStrand_strand s _
@[simp] theorem State.jump_strand (s : State) (x : W64) : (s.jump x).strand = { s.strand with pc := x, wait := .none } :=
  State.modStrand_strand s _
@[simp] theorem Strand.retire_s (t : Strand) (n : Nat) : (t.retire n).s = t.s := rfl
@[simp] theorem Strand.retire_v (t : Strand) (n : Nat) : (t.retire n).v = t.v := rfl
@[simp] theorem Strand.retire_k (t : Strand) (n : Nat) : (t.retire n).k = t.k := rfl
@[simp] theorem Strand.retire_t (t : Strand) (n : Nat) : (t.retire n).t = t.t := rfl
@[simp] theorem Strand.retire_smode (t : Strand) (n : Nat) : (t.retire n).smode = t.smode := rfl
/-- A write of a scalar register is read back, but for s0; the others keep their values. -/
theorem State.rs_setS (s : State) (d r : Fin 64) (x : W64) : (s.setS d x).rs r = if r = d ∧ d ≠ 0 then x else s.rs r := by
  unfold State.rs
  rw [State.setS_strand]
  by_cases hd : d = 0
  · subst hd; simp
  · by_cases hr : r = 0
    · subst hr; simp [Ne.symm hd]
    · by_cases e : r = d
      · subst e; simp [hr]
      · have e' : d.val ≠ r.val := fun h => e (Fin.ext h.symm)
        simp [hd, hr, e, e']
@[simp] theorem State.rs_retire (s : State) (n : Nat) (r : Fin 64) : (s.retire n).rs r = s.rs r := by simp [State.rs]
@[simp] theorem State.rs_jump (s : State) (x : W64) (r : Fin 64) : (s.jump x).rs r = s.rs r := by simp [State.rs]
@[simp] theorem State.rk_retire (s : State) (n : Nat) (r : Fin 8) : (s.retire n).rk r = s.rk r := by simp [State.rk]

end Sys2Proof.Machine
end

