-- ==== Sys2Proof/Laws/Frames.lean ====
section
/-! SUPPORT. Frames: what the updates of a core, of its bank and of a strand leave unchanged, and what an instruction
that retires leaves. -/
namespace Sys2Proof.Machine

theorem OnlyCore.refl (s : State) : OnlyCore s s := ⟨fun _ => rfl, rfl, rfl, rfl, rfl, ⟨rfl, rfl, rfl, rfl, rfl⟩, fun _ _ => rfl⟩
theorem OnlyCore.trans {s t u : State} (a : OnlyCore s t) (b : OnlyCore t u) : OnlyCore s u where
  bytes k := (b.bytes k).trans (a.bytes k)
  marks := b.marks.trans a.marks
  ctxs := b.ctxs.trans a.ctxs
  parts := b.parts.trans a.parts
  dev := b.dev.trans a.dev
  place := by
    obtain ⟨h1, h2, h3, h4, h5⟩ := a.place
    obtain ⟨g1, g2, g3, g4, g5⟩ := b.place
    exact ⟨g1.trans h1, g2.trans h2, g3.trans h3, g4.trans h4, g5.trans h5⟩
  others c h := (b.others c (by rw [a.place.1]; exact h)).trans (a.others c h)
theorem OnlyCore.modCore (s : State) (f : Core → Core) : OnlyCore s (s.modCore f) :=
  ⟨fun _ => rfl, rfl, rfl, rfl, rfl, ⟨rfl, rfl, rfl, rfl, rfl⟩, State.modCore_other s f⟩
theorem OnlyBank.refl (s : State) : OnlyBank s s := ⟨OnlyCore.refl s, rfl⟩
theorem OnlyBank.trans {s t u : State} (a : OnlyBank s t) (b : OnlyBank t u) : OnlyBank s u :=
  ⟨a.core.trans b.core, by rw [b.rest, a.rest]⟩
theorem OnlyBank.modBank (s : State) (f : Bank → Bank) : OnlyBank s (s.modBank f) :=
  ⟨OnlyCore.modCore s _, by rw [State.modBank_core]; simp [State.bank]⟩
theorem OnlyStrand.refl (s : State) : OnlyStrand s s := ⟨OnlyBank.refl s, rfl, fun _ _ => rfl⟩
theorem OnlyStrand.trans {s t u : State} (a : OnlyStrand s t) (b : OnlyStrand t u) : OnlyStrand s u :=
  ⟨a.bank.trans b.bank, by rw [b.rest, a.rest],
    fun n h => (b.strands n (by rw [a.bank.core.place.2.1]; exact h)).trans (a.strands n h)⟩
theorem OnlyStrand.modStrand (s : State) (f : Strand → Strand) : OnlyStrand s (s.modStrand f) :=
  ⟨OnlyBank.modBank s (fun b => { b with strands := b.strands.set s.curS (f b.strands[s.curS]) }), by simp,
    fun n h => State.modStrandN_other s s.curS n f h⟩
theorem OnlyStrand.retire (s : State) (n : Nat) : OnlyStrand s (s.retire n) := OnlyStrand.modStrand s _
theorem OnlyStrand.jump (s : State) (x : W64) : OnlyStrand s (s.jump x) := OnlyStrand.modStrand s _
theorem OnlyStrand.setS (s : State) (r : Fin 64) (x : W64) : OnlyStrand s (s.setS r x) := by
  unfold State.setS; split
  · exact OnlyStrand.refl s
  · exact OnlyStrand.modStrand s _
theorem OnlyStrand.setK (s : State) (r : Fin 8) (x : KReg) : OnlyStrand s (s.setK r x) := by
  unfold State.setK; split
  · exact OnlyStrand.refl s
  · exact OnlyStrand.modStrand s _
theorem OnlyStrand.setV (s : State) (r : Fin 32) (x : VReg) : OnlyStrand s (s.setV r x) := OnlyStrand.modStrand s _
/-- A change of the strand that acts, and then an instruction of n parcels that retires. -/
theorem Retired.modStrand (s : State) (n : Nat) (f : Strand → Strand) : Retired s ((s.modStrand f).retire n) n f :=
  ⟨(OnlyStrand.modStrand s f).trans (OnlyStrand.retire _ n), by simp⟩
theorem Retired.setS (s : State) (n : Nat) (d : Fin 64) (x : W64) :
    Retired s ((s.setS d x).retire n) n (fun t => if d = 0 then t else { t with s := t.s.set d x }) :=
  ⟨(OnlyStrand.setS s d x).trans (OnlyStrand.retire _ n), by simp [State.setS_strand]⟩
theorem Retired.setK (s : State) (n : Nat) (d : Fin 8) (x : KReg) :
    Retired s ((s.setK d x).retire n) n (fun t => if d = 0 then t else { t with k := t.k.set d x }) :=
  ⟨(OnlyStrand.setK s d x).trans (OnlyStrand.retire _ n), by simp [State.setK_strand]⟩
theorem Retired.plain (s : State) (n : Nat) : Retired s (s.retire n) n id := ⟨OnlyStrand.retire s n, by simp⟩
/-- What stays the same in the bank when only the strand that acts changes: no trap is taken and the task goes on. -/
theorem OnlyStrand.noTrap {s t : State} (h : OnlyStrand s t) : NoTrap s t :=
  ⟨by rw [h.rest], by rw [h.rest]⟩

end Sys2Proof.Machine
end

