-- ==== Sys2Proof/Laws/Mem.lean ====
section
/-! SUPPORT. The laws of memory: the canonical form, reading after writing, and the overlays. -/
namespace Sys2Proof.Machine

/-! ## The canonical form -/
theorem cellsFrom_mono {lo lo' : Nat} (h : lo' ≤ lo) : ∀ {m : List Host.Cell}, cellsFrom lo m = true → cellsFrom lo' m = true
  | [], _ => rfl
  | (a, b) :: t, hm => by
    simp only [cellsFrom, Bool.and_eq_true, decide_eq_true_eq] at hm ⊢
    exact ⟨⟨by omega, hm.1.2⟩, hm.2⟩
theorem cellsFrom_cellSet (k : Nat) (b : Byte) : ∀ {m : List Host.Cell} {lo : Nat}, lo ≤ k → cellsFrom lo m = true →
    cellsFrom lo (cellSet m k b) = true
  | [], lo, hk, _ => by
    by_cases hb : b = 0#8 <;> simp [cellSet, cellsFrom, hb, hk]
  | (a, c) :: t, lo, hk, hm => by
    simp only [cellsFrom, Bool.and_eq_true, decide_eq_true_eq] at hm
    obtain ⟨⟨h1, h2⟩, h3⟩ := hm
    unfold cellSet
    split
    · split
      · exact cellsFrom_mono (by omega) h3
      · simp_all [cellsFrom]
    · split
      · split
        · simp [cellsFrom, h1, h3]; simpa using h2
        · have h4 : k + 1 ≤ a := by omega
          simp_all [cellsFrom]
      · simp only [cellsFrom, Bool.and_eq_true, decide_eq_true_eq]
        exact ⟨⟨h1, h2⟩, cellsFrom_cellSet k b (by omega) h3⟩
theorem Mem.wf_setByte {m : Mem} (k : Nat) (b : Byte) (h : m.wf = true) : (m.setByte k b).wf = true :=
  cellsFrom_cellSet k b (Nat.zero_le k) h
theorem Mem.wf_setBytes {m : Mem} (k : Nat) (l : List Byte) (h : m.wf = true) : (m.setBytes k l).wf = true := by
  induction l generalizing m k with
  | nil => exact h
  | cons b t ih => exact ih (k + 1) (Mem.wf_setByte k b h)
theorem State.wf_wr {s : State} (k : Nat) (b : Byte) (h : s.mem.wf = true) : (s.wr k b).mem.wf = true := by
  unfold State.wr; split
  · exact h
  · exact Mem.wf_setByte k b h
theorem State.wf_wrs {s : State} (k : Nat) (l : List Byte) (h : s.mem.wf = true) : (s.wrs k l).mem.wf = true := by
  induction l generalizing s k with
  | nil => exact h
  | cons b t ih => exact ih (k + 1) (State.wf_wr k b h)
theorem State.wf_setPois {s : State} (b : Nat) (p : Bool) (h : s.mem.wf = true) : (s.setPois b p).mem.wf = true := h
/-- An operation that keeps the canonical form keeps it through a fold. -/
theorem foldl_wf {α : Type} (f : State → α → State) (hf : ∀ s a, s.mem.wf = true → (f s a).mem.wf = true) :
    ∀ (l : List α) (s : State), s.mem.wf = true → (l.foldl f s).mem.wf = true
  | [], _, h => h
  | a :: t, s, h => foldl_wf f hf t (f s a) (hf s a h)
theorem State.wf_wrClean {s : State} (k : Nat) (l : List Byte) (h : s.mem.wf = true) : (s.wrClean k l).mem.wf = true :=
  foldl_wf _ (fun s _ h => State.wf_setPois (s := s) _ _ h) _ _ (State.wf_wrs k l h)

/-! ## Reading after writing -/
theorem cellAt_below {k : Nat} : ∀ {m : List Host.Cell} {lo : Nat}, cellsFrom lo m = true → k < lo → cellAt m k = 0
  | [], _, _, _ => rfl
  | (a, b) :: t, lo, hm, hk => by
    simp only [cellsFrom, Bool.and_eq_true, decide_eq_true_eq] at hm
    unfold cellAt
    rw [if_neg (by omega), if_pos (by omega)]
theorem cellAt_cellSet (k k' : Nat) (b : Byte) : ∀ {m : List Host.Cell} {lo : Nat}, cellsFrom lo m = true →
    cellAt (cellSet m k b) k' = if k' = k then b else cellAt m k'
  | [], lo, _ => by
    by_cases hb : b = 0#8 <;> by_cases hk : k' = k <;> simp [cellSet, cellAt, hb, hk]
    intro h; exact absurd h.symm hk
  | (a, c) :: t, lo, hm => by
    simp only [cellsFrom, Bool.and_eq_true, decide_eq_true_eq] at hm
    obtain ⟨⟨h1, h2⟩, h3⟩ := hm
    unfold cellSet
    split
    · rename_i e
      subst e
      split
      · rename_i hb
        by_cases hk : k' = a
        · subst hk; rw [cellAt_below h3 (by omega)]; simp [hb]
        · rw [if_neg hk]
          conv_rhs => unfold cellAt
          rw [if_neg (fun e => hk e.symm)]
          split
          · exact cellAt_below h3 (by omega)
          · rfl
      · unfold cellAt
        by_cases hk : k' = a
        · subst hk; simp
        · simp [hk, Ne.symm hk]
    · split
      · split
        · rename_i _ hlt hb
          by_cases hk : k' = k
          · subst hk; unfold cellAt; rw [if_neg (by omega), if_pos (by omega)]; simp [hb]
          · rw [if_neg hk]
        · rename_i _ hlt _
          by_cases hk : k' = k
          · subst hk; simp [cellAt]
          · rw [if_neg hk]
            conv_lhs => unfold cellAt
            rw [if_neg (fun e => hk e.symm)]
            split
            · rename_i hlt'; unfold cellAt; rw [if_neg (by omega), if_pos (by omega)]
            · rfl
      · rename_i hne hnlt
        conv_lhs => unfold cellAt
        rw [cellAt_cellSet k k' b h3]
        conv_rhs => rw [show cellAt ((a, c) :: t) k' = if a = k' then c else if k' < a then 0 else cellAt t k' from by rw [cellAt]]
        by_cases hk : k' = k
        · subst hk; rw [if_neg hne, if_neg hnlt]; simp
        · simp [hk]
/-- Whether a range of undefined bytes holds a key. -/
def inRange (k : Nat) (r : Nat × Nat × Nat) : Bool := decide (r.1 ≤ k) && decide (k < r.2.1)
theorem undefDrop_same (k : Nat) (l : List (Nat × Nat × Nat)) : (undefDrop k l).find? (inRange k) = none := by
  induction l with
  | nil => rfl
  | cons r t ih =>
    obtain ⟨lo, hi, n⟩ := r
    unfold undefDrop
    split
    · split <;> split <;> simp [inRange, ih]
    · rename_i h
      have : inRange k (lo, hi, n) = false := by
        simp only [inRange, Bool.and_eq_false_iff, decide_eq_false_iff_not]; omega
      simp [this, ih]
theorem undefDrop_other (k k' : Nat) (h : k' ≠ k) (l : List (Nat × Nat × Nat)) :
    ((undefDrop k l).find? (inRange k')).map (·.2.2) = (l.find? (inRange k')).map (·.2.2) := by
  induction l with
  | nil => rfl
  | cons r t ih =>
    obtain ⟨lo, hi, n⟩ := r
    unfold undefDrop
    split
    · rename_i hin
      by_cases hr : inRange k' (lo, hi, n) = true
      · simp only [inRange, Bool.and_eq_true, decide_eq_true_eq] at hr
        by_cases hlt : k' < k
        · rw [if_pos (by omega : lo < k)]
          have e : inRange k' (lo, k, n) = true := by simp [inRange]; omega
          have e2 : inRange k' (lo, hi, n) = true := by simp [inRange]; omega
          simp [e, e2]
        · have e : inRange k' (lo, k, n) = false := by simp [inRange]; omega
          have e1 : inRange k' (k + 1, hi, n) = true := by simp [inRange]; omega
          have e2 : inRange k' (lo, hi, n) = true := by simp [inRange]; omega
          rw [if_pos (by omega : k + 1 < hi)]
          split <;> simp [e, e1, e2]
      · have hr' : inRange k' (lo, hi, n) = false := by simpa using hr
        simp only [inRange, Bool.and_eq_false_iff, decide_eq_false_iff_not] at hr'
        have e : inRange k' (lo, k, n) = false := by simp [inRange]; omega
        have e1 : inRange k' (k + 1, hi, n) = false := by simp [inRange]; omega
        have e2 : inRange k' (lo, hi, n) = false := by simp [inRange]; omega
        split <;> split <;> simp [e, e1, e2, ih]
    · by_cases hr : inRange k' (lo, hi, n) = true
      · simp [hr]
      · simp [hr, ih]
theorem Mem.byte_eq (m : Mem) (k : Nat) : m.byte k =
    match (m.undef.find? (inRange k)).map (·.2.2) with
    | some n => Config.freeBits 8 (n * 2 ^ 90 + k)
    | none => cellAt m.cells k := by
  unfold Mem.byte
  show (match m.undef.find? (inRange k) with
    | some r => _
    | none => _) = _
  cases m.undef.find? (inRange k) <;> rfl
/-- A byte that was written reads as written, and every other byte as before. -/
theorem Mem.byte_setByte {m : Mem} (h : m.wf = true) (k k' : Nat) (b : Byte) :
    (m.setByte k b).byte k' = if k' = k then b else m.byte k' := by
  rw [Mem.byte_eq, Mem.byte_eq]
  show (match ((undefDrop k m.undef).find? (inRange k')).map (·.2.2) with
    | some n => _
    | none => cellAt (cellSet m.cells k b) k') = _
  by_cases e : k' = k
  · subst e; rw [undefDrop_same, if_pos rfl]
    show cellAt (cellSet m.cells k' b) k' = b
    rw [cellAt_cellSet k' k' b h, if_pos rfl]
  · rw [undefDrop_other k k' e, if_neg e, cellAt_cellSet k k' b h, if_neg e]
theorem State.rd_wr {s : State} (h : s.mem.wf = true) (k k' : Nat) (b : Byte) :
    (s.wr k b).rd k' = if k' = k ∧ s.deadLine k = false then b else s.rd k' := by
  unfold State.wr State.rd
  by_cases hd : s.deadLine k = true
  · simp [hd]
  · simp [hd, Mem.byte_setByte h]
theorem State.rd_setPois (s : State) (b : Nat) (p : Bool) (k : Nat) : (s.setPois b p).rd k = s.rd k := rfl
theorem State.wr_dead (s : State) (k : Nat) (b : Byte) : (s.wr k b).dev = s.dev := by unfold State.wr; split <;> rfl
theorem State.wrs_dev (s : State) (k : Nat) (l : List Byte) : (s.wrs k l).dev = s.dev := by
  induction l generalizing s k with
  | nil => rfl
  | cons b t ih => exact (ih (s.wr k b) (k + 1)).trans (State.wr_dead s k b)
/-- A write leaves every byte outside it as it was. -/
theorem State.rd_wrs_other {s : State} (h : s.mem.wf = true) (k k' : Nat) (l : List Byte) (hk : k' < k ∨ k + l.length ≤ k') :
    (s.wrs k l).rd k' = s.rd k' := by
  induction l generalizing s k with
  | nil => rfl
  | cons b t ih =>
    simp only [List.length_cons] at hk
    refine (ih (State.wf_wr k b h) (k + 1) (by omega)).trans ?_
    rw [State.rd_wr h]; simp; omega

/-! ## Overlays -/
theorem ovGet_ovSet (k k' : Nat) (b : Byte) : ∀ o : List Host.Cell,
    ovGet (ovSet o k b) k' = if k' = k then some b else ovGet o k'
  | [] => by
    by_cases h : k' = k
    · subst h; simp [ovSet, ovGet]
    · simp [ovSet, ovGet, h, Ne.symm h]
  | (a, c) :: t => by
    unfold ovSet
    split
    · rename_i e; subst e
      by_cases h : k' = a
      · subst h; simp [ovGet]
      · simp [ovGet, h, Ne.symm h]
    · split
      · by_cases h : k' = k
        · subst h; simp [ovGet]
        · simp only [ovGet, if_neg h, if_neg (fun e : k = k' => h e.symm)]
      · rename_i h1 h2
        conv_lhs => unfold ovGet
        rw [ovGet_ovSet k k' b t]
        by_cases h : k' = k
        · subst h; simp [h1]
        · simp [ovGet, h]
theorem ovGet_ovSets_other (k' : Nat) (l : List Byte) : ∀ (o : List Host.Cell) (k : Nat), k' < k ∨ k + l.length ≤ k' →
    ovGet (ovSets o k l) k' = ovGet o k' := by
  induction l with
  | nil => intro o k _; rfl
  | cons b t ih =>
    intro o k h
    simp only [List.length_cons] at h
    show ovGet (ovSets (ovSet o k b) (k + 1) t) k' = _
    rw [ih _ _ (by omega), ovGet_ovSet, if_neg (by omega)]
theorem ovGet_ovSets_in (l : List Byte) : ∀ (o : List Host.Cell) (k i : Nat) (h : i < l.length),
    ovGet (ovSets o k l) (k + i) = some l[i] := by
  induction l with
  | nil => intro o k i h; simp at h
  | cons b t ih =>
    intro o k i h
    show ovGet (ovSets (ovSet o k b) (k + 1) t) (k + i) = _
    cases i with
    | zero => rw [ovGet_ovSets_other _ _ _ _ (by omega), ovGet_ovSet]; simp
    | succ j =>
      have := ih (ovSet o k b) (k + 1) j (by simpa using h)
      rw [show k + (j + 1) = k + 1 + j by omega, this]; rfl
theorem toLe_length (n x : Nat) : (toLe n x).length = n := by
  induction n generalizing x with
  | zero => rfl
  | succ n ih => simp [toLe, ih]
theorem leNat_toLe (n x : Nat) : leNat (toLe n x) = x % 256 ^ n := by
  induction n generalizing x with
  | zero => simp [toLe, leNat]; omega
  | succ n ih =>
    simp only [toLe, leNat, ih, BitVec.toNat_ofNat]
    rw [show (256 : Nat) ^ (n + 1) = 256 * 256 ^ n from by rw [pow_succ, Nat.mul_comm], Nat.mod_mul]
theorem keysFrom_length (k n : Nat) : (keysFrom k n).length = n := by
  induction n generalizing k with
  | zero => rfl
  | succ n ih => simp [keysFrom, ih]

end Sys2Proof.Machine
end

