-- ==== Sys2Proof/Laws/Vector.lean ====
section
/-! SUPPORT. Rings and ports: what setRing, a pop and a push do, and what an instruction does that reads its operands
through `vecIn` and writes its result through `VIn.write`. -/
namespace Sys2Proof.Machine

/-- A bank in which only wake bits differ. -/
structure OnlyLatch (a b : Bank) : Prop where
  rest : b = { a with strands := b.strands }
  lat  : ∀ n : Fin 4, b.strands[n] = { a.strands[n] with latch := b.strands[n].latch }
theorem OnlyLatch.refl (a : Bank) : OnlyLatch a a := ⟨rfl, fun _ => rfl⟩
/-- The bank after the strands that have mapped a ring are woken. -/
def ringWake (id : BitVec 12) (n : BitVec 8) (b : Bank) : Bank :=
  if b.loaded && b.ctx == id then
    { b with strands := b.strands.map fun t => if t.pop = n ∨ t.push = n then { t with latch := t.latch ||| 8 } else t }
  else b
theorem ringWake_only (id : BitVec 12) (n : BitVec 8) (b : Bank) : OnlyLatch b (ringWake id n b) := by
  unfold ringWake
  split
  · refine ⟨rfl, fun m => ?_⟩
    simp only [Fin.getElem_fin, Vector.getElem_map]
    split <;> rfl
  · exact OnlyLatch.refl b
/-- What setRing does to the machine. -/
structure RingSet (s t : State) (id : BitVec 12) (r : Ring) : Prop where
  mem   : t.mem = s.mem
  parts : t.parts = s.parts
  dev   : t.dev = s.dev
  place : t.cur = s.cur ∧ t.curS = s.curS ∧ t.agenda = s.agenda ∧ t.turn = s.turn ∧ t.freeCtr = s.freeCtr
  ctxs  : t.ctxs.map (fun c => { c with rings := [], saved := [] }) = s.ctxs.map (fun c => { c with rings := [], saved := [] })
  rings : ∀ k, (t.ctxOf k).rings = if k = id ∧ (s.ctxs.any (·.id == id)) = true then r :: (s.ctxOf k).rings.filter (·.n != r.n) else (s.ctxOf k).rings
  cores : ∀ c : Fin 256, t.cores[c] = { s.cores[c] with bank := t.cores[c].bank, shadow := t.cores[c].shadow }
  banks : ∀ c : Fin 256, OnlyLatch s.cores[c].bank t.cores[c].bank
  woken : ((s.ctxOf id).ringOf r.n.toNat).slots.length ≠ r.slots.length → ∀ c : Fin 256, t.cores[c].bank = ringWake id r.n s.cores[c].bank

theorem ctxOf_modCtxOf (s : State) (id : BitVec 12) (f : Ctx → Ctx) (hf : ∀ c, (f c).id = c.id) (k : BitVec 12) :
    (s.modCtxOf id f).ctxOf k = if k = id ∧ (s.ctxs.any (·.id == id)) = true then f (s.ctxOf k) else s.ctxOf k := by
  unfold State.modCtxOf State.ctxOf
  simp only
  induction s.ctxs with
  | nil => simp
  | cons c l ih =>
    simp only [List.map_cons, List.find?_cons, List.any_cons]
    by_cases hc : c.id = id
    · subst hc
      simp only [if_true, hf]
      by_cases hk : c.id = k
      · subst hk; simp
      · have : ¬ k = c.id := fun e => hk e.symm
        simp only [this, false_and, if_false] at ih ⊢
        have e1 : (c.id == k) = false := by simp [hk]
        simp only [e1]
        exact ih
    · simp only [hc, if_false]
      by_cases hk : c.id = k
      · subst hk
        simp [hc]
      · have e1 : (c.id == k) = false := by simp [hk]
        have e2 : (c.id == id) = false := by simp [hc]
        simp only [e1, e2, Bool.false_or]
        exact ih
theorem setRing_does (s : State) (id : BitVec 12) (r : Ring) : RingSet s (s.setRing id r) id r := by
  have hmap : ∀ (l : List Ctx) (f : Ctx → Ctx), (∀ c, { f c with rings := [], saved := [] } = { c with rings := [], saved := [] }) →
      (l.map fun c => if c.id = id then f c else c).map (fun c => { c with rings := [], saved := [] }) = l.map (fun c => { c with rings := [], saved := [] }) := by
    intro l f hf
    rw [List.map_map]
    refine List.map_congr_left fun c _ => ?_
    simp only [Function.comp]
    split
    · exact hf c
    · rfl
  unfold State.setRing
  simp only
  split
  · rename_i h
    refine ⟨rfl, rfl, rfl, ⟨rfl, rfl, rfl, rfl, rfl⟩, ?_, ?_, fun _ => rfl, fun c => OnlyLatch.refl _, fun hn => absurd h.1 hn⟩
    · exact hmap _ _ fun c => rfl
    · intro k
      rw [ctxOf_modCtxOf _ _ _ (by intro c; rfl)]
      split <;> rfl
  · rename_i h
    refine ⟨rfl, rfl, rfl, ⟨rfl, rfl, rfl, rfl, rfl⟩, ?_, ?_, ?_, ?_, ?_⟩
    · refine (hmap _ _ ?_).trans (hmap _ _ ?_) <;> intro c <;> rfl
    · intro k
      unfold State.modBanksOf
      simp only
      rw [ctxOf_modCtxOf _ _ _ (by intro c; rfl)]
      have e : ∀ (x : Ctx) (l : List (Fin 256 × Bank)), ({ x with saved := l } : Ctx).rings = x.rings := fun _ _ => rfl
      have h2 := ctxOf_modCtxOf s id (fun c => { c with rings := r :: c.rings.filter (·.n != r.n) }) (by intro c; rfl) k
      split
      · rw [e]; 
        show ((s.modCtxOf id _).ctxOf k).rings = _
        rw [h2]; split <;> rfl
      · show ((s.modCtxOf id _).ctxOf k).rings = _
        rw [h2]; split <;> rfl
    · intro c; simp [State.modBanksOf, State.modCtxOf]
    · intro c
      have := ringWake_only id r.n s.cores[c].bank
      simpa [State.modBanksOf, State.modCtxOf, ringWake] using this
    · intro _ c
      simp [State.modBanksOf, State.modCtxOf, ringWake]
theorem RingSet.eq {s t : State} {id : BitVec 12} {r : Ring} (h : RingSet s t id r) : t = { s with ctxs := t.ctxs, cores := t.cores } := by
  obtain ⟨hm, hp, hd, ⟨h1, h2, h3, h4, h5⟩, -⟩ := h
  cases t; cases s; cases hm; cases hp; cases hd; cases h1; cases h2; cases h3; cases h4; cases h5; rfl
/-- The ring of a number after setRing. -/
theorem RingSet.ringOf_same {s t : State} {id : BitVec 12} {r : Ring} (h : RingSet s t id r) (hc : (s.ctxs.any (·.id == id)) = true) :
    (t.ctxOf id).ringOf r.n.toNat = r := by
  unfold Ctx.ringOf
  rw [h.rings id, if_pos ⟨rfl, hc⟩]
  simp
theorem RingSet.ringOf_other {s t : State} {id : BitVec 12} {r : Ring} (h : RingSet s t id r) (n : Nat) (hn : n ≠ r.n.toNat) :
    (t.ctxOf id).ringOf n = (s.ctxOf id).ringOf n := by
  unfold Ctx.ringOf
  rw [h.rings id]
  split
  · simp only [List.find?_cons]
    have : (r.n.toNat == n) = false := by simpa using fun e => hn e.symm
    rw [this]
    simp only
    congr 1
    generalize (s.ctxOf id).rings = l
    induction l with
    | nil => rfl
    | cons a l ih =>
      simp only [List.filter_cons, List.find?_cons]
      by_cases ha : a.n = r.n
      · have h1 : (a.n != r.n) = false := by simp [ha]
        have h2 : (a.n.toNat == n) = false := by rw [ha]; simpa using fun e => hn e.symm
        simp only [h1, h2]; simpa using ih
      · have h1 : (a.n != r.n) = true := by simp [ha]
        simp only [h1, if_true, List.find?_cons]
        rw [ih]
  · rfl
theorem Ctx.ringOf_n (c : Ctx) (n : Nat) (h : n < 256) : (c.ringOf n).n.toNat = n := by
  unfold Ctx.ringOf
  cases e : c.rings.find? fun r => r.n.toNat == n with
  | none => simp [Nat.mod_eq_of_lt h]
  | some r => simpa using List.find?_some e

/-! ## ringInfo reads memory, the context's tables and who holds the vaults -/
theorem walkFrom_mem (s : State) (cs : List Ctx) (co : Vector Core 256) (a : Acc) (va : Nat) (l : List (Nat × Nat × Nat × Option Nat)) (tbl : Nat) :
    walkFrom { s with ctxs := cs, cores := co } a va l tbl = walkFrom s a va l tbl := by
  induction l generalizing tbl with
  | nil => rfl
  | cons x l ih =>
    unfold walkFrom
    have e1 : ∀ k, ({ s with ctxs := cs, cores := co } : State).pois k = s.pois k := fun _ => rfl
    have e2 : ∀ k n, ({ s with ctxs := cs, cores := co } : State).rdN k n = s.rdN k n := fun _ _ => rfl
    simp only [e1, e2, ih]
theorem regionKey_mem (s : State) (cs : List Ctx) (co : Vector Core 256) (c : Ctx) (a : Acc) (addr i : Nat) :
    regionKey { s with ctxs := cs, cores := co } c a addr i = regionKey s c a addr i := by
  unfold regionKey walkOf
  simp only [walkFrom_mem]
  rfl
theorem regionEntry_mem (s : State) (cs : List Ctx) (co : Vector Core 256) (c : Ctx) (a : Acc) (addr i : Nat) :
    regionEntry { s with ctxs := cs, cores := co } c a addr i = regionEntry s c a addr i := by
  unfold regionEntry
  rw [regionKey_mem]
  rfl
theorem regionScan_mem (s : State) (cs : List Ctx) (co : Vector Core 256) (c : Ctx) (a : Acc) (addr n i : Nat) (f : List Region) :
    regionScan { s with ctxs := cs, cores := co } c a addr n i f = regionScan s c a addr n i f := by
  induction n generalizing i f with
  | zero => rfl
  | succ n ih => unfold regionScan; rw [regionEntry_mem]; simp only [ih]
theorem regionTable_mem (s : State) (cs : List Ctx) (co : Vector Core 256) (c : Ctx) (a : Acc) (addr : Nat) :
    regionTable { s with ctxs := cs, cores := co } c a addr = regionTable s c a addr := by
  unfold regionTable
  simp only [regionEntry_mem]
theorem regionOf_mem (s : State) (cs : List Ctx) (co : Vector Core 256) (c : Ctx) (a : Acc) (addr : Nat) :
    regionOf { s with ctxs := cs, cores := co } c a addr = regionOf s c a addr := by
  unfold regionOf
  rw [regionScan_mem, regionTable_mem]
theorem deviceKey_congr (s : State) (cs : List Ctx) (co : Vector Core 256)
    (hctx : let t : State := { s with ctxs := cs, cores := co }
      t.ctx.pgroot = s.ctx.pgroot)
    (hv : ∀ a, vaultOk { s with ctxs := cs, cores := co } a = vaultOk s a) (va : Nat) :
    deviceKey { s with ctxs := cs, cores := co } va = deviceKey s va := by
  unfold deviceKey walkOf
  rw [walkFrom_mem, hv va]
  rw [show ({ s with ctxs := cs, cores := co } : State).ctx.pgroot = s.ctx.pgroot from hctx]
theorem ringInfo_congr (s : State) (cs : List Ctx) (co : Vector Core 256)
    (hp : ({ s with ctxs := cs, cores := co } : State).ctx.pgroot = s.ctx.pgroot)
    (hr : ({ s with ctxs := cs, cores := co } : State).ctx.ringtab = s.ctx.ringtab)
    (ht : ({ s with ctxs := cs, cores := co } : State).ctx.rtab = s.ctx.rtab)
    (hv : ∀ a, vaultOk { s with ctxs := cs, cores := co } a = vaultOk s a) (n : Nat) :
    ringInfo { s with ctxs := cs, cores := co } n = ringInfo s n := by
  have hk := deviceKey_congr s cs co hp hv
  unfold ringInfo
  rw [hr]
  simp only [hk, hv]
  have hreg : ∀ a, regionAt { s with ctxs := cs, cores := co } .load a = regionAt s .load a := by
    intro a
    unfold regionAt
    rw [regionOf_mem]
    have hk2 : ∀ va i, regionKey s ({ s with ctxs := cs, cores := co } : State).ctx .load va i = regionKey s s.ctx .load va i := by
      intro va i; unfold regionKey walkOf rtabBase; rw [hp, ht]
    have he : ∀ va i, regionEntry s ({ s with ctxs := cs, cores := co } : State).ctx .load va i = regionEntry s s.ctx .load va i := by
      intro va i; unfold regionEntry; rw [hk2]
    have hs : ∀ va n i f, regionScan s ({ s with ctxs := cs, cores := co } : State).ctx .load va n i f = regionScan s s.ctx .load va n i f := by
      intro va n; induction n with
      | zero => intros; rfl
      | succ n ih => intro i f; unfold regionScan; rw [he]; simp only [ih]
    have ht2 : ∀ va, regionTable s ({ s with ctxs := cs, cores := co } : State).ctx .load va = regionTable s s.ctx .load va := by
      intro va; unfold regionTable rtabCount; simp only [he, ht]
    unfold regionOf
    rw [hs, ht2]; unfold rtabCount; rw [ht]
  simp only [hreg]
  rfl
/-- A valid ring belongs to an installed context. -/
theorem ringInfo_ctx (s : State) (n : Nat) (r : RingInfo) (h : ringInfo s n = some r) : (s.ctxs.any (·.id == s.bank.ctx)) = true := by
  by_contra hc
  have : s.ctx = { Ctx.reset with id := s.bank.ctx } := by
    unfold State.ctx State.ctxOf
    rw [List.find?_eq_none.mpr]
    · rfl
    · intro x hx hxx
      exact hc (List.any_eq_true.mpr ⟨x, hx, hxx⟩)
  unfold ringInfo at h
  simp only [this, Ctx.reset] at h
  split at h
  · cases h
  · rename_i h0
    simp at h0
/-- The number of a ring in use. -/
theorem ringInfo_lt (s : State) (n : Nat) (r : RingInfo) (h : ringInfo s n = some r) : 0 < n ∧ n < 256 := by
  unfold ringInfo at h
  simp only at h
  split at h
  · cases h
  · rename_i h0; simp only [not_or, Nat.not_lt] at h0; omega

/-! ## What a ring operation leaves -/
theorem escape_eq (s : State) : s.escape = s.modTask fun t => { t with escaped := true } := rfl
/-- The ring update, the escape mark, and a change of the strand that acts. -/
def ringed (s : State) (r : Ring) (f : Strand → Strand) : State := ((s.setRing s.bank.ctx r).escape).modStrand f

theorem ctx_of_bank (s t : State) (h : t.bank.ctx = s.bank.ctx) (hc : t.ctxs = s.ctxs) : t.ctx = s.ctx := by
  unfold State.ctx State.ctxOf; rw [h, hc]
theorem core_at (s : State) : s.core = s.cores[s.cur] := rfl

theorem bank_modStrand_other (s : State) (f : Strand → Strand) (c : Fin 256) (n : Fin 4) (h : ¬ (c = s.cur ∧ n = s.curS)) :
    (s.modStrand f).cores[c].bank.strands[n] = s.cores[c].bank.strands[n] := by
  by_cases hc : c = s.cur
  · subst hc
    have hn : n ≠ s.curS := fun e => h ⟨rfl, e⟩
    exact State.modStrandN_other s s.curS n f hn
  · show (s.modBank _).cores[c].bank.strands[n] = _
    rw [State.modBank_other _ _ _ hc]

theorem ringed_only (s : State) (r : Ring) (f : Strand → Strand) : OnlyRings s (ringed s r f) := by
  have h := setRing_does s s.bank.ctx r
  have e : ringed s r f = ((s.setRing s.bank.ctx r).modTask fun t => { t with escaped := true }).modStrand f := rfl
  rw [e]
  have heq := h.eq
  generalize s.setRing s.bank.ctx r = u at h heq
  generalize u.ctxs = cs at heq
  generalize u.cores = co at heq
  subst heq
  have hlat : OnlyLatch s.bank ({ s with ctxs := cs, cores := co } : State).bank := h.banks s.cur
  generalize hu : ({ s with ctxs := cs, cores := co } : State) = u at h hlat
  have hcur : u.cur = s.cur := by rw [← hu]
  have hcurS : u.curS = s.curS := by rw [← hu]
  have hcores : ∀ c : Fin 256, c ≠ s.cur → ((u.modTask fun t => { t with escaped := true }).modStrand f).cores[c] = u.cores[c] := by
    intro c hc
    rw [State.modStrand, State.modStrandN, State.modBank_other _ _ _ (by simpa [hcur] using hc), State.modTask,
      State.modBank_other _ _ _ (by simpa [hcur] using hc)]
  refine ⟨fun k => ?_, ?_, ?_, ?_, ?_, ?_, ?_, ?_, ?_, ?_⟩
  · simp [State.rd, h.mem]
  · simp [h.mem]
  · simp [h.parts]
  · simp [h.dev]
  · simpa using h.place
  · simpa using h.ctxs
  · intro c
    by_cases hc : c = s.cur
    · have : ((u.modTask fun t => { t with escaped := true }).modStrand f).cores[u.cur]
          = { u.cores[u.cur] with bank := ((u.modTask fun t => { t with escaped := true }).modStrand f).cores[u.cur].bank } := by
        exact (OnlyBank.trans (OnlyBank.modBank u _) (OnlyStrand.modStrand (u.modTask fun t => { t with escaped := true }) f).bank).rest
      have hcu : c = u.cur := hc.trans hcur.symm
      subst hcu
      rw [this, h.cores]
    · rw [hcores c hc]; exact h.cores c
  · intro c hc
    rw [hcores c hc]; exact (h.banks c).rest
  · rw [State.modStrand_bank, State.modTask_bank, hlat.rest]
  · intro c n hcn
    rw [bank_modStrand_other _ f c n (by simpa [hcur, hcurS] using hcn)]
    have : (u.modTask fun t => { t with escaped := true }).cores[c].bank.strands[n] = u.cores[c].bank.strands[n] := by
      by_cases hc : c = u.cur
      · subst hc
        have := State.modTask_bank u fun t => { t with escaped := true }
        show (u.modTask _).bank.strands[n] = _
        rw [this]; rfl
      · rw [State.modTask, State.modBank_other _ _ _ hc]
    rw [this]
    exact (h.banks c).lat n
theorem OnlyRings.trans {s t u : State} (a : OnlyRings s t) (b : OnlyRings t u) : OnlyRings s u where
  bytes k := (b.bytes k).trans (a.bytes k)
  poison := b.poison.trans a.poison
  parts := b.parts.trans a.parts
  dev := by rw [b.dev, a.dev]
  place := by
    obtain ⟨h1, h2, h3, h4, h5⟩ := a.place
    obtain ⟨g1, g2, g3, g4, g5⟩ := b.place
    exact ⟨g1.trans h1, g2.trans h2, g3.trans h3, g4.trans h4, g5.trans h5⟩
  ctxs := b.ctxs.trans a.ctxs
  cores c := by rw [b.cores c, a.cores c]
  banks c h := by rw [b.banks c (by rw [a.place.1]; exact h), a.banks c h]
  bank := by
    rw [b.bank, a.bank]
    simp [Option.map_map, Function.comp_def]
  others c n h := by rw [b.others c n (by rw [a.place.1, a.place.2.1]; exact h), a.others c n h]
/-- A change of the strand that acts, after a ring operation. -/
theorem OnlyRings.strand {s t u : State} (a : OnlyRings s t) (b : OnlyStrand t u) : OnlyRings s u where
  bytes k := (b.bank.core.bytes k).trans (a.bytes k)
  poison := b.bank.core.marks.trans a.poison
  parts := b.bank.core.parts.trans a.parts
  dev := by rw [b.bank.core.dev, a.dev]
  place := by
    obtain ⟨h1, h2, h3, h4, h5⟩ := a.place
    obtain ⟨g1, g2, g3, g4, g5⟩ := b.bank.core.place
    exact ⟨g1.trans h1, g2.trans h2, g3.trans h3, g4.trans h4, g5.trans h5⟩
  ctxs := by rw [b.bank.core.ctxs]; exact a.ctxs
  cores c := by
    by_cases hc : c = t.cur
    · subst hc
      have := b.bank.rest
      have h1 : u.cores[t.cur] = u.core := by
        show _ = u.cores[u.cur]
        simp only [b.bank.core.place.1]
      rw [h1, this, show t.core = t.cores[t.cur] from rfl, a.cores]
    · rw [b.bank.core.others c hc, a.cores c]
  banks c h := by rw [b.bank.core.others c (by rw [a.place.1]; exact h), a.banks c h]
  bank := by rw [b.rest, a.bank]
  others c n h := by
    have : u.cores[c].bank.strands[n] = t.cores[c].bank.strands[n] := by
      by_cases hc : c = t.cur
      · subst hc
        have hn : n ≠ t.curS := fun e => h ⟨a.place.1, e.trans a.place.2.1⟩
        have h1 : u.cores[t.cur] = u.core := by
          show _ = u.cores[u.cur]
          simp only [b.bank.core.place.1]
        rw [h1]
        exact b.strands n hn
      · rw [b.bank.core.others c hc]
    rw [this]; exact a.others c n h
theorem OnlyRings.send {s t : State} (a : OnlyRings s t) (m : Nat → Msg) : OnlyRings s (t.send m) where
  bytes k := a.bytes k
  poison := a.poison
  parts := a.parts
  dev := by
    show ({ t.dev with fab := _ } : Dev) = _
    rw [a.dev]; rfl
  place := a.place
  ctxs := a.ctxs
  cores := a.cores
  banks := a.banks
  bank := a.bank
  others := a.others

theorem ringed_strand (s : State) (r : Ring) (f : Strand → Strand) (hl : s.bank.loaded = true)
    (hn : r.n = s.strand.pop ∨ r.n = s.strand.push) (hr : (s.ctx.ringOf r.n.toNat).slots.length ≠ r.slots.length) :
    (ringed s r f).strand = f { s.strand with latch := s.strand.latch ||| 8 } := by
  have h := setRing_does s s.bank.ctx r
  have heq := h.eq
  have hw := h.woken hr s.cur
  have e : ringed s r f = ((s.setRing s.bank.ctx r).modTask fun t => { t with escaped := true }).modStrand f := rfl
  rw [e, State.modStrand_strand, State.modTask_strand]
  have h2 : (s.setRing s.bank.ctx r).strand = (s.setRing s.bank.ctx r).cores[s.cur].bank.strands[s.curS] := by
    rw [heq]; rfl
  rw [h2, hw]
  unfold ringWake
  have : (s.cores[s.cur].bank.loaded && s.cores[s.cur].bank.ctx == s.bank.ctx) = true := by
    have : s.cores[s.cur].bank.loaded = true := hl
    rw [this]; simp [State.bank, State.core]
  rw [if_pos this]
  simp only [Fin.getElem_fin, Vector.getElem_map]
  have h3 : s.cores[s.cur.val].bank.strands[s.curS.val] = s.strand := rfl
  rw [h3, if_pos]
  rcases hn with hn | hn
  · exact .inl hn.symm
  · exact .inr hn.symm
theorem ringed_ctx (s : State) (r : Ring) (f : Strand → Strand) (hc : (s.ctxs.any (·.id == s.bank.ctx)) = true) :
    (ringed s r f).ctx.ringOf r.n.toNat = r ∧ ∀ n, n ≠ r.n.toNat → (ringed s r f).ctx.ringOf n = s.ctx.ringOf n := by
  have h := setRing_does s s.bank.ctx r
  have hb : (ringed s r f).bank.ctx = s.bank.ctx := by rw [(ringed_only s r f).bank]
  have hx : (ringed s r f).ctxs = (s.setRing s.bank.ctx r).ctxs := rfl
  have hctx : (ringed s r f).ctx = (s.setRing s.bank.ctx r).ctxOf s.bank.ctx := by
    unfold State.ctx State.ctxOf; rw [hb, hx]
  rw [hctx]
  exact ⟨h.ringOf_same hc, fun n hn => h.ringOf_other n hn⟩
def popped (s : State) (rest : List RSlot) (ts : W64) : State :=
  ringed s { s.ctx.ringOf s.strand.pop.toNat with slots := rest } fun t => { t with rts := ts }

theorem popSlot_eq (s : State) (i : RingInfo) (n : Nat) (x : RSlot) (rest : List RSlot) (h : (s.ctx.ringOf n).slots = x :: rest) (hf : x.filled = true) :
    s.popSlot i n = some (ringed s { s.ctx.ringOf n with slots := rest } (fun t => { t with rts := x.ts }), BitVec.ofNat 4096 (s.rdN (i.slotKey x.ix) 512)) := by
  unfold State.popSlot State.ringOf
  simp only [h, hf, if_true]; rfl
theorem popSlot_none (s : State) (i : RingInfo) (n : Nat) (h : ∀ x rest, (s.ctx.ringOf n).slots = x :: rest → x.filled = false) :
    s.popSlot i n = none := by
  unfold State.popSlot State.ringOf
  simp only
  split
  · rename_i x rest hs
    rw [h x rest hs]; rfl
  · rfl

section
variable (s : State) (srcs : List (Fin 32)) (dst : Option (Fin 32)) (readsDst : Bool) (spans : List (Fin 32))
def breachP : Prop :=
  let pop := s.strand.pop.toNat
  let push := s.strand.push.toNat
  let pops := pop ≠ 0 ∧ (30 : Fin 32) ∈ srcs
  let pushes := push ≠ 0 ∧ dst = some 31
  (pop ≠ 0 ∧ (dst = some 30 ∨ (30 : Fin 32) ∈ spans)) ∨ (push ≠ 0 ∧ ((31 : Fin 32) ∈ srcs ∨ (31 : Fin 32) ∈ spans))
    ∨ (pushes ∧ readsDst = true) ∨ (pops ∧ ringInfo s pop = none) ∨ (pushes ∧ ringInfo s push = none)
theorem any_mem (l : List (Fin 32)) (r : Fin 32) : (l.any (· == r)) = decide (r ∈ l) := by
  induction l with
  | nil => rfl
  | cons a l ih =>
    rw [List.any_cons, ih]
    by_cases h : a = r
    · subst h; simp
    · have : ¬ r = a := fun e => h e.symm
      simp [h, this]
theorem breach_iff :
    ((s.strand.pop.toNat != 0 && (dst == some 30 || spans.any (· == 30))) || (s.strand.push.toNat != 0 && (srcs.any (· == 31) || spans.any (· == 31)))
      || ((s.strand.push.toNat != 0 && dst == some 31) && readsDst)
      || ((s.strand.pop.toNat != 0 && srcs.any (· == 30)) && (ringInfo s s.strand.pop.toNat).isNone)
      || ((s.strand.push.toNat != 0 && dst == some 31) && (ringInfo s s.strand.push.toNat).isNone)) = true ↔ breachP s srcs dst readsDst spans := by
  unfold breachP
  simp only [any_mem]
  generalize s.strand.pop.toNat = p
  generalize s.strand.push.toNat = q
  generalize ringInfo s p = a
  generalize ringInfo s q = b
  simp only [Bool.or_eq_true, Bool.and_eq_true, bne_iff_ne, ne_eq, beq_iff_eq, decide_eq_true_eq, Option.isNone_iff_eq_none, and_assoc, or_assoc]
theorem vecIn_breach (h : breachP s srcs dst readsDst spans) :
    ∃ info, s.vecIn srcs dst readsDst spans = .error (.trap 0x0B info) := by
  unfold State.vecIn
  simp only
  rw [if_pos ((breach_iff s srcs dst readsDst spans).mpr h)]
  exact ⟨_, rfl⟩
theorem vecIn_ok (h : ¬ breachP s srcs dst readsDst spans)
    (hpush : s.strand.push.toNat ≠ 0 ∧ dst = some 31 → ∀ rg, ringInfo s s.strand.push.toNat = some rg → (s.ctx.ringOf s.strand.push.toNat).slots.length < rg.depth) :
    s.vecIn srcs dst readsDst spans =
      if s.strand.pop.toNat ≠ 0 ∧ (30 : Fin 32) ∈ srcs then
        match (ringInfo s s.strand.pop.toNat).bind fun i => s.popSlot i s.strand.pop.toNat with
        | some (t, d) => .ok ⟨t, d⟩
        | none => .error (.wait .other)
      else .ok ⟨s, s.strand.v[30]⟩ := by
  unfold State.vecIn
  simp only
  rw [if_neg (fun hb => h ((breach_iff s srcs dst readsDst spans).mp hb)), if_neg]
  · simp only [any_mem, Bool.and_eq_true, bne_iff_ne, ne_eq, decide_eq_true_eq]
    all_goals congr
  · split
    · rename_i rg hrg
      simp only [Bool.and_eq_true, bne_iff_ne, ne_eq, beq_iff_eq, Ring.free, State.ringOf]
      intro ⟨hp, h0⟩
      have := hpush hp rg hrg
      omega
    · simp
end
theorem write_plain (io : VIn) (d : Fin 32) (x : VReg) (h : ¬ (io.s.strand.push.toNat ≠ 0 ∧ d = 31)) : io.write d x = io.s.setV d x := by
  unfold VIn.write
  simp only
  rw [if_neg (fun e => h ⟨e.2, e.1⟩)]
theorem write_push (io : VIn) (x : VReg) (rg : RingInfo) (h : io.s.strand.push.toNat ≠ 0) (hr : ringInfo io.s io.s.strand.push.toNat = some rg) :
    io.write 31 x = io.s.pushSlot rg io.s.strand.push.toNat x := by
  unfold VIn.write
  simp only
  rw [if_pos ⟨trivial, h⟩, hr]
theorem old_plain (io : VIn) (d : Fin 32) (h : ¬ (io.s.strand.push.toNat ≠ 0 ∧ d = 31)) : io.old d = io.s.strand.v[d] := by
  unfold VIn.old
  rw [if_neg]
  rintro ⟨h1, h2⟩
  refine h ⟨fun e => h2 (BitVec.eq_of_toNat_eq (by simpa using e)), h1⟩
theorem old_push (io : VIn) (h : io.s.strand.push.toNat ≠ 0) : io.old 31 = 0 := by
  unfold VIn.old
  rw [if_pos]
  exact ⟨rfl, fun e => h (by rw [e]; rfl)⟩
theorem modStrand_id (s : State) : s.modStrand (fun t => t) = s := by
  have h1 : s.bank.strands.set s.curS s.bank.strands[s.curS] = s.bank.strands := Vector.set_getElem_self _
  have h2 : s.cores.set s.cur s.core = s.cores := Vector.set_getElem_self _
  show ({ s with cores := s.cores.set s.cur { s.core with bank := { s.bank with strands := s.bank.strands.set s.curS s.bank.strands[s.curS] } } } : State) = s
  rw [h1]
  show ({ s with cores := s.cores.set s.cur s.core } : State) = s
  rw [h2]
/-- The first element of a filtered range. -/
theorem filter_range_first (p : Nat → Bool) (g : Nat → Nat) (n : Nat) (h : ∃ j < n, p (g j) = true) :
    ∃ j < n, ∃ rest, ((List.range n).map g).filter p = g j :: rest ∧ p (g j) = true ∧ ∀ i < j, p (g i) = false := by
  induction n with
  | zero => obtain ⟨j, h, -⟩ := h; omega
  | succ n ih =>
    rw [List.range_succ, List.map_append, List.filter_append]
    by_cases hn : ∃ j < n, p (g j) = true
    · obtain ⟨j, hj, rest, he, hp, hi⟩ := ih hn
      exact ⟨j, by omega, _, by rw [he]; rfl, hp, hi⟩
    · have hn : ∀ i < n, ¬ p (g i) = true := fun i hi h => hn ⟨i, hi, h⟩
      obtain ⟨j, hj, hp⟩ := h
      have : j = n := by
        by_contra hne
        exact hn j (by omega) hp
      subst this
      have h0 : ((List.range j).map g).filter p = [] := by
        rw [List.filter_eq_nil_iff]
        intro a ha
        obtain ⟨i, hi, rfl⟩ := List.mem_map.mp ha
        exact hn i (List.mem_range.mp hi)
      exact ⟨j, by omega, [], by rw [h0]; simp [hp], hp, fun i hi => by simpa using hn i hi⟩
/-- A ring with fewer reserved slots than slots has a free one, and the first of them is the next to be reserved. -/
theorem freeSlots_first (s : State) (rg : RingInfo) (n : Nat) (r : Ring) (hn : r.next = (s.ctx.ringOf n).next) (h : r.slots.length < rg.depth) :
    ∃ ix rest, r.freeSlots rg.depth = ix :: rest ∧ NextSlot s rg n r.slots ix := by
  have hfree : ∃ j < rg.depth, (!r.slots.any fun x => x.ix == (r.next + j) % rg.depth) = true := by
    by_contra hc
    have hc : ∀ j < rg.depth, (r.slots.any fun x => x.ix == (r.next + j) % rg.depth) = true := by
      intro j hj
      by_contra h
      exact hc ⟨j, hj, by simpa using h⟩
    have hsub : (Finset.range rg.depth).image (fun j => (r.next + j) % rg.depth) ⊆ (r.slots.map (·.ix)).toFinset := by
      intro a ha
      obtain ⟨j, hj, rfl⟩ := Finset.mem_image.mp ha
      have := hc j (Finset.mem_range.mp hj)
      simp only [List.any_eq_true, beq_iff_eq] at this
      obtain ⟨x, hx, e⟩ := this
      exact List.mem_toFinset.mpr (List.mem_map.mpr ⟨x, hx, e⟩)
    have hinj : Set.InjOn (fun j => (r.next + j) % rg.depth) (Finset.range rg.depth : Set Nat) := by
      intro a ha b hb hab
      simp only [Finset.coe_range, Set.mem_Iio] at ha hb
      have h1 : a ≡ b [MOD rg.depth] := Nat.ModEq.add_left_cancel' r.next hab
      have h2 : a % rg.depth = b % rg.depth := h1
      rwa [Nat.mod_eq_of_lt ha, Nat.mod_eq_of_lt hb] at h2
    have h1 := Finset.card_le_card hsub
    rw [Finset.card_image_of_injOn hinj, Finset.card_range] at h1
    have h2 := List.toFinset_card_le (r.slots.map (·.ix))
    rw [List.length_map] at h2
    omega
  obtain ⟨j, hj, rest, he, hp, hi⟩ :=
    filter_range_first (fun ix => !r.slots.any fun x => x.ix == ix) (fun i => (r.next + i) % rg.depth) rg.depth hfree
  refine ⟨_, rest, he, j, hj, ?_, ?_, ?_⟩
  · rw [hn]
  · intro x hx e
    simp only [Bool.not_eq_true', List.any_eq_false, beq_iff_eq] at hp
    exact hp x hx e
  · intro i hij
    have := hi i hij
    simp only [Bool.not_eq_false', List.any_eq_true, beq_iff_eq] at this
    rw [← hn]; exact this
theorem pushSlot_eq (s : State) (i : RingInfo) (n : Nat) (x : VReg) :
    s.pushSlot i n x = (ringed s ((s.ctx.ringOf n).reserve i.depth 1 0) (fun t => t)).send fun id =>
      { (ringed s ((s.ctx.ringOf n).reserve i.depth 1 0) (fun t => t)).msg0 5 (fin 256 (i.base / 2 ^ 24)) id with
        addr := i.slotKey (((s.ctx.ringOf n).freeSlots i.depth).headD (s.ctx.ringOf n).next), data := toLe 512 x.toNat ++ toLe 8 (ringed s ((s.ctx.ringOf n).reserve i.depth 1 0) (fun t => t)).mts.toNat
        rel := true, ref := n, count := ((s.ctx.ringOf n).freeSlots i.depth).headD (s.ctx.ringOf n).next } := by
  unfold ringed
  rw [modStrand_id]; rfl
theorem ringInfo_ringed (s : State) (r : Ring) (f : Strand → Strand) (n : Nat) : ringInfo (ringed s r f) n = ringInfo s n := by
  have ho := ringed_only s r f
  have hdev : (ringed s r f).dev = s.dev := by
    have := (setRing_does s s.bank.ctx r).dev
    exact this
  have heq : ringed s r f = { s with ctxs := (ringed s r f).ctxs, cores := (ringed s r f).cores } := by
    have h := (setRing_does s s.bank.ctx r).eq
    generalize hcs : (ringed s r f).ctxs = cs
    generalize hco : (ringed s r f).cores = co
    have h1 : (ringed s r f).ctxs = (s.setRing s.bank.ctx r).ctxs := rfl
    unfold ringed at hco hcs ⊢
    rw [h] at hco hcs ⊢
    unfold State.escape State.modTask State.modStrand State.modStrandN State.modBank State.modCore State.setCore at *
    simp only at *
    rw [hco]
    rw [← hcs]
  have hfields : ∀ c : Ctx, ∀ l : List Ctx, True := fun _ _ => trivial
  have hctx : (fun c : Ctx => ({ c with rings := [], saved := [] } : Ctx)) (ringed s r f).ctx = (fun c : Ctx => ({ c with rings := [], saved := [] } : Ctx)) s.ctx := by
    have hb : (ringed s r f).bank.ctx = s.bank.ctx := by rw [ho.bank]
    have key : ∀ (l l' : List Ctx) (k : BitVec 12), l.map (fun c => ({ c with rings := [], saved := [] } : Ctx)) = l'.map (fun c => ({ c with rings := [], saved := [] } : Ctx)) →
        (fun c : Ctx => ({ c with rings := [], saved := [] } : Ctx)) ((l.find? (·.id == k)).getD { Ctx.reset with id := k })
          = (fun c : Ctx => ({ c with rings := [], saved := [] } : Ctx)) ((l'.find? (·.id == k)).getD { Ctx.reset with id := k }) := by
      intro l
      induction l with
      | nil => intro l' k h; cases l' with
        | nil => rfl
        | cons a b => simp at h
      | cons a l ih => intro l' k h; cases l' with
        | nil => simp at h
        | cons a' l' =>
          simp only [List.map_cons, List.cons.injEq] at h
          have hid : a.id = a'.id := by have := congrArg Ctx.id h.1; exact this
          simp only [List.find?_cons, hid]
          cases a'.id == k
          · exact ih l' k h.2
          · exact h.1
    unfold State.ctx State.ctxOf
    rw [hb]
    exact key _ _ _ ho.ctxs
  rw [heq]
  apply ringInfo_congr
  · rw [← heq]; have := congrArg Ctx.pgroot hctx; exact this
  · rw [← heq]; have := congrArg Ctx.ringtab hctx; exact this
  · rw [← heq]; have := congrArg Ctx.rtab hctx; exact this
  · intro a
    rw [← heq]
    have h1 : ∀ c : Fin 256, (ringed s r f).cores[c].vaultPart = s.cores[c].vaultPart := fun c => by rw [ho.cores c]
    have h2 : ∀ c : Fin 256, (ringed s r f).cores[c].vaultGone = s.cores[c].vaultGone := fun c => by rw [ho.cores c]
    have h3 : (ringed s r f).core.part = s.core.part := by
      show (ringed s r f).cores[(ringed s r f).cur].part = s.cores[s.cur].part
      rw [show (ringed s r f).cores[(ringed s r f).cur].part = s.cores[(ringed s r f).cur].part from by rw [ho.cores]]
      simp only [ho.place.1]
    unfold vaultOk
    rw [h3]
    simp only [h1, h2]
/-- A push from a state u whose ring and strand are known. -/
theorem push_does (s u : State) (rg : RingInfo) (q : Nat) (X : VReg) (f : Strand → Strand) (n : Nat) (slots : List RSlot)
    (hq : q = u.strand.push.toNat) (hr : ringInfo u q = some rg) (hl : u.bank.loaded = true)
    (hs : (u.ctx.ringOf q).slots = slots) (hfree : slots.length < rg.depth) (hnext : (u.ctx.ringOf q).next = (s.ctx.ringOf q).next) (hdev : u.dev = s.dev) (hcur : u.cur = s.cur)
    (hmts : (u.bank.task.map (·.mts)) = s.bank.task.map (·.mts)) :
    let t := ((u.pushSlot rg q X).modStrand f).retire n
    OnlyRings u t ∧ Pushed s t rg q slots X ∧ t.strand = (f { u.strand with latch := u.strand.latch ||| 8 }).retire n
      ∧ ∀ k, k ≠ q → t.ctx.ringOf k = u.ctx.ringOf k := by
  have hlt := ringInfo_lt u _ _ hr
  have hrn : (u.ctx.ringOf q).n.toNat = q := Ctx.ringOf_n _ _ hlt.2
  obtain ⟨ix, rest, hix, hnx⟩ := freeSlots_first s rg q (u.ctx.ringOf q) hnext (by rw [hs]; exact hfree)
  rw [hs] at hnx
  simp only
  rw [pushSlot_eq, hix, List.headD_cons]
  have ho := ringed_only u ((u.ctx.ringOf q).reserve rg.depth 1 0) (fun t => t)
  have hst := ringed_strand u ((u.ctx.ringOf q).reserve rg.depth 1 0) (fun t => t) hl
    (.inr (BitVec.eq_of_toNat_eq (hrn.trans hq))) (by
      show (u.ctx.ringOf (u.ctx.ringOf q).n.toNat).slots.length ≠ _
      rw [hrn]; simp [Ring.reserve, hix])
  have hcx := ringed_ctx u ((u.ctx.ringOf q).reserve rg.depth 1 0) (fun t => t) (ringInfo_ctx u _ _ hr)
  have hd2 : (ringed u ((u.ctx.ringOf q).reserve rg.depth 1 0) (fun t => t)).dev = u.dev := (setRing_does u u.bank.ctx _).dev
  have hm2 : (ringed u ((u.ctx.ringOf q).reserve rg.depth 1 0) (fun t => t)).mts = u.mts := by
    unfold State.mts; rw [ho.bank]; simp [Option.map_map, Function.comp_def]
  have hsr : ∀ k, (u.ctx.ringOf q).reserve rg.depth 1 0 = k → k.slots = slots ++ [⟨ix, false, 0⟩] := by
    intro k hk; rw [← hk]; simp [Ring.reserve, hs, hix]
  have hrn2 : ((u.ctx.ringOf q).reserve rg.depth 1 0).n.toNat = q := hrn
  rw [hrn2] at hcx
  generalize ringed u ((u.ctx.ringOf q).reserve rg.depth 1 0) (fun t => t) = w at *
  generalize hM : (fun id => ({ w.msg0 5 (fin 256 (rg.base / 2 ^ 24)) id with
        addr := rg.slotKey ix, data := toLe 512 X.toNat ++ toLe 8 w.mts.toNat
        rel := true, ref := q, count := ix } : Msg)) = M
  have hos : OnlyStrand (w.send M) (((w.send M).modStrand f).retire n) := (OnlyStrand.modStrand _ f).trans (OnlyStrand.retire _ n)
  have hctx : (((w.send M).modStrand f).retire n).ctx = w.ctx := ctx_of_bank _ _ (by rw [hos.rest]; rfl) hos.bank.core.ctxs
  refine ⟨(ho.send M).strand hos, ⟨ix, hnx, ⟨0, ?_⟩, ?_⟩, ?_, ?_⟩
  · rw [hctx, hcx.1, hsr _ rfl]
  · refine ⟨M w.dev.fab.nextMsg, ?_, ?_, ?_, ?_, ?_, ?_, ?_⟩
    · rw [hos.bank.core.dev, ← hdev, ← hd2]; rfl
    · rw [← hM]; rfl
    · rw [← hM, ← hcur, ← ho.place.1]; rfl
    · rw [← hM]
    · rw [← hM]
    · rw [← hM]
    · rw [← hM]; simp only; rw [hm2]; unfold State.mts; rw [hmts]
      cases s.bank.task <;> rfl
  · simp only [State.retire_strand, State.modStrand_strand]
    rw [show (w.send M).strand = w.strand from rfl, hst]
  · intro k hk; rw [hctx]; exact hcx.2 k hk
section
variable {s : State} {i : Instr} {n : Nat} {srcs : List (Fin 32)} {dst : Option (Fin 32)} {readsDst : Bool} {spans : List (Fin 32)}
  {P : (Fin 32 → VReg) → VReg → VReg → (Strand → Strand) → Prop}
/-- An instruction that ends as `vecIn`, a result for dst and a change of the other registers do what VecDoes says. -/
theorem vecDoes_of (G : VIn → State) (X : VIn → VReg) (F : VIn → Strand → Strand)
    (he : exec i s = match s.vecIn srcs dst readsDst spans with
      | .error e => s.stop e
      | .ok io => .next ((G io).retire n))
    (hG : ∀ io, G io = (match dst with | some d => io.write d (X io) | none => io.s).modStrand (F io))
    (hP : ∀ io old, io.s.strand.s = s.strand.s → io.s.strand.v = s.strand.v → io.s.strand.k = s.strand.k → io.s.strand.rmode = s.strand.rmode →
      (∀ d, dst = some d → io.old d = old) → P io.v old (X io) (F io)) :
    VecDoes s i n srcs dst readsDst spans P := by
  unfold VecDoes
  simp only
  refine ⟨fun hb => ?_, fun hb hp hq => ?_, fun hb hw => ?_, fun hb hp hq hl rg x rest hr hs hf => ?_, fun hb hq hl rg hr hfree => ⟨fun hp => ?_, fun hp rp x rest hrp hs hf => ?_⟩⟩
  · obtain ⟨info, e⟩ := vecIn_breach s srcs dst readsDst spans hb
    exact ⟨info, by rw [he, e]; rfl⟩
  · have e := vecIn_ok s srcs dst readsDst spans hb (fun h => absurd h hq)
    rw [if_neg hp] at e
    rw [e] at he
    have hnp : ∀ d, dst = some d → ¬ (s.strand.push.toNat ≠ 0 ∧ d = 31) := fun d hd h => hq ⟨h.1, by rw [hd, h.2]⟩
    generalize hio : (⟨s, s.strand.v[30]⟩ : VIn) = io at he
    have hios : io.s = s := by rw [← hio]
    refine ⟨X io, F io, (G io).retire n, ?_, he, ?_⟩
    · have h1 : io.v = fun r => s.strand.v[r] := by
        funext r; unfold VIn.v; rw [← hio]; simp only; split
        · rename_i h; subst h; rfl
        · rfl
      rw [← h1]
      refine hP io _ (by rw [hios]) (by rw [hios]) (by rw [hios]) (by rw [hios]) fun d hd => ?_
      rw [old_plain _ _ (by rw [hios]; exact hnp d hd), hios, hd]; rfl
    · rw [hG]
      cases dst with
      | none => rw [← hio]; exact Retired.modStrand s n _
      | some d =>
        simp only
        rw [write_plain _ _ _ (by rw [hios]; exact hnp d rfl), hios]
        exact ⟨((OnlyStrand.setV s d _).trans (OnlyStrand.modStrand _ _)).trans (OnlyStrand.retire _ n), by simp⟩
  · have e : s.vecIn srcs dst readsDst spans = .error (.wait .other) := by
      rcases hw with ⟨rg, hq, hr, hlen⟩ | ⟨hp, hx⟩
      · unfold State.vecIn
        simp only
        rw [if_neg (fun h => hb ((breach_iff s srcs dst readsDst spans).mp h)), if_pos]
        rw [hr]
        simp only [Bool.and_eq_true, bne_iff_ne, ne_eq, beq_iff_eq, Ring.free, State.ringOf]
        exact ⟨hq, by omega⟩
      · by_cases hfull : s.strand.push.toNat ≠ 0 ∧ dst = some 31 → ∀ rg, ringInfo s s.strand.push.toNat = some rg → (s.ctx.ringOf s.strand.push.toNat).slots.length < rg.depth
        · rw [vecIn_ok s srcs dst readsDst spans hb hfull, if_pos hp]
          cases hi : ringInfo s s.strand.pop.toNat with
          | none => rfl
          | some i => rw [Option.bind_some, popSlot_none s i _ hx]
        · simp only [Classical.not_imp, not_forall] at hfull
          obtain ⟨hq, rg, hr, hlen⟩ := hfull
          unfold State.vecIn
          simp only
          rw [if_neg (fun h => hb ((breach_iff s srcs dst readsDst spans).mp h)), if_pos]
          rw [hr]
          simp only [Bool.and_eq_true, bne_iff_ne, ne_eq, beq_iff_eq, Ring.free, State.ringOf]
          exact ⟨hq, by omega⟩
    rw [e] at he
    exact ⟨_, he, OnlyStrand.modStrand s _, by simp⟩
  · have e := vecIn_ok s srcs dst readsDst spans hb (fun h => absurd h hq)
    rw [if_pos hp, hr, Option.bind_some, popSlot_eq s rg _ x rest hs hf] at e
    rw [e] at he
    have hnp : ∀ d, dst = some d → ¬ (s.strand.push.toNat ≠ 0 ∧ d = 31) := fun d hd h => hq ⟨h.1, by rw [hd, h.2]⟩
    simp only at he
    have ho := ringed_only s { s.ctx.ringOf s.strand.pop.toNat with slots := rest } (fun t => { t with rts := x.ts })
    have hlt := ringInfo_lt s _ _ hr
    have hrn : (s.ctx.ringOf s.strand.pop.toNat).n.toNat = s.strand.pop.toNat := Ctx.ringOf_n _ _ hlt.2
    have hst := ringed_strand s { s.ctx.ringOf s.strand.pop.toNat with slots := rest } (fun t => { t with rts := x.ts }) hl
      (.inl (BitVec.eq_of_toNat_eq hrn)) (by
        show ((s.ctx.ringOf (s.ctx.ringOf s.strand.pop.toNat).n.toNat)).slots.length ≠ rest.length
        rw [hrn, hs]; simp)
    have hcx := (ringed_ctx s { s.ctx.ringOf s.strand.pop.toNat with slots := rest } (fun t => { t with rts := x.ts }) (ringInfo_ctx s _ _ hr)).1
    have hdev : (ringed s { s.ctx.ringOf s.strand.pop.toNat with slots := rest } (fun t => { t with rts := x.ts })).dev = s.dev := (setRing_does s s.bank.ctx _).dev
    generalize ringed s { s.ctx.ringOf s.strand.pop.toNat with slots := rest } (fun t => { t with rts := x.ts }) = u at he ho hst hcx hdev
    generalize hio : (⟨u, BitVec.ofNat 4096 (s.rdN (rg.slotKey x.ix) 512)⟩ : VIn) = io at he
    have hios : io.s = u := by rw [← hio]
    have hpush : u.strand.push = s.strand.push := by rw [hst]
    have hnu : ∀ d, dst = some d → ¬ (io.s.strand.push.toNat ≠ 0 ∧ d = 31) := by rw [hios, hpush]; exact hnp
    have hv : io.v = slotAt s rg x := by
      funext r; unfold VIn.v slotAt; rw [← hio]; simp only; rw [hst]
    have hg : OnlyStrand u ((G io).retire n) ∧ ((G io).retire n).strand = (F io (match dst with
        | some d => { u.strand with v := u.strand.v.set d (X io) }
        | none => u.strand)).retire n := by
      rw [hG]
      cases dst with
      | none => simp only; rw [hios]; exact ⟨(OnlyStrand.modStrand u _).trans (OnlyStrand.retire _ n), by simp⟩
      | some d =>
        simp only
        rw [write_plain _ _ _ (hnu d rfl), hios]
        exact ⟨((OnlyStrand.setV u d _).trans (OnlyStrand.modStrand _ _)).trans (OnlyStrand.retire _ n), by simp⟩
    refine ⟨X io, F io, (G io).retire n, ?_, he, ho.strand hg.1, ?_, ?_, ?_⟩
    · rw [← hv]
      refine hP io _ (by rw [hios, hst]) (by rw [hios, hst]) (by rw [hios, hst]) (by rw [hios, hst]) fun d hd => ?_
      rw [old_plain _ _ (hnu d hd), hios, hst, hd]; rfl
    · rw [hg.1.bank.core.dev, hdev]
    · have : ((G io).retire n).ctx = u.ctx := ctx_of_bank _ _ (by rw [hg.1.rest]) hg.1.bank.core.ctxs
      rw [this]
      rw [show (s.ctx.ringOf s.strand.pop.toNat).n.toNat = s.strand.pop.toNat from hrn] at hcx
      rw [hcx]
    · rw [hg.2, hst]
      cases dst <;> rfl
  · have e := vecIn_ok s srcs dst readsDst spans hb (fun _ g hg => by rw [hr] at hg; cases hg; exact hfree)
    rw [if_neg hp] at e
    rw [e] at he
    generalize hio : (⟨s, s.strand.v[30]⟩ : VIn) = io at he
    simp only at he
    have hios : io.s = s := by rw [← hio]
    have hg := push_does s s rg _ (X io) (F io) n _ rfl hr hl rfl hfree rfl rfl rfl rfl
    have hG2 : G io = (s.pushSlot rg s.strand.push.toNat (X io)).modStrand (F io) := by
      rw [hG, hq.2]; simp only
      rw [write_push io (X io) rg (by rw [hios]; exact hq.1) (by rw [hios]; exact hr), hios]
    rw [hG2] at he
    refine ⟨X io, F io, _, ?_, he, hg.1, hg.2.1, hg.2.2.1⟩
    have h1 : io.v = fun r => s.strand.v[r] := by
      funext r; unfold VIn.v; rw [← hio]; simp only; split
      · rename_i h; subst h; rfl
      · rfl
    rw [← h1]
    refine hP io _ (by rw [hios]) (by rw [hios]) (by rw [hios]) (by rw [hios]) fun d hd => ?_
    rw [hq.2] at hd; cases hd
    exact old_push io (by rw [hios]; exact hq.1)
  · have e := vecIn_ok s srcs dst readsDst spans hb (fun _ g hg => by rw [hr] at hg; cases hg; exact hfree)
    rw [if_pos hp, hrp, Option.bind_some, popSlot_eq s rp _ x rest hs hf] at e
    rw [e] at he
    simp only at he
    have ho := ringed_only s { s.ctx.ringOf s.strand.pop.toNat with slots := rest } (fun t => { t with rts := x.ts })
    have hlt := ringInfo_lt s _ _ hrp
    have hrn : (s.ctx.ringOf s.strand.pop.toNat).n.toNat = s.strand.pop.toNat := Ctx.ringOf_n _ _ hlt.2
    have hst := ringed_strand s { s.ctx.ringOf s.strand.pop.toNat with slots := rest } (fun t => { t with rts := x.ts }) hl
      (.inl (BitVec.eq_of_toNat_eq hrn)) (by
        show ((s.ctx.ringOf (s.ctx.ringOf s.strand.pop.toNat).n.toNat)).slots.length ≠ rest.length
        rw [hrn, hs]; simp)
    have hcx := ringed_ctx s { s.ctx.ringOf s.strand.pop.toNat with slots := rest } (fun t => { t with rts := x.ts }) (ringInfo_ctx s _ _ hrp)
    have hdev : (ringed s { s.ctx.ringOf s.strand.pop.toNat with slots := rest } (fun t => { t with rts := x.ts })).dev = s.dev := (setRing_does s s.bank.ctx _).dev
    have hri := ringInfo_ringed s { s.ctx.ringOf s.strand.pop.toNat with slots := rest } (fun t => { t with rts := x.ts }) s.strand.push.toNat
    rw [show (({ s.ctx.ringOf s.strand.pop.toNat with slots := rest } : Ring)).n.toNat = s.strand.pop.toNat from hrn] at hcx
    generalize ringed s { s.ctx.ringOf s.strand.pop.toNat with slots := rest } (fun t => { t with rts := x.ts }) = u at he ho hst hcx hdev hri
    generalize hio : (⟨u, BitVec.ofNat 4096 (s.rdN (rp.slotKey x.ix) 512)⟩ : VIn) = io at he
    have hios : io.s = u := by rw [← hio]
    have hpush : u.strand.push = s.strand.push := by rw [hst]
    have hv : io.v = slotAt s rp x := by
      funext r; unfold VIn.v slotAt; rw [← hio]; simp only; rw [hst]
    have hbank := ho.bank
    have hslots : (u.ctx.ringOf s.strand.push.toNat).slots = (if s.strand.pop.toNat = s.strand.push.toNat then rest else (s.ctx.ringOf s.strand.push.toNat).slots)
        ∧ (u.ctx.ringOf s.strand.push.toNat).next = (s.ctx.ringOf s.strand.push.toNat).next := by
      by_cases hpq : s.strand.pop.toNat = s.strand.push.toNat
      · rw [if_pos hpq, ← hpq, hcx.1]; exact ⟨rfl, rfl⟩
      · rw [if_neg hpq, hcx.2 _ (fun e => hpq e.symm)]; exact ⟨rfl, rfl⟩
    have hfree2 : (if s.strand.pop.toNat = s.strand.push.toNat then rest else (s.ctx.ringOf s.strand.push.toNat).slots).length < rg.depth := by
      split
      · rename_i e; rw [← e, hs] at hfree; simp only [List.length_cons] at hfree; omega
      · exact hfree
    have hg := push_does s u rg s.strand.push.toNat (X io) (F io) n _ (by rw [hpush]) (by rw [hri]; exact hr) (by rw [hbank]; exact hl)
      hslots.1 hfree2 hslots.2 hdev ho.place.1 (by rw [hbank]; simp [Option.map_map, Function.comp_def])
    have hG2 : G io = (u.pushSlot rg s.strand.push.toNat (X io)).modStrand (F io) := by
      rw [hG, hq.2]; simp only
      rw [write_push io (X io) rg (by rw [hios, hpush]; exact hq.1) (by rw [hios, hpush, hri]; exact hr), hios, hpush]
    rw [hG2] at he
    refine ⟨X io, F io, _, ?_, he, ho.trans hg.1, fun hne => ?_, hg.2.1, ?_⟩
    · rw [← hv]
      refine hP io _ (by rw [hios, hst]) (by rw [hios, hst]) (by rw [hios, hst]) (by rw [hios, hst]) fun d hd => ?_
      rw [hq.2] at hd; cases hd
      exact old_push io (by rw [hios, hpush]; exact hq.1)
    · rw [hg.2.2.2 _ hne, hcx.1]
    · rw [hg.2.2.1, hst]
      simp [BitVec.or_assoc]
end

/-! ## Lanes -/
theorem packGo_eq (w : Nat) (f : Nat → Nat) (n acc : Nat) :
    packGo w f n acc = acc * 2 ^ (w * n) + packGo w f n 0 := by
  induction n generalizing acc with
  | zero => simp [packGo]
  | succ n ih =>
    simp only [packGo]
    rw [ih, ih (0 * 2 ^ w + _)]
    rw [Nat.mul_add w n 1, Nat.mul_one, pow_add]; ring
theorem packGo_lt (w : Nat) (f : Nat → Nat) (n : Nat) : packGo w f n 0 < 2 ^ (w * n) := by
  induction n with
  | zero => simp [packGo]
  | succ n ih =>
    rw [packGo, packGo_eq]
    have : f n % 2 ^ w < 2 ^ w := Nat.mod_lt _ (by positivity)
    calc (0 * 2 ^ w + f n % 2 ^ w) * 2 ^ (w * n) + packGo w f n 0 < (0 * 2 ^ w + f n % 2 ^ w) * 2 ^ (w * n) + 2 ^ (w * n) := by omega
      _ = (f n % 2 ^ w + 1) * 2 ^ (w * n) := by ring
      _ ≤ 2 ^ w * 2 ^ (w * n) := Nat.mul_le_mul_right _ this
      _ = 2 ^ (w * (n + 1)) := by rw [← pow_add]; ring_nf
theorem packGo_lane (w : Nat) (f : Nat → Nat) (n j : Nat) (h : j < n) : packGo w f n 0 / 2 ^ (w * j) % 2 ^ w = f j % 2 ^ w := by
  induction n with
  | zero => omega
  | succ n ih =>
    rw [packGo, packGo_eq]
    by_cases e : j = n
    · subst e
      rw [Nat.add_comm, Nat.add_mul_div_right _ _ (by positivity), Nat.div_eq_of_lt (packGo_lt w f j)]
      simp
    · have hj : j < n := by omega
      rw [← ih hj]
      have : (0 * 2 ^ w + f n % 2 ^ w) * 2 ^ (w * n) = ((0 * 2 ^ w + f n % 2 ^ w) * 2 ^ (w * (n - j - 1))) * 2 ^ w * 2 ^ (w * j) := by
        rw [mul_assoc, mul_assoc, ← pow_add, ← pow_add]; congr 2
        have : n = (n - j - 1) + 1 + j := by omega
        conv_lhs => rw [this]
        ring
      rw [this, Nat.add_comm, Nat.add_mul_div_right _ _ (by positivity), Nat.add_mul_mod_self_right]
theorem el_eq (w : Nat) (v : VReg) (j : Nat) : el w v j = lane w v j := by
  unfold el lane
  simp [BitVec.extractLsb', BitVec.toNat_ofNat, Nat.shiftRight_eq_div_pow]
theorem el_vecOf (w : Nat) (f : Nat → Nat) (j : Nat) (h : j < 4096 / w) : el w (vecOf w f) j = f j % 2 ^ w := by
  rw [el_eq]
  unfold lane vecOf pack
  have hlt : packGo w f (4096 / w) 0 < 2 ^ 4096 :=
    lt_of_lt_of_le (packGo_lt w f _) (Nat.pow_le_pow_right (by norm_num) (Nat.mul_div_le 4096 w))
  rw [BitVec.toNat_ofNat, Nat.mod_eq_of_lt hlt, packGo_lane _ _ _ _ h]

end Sys2Proof.Machine
end

