-- ==== Sys2Proof/Laws/Access.lean ====
section
/-! SUPPORT. Accesses of a strand: what the checks depend on, and what a store, a write-back and the parts of a load or a
store leave unchanged. -/
namespace Sys2Proof.Machine

/-! ## What the checks of an access depend on -/
/-- Two states that the checks of an access cannot tell apart. -/
structure SameView (s t : State) : Prop where
  mem    : t.mem = s.mem
  ctxs   : t.ctxs = s.ctxs
  dead   : t.dev.deadChan = s.dev.deadChan
  net    : t.dev.fab.net = s.dev.fab.net
  draw   : t.freeCtr = s.freeCtr
  cur    : t.cur = s.cur
  tlb    : t.core.tlb = s.core.tlb
  part   : t.core.part = s.core.part
  ctx    : t.bank.ctx = s.bank.ctx
  task   : t.bank.task = s.bank.task
  smode  : t.strand.smode = s.strand.smode
  vaults : ∀ c : Fin 256, t.cores[c].vaultGone = s.cores[c].vaultGone ∧ t.cores[c].vaultPart = s.cores[c].vaultPart

section
variable {s t : State} (h : SameView s t)
include h
theorem SameView.rd (k : Nat) : t.rd k = s.rd k := by unfold State.rd; rw [h.mem]
theorem SameView.rdN (k n : Nat) : t.rdN k n = s.rdN k n := by
  unfold State.rdN; rw [show t.rd = s.rd from funext h.rd]
theorem SameView.deadLine (k : Nat) : t.deadLine k = s.deadLine k := by unfold State.deadLine; rw [h.dead]
theorem SameView.pois (k : Nat) : t.pois k = s.pois k := by unfold State.pois; rw [h.mem, h.deadLine]
theorem SameView.ctxOf (id : BitVec 12) : t.ctxOf id = s.ctxOf id := by unfold State.ctxOf; rw [h.ctxs]
theorem SameView.ctx_eq : t.ctx = s.ctx := by unfold State.ctx; rw [h.ctx, h.ctxOf]
theorem SameView.walkFrom (a : Acc) (va : Nat) (l : List (Nat × Nat × Nat × Option Nat)) (tbl : Nat) :
    walkFrom t a va l tbl = walkFrom s a va l tbl := by
  induction l generalizing tbl with
  | nil => rfl
  | cons x l ih =>
    obtain ⟨sh, b, al, lf⟩ := x
    simp only [Machine.walkFrom, h.pois, h.rdN, ih]
theorem SameView.walkOf (c : Ctx) (a : Acc) (va : Nat) : walkOf t c a va = walkOf s c a va := h.walkFrom _ _ _ _
theorem SameView.translate (a : Acc) (va : Nat) : translate t a va = translate s a va := by
  unfold Machine.translate; rw [h.tlb, h.ctx, h.ctx_eq, h.walkOf]
theorem SameView.regionKey (c : Ctx) (a : Acc) (addr i : Nat) : regionKey t c a addr i = regionKey s c a addr i := by
  unfold Machine.regionKey; simp only [h.walkOf, h.pois]
theorem SameView.regionEntry (c : Ctx) (a : Acc) (addr i : Nat) : regionEntry t c a addr i = regionEntry s c a addr i := by
  unfold Machine.regionEntry; simp only [h.regionKey, h.rdN]
theorem SameView.regionScan (c : Ctx) (a : Acc) (addr n i : Nat) (f : List Region) :
    regionScan t c a addr n i f = regionScan s c a addr n i f := by
  induction n generalizing i f with
  | zero => rfl
  | succ n ih => simp only [Machine.regionScan, h.regionEntry, ih]
theorem SameView.regionTable (c : Ctx) (a : Acc) (addr : Nat) : regionTable t c a addr = regionTable s c a addr := by
  unfold Machine.regionTable; simp only [h.regionEntry]
theorem SameView.regionOf (c : Ctx) (a : Acc) (addr : Nat) : regionOf t c a addr = regionOf s c a addr := by
  unfold Machine.regionOf; simp only [h.regionScan, h.regionTable, h.draw]
theorem SameView.regionAt (a : Acc) (addr : Nat) : regionAt t a addr = regionAt s a addr := by
  unfold Machine.regionAt; rw [h.ctx_eq, h.regionOf]
theorem SameView.vaultOk (addr : Nat) : vaultOk t addr = vaultOk s addr := by
  unfold Machine.vaultOk; simp only [(h.vaults _).1, (h.vaults _).2, h.part]
theorem SameView.illFormed (e : Bool) (addr : Nat) : illFormed t e addr = illFormed s e addr := by
  unfold Machine.illFormed; rw [h.vaultOk, h.smode]
theorem SameView.ownSlot (e : Bool) (addr n : Nat) : ownSlot t e addr n = ownSlot s e addr n := by
  unfold Machine.ownSlot State.slot; rw [h.smode, h.ctx_eq, h.cur]
theorem SameView.windowOf (p : Fin 16) (w : Nat) : windowOf t p w = windowOf s p w := by
  unfold Machine.windowOf; simp only [h.rdN]
theorem SameView.windowKey (q : Ask) (addr n : Nat) : windowKey t q addr n = windowKey s q addr n := by
  unfold Machine.windowKey; simp only [h.part, h.windowOf]
theorem SameView.regionCause (q : Ask) (r : Option Region) : regionCause t q r = regionCause s q r := by
  unfold Machine.regionCause; rw [h.cur]
theorem SameView.poisSeen (k : Nat) : poisSeen t k = poisSeen s k := by unfold Machine.poisSeen; rw [h.task, h.pois]
theorem SameView.buffered (k : Nat) : t.buffered k = s.buffered k := by
  unfold State.buffered State.stores; rw [h.net, h.cur]
theorem SameView.poisonIn (st : Bool) (k n : Nat) : poisonIn t st k n = poisonIn s st k n := by
  unfold Machine.poisonIn; simp only [h.poisSeen, h.buffered]
theorem SameView.checkPart (q : Ask) (addr n : Nat) : checkPart t q addr n = checkPart s q addr n := by
  unfold Machine.checkPart
  simp only [h.illFormed, h.part, h.windowKey, h.ownSlot, h.translate, h.regionAt, h.regionCause, h.poisonIn]
/-- The checks of an access give the same in states that they cannot tell apart. -/
theorem SameView.checkAll (q : Ask) : checkAll t q = checkAll s q := by
  unfold Machine.checkAll; simp only [h.checkPart]
end

theorem SameView.refl (s : State) : SameView s s := ⟨rfl, rfl, rfl, rfl, rfl, rfl, rfl, rfl, rfl, rfl, rfl, fun _ => ⟨rfl, rfl⟩⟩
theorem SameView.modStrand (s : State) (f : Strand → Strand) (hf : ∀ x, (f x).smode = x.smode) : SameView s (s.modStrand f) where
  mem := rfl
  ctxs := rfl
  dead := rfl
  net := rfl
  draw := rfl
  cur := rfl
  tlb := by unfold State.modStrand State.modStrandN; simp
  part := by unfold State.modStrand State.modStrandN; simp
  ctx := by simp
  task := by simp
  smode := by simp [hf]
  vaults c := by
    by_cases e : c = s.cur
    · subst e
      have h1 : (s.modStrand f).cores[s.cur] = (s.modStrand f).core := rfl
      have h2 : s.cores[s.cur] = s.core := rfl
      rw [h1, h2]; unfold State.modStrand State.modStrandN; simp
    · have := (OnlyStrand.modStrand s f).bank.core.others c e
      rw [this]; exact ⟨rfl, rfl⟩
theorem SameView.clearFence (s : State) : SameView s s.clearFence := SameView.modStrand s _ fun _ => rfl
theorem OnlyStrand.clearFence (s : State) : OnlyStrand s s.clearFence := OnlyStrand.modStrand s _
theorem State.clearFence_strand (s : State) : s.clearFence.strand = { s.strand with fence := 0 } := by simp [State.clearFence]

/-! ## What an access may change -/
theorem OnlyAccess.refl (s : State) : OnlyAccess s s := ⟨rfl, rfl, rfl, rfl, ⟨rfl, rfl, rfl, rfl, rfl⟩, fun _ _ => rfl, rfl, rfl, fun _ _ => rfl, rfl⟩
theorem OnlyAccess.trans {s t u : State} (a : OnlyAccess s t) (b : OnlyAccess t u) : OnlyAccess s u where
  poison := b.poison.trans a.poison
  ctxs := b.ctxs.trans a.ctxs
  parts := b.parts.trans a.parts
  dev := by rw [b.dev, a.dev]
  place := by
    obtain ⟨h1, h2, h3, h4, h5⟩ := a.place
    obtain ⟨g1, g2, g3, g4, g5⟩ := b.place
    exact ⟨g1.trans h1, g2.trans h2, g3.trans h3, g4.trans h4, g5.trans h5⟩
  others c h := (b.others c (by rw [a.place.1]; exact h)).trans (a.others c h)
  core := by rw [b.core, a.core]
  bank := by rw [b.bank, a.bank]
  strands n h := (b.strands n (by rw [a.place.2.1]; exact h)).trans (a.strands n h)
  task := b.task.trans a.task
/-- What changes only the strand that acts is no more than an access. -/
theorem OnlyStrand.access {s t : State} (h : OnlyStrand s t) : OnlyAccess s t where
  poison := h.bank.core.marks
  ctxs := h.bank.core.ctxs
  parts := h.bank.core.parts
  dev := by rw [h.bank.core.dev]
  place := h.bank.core.place
  others := h.bank.core.others
  core := by rw [h.bank.rest]
  bank := by rw [h.rest]
  strands := h.strands
  task := by rw [h.rest]
theorem OnlyAccess.modTask (s : State) (f : Task → Task)
    (hf : ∀ k, { f k with version := [], spill := [], verPois := [], escaped := false, hostQ := [] }
      = { k with version := [], spill := [], verPois := [], escaped := false, hostQ := [] }) :
    OnlyAccess s (s.modTask f) where
  poison := rfl
  ctxs := rfl
  parts := rfl
  dev := rfl
  place := ⟨rfl, rfl, rfl, rfl, rfl⟩
  others c h := State.modBank_other s _ c h
  core := by rw [State.modTask, State.modBank_core, State.modBank_bank]; rfl
  bank := by rw [State.modTask_bank]
  strands n _ := by rw [State.modTask_bank]
  task := by rw [State.modTask_bank]; simp [Option.map_map, Function.comp_def, hf]
theorem OnlyAccess.modCore (s : State) (f : Core → Core) (hf : ∀ c, f c = { c with dirty := (f c).dirty, clean := (f c).clean, pbc := (f c).pbc }) :
    OnlyAccess s (s.modCore f) where
  poison := rfl
  ctxs := rfl
  parts := rfl
  dev := rfl
  place := ⟨rfl, rfl, rfl, rfl, rfl⟩
  others := State.modCore_other s f
  core := by
    have hb : (s.modCore f).bank = s.bank := by rw [State.bank, State.modCore_core, hf]; rfl
    rw [hb, State.modCore_core]
    exact hf s.core
  bank := by
    have : (s.modCore f).bank = s.bank := by rw [State.bank, State.modCore_core, hf]; rfl
    rw [this]
  strands n _ := by
    have : (s.modCore f).bank = s.bank := by rw [State.bank, State.modCore_core, hf]; rfl
    rw [this]
  task := by
    have : (s.modCore f).bank = s.bank := by rw [State.bank, State.modCore_core, hf]; rfl
    rw [this]
theorem OnlyAccess.send (s : State) (m : Nat → Msg) : OnlyAccess s (s.send m) :=
  ⟨rfl, rfl, rfl, rfl, ⟨rfl, rfl, rfl, rfl, rfl⟩, fun _ _ => rfl, rfl, rfl, fun _ _ => rfl, rfl⟩
theorem OnlyAccess.escape (s : State) : OnlyAccess s s.escape := OnlyAccess.modTask s _ fun _ => rfl
theorem OnlyAccess.dropBlocks (s : State) (va n : Nat) : OnlyAccess s (s.dropBlocks va n) := OnlyAccess.modCore s _ fun _ => rfl
/-- Dirty lines of a core that runs a task go to the task's version; no byte of memory changes. -/
theorem OnlyAccess.writeBack (s : State) (l : Nat → Bool) (ht : s.bank.task.isSome = true) :
    OnlyAccess s (s.writeBack l) ∧ (s.writeBack l).mem = s.mem ∧ (s.writeBack l).dev = s.dev := by
  obtain ⟨k, hk⟩ := Option.isSome_iff_exists.mp ht
  unfold State.writeBack
  simp only [hk]
  refine ⟨OnlyAccess.trans (OnlyAccess.modTask s _ ?_) (OnlyAccess.modCore _ _ ?_), rfl, rfl⟩ <;> intro _ <;> rfl
theorem State.writeBack_bank (s : State) (l : Nat → Bool) (k : Task) (hk : s.bank.task = some k) :
    (s.writeBack l).bank = { s.bank with
      task := some { k with version := (s.core.dirty.filter fun c => l (c.1 / 128)).foldr (fun c o => ovSet o c.1 c.2) k.version } } := by
  unfold State.writeBack
  simp only [hk]
  refine (State.modCore_bank_same _ _ ?_).trans ((State.modTask_bank s _).trans ?_)
  · exact fun _ => rfl
  · rw [hk]; rfl
theorem State.strand_of_bank {s t : State} (h : t.bank.strands = s.bank.strands) (hc : t.curS = s.curS) : t.strand = s.strand := by
  simp only [State.strand, h, hc]
theorem State.writeBack_strand (s : State) (l : Nat → Bool) (ht : s.bank.task.isSome = true) : (s.writeBack l).strand = s.strand := by
  obtain ⟨k, hk⟩ := Option.isSome_iff_exists.mp ht
  exact State.strand_of_bank (by rw [State.writeBack_bank s l k hk]) (OnlyAccess.writeBack s l ht).1.place.2.1
theorem State.noteLines_some (s : State) (key n : Nat) (ht : s.bank.task.isSome = true) : (s.noteLines key n).bank.task.isSome = true := by
  unfold State.noteLines; rw [State.modTask_bank]; simpa using ht
theorem OnlyAccess.noteLines (s : State) (key n : Nat) : OnlyAccess s (s.noteLines key n) := OnlyAccess.modTask s _ fun _ => rfl
theorem OnlyAccess.dropLines (s : State) (l : Nat → Bool) : OnlyAccess s (s.dropLines l) := OnlyAccess.modCore s _ fun _ => rfl
theorem State.dropLines_bank (s : State) (l : Nat → Bool) : (s.dropLines l).bank = s.bank := State.modCore_bank_same s _ fun _ => rfl
/-- Lines of a core that runs a task leave its data cache, the dirty ones for the task's version. -/
theorem OnlyAccess.expel (s : State) (l : Nat → Bool) (ht : s.bank.task.isSome = true) :
    OnlyAccess s (s.expel l) ∧ (s.expel l).mem = s.mem ∧ (s.expel l).dev = s.dev := by
  obtain ⟨a, b, c⟩ := OnlyAccess.writeBack s l ht
  exact ⟨a.trans (OnlyAccess.dropLines _ l), b, c⟩
theorem OnlyAccess.verWrite (s : State) (key : Nat) (d : List Byte) (ht : s.bank.task.isSome = true) :
    OnlyAccess s (s.verWrite key d) ∧ (s.verWrite key d).mem = s.mem ∧ (s.verWrite key d).dev = s.dev := by
  obtain ⟨k, hk⟩ := Option.isSome_iff_exists.mp ht
  unfold State.verWrite
  simp only [hk]
  exact ⟨(OnlyAccess.noteLines s _ _).trans (OnlyAccess.modTask _ _ fun _ => rfl), rfl, rfl⟩
/-- A line may leave the data cache for the task's version. -/
theorem OnlyAccess.cacheRoom (s : State) (l : Nat) (ht : s.bank.task.isSome = true) :
    OnlyAccess s (s.cacheRoom l) ∧ (s.cacheRoom l).mem = s.mem ∧ (s.cacheRoom l).dev = s.dev ∧ (s.cacheRoom l).bank.task.isSome = true := by
  unfold State.cacheRoom
  simp only
  split
  · exact ⟨OnlyAccess.refl s, rfl, rfl, ht⟩
  · obtain ⟨k, hk⟩ := Option.isSome_iff_exists.mp ht
    obtain ⟨a, b, c⟩ := OnlyAccess.expel s _ ht
    exact ⟨a, b, c, by rw [State.expel, State.dropLines_bank, State.writeBack_bank s _ k hk]; rfl⟩
theorem OnlyAccess.cacheRooms (l : List Nat) (s : State) (ht : s.bank.task.isSome = true) :
    OnlyAccess s (l.foldl State.cacheRoom s) ∧ (l.foldl State.cacheRoom s).mem = s.mem ∧ (l.foldl State.cacheRoom s).dev = s.dev := by
  induction l generalizing s with
  | nil => exact ⟨OnlyAccess.refl s, rfl, rfl⟩
  | cons x t ih =>
    obtain ⟨a, b, c, d⟩ := OnlyAccess.cacheRoom s x ht
    obtain ⟨e, f, g⟩ := ih _ d
    exact ⟨a.trans e, f.trans b, g.trans c⟩
/-- A store to the data cache changes no byte of memory and no device register. -/
theorem OnlyAccess.cacheWrite (s : State) (key : Nat) (d : List Byte) (ht : s.bank.task.isSome = true) :
    OnlyAccess s (s.cacheWrite key d) ∧ (s.cacheWrite key d).mem = s.mem ∧ (s.cacheWrite key d).dev = s.dev := by
  obtain ⟨k, hk⟩ := Option.isSome_iff_exists.mp ht
  obtain ⟨a, b, c⟩ := OnlyAccess.cacheRooms (distinct ((keysFrom key d.length).map (· / 128))) _ (State.noteLines_some s key d.length ht)
  unfold State.cacheWrite
  simp only [hk]
  refine ⟨(OnlyAccess.noteLines s _ _).trans (a.trans ((OnlyAccess.dropLines _ _).trans
    ((OnlyAccess.modCore _ _ ?_).trans (OnlyAccess.modTask _ _ ?_)))), b, c⟩ <;> exact fun _ => rfl

end Sys2Proof.Machine
end

