-- ==== Sys2Proof/Laws/Decode.lean ====
section
/-! SUPPORT. The fields of encoded words, and what the decoder answers for each MAJ. -/
namespace Sys2Proof

/-! ## Fields (R39, R41) -/
theorem majOf_rr (maj len : Nat) (d a b : Fin 64) (fn : Nat) (_ : maj < 128) (_ : len < 4) : majOf (rr maj len d a b fn) = maj := by
  unfold majOf rr; omega
theorem rrD_rr (maj len : Nat) (d a b : Fin 64) (fn : Nat) (_ : maj < 128) (_ : len < 4) : rrD (rr maj len d a b fn) = d.val := by
  unfold rrD rr; omega
theorem rrA_rr (maj len : Nat) (d a b : Fin 64) (fn : Nat) (_ : maj < 128) (_ : len < 4) : rrA (rr maj len d a b fn) = a.val := by
  unfold rrA rr; omega
theorem rrB_rr (maj len : Nat) (d a b : Fin 64) (fn : Nat) (_ : maj < 128) (_ : len < 4) : rrB (rr maj len d a b fn) = b.val := by
  unfold rrB rr; omega
theorem rrFn_rr (maj len : Nat) (d a b : Fin 64) (fn : Nat) (_ : maj < 128) (_ : len < 4) (_ : fn < 32) : rrFn (rr maj len d a b fn) = fn := by
  unfold rrFn rr; omega
theorem len_rr (maj len : Nat) (d a b : Fin 64) (fn : Nat) (_ : maj < 128) (_ : len < 4) : (rr maj len d a b fn) % 4 = len := by
  unfold rr; omega
theorem lt_rr (maj len : Nat) (d a b : Fin 64) (fn : Nat) (_ : maj < 128) (_ : len < 4) (_ : fn < 32) : (rr maj len d a b fn) < 4294967296 := by
  unfold rr; omega
theorem majOf_ri (maj len : Nat) (d a : Fin 64) (imm : BitVec 11) (_ : maj < 128) (_ : len < 4) : majOf (ri maj len d a imm) = maj := by
  unfold majOf ri; omega
theorem rrD_ri (maj len : Nat) (d a : Fin 64) (imm : BitVec 11) (_ : maj < 128) (_ : len < 4) : rrD (ri maj len d a imm) = d.val := by
  unfold rrD ri; omega
theorem rrA_ri (maj len : Nat) (d a : Fin 64) (imm : BitVec 11) (_ : maj < 128) (_ : len < 4) : rrA (ri maj len d a imm) = a.val := by
  unfold rrA ri; omega
theorem riD_ri (maj len : Nat) (d a : Fin 64) (imm : BitVec 11) (_ : maj < 128) (_ : len < 4) : riD (ri maj len d a imm) = d.val := by
  unfold riD ri; omega
theorem riA_ri (maj len : Nat) (d a : Fin 64) (imm : BitVec 11) (_ : maj < 128) (_ : len < 4) : riA (ri maj len d a imm) = a.val := by
  unfold riA ri; omega
theorem riImm_ri (maj len : Nat) (d a : Fin 64) (imm : BitVec 11) (_ : maj < 128) (_ : len < 4) : riImm (ri maj len d a imm) = imm.toNat := by
  unfold riImm ri; omega
theorem len_ri (maj len : Nat) (d a : Fin 64) (imm : BitVec 11) (_ : maj < 128) (_ : len < 4) : (ri maj len d a imm) % 4 = len := by
  unfold ri; omega
theorem lt_ri (maj len : Nat) (d a : Fin 64) (imm : BitVec 11) (_ : maj < 128) (_ : len < 4) : (ri maj len d a imm) < 4294967296 := by
  unfold ri; omega
theorem majOf_fb (maj len : Nat) (a b : Fin 64) (c : Nat) (off : BitVec 8) (_ : maj < 128) (_ : len < 4) (_ : c < 8) : majOf (fb maj len a b c off) = maj := by
  unfold majOf fb; omega
theorem rrD_fb (maj len : Nat) (a b : Fin 64) (c : Nat) (off : BitVec 8) (_ : maj < 128) (_ : len < 4) (_ : c < 8) : rrD (fb maj len a b c off) = a.val := by
  unfold rrD fb; omega
theorem rrA_fb (maj len : Nat) (a b : Fin 64) (c : Nat) (off : BitVec 8) (_ : maj < 128) (_ : len < 4) (_ : c < 8) : rrA (fb maj len a b c off) = b.val := by
  unfold rrA fb; omega
theorem fbOff_fb (maj len : Nat) (a b : Fin 64) (c : Nat) (off : BitVec 8) (_ : maj < 128) (_ : len < 4) (_ : c < 8) : fbOff (fb maj len a b c off) = off.toNat := by
  unfold fbOff fb; omega
theorem fbCond_fb (maj len : Nat) (a b : Fin 64) (c : Nat) (off : BitVec 8) (_ : maj < 128) (_ : len < 4) (_ : c < 8) : fbCond (fb maj len a b c off) = c := by
  unfold fbCond fb; omega
theorem len_fb (maj len : Nat) (a b : Fin 64) (c : Nat) (off : BitVec 8) (_ : maj < 128) (_ : len < 4) : (fb maj len a b c off) % 4 = len := by
  unfold fb; omega
theorem lt_fb (maj len : Nat) (a b : Fin 64) (c : Nat) (off : BitVec 8) (_ : maj < 128) (_ : len < 4) (_ : c < 8) : (fb maj len a b c off) < 4294967296 := by
  unfold fb; omega
theorem majOf_fj (maj len : Nat) (d : Fin 64) (off : BitVec 17) (_ : maj < 128) (_ : len < 4) : majOf (fj maj len d off) = maj := by
  unfold majOf fj; omega
theorem rrD_fj (maj len : Nat) (d : Fin 64) (off : BitVec 17) (_ : maj < 128) (_ : len < 4) : rrD (fj maj len d off) = d.val := by
  unfold rrD fj; omega
theorem riD_fj (maj len : Nat) (d : Fin 64) (off : BitVec 17) (_ : maj < 128) (_ : len < 4) : riD (fj maj len d off) = d.val := by
  unfold riD fj; omega
theorem fjOff_fj (maj len : Nat) (d : Fin 64) (off : BitVec 17) (_ : maj < 128) (_ : len < 4) : fjOff (fj maj len d off) = off.toNat := by
  unfold fjOff fj; omega
theorem len_fj (maj len : Nat) (d : Fin 64) (off : BitVec 17) (_ : maj < 128) (_ : len < 4) : (fj maj len d off) % 4 = len := by
  unfold fj; omega
theorem lt_fj (maj len : Nat) (d : Fin 64) (off : BitVec 17) (_ : maj < 128) (_ : len < 4) : (fj maj len d off) < 4294967296 := by
  unfold fj; omega
theorem majOf_fvm (maj len : Nat) (vd : Fin 32) (a : Fin 64) (imm : BitVec 12) (_ : maj < 128) (_ : len < 4) : majOf (fvm maj len vd a imm) = maj := by
  unfold majOf fvm; omega
theorem fvVd_fvm (maj len : Nat) (vd : Fin 32) (a : Fin 64) (imm : BitVec 12) (_ : maj < 128) (_ : len < 4) : fvVd (fvm maj len vd a imm) = vd.val := by
  unfold fvVd fvm; omega
theorem fvmA_fvm (maj len : Nat) (vd : Fin 32) (a : Fin 64) (imm : BitVec 12) (_ : maj < 128) (_ : len < 4) : fvmA (fvm maj len vd a imm) = a.val := by
  unfold fvmA fvm; omega
theorem fvmImm_fvm (maj len : Nat) (vd : Fin 32) (a : Fin 64) (imm : BitVec 12) (_ : maj < 128) (_ : len < 4) : fvmImm (fvm maj len vd a imm) = imm.toNat := by
  unfold fvmImm fvm; omega
theorem len_fvm (maj len : Nat) (vd : Fin 32) (a : Fin 64) (imm : BitVec 12) (_ : maj < 128) (_ : len < 4) : (fvm maj len vd a imm) % 4 = len := by
  unfold fvm; omega
theorem lt_fvm (maj len : Nat) (vd : Fin 32) (a : Fin 64) (imm : BitVec 12) (_ : maj < 128) (_ : len < 4) : (fvm maj len vd a imm) < 4294967296 := by
  unfold fvm; omega
theorem xsRnd_xs (p sc r : Nat) (h : r < 8) : xsRnd (xs p sc r) = r := by unfold xsRnd xs; omega
theorem xsSc_xs (p sc r : Nat) (h : r < 8) (hs : sc < 64) : xsSc (xs p sc r) = sc := by unfold xsSc xs; omega
theorem xsP12_xs (p sc r : Nat) (h : r < 8) (hs : sc < 64) (hp : p < 4096) : xsP12 (xs p sc r) = p := by unfold xsP12 xs; omega
theorem xsTop_xs (p sc r : Nat) (h : r < 8) (hs : sc < 64) (hp : p < 4096) : xsTop (xs p sc r) = 0 := by unfold xsTop xs; omega
theorem lt_xs (p sc r : Nat) (h : r < 8) (hs : sc < 64) (hp : p < 4096) : xs p sc r < 4294967296 := by unfold xs; omega
theorem bit_lt (b : Bool) : bit b < 2 := by cases b <;> decide
theorem bit_beq (b : Bool) : (bit b == 1) = b := by cases b <;> rfl
@[simp] theorem fin_val (n : Nat) [NeZero n] (x : Fin n) : fin n x.val = x := by simp [fin]
@[simp] theorem bv_toNat (w : Nat) (x : BitVec w) : bv w x.toNat = x := by simp [bv]
theorem Rnd.code_lt (r : Rnd) : r.code < 8 := by cases r <;> decide
@[simp] theorem Rnd.dec_code (r : Rnd) : Rnd.dec r.code = r := by cases r <;> rfl
theorem Ord.code_lt (r : Ord) : r.code < 5 := by cases r <;> decide
@[simp] theorem Ord.dec_code (r : Ord) : Ord.dec r.code = r := by cases r <;> rfl
theorem Scope.code_lt (r : Scope) : r.code < 5 := by cases r <;> decide
@[simp] theorem Scope.dec_code (r : Scope) : Scope.dec r.code = r := by cases r <;> rfl
theorem Wid.code_lt (r : Wid) : r.code < 3 := by cases r <;> decide
@[simp] theorem Wid.dec_code (r : Wid) : Wid.dec r.code = r := by cases r <;> rfl
theorem Ty.code_lt (r : Ty) : r.code < 16 := by cases r <;> decide
@[simp] theorem Ty.dec_code (r : Ty) : Ty.dec r.code = r := by cases r <;> rfl
theorem AtomOp.code_lt (r : AtomOp) : r.code < 11 := by cases r <;> decide
@[simp] theorem AtomOp.dec_code (r : AtomOp) : AtomOp.dec r.code = r := by cases r <;> rfl

/-! ## The extensions and the vector word -/
theorem xmOrd_word (x : XM) : xmOrd x.word = x.ord.code := by
  have h1 := x.ord.code_lt
  have h2 := x.scope.code_lt
  have h3 := bit_lt x.w64
  unfold xmOrd XM.word; omega
theorem xmScope_word (x : XM) : xmScope x.word = x.scope.code := by
  have h1 := x.ord.code_lt
  have h2 := x.scope.code_lt
  have h3 := bit_lt x.w64
  unfold xmScope XM.word; omega
theorem xmRh_word (x : XM) : xmRh x.word = x.rh.toNat := by
  have h1 := x.ord.code_lt
  have h2 := x.scope.code_lt
  have h3 := bit_lt x.w64
  unfold xmRh XM.word; omega
theorem xmW64_word (x : XM) : xmW64 x.word = bit x.w64 := by
  have h1 := x.ord.code_lt
  have h2 := x.scope.code_lt
  have h3 := bit_lt x.w64
  unfold xmW64 XM.word; omega
theorem xmDisp_word (x : XM) : xmDisp x.word = x.disp.toNat := by
  have h1 := x.ord.code_lt
  have h2 := x.scope.code_lt
  have h3 := bit_lt x.w64
  unfold xmDisp XM.word; omega
theorem XM.word_lt (x : XM) : x.word < 4294967296 := by
  have h1 := x.ord.code_lt
  have h2 := x.scope.code_lt
  have h3 := bit_lt x.w64
  unfold XM.word; omega
@[simp] theorem XM.dec_word (x : XM) : XM.dec x.word = x := by
  simp [XM.dec, xmDisp_word, xmW64_word, xmRh_word, xmScope_word, xmOrd_word, bit_beq]
theorem xeTd_word (x : XE) : xeTd x.word = x.td.val := by
  unfold xeTd XE.word; omega
theorem xeTa_word (x : XE) : xeTa x.word = x.ta.val := by
  unfold xeTa XE.word; omega
theorem xeTb_word (x : XE) : xeTb x.word = x.tb.val := by
  unfold xeTb XE.word; omega
theorem xeTc_word (x : XE) : xeTc x.word = x.tc.val := by
  unfold xeTc XE.word; omega
theorem xeImm_word (x : XE) : xeImm x.word = x.imm.toNat := by
  unfold xeImm XE.word; omega
theorem XE.word_lt (x : XE) : x.word < 4294967296 := by
  unfold XE.word; omega
@[simp] theorem XE.dec_word (x : XE) : XE.dec x.word = x := by
  simp [XE.dec, xeTd_word, xeTa_word, xeTb_word, xeTc_word, xeImm_word]
theorem xaRnd_word (x : XA) : xaRnd x.word = x.rnd.code := by
  have h1 := x.rnd.code_lt
  have h2 := bit_lt x.sat
  have h3 := bit_lt x.ftz
  have h4 := bit_lt x.bs
  have h5 := x.wid.code_lt
  unfold xaRnd XA.word; omega
theorem xaVr_word (x : XA) : xaVr x.word = x.vr.val := by
  have h1 := x.rnd.code_lt
  have h2 := bit_lt x.sat
  have h3 := bit_lt x.ftz
  have h4 := bit_lt x.bs
  have h5 := x.wid.code_lt
  unfold xaVr XA.word; omega
theorem xaSat_word (x : XA) : xaSat x.word = bit x.sat := by
  have h1 := x.rnd.code_lt
  have h2 := bit_lt x.sat
  have h3 := bit_lt x.ftz
  have h4 := bit_lt x.bs
  have h5 := x.wid.code_lt
  unfold xaSat XA.word; omega
theorem xaFtz_word (x : XA) : xaFtz x.word = bit x.ftz := by
  have h1 := x.rnd.code_lt
  have h2 := bit_lt x.sat
  have h3 := bit_lt x.ftz
  have h4 := bit_lt x.bs
  have h5 := x.wid.code_lt
  unfold xaFtz XA.word; omega
theorem xaVc_word (x : XA) : xaVc x.word = x.vc.val := by
  have h1 := x.rnd.code_lt
  have h2 := bit_lt x.sat
  have h3 := bit_lt x.ftz
  have h4 := bit_lt x.bs
  have h5 := x.wid.code_lt
  unfold xaVc XA.word; omega
theorem xaSc_word (x : XA) : xaSc x.word = x.sc.val := by
  have h1 := x.rnd.code_lt
  have h2 := bit_lt x.sat
  have h3 := bit_lt x.ftz
  have h4 := bit_lt x.bs
  have h5 := x.wid.code_lt
  unfold xaSc XA.word; omega
theorem xaBs_word (x : XA) : xaBs x.word = bit x.bs := by
  have h1 := x.rnd.code_lt
  have h2 := bit_lt x.sat
  have h3 := bit_lt x.ftz
  have h4 := bit_lt x.bs
  have h5 := x.wid.code_lt
  unfold xaBs XA.word; omega
theorem xaWid_word (x : XA) : xaWid x.word = x.wid.code := by
  have h1 := x.rnd.code_lt
  have h2 := bit_lt x.sat
  have h3 := bit_lt x.ftz
  have h4 := bit_lt x.bs
  have h5 := x.wid.code_lt
  unfold xaWid XA.word; omega
theorem xaSub_word (x : XA) : xaSub x.word = x.sub.toNat := by
  have h1 := x.rnd.code_lt
  have h2 := bit_lt x.sat
  have h3 := bit_lt x.ftz
  have h4 := bit_lt x.bs
  have h5 := x.wid.code_lt
  unfold xaSub XA.word; omega
theorem XA.word_lt (x : XA) : x.word < 4294967296 := by
  have h1 := x.rnd.code_lt
  have h2 := bit_lt x.sat
  have h3 := bit_lt x.ftz
  have h4 := bit_lt x.bs
  have h5 := x.wid.code_lt
  unfold XA.word; omega
theorem XA.word_sub (x : XA) : x.word / 16777216 = x.sub.toNat := by
  have h1 := x.rnd.code_lt
  have h2 := bit_lt x.sat
  have h3 := bit_lt x.ftz
  have h4 := bit_lt x.bs
  have h5 := x.wid.code_lt
  unfold XA.word; omega
@[simp] theorem XA.dec_word (x : XA) : XA.dec x.word = x := by
  simp [XA.dec, xaRnd_word, xaVr_word, xaSat_word, xaFtz_word, xaVc_word, xaSc_word, xaBs_word, xaWid_word, xaSub_word, bit_beq]
@[simp] theorem XA.zero_word : XA.zero.word = 0 := by decide
theorem majOf_vword (f : VF) (maj len : Nat) (_ : maj < 128) (_ : len < 4) : majOf (f.word maj len) = maj := by
  have h1 := f.ty.code_lt
  unfold majOf VF.word; omega
theorem fvVd_vword (f : VF) (maj len : Nat) (_ : maj < 128) (_ : len < 4) : fvVd (f.word maj len) = f.vd.val := by
  have h1 := f.ty.code_lt
  unfold fvVd VF.word; omega
theorem fvVa_vword (f : VF) (maj len : Nat) (_ : maj < 128) (_ : len < 4) : fvVa (f.word maj len) = f.va.val := by
  have h1 := f.ty.code_lt
  unfold fvVa VF.word; omega
theorem fvVb_vword (f : VF) (maj len : Nat) (_ : maj < 128) (_ : len < 4) : fvVb (f.word maj len) = f.vb.val := by
  have h1 := f.ty.code_lt
  unfold fvVb VF.word; omega
theorem fvK_vword (f : VF) (maj len : Nat) (_ : maj < 128) (_ : len < 4) : fvK (f.word maj len) = f.k.val := by
  have h1 := f.ty.code_lt
  unfold fvK VF.word; omega
theorem fvTy_vword (f : VF) (maj len : Nat) (_ : maj < 128) (_ : len < 4) : fvTy (f.word maj len) = f.ty.code := by
  have h1 := f.ty.code_lt
  unfold fvTy VF.word; omega
theorem len_vword (f : VF) (maj len : Nat) (_ : maj < 128) (_ : len < 4) : f.word maj len % 4 = len := by
  unfold VF.word; omega
theorem VF.word_lt (f : VF) (maj len : Nat) (_ : maj < 128) (_ : len < 4) : f.word maj len < 4294967296 := by
  have h1 := f.ty.code_lt
  unfold VF.word; omega
theorem VF.dec_vword (f : VF) (maj len : Nat) (h : maj < 128) (hl : len < 4) : VF.dec (f.word maj len) = f := by
  simp [VF.dec, fvVd_vword, fvVa_vword, fvVb_vword, fvK_vword, fvTy_vword, h, hl]
theorem vecBad_len (m maj len x : Nat) (f : VF) (h : maj < 128) (hl : len < 4) :
    vecBad m (f.word maj len) x = vecBad m (f.word maj 0) x := by
  simp [vecBad, fvVd_vword, fvVa_vword, fvVb_vword, fvK_vword, fvTy_vword, h, hl]

/-! ## The choice of a reason (R56) -/
theorem lowest_none (l : List (Nat × Bool)) (h : l.all (fun c => !c.2) = true) : lowest l = none := by
  induction l with
  | nil => rfl
  | cons a t ih =>
    simp only [List.all_cons, Bool.and_eq_true, Bool.not_eq_true'] at h
    simp [lowest, ih (by simpa using h.2), h.1]
theorem pick_ok (i : Instr) (l : List (Nat × Bool)) (h : l.all (fun c => !c.2) = true) : pick (some i) l = .ok i := by
  simp [pick, lowest_none l h]
theorem pick_eq (o : Option Instr) (i : Instr) (l : List (Nat × Bool)) (ho : o = some i) (h : l.all (fun c => !c.2) = true) :
    pick o l = .ok i := by
  subst ho; exact pick_ok i l h
theorem XM.bad_ok (x : XM) (h : x.ordered = true) : (xmBad x.word).all (fun c => !c.2) = true := by
  have h1 := x.ord.code_lt
  have h2 := x.scope.code_lt
  simp only [xmBad, xmOrd_word, xmScope_word, List.all_cons, List.all_nil, Bool.and_true, Bool.and_eq_true, Bool.not_eq_true',
    decide_eq_false_iff_not, Bool.and_eq_false_iff]
  refine ⟨by omega, by omega, ?_⟩
  cases ho : x.ord <;> cases hs : x.scope <;> simp_all [XM.ordered, Ord.code, Scope.code]
@[simp] theorem xs_zero : xsRnd 0 = 0 ∧ xsSc 0 = 0 ∧ xsP12 0 = 0 ∧ xsTop 0 = 0 := by decide
@[simp] theorem xe_zero : xeTd 0 = 0 ∧ xeTa 0 = 0 ∧ xeTb 0 = 0 ∧ xeTc 0 = 0 ∧ xeImm 0 = 0 := by decide
theorem vec_pick (i : Instr) (maj len : Nat) (f : VF) (x : XA) (h : maj < 128) (hl : len < 4) (ok : vecOk maj f x = true) :
    pick (some i) (vecBad maj (f.word maj len) x.word) = .ok i := by
  rw [vecBad_len _ _ _ _ _ h hl]; exact pick_ok i _ ok
theorem vec_pick0 (i : Instr) (maj len : Nat) (f : VF) (h : maj < 128) (hl : len < 4) (ok : vecOk maj f XA.zero = true) :
    pick (some i) (vecBad maj (f.word maj len) 0) = .ok i := by
  rw [← XA.zero_word]; exact vec_pick i maj len f XA.zero h hl ok

theorem lengthOf_ok (w maj len : Nat) (hm : majOf w = maj) (hl : w % 4 = len) (h3 : len ≠ 3)
    (hin : (lengths maj).any (· == len + 1) = true) : lengthOf w = .ok (len + 1) := by
  subst hm hl
  have e : (lengths (majOf w)).isEmpty = false := by
    cases h : lengths (majOf w) with
    | nil => simp [h] at hin
    | cons a t => rfl
  unfold lengthOf; rw [if_neg h3, e, hin]; rfl

/-! ## The decoder by MAJ -/
theorem decodeMaj_0x01 (w n w1 w2 : Nat) (h : majOf w = 0x01) : decodeMaj w n w1 w2 =
    pick (match rrFn w with
    | 0 => some (.add (sD w) (sA w) (sB w))
    | 1 => some (.sub (sD w) (sA w) (sB w))
    | 2 => some (.and (sD w) (sA w) (sB w))
    | 3 => some (.or (sD w) (sA w) (sB w))
    | 4 => some (.xor (sD w) (sA w) (sB w))
    | 5 => some (.shl (sD w) (sA w) (sB w))
    | 6 => some (.shr (sD w) (sA w) (sB w))
    | 7 => some (.sar (sD w) (sA w) (sB w))
    | 8 => some (.min (sD w) (sA w) (sB w))
    | 9 => some (.mins (sD w) (sA w) (sB w))
    | 10 => some (.max (sD w) (sA w) (sB w))
    | 11 => some (.maxs (sD w) (sA w) (sB w))
    | 12 => some (.slt (sD w) (sA w) (sB w))
    | 13 => some (.slts (sD w) (sA w) (sB w))
    | 14 => some (.seq (sD w) (sA w) (sB w))
    | 15 => some (.sne (sD w) (sA w) (sB w))
    | 16 => some (.mul (sD w) (sA w) (sB w))
    | 17 => some (.mulhi (sD w) (sA w) (sB w))
    | 18 => some (.mulhis (sD w) (sA w) (sB w))
    | 19 => some (.div (sD w) (sA w) (sB w))
    | 20 => some (.divs (sD w) (sA w) (sB w))
    | 21 => some (.rem (sD w) (sA w) (sB w))
    | 22 => some (.rems (sD w) (sA w) (sB w))
    | 23 => some (.andn (sD w) (sA w) (sB w))
    | 24 => some (.orn (sD w) (sA w) (sB w))
    | _ => none) [] := by
  unfold decodeMaj; rw [h]; rfl
theorem decodeMaj_0x02 (w n w1 w2 : Nat) (h : majOf w = 0x02) : decodeMaj w n w1 w2 =
    pick (match rrFn w with
    | 0 => some (.clz (sD w) (sA w))
    | 1 => some (.ctz (sD w) (sA w))
    | 2 => some (.popc (sD w) (sA w))
    | 3 => some (.sextB (sD w) (sA w))
    | 4 => some (.sextH (sD w) (sA w))
    | 5 => some (.sextW (sD w) (sA w))
    | 6 => some (.zextB (sD w) (sA w))
    | 7 => some (.zextH (sD w) (sA w))
    | 8 => some (.zextW (sD w) (sA w))
    | 9 => some (.brev (sD w) (sA w))
    | 10 => some (.bswap (sD w) (sA w))
    | _ => none) [(5, rrB w != 0)] := by
  unfold decodeMaj; rw [h]; rfl
theorem decodeMaj_0x03 (w n w1 w2 : Nat) (h : majOf w = 0x03) : decodeMaj w n w1 w2 =
    if n = 1 then pick (some (.addi (sD w) (sA w) (bv 11 (riImm w)))) []
    else pick (some (.addiL (sD w) (sA w) (bv 32 w2))) [(5, riImm w != 0), (5, w1 != 0)] := by
  unfold decodeMaj; rw [h]; rfl
theorem decodeMaj_0x04 (w n w1 w2 : Nat) (h : majOf w = 0x04) : decodeMaj w n w1 w2 =
    if n = 1 then pick (some (.andi (sD w) (sA w) (bv 11 (riImm w)))) []
    else pick (some (.andiL (sD w) (sA w) (bv 32 w2))) [(5, riImm w != 0), (5, w1 != 0)] := by
  unfold decodeMaj; rw [h]; rfl
theorem decodeMaj_0x05 (w n w1 w2 : Nat) (h : majOf w = 0x05) : decodeMaj w n w1 w2 =
    if n = 1 then pick (some (.ori (sD w) (sA w) (bv 11 (riImm w)))) []
    else pick (some (.oriL (sD w) (sA w) (bv 32 w2))) [(5, riImm w != 0), (5, w1 != 0)] := by
  unfold decodeMaj; rw [h]; rfl
theorem decodeMaj_0x06 (w n w1 w2 : Nat) (h : majOf w = 0x06) : decodeMaj w n w1 w2 =
    if n = 1 then pick (some (.xori (sD w) (sA w) (bv 11 (riImm w)))) []
    else pick (some (.xoriL (sD w) (sA w) (bv 32 w2))) [(5, riImm w != 0), (5, w1 != 0)] := by
  unfold decodeMaj; rw [h]; rfl
theorem decodeMaj_0x07 (w n w1 w2 : Nat) (h : majOf w = 0x07) : decodeMaj w n w1 w2 =
    pick (match riImm w / 64 % 4 with
    | 0 => some (.shli (sD w) (sA w) (bv 6 (riImm w)))
    | 1 => some (.shri (sD w) (sA w) (bv 6 (riImm w)))
    | 2 => some (.sari (sD w) (sA w) (bv 6 (riImm w)))
    | _ => some (.roli (sD w) (sA w) (bv 6 (riImm w)))
    ) [(5, riImm w / 256 != 0)] := by
  unfold decodeMaj; rw [h]; rfl
theorem decodeMaj_0x08 (w n w1 w2 : Nat) (h : majOf w = 0x08) : decodeMaj w n w1 w2 =
    if n = 1 then pick (some (.slti (sD w) (sA w) (bv 11 (riImm w)))) []
    else pick (some (.sltiL (sD w) (sA w) (bv 32 w2))) [(5, riImm w != 0), (5, w1 != 0)] := by
  unfold decodeMaj; rw [h]; rfl
theorem decodeMaj_0x09 (w n w1 w2 : Nat) (h : majOf w = 0x09) : decodeMaj w n w1 w2 =
    pick (some (.li (sD w) (bv 32 w2))) [(5, riA w != 0), (5, riImm w != 0), (5, w1 != 0)] := by
  unfold decodeMaj; rw [h]; rfl
theorem decodeMaj_0x0A (w n w1 w2 : Nat) (h : majOf w = 0x0A) : decodeMaj w n w1 w2 =
    if n = 1 then pick (some (.lih (sD w) (sA w) (bv 11 (riImm w)))) []
    else pick (some (.lihL (sD w) (sA w) (bv 32 w2))) [(5, riImm w != 0), (5, w1 != 0)] := by
  unfold decodeMaj; rw [h]; rfl
theorem decodeMaj_0x0B (w n w1 w2 : Nat) (h : majOf w = 0x0B) : decodeMaj w n w1 w2 =
    if n = 1 then pick (some (.addpc (sD w) (bv 17 (fjOff w)))) []
    else pick (some (.addpcL (sD w) (bv 32 w1))) [(5, fjOff w != 0)] := by
  unfold decodeMaj; rw [h]; rfl
theorem decodeMaj_0x0C (w n w1 w2 : Nat) (h : majOf w = 0x0C) : decodeMaj w n w1 w2 =
    pick (match rrFn w with
    | 0 => some (.bfx (sD w) (sA w) (bv 6 (xsP12 w1)) (bv 6 (xsP12 w1 / 64)))
    | 1 => some (.bfxs (sD w) (sA w) (bv 6 (xsP12 w1)) (bv 6 (xsP12 w1 / 64)))
    | _ => none) [(5, rrB w != 0), (5, xsTop w1 != 0), (5, xsSc w1 != 0), (5, xsRnd w1 != 0), (7, 64 < xsP12 w1 % 64 + xsP12 w1 / 64 + 1)] := by
  unfold decodeMaj; rw [h]; rfl
theorem decodeMaj_0x0D (w n w1 w2 : Nat) (h : majOf w = 0x0D) : decodeMaj w n w1 w2 =
    pick (match rrFn w with
    | 0 => some (.bfi (sD w) (sA w) (bv 6 (xsP12 w1)) (bv 6 (xsP12 w1 / 64)))
    | _ => none) [(5, rrB w != 0), (5, xsTop w1 != 0), (5, xsSc w1 != 0), (5, xsRnd w1 != 0), (7, 64 < xsP12 w1 % 64 + xsP12 w1 / 64 + 1)] := by
  unfold decodeMaj; rw [h]; rfl
theorem decodeMaj_0x0E (w n w1 w2 : Nat) (h : majOf w = 0x0E) : decodeMaj w n w1 w2 =
    pick (match rrFn w with
    | 0 => some (.sel (sD w) (fin 64 (xsSc w1)) (sA w) (sB w))
    | _ => none) [(5, xsTop w1 != 0), (5, xsP12 w1 != 0), (5, xsRnd w1 != 0)] := by
  unfold decodeMaj; rw [h]; rfl
theorem decodeMaj_0x0F (w n w1 w2 : Nat) (h : majOf w = 0x0F) : decodeMaj w n w1 w2 =
    pick (match rrFn w with
    | 0 => some (if n = 1 then .fadd (sD w) (sA w) (sB w) else .faddL (sD w) (sA w) (sB w) (Rnd.dec (xsRnd w1)))
    | 1 => some (if n = 1 then .fsub (sD w) (sA w) (sB w) else .fsubL (sD w) (sA w) (sB w) (Rnd.dec (xsRnd w1)))
    | 2 => some (if n = 1 then .fmul (sD w) (sA w) (sB w) else .fmulL (sD w) (sA w) (sB w) (Rnd.dec (xsRnd w1)))
    | 3 => some (.fmin (sD w) (sA w) (sB w) (n == 2))
    | 4 => some (.fmax (sD w) (sA w) (sB w) (n == 2))
    | 5 => some (.feq (sD w) (sA w) (sB w) (n == 2))
    | 6 => some (.flt (sD w) (sA w) (sB w) (n == 2))
    | 7 => some (.fle (sD w) (sA w) (sB w) (n == 2))
    | 8 => some (if n = 1 then .fcvtF32I64 (sD w) (sA w) else .fcvtF32I64L (sD w) (sA w) (Rnd.dec (xsRnd w1)))
    | 9 => some (if n = 1 then .fcvtI64F32 (sD w) (sA w) else .fcvtI64F32L (sD w) (sA w) (Rnd.dec (xsRnd w1)))
    | 10 => some (.ffma (sD w) (sA w) (sB w) (fin 64 (xsSc w1)) (Rnd.dec (xsRnd w1)))
    | 11 => some (.fabs (sD w) (sA w) (n == 2))
    | 12 => some (.fneg (sD w) (sA w) (n == 2))
    | _ => none)
    [(3, rrFn w == 10 && n == 1), (5, (rrFn w == 8 || rrFn w == 9 || rrFn w == 11 || rrFn w == 12) && rrB w != 0), (5, rrFn w != 10 && xsSc w1 != 0),
     (5, xsTop w1 != 0), (5, xsP12 w1 != 0), (8, xsRnd w1 == 6),
     (8, ((3 ≤ rrFn w && rrFn w ≤ 7) || rrFn w == 11 || rrFn w == 12) && xsRnd w1 != 0)] := by
  unfold decodeMaj; rw [h]; rfl
theorem decodeMaj_0x10 (w n w1 w2 : Nat) (h : majOf w = 0x10) : decodeMaj w n w1 w2 =
    pick (match fbCond w with
    | 0 => some (.beq (sD w) (sA w) (bv 8 (fbOff w)))
    | 1 => some (.bne (sD w) (sA w) (bv 8 (fbOff w)))
    | 2 => some (.blt (sD w) (sA w) (bv 8 (fbOff w)))
    | 3 => some (.bge (sD w) (sA w) (bv 8 (fbOff w)))
    | 4 => some (.blts (sD w) (sA w) (bv 8 (fbOff w)))
    | 5 => some (.bges (sD w) (sA w) (bv 8 (fbOff w)))
    | _ => none) [] := by
  unfold decodeMaj; rw [h]; rfl
theorem decodeMaj_0x11 (w n w1 w2 : Nat) (h : majOf w = 0x11) : decodeMaj w n w1 w2 =
    pick (match fbCond w with
    | 0 => some (.beqL (sD w) (sA w) (bv 32 w1))
    | 1 => some (.bneL (sD w) (sA w) (bv 32 w1))
    | 2 => some (.bltL (sD w) (sA w) (bv 32 w1))
    | 3 => some (.bgeL (sD w) (sA w) (bv 32 w1))
    | 4 => some (.bltsL (sD w) (sA w) (bv 32 w1))
    | 5 => some (.bgesL (sD w) (sA w) (bv 32 w1))
    | _ => none) [(5, fbOff w != 0)] := by
  unfold decodeMaj; rw [h]; rfl
theorem decodeMaj_0x12 (w n w1 w2 : Nat) (h : majOf w = 0x12) : decodeMaj w n w1 w2 =
    if n = 1 then pick (some (.jal (sD w) (bv 17 (fjOff w)))) []
    else pick (some (.jalL (sD w) (bv 32 w1))) [(5, fjOff w != 0)] := by
  unfold decodeMaj; rw [h]; rfl
theorem decodeMaj_0x13 (w n w1 w2 : Nat) (h : majOf w = 0x13) : decodeMaj w n w1 w2 =
    pick (some (.jalr (sD w) (sA w) (bv 11 (riImm w)))) [] := by
  unfold decodeMaj; rw [h]; rfl
theorem decodeMaj_0x14 (w n w1 w2 : Nat) (h : majOf w = 0x14) : decodeMaj w n w1 w2 =
    pick (some (.loop (fin 2 (riD w)) (sA w) (bv 11 (riImm w)))) [(6, 1 < riD w), (7, riImm w == 0)] := by
  unfold decodeMaj; rw [h]; rfl
theorem decodeMaj_0x15 (w n w1 w2 : Nat) (h : majOf w = 0x15) : decodeMaj w n w1 w2 =
    pick (some (.bqpush (sA w))) [(5, rrFn w != 0), (5, rrB w != 0), (5, rrD w != 0)] := by
  unfold decodeMaj; rw [h]; rfl
theorem decodeMaj_0x16 (w n w1 w2 : Nat) (h : majOf w = 0x16) : decodeMaj w n w1 w2 =
    if n = 1 then pick (some (.bqb (bv 17 (fjOff w)))) [(5, riD w != 0)]
    else pick (some (.bqbL (bv 32 w1))) [(5, riD w != 0), (5, fjOff w != 0)] := by
  unfold decodeMaj; rw [h]; rfl
theorem decodeMaj_0x18 (w n w1 w2 : Nat) (h : majOf w = 0x18) : decodeMaj w n w1 w2 =
    if n = 1 then pick (some (.ldD (sD w) (sA w) (bv 11 (riImm w)))) []
    else pick (some (.ldDL (sD w) (sA w) (XM.dec w1))) ((5, riImm w != 0) :: (5, xmW64 w1 != 0) :: xmBad w1) := by
  unfold decodeMaj; rw [h]; rfl
theorem decodeMaj_0x19 (w n w1 w2 : Nat) (h : majOf w = 0x19) : decodeMaj w n w1 w2 =
    if n = 1 then pick (some (.ldW (sD w) (sA w) (bv 11 (riImm w)))) []
    else pick (some (.ldWL (sD w) (sA w) (XM.dec w1))) ((5, riImm w != 0) :: (5, xmW64 w1 != 0) :: xmBad w1) := by
  unfold decodeMaj; rw [h]; rfl
theorem decodeMaj_0x1A (w n w1 w2 : Nat) (h : majOf w = 0x1A) : decodeMaj w n w1 w2 =
    if n = 1 then pick (some (.stD (sD w) (sA w) (bv 11 (riImm w)))) []
    else pick (some (.stDL (sD w) (sA w) (XM.dec w1))) ((5, riImm w != 0) :: (5, xmW64 w1 != 0) :: xmBad w1) := by
  unfold decodeMaj; rw [h]; rfl
theorem decodeMaj_0x1B (w n w1 w2 : Nat) (h : majOf w = 0x1B) : decodeMaj w n w1 w2 =
    if n = 1 then pick (some (.stW (sD w) (sA w) (bv 11 (riImm w)))) []
    else pick (some (.stWL (sD w) (sA w) (XM.dec w1))) ((5, riImm w != 0) :: (5, xmW64 w1 != 0) :: xmBad w1) := by
  unfold decodeMaj; rw [h]; rfl
theorem decodeMaj_0x1C (w n w1 w2 : Nat) (h : majOf w = 0x1C) : decodeMaj w n w1 w2 =
    pick (some (.ldx (sD w) (sA w) (bv 2 (riImm w)) (riImm w / 8 % 2 == 1) (XM.dec w1)))
      ((4, 3 < riImm w % 8) :: (5, riImm w / 16 != 0) :: (5, xmW64 w1 != 0) :: xmBad w1) := by
  unfold decodeMaj; rw [h]; rfl
theorem decodeMaj_0x1D (w n w1 w2 : Nat) (h : majOf w = 0x1D) : decodeMaj w n w1 w2 =
    pick (some (.stx (sD w) (sA w) (bv 2 (riImm w)) (XM.dec w1)))
      ((4, 3 < riImm w % 8) :: (5, riImm w / 8 != 0) :: (5, xmW64 w1 != 0) :: xmBad w1) := by
  unfold decodeMaj; rw [h]; rfl
theorem decodeMaj_0x1E (w n w1 w2 : Nat) (h : majOf w = 0x1E) : decodeMaj w n w1 w2 =
    if n = 1 then pick (some (.ldv (fin 32 (fvVd w)) (fin 64 (fvmA w)) (bv 12 (fvmImm w)))) []
    else pick (some (.ldvL (fin 32 (fvVd w)) (fin 64 (fvmA w)) (XM.dec w1)))
      [(5, fvmImm w != 0), (5, xmW64 w1 != 0), (6, 4 < xmOrd w1), (6, 4 < xmScope w1), (8, xmOrd w1 != 0), (8, xmScope w1 != 0)] := by
  unfold decodeMaj; rw [h]; rfl
theorem decodeMaj_0x1F (w n w1 w2 : Nat) (h : majOf w = 0x1F) : decodeMaj w n w1 w2 =
    if n = 1 then pick (some (.stv (fin 32 (fvVd w)) (fin 64 (fvmA w)) (bv 12 (fvmImm w)))) []
    else pick (some (.stvL (fin 32 (fvVd w)) (fin 64 (fvmA w)) (XM.dec w1)))
      [(5, fvmImm w != 0), (5, xmW64 w1 != 0), (6, 4 < xmOrd w1), (6, 4 < xmScope w1), (8, xmOrd w1 != 0), (8, xmScope w1 != 0)] := by
  unfold decodeMaj; rw [h]; rfl
theorem decodeMaj_0x20 (w n w1 w2 : Nat) (h : majOf w = 0x20) : decodeMaj w n w1 w2 =
    pick (if n = 1 then match rrFn w with
    | 0 => some (.atomAdd (sD w) (sA w) (sB w))
    | 1 => some (.atomAnd (sD w) (sA w) (sB w))
    | 2 => some (.atomOr (sD w) (sA w) (sB w))
    | 3 => some (.atomXor (sD w) (sA w) (sB w))
    | 4 => some (.atomMin (sD w) (sA w) (sB w))
    | 5 => some (.atomMins (sD w) (sA w) (sB w))
    | 6 => some (.atomMax (sD w) (sA w) (sB w))
    | 7 => some (.atomMaxs (sD w) (sA w) (sB w))
    | 8 => some (.atomSwap (sD w) (sA w) (sB w))
    | 9 => some (.atomFadd32 (sD w) (sA w) (sB w))
    | 10 => some (.atomCas (sD w) (sA w) (sB w))
    | _ => none
    else if rrFn w ≤ 10 then some (.atomL (AtomOp.dec (rrFn w)) (sD w) (sA w) (sB w) (XM.dec w1)) else none)
    [(6, n == 2 && 4 < xmOrd w1), (6, n == 2 && 4 < xmScope w1), (8, n == 2 && rrFn w == 9 && xmW64 w1 != 0)] := by
  unfold decodeMaj; rw [h]; rfl
theorem decodeMaj_0x21 (w n w1 w2 : Nat) (h : majOf w = 0x21) : decodeMaj w n w1 w2 =
    pick (match riImm w % 8 with
    | 0 => some (.fence (Scope.dec (riImm w / 8 % 8)))
    | 1 => some (.fenceAcq (Scope.dec (riImm w / 8 % 8)))
    | 2 => some (.fenceRel (Scope.dec (riImm w / 8 % 8)))
    | 3 => some .fenceEng
    | 4 => some .fetchb
    | _ => none)
    [(5, riD w != 0), (5, riA w != 0), (5, riImm w / 64 != 0), (5, (riImm w % 8 == 3 || riImm w % 8 == 4) && riImm w / 8 % 8 != 0), (6, 4 < riImm w / 8 % 8)] := by
  unfold decodeMaj; rw [h]; rfl
theorem decodeMaj_0x22 (w n w1 w2 : Nat) (h : majOf w = 0x22) : decodeMaj w n w1 w2 =
    pick (match rrFn w with
    | 0 => some (.rpass (sA w) (sB w))
    | 1 => some (.rshare (sA w))
    | _ => none) [(5, rrD w != 0), (5, rrFn w == 1 && rrB w != 0)] := by
  unfold decodeMaj; rw [h]; rfl
theorem decodeMaj_0x23 (w n w1 w2 : Nat) (h : majOf w = 0x23) : decodeMaj w n w1 w2 =
    pick (some (.rquery (sD w) (sA w))) [(5, rrFn w != 0), (5, rrB w != 0)] := by
  unfold decodeMaj; rw [h]; rfl
theorem decodeMaj_0x24 (w n w1 w2 : Nat) (h : majOf w = 0x24) : decodeMaj w n w1 w2 =
    pick (match riImm w % 8 with
    | 0 => some (.dcwb (sA w))
    | 1 => some (.dcwbi (sA w))
    | 2 => some (.dcinv (sA w))
    | 3 => some (.icinv (sA w))
    | 4 => some .icinva
    | 5 => some (.pref (sA w) (fin 3 (riImm w / 8 % 4)))
    | _ => none)
    [(4, riImm w % 8 == 5 && riImm w / 8 % 4 == 3), (5, riImm w % 8 != 5 && riImm w / 8 % 4 != 0), (5, riImm w / 32 != 0), (5, riD w != 0),
     (5, riImm w % 8 == 4 && riA w != 0)] := by
  unfold decodeMaj; rw [h]; rfl
theorem decodeMaj_0x25 (w n w1 w2 : Nat) (h : majOf w = 0x25) : decodeMaj w n w1 w2 =
    pick (some (.pbinv (sA w))) [(5, rrFn w != 0), (5, rrB w != 0), (5, rrD w != 0)] := by
  unfold decodeMaj; rw [h]; rfl
theorem decodeMaj_0x26 (w n w1 w2 : Nat) (h : majOf w = 0x26) : decodeMaj w n w1 w2 =
    pick (some (.publ (sA w))) [(5, rrFn w != 0), (5, rrB w != 0), (5, rrD w != 0)] := by
  unfold decodeMaj; rw [h]; rfl
theorem decodeMaj_0x28 (w n w1 w2 : Nat) (h : majOf w = 0x28) : decodeMaj w n w1 w2 =
    if n = 1 then pick (some (.vadd (VF.dec w))) (vecBad 0x28 w 0)
    else pick (some (.vaddL (VF.dec w) (XA.dec w1))) (vecBad 0x28 w w1) := by
  unfold decodeMaj; rw [h]; rfl
theorem decodeMaj_0x29 (w n w1 w2 : Nat) (h : majOf w = 0x29) : decodeMaj w n w1 w2 =
    if n = 1 then pick (some (.vsub (VF.dec w))) (vecBad 0x29 w 0)
    else pick (some (.vsubL (VF.dec w) (XA.dec w1))) (vecBad 0x29 w w1) := by
  unfold decodeMaj; rw [h]; rfl
theorem decodeMaj_0x2A (w n w1 w2 : Nat) (h : majOf w = 0x2A) : decodeMaj w n w1 w2 =
    if n = 1 then pick (some (.vmul (VF.dec w))) (vecBad 0x2A w 0)
    else pick (some (.vmulL (VF.dec w) (XA.dec w1))) (vecBad 0x2A w w1) := by
  unfold decodeMaj; rw [h]; rfl
theorem decodeMaj_0x2B (w n w1 w2 : Nat) (h : majOf w = 0x2B) : decodeMaj w n w1 w2 =
    if n = 1 then pick (some (.vfma (VF.dec w))) (vecBad 0x2B w 0)
    else pick (some (.vfmaL (VF.dec w) (XA.dec w1))) (vecBad 0x2B w w1) := by
  unfold decodeMaj; rw [h]; rfl
theorem decodeMaj_0x2C (w n w1 w2 : Nat) (h : majOf w = 0x2C) : decodeMaj w n w1 w2 =
    if n = 1 then pick (some (.vfnma (VF.dec w))) (vecBad 0x2C w 0)
    else pick (some (.vfnmaL (VF.dec w) (XA.dec w1))) (vecBad 0x2C w w1) := by
  unfold decodeMaj; rw [h]; rfl
theorem decodeMaj_0x2D (w n w1 w2 : Nat) (h : majOf w = 0x2D) : decodeMaj w n w1 w2 =
    if n = 1 then pick (some (.vmin (VF.dec w))) (vecBad 0x2D w 0)
    else pick (some (.vminL (VF.dec w) (XA.dec w1))) (vecBad 0x2D w w1) := by
  unfold decodeMaj; rw [h]; rfl
theorem decodeMaj_0x2E (w n w1 w2 : Nat) (h : majOf w = 0x2E) : decodeMaj w n w1 w2 =
    if n = 1 then pick (some (.vmax (VF.dec w))) (vecBad 0x2E w 0)
    else pick (some (.vmaxL (VF.dec w) (XA.dec w1))) (vecBad 0x2E w w1) := by
  unfold decodeMaj; rw [h]; rfl
theorem decodeMaj_0x2F (w n w1 w2 : Nat) (h : majOf w = 0x2F) : decodeMaj w n w1 w2 =
    if n = 1 then pick (some (.vabs (VF.dec w))) (vecBad 0x2F w 0)
    else pick (some (.vabsL (VF.dec w) (XA.dec w1))) (vecBad 0x2F w w1) := by
  unfold decodeMaj; rw [h]; rfl
theorem decodeMaj_0x30 (w n w1 w2 : Nat) (h : majOf w = 0x30) : decodeMaj w n w1 w2 =
    if n = 1 then pick (some (.vneg (VF.dec w))) (vecBad 0x30 w 0)
    else pick (some (.vnegL (VF.dec w) (XA.dec w1))) (vecBad 0x30 w w1) := by
  unfold decodeMaj; rw [h]; rfl
theorem decodeMaj_0x31 (w n w1 w2 : Nat) (h : majOf w = 0x31) : decodeMaj w n w1 w2 =
    if n = 1 then pick (some (.vlogic (VF.dec w))) (vecBad 0x31 w 0)
    else pick (some (.vlogicL (VF.dec w) (XA.dec w1))) (vecBad 0x31 w w1) := by
  unfold decodeMaj; rw [h]; rfl
theorem decodeMaj_0x32 (w n w1 w2 : Nat) (h : majOf w = 0x32) : decodeMaj w n w1 w2 =
    if n = 1 then pick (some (.vshift (VF.dec w))) (vecBad 0x32 w 0)
    else pick (some (.vshiftL (VF.dec w) (XA.dec w1))) (vecBad 0x32 w w1) := by
  unfold decodeMaj; rw [h]; rfl
theorem decodeMaj_0x33 (w n w1 w2 : Nat) (h : majOf w = 0x33) : decodeMaj w n w1 w2 =
    if n = 1 then pick (some (.vcmp (VF.dec w))) (vecBad 0x33 w 0)
    else pick (some (.vcmpL (VF.dec w) (XA.dec w1))) (vecBad 0x33 w w1) := by
  unfold decodeMaj; rw [h]; rfl
theorem decodeMaj_0x34 (w n w1 w2 : Nat) (h : majOf w = 0x34) : decodeMaj w n w1 w2 =
    if n = 1 then pick (some (.vsel (VF.dec w))) (vecBad 0x34 w 0)
    else pick (some (.vselL (VF.dec w) (XA.dec w1))) (vecBad 0x34 w w1) := by
  unfold decodeMaj; rw [h]; rfl
theorem decodeMaj_0x35 (w n w1 w2 : Nat) (h : majOf w = 0x35) : decodeMaj w n w1 w2 =
    pick (some (.vmulw (VF.dec w) (XA.dec w1))) (vecBad 0x35 w w1) := by
  unfold decodeMaj; rw [h]; rfl
theorem decodeMaj_0x36 (w n w1 w2 : Nat) (h : majOf w = 0x36) : decodeMaj w n w1 w2 =
    pick (some (.vaddw (VF.dec w) (XA.dec w1))) (vecBad 0x36 w w1) := by
  unfold decodeMaj; rw [h]; rfl
theorem decodeMaj_0x37 (w n w1 w2 : Nat) (h : majOf w = 0x37) : decodeMaj w n w1 w2 =
    if n = 1 then pick (some (.vdiv (VF.dec w))) (vecBad 0x37 w 0)
    else pick (some (.vdivL (VF.dec w) (XA.dec w1))) (vecBad 0x37 w w1) := by
  unfold decodeMaj; rw [h]; rfl
theorem decodeMaj_0x38 (w n w1 w2 : Nat) (h : majOf w = 0x38) : decodeMaj w n w1 w2 =
    if n = 1 then pick (some (.vsqrt (VF.dec w))) (vecBad 0x38 w 0)
    else pick (some (.vsqrtL (VF.dec w) (XA.dec w1))) (vecBad 0x38 w w1) := by
  unfold decodeMaj; rw [h]; rfl
theorem decodeMaj_0x39 (w n w1 w2 : Nat) (h : majOf w = 0x39) : decodeMaj w n w1 w2 =
    if n = 1 then pick (some (.vapprox (VF.dec w))) (vecBad 0x39 w 0)
    else pick (some (.vapproxL (VF.dec w) (XA.dec w1))) (vecBad 0x39 w w1) := by
  unfold decodeMaj; rw [h]; rfl
theorem decodeMaj_0x3A (w n w1 w2 : Nat) (h : majOf w = 0x3A) : decodeMaj w n w1 w2 =
    if n = 1 then pick (some (.vred (VF.dec w))) (vecBad 0x3A w 0)
    else pick (some (.vredL (VF.dec w) (XA.dec w1))) (vecBad 0x3A w w1) := by
  unfold decodeMaj; rw [h]; rfl
theorem decodeMaj_0x3B (w n w1 w2 : Nat) (h : majOf w = 0x3B) : decodeMaj w n w1 w2 =
    if n = 1 then pick (some (.vbcast (VF.dec w))) (vecBad 0x3B w 0)
    else if n = 2 then pick (some (.vbcastL (VF.dec w) (XA.dec w1))) (vecBad 0x3B w w1)
    else pick (some (.vbcastImm (VF.dec w) (bv 32 w2)))
      [(5, xaVr w1 != 0), (5, w1 / 2 ^ 10 % 2 ^ 11 != 0), (5, w1 / 2 ^ 22 != 0), (8, xaRnd w1 != 0), (8, xaSat w1 != 0), (8, xaFtz w1 != 0), (6, 15 < fvTy w), (7, fvVa w != 0), (7, fvVb w != 0), (7, w1 / 2 ^ 21 % 2 != 0)] := by
  unfold decodeMaj; rw [h]; rfl
theorem decodeMaj_0x3C (w n w1 w2 : Nat) (h : majOf w = 0x3C) : decodeMaj w n w1 w2 =
    pick (some (.vext (VF.dec w) (XA.dec w1))) (vecBad 0x3C w w1) := by
  unfold decodeMaj; rw [h]; rfl
theorem decodeMaj_0x3D (w n w1 w2 : Nat) (h : majOf w = 0x3D) : decodeMaj w n w1 w2 =
    pick (some (.vins (VF.dec w) (XA.dec w1))) (vecBad 0x3D w w1) := by
  unfold decodeMaj; rw [h]; rfl
theorem decodeMaj_0x3E (w n w1 w2 : Nat) (h : majOf w = 0x3E) : decodeMaj w n w1 w2 =
    if n = 1 then pick (some (.vperm (VF.dec w))) (vecBad 0x3E w 0)
    else pick (some (.vpermL (VF.dec w) (XA.dec w1))) (vecBad 0x3E w w1) := by
  unfold decodeMaj; rw [h]; rfl
theorem decodeMaj_0x3F (w n w1 w2 : Nat) (h : majOf w = 0x3F) : decodeMaj w n w1 w2 =
    pick (some (.vslide (VF.dec w) (XA.dec w1))) (vecBad 0x3F w w1) := by
  unfold decodeMaj; rw [h]; rfl
theorem decodeMaj_0x40 (w n w1 w2 : Nat) (h : majOf w = 0x40) : decodeMaj w n w1 w2 =
    pick (some (.vpack (VF.dec w) (XA.dec w1))) (vecBad 0x40 w w1) := by
  unfold decodeMaj; rw [h]; rfl
theorem decodeMaj_0x41 (w n w1 w2 : Nat) (h : majOf w = 0x41) : decodeMaj w n w1 w2 =
    pick (some (.vunpk (VF.dec w) (XA.dec w1))) (vecBad 0x41 w w1) := by
  unfold decodeMaj; rw [h]; rfl
theorem decodeMaj_0x42 (w n w1 w2 : Nat) (h : majOf w = 0x42) : decodeMaj w n w1 w2 =
    if n = 1 then pick (some (.vcvt (VF.dec w))) (vecBad 0x42 w 0)
    else pick (some (.vcvtL (VF.dec w) (XA.dec w1))) (vecBad 0x42 w w1) := by
  unfold decodeMaj; rw [h]; rfl
theorem decodeMaj_0x43 (w n w1 w2 : Nat) (h : majOf w = 0x43) : decodeMaj w n w1 w2 =
    pick (some (.vqnt (VF.dec w) (XA.dec w1))) (vecBad 0x43 w w1) := by
  unfold decodeMaj; rw [h]; rfl
theorem decodeMaj_0x44 (w n w1 w2 : Nat) (h : majOf w = 0x44) : decodeMaj w n w1 w2 =
    if n = 1 then pick (some (.vplane (VF.dec w))) (vecBad 0x44 w 0)
    else pick (some (.vplaneL (VF.dec w) (XA.dec w1))) (vecBad 0x44 w w1) := by
  unfold decodeMaj; rw [h]; rfl
theorem decodeMaj_0x45 (w n w1 w2 : Nat) (h : majOf w = 0x45) : decodeMaj w n w1 w2 =
    pick (some (.trw (VF.dec w) (XA.dec w1))) (vecBad 0x45 w w1) := by
  unfold decodeMaj; rw [h]; rfl
theorem decodeMaj_0x46 (w n w1 w2 : Nat) (h : majOf w = 0x46) : decodeMaj w n w1 w2 =
    pick (some (.trc (VF.dec w) (XA.dec w1))) (vecBad 0x46 w w1) := by
  unfold decodeMaj; rw [h]; rfl
theorem decodeMaj_0x47 (w n w1 w2 : Nat) (h : majOf w = 0x47) : decodeMaj w n w1 w2 =
    pick (some (.strmap (sA w) (sB w))) [(5, rrFn w != 0), (5, rrD w != 0)] := by
  unfold decodeMaj; rw [h]; rfl
theorem decodeMaj_0x48 (w n w1 w2 : Nat) (h : majOf w = 0x48) : decodeMaj w n w1 w2 =
    if n = 1 then pick (some (.vmov (VF.dec w))) (vecBad 0x48 w 0)
    else pick (some (.vmovL (VF.dec w) (XA.dec w1))) (vecBad 0x48 w w1) := by
  unfold decodeMaj; rw [h]; rfl
theorem decodeMaj_0x49 (w n w1 w2 : Nat) (h : majOf w = 0x49) : decodeMaj w n w1 w2 =
    if n = 1 then pick (some (.viota (VF.dec w))) (vecBad 0x49 w 0)
    else pick (some (.viotaL (VF.dec w) (XA.dec w1))) (vecBad 0x49 w w1) := by
  unfold decodeMaj; rw [h]; rfl
theorem decodeMaj_0x4A (w n w1 w2 : Nat) (h : majOf w = 0x4A) : decodeMaj w n w1 w2 =
    pick (some (.vclamp (VF.dec w) (XA.dec w1))) (vecBad 0x4A w w1) := by
  unfold decodeMaj; rw [h]; rfl
theorem decodeMaj_0x4C (w n w1 w2 : Nat) (h : majOf w = 0x4C) : decodeMaj w n w1 w2 =
    if n = 1 then pick (some (.tdset (sA w) (sB w))) [(5, rrFn w != 0), (5, rrD w != 0)]
    else pick (some (.tdsetL (sA w) (sB w) (XE.dec w1))) [(5, rrFn w != 0), (5, rrD w != 0), (5, xeTd w1 != 0), (5, xeImm w1 != 0)] := by
  unfold decodeMaj; rw [h]; rfl
theorem decodeMaj_0x4D (w n w1 w2 : Nat) (h : majOf w = 0x4D) : decodeMaj w n w1 w2 =
    pick (some (.tdget (sD w) (sA w) (sB w) (n == 2))) [(5, rrFn w != 0), (5, w1 != 0)] := by
  unfold decodeMaj; rw [h]; rfl
theorem decodeMaj_0x4E (w n w1 w2 : Nat) (h : majOf w = 0x4E) : decodeMaj w n w1 w2 =
    if n = 1 then pick (some (.mcfg (sA w))) [(5, rrFn w != 0), (5, rrD w != 0), (5, rrB w != 0)]
    else pick (some (.mcfgL (sA w) (XE.dec w1))) [(5, rrFn w != 0), (5, rrD w != 0), (5, rrB w != 0), (5, xeTd w1 != 0), (5, xeImm w1 != 0)] := by
  unfold decodeMaj; rw [h]; rfl
theorem decodeMaj_0x4F (w n w1 w2 : Nat) (h : majOf w = 0x4F) : decodeMaj w n w1 w2 =
    pick (some (.mcfgr (sD w) (sB w) (n == 2))) [(5, rrFn w != 0), (5, rrA w != 0), (5, w1 != 0)] := by
  unfold decodeMaj; rw [h]; rfl
theorem decodeMaj_0x50 (w n w1 w2 : Nat) (h : majOf w = 0x50) : decodeMaj w n w1 w2 =
    if n = 1 then pick (some (.mldb (sA w) (sB w))) [(5, rrFn w != 0), (5, rrD w != 0)]
    else pick (some (.mldbL (sA w) (sB w) (XE.dec w1))) [(5, rrFn w != 0), (5, rrD w != 0), (5, 3 < xeImm w1)] := by
  unfold decodeMaj; rw [h]; rfl
theorem decodeMaj_0x51 (w n w1 w2 : Nat) (h : majOf w = 0x51) : decodeMaj w n w1 w2 =
    if n = 1 then pick (some (.mgo)) [(5, rrFn w != 0), (5, rrD w != 0), (5, rrA w != 0), (5, rrB w != 0)]
    else pick (some (.mgoL (XE.dec w1))) [(5, rrFn w != 0), (5, rrD w != 0), (5, rrA w != 0), (5, rrB w != 0), (5, xeImm w1 != 0)] := by
  unfold decodeMaj; rw [h]; rfl
theorem decodeMaj_0x52 (w n w1 w2 : Nat) (h : majOf w = 0x52) : decodeMaj w n w1 w2 =
    pick (some (.mzero (n == 2))) [(5, rrFn w != 0), (5, rrD w != 0), (5, rrA w != 0), (5, rrB w != 0), (5, w1 != 0)] := by
  unfold decodeMaj; rw [h]; rfl
theorem decodeMaj_0x53 (w n w1 w2 : Nat) (h : majOf w = 0x53) : decodeMaj w n w1 w2 =
    pick (some (.mrd (fin 32 (rrD w)) (sA w) (n == 2))) [(5, rrFn w != 0), (5, rrB w != 0), (6, 31 < rrD w), (5, w1 != 0)] := by
  unfold decodeMaj; rw [h]; rfl
theorem decodeMaj_0x54 (w n w1 w2 : Nat) (h : majOf w = 0x54) : decodeMaj w n w1 w2 =
    pick (some (.mwr (fin 32 (rrD w)) (sA w) (n == 2))) [(5, rrFn w != 0), (5, rrB w != 0), (6, 31 < rrD w), (5, w1 != 0)] := by
  unfold decodeMaj; rw [h]; rfl
theorem decodeMaj_0x55 (w n w1 w2 : Nat) (h : majOf w = 0x55) : decodeMaj w n w1 w2 =
    pick (some (.mstat (sD w) (sA w) (n == 2))) [(5, rrFn w != 0), (5, rrB w != 0), (5, w1 != 0)] := by
  unfold decodeMaj; rw [h]; rfl
theorem decodeMaj_0x56 (w n w1 w2 : Nat) (h : majOf w = 0x56) : decodeMaj w n w1 w2 =
    pick (some (.mchk (sA w) (n == 2))) [(5, rrFn w != 0), (5, rrD w != 0), (5, rrB w != 0), (5, w1 != 0)] := by
  unfold decodeMaj; rw [h]; rfl
theorem decodeMaj_0x57 (w n w1 w2 : Nat) (h : majOf w = 0x57) : decodeMaj w n w1 w2 =
    pick (some (.mabort (n == 2))) [(5, rrFn w != 0), (5, rrD w != 0), (5, rrA w != 0), (5, rrB w != 0), (5, w1 != 0)] := by
  unfold decodeMaj; rw [h]; rfl
theorem decodeMaj_0x58 (w n w1 w2 : Nat) (h : majOf w = 0x58) : decodeMaj w n w1 w2 =
    if n = 1 then pick (some (.cpy (fin 4 (rrFn w)) (sA w))) [(5, 3 < rrFn w), (5, rrD w != 0), (5, rrB w != 0)]
    else pick (some (.cpyL (fin 4 (rrFn w)) (sA w) (XE.dec w1))) [(5, 3 < rrFn w), (5, rrD w != 0), (5, rrB w != 0), (5, xeImm w1 != 0)] := by
  unfold decodeMaj; rw [h]; rfl
theorem decodeMaj_0x59 (w n w1 w2 : Nat) (h : majOf w = 0x59) : decodeMaj w n w1 w2 =
    if n = 1 then pick (some (.cpys (fin 4 (rrFn w)) (sD w) (sA w) (sB w))) [(5, 3 < rrFn w)]
    else pick (some (.cpysL (fin 4 (rrFn w)) (sD w) (sA w) (sB w) (XE.dec w1))) [(5, 3 < rrFn w), (5, 511 < xeImm w1)] := by
  unfold decodeMaj; rw [h]; rfl
theorem decodeMaj_0x5A (w n w1 w2 : Nat) (h : majOf w = 0x5A) : decodeMaj w n w1 w2 =
    if n = 1 then pick (some (.gath (fin 4 (rrFn w)) (sA w))) [(5, 3 < rrFn w), (5, rrD w != 0), (5, rrB w != 0)]
    else pick (some (.gathL (fin 4 (rrFn w)) (sA w) (XE.dec w1))) [(5, 3 < rrFn w), (5, rrD w != 0), (5, rrB w != 0), (5, xeImm w1 != 0)] := by
  unfold decodeMaj; rw [h]; rfl
theorem decodeMaj_0x5B (w n w1 w2 : Nat) (h : majOf w = 0x5B) : decodeMaj w n w1 w2 =
    if n = 1 then pick (some (.scat (fin 4 (rrFn w)) (sA w))) [(5, 3 < rrFn w), (5, rrD w != 0), (5, rrB w != 0)]
    else pick (some (.scatL (fin 4 (rrFn w)) (sA w) (XE.dec w1))) [(5, 3 < rrFn w), (5, rrD w != 0), (5, rrB w != 0), (5, xeImm w1 != 0)] := by
  unfold decodeMaj; rw [h]; rfl
theorem decodeMaj_0x5C (w n w1 w2 : Nat) (h : majOf w = 0x5C) : decodeMaj w n w1 w2 =
    if n = 1 then pick (some (.fill (fin 4 (rrFn w)) (sA w))) [(5, 3 < rrFn w), (5, rrD w != 0), (5, rrB w != 0)]
    else pick (some (.fillL (fin 4 (rrFn w)) (sA w) (XE.dec w1))) [(5, 3 < rrFn w), (5, rrD w != 0), (5, rrB w != 0), (5, xeImm w1 != 0)] := by
  unfold decodeMaj; rw [h]; rfl
theorem decodeMaj_0x5D (w n w1 w2 : Nat) (h : majOf w = 0x5D) : decodeMaj w n w1 w2 =
    if n = 1 then pick (some (.qsemw (fin 4 (rrFn w)) (sB w))) [(5, 3 < rrFn w), (5, rrD w != 0), (5, rrA w != 0)]
    else pick (some (.qsemwL (fin 4 (rrFn w)) (sB w) (XE.dec w1))) [(5, 3 < rrFn w), (5, rrD w != 0), (5, rrA w != 0)] := by
  unfold decodeMaj; rw [h]; rfl
theorem decodeMaj_0x5E (w n w1 w2 : Nat) (h : majOf w = 0x5E) : decodeMaj w n w1 w2 =
    pick (match rrFn w / 4 % 4 with
    | 0 => some (.qflush (fin 4 (rrFn w)))
    | 1 => some (.qdrain (fin 4 (rrFn w)))
    | 2 => some (.qstat (fin 4 (rrFn w)) (sD w))
    | _ => some (.qws (fin 4 (rrFn w)) (sD w)))
    [(5, 15 < rrFn w), (5, rrA w != 0), (5, rrB w != 0), (5, rrFn w / 4 % 4 < 2 && rrD w != 0)] := by
  unfold decodeMaj; rw [h]; rfl
theorem decodeMaj_0x60 (w n w1 w2 : Nat) (h : majOf w = 0x60) : decodeMaj w n w1 w2 =
    pick (some (.twait (XE.dec w1))) [(5, rrFn w != 0), (5, rrD w != 0), (5, rrA w != 0), (5, rrB w != 0), (5, xeTd w1 != 0), (5, xeImm w1 != 0)] := by
  unfold decodeMaj; rw [h]; rfl
theorem decodeMaj_0x61 (w n w1 w2 : Nat) (h : majOf w = 0x61) : decodeMaj w n w1 w2 =
    pick (some (.ttest (sD w) (fin 32 (xeTa w1)))) [(5, rrFn w != 0), (5, rrA w != 0), (5, rrB w != 0), (5, xeTd w1 != 0), (5, xeTb w1 != 0), (5, xeTc w1 != 0), (5, xeImm w1 != 0)] := by
  unfold decodeMaj; rw [h]; rfl
theorem decodeMaj_0x62 (w n w1 w2 : Nat) (h : majOf w = 0x62) : decodeMaj w n w1 w2 =
    if n = 1 then pick (some (.semacq (sB w))) [(5, rrFn w != 0), (5, rrD w != 0), (5, rrA w != 0)]
    else pick (some (.semacqL (sB w) (XE.dec w1))) [(5, rrFn w != 0), (5, rrD w != 0), (5, rrA w != 0), (5, xeTd w1 != 0)] := by
  unfold decodeMaj; rw [h]; rfl
theorem decodeMaj_0x63 (w n w1 w2 : Nat) (h : majOf w = 0x63) : decodeMaj w n w1 w2 =
    if n = 1 then pick (some (.semrel (sB w) (sA w))) [(5, rrFn w != 0), (5, rrD w != 0)]
    else pick (some (.semrelL (sB w) (sA w) (XE.dec w1))) [(5, rrFn w != 0), (5, rrD w != 0), (5, xeTd w1 != 0)] := by
  unfold decodeMaj; rw [h]; rfl
theorem decodeMaj_0x64 (w n w1 w2 : Nat) (h : majOf w = 0x64) : decodeMaj w n w1 w2 =
    pick (match rrFn w with
    | 0 => some (.semrd (sD w) (sB w) (if n = 1 then none else some (XE.dec w1)))
    | 1 => some (.semset (sB w) (sA w) (if n = 1 then none else some (XE.dec w1)))
    | _ => none) [(5, rrFn w == 0 && rrA w != 0), (5, rrFn w == 1 && rrD w != 0), (5, xeTd w1 != 0), (5, xeImm w1 != 0)] := by
  unfold decodeMaj; rw [h]; rfl
theorem decodeMaj_0x65 (w n w1 w2 : Nat) (h : majOf w = 0x65) : decodeMaj w n w1 w2 =
    pick (some (.barcfg (fin 48 (rrB w)) (sA w) (if n = 1 then none else some (XE.dec w1)))) [(5, rrFn w != 0), (5, rrD w != 0), (6, 47 < rrB w), (5, xeTd w1 != 0), (5, xeImm w1 != 0)] := by
  unfold decodeMaj; rw [h]; rfl
theorem decodeMaj_0x66 (w n w1 w2 : Nat) (h : majOf w = 0x66) : decodeMaj w n w1 w2 =
    pick (match rrFn w with
    | 0 => some (.bararr (fin 48 (rrB w)) (sA w) (if n = 1 then none else some (XE.dec w1)))
    | 1 => some (.barwait (fin 48 (rrB w)) (sA w) (if n = 1 then none else some (XE.dec w1)))
    | 2 => some (.barsync (fin 48 (rrB w)) (sA w) (if n = 1 then none else some (XE.dec w1)))
    | 3 => some (.bartest (fin 48 (rrB w)) (sD w) (sA w) (if n = 1 then none else some (XE.dec w1)))
    | _ => none) [(5, rrFn w != 3 && rrD w != 0), (6, 47 < rrB w), (5, xeTd w1 != 0), (5, xeImm w1 != 0)] := by
  unfold decodeMaj; rw [h]; rfl
theorem decodeMaj_0x68 (w n w1 w2 : Nat) (h : majOf w = 0x68) : decodeMaj w n w1 w2 =
    pick (some .tend) [(5, rrFn w != 0), (5, rrD w != 0), (5, rrA w != 0), (5, rrB w != 0)] := by
  unfold decodeMaj; rw [h]; rfl
theorem decodeMaj_0x69 (w n w1 w2 : Nat) (h : majOf w = 0x69) : decodeMaj w n w1 w2 =
    pick (if rrFn w < 3 then some (.tself (sD w) (fin 3 (rrFn w))) else none) [(5, rrA w != 0), (5, rrB w != 0)] := by
  unfold decodeMaj; rw [h]; rfl
theorem decodeMaj_0x6A (w n w1 w2 : Nat) (h : majOf w = 0x6A) : decodeMaj w n w1 w2 =
    pick (some (.ldlr (sD w) (fin 16 (riImm w)))) [(5, riA w != 0), (6, 15 < riImm w)] := by
  unfold decodeMaj; rw [h]; rfl
theorem decodeMaj_0x6B (w n w1 w2 : Nat) (h : majOf w = 0x6B) : decodeMaj w n w1 w2 =
    pick (some (.tspawn (sA w) (sB w))) [(5, rrFn w != 0), (5, rrD w != 0)] := by
  unfold decodeMaj; rw [h]; rfl
theorem decodeMaj_0x6C (w n w1 w2 : Nat) (h : majOf w = 0x6C) : decodeMaj w n w1 w2 =
    pick (some (.tabort (sA w))) [(5, rrFn w != 0), (5, rrD w != 0), (5, rrB w != 0)] := by
  unfold decodeMaj; rw [h]; rfl
theorem decodeMaj_0x6D (w n w1 w2 : Nat) (h : majOf w = 0x6D) : decodeMaj w n w1 w2 =
    pick (match rrFn w with
    | 0 => some (.reuseQuery (sD w))
    | 1 => some .reuseAnchor
    | 2 => some .reuseDrop
    | _ => none) [(5, rrA w != 0), (5, rrB w != 0), (5, rrFn w != 0 && rrD w != 0)] := by
  unfold decodeMaj; rw [h]; rfl
theorem decodeMaj_0x6E (w n w1 w2 : Nat) (h : majOf w = 0x6E) : decodeMaj w n w1 w2 =
    pick (some (.tmark (sA w) (sB w))) [(5, rrFn w != 0), (5, rrD w != 0)] := by
  unfold decodeMaj; rw [h]; rfl
theorem decodeMaj_0x6F (w n w1 w2 : Nat) (h : majOf w = 0x6F) : decodeMaj w n w1 w2 =
    pick (some (.tyield (sD w))) [(5, rrFn w != 0), (5, rrA w != 0), (5, rrB w != 0)] := by
  unfold decodeMaj; rw [h]; rfl
theorem decodeMaj_0x70 (w n w1 w2 : Nat) (h : majOf w = 0x70) : decodeMaj w n w1 w2 =
    pick (some (.rngkey (sA w))) [(5, rrFn w != 0), (5, rrB w != 0), (5, rrD w != 0)] := by
  unfold decodeMaj; rw [h]; rfl
theorem decodeMaj_0x71 (w n w1 w2 : Nat) (h : majOf w = 0x71) : decodeMaj w n w1 w2 =
    if n = 1 then pick (some (.rngBits (VF.dec w))) (vecBad 0x71 w 0)
    else pick (match w1 / 2 ^ 24 with
    | 0 => some (.rngBitsL (VF.dec w) (XA.dec w1))
    | 1 => some (.rngUni (VF.dec w) (XA.dec w1))
    | 2 => some (.rngNorm (VF.dec w) (XA.dec w1))
    | 3 => some (.rngGumb (VF.dec w) (XA.dec w1))
    | 4 => some (.rngDrop (VF.dec w) (XA.dec w1))
    | _ => none) (vecBad 0x71 w w1) := by
  unfold decodeMaj; rw [h]; rfl
theorem decodeMaj_0x72 (w n w1 w2 : Nat) (h : majOf w = 0x72) : decodeMaj w n w1 w2 =
    if n = 1 then pick (some (.vgmax (VF.dec w))) (vecBad 0x72 w 0)
    else pick (some (.vgmaxL (VF.dec w) (XA.dec w1))) (vecBad 0x72 w w1) := by
  unfold decodeMaj; rw [h]; rfl
theorem decodeMaj_0x74 (w n w1 w2 : Nat) (h : majOf w = 0x74) : decodeMaj w n w1 w2 =
    if n = 1 then pick (some (.xcpy (fin 4 (rrFn w)) (sA w) (sB w))) [(5, 3 < rrFn w), (5, rrD w != 0)]
    else pick (some (.xcpyL (fin 4 (rrFn w)) (sA w) (sB w) (XE.dec w1))) [(5, 3 < rrFn w), (5, rrD w != 0), (5, xeImm w1 != 0)] := by
  unfold decodeMaj; rw [h]; rfl
theorem decodeMaj_0x75 (w n w1 w2 : Nat) (h : majOf w = 0x75) : decodeMaj w n w1 w2 =
    if n = 1 then pick (some (.halo (fin 4 (rrFn w)) (sA w))) [(5, 3 < rrFn w), (5, rrD w != 0), (5, rrB w != 0)]
    else pick (some (.haloL (fin 4 (rrFn w)) (sA w) (XE.dec w1))) [(5, 3 < rrFn w), (5, rrD w != 0), (5, rrB w != 0), (5, xeImm w1 != 0)] := by
  unfold decodeMaj; rw [h]; rfl
theorem decodeMaj_0x76 (w n w1 w2 : Nat) (h : majOf w = 0x76) : decodeMaj w n w1 w2 =
    if n = 1 then pick (some (.xred (fin 4 (rrFn w)) (sA w) (sB w))) [(5, 3 < rrFn w), (5, rrD w != 0)]
    else pick (some (.xredL (fin 4 (rrFn w)) (sA w) (sB w) (XE.dec w1))) [(5, 3 < rrFn w), (5, rrD w != 0), (5, 3 < xeImm w1)] := by
  unfold decodeMaj; rw [h]; rfl
theorem decodeMaj_0x77 (w n w1 w2 : Nat) (h : majOf w = 0x77) : decodeMaj w n w1 w2 =
    if n = 1 then pick (some (.xsig (sB w) (sA w))) [(5, rrFn w != 0), (5, rrD w != 0)]
    else pick (some (.xsigL (sB w) (sA w) (XE.dec w1))) [(5, rrFn w != 0), (5, rrD w != 0)] := by
  unfold decodeMaj; rw [h]; rfl
theorem decodeMaj_0x78 (w n w1 w2 : Nat) (h : majOf w = 0x78) : decodeMaj w n w1 w2 =
    pick (some (.trap (fin 16 (riImm w)) (sA w))) [(5, riD w != 0), (7, riImm w < 16), (7, 31 < riImm w)] := by
  unfold decodeMaj; rw [h]; rfl
theorem decodeMaj_0x79 (w n w1 w2 : Nat) (h : majOf w = 0x79) : decodeMaj w n w1 w2 =
    pick (match riImm w with
    | 0 => some .eretRerun
    | 1 => some .eretAbort
    | 2 => some .eretResume
    | _ => none) [(5, riD w != 0), (5, riA w != 0)] := by
  unfold decodeMaj; rw [h]; rfl
theorem decodeMaj_0x7A (w n w1 w2 : Nat) (h : majOf w = 0x7A) : decodeMaj w n w1 w2 =
    pick (some (.csrr (sD w) (bv 11 (riImm w)))) [(5, riA w != 0), (9, !csrAssigned (riImm w))] := by
  unfold decodeMaj; rw [h]; rfl
theorem decodeMaj_0x7B (w n w1 w2 : Nat) (h : majOf w = 0x7B) : decodeMaj w n w1 w2 =
    pick (some (if n = 1 then .csrw (sD w) (sA w) (bv 11 (riImm w)) else if xsP12 w1 % 2 = 0 then .csrwSet (sD w) (sA w) (bv 11 (riImm w)) else .csrwClr (sD w) (sA w) (bv 11 (riImm w))))
      [(5, xsTop w1 != 0), (5, 1 < xsP12 w1), (5, xsSc w1 != 0), (5, xsRnd w1 != 0), (9, !csrAssigned (riImm w))] := by
  unfold decodeMaj; rw [h]; rfl
theorem decodeMaj_0x7C (w n w1 w2 : Nat) (h : majOf w = 0x7C) : decodeMaj w n w1 w2 =
    pick (some (.gear (sD w) (if riImm w % 2 = 1 then .f else .n))) [(5, riA w != 0), (5, riImm w / 2 != 0)] := by
  unfold decodeMaj; rw [h]; rfl
theorem decodeMaj_0x7D (w n w1 w2 : Nat) (h : majOf w = 0x7D) : decodeMaj w n w1 w2 =
    pick (if riImm w < 4 then some (.time (sD w) (fin 4 (riImm w))) else none) [(5, riA w != 0)] := by
  unfold decodeMaj; rw [h]; rfl
theorem decodeMaj_0x7E (w n w1 w2 : Nat) (h : majOf w = 0x7E) : decodeMaj w n w1 w2 =
    pick (match rrFn w with
    | 0 => some (.strstart (sA w) (sB w))
    | 1 => some (.strstop (sA w))
    | 2 => some (.wfe (sD w))
    | 3 => some (.tlbinv (sA w))
    | 4 => some (.brk (sA w))
    | 5 => some (.ctxid (sD w))
    | _ => none)
    [(5, (rrFn w == 2 || rrFn w == 5) && rrA w != 0), (5, rrFn w != 0 && rrB w != 0), (5, rrFn w != 2 && rrFn w != 5 && rrD w != 0)] := by
  unfold decodeMaj; rw [h]; rfl

end Sys2Proof
end

