-- ==== Sys2Proof/Tests/Slice0.lean ====
section
/-! SUPPORT. Tests: ill-formed terms, decoded words, single steps on small states, and a witness for the hypotheses of each
statement. The expected results come from the spec's encodings, tables and worked examples, or from a calculation by hand. -/
set_option Elab.async false
namespace Sys2Proof.Tests
open Sys2Proof Sys2Proof.Machine

/-! ## The layouts of R39 and R41, field by field -/
/-- F-RR: fn, b, a, d, MAJ and the length. -/
def rr (maj fn d a b len : Nat) : Nat := len + 2 ^ 2 * maj + 2 ^ 9 * d + 2 ^ 15 * a + 2 ^ 21 * b + 2 ^ 27 * fn
/-- F-RI: imm11, a, d, MAJ and the length. -/
def ri (maj d a imm len : Nat) : Nat := len + 2 ^ 2 * maj + 2 ^ 9 * d + 2 ^ 15 * a + 2 ^ 21 * imm
/-- F-B: off8, cond, b, a, MAJ and the length. -/
def fb (maj cond a b off len : Nat) : Nat := len + 2 ^ 2 * maj + 2 ^ 9 * a + 2 ^ 15 * b + 2 ^ 21 * cond + 2 ^ 24 * off
/-- F-J: off17, d, MAJ and the length. -/
def fj (maj d off len : Nat) : Nat := len + 2 ^ 2 * maj + 2 ^ 9 * d + 2 ^ 15 * off
/-- F-VM: imm12, a, vd, MAJ and the length. -/
def fvm (maj vd a imm len : Nat) : Nat := len + 2 ^ 2 * maj + 2 ^ 9 * vd + 2 ^ 14 * a + 2 ^ 20 * imm
/-- F-V: ty, k, vb, va, vd, MAJ and the length. -/
def fv (maj ty k vb va vd len : Nat) : Nat := len + 2 ^ 2 * maj + 2 ^ 9 * vd + 2 ^ 14 * va + 2 ^ 19 * vb + 2 ^ 24 * k + 2 ^ 27 * ty
/-- X-S in parcel 1: p12, sc and rnd. -/
def xs (p12 sc rnd : Nat) : Nat := 2 ^ 32 * (rnd + 2 ^ 3 * sc + 2 ^ 9 * p12)
/-- X-M in parcel 1: disp23, w64, rh, scope and ord. -/
def xm (disp w64 rh scope ord : Nat) : Nat := 2 ^ 32 * (ord + 2 ^ 3 * scope + 2 ^ 6 * rh + 2 ^ 8 * w64 + 2 ^ 9 * disp)
/-- X-A in parcel 1: sub, wid, bs, sc, vc, ftz, sat, vr and rnd. -/
def xa (sub wid bs sc vc ftz sat vr rnd : Nat) : Nat :=
  2 ^ 32 * (rnd + 2 ^ 3 * vr + 2 ^ 8 * sat + 2 ^ 9 * ftz + 2 ^ 10 * vc + 2 ^ 15 * sc + 2 ^ 21 * bs + 2 ^ 22 * wid + 2 ^ 24 * sub)
/-- X-E in parcel 1: imm12, tc, tb, ta and td. -/
def xe (imm tc tb ta td : Nat) : Nat := 2 ^ 32 * (td + 2 ^ 5 * ta + 2 ^ 10 * tb + 2 ^ 15 * tc + 2 ^ 20 * imm)
/-- Each word of n bits decodes to the instruction beside it. -/
noncomputable def reads (n : Nat) (l : List (Nat × Instr)) : Bool := l.all fun x => decodeTableWord n x.1 == some x.2
/-- No word of n bits decodes. -/
noncomputable def refuses (n : Nat) (l : List Nat) : Bool := l.all fun w => (decodeTableWord n w).isNone

/-! ## Decoding (R52, R53, and the entry of each instruction) -/
theorem test_decode_alu : reads 32 [(rr 1 0 3 4 5 0, .add 3 4 5), (rr 1 1 3 4 5 0, .sub 3 4 5), (rr 1 2 3 4 5 0, .and 3 4 5),
    (rr 1 3 3 4 5 0, .or 3 4 5), (rr 1 4 3 4 5 0, .xor 3 4 5), (rr 1 5 3 4 5 0, .shl 3 4 5), (rr 1 6 3 4 5 0, .shr 3 4 5),
    (rr 1 7 3 4 5 0, .sar 3 4 5), (rr 1 8 3 4 5 0, .min 3 4 5), (rr 1 9 3 4 5 0, .mins 3 4 5), (rr 1 10 3 4 5 0, .max 3 4 5),
    (rr 1 11 3 4 5 0, .maxs 3 4 5), (rr 1 12 3 4 5 0, .slt 3 4 5), (rr 1 13 3 4 5 0, .slts 3 4 5), (rr 1 14 3 4 5 0, .seq 3 4 5),
    (rr 1 15 3 4 5 0, .sne 3 4 5), (rr 1 16 3 4 5 0, .mul 3 4 5), (rr 1 17 3 4 5 0, .mulhi 3 4 5), (rr 1 18 3 4 5 0, .mulhis 3 4 5),
    (rr 1 19 3 4 5 0, .div 3 4 5), (rr 1 20 3 4 5 0, .divs 3 4 5), (rr 1 21 3 4 5 0, .rem 3 4 5), (rr 1 22 3 4 5 0, .rems 3 4 5),
    (rr 1 23 3 4 5 0, .andn 3 4 5), (rr 1 24 63 62 61 0, .orn 63 62 61)] = true := by decide +kernel
theorem test_decode_one : reads 32 [(rr 2 0 9 33 0 0, .clz 9 33), (rr 2 1 9 33 0 0, .ctz 9 33), (rr 2 2 9 33 0 0, .popc 9 33),
    (rr 2 3 9 33 0 0, .sextB 9 33), (rr 2 4 9 33 0 0, .sextH 9 33), (rr 2 5 9 33 0 0, .sextW 9 33), (rr 2 6 9 33 0 0, .zextB 9 33),
    (rr 2 7 9 33 0 0, .zextH 9 33), (rr 2 8 9 33 0 0, .zextW 9 33), (rr 2 9 9 33 0 0, .brev 9 33), (rr 2 10 9 33 0 0, .bswap 9 33)] = true := by
  decide +kernel
theorem test_decode_immediates : reads 32 [(ri 3 1 2 0x7FF 0, .addi 1 2 0x7FF), (ri 4 1 2 5 0, .andi 1 2 5), (ri 5 1 2 5 0, .ori 1 2 5),
    (ri 6 1 2 5 0, .xori 1 2 5), (ri 8 1 2 5 0, .slti 1 2 5), (ri 7 1 2 63 0, .shli 1 2 63), (ri 7 1 2 (64 + 1) 0, .shri 1 2 1),
    (ri 7 1 2 (128 + 1) 0, .sari 1 2 1), (ri 7 1 2 (192 + 1) 0, .roli 1 2 1), (ri 10 1 2 5 0, .lih 1 2 5), (fj 11 1 0x1FFFF 0, .addpc 1 0x1FFFF)] = true
  ∧ reads 96 [(ri 3 1 2 0 2 + 2 ^ 64 * 0xFEDCBA98, .addiL 1 2 0xFEDCBA98), (ri 4 1 2 0 2 + 2 ^ 64 * 9, .andiL 1 2 9),
    (ri 5 1 2 0 2 + 2 ^ 64 * 9, .oriL 1 2 9), (ri 6 1 2 0 2 + 2 ^ 64 * 9, .xoriL 1 2 9), (ri 8 1 2 0 2 + 2 ^ 64 * 9, .sltiL 1 2 9),
    (ri 9 9 0 0 2 + 2 ^ 64 * 0x12345678, .li 9 0x12345678), (ri 10 1 2 0 2 + 2 ^ 64 * 9, .lihL 1 2 9)] = true := by decide +kernel
theorem test_decode_fields : reads 64 [(fj 11 1 0 1 + 2 ^ 32 * 0xFFFFFFFF, .addpcL 1 0xFFFFFFFF), (rr 12 0 1 2 0 1 + xs (63 + 64 * 0) 0 0, .bfx 1 2 63 0),
    (rr 12 1 1 2 0 1 + xs (0 + 64 * 63) 0 0, .bfxs 1 2 0 63), (rr 13 0 1 2 0 1 + xs (8 + 64 * 7) 0 0, .bfi 1 2 8 7),
    (rr 14 0 1 3 4 1 + xs 0 2 0, .sel 1 2 3 4)] = true := by decide +kernel
theorem test_decode_float : reads 32 [(rr 15 0 1 2 3 0, .fadd 1 2 3), (rr 15 1 1 2 3 0, .fsub 1 2 3), (rr 15 2 1 2 3 0, .fmul 1 2 3),
    (rr 15 3 1 2 3 0, .fmin 1 2 3 false), (rr 15 4 1 2 3 0, .fmax 1 2 3 false), (rr 15 5 1 2 3 0, .feq 1 2 3 false),
    (rr 15 6 1 2 3 0, .flt 1 2 3 false), (rr 15 7 1 2 3 0, .fle 1 2 3 false), (rr 15 8 1 2 0 0, .fcvtF32I64 1 2), (rr 15 9 1 2 0 0, .fcvtI64F32 1 2),
    (rr 15 11 1 2 0 0, .fabs 1 2 false), (rr 15 12 1 2 0 0, .fneg 1 2 false)] = true
  ∧ reads 64 [(rr 15 0 1 2 3 1 + xs 0 0 7, .faddL 1 2 3 .dyn), (rr 15 1 1 2 3 1 + xs 0 0 1, .fsubL 1 2 3 .rtz), (rr 15 2 1 2 3 1 + xs 0 0 2, .fmulL 1 2 3 .rdn),
    (rr 15 7 1 2 3 1 + xs 0 0 0, .fle 1 2 3 true), (rr 15 8 1 2 0 1 + xs 0 0 3, .fcvtF32I64L 1 2 .rup), (rr 15 9 1 2 0 1 + xs 0 0 4, .fcvtI64F32L 1 2 .rna),
    (rr 15 10 1 2 3 1 + xs 0 4 5, .ffma 1 2 3 4 .rod)] = true
  ∧ refuses 64 [rr 15 0 1 2 3 1 + xs 0 0 6, rr 15 3 1 2 3 1 + xs 0 0 1] = true := by decide +kernel
theorem test_decode_branches : reads 32 [(fb 16 0 1 2 0xFE 0, .beq 1 2 0xFE), (fb 16 1 1 2 4 0, .bne 1 2 4), (fb 16 2 1 2 4 0, .blt 1 2 4),
    (fb 16 3 1 2 4 0, .bge 1 2 4), (fb 16 4 1 2 4 0, .blts 1 2 4), (fb 16 5 1 2 4 0, .bges 1 2 4), (fj 18 1 3 0, .jal 1 3), (ri 19 1 2 4 0, .jalr 1 2 4),
    (ri 20 1 4 2 0, .loop 1 4 2), (rr 21 0 0 5 0 0, .bqpush 5), (fj 22 0 3 0, .bqb 3)] = true
  ∧ reads 64 [(fb 17 0 1 2 0 1 + 2 ^ 32 * 9, .beqL 1 2 9), (fb 17 1 1 2 0 1 + 2 ^ 32 * 9, .bneL 1 2 9), (fb 17 2 1 2 0 1 + 2 ^ 32 * 9, .bltL 1 2 9),
    (fb 17 3 1 2 0 1 + 2 ^ 32 * 9, .bgeL 1 2 9), (fb 17 4 1 2 0 1 + 2 ^ 32 * 9, .bltsL 1 2 9), (fb 17 5 1 2 0 1 + 2 ^ 32 * 9, .bgesL 1 2 9),
    (fj 18 1 0 1 + 2 ^ 32 * 9, .jalL 1 9), (fj 22 0 0 1 + 2 ^ 32 * 9, .bqbL 9)] = true
  ∧ refuses 32 [fb 16 6 1 2 4 0, ri 20 1 4 0 0, ri 20 2 4 2 0] = true := by decide +kernel
theorem test_decode_memory : reads 32 [(ri 24 1 2 8 0, .ldD 1 2 8), (ri 25 1 2 8 0, .ldW 1 2 8), (ri 26 1 2 8 0, .stD 1 2 8), (ri 27 1 2 8 0, .stW 1 2 8),
    (fvm 30 3 5 2 0, .ldv 3 5 2), (fvm 31 3 5 0xFFF 0, .stv 3 5 0xFFF), (rr 33 0 0 0 (8 * 2 + 64 * 0) 0, .fence .die), (ri 33 0 0 (1 + 8 * 4) 0, .fenceAcq .sys),
    (ri 33 0 0 (2 + 8 * 1) 0, .fenceRel .core), (ri 33 0 0 3 0, .fenceEng), (ri 33 0 0 4 0, .fetchb), (rr 34 0 0 1 2 0, .rpass 1 2), (rr 34 1 0 1 0 0, .rshare 1),
    (rr 35 0 1 2 0 0, .rquery 1 2), (ri 36 0 2 0 0, .dcwb 2), (ri 36 0 2 1 0, .dcwbi 2), (ri 36 0 2 2 0, .dcinv 2), (ri 36 0 2 3 0, .icinv 2), (ri 36 0 0 4 0, .icinva),
    (ri 36 0 2 (5 + 8 * 2) 0, .pref 2 2), (rr 37 0 0 2 0 0, .pbinv 2), (rr 38 0 0 2 0 0, .publ 2)] = true
  ∧ reads 64 [(ri 24 7 2 0 1 + xm 64 0 0 3 2, .ldDL 7 2 ⟨64, false, 0, .dev, .acq⟩), (ri 25 7 2 0 1 + xm 64 0 1 0 1, .ldWL 7 2 ⟨64, false, 1, .strand, .rlx⟩),
    (ri 26 7 2 0 1 + xm 64 0 2 4 3, .stDL 7 2 ⟨64, false, 2, .sys, .rel⟩), (ri 27 7 2 0 1 + xm 64 0 3 0 0, .stWL 7 2 ⟨64, false, 3, .strand, .plain⟩),
    (0x01218E71 + 2 ^ 32 * 0xFFFFF400, .ldx 7 3 1 true ⟨0x7FFFFA, false, 0, .strand, .plain⟩), (ri 29 7 3 3 1 + xm 1 0 0 1 3, .stx 7 3 3 ⟨1, false, 0, .core, .rel⟩),
    (fvm 30 3 5 0 1 + xm 64 0 1 0 0, .ldvL 3 5 ⟨64, false, 1, .strand, .plain⟩), (fvm 31 3 5 0 1 + xm 64 0 1 0 0, .stvL 3 5 ⟨64, false, 1, .strand, .plain⟩)] = true := by decide +kernel
theorem test_decode_atoms : reads 32 [(rr 32 0 1 2 3 0, .atomAdd 1 2 3), (rr 32 1 1 2 3 0, .atomAnd 1 2 3), (rr 32 2 1 2 3 0, .atomOr 1 2 3), (rr 32 3 1 2 3 0, .atomXor 1 2 3),
    (rr 32 4 1 2 3 0, .atomMin 1 2 3), (rr 32 5 1 2 3 0, .atomMins 1 2 3), (rr 32 6 1 2 3 0, .atomMax 1 2 3), (rr 32 7 1 2 3 0, .atomMaxs 1 2 3),
    (rr 32 8 1 2 3 0, .atomSwap 1 2 3), (rr 32 9 1 2 3 0, .atomFadd32 1 2 3), (rr 32 10 1 2 3 0, .atomCas 1 2 3)] = true
  ∧ reads 64 [(0x51421281 + 2 ^ 32 * 0x0000011C, .atomL .cas 9 4 10 ⟨0, true, 0, .dev, .ar⟩), (rr 32 9 1 2 3 1 + xm 8 0 0 2 1, .atomL .fadd32 1 2 3 ⟨8, false, 0, .die, .rlx⟩)] = true
  ∧ refuses 64 [rr 32 9 1 2 3 1 + xm 8 1 0 2 1, rr 32 11 1 2 3 1] = true := by decide +kernel
/-- A short vector instruction with its fields, and X-A with mode RSR, mask register and so on for a long one. -/
def f32v : VF := ⟨.f32, 1, 4, 3, 2⟩
def f32u : VF := ⟨.f32, 1, 0, 3, 2⟩
theorem test_decode_vector : reads 32 [(fv 0x28 0 1 4 3 2 0, .vadd f32v), (fv 0x29 0 1 4 3 2 0, .vsub f32v), (fv 0x2A 0 1 4 3 2 0, .vmul f32v), (fv 0x2B 0 1 4 3 2 0, .vfma f32v),
    (fv 0x2C 0 1 4 3 2 0, .vfnma f32v), (fv 0x2D 0 1 4 3 2 0, .vmin f32v), (fv 0x2E 0 1 4 3 2 0, .vmax f32v), (fv 0x2F 0 1 0 3 2 0, .vabs f32u), (fv 0x30 0 1 0 3 2 0, .vneg f32u),
    (fv 0x31 15 1 4 3 2 0, .vlogic ⟨.b1, 1, 4, 3, 2⟩), (fv 0x32 6 1 4 3 2 0, .vshift ⟨.i8, 1, 4, 3, 2⟩), (fv 0x33 0 1 4 3 2 0, .vcmp f32v), (fv 0x34 0 1 4 3 2 0, .vsel f32v),
    (fv 0x37 0 1 4 3 2 0, .vdiv f32v), (fv 0x38 0 1 0 3 2 0, .vsqrt f32u), (fv 0x39 0 1 0 3 2 0, .vapprox f32u), (fv 0x3A 0 1 0 3 2 0, .vred f32u),
    (fv 0x3B 6 1 1 3 2 0, .vbcast ⟨.i8, 1, 1, 3, 2⟩), (fv 0x3E 0 1 4 3 2 0, .vperm f32v), (fv 0x42 0 1 0 3 2 0, .vcvt f32u), (fv 0x44 9 1 0 3 2 0, .vplane ⟨.n8, 1, 0, 3, 2⟩),
    (fv 0x48 0 1 0 3 2 0, .vmov f32u), (fv 0x49 6 1 0 0 2 0, .viota ⟨.i8, 1, 0, 0, 2⟩), (rr 0x47 0 0 5 6 0, .strmap 5 6)] = true := by decide +kernel
theorem test_decode_vector_long : reads 64 [
    (fv 0x28 0 1 4 3 2 1 + xa 0 0 0 0 0 1 1 5 6, .vaddL f32v ⟨0, .none, false, 0, 0, true, true, 5, .rsr⟩), (fv 0x29 0 1 0 3 2 1 + xa 0 0 1 9 0 0 0 0 7, .vsubL f32u ⟨0, .none, true, 9, 0, false, false, 0, .dyn⟩),
    (fv 0x2A 0 1 4 3 2 1 + xa 0 0 0 0 0 0 0 0 1, .vmulL f32v ⟨0, .none, false, 0, 0, false, false, 0, .rtz⟩), (fv 0x2B 0 1 4 3 2 1 + xa 0 0 0 0 7 0 0 0 2, .vfmaL f32v ⟨0, .none, false, 0, 7, false, false, 0, .rdn⟩),
    (fv 0x2C 0 1 4 3 2 1 + xa 0 0 0 0 7 0 0 0 3, .vfnmaL f32v ⟨0, .none, false, 0, 7, false, false, 0, .rup⟩), (fv 0x2D 0 1 4 3 2 1 + xa 0 0 0 0 0 1 0 0 0, .vminL f32v ⟨0, .none, false, 0, 0, true, false, 0, .rne⟩),
    (fv 0x2E 0 1 4 3 2 1 + xa 0 0 0 0 0 1 0 0 0, .vmaxL f32v ⟨0, .none, false, 0, 0, true, false, 0, .rne⟩), (fv 0x2F 6 1 0 3 2 1 + xa 0 0 0 0 0 0 1 0 0, .vabsL ⟨.i8, 1, 0, 3, 2⟩ ⟨0, .none, false, 0, 0, false, true, 0, .rne⟩),
    (fv 0x30 6 1 0 3 2 1 + xa 0 0 0 0 0 0 1 0 0, .vnegL ⟨.i8, 1, 0, 3, 2⟩ ⟨0, .none, false, 0, 0, false, true, 0, .rne⟩), (fv 0x31 0 1 4 3 2 1 + xa 5 0 0 0 0 0 0 0 0, .vlogicL f32v ⟨5, .none, false, 0, 0, false, false, 0, .rne⟩),
    (fv 0x32 6 1 4 3 2 1 + xa 3 0 0 0 0 0 0 0 0, .vshiftL ⟨.i8, 1, 4, 3, 2⟩ ⟨3, .none, false, 0, 0, false, false, 0, .rne⟩), (fv 0x33 0 1 4 3 2 1 + xa 6 0 0 0 0 1 0 0 0, .vcmpL f32v ⟨6, .none, false, 0, 0, true, false, 0, .rne⟩),
    (fv 0x34 0 1 4 3 2 1, .vselL f32v XA.zero), (fv 0x35 6 1 4 3 4 1 + xa 0 2 0 0 0 0 0 0 0, .vmulw ⟨.i8, 1, 4, 3, 4⟩ ⟨0, .quad, false, 0, 0, false, false, 0, .rne⟩),
    (fv 0x36 1 1 4 3 4 1 + xa 0 1 0 0 0 0 0 0 1, .vaddw ⟨.f16, 1, 4, 3, 4⟩ ⟨0, .pair, false, 0, 0, false, false, 0, .rtz⟩), (fv 0x37 0 1 4 3 2 1 + xa 0 0 0 0 0 0 1 0 4, .vdivL f32v ⟨0, .none, false, 0, 0, false, true, 0, .rna⟩),
    (fv 0x38 0 1 0 3 2 1 + xa 0 0 0 0 0 0 0 0 5, .vsqrtL f32u ⟨0, .none, false, 0, 0, false, false, 0, .rod⟩), (fv 0x39 0 1 0 3 2 1 + xa 5 0 0 0 0 1 0 0 0, .vapproxL f32u ⟨5, .none, false, 0, 0, true, false, 0, .rne⟩),
    (fv 0x3A 6 1 0 3 2 1 + xa 3 0 0 0 0 0 0 0 0, .vredL ⟨.i8, 1, 0, 3, 2⟩ ⟨3, .none, false, 0, 0, false, false, 0, .rne⟩)] = true := by decide +kernel
theorem test_decode_vector_moves : reads 64 [
    (fv 0x3B 6 1 1 3 2 1 + xa 255 0 0 0 0 0 0 0 0, .vbcastL ⟨.i8, 1, 1, 3, 2⟩ ⟨255, .none, false, 0, 0, false, false, 0, .rne⟩), (fv 0x3C 6 0 1 3 0 1 + xa 7 0 0 9 0 0 0 0 0, .vext ⟨.i8, 0, 1, 3, 0⟩ ⟨7, .none, false, 9, 0, false, false, 0, .rne⟩),
    (fv 0x3D 6 0 1 0 2 1 + xa 7 0 0 9 0 0 0 0 0, .vins ⟨.i8, 0, 1, 0, 2⟩ ⟨7, .none, false, 9, 0, false, false, 0, .rne⟩), (fv 0x3E 0 1 4 3 2 1, .vpermL f32v XA.zero),
    (fv 0x3F 0 1 4 3 2 1 + xa 0 0 0 9 0 0 0 0 0, .vslide f32v ⟨0, .none, false, 9, 0, false, false, 0, .rne⟩), (fv 0x40 5 0 0 4 2 1 + xa 1 2 0 0 0 0 1 0 0, .vpack ⟨.e2m1, 0, 0, 4, 2⟩ ⟨1, .quad, false, 0, 0, false, true, 0, .rne⟩),
    (fv 0x41 14 0 0 3 4 1 + xa 0 2 0 0 0 0 0 0 0, .vunpk ⟨.e8m0, 0, 0, 3, 4⟩ ⟨0, .quad, false, 0, 0, false, false, 0, .rne⟩), (fv 0x42 6 1 0 3 2 1 + xa 3 0 0 0 0 0 1 0 1, .vcvtL ⟨.i8, 1, 0, 3, 2⟩ ⟨3, .none, false, 0, 0, false, true, 0, .rtz⟩),
    (fv 0x43 9 0 0 4 8 1 + xa 0 2 0 5 0 0 0 0 0, .vqnt ⟨.n8, 0, 0, 4, 8⟩ ⟨0, .quad, false, 5, 0, false, false, 0, .rne⟩), (fv 0x44 9 1 0 3 2 1 + xa 0 0 0 9 0 0 0 0 0, .vplaneL ⟨.n8, 1, 0, 3, 2⟩ ⟨0, .none, false, 9, 0, false, false, 0, .rne⟩),
    (fv 0x45 6 0 0 3 0 1 + xa 1 0 0 9 0 0 0 0 0, .trw ⟨.i8, 0, 0, 3, 0⟩ ⟨1, .none, false, 9, 0, false, false, 0, .rne⟩), (fv 0x46 6 0 0 0 2 1 + xa 1 0 0 9 0 0 0 0 0, .trc ⟨.i8, 0, 0, 0, 2⟩ ⟨1, .none, false, 9, 0, false, false, 0, .rne⟩),
    (fv 0x48 0 1 0 3 2 1, .vmovL f32u XA.zero), (fv 0x49 6 1 0 0 2 1 + xa 0 0 0 9 0 0 1 0 0, .viotaL ⟨.i8, 1, 0, 0, 2⟩ ⟨0, .none, false, 9, 0, false, true, 0, .rne⟩),
    (fv 0x4A 6 1 4 3 2 1 + xa 0 0 0 0 7 0 0 0 0, .vclamp ⟨.i8, 1, 4, 3, 2⟩ ⟨0, .none, false, 0, 7, false, false, 0, .rne⟩)] = true
  ∧ reads 96 [(fv 0x3B 6 1 0 0 2 2 + 2 ^ 64 * 0x7F, .vbcastImm ⟨.i8, 1, 0, 0, 2⟩ 0x7F)] = true
  ∧ refuses 64 [fv 0x3C 0 0 1 3 0 1, fv 0x35 6 1 4 3 2 1 + xa 0 2 0 0 0 0 0 0 0, fv 0x2A 16 1 4 3 2 1] = true := by decide +kernel
theorem test_decode_matrix : reads 32 [(rr 0x4C 0 0 1 2 0, .tdset 1 2), (rr 0x4D 0 3 1 2 0, .tdget 3 1 2 false), (rr 0x4E 0 0 1 0 0, .mcfg 1), (rr 0x4F 0 3 0 2 0, .mcfgr 3 2 false), (rr 0x50 0 0 1 2 0, .mldb 1 2), (rr 0x51 0 0 0 0 0, .mgo),
    (rr 0x52 0 0 0 0 0, .mzero false), (rr 0x53 0 3 1 0 0, .mrd 3 1 false), (rr 0x54 0 3 1 0 0, .mwr 3 1 false), (rr 0x55 0 3 1 0 0, .mstat 3 1 false), (rr 0x56 0 0 1 0 0, .mchk 1 false), (rr 0x57 0 0 0 0 0, .mabort false)] = true
  ∧ reads 64 [(rr 0x4C 0 0 1 2 1 + xe 0 3 2 1 0, .tdsetL 1 2 ⟨0, 3, 2, 1, 0⟩), (rr 0x4E 0 0 1 0 1 + xe 0 3 2 1 0, .mcfgL 1 ⟨0, 3, 2, 1, 0⟩), (rr 0x50 0 0 1 2 1 + xe 3 0 0 1 5, .mldbL 1 2 ⟨3, 0, 0, 1, 5⟩),
    (rr 0x51 0 0 0 0 1 + xe 0 0 0 1 5, .mgoL ⟨0, 0, 0, 1, 5⟩), (rr 0x57 0 0 0 0 1, .mabort true)] = true := by decide +kernel
theorem test_decode_engine : reads 32 [(rr 0x58 2 0 1 0 0, .cpy 2 1), (rr 0x59 1 3 1 2 0, .cpys 1 3 1 2), (rr 0x5A 0 0 1 0 0, .gath 0 1), (rr 0x5B 3 0 1 0 0, .scat 3 1), (rr 0x5C 1 0 1 0 0, .fill 1 1), (rr 0x5D 2 0 0 7 0, .qsemw 2 7),
    (rr 0x5E 3 0 0 0 0, .qflush 3), (rr 0x5E (4 + 2) 0 0 0 0, .qdrain 2), (rr 0x5E (8 + 1) 5 0 0 0, .qstat 1 5), (rr 0x5E 12 5 0 0 0, .qws 0 5), (rr 0x74 1 0 1 2 0, .xcpy 1 1 2), (rr 0x75 1 0 1 0 0, .halo 1 1), (rr 0x76 1 0 1 2 0, .xred 1 1 2),
    (rr 0x77 0 0 1 2 0, .xsig 2 1)] = true
  ∧ reads 64 [(0x08030161 + 2 ^ 32 * 0x45, .cpyL 1 6 ⟨0, 0, 0, 2, 5⟩), (rr 0x59 1 3 1 2 1 + xe 511 0 0 0 5, .cpysL 1 3 1 2 ⟨511, 0, 0, 0, 5⟩), (rr 0x5A 1 0 6 0 1 + xe 0 0 0 2 5, .gathL 1 6 ⟨0, 0, 0, 2, 5⟩),
    (rr 0x5B 1 0 6 0 1 + xe 0 0 0 2 5, .scatL 1 6 ⟨0, 0, 0, 2, 5⟩), (rr 0x5C 1 0 6 0 1 + xe 0 0 0 2 5, .fillL 1 6 ⟨0, 0, 0, 2, 5⟩), (rr 0x5D 1 0 0 6 1 + xe 9 0 0 2 5, .qsemwL 1 6 ⟨9, 0, 0, 2, 5⟩),
    (rr 0x74 1 0 1 2 1 + xe 0 0 0 2 5, .xcpyL 1 1 2 ⟨0, 0, 0, 2, 5⟩), (rr 0x75 1 0 1 0 1 + xe 0 0 0 2 5, .haloL 1 1 ⟨0, 0, 0, 2, 5⟩), (rr 0x76 1 0 1 2 1 + xe 3 0 0 2 5, .xredL 1 1 2 ⟨3, 0, 0, 2, 5⟩),
    (rr 0x77 0 0 1 2 1 + xe 9 0 0 2 5, .xsigL 2 1 ⟨9, 0, 0, 2, 5⟩)] = true
  ∧ refuses 64 [rr 0x58 4 0 1 0 1, rr 0x59 1 3 1 2 1 + xe 512 0 0 0 0, rr 0x76 1 0 1 2 1 + xe 4 0 0 2 5] = true := by decide +kernel
theorem test_decode_sync : reads 64 [(0x00000181 + 2 ^ 32 * 0x80, .twait ⟨0, 0, 0, 4, 0⟩), (0x00000B85 + 2 ^ 32 * 0x60, .ttest 5 3), (rr 0x62 0 0 0 2 1 + xe 9 0 0 1 0, .semacqL 2 ⟨9, 0, 0, 1, 0⟩),
    (rr 0x63 0 0 9 2 1 + xe 4 0 0 1 0, .semrelL 2 9 ⟨4, 0, 0, 1, 0⟩)] = true
  ∧ reads 32 [(0x00400188, .semacq 2), (0x0044818C, .semrel 2 9), (rr 0x64 0 3 0 2 0, .semrd 3 2 none), (rr 0x64 1 0 3 2 0, .semset 2 3 none), (rr 0x65 0 0 1 47 0, .barcfg 47 1 none), (rr 0x66 0 0 1 3 0, .bararr 3 1 none),
    (rr 0x66 1 0 1 3 0, .barwait 3 1 none), (0x10600198, .barsync 3 0 none), (rr 0x66 3 4 1 3 0, .bartest 3 4 1 none)] = true
  ∧ refuses 32 [rr 0x65 0 0 1 48 0, rr 0x66 4 0 1 3 0] = true ∧ refuses 64 [rr 0x63 0 0 9 2 1 + xe 4 0 0 1 5] = true := by decide +kernel
theorem test_decode_tasks : reads 32 [(rr 0x68 0 0 0 0 0, .tend), (rr 0x69 2 3 0 0 0, .tself 3 2), (ri 0x6A 3 0 15 0, .ldlr 3 15), (rr 0x6B 0 0 1 2 0, .tspawn 1 2), (rr 0x6C 0 0 1 0 0, .tabort 1), (rr 0x6D 0 3 0 0 0, .reuseQuery 3),
    (rr 0x6D 1 0 0 0 0, .reuseAnchor), (rr 0x6D 2 0 0 0 0, .reuseDrop), (rr 0x6E 0 0 1 2 0, .tmark 1 2), (rr 0x6F 0 3 0 0 0, .tyield 3)] = true
  ∧ refuses 32 [rr 0x69 3 3 0 0 0, ri 0x6A 3 0 16 0, rr 0x6D 3 3 0 0 0] = true := by decide +kernel
theorem test_decode_random : reads 32 [(rr 0x70 0 0 1 0 0, .rngkey 1), (fv 0x71 6 1 0 0 2 0, .rngBits ⟨.i8, 1, 0, 0, 2⟩), (fv 0x72 0 1 4 3 2 0, .vgmax f32v)] = true
  ∧ reads 64 [(fv 0x71 6 1 0 0 2 1 + xa 0 0 0 9 0 0 0 0 0, .rngBitsL ⟨.i8, 1, 0, 0, 2⟩ ⟨0, .none, false, 9, 0, false, false, 0, .rne⟩), (fv 0x71 0 1 0 0 2 1 + xa 1 0 0 9 0 0 0 0 0, .rngUni ⟨.f32, 1, 0, 0, 2⟩ ⟨1, .none, false, 9, 0, false, false, 0, .rne⟩),
    (fv 0x71 0 1 0 0 2 1 + xa 2 0 0 9 0 0 0 0 0, .rngNorm ⟨.f32, 1, 0, 0, 2⟩ ⟨2, .none, false, 9, 0, false, false, 0, .rne⟩), (fv 0x71 0 1 0 0 2 1 + xa 3 0 0 9 0 0 0 0 0, .rngGumb ⟨.f32, 1, 0, 0, 2⟩ ⟨3, .none, false, 9, 0, false, false, 0, .rne⟩),
    (fv 0x71 10 1 0 0 2 1 + xa 4 0 0 9 0 0 0 0 0, .rngDrop ⟨.n16, 1, 0, 0, 2⟩ ⟨4, .none, false, 9, 0, false, false, 0, .rne⟩), (fv 0x72 0 1 4 3 2 1 + xa 0 0 0 9 0 0 0 0 0, .vgmaxL f32v ⟨0, .none, false, 9, 0, false, false, 0, .rne⟩)] = true
  ∧ refuses 64 [fv 0x71 0 1 0 0 2 1 + xa 5 0 0 9 0 0 0 0 0, fv 0x71 6 1 0 0 2 1 + xa 1 0 0 9 0 0 0 0 0, fv 0x71 0 1 0 0 8 1 + xa 4 0 0 9 0 0 0 0 0] = true := by decide +kernel
theorem test_decode_system : reads 32 [(ri 0x78 0 1 0x1F 0, .trap 15 1), (ri 0x79 0 0 0 0, .eretRerun), (ri 0x79 0 0 1 0, .eretAbort), (ri 0x79 0 0 2 0, .eretResume), (ri 0x7A 3 0 0x601 0, .csrr 3 0x601), (ri 0x7B 3 1 0x200 0, .csrw 3 1 0x200),
    (ri 0x7C 3 0 1 0, .gear 3 .f), (ri 0x7C 3 0 0 0, .gear 3 .n), (ri 0x7D 3 0 2 0, .time 3 2), (rr 0x7E 0 0 1 2 0, .strstart 1 2), (rr 0x7E 1 0 1 0 0, .strstop 1), (rr 0x7E 2 3 0 0 0, .wfe 3), (rr 0x7E 3 0 1 0 0, .tlbinv 1),
    (rr 0x7E 4 0 1 0 0, .brk 1), (rr 0x7E 5 3 0 0 0, .ctxid 3)] = true
  ∧ reads 64 [(ri 0x7B 3 1 0x200 1 + xs 0 0 0, .csrwSet 3 1 0x200), (ri 0x7B 3 1 0x200 1 + xs 1 0 0, .csrwClr 3 1 0x200)] = true
  ∧ refuses 32 [ri 0x78 0 1 0x0F 0, ri 0x79 0 0 3 0, ri 0x7D 3 0 4 0, rr 0x7E 6 0 0 0 0, 0x3FC] = true := by decide +kernel

/-! ## Ill-formed terms (R33 to R56): one for each check that no field type makes -/
theorem test_wf_refuses : ([.bfx 1 2 63 1, .bfxs 1 2 1 63, .bfi 1 2 60 10, .faddL 1 2 3 .rsr, .fsubL 1 2 3 .rsr, .fmulL 1 2 3 .rsr, .fcvtF32I64L 1 2 .rsr, .fcvtI64F32L 1 2 .rsr,
    .ffma 1 2 3 4 .rsr, .loop 0 1 0, .ldDL 1 2 ⟨0, true, 0, .strand, .plain⟩, .stDL 1 2 ⟨0, false, 0, .dev, .plain⟩, .ldWL 1 2 ⟨0, true, 0, .strand, .plain⟩, .stWL 1 2 ⟨0, false, 0, .sys, .plain⟩,
    .ldx 1 2 0 false ⟨0, true, 0, .strand, .plain⟩, .stx 1 2 0 ⟨0, false, 0, .core, .plain⟩, .ldvL 1 2 ⟨0, false, 0, .strand, .acq⟩, .stvL 1 2 ⟨0, false, 0, .dev, .plain⟩,
    .atomL .fadd32 1 2 3 ⟨0, true, 0, .strand, .rlx⟩, .tdsetL 1 2 ⟨0, 0, 0, 0, 1⟩, .mcfgL 1 ⟨1, 0, 0, 0, 0⟩, .mldbL 1 2 ⟨4, 0, 0, 0, 0⟩, .mgoL ⟨1, 0, 0, 0, 0⟩, .cpyL 0 1 ⟨1, 0, 0, 0, 0⟩,
    .cpysL 0 1 2 3 ⟨512, 0, 0, 0, 0⟩, .xcpyL 0 1 2 ⟨1, 0, 0, 0, 0⟩, .xredL 0 1 2 ⟨4, 0, 0, 0, 0⟩, .haloL 0 1 ⟨1, 0, 0, 0, 0⟩, .twait ⟨0, 0, 0, 0, 1⟩, .semacqL 1 ⟨1, 0, 0, 0, 1⟩,
    .rngUni ⟨.i8, 0, 0, 0, 1⟩ ⟨1, .none, false, 0, 0, false, false, 0, .rne⟩, .vbcastImm ⟨.i8, 0, 1, 0, 2⟩ 0, .csrr 1 0x7FF, .taskCommit 0] : List Instr).all (fun i => !i.wf) = true := by decide +kernel
/-- One vector term for each reason of R56 that the fields of F-V and X-A can break (R204 to R206, R418, R422). -/
theorem test_wf_refuses_vector : ([.vlogicL f32v ⟨6, .none, false, 0, 0, false, false, 0, .rne⟩, .viotaL ⟨.i8, 0, 0, 3, 2⟩ XA.zero, .vabs f32v, .vext ⟨.i8, 0, 4, 3, 0⟩ XA.zero, .vext ⟨.i8, 0, 0, 3, 1⟩ XA.zero,
    .vext ⟨.i8, 1, 0, 3, 0⟩ XA.zero, .vaddL f32v ⟨0, .none, false, 0, 1, false, false, 0, .rne⟩, .vaddL f32v ⟨0, .none, false, 1, 0, false, false, 0, .rne⟩, .vselL f32v ⟨0, .none, true, 1, 0, false, false, 0, .rne⟩,
    .vaddL f32v ⟨0, .none, true, 1, 0, false, false, 0, .rne⟩, .vaddL f32v ⟨1, .none, false, 0, 0, false, false, 0, .rne⟩, .vaddL f32v ⟨0, .pair, false, 0, 0, false, false, 0, .rne⟩,
    .vaddL f32v ⟨0, .none, false, 0, 0, false, false, 1, .rne⟩, .vcmp ⟨.f32, 0, 4, 3, 8⟩, .vcmp ⟨.f32, 0, 4, 3, 0⟩, .vext ⟨.f32, 0, 0, 3, 0⟩ ⟨128, .none, false, 0, 0, false, false, 0, .rne⟩,
    .vmulw ⟨.i8, 0, 4, 3, 1⟩ ⟨0, .pair, false, 0, 0, false, false, 0, .rne⟩, .vperm ⟨.i8, 0, 31, 3, 2⟩, .vadd ⟨.b1, 0, 4, 3, 2⟩, .vaddL ⟨.i8, 0, 4, 3, 2⟩ ⟨0, .none, false, 0, 0, false, false, 0, .rtz⟩,
    .vminL f32v ⟨0, .none, false, 0, 0, false, true, 0, .rne⟩, .vmovL f32u ⟨0, .none, false, 0, 0, true, false, 0, .rne⟩, .vredL f32u ⟨0, .none, false, 0, 0, false, false, 0, .rsr⟩,
    .vcmpL ⟨.i8, 0, 4, 3, 2⟩ ⟨6, .none, false, 0, 0, false, false, 0, .rne⟩] : List Instr).all (fun i => !i.wf) = true := by decide +kernel

/-! ## Small states -/
def tsk : Task where
  node := 3
  step := 5
  inst := 0
  id := 0x1234
  mts := 77
  prio := 1
  retry := 0
  hint := 2
  gapply := false
  nr := false
  escaped := false
  roles := 0
  budget := 0
  usedCyc := 9
  code := 0x40000
  desc := 0
  rowOff := 0
  colOff := 0
  spawn := []
  started := 1
  marks := []
  drop := false
  hostQ := []
  version := []
  spill := []
  verPois := []
  overs := []
  descs := []
  verdict := Verdict.none
  ending := .none
/-- Core 0 in partition 0 with context 0, whose pages map the first GiB and whose one region, of 2 MiB at 0, core 0 owns; a task runs. -/
def base : State :=
  ({ State.reset.placeProgram 32 0 with agenda := [] }).modBank fun b => { b with task := some tsk }
/-- Scalar registers of strand 0 set. -/
def withRegs (s : State) (l : List (Fin 64 × W64)) : State := l.foldl (fun s x => s.setS x.1 x.2) s
def ab (x y : W64) : State := withRegs base [(1, x), (2, y)]
/-- The state after an instruction; reset where there is none. -/
def go (i : Instr) (s : State) : State := match exec i s with
  | .next t => t
  | _ => State.reset
/-- Register d after an instruction on s1 = x and s2 = y. -/
def res (i : Instr) (x y : W64) : W64 := (go i (ab x y)).strand.s[9]
/-- How the task of the core ends after an instruction that traps with no handler (R453). -/
def endsBy (s : State) : Option Ending := s.bank.task.bind (·.ending)
/-- The vector register with the elements of w bits given, and zeros above. -/
def packed (w : Nat) (l : List Nat) : VReg := BitVec.ofNat 4096 (l.foldr (fun x a => x + 2 ^ w * a) 0)
def withVecs (s : State) (l : List (Fin 32 × VReg)) : State := l.foldl (fun s x => s.setV x.1 x.2) s
/-- The first n elements of w bits of v1 after an instruction on v2 and v3. -/
def vres (i : Instr) (w n : Nat) (a b : VReg) : List Nat :=
  (List.range n).map fun j => el w (go i (withVecs base [(2, a), (3, b)])).strand.v[1] j
def xz : XA := XA.zero

/-! ## Scalar instructions (results by R122 to R130, R87) -/
theorem test_add_wraps : res (.add 9 1 2) (2 ^ 64 - 1) 2 = 1 := by decide +kernel
theorem test_sub_wraps : res (.sub 9 1 2) 0 1 = 2 ^ 64 - 1 := by decide +kernel
theorem test_shift_amounts : res (.shl 9 1 2) 3 65 = 6 ∧ res (.sar 9 1 2) (-8) 1 = -4 ∧ res (.shr 9 1 2) (-8) 60 = 15 := by decide +kernel
theorem test_mul_high : res (.mulhi 9 1 2) (2 ^ 63) 4 = 2 ∧ res (.mulhis 9 1 2) (-1) 1 = -1 := by decide +kernel
theorem test_div_zero : res (.div 9 1 2) 7 0 = 2 ^ 64 - 1 ∧ res (.rem 9 1 2) 7 0 = 7 ∧ res (.divs 9 1 2) (-7) 0 = -1 ∧ res (.rems 9 1 2) (-7) 0 = -7 := by decide +kernel
theorem test_div_signed : res (.divs 9 1 2) (-7) 2 = -3 ∧ res (.rems 9 1 2) (-7) 2 = -1 ∧ res (.divs 9 1 2) (2 ^ 63) (-1) = 2 ^ 63 ∧ res (.rems 9 1 2) (2 ^ 63) (-1) = 0 := by decide +kernel
theorem test_min_signed : res (.mins 9 1 2) (-1) 1 = -1 ∧ res (.min 9 1 2) (-1) 1 = 1 ∧ res (.slts 9 1 2) (-1) 1 = 1 ∧ res (.slt 9 1 2) (-1) 1 = 0 := by decide +kernel
theorem test_counts : res (.clz 9 1) 1 0 = 63 ∧ res (.ctz 9 1) 0 0 = 64 ∧ res (.popc 9 1) 0xFF0F 0 = 12 ∧ res (.brev 9 1) 1 0 = 2 ^ 63 := by decide +kernel
theorem test_extend : res (.sextB 9 1) 0x180 0 = -128 ∧ res (.zextH 9 1) 0x18000 0 = 0x8000 ∧ res (.bswap 9 1) 0x0102030405060708 0 = 0x0807060504030201 := by decide +kernel
theorem test_immediates : res (.addi 9 1 0x7FF) 5 0 = 4 ∧ res (.andi 9 1 0x7FF) (-1) 0 = 0x7FF ∧ res (.roli 9 1 4) 0xF000000000000001 0 = 0x1F ∧ res (.lih 9 1 0x7FF) 5 0 = 0xFFFFFFFF00000005 := by
  decide +kernel
theorem test_literals : res (.li 9 0x80000000) 0 0 = 0xFFFFFFFF80000000 ∧ res (.addpc 9 0x1FFFF) 0 0 = 0x3FFFC ∧ res (.sel 9 1 2 1) 7 8 = 8 := by decide +kernel
theorem test_fields : res (.bfx 9 1 4 7) 0xABCD 0 = 0xBC ∧ res (.bfxs 9 1 4 7) 0xABCD 0 = -0x44 ∧ res (.bfi 9 1 8 7) 0xABCD 0 = 0xCD00 := by decide +kernel
/-- The example of R130. -/
theorem test_fadd_modes : res (.fadd 9 1 2) 0x3F800000 0x33800000 = 0x3F800000 ∧ res (.faddL 9 1 2 .rup) 0x3F800000 0x33800000 = 0x3F800001 := by decide +kernel
theorem test_fmin_nan : res (.fmin 9 1 2 false) 0x7FC00001 0x3F800000 = 0x3F800000 ∧ res (.feq 9 1 2 false) 0x7FC00000 0x7FC00000 = 0 ∧ res (.fneg 9 1 false) 0x3F800000 0 = 0xBF800000 := by decide +kernel
theorem test_fcvt : res (.fcvtI64F32L 9 1 .rtz) 0xBFC00000 0 = -1 ∧ res (.fcvtI64F32 9 1) 0x7F800000 0 = 2 ^ 63 - 1 ∧ res (.fcvtF32I64 9 1) (-3) 0 = 0xC0400000 := by decide +kernel
theorem test_s0 : (go (.add 0 1 2) (ab 3 4)).rs 0 = 0 ∧ (go (.add 0 1 2) (ab 3 4)).strand.pc = 0x40004 := by decide +kernel
theorem test_branch : (go (.bne 1 2 0xFE) (ab 3 4)).strand.pc = 0x3FFF8 ∧ (go (.bne 1 2 0xFE) (ab 4 4)).strand.pc = 0x40004 ∧ (go (.bltsL 1 2 5) (ab (-1) 4)).strand.pc = 0x40014 := by decide +kernel
theorem test_jumps : (go (.jal 9 4) base).strand.pc = 0x40010 ∧ (go (.jal 9 4) base).strand.s[9] = 0x40004 ∧ (go (.jalr 1 1 4) (ab 0x80 0)).strand.pc = 0x84 ∧ endsBy (go (.jalr 1 1 2) (ab 0x80 0)) = some (.abort 3 0 false 0) := by decide +kernel
theorem test_loop : (go (.loop 0 1 2) (ab 0 0)).strand.pc = 0x4000C ∧ (go (.loop 0 1 2) (ab 3 0)).strand.lc[0] = ⟨3, true, 2, 0x4000C⟩ := by decide +kernel
theorem test_branch_queue : (go (.bqpush 1) (ab 3 0)).bank.bq = [true] ∧ (go (.bqb 3) ((ab 0 0).modBank fun b => { b with bq := [true, false] })).strand.pc = 0x4000C ∧ (go (.bqb 3) base).strand.wait = .other := by decide +kernel

/-! ## Memory (R151, R163, R167 to R172) -/
/-- Base with 8 bytes of HBM at 0x100000 and s1 at them. -/
def data (x : Nat) (y : W64) : State := withRegs (base.wrs 0x100000 (toLe 8 x)) [(1, 0x100000), (2, y)]
theorem test_load : (go (.ldD 9 1 0) (data 0x8000000000000081 0)).strand.s[9] = 0x8000000000000081 ∧ (go (.ldW 9 1 4) (data 0x8000000000000081 0)).strand.s[9] = 0xFFFFFFFF80000000
    ∧ (go (.ldx 9 1 0 true XM.none) (data 0x81 0)).strand.s[9] = -127 := by decide +kernel
theorem test_store : (go (.stD 2 1 1) (data 0 0x1122334455667788)).seen 0x100001 = 0x88 ∧ (go (.stD 2 1 1) (data 0 0x1122334455667788)).seen 0x100008 = 0x11 ∧ (go (.stD 2 1 1) (data 0 0x1122334455667788)).seen 0x100009 = 0
    ∧ (go (.stD 2 1 1) (data 0 0x1122334455667788)).rd 0x100001 = 0 := by decide +kernel
theorem test_unmapped_traps : endsBy (go (.ldD 9 1 0) (ab (2 ^ 31) 0)) = some (.abort 5 0 false 0) ∧ endsBy (go (.ldD 9 1 0) (ab 0x200000 0)) = some (.abort 4 0 false 0)
    ∧ endsBy (go (.ldD 9 1 0) (ab (2 ^ 60) 0)) = some (.abort 6 0 false 0) := by decide +kernel
theorem test_order_traps : endsBy (go (.ldDL 9 1 ⟨0, false, 0, .dev, .rel⟩) (data 0 0)) = some (.abort 2 0 false 0) ∧ endsBy (go (.ldx 9 1 3 false ⟨1, false, 0, .dev, .acq⟩) (data 0 0)) = some (.abort 3 0 false 0) := by decide +kernel
theorem test_atom : (go (.atomAdd 9 1 2) (data 0xFFFFFFFF 2)).strand.s[9] = 0xFFFFFFFF ∧ (go (.atomAdd 9 1 2) (data 0xFFFFFFFF 2)).seen 0x100000 = 1 ∧ (go (.atomAdd 9 1 2) (data 0xFFFFFFFF 2)).seen 0x100004 = 0
    ∧ (go (.atomCas 9 1 2) (data 5 7)).seen 0x100000 = 5 ∧ (go (.atomMins 9 1 2) (data 1 0xFFFFFFFF)).seen 0x100000 = 0xFF := by decide +kernel
theorem test_atom_traps : endsBy (go (.atomAdd 9 1 2) (withRegs (data 0 0) [(1, 0x100002)])) = some (.abort 3 0 false 0) := by decide +kernel
theorem test_vector_load : (go (.ldv 4 1 0) (data 0xAB 0)).strand.v[4] = 0xAB ∧ endsBy (go (.ldv 4 1 0) (withRegs (data 0 0) [(1, 0x100020)])) = some (.abort 3 0 false 0) := by decide +kernel
theorem test_vector_store : (go (.stv 4 1 0) (withVecs (data 0 0) [(4, packed 8 [7, 8])])).seen 0x100001 = 8 := by decide +kernel
theorem test_rquery : (go (.rquery 9 1) (ab 0x1000 0)).strand.s[9] = 12 ∧ (go (.rquery 9 1) (ab 0x200000 0)).strand.s[9] = 0 := by decide +kernel
theorem test_dcache : (go (.dcinv 1) (go (.stD 2 1 0) (data 3 9))).seen 0x100000 = 3 ∧ (go (.dcwb 1) (go (.stD 2 1 0) (data 3 9))).core.dirty = [] ∧ (go (.dcwb 1) (go (.stD 2 1 0) (data 3 9))).seen 0x100000 = 9 := by decide +kernel
theorem test_fence : (go (.fence .dev) base).strand.fence = 1 ∧ (go (.fenceAcq .dev) base).strand.fence = 0 ∧ (go .fetchb (base.modStrand fun t => { t with fbuf := [(0, 0)] })).strand.fbuf = [] := by decide +kernel
/-- The examples of R146 and R151. -/
theorem test_homes : channelOf 0x1234567A00 = 5 ∧ pseudoOf 0x1234567A00 = false ∧ kindOf 0x00F0000025123440 = 15 ∧ 0x00F0000025123440 / 2 ^ 24 % 256 = 37 := by decide +kernel

/-! ## Vector instructions -/
theorem test_vadd_sat : vres (.vadd ⟨.i8, 0, 3, 2, 1⟩) 8 2 (packed 8 [127, 1]) (packed 8 [1, 2]) = [128, 3] ∧ vres (.vaddL ⟨.i8, 0, 3, 2, 1⟩ { xz with sat := true }) 8 2 (packed 8 [127, 1]) (packed 8 [1, 2]) = [127, 3] := by decide +kernel
theorem test_vfma : vres (.vfmaL ⟨.f32, 0, 3, 2, 1⟩ { xz with vc := 2 }) 32 1 (packed 32 [0x40000000]) (packed 32 [0x40400000]) = [0x41000000] ∧ vres (.vsub ⟨.f16, 0, 3, 2, 1⟩) 16 1 (packed 16 [0x3C00]) (packed 16 [0x4000]) = [0xBC00] := by decide +kernel
theorem test_vmul_lowbits : vres (.vmul ⟨.i16, 0, 3, 2, 1⟩) 16 1 (packed 16 [0x101]) (packed 16 [0x101]) = [0x201] ∧ vres (.vmin ⟨.i8, 0, 3, 2, 1⟩) 8 1 (packed 8 [0x80]) (packed 8 [1]) = [0x80] ∧ vres (.vmax ⟨.n8, 0, 3, 2, 1⟩) 8 1 (packed 8 [0x80]) (packed 8 [1]) = [1] := by decide +kernel
theorem test_vabs : vres (.vabs ⟨.i8, 0, 0, 2, 1⟩) 8 2 (packed 8 [0xFF, 3]) 0 = [1, 3] ∧ vres (.vabsL ⟨.i8, 0, 0, 2, 1⟩ { xz with sat := true }) 8 1 (packed 8 [0x80]) 0 = [0x7F] ∧ vres (.vneg ⟨.f32, 0, 0, 2, 1⟩) 32 1 (packed 32 [0x3F800000]) 0 = [0xBF800000] := by decide +kernel
theorem test_vlogic_shift : vres (.vlogicL ⟨.n8, 0, 3, 2, 1⟩ { xz with sub := 3 }) 8 1 (packed 8 [0xFF]) (packed 8 [0x0F]) = [0xF0] ∧ vres (.vshiftL ⟨.i8, 0, 3, 2, 1⟩ { xz with sub := 2 }) 8 1 (packed 8 [0x80]) (packed 8 [1]) = [0xC0]
    ∧ vres (.vshiftL ⟨.n8, 0, 3, 2, 1⟩ { xz with sub := 3 }) 8 1 (packed 8 [0x81]) (packed 8 [1]) = [3] := by decide +kernel
theorem test_vcmp_vsel : (go (.vcmpL ⟨.i8, 0, 3, 2, 1⟩ { xz with sub := 2 }) (withVecs base [(2, packed 8 [0x80, 5]), (3, packed 8 [1, 1])])).strand.k[1].toNat % 4 = 1
    ∧ vres (.vsel ⟨.i8, 1, 3, 2, 1⟩) 8 2 (packed 8 [1, 2]) (packed 8 [3, 4]) = [3, 4] := by decide +kernel
/-- The example of R205: the products of elements 0 to 3 go to v4, v5, v4 and v5. -/
theorem test_vmulw_spans : (let t := go (.vmulw ⟨.i8, 0, 3, 2, 6⟩ { xz with wid := .pair }) (withVecs base [(2, packed 8 [2, 3, 4, 0xFF]), (3, packed 8 [5, 6, 7, 8])])
    (el 16 t.strand.v[6] 0, el 16 t.strand.v[7] 0, el 16 t.strand.v[6] 1, el 16 t.strand.v[7] 1)) = (10, 18, 28, 0xFFF8) := by decide +kernel
theorem test_vdiv : vres (.vdiv ⟨.f32, 0, 3, 2, 1⟩) 32 1 (packed 32 [0x3F800000]) (packed 32 [0]) = [0x7F800000] ∧ vres (.vdivL ⟨.f32, 0, 3, 2, 1⟩ { xz with rnd := .rtz }) 32 1 (packed 32 [0x3F800000]) (packed 32 [0x40400000]) = [0x3EAAAAAA]
    ∧ vres (.vsqrt ⟨.f32, 0, 0, 2, 1⟩) 32 1 (packed 32 [0x40800000]) 0 = [0x40000000] := by decide +kernel
/-- The examples of R97: RSQRTA(4.0) is T[0] × 2^-1. -/
theorem test_vapprox : vres (.vapprox ⟨.f32, 0, 0, 2, 1⟩) 32 1 (packed 32 [0x40800000]) 0 = [0x3EFFE006] := by decide +kernel
/-- The example of R215. -/
theorem test_vred : vres (.vred ⟨.i8, 0, 0, 2, 1⟩) 32 2 (packed 8 (List.replicate 512 100)) 0 = [51200, 0] ∧ vres (.vredL ⟨.i8, 0, 0, 2, 1⟩ { xz with sub := 2 }) 32 1 (packed 8 [3, 0x80]) 0 = [0x80] := by decide +kernel
theorem test_vbcast : vres (.vbcastL ⟨.i8, 0, 0, 2, 1⟩ { xz with sub := 1 }) 8 2 (packed 8 [5, 9]) 0 = [9, 9] ∧ vres (.vbcastImm ⟨.i8, 0, 0, 0, 1⟩ 0x1FF) 8 2 0 0 = [255, 255] := by decide +kernel
theorem test_vext_vins : (go (.vext ⟨.i8, 0, 0, 2, 0⟩ { xz with sub := 1, sc := 9 }) (withVecs base [(2, packed 8 [5, 0x80])])).strand.s[9] = -128
    ∧ (let t := go (.vins ⟨.i8, 0, 0, 0, 2⟩ { xz with sub := 1, sc := 1 }) (withVecs (ab 0x1FE 0) [(2, packed 8 [5, 6, 7])])
       (el 8 t.strand.v[2] 0, el 8 t.strand.v[2] 1, el 8 t.strand.v[2] 2)) = (5, 0xFE, 7) := by decide +kernel
theorem test_vperm : vres (.vperm ⟨.f32, 0, 3, 2, 1⟩) 32 2 (packed 32 [5, 6, 7]) (packed 16 [2, 0]) = [7, 5] := by decide +kernel
/-- The example of R230. -/
theorem test_viota : (let t := go (.viota ⟨.i8, 0, 0, 0, 1⟩) base
    (el 8 t.strand.v[1] 127, el 8 t.strand.v[1] 128)) = (127, 0x80)
    ∧ el 8 (go (.viotaL ⟨.i8, 0, 0, 0, 1⟩ { xz with sat := true }) base).strand.v[1] 128 = 127 := by decide +kernel
theorem test_vcvt : vres (.vcvtL ⟨.i32, 0, 0, 2, 1⟩ { xz with rnd := .rtz }) 32 2 (packed 32 [0xC0200000, 0x7FC00000]) 0 = [0xFFFFFFFE, 0] := by decide +kernel
theorem test_vpack_unpack : vres (.vpack ⟨.i8, 0, 0, 2, 1⟩ { xz with wid := .quad, sat := true }) 8 1 (packed 32 [300]) 0 = [127] ∧ vres (.vunpk ⟨.e4m3, 0, 0, 2, 4⟩ { xz with wid := .quad }) 8 0 0 0 = []
    ∧ el 32 (go (.vunpk ⟨.e8m0, 0, 0, 2, 4⟩ { xz with wid := .quad }) (withVecs base [(2, packed 8 [127])])).strand.v[4] 0 = 0x3F800000 := by decide +kernel
theorem test_vclamp : vres (.vclamp ⟨.i8, 0, 3, 2, 1⟩ { xz with vc := 3 }) 8 2 (packed 8 [0x80, 9]) (packed 8 [2, 3]) = [2, 3] := by decide +kernel
/-- The example of R222: one block, E = floor(log2 M) - 6, and the biased exponent. -/
theorem test_vqnt : (let t := go (.vqnt ⟨.n8, 0, 0, 4, 1⟩ { xz with wid := .quad, sc := 9 }) (withVecs base [(4, packed 32 [0x42800000])])
    (el 8 t.strand.v[1] 0, t.strand.s[9])) = (64, 127 + 256 * 127) := by decide +kernel
theorem test_tile_rows : el 32 (go (.trc ⟨.i8, 0, 0, 0, 1⟩ { xz with sc := 2 }) (go (.trw ⟨.i8, 0, 0, 3, 0⟩ { xz with sc := 1 }) (withVecs (ab 7 1) [(3, packed 8 [5, 0x81])]))).strand.v[1] 7 = 0xFFFFFF81 := by decide +kernel

/-! ## Witnesses: for each statement with hypotheses, states and operands that meet them, clause by clause, at the values
where clauses meet. The names are those of the statements. -/
/-- The parts of an access that passes its checks. -/
def okParts (s : State) (q : Ask) : List Piece := match checkAll s q with
  | .ok ps => ps
  | _ => []
def bytesOf (s : State) (ps : List Piece) : List Byte := match s.loadAll false ps with
  | .ok b => b
  | _ => []
def passes (s : State) (q : Ask) : Bool := match checkAll s q with
  | .ok ps => ps == okParts s q
  | _ => false
/-- The base state with a word of 32 bits where its strand fetches. -/
def runs (w : Nat) : State := base.wrs 0x40000 (toLe 4 w)
theorem wit_EncodeDecodeRoundTrip : Instr.wf (.bfx 1 2 60 3) = true ∧ Instr.wf .tend = true ∧ Instr.wf (.li 9 0x12345678) = true := by decide +kernel
theorem wit_DecoderReadsWords : 3 % 4 = 3 ∧ (0x17 * 4) % 4 ≠ 3 ∧ majOf (0x17 * 4) = 0x17 ∧ majOf 0 = 0 ∧ majOf (0x7F * 4) = 0x7F
    ∧ (0x10 * 4 + 1) % 4 = 1 ∧ majOf (0x10 * 4 + 1) = 0x10 ∧ majOf (0x09 * 4) = 9 ∧ (0x09 * 4) % 4 = 0 ∧ majOf (0x0B * 4 + 2) = 0x0B := by decide +kernel
/-- The results of checks and reads, for comparing. -/
def isOk {ε α : Type} [DecidableEq α] (r : Except ε α) (f : α → Bool) : Bool := match r with
  | .ok a => f a
  | _ => false
def isErr {ε α : Type} (r : Except ε α) (f : ε → Bool) : Bool := match r with
  | .error e => f e
  | _ => false
/-- A cycle is due in which strand 0 alone may issue, and it issues ADDI s0, s0, 0. -/
noncomputable def aloneOk (p : State) : Bool :=
  let v := p.cycleStart
  let u := v.focus v.cur 0
  let f := v.withCode [0]
  let a := (f.focus f.cur 0).modStrandN 0 fun x => { x with age := 0 }
  let nop := fun (x : State) => isOk x.parcels (fun w => w.1 == 0x0000000C && isOk (decodeParcels w.1 w.2.1 w.2.2) (· == (.addi 0 0 0, 1)))
    && (match exec (.addi 0 0 0) x.usedUp with
      | .next t => !t.waiting 0
      | _ => false)
  p.cycleDue && ((List.finRange 4).all fun m => v.mayIssue m == decide (m = 0)) && isOk u.parcels (fun w => isOk a.parcels (· == w)) && nop u && nop a
theorem wit_StepRunsDecoded : aloneOk ({ runs 0x0000000C with agenda := [], cur := 0 } : State) = true
    ∧ aloneOk ({ runs 0x0000000C with agenda := [], turn := 1, cur := 0 } : State).gearDone.barDrop.barReturn = true := by decide +kernel
theorem wit_FetchReadsMemory : base.strand.fbuf = [] ∧ base.core.icache = []
    ∧ (let q : Ask := { acc := .fetch, ea := 0x40000, len := 4, align := 4 }
      passes base q = true ∧ (okParts base q).map (·.len) = [4]) := by decide +kernel
theorem wit_SelectIssueOrder : List.Pairwise (· < ·) ([0, 1, 3] : List (Fin 4)) ∧ base.selectIssue [0, 1, 3] = some 0
    ∧ (base.modStrandN 1 fun x => { x with smode := true }).selectIssue [0, 1, 3] = some 1 := by decide +kernel
theorem wit_IntegerDivision : (ab 7 0).rs 2 = 0 ∧ (ab (BitVec.intMin 64) (BitVec.allOnes 64)).rs 1 = BitVec.intMin 64 ∧ (ab 7 2).rs 2 ≠ 0 := by decide +kernel
theorem wit_ScalarImmediatesAndFields : (60 : BitVec 6).toNat + ((3 : BitVec 6).toNat + 1) ≤ 64 ∧ (0 : BitVec 6).toNat + ((63 : BitVec 6).toNat + 1) ≤ 64 := by decide +kernel
theorem wit_ScalarFloat : Rnd.rne ≠ .rsr ∧ f32Of (ab 0x7FC00000 0) 1 = .nan ∧ f32Of (ab 0xFF800000 0) 1 = .inf true ∧ f32Of (ab 0x7F800000 0) 1 = .inf false
    ∧ (match f32Of (ab 0x40200000 0) 1 with | .fin false k e => decide (e < 0) && decide (0 < k) | _ => false) = true
    ∧ (match f32Of (ab 0x7F000000 0) 1 with | .fin false _ e => decide (0 ≤ e) | _ => false) = true := by decide +kernel
theorem wit_RoundKeepsRepresentable : Num.isFp .f32 = true ∧ 0x7F800000 < 2 ^ Ty.bits .f32 ∧ Num.read .f32 0x7F800000 ≠ .nan ∧ Num.read .e2m1 0xF ≠ .nan ∧ 0xF < 2 ^ Ty.bits .e2m1 := by decide +kernel
theorem wit_BranchesAndJumps : (ab 3 3).rs 1 = (ab 3 3).rs 2 ∧ (ab 3 4).rs 1 ≠ (ab 3 4).rs 2 ∧ ((ab 0x80 0).rs 1 + BitVec.ofInt 64 (4 : BitVec 11).toInt).toNat % 4 = 0
    ∧ ((ab 0x80 0).rs 1 + BitVec.ofInt 64 (2 : BitVec 11).toInt).toNat % 4 ≠ 0 ∧ base.bank.bq = [] ∧ base.bank.bq.length < 64
    ∧ 64 ≤ (base.modBank fun b => { b with bq := List.replicate 64 true }).bank.bq.length := by decide +kernel
theorem wit_LoopStarts : ((ab 0 0).rs 1).setWidth 32 = (0 : BitVec 32) ∧ ((ab 3 0).rs 1).setWidth 32 ≠ (0 : BitVec 32) := by decide +kernel
/-- Both counters end at the next instruction; lc1 is at its last pass, and lc0 has three to go. -/
theorem wit_LoopBackEdge : (let r : Strand := { base.strand with lc := #v[⟨3, true, 1, 0x40004⟩, ⟨1, true, 1, 0x40004⟩] }
    let nxt := r.pc + BitVec.ofNat 64 (4 * 1)
    r.lc[1].active = true ∧ nxt = r.lc[1].end_.setWidth 64 ∧ r.lc[1].count = 1 ∧ r.lc[0].active = true ∧ nxt = r.lc[0].end_.setWidth 64 ∧ r.lc[0].count ≠ 1
    ∧ r.retire 1 = { r with pc := 0x40000, lc := #v[⟨2, true, 1, 0x40004⟩, ⟨0, false, 1, 0x40004⟩] }) := by decide +kernel
/-- The premises of Loads, Stores and Atomic hold of 8 bytes at 0x100000, and Stores of an ordered store too. -/
theorem wit_LoadsReadBytes : (let s := data 5 0
    let q : Ask := { acc := .load, ea := 0x100000, len := 8, align := 1, ordered := false }
    s.fenceHold = false ∧ passes s q = true ∧ (match s.loadAll false (okParts s q) with | .ok b => b == toLe 8 5 | _ => false) = true
    ∧ (match s.loadAll false (okParts s { q with len := 512, align := 64 }) with | .ok b => b.length == 512 | _ => false) = true
    ∧ (okParts s q).map (·.space) = [.hbm]) := by decide +kernel
theorem wit_StoresComplete : (let s := data 5 9
    let q : Ask := { acc := .store, ea := 0x100000, len := 8, align := 1, ordered := false }
    let ps := okParts s.clearFence q
    s.fenceHold = false ∧ s.bank.task.isSome = true ∧ (∀ p ∈ ps, p.kind ≠ 4 ∧ p.len ≤ 8) ∧ passes s.clearFence q = true ∧ (ps.map (·.len)).sum = 8
    ∧ overflowOf s.clearFence ps = none ∧ s.clearFence.bufferUsed < 32 ∧ s.clearFence.pendingBelow s.clearFence.releaseBound = false
    ∧ passes s.clearFence { q with align := 8, ordered := true } = true) := by decide +kernel
theorem wit_AtomicsComplete : (let s := data 5 9
    let q : Ask := { acc := .atom, ea := 0x100000, len := 4, align := 4, ordered := true, op := some .add }
    let p := (okParts s q).headD ⟨0, 0, 0, .hbm, 0⟩
    s.fenceHold = false ∧ checkAll s q = .ok [p] ∧ p.len = 4 ∧ p.space = .hbm ∧ p.kind = 0 ∧ s.bank.task.isSome = true ∧ s.mem.wf = true
    ∧ s.clearFence.stores = [] ∧ (∀ k ∈ keysFrom p.key 4, s.deadLine k = false) ∧ s.clearFence.pendingBelow s.clearFence.releaseBound = false
    ∧ versionRoom s.clearFence p.key p.len = true ∧ (match s.clearFence.loadPiece false p with | .ok b => b == toLe 4 5 | _ => false) = true) := by decide +kernel
/-- A block of bytes from the values of its fields: each with the offset of its first byte. -/
def fields (l : List (Nat × Nat)) : Nat := (l.map fun x => x.2 * 2 ^ (8 * x.1)).sum
theorem wit_FencesAndCaches : (let s := go (.stD 2 1 0) (withRegs (data 0 9) [(1, 0x100000)])
    s.stores = [] ∧ s.fenceHold = false ∧ isOk (lineOf s 0x100000) (· == some (0x100000 / 128)) = true ∧ s.bank.task.isSome = true
    ∧ isOk (lineOf s 0xF0000000000000) (· == none) = false ∧ isErr (lineOf s 0xD0000000000000) (fun _ => true) = true
    ∧ kindOf 0xC0000000000000 = 0xC ∧ isOk (regionAt s .own 0x100000) (fun r => r.isSome) = true ∧ illFormed s false 0x100000 = false)
    ∧ (let s := (base.wrs (partKey 0 0x11000) (toLe 8 0 ++ toLe 8 4096 ++ toLe 8 0 ++ [1]))
      s.core.part = some 0 ∧ (windowOf s 0 0).flags % 2 = 1) := by decide +kernel
/-- A store message of core 0 that no home has performed, and its strand held by a fence that comes after it. -/
def fenced : State := (base.send fun id => base.msg0 1 1 id).modStrand fun t => { t with fence := 9 }
theorem wit_FencesHold : (∃ m ∈ fenced.stores, m.id < fenced.strand.fence ∧ m.st ≠ .performed) ∧ base.stores = [] := by decide +kernel
/-- The vault of core 0 as a second region of the context with a KIND; core 1 is in the partition too. -/
def vaultOf (kind : Nat) : State :=
  let s := base.wrs 0x30010 (toLe 8 0xF0000000000000 ++ toLe 4 1 ++ toLe 4 kind)
  ({ s with cores := s.cores.set 1 { s.cores[1] with part := some 0, vaultPart := some 0 } }.modCore fun c => { c with vaultPart := some 0 }).modCtx
    fun c => { c with rtab := 0x30002 }
/-- A region OWNED by core 0, and the same region SHARED; RPASS to core 1 and to the core itself. -/
theorem wit_RegionsChangeHands : (let s := withRegs (vaultOf 0) [(1, 0xF0000000000040), (2, 1)]
    let t := vaultOf 1
    let a := 0xF0000000000040
    s.fenceHold = false ∧ illFormed s false a = false ∧ isOk (regionAt s .own a) (fun r => r == some ⟨1, 0xF0000000000000, 1, 0, 0, 0⟩) = true
    ∧ isOk (regionKey s s.ctx .own a 1) (· == 0x30010) = true ∧ s.inPart 1 = true ∧ s.inPart 0 = true ∧ s.cur.val = 0 ∧ s.mem.wf = true
    ∧ isHbmKind 0xF0000000000000 = false ∧ s.deadLine 0x3001C = false ∧ s.deadLine 0x3001D = false ∧ s.pendingBelow s.releaseBound = false
    ∧ s.bank.engineMeets ⟨1, 0xF0000000000000, 1, 0, 0, 0⟩ s.releaseBound = false
    ∧ isOk (regionAt t .own a) (fun r => r == some ⟨1, 0xF0000000000000, 1, 1, 0, 0⟩) = true) := by decide +kernel
theorem wit_RegionTableAndTraps : (let s := data 0 0
    s.fenceHold = false ∧ illFormed s false 0x100001 = false ∧ kindOf 0x100001 = 0 ∧ 0x100001 + 512 < 2 ^ 56 ∧ ownSlot s false 0x100001 512 = false
    ∧ s.strand.smode = false ∧ 0x100001 % 2 ≠ 0 ∧ 0x100001 % 64 ≠ 0 ∧ s.bank.task.isSome = true) := by decide +kernel
/-- Ring 1 of two slots in the vault of core 0, whose producer and consumer are core 0, with these reserved slots; the strand
has it as both ports. -/
def ringed (slots : List RSlot) : State :=
  ((vaultOf 3).wrs 0x50010 (toLe 8 0xF0000000000200 ++ toLe 2 2)).modCtx (fun c => { c with ringtab := 0x50001, rings := [⟨1, slots.length, slots⟩] })
    |>.modStrand fun t => { t with pop := 1, push := 1 }
/-- The premises of the vector statements: an empty ring, a filled slot behind which one is free, and a full ring; element
types of each class. -/
theorem wit_ports : ringInfo (ringed []) 1 = some ⟨0xF0000000000200, 2, 0, 0⟩ ∧ (ringed []).bank.loaded = true
    ∧ ((ringed []).ctx.ringOf 1).slots = [] ∧ ((ringed [⟨0, true, 5⟩]).ctx.ringOf 1).slots = [⟨0, true, 5⟩] ∧ ((ringed [⟨0, true, 5⟩]).ctx.ringOf 1).slots.length < 2
    ∧ ((ringed [⟨0, false, 0⟩, ⟨1, false, 0⟩]).ctx.ringOf 1).slots.length = 2 ∧ ringInfo (ringed []) 2 = none ∧ base.strand.pop = 0 ∧ base.strand.push = 0 := by decide +kernel
theorem wit_VectorArithmeticRounds : Ty.f32 ≠ .b1 ∧ Num.isFp .f32 = true ∧ Ty.i8 ≠ .b1 := by decide
theorem wit_VectorSelectsAndMoves : Num.isFp .i8 = false ∧ Ty.i8 ≠ .b1 := by decide
theorem wit_VectorWidthChanges : Ty.f16 ≠ .b1 ∧ Ty.i8 ≠ .b1 ∧ Ty.e2m1 ≠ .b1 := by decide
theorem wit_VectorQuantize : (Ty.n8 = .n8 ∨ Ty.n8 = .n16 ∨ Ty.n8 = .i8 ∨ Ty.n8 = .i16) ∧ Wid.quad ≠ .none := by decide
/-- Control values of R223: 4 × p + 2 × whole + inverse, with p = 3 of 8 bits, and one that it does not allow (p = 1). -/
theorem wit_VectorPlanes : ((2 ^ 9 - 1 : Nat) < 2 ^ 9) ∧ (4 * 3 + 1) % 2 = 1 ∧ (4 * 3 + 1) / 4 % 64 = 3 ∧ 3 ≤ Ty.bits .n8 ∧ Ty.elems .n8 ≠ 128 ∧ (4 * 1 + 1) / 4 % 64 = 1 := by decide
theorem wit_VectorReductions : Ty.i8 ≠ .b1 ∧ Num.isFp .i8 = false ∧ (XA.zero).sub = 0 ∧ (XA.zero).sat = false := by decide
theorem wit_TilesPortsAndRandom : ((ab 127 128).rs 1).toNat < 128 ∧ 128 ≤ ((ab 127 128).rs 2).toNat ∧ (ringInfo (ringed []) 1).map (·.cons) = some 0
    ∧ (2 ^ 48 ≤ ((ab (2 ^ 48) 0).rs 1).toNat) ∧ ((ab (2 ^ 48 - 1) 0).rs 1).toNat < 2 ^ 48 ∧ Ty.f32 = .f32 ∧ Ty.bits .f32 ≤ 32
    ∧ passes (data 5 0) { acc := .load, ea := 0x100000, len := 32, align := 32 } = true := by decide +kernel
/-- Tensors 0 (A: one I8), 1 (B: one I8) and 2 (the output: 8 I32), a nest of one pass and
one drain at 0x70000, and a table at 0x64000. -/
def desc (b rows cols str ty role : Nat) : Nat := fields [(0, b), (24, rows), (28, cols), (32, str), (44, ty), (45, role)]
def nestBlock : Nat := fields ([(1, 1), (2, 2), (4, 8), (5, 8), (66, 1)] ++ (List.range 6).map fun j => (64 + 32 * j, 1))
def matS : State :=
  let s := base.modCtx fun c => { c with tdtab := 0x64000 }
  let s := s.wrs 0x64000 (toLe 64 (desc 0x80000 1 1 256 6 1) ++ toLe 64 (desc 0x90000 1 1 1024 6 2) ++ toLe 64 (desc 0xA0000 1 8 64 8 3))
  let s := s.wrs 0x70000 (toLe 256 nestBlock)
  withRegs ((s.wrs 0x80000 [3]).wrs 0x90000 [7]) [(1, 0x70000), (2, 0)]
theorem wit_MatrixConfiguration : (let q : Ask := { acc := .load, ea := 0x70000, len := 256, align := 64 }
    let v := nestBlock
    let A : Desc := BitVec.ofNat 512 (desc 0x80000 1 1 256 6 1)
    let B : Desc := BitVec.ofNat 512 (desc 0x90000 1 1 1024 6 2)
    let O : Desc := BitVec.ofNat 512 (desc 0xA0000 1 8 64 8 3)
    matS.fenceHold = false ∧ (∀ t : Fin 32, matS.strand.t[t].st ≠ .pending ∧ matS.strand.t[t].st ≠ .faulted) ∧ matS.bank.mat.shadowSt ≠ .pending
    ∧ passes matS.clearFence q = true ∧ (match matS.clearFence.loadAll false (okParts matS.clearFence q) with | .ok b => b == toLe 256 v | _ => false) = true
    ∧ descNow matS.clearFence 0 = some A ∧ descNow matS.clearFence 1 = some B ∧ descNow matS.clearFence 2 = some O ∧ A.reason 1 0 = none ∧ B.reason 2 0 = none
    ∧ O.reason 3 0 = none ∧ nestByte (BitVec.ofNat 3584 (v + A.toNat * 2 ^ 2048 + B.toNat * 2 ^ 2560 + O.toNat * 2 ^ 3072)) = none
    ∧ descNow (base.modCtx fun c => { c with tdtab := 0x80000000 }) 3 = none ∧ (255 : Nat) < 2 ^ 8 ∧ (127 : Nat) < 2 ^ 7) := by decide +kernel
/-- The nest after MCFG, and the engine at its pass. -/
def nestS : State := go .mgo (go (.mcfg 1) matS)
theorem wit_MatrixCommands : matS.fenceHold = false ∧ matS.bank.mat.running = none ∧ matS.bank.mat.queued = none ∧ matS.bank.mat.eng ≠ .running ∧ matS.bank.mat.shadowSt = .empty
    ∧ (go (.mcfg 1) matS).bank.mat.shadowSt = .loaded ∧ nestS.bank.mat.running.isSome = true ∧ nestS.bank.mat.eng = .running ∧ (0xFF : Nat) / 2 ^ 5 % 8 ≠ 0
    ∧ (0x71F : Nat) / 2 ^ 5 % 8 = 0 ∧ (0x71F : Nat) < 2 ^ 11 ∧ (∀ j < 128, matS.bank.mat.accPois[(0 : Fin 32)].getLsbD j = false) ∧ matS.strand.t[(5 : Fin 32)].st ≠ .pending := by decide +kernel
theorem wit_MatrixEvents : (let s := nestS
    let n := s.bank.mat.active
    let tiles := passTiles n s.bank.mat.idx
    s.bank.mat.phase = .pass ∧ s.mayPass = true ∧ s.core.trans = none ∧ s.fetchHeld = false ∧ n.acts s.bank.mat.idx % 2 = 1
    ∧ (match useTiles s n ((chooseBanks s n tiles).zip tiles) with
        | .ok (v, d) => (match passInputs v n (tiles.zip d) n.p n.mid s.bank.mat.idx with
          | .ok i => (i.rows.getD 0 ⟨[], [], true, []⟩).lanes == [(0, 3)]
          | _ => false)
        | _ => false) = true) := by decide +kernel
/-- The output of R255 in I32 is the accumulator's element as it stands, and the sums of R100 and R101 (3 × 7 in one K block). -/
theorem test_nest : (go (.pass 0) nestS).bank.mat.passes = 1 ∧ blockSums 1 ⟨[(0, 3)], [0x7F], false, []⟩ #[#[7]] 0 = [21] ∧ drainElem nestS.bank.mat.active 21 = 21
    ∧ (accumulate 0 1 .rne [21] [0x7F] 0x7F 4).1 = 25 ∧ (accumulate 1 1 .rne [2 ^ 31 - 1] [0x7F] 0x7F 4).1 = 2 ^ 31 - 1 := by decide +kernel
theorem wit_DrainWritesElements : (let s := go (.pass 0) nestS
    let n := s.bank.mat.active
    s.bank.mat.phase = .drain ∧ s.core.trans = none ∧ s.bank.mat.checkN = 0 ∧ kindOf 0xA0000 ≠ 12 ∧ n.o.base = 0xA0000 ∧ s.bank.task.isSome = true
    ∧ isOk (engCheck s .store 0xA0000 32 false) (fun ps => ps == [⟨0xA0000, 32, 0xA0000, .hbm, 0⟩]) = true ∧ versionRoom s 0xA0000 32 = true
    ∧ isErr (engCheck s .store (2 ^ 31) 32 false) (fun _ => true) = true ∧ kindOf 0xC0000000000000 = 12 ∧ s.core.dirty = []) := by decide +kernel
/-- A parameter block at 0x100000: one element of one byte from 0x101000 to 0x102000, and one whose byte 110 is reserved. -/
def copyBlock : Nat := fields ([(0, 0x101000), (8, 0x102000), (16, 1), (40, 1), (70, 1)] ++ (List.range 5).map fun j => (20 + 4 * j, 1))
def copyS : State := withRegs ((base.wrs 0x100000 (toLe 128 copyBlock)).wrs 0x101000 [9, 8, 7, 6]) [(1, 0x100000), (2, 4)]
theorem wit_CopyCommandsEnter : (let u := copyS.clearFence
    let q : Ask := { acc := .load, ea := 0x100000, len := 128, align := 128 }
    let blk : Block := BitVec.ofNat 1024 copyBlock
    copyS.fenceHold = false ∧ copyS.core.pbc = [] ∧ passes u q = true ∧ isOk (u.loadAll false (okParts u q)) (· == toLe 128 copyBlock) = true
    ∧ blk.check u .cpy = none ∧ (blk.put 110 1 1).check u .cpy = some 110 ∧ blk.checkFar u = none ∧ blk.mcmask = 0 ∧ blk.idx = 0 ∧ (1 : Nat) ≠ u.dev.zikin.id.toNat
    ∧ copyS.bank.queues[(0 : Fin 4)].cmds.length < 32 ∧ copyS.rs 2 = 4 ∧ fenced.fenceHold = true) := by decide +kernel
/-- Block 12 of the halo descriptor is checked against a tensor of R244 (R435). -/
theorem wit_CopyCommandsEnter_halo : (let D : Desc := BitVec.ofNat 512 (desc 0x80000 8 256 256 6 1)
    D.role = 1 ∧ D.formReason 1 = none ∧ HaloDesc.check 0 D = none) := by decide +kernel
def cpyS : State := go (.cpy 1 1) copyS
theorem wit_QueueControl : copyS.fenceHold = false ∧ copyS.bank.queues[(0 : Fin 4)].cmds = [] ∧ (0 : Fin 4) ≠ 3 ∧ copyS.bank.waiters = [] ∧ nestS.bank.mat.running.isSome = true
    ∧ (∃ c ∈ cpyS.bank.queues[(1 : Fin 4)].cmds, c.id < cpyS.dev.fab.nextMsg ∧ c.count < 2 ^ 16 ∧ c.started = false ∧ c.used = []) ∧ cpyS.core.trans = none := by decide +kernel
theorem wit_CopyEvents : (let s := go (.copyCommandStart 0 1) cpyS
    let x := cpyS.bank.queues[(1 : Fin 4)]
    let y := s.bank.queues[(1 : Fin 4)]
    let z := (go (.copyRequestIssue 0 1) s).bank.queues[(1 : Fin 4)]
    (∀ h ∈ x.cmds, h.used = [] ∧ h.started = false ∧ h.fault = none ∧ h.ring = none) ∧ (x.cmds.map fun h => toRing cpyS h) = [false]
    ∧ (y.cmds.map fun h => (h.started, h.done, h.total, h.block.mcmask, h.block.converts)) = [(true, 0, 1, 0, false)] ∧ s.core.trans = none
    ∧ isOk (engRead s 0x101000 1 true) (· == ([9], false)) = true ∧ isOk (engCheck s .store 0x102000 1 true) (· == [⟨0x102000, 1, 0x102000, .hbm, 0⟩]) = true
    ∧ versionRoom s 0x102000 1 = true ∧ (∀ h ∈ z.cmds, h.started = true ∧ h.done = h.total ∧ h.acks = 0 ∧ h.isFar = false ∧ h.ring = none) ∧ z.cmds.length = 1) := by decide +kernel
/-- The copy runs by its events (R288), and its queue counts it (R306). -/
theorem test_copy : (let f := go (.copyRequestIssue 0 1)
    let t := go (.copyCommandComplete 0 1) (f (go (.copyCommandStart 0 1) cpyS))
    t.seen 0x102000 = 9 ∧ t.seen 0x102001 = 0 ∧ (t.bank.queues[(1 : Fin 4)]).done = 1 ∧ (t.bank.queues[(1 : Fin 4)]).cmds = []) := by decide +kernel

/-! ## Synchronisation, tasks, traps and control -/
/-- A token of strand 0 in a state. -/
def withTok (s : State) (t : Fin 32) (k : Token) : State := s.modStrand fun r => { r with t := r.t.set t k }
def withSem (n : BitVec 32) : State := base.modBank fun b => { b with sems := b.sems.set 2 n }
/-- The base state with core 1 in the partition. -/
def two (s : State) : State := { s with cores := s.cores.set 1 { s.cores[1] with part := some 0 } }
/-- The strand in S mode, in a handler of a trap. -/
def handling (cause : Nat) : State := (base.modTrap fun r => { r with handler := true, tcause := BitVec.ofNat 64 cause, pc0 := 0x40000, run0 := true }).modStrand
  fun t => { t with smode := true }
/-- The context has a handler, and a save area at an address that no page maps. -/
def withVec (s : State) : State := s.modCtx fun c => { c with tvec := 0x50001, saveBase := 0x80000000 }
theorem test_semacq : (go (.semacq 2) (withSem 3)).bank.sems[(2 : Fin 64)] = 2 ∧ (go (.semacq 2) (withSem 0)).strand.wait = .sem 2 1 ∧ (go (.semacqL 2 ⟨5, 0, 0, 0, 0⟩) (withSem 5)).bank.sems[(2 : Fin 64)] = 0 := by decide +kernel
theorem test_semrel : (go (.semrelL 2 0 ⟨4, 0, 0, 0, 0⟩) (withSem (2 ^ 32 - 3))).bank.sems[(2 : Fin 64)] = 2 ^ 32 - 1 ∧ (go (.semrelL 2 0 ⟨4, 0, 0, 0, 0⟩) (withSem (2 ^ 32 - 3))).bank.semov = 4
    ∧ endsBy (go (.semrel 2 1) (ab 5 0)) = some (.abort 0x0D 0 false 0) ∧ endsBy (go (.semrel 2 1) (ab 0x101 0)) = some (.abort 0x06 0 false 0)
    ∧ (go (.semrel 2 1) (two (ab 0x101 0))).dev.fab.net.map (fun m => (m.kind, m.dst, m.ref, m.count)) = [(3, 1, 2, 1)] := by decide +kernel
theorem test_semset : (go (.semset 2 1 none) (ab 77 0)).bank.sems[(2 : Fin 64)] = 77 ∧ (go (.semrd 9 2 none) (withSem 3)).strand.s[9] = 3 ∧ endsBy (go (.semset 2 1 none) (ab (2 ^ 32) 0)) = some (.abort 0x0D 0 false 0) := by decide +kernel
theorem test_barsync : (let s := base.modBank fun b => { b with bars := b.bars.set 3 ⟨0, 3, 0, 0, 0⟩ }
    let t := go (.barsync 3 0 none) s
    t.strand.wait = .bar 0 3 ∧ t.bank.bars[(3 : Fin 48)].arrStr = 1 ∧ (go (.barsync 3 0 none) base).bank.task.bind (·.ending) = some (.abort 0x0C 0 false 0)
    ∧ (go (.bartest 3 9 0 none) t).strand.s[9] = 0 ∧ (go (.bararr 3 0 none) s).strand.pc = 0x40004
    ∧ endsBy (go (.barwait 3 0 none) s) = some (.abort 0x0C 0 false 0)) := by decide +kernel
theorem test_barcfg : (let s := withRegs (base.wrs 0x100000 (toLe 33 (3 * 2 ^ 256))) [(1, 0x100000)]
    (go (.barcfg 3 1 none) s).bank.bars[(3 : Fin 48)] = ⟨0, 3, 0, 0, 0⟩ ∧ endsBy (go (.barcfg 3 1 none) (data 0 0)) = some (.abort 0x0D 0 false 0)) := by decide +kernel
theorem test_tokens : (go (.twait ⟨0, 0, 0, 4, 0⟩) (withTok base 4 ⟨.pending, 0⟩)).strand.wait = .token 4 ∧ (go (.ttest 9 4) (withTok base 4 ⟨.faulted, 7⟩)).strand.s[9] = 3 + 2 ^ 8 * 7
    ∧ endsBy (go (.twait ⟨0, 0, 0, 4, 0⟩) (withTok base 4 ⟨.faulted, 7⟩)) = some (.abort 0x0A 0 false 0) ∧ (go (.twait ⟨0, 0, 0, 4, 0⟩) (withTok base 4 ⟨.done, 0⟩)).strand.pc = 0x40008 := by decide +kernel
theorem test_tself : (go (.tself 9 0) base).strand.s[9] = 0x1234 ∧ (go (.tself 9 1) base).strand.s[9] = 77 ∧ (go (.tself 9 2) base).strand.s[9] = 1 + 2 ^ 16 * 2 + 2 ^ 18 := by decide +kernel
theorem test_tabort : endsBy (go (.tabort 1) (ab 0x55 0)) = some (.abort 0 0 false 0x55) ∧ endsBy (go (.tabort 1) (ab 0x10000 0)) = some (.abort 0x0D 0 false 0)
    ∧ (go .tend base).strand.run = false ∧ (go .tend base).strand.ended = true ∧ endsBy (go (.tspawn 1 2) (ab 4096 0)) = some (.abort 0x0D 0 false 0) := by decide +kernel
theorem test_reuse : (go (.reuseQuery 9) base).strand.s[9] = 2 ^ 44 + 0x7FC00000 ∧ (go .reuseDrop (base.modTask fun t => { t with desc := 2 ^ (8 * 51) })).bank.task.map (·.drop) = some true
    ∧ (go .reuseDrop base).bank.task.map (·.drop) = some false := by decide +kernel
theorem test_csr : (go (.csrr 9 0x100) base).strand.s[9] = 0x7FF356 ∧ (go (.csrw 9 1 0x200) (ab 3 0)).strand.rmode = 3 ∧ (go (.csrw 9 1 0x200) (ab 7 0)).strand.rmode = 0
    ∧ endsBy (go (.csrr 9 0x602) base) = some (.abort 0x06 0 false 0) ∧ endsBy (go (.csrr 9 0x7FF) base) = some (.abort 0x01 0 false 0) ∧ endsBy (go (.csrw 9 1 0x400) base) = some (.abort 0x06 0 false 0)
    ∧ (go (.csrwSet 9 1 0x281) (ab 0x10005 0)).strand.s[9] = 0 := by decide +kernel
set_option maxRecDepth 20000 in
/-- A trap with a handler: the report's cause, strand and flags, and where the handler starts (R444 to R446, R461). -/
theorem test_trap_entry : (let t := go (.trap 5 1) (withVec (ab 0x77 0))
    (t.bank.trap.tcause, t.strand.pc)) = (0x15 + 2 ^ 10 + 2 ^ 11, 0x50000) := by decide +kernel
theorem test_break : endsBy (go (.brk 1) base) = some (.abort 0x1F 0 false 0) ∧ endsBy (go (.trap 5 1) base) = some (.abort 0x15 0 false 0) := by decide +kernel
theorem test_eret : endsBy (go .eretResume base) = some (.abort 0x06 0 false 0) ∧ endsBy (go .eretAbort (handling 5)) = some (.abort 5 0 false 0)
    ∧ endsBy (go .eretResume (handling 5)) = some (.abort 5 0 true 0) ∧ (go .eretResume (withVec (handling 0x15))).strand.pc = 0x40000 ∧ (go .eretResume (withVec (handling 0x15))).strand.smode = false := by decide +kernel
theorem test_control : (go (.ctxid 9) base).strand.s[9] = 0 ∧ (go (.gear 9 .f) base).core.trans.isSome = true ∧ (go (.strstop 0) base).strand.run = false ∧ endsBy (go (.strstop 1) (ab 3 0)) = some (.abort 0x0D 0 false 0)
    ∧ endsBy (go (.tlbinv 1) base) = some (.abort 0x06 0 false 0) ∧ endsBy (go (.strstart 1 2) (ab 4 0)) = some (.abort 0x0D 0 false 0) := by decide +kernel
theorem wit_TokensGateAndTest : fenced.fenceHold = true ∧ base.fenceHold = false ∧ (withTok base 4 ⟨.pending, 0⟩).strand.t[(4 : Fin 32)].st = .pending ∧ (withTok base 4 ⟨.pending, 0⟩).fenceHold = false
    ∧ (withTok base 4 ⟨.faulted, 7⟩).strand.t[(4 : Fin 32)].st = .faulted ∧ (∀ t : Fin 32, base.strand.t[t].st ≠ .pending ∧ base.strand.t[t].st ≠ .faulted) := by decide +kernel
/-- A count that a need meets exactly, one below it, a waiter in line, and every kind of target: own, other, and the bad ones. -/
theorem wit_Semaphores : base.fenceHold = false ∧ (∀ t : Fin 32, base.strand.t[t].st ≠ .pending ∧ base.strand.t[t].st ≠ .faulted) ∧ base.bank.waiters = [] ∧ (withSem 1).bank.sems[(2 : Fin 64)].toNat = 1
    ∧ (withSem 0).bank.sems[(2 : Fin 64)].toNat < 1 ∧ .strand 0 2 1 1 ∈ (go (.semacq 2) (withSem 0)).bank.waiters ∧ base.rs 0 = 0 ∧ base.stores = [] ∧ fenced.stores ≠ []
    ∧ ((ab 0x101 0).core.part = some 0 ∧ ((two (ab 0x101 0)).cores[(1 : Fin 256)]).part = some 0 ∧ ((ab 0x101 0).cores[(1 : Fin 256)]).part = none)
    ∧ ((ab (2 ^ 32 - 1) 0).rs 1).toNat < 2 ^ 32 ∧ 2 ^ 32 ≤ ((ab (2 ^ 32) 0).rs 1).toNat := by decide +kernel
theorem wit_NamedBarriers : (let s := base.modBank fun b => { b with bars := b.bars.set 3 ⟨0, 3, 0, 0, 0⟩ }
    let one := base.modBank fun b => { b with bars := b.bars.set 3 ⟨2, 1, 0, 0, 2⟩ }
    let t := go (.barsync 3 0 none) s
    s.strand.arr.valid = false ∧ s.bank.bars[(3 : Fin 48)].strands.getLsbD 0 = true ∧ s.bank.bars[(3 : Fin 48)].arrStr.getLsbD 0 = false ∧ s.bank.loaded = true
    ∧ one.bank.bars[(3 : Fin 48)].strands.getLsbD 0 = true ∧ t.strand.arr.valid = true ∧ t.strand.arr.released = false ∧ t.strand.arr.home = 0 ∧ t.strand.arr.bar = 3 ∧ t.strand.arr.sync = true
    ∧ passes (data 3 0) { acc := .load, ea := 0x100000, len := 64, align := 64 } = true) := by decide +kernel
theorem wit_TaskInstructions : base.strand.smode = false ∧ (handling 5).strand.smode = true ∧ base.bank.task = some tsk ∧ base.bank.waiters = [] ∧ ((ab 4095 0).rs 1).toNat < 2 ^ 12 ∧ 2 ^ 12 ≤ ((ab 4096 0).rs 1).toNat
    ∧ ((ab 0xFFFF 0).rs 1).toNat < 2 ^ 16 ∧ fld tsk.desc 51 1 = 0 ∧ tsk.spawn.length < 64 ∧ isOk (regionAt base .load 0) (fun r => r.any fun r => r.kind != 2) = true
    ∧ isOk (regionAt (base.wrs 0x3000C [2]) .load 0) (fun r => r.any fun r => r.kind == 2) = true := by decide +kernel
theorem wit_TrapEntry : (0x1F < 2 ^ 8 ∧ ¬ (0x20 ≤ 0x1F ∧ 0x1F ≤ 0x22)) ∧ base.strand.smode = false ∧ base.bank.trap.handler = false ∧ base.ctx.tvec.getLsbD 0 = false ∧ (withVec base).ctx.tvec.getLsbD 0 = true
    ∧ (handling 5).strand.smode = true ∧ (base.modTrap fun r => { r with handler := true }).bank.trap.handler = true := by decide +kernel
/-- Strand 0 alone may issue, the word w is no instruction of its, and the trap leaves no strand waiting. -/
noncomputable def illegalOk (w reason : Nat) (decodes : Bool) (p : State) : Bool :=
  let v := p.cycleStart
  let u := v.focus v.cur 0
  let f := v.withCode [0]
  let a := (f.focus f.cur 0).modStrandN 0 fun x => { x with age := 0 }
  let bad := fun (x : State) =>
    if decodes then isOk x.parcels (· == (w, 0, 0)) && isErr (decodeParcels w 0 0) (· == reason)
    else isOk (x.parcelAt x.strand.pc) (· == w) && isErr (lengthOf w) (· == reason)
  p.cycleDue && ((List.finRange 4).all fun m => v.mayIssue m == decide (m = 0)) && bad u && bad a
    && !(u.usedUp.takeTrap 0x01 (w + 2 ^ 32 * reason)).waiting 0 && !(a.usedUp.takeTrap 0x01 (w + 2 ^ 32 * reason)).waiting 0
/-- FJ with a reserved function, and words of lengths that no rule allows, in a cycle of the agenda and in a turn of the core. -/
theorem wit_StepTrapsIllegal : ([(2 ^ 2 * 16 + 2 ^ 21 * 6, 4, true), (3, 1, false), (0, 2, false), (2 ^ 2 * 16 + 1, 3, false)].all fun (x : Nat × Nat × Bool) =>
      illegalOk x.1 x.2.1 x.2.2 ({ runs x.1 with agenda := [], cur := 0 } : State)
      && illegalOk x.1 x.2.1 x.2.2 ({ runs x.1 with agenda := [], turn := 1, cur := 0 } : State).gearDone.barDrop.barReturn) = true := by decide +kernel
theorem wit_SoftTrapsAndReturns : base.strand.smode = false ∧ (handling 5).strand.smode = true ∧ (handling 5).bank.trap.held = none ∧ (handling 0x15).bank.trap.tcause.toNat % 2 ^ 8 = 0x15
    ∧ tsk.nr = false ∧ tsk.escaped = false ∧ tsk.retry < ((handling 5).modCtx fun c => { c with tctl := 3 }).ctx.tctl.toNat ∧ ¬ tsk.retry < ((handling 5).modCtx fun c => { c with tctl := 0 }).ctx.tctl.toNat
    ∧ (handling 0x15).bank.evpend = 0 ∧ (∀ m : Fin 4, m ≠ 0 → (handling 0x15).bank.strands[m].smode = false) := by decide +kernel
theorem wit_TrapAndGearEvents : base.bank.trap.handler = false ∧ base.bank.trap.entry = none ∧ base.bank.evpend = 0 ∧ (base.modBank fun b => { b with evpend := 2 }).bank.evpend.getLsbD 1 = true
    ∧ (base.modTask fun t => { t with budget := 8 }).bank.task.map (fun k => decide (k.budget < k.usedCyc)) = some true ∧ (base.modTask fun t => { t with budget := 9 }).bank.task.map (fun k => decide (k.budget < k.usedCyc)) = some false
    ∧ (base.modTask fun t => { t with ending := some .rerun }).bank.task.bind (·.ending) = some .rerun ∧ base.strand.run = true := by decide +kernel
theorem wit_CsrAccess : 0x7FF ∉ csrExists ∧ 0x602 ∈ readsInS ∧ 0x400 ∈ writesInS ∧ 0x100 ∈ csrExists ∧ base.strand.smode = false ∧ (handling 5).strand.smode = true ∧ (∃ c ∈ base.ctxs, c.id = base.bank.ctx)
    ∧ csrAfter base 0x200 3 = some 3 ∧ csrAfter base 0x100 3 = none := by decide +kernel
theorem wit_CsrValuesAndWrites : base.core.part = some 0 ∧ base.bank.bq.length ≤ 64 ∧ base.strand.barsel.toNat = 0 ∧ (2 ^ 63 : BitVec 64).getLsbD 63 = true ∧ (0 : BitVec 64).getLsbD 63 = false
    ∧ (7 : BitVec 64).toNat % 8 = 7 ∧ base.bank.loaded = true ∧ base.bank.task.isSome = true := by decide +kernel
theorem wit_ControlInstructions : base.core.trans = none ∧ base.dev.fab.net = [] ∧ base.core.gear = .n ∧ (15 : Nat) < 2 ^ 4 ∧ 15 / 4 % 4 = 3 ∧ 11 / 4 % 4 ≠ 3
    ∧ ((base.bank.strands[(1 : Fin 4)]).named = false ∧ (base.bank.strands[(1 : Fin 4)]).smode = false ∧ tsk.started.getLsbD 1 = false ∧ tsk.started.getLsbD 0 = true ∧ (base.bank.strands[(0 : Fin 4)]).ended = false)
    ∧ base.strand.latch = 0 ∧ (base.modStrand fun t => { t with latch := 32 }).strand.latch ≠ 0 ∧ base.core.part = some 0 ∧ peerOf base 9 = none ∧ base.stores = []
    ∧ ((ab 0xFFFF 0).rs 1).toNat < 2 ^ 16 ∧ (withTok base 4 ⟨.pending, 0⟩).strand.t[(4 : Fin 32)].st = .pending := by decide +kernel
/-- Package 9 is reached through port 2, and the peer table of the context names context 7 there (R436). -/
theorem wit_ControlInstructions_reaches : (let s := (base.modCtx fun c => { c with zkpeer := 0x68000 }).modDev fun d => { d with zikin := { d.zikin with count := 9, up := 4, routes := [(9, 2)] } }
    let s := s.wrs (0x68000 + 8 * 9) (toLe 8 (2 ^ 63 + 7))
    (peerOf s 9).isSome = true ∧ s.reaches 9 = true) := by decide +kernel
/-- A message of a KIND that core 0 sent to core 1, which has arrived without the mesh. -/
def msgS (kind : Nat) (f : Msg → Msg) : State := (two base).send fun id => f ((two base).msg0 kind 1 id)
def msgId : Nat := base.dev.fab.nextMsg
theorem wit_MessagesAnswered : (let s := msgS 6 fun m => { m with addr := partKey 0 0x11000, data := toLe 8 9 }
    let t := msgS 16 fun m => { m with ref := 999 }
    (s.dev.fab.net.find? (fun m => m.id == msgId)).any (fun m => m.st == .queued && m.kind == 6 && m.data.length == 8 && !s.writeHeld m && !m.rel) = true
    ∧ (t.dev.fab.net.find? (fun m => m.id == msgId)).any (fun m => m.st == .queued && m.kind == 16 && !t.writeHeld m) = true
    ∧ base.dev.fab.net = [] ∧ partKey 0 0 ≤ partKey 0 0x11000 ∧ partKey 0 0x11000 < partKey 16 0 ∧ atomOf 0 = none ∧ (atomOf 1).isSome = true ∧ base.mem.wf = true) := by decide +kernel
theorem wit_MessagesToContexts : (let s := msgS 3 fun m => { m with ref := 2, count := 1 }
    let k := s.bankOf 0 1
    let full := { s with cores := s.cores.set 1 { s.cores[1] with bank := { Bank.clear with loaded := true, ctx := 0, bars := Bank.clear.bars.set 3 ⟨1, 0, 0, 0, 0⟩ } } }
    (s.dev.fab.net.find? (fun m => m.id == msgId)).any (fun m => m.kind == 3 && m.ctx == 0 && m.dst == 1 && !s.writeHeld m && !m.rel) = true
    ∧ k.waiters = [] ∧ (∃ x ∈ s.ctxs, x.id = 0) ∧ onesOf k.bars[(3 : Fin 48)].strands + onesOf k.bars[(3 : Fin 48)].cores = 0
    ∧ (full.bankOf 0 1).bars[(3 : Fin 48)].cores.getLsbD 0 = true ∧ (full.bankOf 0 1).bars[(3 : Fin 48)].arrCores.getLsbD 0 = false ∧ full.cores[(1 : Fin 256)].bank.loaded = true) := by decide +kernel
/-- A flit of a message from core 0 to core 1, one hop from where it starts. -/
theorem wit_MeshAndLinkEvents : (let s := go (.admission msgId) ((msgS 1 id).modDev fun d => { d with sites := { d.sites with site := (d.sites.site.set 0 5).set 1 6 } })
    let f := s.dev.fab.flits
    f.length = 1 ∧ (∀ x ∈ f, x.plane = .q ∧ x.placed = false ∧ s.injects x.at_ = true ∧ x.hdr.toNat % 2 ^ 9 < 272 ∧ hdrDst x.hdr ≠ x.at_) ∧ s.dev.fab.relief = []
    ∧ (let t := go (.arbitrate .q) s
      (∀ x ∈ t.dev.fab.flits, x.placed = true) ∧ t.dev.fab.flits.length = 1)) := by decide +kernel
theorem wit_FillAndWalk : base.dev.slices = [] ∧ isOk (walkOf base base.ctx .load 0x100000) (fun _ => true) = true ∧ isErr (walkOf base base.ctx .load (2 ^ 31)) (fun _ => true) = true
    ∧ (base.setLines 5).length < 16 ∧ (go (.hbmFill 5 1) base).dev.slices = [⟨5, 1, none, none⟩] := by decide +kernel
theorem wit_CompressionLosesNothing : (List.replicate 128 (0 : Byte)).length = 128 ∧ (codeLine (List.replicate 128 0) (bestCode (List.replicate 128 0)).1).isSome = true := by decide +kernel
/-- A launch record of one step for context 0 in slot 0, whose graph has one node that runs the code at 0x40000 as strand 0; the
time-slice list serves context 0. -/
noncomputable def launchS : State :=
  let s := base.modBank fun b => { b with task := none }
  let s := s.wrs (partKey 0 0) (toLe 64 (fields [(0, 0x80000), (8, 0x84000), (24, 1), (32, 0xC0000000000000)]))
  let s := s.wrs (partKey 0 0x10100) (toLe 8 (2 ^ 63 + 2 ^ 16))
  (s.wrs 0x80000 (toLe 64 (fields [(0, 0x81000), (8, 0x82000), (16, 0x40000), (24, 0x83000), (32, 1)]))).wrs 0x81000 (toLe 64 (2 ^ 31))
noncomputable def startS : State := go (.launchStart 0 0) (go (.submit 0 0) launchS)
noncomputable def placeS : State := go (.chaconneEvaluate 0 0 0 0 0) startS
theorem wit_LaunchEvents : (let s := go (.submit 0 0) launchS
    let r : BitVec 512 := BitVec.ofNat 512 (launchS.rdN (partKey 0 0) 64)
    (launchS.ctxOf 0).launch = none ∧ launchS.parts[(0 : Fin 16)].waiting = [] ∧ (∃ c ∈ launchS.ctxs, c.id = 0) ∧ s.parts[(0 : Fin 16)].waiting = [r] ∧ (1023 : Nat) < 2 ^ 10
    ∧ launchCheck (s.lens 0) r = none ∧ launchCheck (s.lens 0) 0 = some 1 ∧ (devWord (s.lens 0) 0x80000 64).isSome = true
    ∧ (graphNode (s.lens 0) (BitVec.ofNat 512 ((devWord (s.lens 0) 0x80000 64).getD 0)) 0).any (fun D => !Node.template D && fld D 54 1 == 0) = true) := by decide +kernel
/-- Node 0 takes clause 1, which is not enabled. -/
theorem wit_LaunchEvents_evaluate : (let s := startS.wrs (0x81000 + 51) [1]
    let u := s.lens 0
    let l := (s.ctxOf 0).launch
    l.any (fun l => l.elig.any fun y => y.node == 0 && y.step == 0) = true ∧ (s.entryFor 0).isSome = true ∧ s.parts[(0 : Fin 16)].pool.length < 4096 ∧ ((s.ctxOf 0).row 0).isSome = true
    ∧ l.any (fun l => (graphNode u l.header 0).any (fun D => fld D 51 1 == 1) && (clauseOf u l.header 1).any (fun c => !c.log)) = true) := by decide +kernel
theorem wit_TaskEvents : (let s := placeS
    let u := s.enterPool 0
    s.slice 0 s.parts[(0 : Fin 16)].slice / 2 ^ 63 = 1 ∧ s.parts[(0 : Fin 16)].stopped = false ∧ (poolHead u.parts[(0 : Fin 16)].pool 0).isSome = true ∧ (u.ctxOf 0).launch.isSome = true
    ∧ s.cores[(0 : Fin 256)].bank.task = none ∧ s.cores[(0 : Fin 256)].trans = none ∧ s.cores[(0 : Fin 256)].retired = false) := by decide +kernel
theorem wit_TaskEvents_swap : (let t := go (.taskPlacement 0) placeS
    (match t.cores[(0 : Fin 256)].shadow with
      | .task k => k.code == 0x40000 && k.desc == 2 ^ 31 && !k.gapply
      | _ => false) = true
    ∧ (let w := go (.shadowBankSwap 0) t
      w.bank.task.isSome = true ∧ w.strand.run = true ∧ w.strand.pc = 0x40000 ∧ (go .tend w).mayCommit = true ∧ (go (.taskCommit 0) (go .tend w)).bank.task = none)) := by decide +kernel
/-- A context record 1 of partition 0 whose page tables are those of context 0. -/
def recordS : State := base.wrs (partKey 0 0x20100) (toLe 8 0x10000 ++ List.replicate 112 0 ++ toLe 8 0 ++ toLe 8 0x6200000)
theorem wit_HostCommandsAndReports : recordS.registerResult 0 1 = 0 ∧ (base.registerResult 0 1) ≠ 0 ∧ recordS.parts[(0 : Fin 16)].busy = false ∧ recordS.dev.devBusy = false
    ∧ (base.cores[(1 : Fin 256)]).part = none ∧ (base.cores[(1 : Fin 256)]).bank.task = none ∧ (base.cores[(1 : Fin 256)]).trans = none ∧ (base.cores[(0 : Fin 256)]).part ≠ none
    ∧ (base.cores[(0 : Fin 256)]).leaving = none ∧ (base.cores[(0 : Fin 256)]).retired = false := by decide +kernel
/-- An event ring of two records at host address 0x1000: free, and full; and the context can be unregistered while nothing names it. -/
theorem wit_HostCommandsAndReports_events : (let s := base.wrs (partKey 0 0x10200) (toLe 8 0x1000 ++ toLe 8 1)
    let t := s.wrs (hostKey 0x1000) (toLe 8 2)
    s.rdN (partKey 0 0x10200) 8 ≠ 0 ∧ s.rdN (hostKey 0x1000) 8 = 0 ∧ t.rdN (hostKey 0x1000) 8 = 2 ∧ 2 ^ (t.rdN (partKey 0 0x10208) 8 % 64) = 2
    ∧ base.entryFor 0 = none ∧ (base.ctxOf 0).launch = none ∧ base.parts[(0 : Fin 16)].waiting = []) := by decide +kernel
theorem wit_ContextSwapEvents : (let s := placeS.wrs (partKey 0 0x10108) (toLe 8 (2 ^ 63 + 2 ^ 16 * 1000))
    base.dclk.toNat = 0 ∧ base.parts[(0 : Fin 16)].ends = 0 ∧ base.parts[(0 : Fin 16)].stopped = false ∧ (base.cores[(0 : Fin 256)]).stall = false ∧ (base.cores[(0 : Fin 256)]).shadow = .free
    ∧ s.nextSlice 0 = some 1 ∧ (base.cores[(0 : Fin 256)]).swapDue = false ∧ base.nextSlice 0 = none) := by decide +kernel
theorem wit_ContextSwapEvents_slot : slotFault base base.ctx .store (2 ^ 31) (2 ^ 31) = some (2 ^ 31) ∧ slotFault base base.ctx .store 0x100000 0x100000 = none
    ∧ slotFault base base.ctx .store (2 ^ 31) (2 ^ 31 + 4100) = some (2 ^ 31 + 4100) := by decide +kernel
theorem wit_HostAccesses : base.dev.fethen.boot = .running ∧ State.reset.dev.fethen.boot = .held ∧ (0x10000 : Nat) < 2 ^ 20 ∧ base.parts[(0 : Fin 16)].busy = false
    ∧ base.rdN (2 ^ 84 + 0x400) 8 + (2 ^ 20) + 8 ≤ 384 * 2 ^ 30 ∧ ¬ (base.wrs (devKey 0x400) (toLe 8 (384 * 2 ^ 30 - 8))).rdN (2 ^ 84 + 0x400) 8 + 1 + 8 ≤ 384 * 2 ^ 30
    ∧ (base.modBank fun b => { b with task := none }).taskSpans 0x100000 8 = [] := by decide +kernel
def power (f : Power → Power) : State := base.modDev fun d => { d with power := f d.power }
/-- The example of R497: SEQ 7 (1,400 W for 500 ms), then SEQ 5 and SEQ 7 again; the caps of R493; and a lease at its end and before it. -/
theorem test_caps : (let m := fun (seq : W64) (w : Nat) (s : State) => go (.capMessage seq (BitVec.ofNat 64 (w + 2 ^ 32 * 500))) s
    (m 7 1000 (m 5 900 (m 7 1400 base))).dev.power.pendCap = some (1400, 500000000)
    ∧ (m 1 100 base).dev.power.pendCap = some (200, 500000000) ∧ (m 1 2500 base).dev.power.pendCap = some (2000, 500000000)
    ∧ (go (.capMessage 1 (BitVec.ofNat 64 (900 + 2 ^ 16))) base).dev.power.fallback = 900 ∧ (go (.capMessage 1 900) base).dev.power.seq = 0) := by decide +kernel
theorem test_thermal : (go (.thermalLimitUpdate true false) base).dev.power.thermal = 1950 ∧ (go (.thermalLimitUpdate true false) (power fun p => { p with thermal := 220 })).dev.power.thermal = 200
    ∧ (go (.thermalLimitUpdate false true) (power fun p => { p with thermal := 1980 })).dev.power.thermal = 2000
    ∧ (go (.thermalStop 0 114) base).dev.power.thermalStop = false ∧ (go (.thermalStop 0 115) base).dev.power.thermalStop = true := by decide +kernel
/-- The example of R519: eight errors that span 610 s are not lasting, and the ninth at 650 s is. -/
theorem test_errors : (let u := ErrUnit.vaultBank 0 3
    let at_ := fun (t : Nat) (l : List Nat) => base.modDev fun d => { d with dclk := BitVec.ofNat 64 (t * 10 ^ 9), errors := [⟨u, l.map (· * 10 ^ 9), false⟩] }
    (go (.errorCount u false) (at_ 610 [480, 400, 320, 240, 160, 80, 0])).dev.errors.map (·.spared) = [false]
    ∧ (go (.errorCount u false) (at_ 650 [610, 480, 400, 320, 240, 160, 80, 0])).dev.errors.map (·.spared) = [true]) := by decide +kernel
theorem wit_PowerEvents : (let p := base.dev.power
    p.seq < 7 ∧ ¬ (7 : W64) ≤ p.seq ∧ (7 : W64) ≤ (power fun p => { p with seq := 7 }).dev.power.seq ∧ (1400 + 2 ^ 32 * 500 : W64).toNat / 2 ^ 17 % 2 ^ 15 = 0
    ∧ (1400 + 2 ^ 32 * 500 : W64).getLsbD 16 = false ∧ (900 + 2 ^ 16 : W64).getLsbD 16 = true ∧ p.cap = none ∧ (power fun p => { p with cap := some (1400, 0) }).dev.power.cap = some (1400, 0)
    ∧ base.dclk.toNat = 0 ∧ (base.cores[(0 : Fin 256)]).bank.netctl = 0) := by decide +kernel
theorem wit_BootAndErrorEvents : (let boot := fun (b : Boot) => (base.modDev fun d => { d with fethen := { d.fethen with boot := b } }).dev.fethen
    State.reset.dev.fethen.boot = .held ∧ (boot .recovery).boot = .recovery ∧ (boot .recovery).busy = false ∧ base.dev.fethen.boot = .running ∧ base.dev.fethen.committed = false
    ∧ base.dev.fethen.sigIdx < 2 ^ 20 ∧ (base.modDev fun d => { d with fethen := { d.fethen with sigIdx := 2 ^ 20 } }).dev.fethen.sigIdx = 2 ^ 20 ∧ base.dev.errT[(0 : Fin 6)] = 8
    ∧ (base.cores[(0 : Fin 256)]).retired = false ∧ base.dev.sites.spares = []) := by decide +kernel
/-- A vault region OWNED by core 0 takes a deposit, and an HBM region of KIND 2 a read and a write; the context is installed. -/
theorem wit_OtherPackages : (let s := base.wrs 0x3000C [2]
    remoteParts s 0 0 false false 0x100000 4 = some [(0x100000, 4)] ∧ remoteParts s 0 0 true false 0x100000 16 = some [(0x100000, 16)] ∧ 0x100000 % 4 = 0
    ∧ (remoteParts (vaultOf 0) 0 0 false true 0xF0000000000040 8).isSome = true ∧ remoteParts base 0 0 false false 0x100000 4 = none ∧ (∃ x ∈ base.ctxs, x.id = 0)
    ∧ (base.cores[(0 : Fin 256)]).part = some (partOfCtx 0) ∧ base.dev.zikin.out = [] ∧ base.dev.zikin.routes = []
    ∧ (base.modDev fun d => { d with zikin := { d.zikin with id := 5, routes := [(2, 1)] } }).dev.zikin.routes.any (fun r => r.1 < 5) = true) := by decide +kernel
theorem wit_OtherPackages_signal : (let s := (base.modBank fun b => { b with sigs := [⟨9, 0, 5, 0x1234⟩] }).modDev fun d => { d with zikin := { d.zikin with out := [⟨9, 2, 0, .incr 0 0 0 1⟩] } }
    (s.dev.zikin.out.find? fun x => x.cmd == 9).isSome = true ∧ (s.cores[(0 : Fin 256)]).bank.loaded = true ∧ (s.cores[(0 : Fin 256)]).bank.sigs.find? (fun g => g.id == 9) = some ⟨9, 0, 5, 0x1234⟩ ∧ s.bank.taskId = 0x1234
    ∧ (go (.remoteAccess (.ack 9 none)) s).strand.t[(5 : Fin 32)] = ⟨.done, 0⟩ ∧ (∀ x ∈ base.dev.zikin.out, x.cmd ≠ 9)) := by decide +kernel
theorem wit_MemoryStaysCanonical : base.mem.wf = true ∧ base.mem.cells ≠ [] ∧ ({ base with agenda := [.cycle 0] } : State).mem.wf = true := by decide +kernel
/-- The seed and a draw (R408, R413): the words of a block are those of ChaCha20 with the seed, and RNG reads the draw that its register names. -/
theorem test_rng : (let s := go (.rngkey 1) (data 5 0)
    s.bank.seed = 5 ∧ endsBy (go (.rngBitsL ⟨.n8, 0, 0, 0, 2⟩ { xz with sc := 1 }) (ab (2 ^ 48) 0)) = some (.abort 0x0D 0 false 0)
    ∧ el 32 (go (.rngBits ⟨.n32, 0, 0, 0, 2⟩) base).strand.v[2] 0 = chacha 0 0 0 5 0 % 2 ^ 32) := by decide +kernel

/-! ## Witnesses of further clauses -/
/-- STV of a mapped v30: the popped slot is the source, and the store of its 512 bytes goes ahead; an empty ring holds the strand. -/
theorem wit_StoresComplete_popped : (let s := withRegs (ringed [⟨0, true, 5⟩]) [(1, 0x100000)]
    let rg : RingInfo := ⟨0xF0000000000200, 2, 0, 0⟩
    let q : Ask := { acc := .store, ea := 0x100000, len := 512, align := 64 }
    ringInfo s 1 = some rg ∧ (withRegs (ringed []) [(1, 0x100000)]).popSlot rg 1 = none
    ∧ ((s.popSlot rg 1).any fun r => let u := r.1
        let ps := okParts u.clearFence q
        !u.fenceHold && u.bank.task.isSome && ps.all (fun p => p.kind != 4 && decide (p.len ≤ 512)) && passes u.clearFence q && (ps.map (·.len)).sum == 512
        && (overflowOf u.clearFence ps).isNone && decide (u.clearFence.bufferUsed < 32)) = true) := by decide +kernel
/-- A load that comes after a store to COMMONS, and PREF of a line of HBM. -/
theorem wit_FencesAndCaches_more : (let s := (base.send fun id => { base.msg0 1 1 id with kind := 2 })
    let q : Ask := { acc := .load, ea := 0x100000, len := 1, align := 1 }
    let p := (okParts base q).headD ⟨0, 0, 0, .host, 0⟩
    (∃ m ∈ s.stores, m.kind = 2) ∧ checkAll base q = .ok [p] ∧ p.space = .hbm ∧ p.kind ≤ 1
    ∧ (okParts (base.wrs 0x3000C [2]) { q with ordered := true }).map (·.kind) = [2]) := by decide +kernel
/-- A store to a vault is on its way, so that a region may not change hands. -/
theorem wit_RegionsChangeHands_waits : (let s := { vaultOf 0 with dev := (go (.stD 2 1 0) (withRegs (vaultOf 0) [(1, 0xF0000000000040)])).dev }
    s.pendingBelow s.releaseBound = true ∧ isOk (regionAt s .own 0xF0000000000040) (fun r => r == some ⟨1, 0xF0000000000000, 1, 0, 0, 0⟩) = true) := by decide +kernel
/-- Room for bank loads: seven pending and eight, 31 commands of q3 and 32; MGO with a pending token of its consumed set; MABORT of a
nest with a token; and MWR of a mapped v30 and v31. -/
theorem wit_MatrixCommands_more : (let load : PendLoad := ⟨0, 0, Tag.none, 0, 0, [], false⟩
    let full := fun (n : Nat) => matS.modBank fun b => { b with mat := { b.mat with loads := List.replicate n load } }
    (full 7).bank.queues[(3 : Fin 4)].cmds.length + (full 7).bank.mat.loads.length < 32 ∧ (full 7).bank.mat.loads.length < 8 ∧ 8 ≤ (full 8).bank.mat.loads.length
    ∧ (descNow (full 7).clearFence 1).any (fun D => D.reason 2 0 == none) = true
    ∧ (let t := withTok (go (.mcfg 1) matS) 4 ⟨.pending, 0⟩
      WaitsFor t ⟨0, 0, 0, 4, 0⟩ [4] ∧ t.bank.mat.running = none ∧ t.bank.mat.shadowSt = .loaded ∧ (go (.mgoL ⟨0, 0, 0, 4, 0⟩) t).bank.mat.running.isSome = true)
    ∧ ((go (.mgoL ⟨0, 0, 0, 0, 5⟩) (go (.mcfg 1) matS)).bank.mat.running.any fun r => r.td != 0) = true
    ∧ (let s := ringed [⟨0, true, 5⟩]
      s.strand.pop ≠ 0 ∧ s.strand.push ≠ 0 ∧ s.bank.loaded = true ∧ (ringInfo s 1).isSome = true ∧ (ringInfo s 2).isNone = true ∧ (s.ctx.ringOf 1).slots = [⟨0, true, 5⟩]
      ∧ s.bank.mat.running = none ∧ s.bank.mat.queued = none)) := by
  refine ⟨?_, ?_, ?_, ?_, ⟨⟨?_, ?_⟩, ?_⟩, ?_⟩ <;> decide +kernel
/-- The engine before its nest starts: a queued MGO with a nest that is done, and one that waited for its tokens; MLDB ready to load;
and the stop at 115 °C. -/
theorem wit_MatrixEvents_more : (let one : QueuedMgo := ⟨0, 0, 0, [], false, 0⟩
    let s := (go (.mcfg 1) matS).modBank fun b => { b with mat := { b.mat with queued := some one, shadowSt := .pending } }
    let t := (go (.mcfg 1) matS).modBank fun b => { b with mat := { b.mat with copied := b.mat.shadow, running := some one } }
    s.bank.mat.running = none ∧ s.clockStopped = false ∧ t.bank.mat.running = some one ∧ t.bank.mat.eng ≠ .running
    ∧ (power fun p => { p with thermalStop := true }).clockStopped = true
    ∧ (let m := go (.mldb 1 2) (withRegs matS [(1, 1), (2, 0)])
      (m.bank.mat.loads.map fun l => (m.loadStarted l, l.bad, isOk (loadTile m l.tag.tile) fun d => d.rows[(0 : Fin 256)] == BitVec.ofNat 8192 7)) = [(true, false, true)]
      ∧ ∀ l ∈ m.bank.mat.loads, l.tag.tile.rows = 1 ∧ l.tag.ty = .i8)) := by decide +kernel
/-- QFLUSH with a write of another package in flight; QDRAIN of q3 behind a bank load; a bank load behind a command of q3 that has not
started. -/
theorem wit_QueueControl_more : (let far := cpyS.modBank fun b => { b with queues := b.queues.set 1 { b.queues[1] with cmds := b.queues[1].cmds.map fun c => { c with acks := 1 } } }
    let load := go (.mldb 1 2) (withRegs matS [(1, 1), (2, 0)])
    let behind := go (.mldb 1 2) (withRegs (go (.qsemw 3 2) matS) [(1, 1), (2, 0)])
    (∃ c ∈ far.bank.queues[(1 : Fin 4)].cmds, c.acks ≠ 0) ∧ far.fenceHold = false ∧ (∃ l ∈ load.bank.mat.loads, l.id < load.dev.fab.nextMsg) ∧ load.bank.mat.running = none
    ∧ load.strand.wait = .none ∧ (load.bank.mat.loads.map load.loadStarted) = [true] ∧ (behind.bank.mat.loads.map behind.loadStarted) = [false]
    ∧ (∀ c ∈ cpyS.bank.queues[(1 : Fin 4)].cmds, c.acks = 0 ∧ c.task = cpyS.bank.taskId)) := by decide +kernel
/-- The queue whose turn it is, the only command of it, which is the task's, and the parts of its element; no saved task of the
context has commands. -/
theorem wit_CopyEvents_turn : (let s := go (.copyCommandStart 0 1) cpyS
    let x := s.bank.queues[(1 : Fin 4)]
    s.nextQueue = some 1 ∧ (s.working 1).isSome = true ∧ x.cmds.length = 1 ∧ (∀ h ∈ x.cmds, h.task = s.bank.taskId ∧ partsOf h.block.dst 1 = [(h.block.dst, 1)]) ∧ s.elsewhere = []
    ∧ x.flush = false ∧ s.dev.power.thermalStop = false ∧ (cpyS.bank.queues[(1 : Fin 4)].cmds.all fun h => (cpyS.loadsBefore 1 h).isEmpty && !cpyS.passBefore 1 h) = true
    ∧ s.bank.task.isSome = true) := by decide +kernel
/-- A queue that began to wait for the semaphore in this fabric cycle is behind the strand, one that began before is ahead of it. -/
theorem wit_Semaphores_order : (let now := base.dev.fabricCycles
    let s := (withSem 0).modBank fun b => { b with waiters := [.queue 1 2 1 (now - 1), .queue 2 2 1 now] }
    (go (.semacq 2) s).bank.waiters = [.queue 1 2 1 (now - 1), .strand 0 2 1 1, .queue 2 2 1 now]) := by decide +kernel
/-- A message whose flits have arrived. -/
theorem wit_MessagesAnswered_delivered : (let s := msgS 6 fun m => { m with addr := partKey 0 0x11000, data := toLe 8 9, st := .delivered, rel := false }
    (s.dev.fab.net.find? (fun m => m.id == msgId)).any (fun m => m.st == .delivered && !s.writeHeld m) = true ∧ s.dev.fab.intake = []) := by decide +kernel
/-- Two flits that ask for a tracker, and all 128 taken; a flit that has waited 63 cycles behind the relief of another site; 16 replays;
a plane that has had its turn. -/
theorem wit_MeshEvents_more : (let f0 : Flit := { plane := .q, at_ := 6, pay := 0, hdr := 0, msg := msgId, placed := true, waitC := 0 }
    let s := (msgS 1 fun m => { m with st := .admitted, data := List.replicate 128 1 }).modDev fun d => { d with fab := { d.fab with flits := [f0] } }
    let taken := fun (n : Nat) => s.modDev fun d => { d with fab := { d.fab with net := d.fab.net ++ (List.finRange 128).map fun k => { base.msg0 1 1 (n + k.val) with qtrk := some k } } }
    (s.dev.fab.net.map fun m => (decide (m.kind.toNat < 16), m.flits, m.qtrk)) = [(true, 2, none)]
    ∧ (∀ k : Fin 128, ∃ x ∈ (taken 1000).dev.fab.net, x.dst = 1 ∧ x.qtrk = some k)
    ∧ (let w := s.modDev fun d => { d with fab := { d.fab with flits := [{ f0 with placed := false, waitC := 63 }], relief := [(.q, 9)] } }
      w.injects 6 = true ∧ w.dev.fab.relief.find? (fun r => r.1 == Plane.q) = some (.q, 9) ∧ (Plane.q, (6 : Fin 272)) ∉ w.dev.fab.relief)
    ∧ (let w := base.modDev fun d => { d with fab := { d.fab with replays := [(.q, 5, .e, 16)], turned := [.q] } }
      (∃ r ∈ w.dev.fab.replays, 16 ≤ r.2.2.2) ∧ liveTo w.dev.fab.dead .q 5 .e = some 6 ∧ Plane.q ∈ w.dev.fab.turned)) := by decide +kernel
/-- A set of the slice that is full, and a versioned line that the bypass hint brings in. -/
theorem wit_FillAndWalk_full : ∃ (a b : Nat) (s : State), a ≠ b ∧ s.sliceWays a ≤ (s.setLines a).length ∧ ¬ ∃ x ∈ s.dev.slices, x.line = a := by
  obtain ⟨N, h⟩ : ∃ N, ∀ n, Machine.setOf n < N := ⟨256 * 512 + 512, fun n => by
    have : channelOf (n * 128) < 2 ^ 8 := by
      apply Nat.xor_lt_two_pow <;> apply Nat.xor_lt_two_pow <;> omega
    unfold Machine.setOf
    omega⟩
  obtain ⟨a, b, hne, he⟩ := Finite.exists_ne_map_eq_of_infinite fun n : Nat => (⟨Machine.setOf n, h n⟩ : Fin N)
  have he : Machine.setOf b = Machine.setOf a := (congrArg Fin.val he).symm
  refine ⟨a, b, base.modDev fun d => { d with slices := List.replicate 16 ⟨b, 0, none, none⟩ }, hne, ?_, ?_⟩
  · have : (base.modDev fun d => { d with slices := List.replicate 16 (⟨b, 0, none, none⟩ : SLine) }).setLines a = List.replicate 16 ⟨b, 0, none, none⟩ := by
      unfold State.setLines
      refine List.filter_eq_self.2 fun x hx => ?_
      rw [List.eq_of_mem_replicate hx]
      exact beq_iff_eq.2 he
    rw [this]
    exact Nat.sub_le _ _
  · rintro ⟨x, hx, rfl⟩
    rw [List.eq_of_mem_replicate hx] at hne
    exact hne rfl
theorem wit_FillAndWalk_versioned : (let v := (base.modTask fun t => { t with version := [(640, 1)] })
    base.sliceWays 5 = 16 ∧ (5 ∈ v.versionLines 0) ∧ (go (.hbmFill 5 3) v).dev.slices = [⟨5, 1, none, none⟩]) := by decide +kernel
/-- Core 0 of a state, changed. -/
def onCore (s : State) (f : Core → Core) : State := s.modCore f
/-- Fifteen launches that wait behind another of their context, and sixteen; an instance that is not decided; a pool of one
node and one of 4,096. -/
theorem wit_LaunchEvents_room : (let queued := fun (n : Nat) => launchS.modPart 0 fun p => { p with waiting := List.replicate n 0 }
    (queued 16).waitCount 0 = 15 ∧ (queued 17).waitCount 0 = 16 ∧ ((queued 1).parts[(0 : Fin 16)].waiting.any fun y => fld y 28 2 == 0) = true
    ∧ ((startS.ctxOf 0).launch.any fun l => l.elig.all fun y => !y.ready) = true
    ∧ placeS.parts[(0 : Fin 16)].pool.length = 1) := by decide +kernel
theorem wit_LaunchEvents_full (e : PoolEnt) : 4096 ≤ (startS.modPart 0 fun p => { p with pool := List.replicate 4096 e }).parts[(0 : Fin 16)].pool.length := by
  rw [show (startS.modPart 0 fun p => { p with pool := List.replicate 4096 e }).parts[(0 : Fin 16)].pool = List.replicate 4096 e from
    congrArg Part.pool (Vector.getElem_set_self _), List.length_replicate]
/-- A core whose task's strands have all ended, with a task loaded behind it, and one with a suspended task of its context. -/
theorem wit_TaskEvents_more : (let placed := go (.taskPlacement 0) placeS
    let ended := go .tend (go (.shadowBankSwap 0) placed)
    let more := onCore ended fun k => { k with shadow := placed.cores[(0 : Fin 256)].shadow }
    let after := go (.shadowBankSwap 0) more
    ended.bank.spent = true ∧ ended.elsewhere = [] ∧ ended.bank.tail = [] ∧ more.core.trans = none ∧ after.bank.tail.length = 1 ∧ after.bank.task.isSome = true
    ∧ (after.bank.tail.all fun t => t.ending.isNone && after.quietFor t.id) = true ∧ after.elsewhere = [] ∧ placeS.incoming 0 = []
    ∧ (let saved := (base.modBank fun b => { b with task := none }).modCtx fun c => { c with saved := [(0, base.bank)] }
      saved.bank.task = none ∧ saved.bank.loaded = true ∧ (saved.ctx.suspended 0).isSome = true)) := by decide +kernel
/-- A context saved for core 0 whose slot has pages, and one whose slot has none; a core that stopped in a fill and has the other context's bank. -/
theorem wit_ContextSwapEvents_more : (let c1 : Ctx := { recordS.recordCtx 0 1 with saved := [(0, { base.bank with ctx := 1 })] }
    let s := { placeS with ctxs := c1 :: placeS.ctxs }
    ((s.ctxOf 1).saved.find? (fun e => e.1 == 0)).map (fun e => (e.1, e.2.ctx)) = some (0, 1) ∧ (∀ b x, s.core.shadow ≠ .filled b x)
    ∧ (∃ a, slotFault base { base.ctx with saveBase := 0x80000000 } .load 0x80000000 0x80000000 = some a)
    ∧ (let stop := onCore base fun k => { k with stall := true, stallDir := true, stallCtx := 1, shadow := .filled { Bank.clear with loaded := true, ctx := 1 } none }
      stop.core.trans = none ∧ stop.dev.power.thermalStop = false ∧ (stop.bank.task.all fun t => t.ending.isNone) = true ∧ stop.bank.ctx ≠ stop.core.stallCtx)) := by
  refine ⟨?_, ?_, ?_, ?_⟩
  · decide +kernel
  · intro b x h; revert h; exact (by decide +kernel : ({ placeS with ctxs := { recordS.recordCtx 0 1 with saved := [(0, { base.bank with ctx := 1 })] } :: placeS.ctxs } : State).core.shadow = .free) ▸ nofun
  · exact ⟨0x80000000, by decide +kernel⟩
  · decide +kernel
/-- A run of three host writes to a block takes the fourth; a core that leaves its site holds no tasks and has lost no message; spare sites. -/
theorem wit_HostAccesses_run : joinHost (0x1000, 24) 0x1018 = (0x1000, 32) ∧ joinHost (0x1000, 24) 0x1020 = (0x1020, 8) ∧ joinHost (0x1008, 8) 0x1010 = (0x1010, 8)
    ∧ (let s := (onCore (base.modBank fun b => { b with task := none }) fun k => { k with leaving := some k.part, moving := true }).modDev fun d => { d with sites := { d.sites with spares := [271] } }
      s.core.moving = true ∧ s.core.trans = none ∧ s.bank.task = none ∧ s.bank.tail = [] ∧ s.core.shadow = .free ∧ s.dev.fab.net = []
      ∧ dieOf 271 = dieOf (s.modDev fun d => { d with sites := { d.sites with site := d.sites.site.set 0 200 } }).dev.sites.site[(0 : Fin 256)]) := by decide +kernel
/-- A core that asks for notices of its level, one below the level it rises to. -/
theorem wit_PowerEvents_notice : (let s := ((base.modBank fun b => { b with netctl := 1 }).modCtx fun c => { c with evmask := 1, tvec := 0x50001 })
    s.bank.netctl ≠ 0 ∧ s.core.level < s.bank.netctl ∧ s.bank.task.isSome = true ∧ (s.ctxOf s.bank.ctx).evmask.getLsbD 0 = true ∧ (s.ctxOf s.bank.ctx).tvec.getLsbD 0 = true) := by decide +kernel
/-- A transition before its restart and at it, of each kind; a dropped core whose record is due; and a discard whose nest has loads. -/
theorem wit_TrapAndGearEvents_more : (let t := fun (n : W64) (why : TransWhy) => onCore base fun k => { k with trans := some (.f, why), restart := n }
    (t 1 .gear).dev.fabricCycles < (t 1 .gear).core.restart ∧ (t 0 .drop).core.restart ≤ (t 0 .drop).dev.fabricCycles
    ∧ (let d := (onCore base fun k => { k with dropped := true }).modBank fun b => { b with due := [⟨0, 3, none⟩], strands := b.strands.map fun r => { r with arr := ⟨true, 0, 3, false, false, true⟩ } }
      d.core.dropped = true ∧ (∃ n : Fin 4, d.bank.strands[n].run = true ∧ d.bank.strands[n].arr.valid = true ∧ ∃ e ∈ d.bank.due, e.home = d.bank.strands[n].arr.home ∧ e.bar = d.bank.strands[n].arr.bar))
    ∧ (let k := base.modTask fun t => { t with ending := some .rerun }
      k.bank.mat.loads = [] ∧ k.quietFor 0x1234 = true ∧ k.elsewhere = [] ∧ k.bank.tail = [] ∧ (∀ l, k.ctx.launch = some l → l.failed = none))
    ∧ (base.modBank fun b => { b with mat := { b.mat with loads := [⟨0, 0, Tag.none, 0, 0, [], false⟩] } }).bank.mat.loads ≠ []) := by
  refine ⟨?_, ?_, ?_, ⟨?_, ?_, ?_, ?_, ?_⟩, ?_⟩ <;> decide +kernel

/-! ## What the host reads in BAR0 (R505, R507) -/
/-- The site map: 2 bytes for each id, with bit 14 for a spare and bit 15 for a retired id (R507). -/
theorem test_siteMap : (let s := { base with agenda := [.hostRead 0 0x100] }.modDev fun d => { d with
      sites := { SiteMap.reset with site := d.sites.site.set 0 200, spare := 1, retired := 2 } }
    Nat.testBit (s.hostRead 0 0x100).toNat 14 = true ∧ (s.hostRead 0 0x100).toNat % 2 ^ 9 = 200 ∧ (s.hostRead 0 0x100).toNat / 2 ^ 16 % 2 ^ 16 = 0x8000
    ∧ s.hostRead 1 0x100 = s.partWord 0 0x100) := by decide +kernel

/-- A signalling NaN, both zeros, and an element of each kind (R92). -/
theorem wit_UnorderedComparisons : 0x7F800000 < ((ab 0xFF800001 0).rs 1).toNat % 2 ^ 31 ∧ ((ab 0x80000000 0).rs 1).toNat % 2 ^ 31 = 0
    ∧ ((ab 0x80000000 0).rs 2).toNat % 2 ^ 31 = 0 ∧ Num.isFp .f16 = true ∧ fpOf XA.zero .f16 0x7E00 = .nan ∧ (XA.zero).sub.toNat < 7
    ∧ (match fpOf XA.zero .f16 0x8000, fpOf XA.zero .f16 0 with | .fin _ m _, .fin _ k _ => m == 0 && k == 0 | _, _ => false) = true := by decide +kernel

/-! ## Witnesses of the clauses on caches, queues and what stays behind -/
/-- LDV of whole lines that the core may cache, into a mapped v31 with a free slot, with none, and with a ring that no table lists. -/
theorem wit_LoadsReadBytes_ports : (let s := withRegs (ringed []) [(1, 0x100000)]
    let full := withRegs (ringed [⟨0, false, 0⟩, ⟨1, false, 0⟩]) [(1, 0x100000)]
    let q : Ask := { acc := .load, ea := 0x100000, len := 512, align := 64 }
    s.fenceHold = false ∧ full.fenceHold = false ∧ passes s q = true ∧ passes full q = true ∧ isOk (s.loadAll false (okParts s q)) (·.length == 512) = true
    ∧ (okParts s q).length = 1 ∧ (okParts s q).flatMap (·.cacheLines) = [8192, 8193, 8194, 8195] ∧ s.strand.push = 1 ∧ s.strand.pop = 1 ∧ s.bank.loaded = true
    ∧ s.bank.task.isSome = true ∧ (s.ctx.ringOf 1).slots.length < 2 ∧ (full.ctx.ringOf 1).slots.length = 2
    ∧ ringInfo (s.modStrand fun t => { t with push := 2 }) 2 = none) := by decide +kernel
theorem wit_FencesHold_class : fenced.strand.pop = 0 ∧ fenced.strand.push = 0 ∧ XM.none.ord = .plain := by decide +kernel
/-- The line operations without a task: memory in its form and no channel retired; an address that no page maps; PREF of HBM and of a
vault; and PUBL of a window that does not exist and of one that is not mapped. -/
theorem wit_CacheAndPublish : (let s := (data 3 0).modBank fun b => { b with task := none }
    s.fenceHold = false ∧ isOk (lineOf s 0x100000) (· == some 8192) = true ∧ s.bank.task = none ∧ s.mem.wf = true ∧ ∀ k, s.deadLine k = false)
    ∧ isErr (lineOf base (2 ^ 31)) (fun e => match e with | .trap _ _ => true | _ => false) = true
    ∧ (okParts base { acc := .load, ea := 0x100000, len := 1, align := 1 }).map (fun p => (p.space, p.kind)) = [(.hbm, 0)]
    ∧ (okParts (vaultOf 0) { acc := .load, ea := 0xF0000000000040, len := 1, align := 1 }).map (fun p => (p.space, p.kind)) = [(.vault 0, 0)]
    ∧ base.core.part = some 0 ∧ (windowOf base 0 5).flags % 2 = 0 := by
  refine ⟨⟨by decide +kernel, by decide +kernel, by decide +kernel, by decide +kernel, fun k => ?_⟩, by decide +kernel, by decide +kernel, by decide +kernel, by decide +kernel, by decide +kernel⟩
  unfold State.deadLine
  rw [show (((data 3 0).modBank fun b => { b with task := none }).dev.deadChan) = [] by decide +kernel]
  rfl
/-- A store of another strand to the region is on its way, or none is; and core 2 is outside the partition. -/
theorem wit_RegionsChangeHands_others : (let r : Region := ⟨1, 0xF0000000000000, 1, 0, 0, 0⟩
    let sent := { vaultOf 0 with dev := (go (.stD 2 1 0) (withRegs (vaultOf 0) [(1, 0xF0000000000040)])).dev }
    (vaultOf 0).unperformed 0 r = false ∧ sent.unperformed 0 r = true ∧ sent.dev.fab.net.map (·.strand) = [some 0] ∧ (vaultOf 0).inPart 2 = false) := by decide +kernel
/-- MCFG with the shadow set taken; of a block that no page maps, and in COMMONS; whose A, B or OUT has no descriptor that serves; and
whose byte 255 is not zero. -/
theorem wit_MatrixConfiguration_fails : (let q : Ask := { acc := .load, ea := 0x70000, len := 256, align := 64 }
    let taken := matS.modBank fun b => { b with mat := { b.mat with shadowSt := .pending } }
    let commons := matS.wrs 0x3000C [2]
    let trap := fun (c : Nat) (e : Stop) => match e with | .trap d _ => d == c | _ => false
    taken.bank.mat.shadowSt = .pending ∧ taken.fenceHold = false ∧ matS.bank.mat.shadowSt ≠ .pending
    ∧ isErr (checkAll matS.clearFence { q with ea := 2 ^ 31 }) (trap 0x05) = true ∧ isOk (regionAt matS.clearFence .load (2 ^ 31)) (· == none) = true
    ∧ isErr (checkAll commons.clearFence q) (trap 0x04) = true ∧ isOk (regionAt commons.clearFence .load 0x70000) (fun r => r.any (·.kind == 2)) = true
    ∧ (descNow matS.clearFence 9).any (fun D => (D.reason 1 0).isSome && (D.reason 2 0).isSome && (D.reason 3 0).isSome) = true
    ∧ descNow (matS.modCtx fun c => { c with tdtab := 0x80000000 }).clearFence 0 = none
    ∧ (nestByte (BitVec.ofNat 3584 (nestBlock + 2 ^ (8 * 255) + desc 0x80000 1 1 256 6 1 * 2 ^ 2048 + desc 0x90000 1 1 1024 6 2 * 2 ^ 2560
        + desc 0xA0000 1 8 64 8 3 * 2 ^ 3072))).isSome = true) := by decide +kernel
/-- The matrix engine without a nest and with one; and MGO with a faulted token of its consumed set. -/
theorem wit_MatrixCommands_busy : matS.bank.engineBusy = false ∧ nestS.bank.engineBusy = true ∧ matS.bank.fetches = 0 ∧ matS.bank.bankLoads = []
    ∧ (let t := withTok (go (.mcfg 1) matS) 4 ⟨.faulted, 7⟩
      faulty t ⟨0, 0, 0, 4, 0⟩ = true ∧ t.bank.engineBusy = false ∧ t.bank.mat.eng ≠ .running ∧ t.bank.mat.shadowSt = .loaded) := by decide +kernel
/-- A nest of a task whose strands have ended, behind the active task's. -/
def lateS : State := nestS.modBank fun b => { b with
  tail := [{ tsk with id := 0x99 }], nests := [⟨0x99, b.strands, b.mat⟩], mat := { b.mat with running := none, eng := .idle } }
theorem wit_MatrixEvents_late : (lateS.otherTask 0x99).isSome = true ∧ (lateS.lateNest Matrix.busy).map (·.task) = some 0x99 ∧ lateS.clockStopped = false
    ∧ nestS.lateNest Matrix.busy = none ∧ nestS.bank.nests = [] ∧ (power fun p => { p with thermalStop := true }).dev.power.thermalStop = true
    ∧ ((nestS.modCore fun c => { c with trans := some (.f, .gear) }).clockStopped = true) := by decide +kernel
/-- A queue that a QFLUSH holds and one in a gear transition, and a command of q3 that writes where a nest reads. -/
theorem wit_QueueControl_held : (let f := cpyS.modBank fun b => { b with queues := b.queues.set 1 { b.queues[1] with flush := true } }
    let g := cpyS.modCore fun c => { c with trans := some (.f, .gear) }
    f.bank.queues[(1 : Fin 4)].cmds.length = 1 ∧ f.bank.queues[(1 : Fin 4)].flush = true ∧ g.core.trans.isSome = true ∧ g.bank.queues[(1 : Fin 4)].cmds.length = 1
    ∧ (let c := go (.cpy 3 1) (withRegs (base.wrs 0x100000 (toLe 128 (copyBlock - 0x102000 * 2 ^ 64 + 0x80000 * 2 ^ 64))) [(1, 0x100000)])
      let t := nestS.modBank fun b => { b with queues := b.queues.set 3 { b.queues[3] with cmds := c.bank.queues[(3 : Fin 4)].cmds.map fun x => { x with id := 100 } } }
      (t.bank.queues[(3 : Fin 4)].cmds.map fun c => (c.used, t.passBefore 3 c, c.started)) = [([], true, false)] ∧ t.fetchHeld = false)) := by decide +kernel
/-- A command that a QFLUSH removed while a write of it was on its way. -/
theorem wit_CopyEvents_removed : (let far := cpyS.modBank fun b => { b with queues := b.queues.set 1 { b.queues[1] with cmds := b.queues[1].cmds.map fun c =>
      { c with started := true, total := 0, fault := some (0, 3, 0) } } }
    (far.bank.queues[(1 : Fin 4)].cmds.all fun c => c.started && c.total == c.done && c.acks == 0 && c.fault == some (0, 3, 0)) = true
    ∧ far.bank.queues[(1 : Fin 4)].cmds.length = 1) := by decide +kernel
/-- A context that takes a notice, and one with no handler; of two pending notices the one that it enables; and an ended task's. -/
theorem wit_Notices : (let s := (base.modCtx fun c => { c with tvec := 0x50001, evmask := 2 }).modBank fun b => { b with evpend := 3 }
    Delivers s 1 ∧ ¬ Delivers s 0 ∧ (∃ left, FirstNotice s 1 left) ∧ s.bank.trap.entry = none)
    ∧ (∀ j, ¬ Delivers (base.modBank fun b => { b with evpend := 3 }) j) := by
  have h1 : Delivers ((base.modCtx fun c => { c with tvec := 0x50001, evmask := 2 }).modBank fun b => { b with evpend := 3 }) 1 :=
    ⟨by decide +kernel, by decide +kernel, tsk, by decide +kernel, rfl⟩
  have h0 : ¬ Delivers ((base.modCtx fun c => { c with tvec := 0x50001, evmask := 2 }).modBank fun b => { b with evpend := 3 }) 0 :=
    fun h => absurd h.2.1 (by decide +kernel)
  have h2 : ¬ Delivers ((base.modCtx fun c => { c with tvec := 0x50001, evmask := 2 }).modBank fun b => { b with evpend := 3 }) 2 :=
    fun h => absurd h.2.1 (by decide +kernel)
  refine ⟨⟨h1, h0, ⟨0, by decide +kernel, h1, ?_, ?_⟩, by decide +kernel⟩, fun j h => absurd h.1 (by decide +kernel)⟩
  · intro i hi _
    obtain rfl : i = 0 := by omega
    exact h0
  · intro i
    refine ⟨fun h => absurd h (by simp), fun h => ?_⟩
    have : i = 0 ∨ i = 1 ∨ i = 2 := by omega
    rcases this with rfl | rfl | rfl
    · exact absurd h.2.2 h0
    · exact absurd rfl h.1
    · exact absurd h.2.2 h2
/-- The core's clock stands, in a transition and at the stop of 115 °C; and nothing is saved for the core. -/
theorem wit_TrapEvents_stands : ((base.modCore fun c => { c with trans := some (.f, .gear) }).core.trans.isSome = true)
    ∧ (power fun p => { p with thermalStop := true }).dev.power.thermalStop = true ∧ (∀ x ∈ base.ctxs, ∀ e ∈ x.saved, e.1 ≠ 0) := by decide +kernel
/-- A message that may arrive, of itself and not for an access that has taken place; and a core that has had its cycle. -/
theorem wit_MessagesAnswered_echo : ((msgS 6 id).dev.fab.net.map (·.echo)) = [false]
    ∧ (base.modCore fun c => { c with cycled := some 0 }).core.cycled = some base.dev.fabricCycles ∧ base.core.cycled ≠ some base.dev.fabricCycles
    ∧ (let s := base.modCtx fun c => { c with tvec := 0x50001, evmask := 4 }
      s.ctx.evmask.getLsbD 2 = true ∧ s.ctx.tvec.getLsbD 0 = true ∧ s.bank.task = some tsk ∧ tsk.ending = none) := by decide +kernel
/-- The first error of a link and its eighth within W seconds. -/
theorem wit_MeshAndLinkEvents_errors : (let u := ErrUnit.link 5 .e
    let s := base.modDev fun d => { d with errors := [⟨u, List.replicate 7 0, false⟩] }
    base.dev.errT[(4 : Fin 6)] = 8 ∧ base.dev.errors = [] ∧ (s.dev.errors.find? fun e => e.u == u).map (·.times.length) = some 7
    ∧ s.dclk.toNat - 0 ≤ s.dev.errW[(4 : Fin 6)] * 10 ^ 9) := by decide +kernel
/-- A line that a core's message waits for. -/
theorem wit_FillAndWalk_asked : ((msgS 0 fun m => { m with addr := 640, count := 8 }).dev.fab.net.find? fun m =>
    decide (m.kind.toNat ≤ 2 ∧ m.addr / 128 ≤ 5 ∧ 5 * 128 < m.addr + max m.count m.data.length)).isSome = true := by decide +kernel
/-- The instance of a clause enters the pool, which no other instance of the partition may enter first. -/
theorem wit_LaunchEvents_alone : (let s := startS.wrs (0x81000 + 51) [1]
    s.ctxs.map (·.id) = [0] ∧ (s.ctxs.all fun c => c.launch.any fun l => l.elig.length == 1 && l.elig.all fun y => !y.ready) = true
    ∧ (s.ctxs.filter fun y => y.id == 0).length = 1) := by decide +kernel
/-- A task placed on a core whose gear is not that of its hint, whose last message to the power controllers has left or not. -/
noncomputable def hintedS : State := onCore (go (.taskPlacement 0) placeS) fun k => { k with shadow := match k.shadow with
  | .task t => .task { t with gapply := true, hint := 2 }
  | x => x }
theorem wit_TaskEvents_hint : (match hintedS.cores[(0 : Fin 256)].shadow with | .task t => t.gapply && t.hint == 2 | _ => false) = true
    ∧ hintedS.cores[(0 : Fin 256)].gear = .n ∧ hintedS.dev.fab.net = []
    ∧ ((hintedS.send fun id => { hintedS.msg0 4 0 id with src := 0 }).dev.fab.net.any fun m => m.kind == 4 && m.src == 0) = true := by decide +kernel
/-- A task that has ended with its nest running. -/
theorem wit_TaskEvents_nest : (let nest := nestS.modBank fun b => { b with strands := b.strands.map fun r => { r with run := false, stopped := false, ended := true } }
    nest.bank.spent = true ∧ nest.bank.mat.quiet = false) := by decide +kernel
/-- A commit whose bytes lie in the data cache. -/
noncomputable def endedS : State := go .tend (go (.stD 2 1 0) (withRegs (go (.shadowBankSwap 0) (go (.taskPlacement 0) placeS)) [(1, 0x100000), (2, 9)]))
theorem wit_TaskEvents_ended : endedS.mayCommit = true ∧ endedS.elsewhere = [] ∧ endedS.bank.tail = [] ∧ endedS.mem.wf = true ∧ endedS.core.dirty.length = 8
    ∧ (endedS.seen 0x100000) = 9 ∧ endedS.dev.deadChan = [] ∧ (endedS.bank.task.any fun t => t.marks == [] && fld t.desc 51 1 == 0 && t.version == []) = true := by
  decide +kernel
theorem wit_TaskEvents_keeps : (let w := endedS.writeBack fun _ => true
    (w.bank.task.any fun x => x.version.length == 8 && (endedS.bank.task.any fun t =>
      (allRegions (w.commitCells (x.version, x.verPois))).all fun r => !(w.commitCells (x.version, x.verPois)).outputOf t r)) = true) := by decide +kernel
/-- The pool places a first task in a bank that a fill has brought in. -/
theorem wit_TaskEvents_filled : (let s := onCore placeS fun k => { k with shadow := .filled { Bank.clear with loaded := true, ctx := 0 } none, bank := { k.bank with ctx := 1 } }
    (match (go (.taskPlacement 0) s).cores[(0 : Fin 256)].shadow with | .filled b (some t) => b.ctx == 0 && t.code == 0x40000 | _ => false) = true) := by decide +kernel
/-- The last line of a save-area slot that pages map, and a fill that stopped for a context with a first task. -/
theorem wit_ContextSwapEvents_lines : (walkKey base base.ctx.pgroot.toNat ((0x62000 - 1) / 128 * 128)).isSome = true
    ∧ (let stop := onCore base fun k => { k with stall := true, stallDir := true, stallCtx := 1, shadow := .filled { Bank.clear with loaded := true, ctx := 1 } (some tsk) }
      stop.core.stall = true ∧ stop.core.trans = none ∧ stop.bank.ctx ≠ stop.core.stallCtx) := by decide +kernel
/-- A partition command while a RESIZE runs, and one that waits after it; a core with nothing saved for it and with a preloaded task. -/
theorem wit_HostCommands_waits : (let busy := base.modDev fun d => { d with devBusy := true }
    let waits := base.modDev fun d => { d with cmds := [(0, 1 + 2 ^ 16)] }
    busy.dev.fethen.boot = .running ∧ busy.parts[(0 : Fin 16)].busy = false ∧ busy.dev.devBusy = true ∧ waits.dev.devBusy = false
    ∧ waits.dev.cmds = [((0 : Fin 16), BitVec.ofNat 64 (1 + 2 ^ 16 * (1 : BitVec 8).toNat))]
    ∧ (waits.modDev fun d => { d with cmds := [] }).registerResult 0 1 ≠ 0 ∧ (recordS.modDev fun d => { d with cmds := [] }).registerResult 0 1 = 0
    ∧ (∀ x ∈ base.ctxs, ∀ e ∈ x.saved, e.1 = 0 → e.2.task = none ∧ e.2.tail = [])
    ∧ (let s := go (.taskPlacement 0) placeS
      (match s.cores[(0 : Fin 256)].shadow with | .task t => t.code == 0x40000 | _ => false) = true ∧ (s.part 0).pool.length < 4096
      ∧ (s.ctxOf 0).launch.any (fun l => l.failed.isNone) = true ∧ s.dev.devBusy = false ∧ s.cores[(0 : Fin 256)].retired = false
      ∧ s.cores[(0 : Fin 256)].leaving = none ∧ s.cores[(0 : Fin 256)].part = some 0)) := by decide +kernel
/-- Messages that a tracker lists, and one that has none. -/
theorem wit_HostCommands_trackers : (trackedAt 0 { base.msg0 1 1 7 with st := .admitted, tag := some 3 } = true) ∧ trackedAt 0 { base.msg0 1 1 7 with st := .admitted, tag := none } = false
    ∧ trackedAt 1 { base.msg0 1 1 7 with st := .admitted, qtrk := some 3 } = true := by decide +kernel
/-- The unit of an error with a block, and one without; an image that no key of the vendor signed; a core that leaves a partition and then its site. -/
theorem wit_BootAndErrorEvents_blocks : (base.errorBlock (.vaultBank 3 1)).isSome = true ∧ (base.errorBlock (.hbmRow 4 7)).isSome = true ∧ base.errorBlock (.link 3 .e) = none
    ∧ (let s := onCore (base.modBank fun b => { b with task := none }) fun k => { k with leaving := some none, moving := true }
      s.core.moving = true ∧ s.bank.nests = [] ∧ s.core.leaving = some none ∧ s.dev.resizing = none ∧ (s.modDev fun d => { d with resizing := some 0 }).dev.resizing = some 0) := by decide +kernel
/-- A started command for package 9, through port 2. -/
theorem wit_OtherPackages_down : (let s := (cpyS.modBank fun b => { b with queues := b.queues.set 1 { b.queues[1] with cmds := b.queues[1].cmds.map fun c =>
      { c with started := true, kind := .xpush, far := 9 } } }).modDev fun d => { d with zikin := { d.zikin with up := 4, routes := [(9, 2)] } }
    (s.bank.queues[(1 : Fin 4)].cmds.map fun c => (c.isFar, c.started)) = [(true, true)] ∧ s.bank.loaded = true ∧ (∃ y ∈ s.ctxs, y.id = s.bank.ctx)
    ∧ (∀ x ∈ s.dev.zikin.out, ¬ ∃ r ∈ s.dev.zikin.routes, r.1 = x.pkg ∧ r.2 = 2)) := by decide +kernel

end Sys2Proof.Tests
end

section
/-! Integer division (R87): what the quotients and remainders of the model are as bit vectors, and what the instructions put. -/
namespace Sys2Proof.Num

@[simp] theorem divU_zero (a w : Nat) : divU a 0 w = 2 ^ w - 1 := if_pos rfl
@[simp] theorem divS_zero (a : Int) : divS a 0 = -1 := if_pos rfl
theorem divU_of_ne_zero {b : Nat} (h : b ≠ 0) (a w : Nat) : divU a b w = a / b := if_neg h
theorem divS_of_ne_zero {b : Int} (h : b ≠ 0) (a : Int) : divS a b = a.tdiv b := if_neg h
/-- The remainder by zero is the library's: the dividend. -/
theorem remU_eq_mod (a b : Nat) : remU a b = a % b := by
  unfold remU; split
  · next h => rw [h, Nat.mod_zero]
  · rfl
theorem remS_eq_tmod (a b : Int) : remS a b = a.tmod b := by
  unfold remS; split
  · next h => rw [h, Int.tmod_zero]
  · rfl

variable {w : Nat}
theorem ofNat_divU_zero (x : BitVec w) : BitVec.ofNat w (divU x.toNat (0 : BitVec w).toNat w) = BitVec.allOnes w :=
  BitVec.eq_of_toNat_eq (by simp)
theorem ofInt_divS_zero (x : BitVec w) : BitVec.ofInt w (divS x.toInt (0 : BitVec w).toInt) = BitVec.allOnes w := by
  simp [BitVec.ofInt_neg, BitVec.neg_one_eq_allOnes]
theorem ofNat_divU {y : BitVec w} (h : y ≠ 0) (x : BitVec w) : BitVec.ofNat w (divU x.toNat y.toNat w) = x / y := by
  rw [divU_of_ne_zero (by simpa [← BitVec.toNat_inj] using h), BitVec.udiv_def]
theorem ofNat_remU (x y : BitVec w) : BitVec.ofNat w (remU x.toNat y.toNat) = x % y := by
  rw [remU_eq_mod, BitVec.umod_def]
theorem ofInt_divS {y : BitVec w} (h : y ≠ 0) (x : BitVec w) : BitVec.ofInt w (divS x.toInt y.toInt) = x.sdiv y := by
  rw [divS_of_ne_zero (by simpa [← BitVec.toInt_inj] using h)]
  exact BitVec.eq_of_toInt_eq (by rw [BitVec.toInt_ofInt, BitVec.toInt_sdiv])
theorem ofInt_remS (x y : BitVec w) : BitVec.ofInt w (remS x.toInt y.toInt) = x.srem y := by
  rw [remS_eq_tmod, ← BitVec.toInt_srem, BitVec.ofInt_toInt]

theorem intMin_sdiv_allOnes : (BitVec.intMin w).sdiv (BitVec.allOnes w) = BitVec.intMin w := by
  rw [← BitVec.neg_one_eq_allOnes, BitVec.intMin_sdiv_neg_one]
theorem srem_allOnes (x : BitVec w) : x.srem (BitVec.allOnes w) = 0 := by
  apply BitVec.eq_of_toInt_eq
  rw [BitVec.toInt_srem, BitVec.toInt_allOnes]
  split
  · simp
  · next h =>
    obtain rfl : w = 0 := by omega
    simp [BitVec.of_length_zero (x := x)]
/-- Division of numbers with a sign truncates towards zero, where the quotient is in range. -/
theorem sdiv_srem_truncates {x y : BitVec w} (hy : y ≠ 0) (hov : ¬ (x = BitVec.intMin w ∧ y = BitVec.allOnes w)) :
    x.toInt = y.toInt * (x.sdiv y).toInt + (x.srem y).toInt ∧ (x.srem y).toInt.natAbs < y.toInt.natAbs
    ∧ (0 ≤ x.toInt → 0 ≤ (x.srem y).toInt) ∧ (x.toInt ≤ 0 → (x.srem y).toInt ≤ 0) := by
  have hq : (x.sdiv y).toInt = x.toInt.tdiv y.toInt :=
    BitVec.toInt_sdiv_of_ne_or_ne x y (by rw [BitVec.neg_one_eq_allOnes]; exact Decidable.not_and_iff_not_or_not.mp hov)
  have hy' : y.toInt ≠ 0 := by simpa [← BitVec.toInt_inj] using hy
  rw [hq, BitVec.toInt_srem]
  refine ⟨(Int.mul_tdiv_add_tmod _ _).symm, ?_, Int.tmod_nonneg _, fun hx => ?_⟩
  · rw [Int.natAbs_tmod]; exact Nat.mod_lt _ (Int.natAbs_pos.mpr hy')
  · have h := Int.tmod_nonneg y.toInt (Int.neg_nonneg_of_nonpos hx)
    rw [Int.neg_tmod] at h
    omega

end Sys2Proof.Num
namespace Sys2Proof.Machine

/-- An instruction whose meaning is `State.put` puts its value. -/
theorem puts_of_put {s : State} {i : Instr} {n : Nat} {d : Fin 64} {x : W64} (h : exec i s = s.put n d x) : Puts s i n d x :=
  ⟨_, h, Retired.setS s n d x⟩
theorem puts_div (s : State) (d a b : Fin 64) :
    Puts s (.div d a b) 1 d (BitVec.ofNat 64 (Num.divU (s.rs a).toNat (s.rs b).toNat 64)) := puts_of_put rfl
theorem puts_divs (s : State) (d a b : Fin 64) :
    Puts s (.divs d a b) 1 d (BitVec.ofInt 64 (Num.divS (s.rs a).toInt (s.rs b).toInt)) := puts_of_put rfl
theorem puts_rem (s : State) (d a b : Fin 64) : Puts s (.rem d a b) 1 d (s.rs a % s.rs b) :=
  puts_of_put (by rw [← Num.ofNat_remU]; rfl)
theorem puts_rems (s : State) (d a b : Fin 64) : Puts s (.rems d a b) 1 d ((s.rs a).srem (s.rs b)) :=
  puts_of_put (by rw [← Num.ofInt_remS]; rfl)

/-- Settles O7: by zero as the model's own case says, and else the library's unsigned and truncating division of bit vectors. -/
theorem integerDivision : Obligations.IntegerDivision := by
  unfold Obligations.IntegerDivision
  intro s d a b x y
  refine ⟨BitVec.ofNat 64 (Num.divU x.toNat y.toNat 64), x % y, BitVec.ofInt 64 (Num.divS x.toInt y.toInt), x.srem y,
    puts_div s d a b, puts_rem s d a b, puts_divs s d a b, puts_rems s d a b, ?_⟩
  clear_value x y
  refine ⟨?_, ?_, fun hy => ?_, fun hy hov => ?_⟩
  · rintro rfl
    exact ⟨Num.ofNat_divU_zero x, BitVec.umod_zero, Num.ofInt_divS_zero x, BitVec.srem_zero⟩
  · rintro rfl rfl
    exact ⟨(Num.ofInt_divS (by decide) _).trans Num.intMin_sdiv_allOnes, Num.srem_allOnes _⟩
  · have hpos : 0 < y.toNat := Nat.pos_of_ne_zero (by simpa [← BitVec.toNat_inj] using hy)
    rw [Num.ofNat_divU hy, BitVec.toNat_udiv, BitVec.toNat_umod]
    exact ⟨(Nat.div_add_mod _ _).symm, Nat.mod_lt _ hpos⟩
  · rw [Num.ofInt_divS hy]
    exact Num.sdiv_srem_truncates hy hov

end Sys2Proof.Machine
end

section
/-! Floating-point comparisons (R92): what `compare` says of a NaN and of zeros, and the two places in which the model uses it. -/
namespace Sys2Proof.Num

theorem compare_of_nan {t : Ty} {x y : Nat} (h : read t x = .nan ∨ read t y = .nan) (op : Nat) :
    compare t op x y = (op == 1 || op == 6) := by
  rcases h with h | h <;> simp [compare, h, isNan]
@[simp] theorem scaled_zero (n : Bool) (e b : Int) : scaled n 0 e b = 0 := by simp [scaled]
theorem cmp_zeros (n1 n2 : Bool) (e1 e2 : Int) : cmp (.fin n1 0 e1) (.fin n2 0 e2) = 0 := by simp [cmp]
/-- Zeros of either sign compare equal. -/
theorem compare_of_zeros {t : Ty} {x y : Nat} {n1 n2 : Bool} {e1 e2 : Int} (hx : read t x = .fin n1 0 e1)
    (hy : read t y = .fin n2 0 e2) (op : Nat) : compare t op x y = (op == 0 || op == 3 || op == 5) := by
  simp only [compare, hx, hy, isNan, cmp_zeros]
  match op with
  | 0 | 1 | 2 | 3 | 4 | 5 => rfl
  | n + 6 => simp

/-- The F32 encodings above that of infinity, but for the sign, are the NaNs (R71). -/
theorem read_f32_nan {x : Nat} (h : 0x7F800000 < x % 2 ^ 31) : read .f32 x = .nan := by
  have he : x % 2 ^ 32 / 2 ^ 23 % 2 ^ 8 = 2 ^ 8 - 1 := by omega
  have hf : x % 2 ^ 32 % 2 ^ 23 ≠ 0 := by omega
  simp only [read, Fmt.of, Ty.bits, hasInf, he, hf, beq_self_eq_true, Bool.and_self, if_true, if_false]
theorem read_f32_zero {x : Nat} (h : x % 2 ^ 31 = 0) : ∃ n e, read .f32 x = .fin n 0 e := by
  have he : x % 2 ^ 32 / 2 ^ 23 % 2 ^ 8 = 0 := by omega
  have hf : x % 2 ^ 32 % 2 ^ 23 = 0 := by omega
  exact ⟨_, _, by simp only [read, Fmt.of, Ty.bits, hasInf, he, hf]; rfl⟩

end Sys2Proof.Num
namespace Sys2Proof.Machine

theorem lowF_mod (x : W64) : lowF x % 2 ^ 31 = x.toNat % 2 ^ 31 := by unfold lowF; omega
/-- FEQ, FLT and FLE put what `compare` answers to 0, 2 and 3 of the low halves. -/
theorem puts_f32_comparisons {s : State} {a b : Fin 64} {c : Nat → Bool} (d : Fin 64) (long : Bool)
    (h : ∀ op, Num.compare .f32 op (lowF (s.rs a)) (lowF (s.rs b)) = c op) :
    Puts s (.feq d a b long) (parcels long) d (flag (c 0)) ∧ Puts s (.flt d a b long) (parcels long) d (flag (c 2))
      ∧ Puts s (.fle d a b long) (parcels long) d (flag (c 3)) := by
  simp only [← h]
  exact ⟨puts_of_put rfl, puts_of_put rfl, puts_of_put rfl⟩
theorem f32_comparisons_of_nan {s : State} {a b : Fin 64} (d : Fin 64) (long : Bool)
    (h : 0x7F800000 < (s.rs a).toNat % 2 ^ 31 ∨ 0x7F800000 < (s.rs b).toNat % 2 ^ 31) :
    Puts s (.feq d a b long) (parcels long) d 0 ∧ Puts s (.flt d a b long) (parcels long) d 0
      ∧ Puts s (.fle d a b long) (parcels long) d 0 := by
  have hnan : Num.read .f32 (lowF (s.rs a)) = .nan ∨ Num.read .f32 (lowF (s.rs b)) = .nan :=
    h.imp (fun h => Num.read_f32_nan (by rwa [lowF_mod])) fun h => Num.read_f32_nan (by rwa [lowF_mod])
  simpa [flag] using puts_f32_comparisons d long (Num.compare_of_nan hnan)
theorem f32_comparisons_of_zeros {s : State} {a b : Fin 64} (d : Fin 64) (long : Bool)
    (hx : (s.rs a).toNat % 2 ^ 31 = 0) (hy : (s.rs b).toNat % 2 ^ 31 = 0) :
    Puts s (.feq d a b long) (parcels long) d 1 ∧ Puts s (.flt d a b long) (parcels long) d 0
      ∧ Puts s (.fle d a b long) (parcels long) d 1 := by
  obtain ⟨_, _, hx⟩ := Num.read_f32_zero (x := lowF (s.rs a)) (by rwa [lowF_mod])
  obtain ⟨_, _, hy⟩ := Num.read_f32_zero (x := lowF (s.rs b)) (by rwa [lowF_mod])
  simpa [flag] using puts_f32_comparisons d long (Num.compare_of_zeros hx hy)

/-- A write of a mask register is a change of the strand's registers. -/
theorem setK_eq_modStrand (s : State) (d : Fin 8) (K : KReg) :
    s.setK d K = s.modStrand fun r => if d = 0 then r else { r with k := r.k.set d K } := by
  unfold State.setK
  split
  · simpa using (modStrand_id s).symm
  · rfl
theorem Ty.elems_le {t : Ty} (h : t ≠ .b1) : t.elems ≤ 1024 := by
  revert h; cases t <;> decide
/-- A bit of a mask register that is packed from single bits. -/
theorem getLsbD_pack (n : Nat) (hn : n ≤ 1024) (p : Nat → Bool) {j : Nat} (hj : j < n) :
    (BitVec.ofNat 1024 (pack 1 n fun i => bit (p i))).getLsbD j = p j := by
  have hlane := packGo_lane 1 (fun i => bit (p i)) n j hj
  rw [BitVec.getLsbD_ofNat, Nat.testBit_eq_decide_div_mod_eq]
  simp only [Nat.one_mul, pow_one] at hlane
  unfold pack
  rw [hlane]
  have hbit : (bit (p j) % 2 = 1) = p j := by cases p j <;> simp [bit]
  simp [hbit, show j < 1024 by omega]

/-- VecDoes holds of every weaker condition on the results. -/
theorem VecDoes.mono {s : State} {i : Instr} {n : Nat} {srcs : List (Fin 32)} {dst : Option (Fin 32)} {readsDst : Bool}
    {spans : List (Fin 32)} {P Q : (Fin 32 → VReg) → VReg → VReg → (Strand → Strand) → Prop}
    (h : VecDoes s i n srcs dst readsDst spans P) (hPQ : ∀ rd old X f, P rd old X f → Q rd old X f) :
    VecDoes s i n srcs dst readsDst spans Q := by
  obtain ⟨hbreach, hplain, hwait, hpop, hpush⟩ := h
  refine ⟨hbreach, fun hb hp hq => ?_, hwait, fun hb hp hq hl rg x rest hr hs hf => ?_, fun hb hq hl rg hr hfree => ⟨fun hp => ?_, fun hp rp x rest hrp hs hf => ?_⟩⟩
  · obtain ⟨X, f, t, h, ht⟩ := hplain hb hp hq
    exact ⟨X, f, t, hPQ _ _ _ _ h, ht⟩
  · obtain ⟨X, f, t, h, ht⟩ := hpop hb hp hq hl rg x rest hr hs hf
    exact ⟨X, f, t, hPQ _ _ _ _ h, ht⟩
  · obtain ⟨X, f, t, h, ht⟩ := (hpush hb hq hl rg hr hfree).1 hp
    exact ⟨X, f, t, hPQ _ _ _ _ h, ht⟩
  · obtain ⟨X, f, t, h, ht⟩ := (hpush hb hq hl rg hr hfree).2 hp rp x rest hrp hs hf
    exact ⟨X, f, t, hPQ _ _ _ _ h, ht⟩

/-- The bit that VCMP writes for an element: its comparison, under the mask (R203, R213). -/
def cmpBit (io : VIn) (f : VF) (x : XA) (i : Nat) : Bool :=
  io.s.masked f.k f.ty i && Num.compare f.ty x.sub.toNat
    (Num.flushIn x.ftz f.ty (lane f.ty.bits (io.v f.va) i)) (Num.flushIn x.ftz f.ty (io.y f x i))
/-- What VCMP writes into kd. -/
def cmpMask (io : VIn) (f : VF) (x : XA) : KReg := BitVec.ofNat 1024 (pack 1 f.ty.elems fun i => bit (cmpBit io f x i))
theorem getLsbD_cmpMask {io : VIn} {f : VF} {x : XA} (hty : f.ty ≠ .b1) {j : Nat} (hj : j < f.ty.elems) :
    (cmpMask io f x).getLsbD j = cmpBit io f x j := getLsbD_pack _ (Ty.elems_le hty) (cmpBit io f x) hj
/-- VCMP puts into kd the comparison of each element that the mask lets through. -/
theorem vCmp_does {s : State} {i : Instr} {n : Nat} {f : VF} {x : XA} (he : exec i s = s.vCmp n f x) (hty : f.ty ≠ .b1) :
    VecDoes s i n (f.va :: bOf f x) none false [] fun rd _ _ ef => ∃ K : KReg, alsoK (Fin.ofNat 8 f.vd.val) K ef
      ∧ ∀ j < f.ty.elems, maskOn s f j → K.getLsbD j = Num.compare f.ty x.sub.toNat
        (Num.flushIn x.ftz f.ty (el f.ty.bits (rd f.va) j)) (Num.flushIn x.ftz f.ty (yOf s f x rd j)) := by
  refine vecDoes_of (fun io => io.s.setK (fin 8 f.vd.val) (cmpMask io f x)) (fun _ => 0)
    (fun io r => if fin 8 f.vd.val = 0 then r else { r with k := r.k.set (fin 8 f.vd.val) (cmpMask io f x) })
    he (fun io => setK_eq_modStrand _ _ _) fun io old hs _ hk _ _ => ⟨cmpMask io f x, fun _ => rfl, fun j hj hm => ?_⟩
  have hrk : io.s.rk f.k = s.rk f.k := by simp only [State.rk, hk]
  have hmask : io.s.masked f.k f.ty j = true := by rw [State.masked, hrk]; exact hm
  have hy : io.y f x j = yOf s f x io.v j := by simp [VIn.y, yOf, State.scalarOp, State.rs, hs, el_eq]
  rw [getLsbD_cmpMask hty hj, cmpBit, hmask, Bool.true_and, hy, el_eq]

/-- What VCMP of a floating-point type puts for a NaN and for zeros. -/
theorem vCmp_unordered {s : State} {i : Instr} {n : Nat} {f : VF} {x : XA} (he : exec i s = s.vCmp n f x) (hty : f.ty ≠ .b1) :
    VecDoes s i n (f.va :: bOf f x) none false [] fun rd _ _ ef =>
      ∃ K : KReg, alsoK (Fin.ofNat 8 f.vd.val) K ef ∧ ∀ j < f.ty.elems, maskOn s f j → x.sub.toNat < 7 →
        let a := fpOf x f.ty (el f.ty.bits (rd f.va) j)
        let b := fpOf x f.ty (yOf s f x rd j)
        (a = .nan ∨ b = .nan → (K.getLsbD j = true ↔ x.sub = 1 ∨ x.sub = 6))
        ∧ (∀ n1 e1 n2 e2, a = .fin n1 0 e1 → b = .fin n2 0 e2 → (K.getLsbD j = true ↔ x.sub = 0 ∨ x.sub = 3 ∨ x.sub = 5)) := by
  refine (vCmp_does he hty).mono fun rd _ _ ef ⟨K, hK, hbit⟩ => ⟨K, hK, fun j hj hm _ => ⟨fun h => ?_, fun n1 e1 n2 e2 hx hy => ?_⟩⟩
  · rw [hbit j hj hm, Num.compare_of_nan h]
    simp [← BitVec.toNat_inj]
  · rw [hbit j hj hm, Num.compare_of_zeros hx hy]
    simp [← BitVec.toNat_inj, or_assoc]

/-- Settles O60: both the scalar forms and VCMP ask `compare`, which a NaN or two zeros decide. -/
theorem unorderedComparisons : Obligations.UnorderedComparisons := by
  unfold Obligations.UnorderedComparisons
  refine ⟨fun s d a b long => ⟨f32_comparisons_of_nan d long, f32_comparisons_of_zeros d long⟩, fun s f x hfp => ?_⟩
  have hty : f.ty ≠ .b1 := fun h => by rw [h] at hfp; cases hfp
  exact ⟨vCmp_unordered rfl hty, vCmp_unordered rfl hty⟩

end Sys2Proof.Machine
end

section
/-! Loop counters at the end of an instruction (R137): what a pass over one counter does, and the next PC and counters that two
passes, lc1 first, leave behind. -/
namespace Sys2Proof.Machine

/-- The next PC stands at the end of the counter's loop (R137). -/
def LoopCtr.AtEnd (l : LoopCtr) (nxt : W64) : Prop := l.active = true ∧ nxt = l.end_.setWidth 64
/-- Where the counter's loop begins. -/
def LoopCtr.start (l : LoopCtr) : W64 := l.end_.setWidth 64 - BitVec.ofNat 64 (4 * l.len.toNat)
/-- One pass of the rule of R137 over a counter: the next PC, the counter, and whether the loop goes back. -/
def LoopCtr.pass (l : LoopCtr) (nxt : W64) : W64 × LoopCtr × Bool :=
  if l.active && nxt == l.end_.setWidth 64 then
    if l.count = 1 then (nxt, { l with count := 0, active := false }, false)
    else (l.end_.setWidth 64 - 4 * l.len.setWidth 64, { l with count := l.count - 1 }, true)
  else (nxt, l, false)

namespace LoopCtr
variable {l : LoopCtr} {nxt : W64}

theorem start_eq (l : LoopCtr) : l.end_.setWidth 64 - 4 * l.len.setWidth 64 = l.start := by
  rw [start, BitVec.ofNat_mul, BitVec.ofNat_toNat, BitVec.ofNat_eq_ofNat]
theorem pass_of_not_atEnd (h : ¬ l.AtEnd nxt) : l.pass nxt = (nxt, l, false) :=
  if_neg (by simpa [AtEnd] using h)
theorem pass_of_last (h : l.AtEnd nxt) (h1 : l.count = 1) :
    l.pass nxt = (nxt, { l with count := 0, active := false }, false) := by
  obtain ⟨hact, hend⟩ := h
  simp [pass, hact, ← hend, h1]
theorem pass_of_again (h : l.AtEnd nxt) (h1 : l.count ≠ 1) :
    l.pass nxt = (l.start, { l with count := l.count - 1 }, true) := by
  obtain ⟨hact, hend⟩ := h
  rw [pass, if_pos (by simp [hact, hend]), if_neg h1, start_eq]
/-- A counter that does not go back leaves the next PC to the counter after it. -/
theorem pass_of_not_atEnd_or_last (h : ¬ l.AtEnd nxt ∨ l.count = 1) : ∃ l', l.pass nxt = (nxt, l', false) := by
  by_cases ha : l.AtEnd nxt
  · exact ⟨_, pass_of_last ha (h.resolve_left (not_not_intro ha))⟩
  · exact ⟨_, pass_of_not_atEnd ha⟩

end LoopCtr

/-- The rule of R137 is a pass over lc1, then over lc0 unless the first went back. -/
theorem loopNext_eq (pc : W64) (n : Nat) (lcs : Vector LoopCtr 2) : loopNext pc n lcs =
    (let p := lcs[1].pass (pc + BitVec.ofNat 64 (4 * n))
     let q := lcs[0].pass p.1
     if p.2.2 then (p.1, lcs.set 1 p.2.1) else (q.1, (lcs.set 1 p.2.1).set 0 q.2.1)) := rfl

namespace Strand
variable {r : Strand} {n : Nat} {nxt x : W64} {l m : LoopCtr} {b : Bool}

theorem retire_eq (r : Strand) (n : Nat) :
    r.retire n = { r with pc := (r.retire n).pc, lc := (r.retire n).lc, wait := .none } := rfl
/-- lc1 is left as its own pass has it, whatever lc0 does. -/
theorem retire_lc1 (r : Strand) (n : Nat) :
    (r.retire n).lc[1] = (r.lc[1].pass (r.pc + BitVec.ofNat 64 (4 * n))).2.1 := by
  simp only [retire, loopNext_eq]
  split <;> simp
/-- Where lc1 goes back, lc0 is not looked at. -/
theorem retire_of_lc1_back (h : r.lc[1].pass (r.pc + BitVec.ofNat 64 (4 * n)) = (x, l, true)) :
    (r.retire n).pc = x ∧ (r.retire n).lc[0] = r.lc[0] := by
  simp [retire, loopNext_eq, h]
/-- Where lc1 does not go back, lc0 decides the next PC. -/
theorem retire_of_lc1_goes_on (h : r.lc[1].pass (r.pc + BitVec.ofNat 64 (4 * n)) = (nxt, l, false))
    (h0 : r.lc[0].pass nxt = (x, m, b)) : (r.retire n).pc = x ∧ (r.retire n).lc[0] = m := by
  simp [retire, loopNext_eq, h, h0]

end Strand

/-- Settles O12: lc1 passes first, and lc0 passes at the same next PC where lc1 does not go back. -/
theorem loopBackEdge : Obligations.LoopBackEdge := by
  unfold Obligations.LoopBackEdge
  intro r n nxt at_ back l1 l0 t
  have lc1 : t.lc[1] = (l1.pass nxt).2.1 := r.retire_lc1 n
  refine ⟨r.retire_eq n, fun h => ?_, fun h h1 => ?_, fun h h1 => ?_, fun hon => ?_⟩
  · rw [lc1, LoopCtr.pass_of_not_atEnd h]
  · have hp := LoopCtr.pass_of_again h h1
    obtain ⟨hpc, hlc0⟩ := Strand.retire_of_lc1_back hp
    exact ⟨hpc, by rw [lc1, hp], hlc0⟩
  · rw [lc1, LoopCtr.pass_of_last h h1]
  · obtain ⟨l, hp⟩ := LoopCtr.pass_of_not_atEnd_or_last hon
    exact ⟨fun h => Strand.retire_of_lc1_goes_on hp (LoopCtr.pass_of_not_atEnd h),
      fun h h1 => Strand.retire_of_lc1_goes_on hp (LoopCtr.pass_of_again h h1),
      fun h h1 => Strand.retire_of_lc1_goes_on hp (LoopCtr.pass_of_last h h1)⟩

end Sys2Proof.Machine
end
